-- ==== Sys2Proof/Word.lean ====
section
/-! DEFINITION. The word types of the 4812: the byte that the host line, the block link and the
stored image are made of, and the running time in ms on which every timer of the part is measured
(section 1, introduction: "Running time is a count in ms that starts at each reset"). -/

namespace Sys2Proof

/-- One byte of a host frame, a link frame, a register entry or the stored image. -/
abbrev Byte := BitVec 8

/-- A running time, or a duration, in ms. -/
abbrev Time := Nat

/-- A 16-bit check word (R173's frame check, chapter 10.1). -/
abbrev Word16 := BitVec 16

/-- A 32-bit word: the image signature (R181) and the subject mask of a notice (R180). -/
abbrev Word32 := BitVec 32

end Sys2Proof
end

