-- ==== Sys2Proof/Syntax.lean ====
section
/-! DEFINITION. The commands and events of the 4812, one constructor per row of
spec/opcode_table.json, in the table's order. The part is a block: it takes host commands, frames,
edges, conversions, polls, answers, characters and timer expiries, each as one whole step
(95_what_each_step_holds.md).

The operand `t` of a row is the running time, in ms since the last reset, at which the step is
taken (log entry 1). Host command rows carry the decoded parameters of the command, as a batch
carries them to the owning block (R177, R178). -/

namespace Sys2Proof

/-- What a lever board's answer gives for one slot: contact N closed, contact R closed, lock coil
carrying current (R31). -/
structure SlotReading where
  n : Bool
  r : Bool
  current : Bool
  deriving DecidableEq, Repr

/-- The readings of one answer whose check is right (R31). -/
inductive Answer where
  /-- A LEVER board: its slots in slot order. -/
  | lever (slots : List SlotReading)
  /-- An INSTRUMENT board: plunger closed, commutator contacts C, B, O closed, K1 and K2 carrying
  current. -/
  | instrument (plunger c b o k1 k2 : Bool)
  deriving DecidableEq, Repr

/-- The rows of the opcode table. -/
inductive Instr where
  /-- POWER_UP_RESET (R182). -/
  | powerUpReset
  /-- WARM_START (R182). -/
  | warmStart
  /-- HOST_REQUEST_FRAME (R175): `bytes` are the bytes of the frame not yet taken by
  HOST_BYTE_RECEIVED: the whole frame from SYNC on when the receiver was hunting. -/
  | hostRequestFrame (t : Time) (bytes : List Byte)
  /-- HOST_INTERBYTE_TIMEOUT (R173). -/
  | hostInterbyteTimeout (t : Time)
  /-- HOST_FRAME_SENT (R174). -/
  | hostFrameSent (t : Time)
  /-- READ_TRACKS (R27). -/
  | readTracks (t : Time) (first count : Nat)
  /-- TEST_TRACK (R28). -/
  | testTrack (t : Time) (flag circuit wanted : Nat)
  /-- LEARN_REFERENCE (R22). -/
  | learnReference (t : Time) (circuit : Nat)
  /-- READ_LEVERS (R76). -/
  | readLevers (t : Time) (first count : Nat)
  /-- TEST_LEVER (R77). -/
  | testLever (t : Time) (flag lever wanted : Nat)
  /-- TAKE_OUT_OF_USE (R71). -/
  | takeOutOfUse (t : Time) (lever : Nat)
  /-- BRING_INTO_USE (R73). -/
  | bringIntoUse (t : Time) (lever : Nat)
  /-- READ_HOLDS (R94). -/
  | readHolds (t : Time) (first count : Nat)
  /-- TEST_HOLD (R96). -/
  | testHold (t : Time) (flag hold wanted : Nat)
  /-- READ_RELEASES (R95). -/
  | readReleases (t : Time) (first count : Nat)
  /-- REQUEST_RELEASE (R87). -/
  | requestRelease (t : Time) (release : Nat)
  /-- CANCEL_RELEASE (R91). -/
  | cancelRelease (t : Time) (release : Nat)
  /-- SEND_CODE (R103): the beats of each group. -/
  | sendCode (t : Time) (link : Nat) (groups : List Nat)
  /-- READ_LINES (R135). -/
  | readLines (t : Time) (first count : Nat)
  /-- TEST_LINE (R136). -/
  | testLine (t : Time) (flag line wanted : Nat)
  /-- RUN_TEST_LINK (R148). -/
  | runTestLink (t : Time) (link : Nat)
  /-- RUN_TEST_TABLE (R169). -/
  | runTestTable (t : Time)
  /-- READ_REGISTER (R155). -/
  | readRegister (t : Time) (count : Nat)
  /-- ADVANCE_REGISTER (R156). -/
  | advanceRegister (t : Time) (count : Nat)
  /-- SET_CLOCK (R158): the day and the time of day in tenths of a second. -/
  | setClock (t : Time) (day tenths : Nat)
  /-- READ_FAULTS (R171). -/
  | readFaults (t : Time) (first count : Nat)
  /-- TEST_FAULT (R172): a subject of none is 255. -/
  | testFault (t : Time) (flag source subject wanted : Nat)
  /-- CLEAR_FAULT (R165): a subject of none is 255. -/
  | clearFault (t : Time) (source subject : Nat)
  /-- RESUME (R166). -/
  | resume (t : Time)
  /-- OPEN_EDIT (R183). -/
  | openEdit (t : Time)
  /-- WRITE_TABLE (R184): the field bytes of one whole record. -/
  | writeTable (t : Time) (table record : Nat) (fields : List Byte)
  /-- READ_TABLE (R184). -/
  | readTable (t : Time) (table record : Nat)
  /-- COMMIT (R185). -/
  | commit (t : Time)
  /-- ABANDON_EDIT (R186). -/
  | abandonEdit (t : Time)
  /-- STAGE (R187): the value in the field's encoding. -/
  | stage (t : Time) (table record field : Nat) (value : List Byte)
  /-- READ_STATUS (R188). -/
  | readStatus (t : Time)
  /-- WARM_RESET (R179). -/
  | warmReset (t : Time)
  /-- IMAGE_WRITE_COMPLETE (R181). -/
  | imageWriteComplete (t : Time)
  /-- PULSE_RISING_EDGE (R2). -/
  | pulseRisingEdge (t : Time) (circuit : Nat)
  /-- PULSE_FALLING_EDGE (R3). -/
  | pulseFallingEdge (t : Time) (circuit : Nat)
  /-- CANDIDATE_TIMEOUT (R3). -/
  | candidateTimeout (t : Time) (circuit : Nat)
  /-- CODE_LOST (R5). -/
  | codeLost (t : Time) (circuit : Nat)
  /-- PULSE_END_CONVERSION_COMPLETE (R7): the amplitude A in counts. -/
  | pulseEndConversionComplete (t : Time) (amplitude : Nat)
  /-- WIRING_TEST_DUE (R19). -/
  | wiringTestDue (t : Time) (circuit : Nat)
  /-- WIRING_LOAD_TIME_END (R20). -/
  | wiringLoadTimeEnd (t : Time) (circuit : Nat)
  /-- WIRING_CONVERSION_COMPLETE (R21): the reading in counts. -/
  | wiringConversionComplete (t : Time) (reading : Nat)
  /-- REFERENCE_CONVERSION_COMPLETE (R167): the reading in counts. -/
  | referenceConversionComplete (t : Time) (reading : Nat)
  /-- POLL_POSITION (R30). -/
  | pollPosition (t : Time)
  /-- GOOD_ANSWER (R31): the board number and the readings the answer gives. -/
  | goodAnswer (t : Time) (board : Nat) (answer : Answer)
  /-- MISSED_POLL (R32). -/
  | missedPoll (t : Time) (board : Nat)
  /-- TRANSIT_COMPARE_EXPIRY (R35). -/
  | transitCompareExpiry (t : Time) (lever : Nat)
  /-- RELEASE_TIMER_EXPIRY (R88). -/
  | releaseTimerExpiry (t : Time) (release : Nat)
  /-- RELEASE_LAPSE (R90). -/
  | releaseLapse (t : Time) (release : Nat)
  /-- PLUNGER_CODE_END (R100). -/
  | plungerCodeEnd (t : Time) (link : Nat)
  /-- HOST_CODE_STROKE_END (R104). -/
  | hostCodeStrokeEnd (t : Time) (link : Nat)
  /-- HOST_CODE_END (R104). -/
  | hostCodeEnd (t : Time) (link : Nat)
  /-- RECEIVE_TIMEOUT (R106). -/
  | receiveTimeout (t : Time) (link : Nat)
  /-- EXPECTATION_DEADLINE (R111). -/
  | expectationDeadline (t : Time) (link : Nat)
  /-- DISAGREEMENT_COMPARE_EXPIRY (R132). -/
  | disagreementCompareExpiry (t : Time) (link : Nat)
  /-- OVERDUE_EXPIRY (R130): the link whose outbound line has the watch. -/
  | overdueExpiry (t : Time) (link : Nat)
  /-- LINK_FRAME_RECEIVED (R144): the characters of the frame not yet taken by
  LINK_CHARACTER_RECEIVED: the whole frame from START on when none was being assembled. -/
  | linkFrameReceived (t : Time) (link : Nat) (bytes : List Byte)
  /-- LINK_FRAME_ABANDONED (R138). -/
  | linkFrameAbandoned (t : Time) (link : Nat)
  /-- LINK_COLLISION (R139). -/
  | linkCollision (t : Time) (link : Nat)
  /-- LINK_FRAME_SENT (R142). -/
  | linkFrameSent (t : Time) (link : Nat)
  /-- LINE_QUIET (R139). -/
  | lineQuiet (t : Time) (link : Nat)
  /-- BACK_OFF_END (R139). -/
  | backOffEnd (t : Time) (link : Nat)
  /-- ANSWER_TIMER_EXPIRY (R143). -/
  | answerTimerExpiry (t : Time) (link : Nat)
  /-- TAKEN_TIMER_EXPIRY (R142). -/
  | takenTimerExpiry (t : Time) (link : Nat)
  /-- DATA_TIMER_EXPIRY (R144). -/
  | dataTimerExpiry (t : Time) (link : Nat)
  /-- RETRY_TIME (R142). -/
  | retryTime (t : Time) (link : Nat)
  /-- LATE_STROKE (R140). -/
  | lateStroke (t : Time) (link : Nat)
  /-- HEARTBEAT_EXPIRY (R141). -/
  | heartbeatExpiry (t : Time) (link : Nat)
  /-- SILENCE_WATCH_EXPIRY (R146). -/
  | silenceWatchExpiry (t : Time) (link : Nat)
  /-- LOOPBACK_FRAME_TIMER (R148). -/
  | loopbackFrameTimer (t : Time) (link : Nat)
  /-- LOOPBACK_FRAME_ASSEMBLED (R148): the characters the receiver assembled, from START on. -/
  | loopbackFrameAssembled (t : Time) (link : Nat) (bytes : List Byte)
  /-- LOOPBACK_FRAME_TIMEOUT (R148). -/
  | loopbackFrameTimeout (t : Time) (link : Nat)
  /-- BOX_TIME_TICK (R157). -/
  | boxTimeTick (t : Time)
  /-- SIGNATURE_CHECK_DUE (R168). -/
  | signatureCheckDue (t : Time)
  /-- CONVERTER_CHECK_DUE (R168). -/
  | converterCheckDue (t : Time)
  /-- LINK_CHARACTER_RECEIVED (R138). -/
  | linkCharacterReceived (t : Time) (link : Nat) (char : Byte)
  /-- HOST_BYTE_RECEIVED (R173). -/
  | hostByteReceived (t : Time) (value : Byte)
  deriving DecidableEq, Repr

end Sys2Proof
end

