-- ==== Sys2Proof/Decode.lean ====
section
/-! DEFINITION. The words of the opcode table. No row of it has an encoding: the rows are commands of
a block and events of its clock, its pins and its lines, and what the host sends is a frame, which
HOST_REQUEST_FRAME carries whole. -/

namespace Sys2Proof

/-- The row a word of the opcode table spells: none, as no row gives bits. -/
def decodeTableWord (_nbits _w : Nat) : Option Instr := none

end Sys2Proof
end

