-- ==== Sys2Proof/Config.lean ====
section
/-! DEFINITION. What the manual leaves open and the model leaves open with it. A constant here has
no body: nothing can evaluate it, and a statement about it holds for every value. -/

namespace Sys2Proof

/-- The four signature bytes that stand behind a stored image whose write was cut off: R181 says
that such a write "leaves the signature of the old image over changed bytes, or no signature", and
READ STATUS (R188) still sends four bytes. The argument is `State.freeCount` at the cut, so that
each cut has a value of its own. Log entry 3. -/
opaque Config.cutSignature : Nat → Word32

end Sys2Proof
end

