-- ==== Sys2Proof/Machine/Tables.lean ====
section
/-! DEFINITION. The configuration tables of the 4812 (chapter 11.1): the record of each table as
plain data, the defaults a working copy opened from UNCONFIGURED holds (R183), and access to the
numbered records. Numbers are the manual's: circuits, levers, boards, links, holds and releases
count from 1. -/

namespace Sys2Proof.Machine

/-- The record numbered `k` (from 1) of a list of records; `d` where there is none. -/
def nth {α : Type} (l : List α) (d : α) (k : Nat) : α :=
  match k with
  | 0 => d
  | j + 1 => l.getD j d

/-- The list with the record numbered `k` (from 1) replaced; unchanged where there is none. -/
def put {α : Type} (l : List α) (k : Nat) (x : α) : List α :=
  match k with
  | 0 => l
  | j + 1 => l.set j x

/-- The numbers 1 to `n`. -/
def upTo (n : Nat) : List Nat := List.range' 1 n

/-- Whether `k` is one of 1 to `n`. -/
def within (k n : Nat) : Bool := decide (1 ≤ k) && decide (k ≤ n)

/-! ### Enumerated values, each in the order of its read command -/

/-- States of a track circuit (R27). -/
inductive TrackState where
  | clear | occupied | failed | disabled
  deriving DecidableEq, Repr

/-- A position a lever can be at rest in. -/
inductive Pos where
  | normal | reverse
  deriving DecidableEq, Repr

/-- The opposite position. -/
def Pos.opposite : Pos → Pos
  | .normal => .reverse
  | .reverse => .normal

/-- Types of lever (R49). -/
inductive LeverType where
  | signal | points | lock | gate | release | spare
  deriving DecidableEq, Repr

/-- States of a block line (R135). -/
inductive LineState where
  | blocked | clear | occupied
  deriving DecidableEq, Repr

/-- Kinds of block link (R115, R137). -/
inductive LinkKind where
  | double | single
  deriving DecidableEq, Repr

/-- Roles of a link's two ends (R137). -/
inductive Role where
  | senior | junior
  deriving DecidableEq, Repr

/-- The directions a condition applies in (R50). -/
inductive Applies where
  | toReverse | toNormal | both
  deriving DecidableEq, Repr

/-- Kinds of owner of a release timer (R86). -/
inductive OwnerKind where
  | hold | sequence | lever
  deriving DecidableEq, Repr

/-- Meanings of a code (R107, R108). UNKNOWN is what an unmatched code has; no rule holds it. -/
inductive Meaning where
  | call | offer | entering | cleared | cancel | obstruction | test | unknown
  deriving DecidableEq, Repr

/-- The directions a code rule is valid for (R107). -/
inductive ValidFor where
  | sent | received | both
  deriving DecidableEq, Repr

/-- Reactions to a fault (R160). -/
inductive Reaction where
  | report | confine | suspend
  deriving DecidableEq, Repr

/-- The number by which a reaction is coded and by which reactions are ranked (R164, R171). -/
def Reaction.code : Reaction → Nat
  | .report => 0
  | .confine => 1
  | .suspend => 2

/-! ### Records -/

/-- Track circuit configuration record (section 1.1). The minimum occupancy is in tenths of a
second (R184). -/
structure TrackCfg where
  enabled : Bool := false
  pnom : Nat := 500
  aref : Nat := 2048
  drop : Nat := 500
  pickup : Nat := 750
  pickupCount : Nat := 4
  minOccupancy : Nat := 30
  lossFactor : Nat := 200
  margin : Nat := 650
  overLevel : Nat := 1500
  neighbours : List Nat := []
  wiringInterval : Nat := 60
  deriving DecidableEq, Repr

/-- Links table record (R137). -/
structure LinkCfg where
  configured : Bool := false
  kind : LinkKind := .double
  role : Option Role := none
  farBox : Option Nat := none
  turnaround : Nat := 10
  bidAnswer : Nat := 150
  dataStart : Nat := 150
  takenWait : Nat := 200
  bidRetries : Nat := 8
  dataRetries : Nat := 3
  heartbeat : Nat := 2
  silence : Nat := 6
  deriving DecidableEq, Repr

/-- Link timing record: the bell timing of a link (R97). -/
structure BellCfg where
  groupGap : Nat := 500
  endGap : Nat := 1500
  sendStroke : Nat := 120
  inGroup : Nat := 300
  betweenGroup : Nat := 900
  reply : Nat := 20
  deriving DecidableEq, Repr

/-- The remap window of the frame map (R33). -/
structure Window where
  first : Nat
  last : Nat
  target : Nat
  deriving DecidableEq, Repr

/-- Levers table record (R48). A working copy opened from UNCONFIGURED holds SPARE levers; the
manual gives no default type (log entry 9). -/
structure LeverCfg where
  type : LeverType := .spare
  blockLine : Option Nat := none
  altered : Bool := false
  deriving DecidableEq, Repr

/-- What a condition entry names and requires (R50). -/
inductive Subject where
  | lever (k : Nat) (required : Pos)
  | track (k : Nat)
  | line (k : Nat) (required : LineState)
  | hold (k : Nat)
  | release (k : Nat)
  deriving DecidableEq, Repr

/-- A condition entry in use (R50): its subject, the direction it applies to and its qualifier
lever W with the position Q. -/
structure Cond where
  subject : Subject
  applies : Applies
  qualifier : Option (Nat × Pos) := none
  deriving DecidableEq, Repr

/-- A lever's condition list, from index 1 up to its last used entry; `none` is an UNUSED entry
below a used one, which the form checks refuse (R50, R51). -/
abbrev CondList := List (Option Cond)

/-- Holds table record (R78). -/
structure HoldCfg where
  configured : Bool := false
  signal : Option Nat := none
  approach : List Nat := []
  route : List Nat := []
  timer : Option Nat := none
  deriving DecidableEq, Repr

/-- The validity of a lever-owned timer whose record is written without one, in seconds (R86, section 11.6). -/
def defaultValidity : Nat := 60

/-- Releases table record (R86). -/
structure TimerCfg where
  configured : Bool := false
  owner : Option (OwnerKind × Nat) := none
  duration : Nat := 120
  validity : Option Nat := none
  deriving DecidableEq, Repr

/-- Line configuration record of an inbound line (R115). -/
structure InboundCfg where
  arrival : Option Nat := none
  clearing : Option Nat := none
  home : Option Nat := none
  clearingPoint : List Nat := []
  timer : Option Nat := none
  deriving DecidableEq, Repr

/-- Line configuration record of an outbound line (R115). -/
structure OutboundCfg where
  departure : Option Nat := none
  overdue : Nat := 60
  deriving DecidableEq, Repr

/-- Code table rule (R107); a rule with no groups is unused. -/
structure CodeRule where
  pattern : List Nat := []
  meaning : Meaning := .call
  cls : Option Nat := none
  validFor : ValidFor := .sent
  deriving DecidableEq, Repr

/-! ### Fault sources (R160) -/

/-- The kinds of subject a fault source has. -/
inductive SubjectKind where
  | circuit | board | lever | leverOrNone | link | noSubject
  deriving DecidableEq, Repr

/-- One row of the fault source table of R160. -/
structure Source where
  kind : SubjectKind
  default : Reaction
  minimum : Reaction
  selfClearing : Bool
  deriving DecidableEq, Repr

/-- The fault source table of R160, codes 1 to 22. OVERFLOW (22) has no reaction of its own. -/
def sources : List Source :=
  [⟨.circuit, .confine, .confine, false⟩,      -- 1 TRACK_WIRING
   ⟨.circuit, .confine, .confine, false⟩,      -- 2 TRACK_FOREIGN
   ⟨.circuit, .confine, .confine, false⟩,      -- 3 TRACK_OVERLEVEL
   ⟨.circuit, .report, .report, true⟩,         -- 4 TRACK_MARGIN
   ⟨.noSubject, .confine, .confine, false⟩,    -- 5 CONVERTER
   ⟨.board, .confine, .confine, true⟩,         -- 6 BOARD_MISSING
   ⟨.lever, .confine, .confine, false⟩,        -- 7 LEVER_CONTACT
   ⟨.lever, .suspend, .confine, false⟩,        -- 8 LEVER_FORCED
   ⟨.lever, .report, .report, true⟩,           -- 9 LEVER_TRANSIT
   ⟨.lever, .suspend, .suspend, false⟩,        -- 10 COIL_STUCK_ON, lever
   ⟨.link, .suspend, .suspend, false⟩,         -- 11 COIL_STUCK_ON, link
   ⟨.lever, .report, .report, false⟩,          -- 12 COIL_STUCK_OFF, lever
   ⟨.link, .report, .report, false⟩,           -- 13 COIL_STUCK_OFF, link
   ⟨.link, .confine, .confine, false⟩,         -- 14 COMMUTATOR_CONTACT
   ⟨.link, .suspend, .confine, false⟩,         -- 15 COMMUTATOR_FORCED
   ⟨.link, .confine, .confine, true⟩,          -- 16 LINK_LOST
   ⟨.link, .confine, .confine, false⟩,         -- 17 LINK_CROSSED
   ⟨.link, .confine, .confine, false⟩,         -- 18 LINK_SELFTEST
   ⟨.link, .report, .report, true⟩,            -- 19 LINE_DISAGREE
   ⟨.leverOrNone, .suspend, .suspend, false⟩,  -- 20 EVAL_MISMATCH
   ⟨.noSubject, .suspend, .suspend, false⟩,    -- 21 TABLE_CHECK
   ⟨.noSubject, .report, .report, false⟩]      -- 22 OVERFLOW

/-- The row of R160 for a code. -/
def source (code : Nat) : Source := nth sources ⟨.noSubject, .report, .report, false⟩ code

/-- The default reactions of codes 1 to 21. -/
def defaultReactions : List Reaction := (sources.take 21).map (·.default)

/-! ### The image -/

/-- Every table, as the stored image, the working copy and the tables in force hold them. -/
structure Image where
  identity : Option Nat := none
  links : List LinkCfg := List.replicate 3 {}
  bells : List BellCfg := List.replicate 3 {}
  boards : List Bool := List.replicate 11 false
  window : Option Window := none
  levers : List LeverCfg := List.replicate 64 {}
  conditions : List CondList := List.replicate 64 []
  tracks : List TrackCfg := List.replicate 24 {}
  holds : List HoldCfg := List.replicate 16 {}
  timers : List TimerCfg := List.replicate 16 {}
  inbound : List InboundCfg := List.replicate 3 {}
  outbound : List OutboundCfg := List.replicate 3 {}
  codes : List (List CodeRule) := List.replicate 4 (List.replicate 16 {})
  reactions : List Reaction := defaultReactions
  deriving DecidableEq, Repr

/-- The working copy opened from UNCONFIGURED (R183). -/
def Image.defaults : Image := {}

/-- Link `k`'s record. -/
def Image.link (i : Image) (k : Nat) : LinkCfg := nth i.links {} k
/-- Link `k`'s bell timing. -/
def Image.bell (i : Image) (k : Nat) : BellCfg := nth i.bells {} k
/-- Whether board `b` is configured. -/
def Image.board (i : Image) (b : Nat) : Bool := nth i.boards false b
/-- Lever `k`'s record. -/
def Image.lever (i : Image) (k : Nat) : LeverCfg := nth i.levers {} k
/-- Lever `k`'s condition list. -/
def Image.conds (i : Image) (k : Nat) : CondList := nth i.conditions [] k
/-- Circuit `k`'s record. -/
def Image.track (i : Image) (k : Nat) : TrackCfg := nth i.tracks {} k
/-- Hold `k`'s record. -/
def Image.hold (i : Image) (k : Nat) : HoldCfg := nth i.holds {} k
/-- Release `k`'s record. -/
def Image.timer (i : Image) (k : Nat) : TimerCfg := nth i.timers {} k
/-- The inbound line record of link `k`. -/
def Image.inb (i : Image) (k : Nat) : InboundCfg := nth i.inbound {} k
/-- The outbound line record of link `k`. -/
def Image.outb (i : Image) (k : Nat) : OutboundCfg := nth i.outbound {} k
/-- The rules of page 0 to 3 of the code table. -/
def Image.page (i : Image) (p : Nat) : List CodeRule := nth i.codes [] (p + 1)

/-- The board of a slot: board b serves slots 8b − 7 to 8b. -/
def boardOfSlot (slot : Nat) : Nat := (slot - 1) / 8 + 1

/-- The slot the remap window, or else the identity, gives a lever, before the boards are looked
at (R33). -/
def mappedSlot (w : Option Window) (k : Nat) : Option Nat :=
  match w with
  | none => some k
  | some w =>
    if w.first ≤ k && k ≤ w.last then some (w.target + (k - w.first))
    else if w.target ≤ k && k ≤ w.target + (w.last - w.first) then none
    else some k

/-- The slot of logical lever `k` under an image (R33): none where the window took it, where it
lies beyond slot 64, or where its board is not configured. -/
def Image.slotOf (i : Image) (k : Nat) : Option Nat :=
  match mappedSlot i.window k with
  | none => none
  | some slot => if within slot 64 && i.board (boardOfSlot slot) then some slot else none

/-- The type of logical lever `k`, SPARE where it has no slot (R48). -/
def Image.typeOf (i : Image) (k : Nat) : LeverType :=
  if (i.slotOf k).isSome then (i.lever k).type else .spare

/-- The pool: the sum of the list lengths of all levers (section 11.1). -/
def Image.pool (i : Image) : Nat := (i.conditions.map List.length).sum

/-- Drops trailing UNUSED entries, so that a list ends at its last used entry (R50). -/
def trimConds (l : CondList) : CondList := (l.reverse.dropWhile Option.isNone).reverse

/-- A condition list with the entry at `index` (from 1) written (R50). -/
def writeCond (l : CondList) (index : Nat) (c : Option Cond) : CondList :=
  trimConds (put (l ++ List.replicate (index - l.length) none) index c)

end Sys2Proof.Machine
end

