-- ==== Sys2Proof/Machine/State.lean ====
section
/-! DEFINITION. The state of the 4812: every record the manual gives a block, as plain data, the
queue of waiting commands, the reasons a step can stop, and the state after reset. Each record's
default field values are its values after a reset, by the rule its docstring names. -/

namespace Sys2Proof.Machine

/-- The faults of the machine. It has none: the manual gives every command and every event an
effect in every state, and an event whose own condition does not stand changes nothing but the
running time (log entry 2). -/
inductive Fault where
  deriving DecidableEq, Repr

/-- The refusals of the machine. -/
inductive Refusal where
  /-- The row of this mnemonic has no meaning yet. Raised by `exec` alone; safe. No row is left so. -/
  | notModelled (mnemonic : String)
  deriving DecidableEq, Repr

/-! ### Track Receiver (chapter 1) -/

/-- Kinds of wiring test (R19). -/
inductive WiringKind where
  | pullUp | pullDown
  deriving DecidableEq, Repr

/-- An accepted pulse whose conversion is awaited: its rise and its period, none for a FIRST pulse
(R3, R4). -/
structure Pulse where
  rise : Time
  period : Option Nat
  deriving DecidableEq, Repr

/-- The learning record of a circuit (R22, R23). -/
structure Learning where
  previous : Option Time := none
  samples : Nat := 0
  sum : Nat := 0
  deriving DecidableEq, Repr

/-- The running record of a track circuit (section 1.1); defaults as R26 gives, for a circuit not
enabled. `above` is the envelope at the edge detector; `codeLostAt` the code-lost compare (R5);
`loadEnd` the end of the 15 ms load time of a wiring test under way (R20). Staged values are pairs
of the field's number in the record and the value, in the order staged. -/
structure Circuit where
  state : TrackState := .disabled
  g : Nat := 0
  occupiedSince : Option Time := some 0
  previousRise : Option Time := none
  above : Bool := false
  candidate : Option Time := none
  pulse : Option Pulse := none
  codeLostAt : Option Time := none
  lastP : Option Nat := none
  lastA : Option Nat := none
  lastL : Option Nat := none
  lavg : Option Nat := none
  bad : Nat := 0
  foreignActive : Bool := false
  foreignEnd : Nat := 0
  overActive : Bool := false
  overEnd : Nat := 0
  wiringActive : Bool := false
  marginActive : Bool := false
  confinement : List Nat := []
  nextWiring : Option Time := none
  wiringKind : WiringKind := .pullUp
  wiringOpen : Bool := false
  loadEnd : Option Time := none
  learning : Option Learning := none
  learnResult : Option (Nat × Bool) := none
  staged : List (Nat × Nat) := []
  deriving DecidableEq, Repr

/-- Who waits for a result: the command of the executing batch, or a host command row taken by
itself (log entry 4). -/
inductive Waiter where
  | batch | alone
  deriving DecidableEq, Repr

/-- The converter tests (R167, R168, R169). A table test carries its waiter and the result of its
signature check. -/
inductive ConverterTest where
  | startUp
  | periodic
  | table (w : Waiter) (signaturePassed : Bool)
  deriving DecidableEq, Repr

/-- A request to the converter (R6). -/
inductive Conversion where
  | pulse (circuit : Nat)
  | reference (high : Bool) (test : ConverterTest)
  | wiring (circuit : Nat)
  deriving DecidableEq, Repr

/-- The shared converter (R6): the request being converted, whether its result is to be discarded
(R20), the requests waiting, and the low reference results of tests whose high one is awaited. -/
structure Converter where
  busy : Option Conversion := none
  discard : Bool := false
  waiting : List Conversion := []
  lowResults : List (ConverterTest × Bool) := []
  deriving DecidableEq, Repr

/-! ### Frame Scanner and Locking Evaluator (chapters 2 and 3) -/

/-- One poll that was answered or missed: the output state it carried, and whether its answer was
GOOD (R38). -/
structure Poll where
  outputs : List Bool
  good : Bool
  deriving DecidableEq, Repr

/-- A board record (R29), with the output state its last poll carried (R31) and the two polls
before the one under way, latest first (R38). -/
structure Board where
  configured : Bool := false
  missing : Bool := false
  misses : Nat := 0
  goods : Nat := 0
  outputs : List Bool := []
  last : Option Poll := none
  before : Option Poll := none
  deriving DecidableEq, Repr

/-- A reading of a lever's contacts (R34). -/
inductive Reading where
  | normal | reverse | moving | both
  deriving DecidableEq, Repr

/-- The current position of a lever (section 2.4). -/
inductive Position where
  | normal | reverse | moving | unknown
  deriving DecidableEq, Repr

/-- The current position of a lever at rest in a position. -/
def Pos.atRest : Pos → Position
  | .normal => .normal
  | .reverse => .reverse

/-- Reasons of the free decision (R48, R55). -/
inductive Reason where
  | none | mode | spare | outOfUse | position | inTransit | list | mismatch | line | allowance
  deriving DecidableEq, Repr

/-- A lever: the scanner record (section 2.4) and the Evaluator's record (R48); defaults as R47 and
R75 give for a SPARE lever in UNCONFIGURED. `departed` says that the transit began with a departure
from rest, `seenUnknown` that the lever has been UNKNOWN since it last settled (R39);
`mismatchDue` that a disagreement is to be reported to the Fault Monitor at the end of the step
(R59). -/
structure Lever where
  slot : Option Nat := none
  type : LeverType := .spare
  blockLine : Option Nat := none
  lastReading : Option Reading := none
  run : Nat := 0
  current : Position := .unknown
  settled : Option Pos := none
  transitStart : Option Time := none
  transitAt : Option Time := none
  departed : Bool := false
  seenUnknown : Bool := true
  validRun : Nat := 0
  contactActive : Bool := false
  transitActive : Bool := false
  forcedActive : Bool := false
  stuckOnActive : Bool := false
  stuckOffActive : Bool := false
  confinement : List Nat := []
  outOfUse : Bool := false
  free : Bool := false
  reason : Reason := .mode
  firstUnmet : Option Nat := none
  held : Option Pos := none
  allowance : Option Bool := none
  coil : Bool := false
  lastSettle : Option Time := none
  mismatch : Bool := false
  mismatchDue : Bool := false
  copy : CondList := []
  deriving DecidableEq, Repr

/-- A position of a commutator (section 2.11). -/
inductive CommPos where
  | c | b | o
  deriving DecidableEq, Repr

/-- A reading of a commutator's contacts (R42). -/
inductive CommReading where
  | pos (p : CommPos) | gap | multiple
  deriving DecidableEq, Repr

/-- The current position of a commutator (section 2.11). -/
inductive CommCurrent where
  | rest (p : CommPos) | moving | unknown
  deriving DecidableEq, Repr

/-- The stroke state of a plunger (R44): CLOSED carries the stroke start time. -/
inductive Plunger where
  | arming | released | closed (start : Time)
  deriving DecidableEq, Repr

/-- The scanner's records of an instrument board: the commutator (R42, R43), the findings of K1 and
K2 that no agreement has followed yet (R38), the plunger (R44) and the ring end (R45); defaults as
R47 gives. -/
structure Instrument where
  lastReading : Option CommReading := none
  began : Time := 0
  current : CommCurrent := .unknown
  settled : Option CommPos := none
  contactActive : Bool := false
  confinement : List Nat := []
  k1StuckOn : Bool := false
  k2StuckOn : Bool := false
  k1StuckOff : Bool := false
  k2StuckOff : Bool := false
  stuckOnActive : Bool := false
  stuckOffActive : Bool := false
  plunger : Plunger := .arming
  ringEnd : Option Time := none
  deriving DecidableEq, Repr

/-! ### Route Hold Unit and Release Timers (chapter 4) -/

/-- States of a route hold (R78). -/
inductive HoldState where
  | idle | set | held | passing | releasing
  deriving DecidableEq, Repr

/-- The running fields of a hold (R78); none when not configured. -/
structure Hold where
  state : Option HoldState := none
  lastChange : Option Time := none
  deriving DecidableEq, Repr

/-- States of a release timer (R86). -/
inductive TimerState where
  | idle | running | complete
  deriving DecidableEq, Repr

/-- The running fields of a release timer (R86, R93). -/
structure Timer where
  state : TimerState := .idle
  expiry : Option Time := none
  lapse : Option Time := none
  staged : List (Nat × Nat) := []
  deriving DecidableEq, Repr

/-! ### Bell Code Unit (chapter 5) -/

/-- A pattern under construction: the beats of its first 4 groups, each at most 16, and the number
of groups opened (R101). -/
structure Pattern where
  beats : List Nat := []
  groups : Nat := 0
  deriving DecidableEq, Repr

/-- An open plunger code (R98, R99). `rules` is the copy of the pages in force at its opening, in
search order; `relayed` counts the STROKE items handed on (R102). -/
structure PlungerCode where
  number : Option Nat := none
  opened : Time
  pattern : Pattern := {}
  counted : Nat := 0
  previousStart : Option Time := none
  garbled : Bool := false
  relayed : Nat := 0
  rules : List CodeRule
  deriving DecidableEq, Repr

/-- An open host code (R103, R104): the stroke starts still to come with their new-group marks, and
the number of strokes handed on. -/
structure HostCode where
  number : Nat
  pattern : List Nat
  schedule : List (Time × Bool)
  stroke : Nat
  sent : Nat := 0
  endAt : Time
  rules : List CodeRule
  deriving DecidableEq, Repr

/-- An open received code (R105). -/
structure ReceivedCode where
  number : Nat
  pattern : Pattern := {}
  strokes : Nat := 0
  next : Nat := 1
  garbled : Bool := false
  lastItem : Time
  rules : List CodeRule
  deriving DecidableEq, Repr

/-- A repeat expectation (R109). -/
structure Expectation where
  pattern : List Nat
  meaning : Meaning
  cls : Option Nat
  sent : Time
  deadline : Time
  deriving DecidableEq, Repr

/-- The Bell Code Unit's records of one link (chapter 5, introduction); defaults as R113 gives.
`strokeTaken` says that a taken stroke is held. -/
structure Bell where
  plunger : Option PlungerCode := none
  strokeTaken : Bool := false
  host : Option HostCode := none
  received : Option ReceivedCode := none
  lastEnded : Option (Nat × Time) := none
  expectation : Option Expectation := none
  answerable : Option (List Nat × Time) := none
  nextCode : Nat := 0
  staged : List (Nat × Nat) := []
  deriving DecidableEq, Repr

/-! ### Block Controller (chapter 6) -/

/-- States of an arrival sequence (R114). -/
inductive SeqState where
  | idle | wait | arriving | passing | complete
  deriving DecidableEq, Repr

/-- An accepted class (R114). -/
inductive Accepted where
  | unspecified | cls (n : Nat)
  deriving DecidableEq, Repr

/-- A set of the coils K1 and K2 (R116). -/
structure Coils where
  k1 : Bool := false
  k2 : Bool := false
  deriving DecidableEq, Repr

/-- The running record of an inbound line (R114), with the last settle delivered to the Block
Controller, the cause of COMMUTATOR_FORCED and its confinement (R120), and the compare of a
standing disagreement with its cause (R132). -/
structure Inbound where
  state : Option LineState := none
  offered : Option Nat := none
  accepted : Option Accepted := none
  sequence : SeqState := .idle
  released : Bool := false
  farView : Option LineState := none
  disagreeSince : Option Time := none
  disagreeAt : Option Time := none
  disagreeActive : Bool := false
  permission : Coils := {}
  coils : Coils := {}
  handle : Option CommPos := none
  forcedActive : Bool := false
  forcedConfinement : List Nat := []
  lastChange : Option Time := none
  deriving DecidableEq, Repr

/-- The running record of an outbound line (R114); defaults as R134 gives for a line not
configured. -/
structure Outbound where
  state : Option LineState := none
  offered : Option Nat := none
  accepted : Option Accepted := none
  refusedFar : Option LineState := none
  guard : Bool := true
  departureSeen : Bool := false
  entering : Bool := false
  overdueAt : Option Time := none
  staged : List (Nat × Nat) := []
  lastChange : Option Time := none
  deriving DecidableEq, Repr

/-! ### Link Units (chapter 7) -/

/-- States of a link (chapter 7, introduction). -/
inductive LinkState where
  | idle | bidding | sending | awaitTaken | receiving | loopback | outOfUse
  deriving DecidableEq, Repr

/-- Types of link frame (section 7.2). -/
inductive FrameType where
  | bid | go | wait | data | taken | reject
  deriving DecidableEq, Repr

/-- An item of a DATA frame (section 7.2). -/
inductive Item where
  | stroke (code : Nat) (newGroup : Bool) (number units : Nat)
  | codeEnd (code count : Nat) (garbled : Bool)
  | indication (inbound outbound : LineState) (service : Bool)
  deriving DecidableEq, Repr

/-- An item waiting in the outbound queue, with the time it joined (R140). -/
structure Queued where
  item : Item
  joined : Time
  deriving DecidableEq, Repr

/-- The DATA frame of the exchange under way: how many items of the head of the queue it carries,
and its items as built (R142). -/
structure Flight where
  fromQueue : Nat
  items : List Item
  deriving DecidableEq, Repr

/-- Who asked for a loopback test (R148). -/
inductive LoopbackFor where
  | start | host (w : Waiter)
  deriving DecidableEq, Repr

/-- A loopback test under way (R148): the test frame, 0 to 5; the time it is to be started; whether
it is out, and the end of its last character. -/
structure Loopback where
  purpose : LoopbackFor
  frame : Nat := 0
  startAt : Option Time
  sentAt : Option Time := none
  deriving DecidableEq, Repr

/-- The records of one Link Unit; defaults as R150 gives for a link not configured. `sending` is
the frame on the line, `answer` an answer waiting for the line, `toDeliver` the items of a taken
DATA frame, delivered once TAKEN is sent (R144); `crossedDue` a DATA frame of a stranger, reported once
its REJECT is sent (R145); `heard` the time of the last character heard
(R139); `assembling` the characters of the frame being assembled, from TYPE on, and the time of the
last of them (R138). -/
structure Link where
  state : LinkState := .outOfUse
  queue : List Queued := []
  damaged : List Nat := []
  indicationDue : Bool := false
  bidAttempts : Nat := 0
  dataAttempts : Nat := 0
  retryAt : Option Time := none
  flight : Option Flight := none
  sending : Option FrameType := none
  answer : Option FrameType := none
  toDeliver : List Item := []
  crossedDue : Bool := false
  answerAt : Option Time := none
  takenAt : Option Time := none
  dataAt : Option Time := none
  backOffAt : Option Time := none
  heartbeatAt : Option Time := none
  silenceAt : Option Time := none
  lost : Bool := false
  confinement : List Nat := []
  heard : Option Time := none
  assembling : Option (List Byte × Time) := none
  loopback : Option Loopback := none
  staged : List (Nat × Nat) := []
  deriving DecidableEq, Repr

/-! ### Train Register (chapter 8) -/

/-- Interlocking modes (R188). -/
inductive Mode where
  | unconfigured | editing | service | suspended
  deriving DecidableEq, Repr

/-- Causes of a CLEAR_LOST entry (R152). -/
inductive ClearLostCause where
  | linkLost | outOfUse | notInService
  deriving DecidableEq, Repr

/-- Causes of a RELEASE_CANCELLED entry (R152). -/
inductive CancelCause where
  | owner | consumed | lapsed | host
  deriving DecidableEq, Repr

/-- Causes of a RESET entry (R152). -/
inductive ResetCause where
  | supply | warmReset | commit | abandonEdit
  deriving DecidableEq, Repr

/-- What an entry records: its kind with the subject and details of R152. -/
inductive Event where
  | codeSent (link : Nat) (pattern : List Nat) (meaning : Option Meaning) (cls : Option Nat)
      (garbled byHost : Bool)
  | codeReceived (link : Nat) (pattern : List Nat) (meaning : Option Meaning) (cls : Option Nat)
      (garbled : Bool)
  | codeAck (link : Nat) (pattern : List Nat) (meaning : Meaning) (cls : Option Nat)
  | codeNotRepeated (link : Nat) (pattern : List Nat) (meaning : Meaning) (cls : Option Nat)
  | codeUnanswered (link : Nat) (pattern : List Nat) (meaning : Meaning) (cls : Option Nat)
  | lineState (line : Nat) (old : Option LineState) (new : LineState) (accepted : Option Accepted)
  | conflict (line : Nat) (far : LineState)
  | clearLost (line : Nat) (cause : ClearLostCause)
  | overdue (line seconds : Nat)
  | hold (hold : Nat) (old new : HoldState)
  | releaseStarted (release : Nat) (owner : OwnerKind × Nat) (seconds : Nat)
  | releaseComplete (release : Nat) (owner : OwnerKind × Nat)
  | releaseCancelled (release : Nat) (owner : OwnerKind × Nat) (cause : CancelCause)
  | faultRaised (source : Nat) (subject : Option Nat) (reaction : Reaction) (count : Nat)
  | faultCleared (source : Nat) (subject : Option Nat) (reaction : Reaction) (count : Nat)
      (byHost : Bool)
  | mode (old : Option Mode) (new : Mode)
  | reset (cause : ResetCause)
  | clockSet (oldDay oldTenths : Nat)
  deriving DecidableEq, Repr

/-- An entry of the train register (R151). -/
structure Entry where
  seq : Nat
  day : Nat
  tenths : Nat
  event : Event
  deriving DecidableEq, Repr

/-- The Train Register (chapter 8): the ring, oldest first, whose length is the held count; the
unread count; the next sequence number; box time. -/
structure Register where
  ring : List Entry := []
  unread : Nat := 0
  nextSeq : Nat := 0
  day : Nat := 0
  tenths : Nat := 0
  deriving DecidableEq, Repr

/-! ### Fault Monitor (chapter 9) -/

/-- A fault record (section 9.2); times are box time. -/
structure FaultRecord where
  source : Nat
  subject : Option Nat
  active : Bool
  count : Nat
  firstDay : Nat
  firstTenths : Nat
  lastDay : Nat
  lastTenths : Nat
  reaction : Reaction
  deriving DecidableEq, Repr

/-- The Fault Monitor: the fault table in order of creation, the overflow record (R164), the causes
it tracks itself, and the schedule of the short-period tests (R168). `checkWaiting` is a periodic
signature check that waits for an image write to end. -/
structure Faults where
  records : List FaultRecord := []
  overflowCount : Nat := 0
  overflowLast : Option (Nat × Option Nat) := none
  overflowReaction : Option Reaction := none
  converterActive : Bool := false
  tableActive : Bool := false
  signatureAt : Option Time := none
  checkWaiting : Bool := false
  converterAt : Option Time := none
  deriving DecidableEq, Repr

/-! ### Configuration Store (chapter 11) -/

/-- States of the stored image (R181). -/
inductive ImageState where
  | blank | good | bad
  deriving DecidableEq, Repr

/-- The stored image with its signature; `cut` says that a write of it was cut off by a power-up
reset, so that the signature does not stand for the bytes (R181). -/
structure Stored where
  image : Image
  signature : Word32
  cut : Bool := false
  deriving DecidableEq, Repr

/-- What an image write changes (R181). -/
inductive Patch where
  /-- COMMIT: the whole image. -/
  | whole (image : Image)
  /-- TAKE OUT OF USE: the lever's membership of the alteration set. -/
  | takeOut (lever : Nat)
  /-- BRING INTO USE: the lever's list, and its membership removed. -/
  | bringIn (lever : Nat) (list : CondList)
  /-- WRITE TABLE of a code table rule in SERVICE or SUSPENDED. -/
  | code (page rule : Nat) (value : CodeRule)
  /-- Staged fields of one record, as field numbers and values. -/
  | fields (table record : Nat) (values : List (Nat × Nat))
  deriving DecidableEq, Repr

/-- An image write, with the command that waits for its end. -/
structure Job where
  patch : Patch
  waiter : Option Waiter
  deriving DecidableEq, Repr

/-- The Configuration Store: the stored image, its state as last found, the tables in force, the
working copy, and the image writes, the one under way first. -/
structure Store where
  stored : Option Stored := none
  imageState : ImageState := .blank
  inForce : Option Image := none
  work : Option Image := none
  jobs : List Job := []
  deriving DecidableEq, Repr

/-! ### Host Port (chapter 10) -/

/-- Keys of notices (R180). -/
inductive Key where
  | mode | tracks | levers | lines | holds | releases | register | faults | codes
  deriving DecidableEq, Repr

/-- A queued notice: its key and its subject mask (R180). -/
structure Notice where
  key : Key
  mask : Word32
  deriving DecidableEq, Repr

/-- Results of a command (R178). -/
inductive ResultCode where
  | done | skipped | notRun | refused
  deriving DecidableEq, Repr

/-- Reasons of a refused command (R178). -/
inductive RefuseReason where
  | none | badCode | badParam | range | state | busy | protectedField | tableFull | tableForm
  deriving DecidableEq, Repr

/-- The result of one command (R178). -/
structure CmdResult where
  code : Nat
  result : ResultCode
  reason : RefuseReason
  data : List Byte
  deriving DecidableEq, Repr

/-- A command of a request (R176): its code, its guard byte and its parameters. -/
structure Command where
  code : Nat
  guard : Byte
  params : List Byte
  deriving DecidableEq, Repr

/-- A request that has passed its form checks (R176). -/
structure Request where
  tag : Byte
  halt : Bool
  commands : List Command
  deriving DecidableEq, Repr

/-- The executing batch (R177): the results so far; the command whose later end is awaited, none while the
turn of the next command has come; the commands whose turns are still to be taken; and whether the first
of those is the companion of a paired command that was SKIPPED. -/
structure Batch where
  tag : Byte
  halt : Bool
  count : Nat
  results : List CmdResult := []
  awaited : Option Command := none
  rest : List Command
  skip : Bool := false
  deriving DecidableEq, Repr

/-- Kinds of frame the 4812 sends (section 10.1). -/
inductive OutKind where
  | reply | notice | refusal
  deriving DecidableEq, Repr

/-- A frame to the host; `final` marks the reply after which the part warm-starts (R179). -/
structure OutFrame where
  kind : OutKind
  tag : Byte
  payload : List Byte
  final : Bool := false
  deriving DecidableEq, Repr

/-- A warm start that a batch has ended for: its cause, and whether the reply has been sent
(R179). -/
structure WarmDue where
  cause : ResetCause
  replySent : Bool
  deriving DecidableEq, Repr

/-- The Host Port (chapter 10): the receiver's bytes from LENGTH on with the time of the last one,
none while hunting (R173); the executing batch, the waiting request and the condition flags (R175,
R177); the transmitter's frame, the frames ready and the notice queue (R174, R180); the warm start
due; and the result the owning block gave for the last command row taken by itself. -/
structure HostPort where
  receiving : Option (List Byte × Time) := none
  executing : Option Batch := none
  waiting : Option Request := none
  flags : List Bool := List.replicate 8 false
  sending : Option OutFrame := none
  ready : List OutFrame := []
  notices : List Notice := []
  warm : Option WarmDue := none
  lastResult : Option CmdResult := none
  deriving DecidableEq, Repr

/-! ### The machine -/

/-- A start in progress (R167, R182): waiting for the converter test, or for the loopback test of a
link. -/
inductive StartPhase where
  | converter
  | link (k : Nat)
  deriving DecidableEq, Repr

/-- The state of the 4812. `now` is the running time; `mode` is none during a start, and `start` is
none once the start is complete; `scan` counts the poll positions taken since the reset and
`polled` is the poll under way with its board and output state (R30). `tickAt` is the running time at which
box time next increases (R157, R158); it lies before 0 where a warm start came with an increase still to
be taken. `pending` is the queue of
commands that wait, first in, first out, and `freeCount` counts the free values drawn: these two
are the model's own. -/
structure State where
  pending : List Instr := []
  now : Time := 0
  freeCount : Nat := 0
  mode : Option Mode := none
  start : Option StartPhase := none
  store : Store := {}
  circuits : List Circuit := List.replicate 24 {}
  converter : Converter := {}
  scan : Nat := 0
  polled : Option (Nat × List Bool) := none
  boards : List Board := List.replicate 11 {}
  levers : List Lever := List.replicate 64 {}
  instruments : List Instrument := List.replicate 3 {}
  holds : List Hold := List.replicate 16 {}
  timers : List Timer := List.replicate 16 {}
  bells : List Bell := List.replicate 3 {}
  inbound : List Inbound := List.replicate 3 {}
  outbound : List Outbound := List.replicate 3 {}
  links : List Link := List.replicate 3 {}
  register : Register := {}
  tickAt : Int := 100
  faults : Faults := {}
  host : HostPort := {}
  deriving DecidableEq, Repr

/-- The register after the first start of a part with no stored image: the RESET entry (R159) and
the MODE entry of the start (R182), both at day 0, time 0. -/
def Register.afterReset : Register :=
  { ring := [⟨0, 0, 0, .reset .supply⟩, ⟨1, 0, 0, .mode none .unconfigured⟩]
    unread := 2
    nextSeq := 2 }

/-- The Host Port after that start: the notices of the two entries have been put into one REGISTER
notice, which is being sent, and the MODE notice waits (R174, R180, R182). -/
def HostPort.afterReset : HostPort :=
  { sending := some ⟨.notice, 0, [7, 0, 1, 0x80, 0], false⟩
    notices := [⟨.mode, 1⟩] }

/-- The machine right after a power-up reset of a new part, whose storage holds no image: the start
has found it BLANK and ended in UNCONFIGURED (R182). Log entry 5. -/
def State.reset : State :=
  { mode := some .unconfigured
    register := .afterReset
    host := .afterReset }

end Sys2Proof.Machine
end

