-- ==== Sys2Proof/Machine/Ops.lean ====
section
/-! DEFINITION. The named operations the blocks share: access to the numbered records of State, the
running time, notice keys (R180) and the appending of register entries (R151, R153). -/

namespace Sys2Proof.Machine

/-- The list with the record numbered `k` (from 1) changed by `f`; unchanged where there is none. -/
def modAt {α : Type} (l : List α) (d : α) (k : Nat) (f : α → α) : List α := put l k (f (nth l d k))

/-- Does `f` for each number in turn. -/
def forEach (ns : List Nat) (f : Nat → State → State) (s : State) : State :=
  ns.foldl (fun s n => f n s) s

/-- Does `f` where the condition holds. -/
def when (c : Bool) (f : State → State) (s : State) : State := if c then f s else s

/-! ### Records by number -/

namespace State

/-- The record of circuit `k`. -/
def circuit (s : State) (k : Nat) : Circuit := nth s.circuits {} k
/-- The record of board `b`. -/
def board (s : State) (b : Nat) : Board := nth s.boards {} b
/-- The record of lever `k`. -/
def lever (s : State) (k : Nat) : Lever := nth s.levers {} k
/-- The scanner records of link `k`'s instrument board. -/
def instrument (s : State) (k : Nat) : Instrument := nth s.instruments {} k
/-- The record of hold `k`. -/
def hold (s : State) (k : Nat) : Hold := nth s.holds {} k
/-- The record of release `k`. -/
def timer (s : State) (k : Nat) : Timer := nth s.timers {} k
/-- The bell records of link `k`. -/
def bell (s : State) (k : Nat) : Bell := nth s.bells {} k
/-- The inbound line of link `k`, line 2k − 1. -/
def inb (s : State) (k : Nat) : Inbound := nth s.inbound {} k
/-- The outbound line of link `k`, line 2k. -/
def outb (s : State) (k : Nat) : Outbound := nth s.outbound {} k
/-- The records of link `k`. -/
def link (s : State) (k : Nat) : Link := nth s.links {} k

/-- Changes the record of circuit `k`. -/
def modCircuit (s : State) (k : Nat) (f : Circuit → Circuit) : State :=
  { s with circuits := modAt s.circuits {} k f }
/-- Changes the record of board `b`. -/
def modBoard (s : State) (b : Nat) (f : Board → Board) : State :=
  { s with boards := modAt s.boards {} b f }
/-- Changes the record of lever `k`. -/
def modLever (s : State) (k : Nat) (f : Lever → Lever) : State :=
  { s with levers := modAt s.levers {} k f }
/-- Changes the scanner records of link `k`'s instrument board. -/
def modInstrument (s : State) (k : Nat) (f : Instrument → Instrument) : State :=
  { s with instruments := modAt s.instruments {} k f }
/-- Changes the record of hold `k`. -/
def modHold (s : State) (k : Nat) (f : Hold → Hold) : State :=
  { s with holds := modAt s.holds {} k f }
/-- Changes the record of release `k`. -/
def modTimer (s : State) (k : Nat) (f : Timer → Timer) : State :=
  { s with timers := modAt s.timers {} k f }
/-- Changes the bell records of link `k`. -/
def modBell (s : State) (k : Nat) (f : Bell → Bell) : State :=
  { s with bells := modAt s.bells {} k f }
/-- Changes the inbound line of link `k`. -/
def modInb (s : State) (k : Nat) (f : Inbound → Inbound) : State :=
  { s with inbound := modAt s.inbound {} k f }
/-- Changes the outbound line of link `k`. -/
def modOutb (s : State) (k : Nat) (f : Outbound → Outbound) : State :=
  { s with outbound := modAt s.outbound {} k f }
/-- Changes the records of link `k`. -/
def modLink (s : State) (k : Nat) (f : Link → Link) : State :=
  { s with links := modAt s.links {} k f }
/-- Changes the converter. -/
def modConverter (s : State) (f : Converter → Converter) : State :=
  { s with converter := f s.converter }
/-- Changes the Train Register. -/
def modRegister (s : State) (f : Register → Register) : State :=
  { s with register := f s.register }
/-- Changes the Fault Monitor. -/
def modFaults (s : State) (f : Faults → Faults) : State := { s with faults := f s.faults }
/-- Changes the Configuration Store. -/
def modStore (s : State) (f : Store → Store) : State := { s with store := f s.store }
/-- Changes the Host Port. -/
def modHost (s : State) (f : HostPort → HostPort) : State := { s with host := f s.host }

/-- The state at running time `t`. A step is never taken before one already taken (log entry 1). -/
def atTime (s : State) (t : Time) : State := { s with now := max s.now t }

/-- Tenths of a second since running time `t`, saturating at 65 534 (R27, R76, R94, R135). A part of a
tenth is dropped, which the manual leaves open (log entry 35). -/
def tenthsSince (s : State) (t : Time) : Nat := min ((s.now - t) / 100) 65534

/-- Tenths of a second to running time `t` (R95, R135). A part of a tenth is dropped, which the manual
leaves open (log entry 35). -/
def tenthsTo (s : State) (t : Time) : Nat := min ((t - s.now) / 100) 65534

/-! ### The mode the blocks act by -/

/-- The mode the blocks act by: with no image in force a block runs as in UNCONFIGURED, in EDITING
too (R183); during a start it acts as in SUSPENDED (R182). -/
def blockMode (s : State) : Mode :=
  if s.store.inForce.isNone then .unconfigured else s.mode.getD .suspended

/-- Whether the part is in SERVICE. -/
def inService (s : State) : Bool := s.mode == some .service

/-! ### Tables in force -/

/-- Link `k`'s record, where an image is in force and configures it (R137). -/
def linkCfg (s : State) (k : Nat) : Option LinkCfg :=
  s.store.inForce.bind fun i => if (i.link k).configured then some (i.link k) else none
/-- Whether link `k` is configured. -/
def linkOn (s : State) (k : Nat) : Bool := (s.linkCfg k).isSome
/-- Whether link `k` is a SINGLE link. -/
def isSingle (s : State) (k : Nat) : Bool := (s.linkCfg k).any fun c => c.kind == .single
/-- The tables in force; the defaults where there is no image, whose records configure nothing. -/
def tables (s : State) : Image := s.store.inForce.getD Image.defaults
/-- Changes the tables in force. -/
def modTables (s : State) (f : Image → Image) : State :=
  s.modStore fun st => { st with inForce := st.inForce.map f }
/-- Whether every circuit of a list is CLEAR. -/
def allClear (s : State) (ks : List Nat) : Bool := ks.all fun k => (s.circuit k).state == .clear

end State

/-! ### Notice keys (R180) -/

/-- The mask with bit `n` set. -/
def maskBit (n : Nat) : Word32 := 1#32 <<< n

/-- A raise of a key: into the notice already queued for it, or as a new one at the tail. -/
def addNotice (key : Key) (mask : Word32) : List Notice → List Notice
  | [] => [⟨key, mask⟩]
  | n :: ns =>
    if n.key = key then ⟨key, n.mask ||| mask⟩ :: ns else n :: addNotice key mask ns

/-- Raises a notice key with a subject mask (R180). -/
def raiseKey (key : Key) (mask : Word32) (s : State) : State :=
  s.modHost fun h => { h with notices := addNotice key mask h.notices }

/-- Raises TRACKS for circuit `k`. -/
def noteTrack (k : Nat) : State → State := raiseKey .tracks (maskBit (k - 1))
/-- Raises LEVERS for lever `k`: bit j for levers 2j + 1 and 2j + 2. -/
def noteLever (k : Nat) : State → State := raiseKey .levers (maskBit ((k - 1) / 2))
/-- Raises LINES for line `k`. -/
def noteLine (k : Nat) : State → State := raiseKey .lines (maskBit (k - 1))
/-- Raises HOLDS for hold `k`. -/
def noteHold (k : Nat) : State → State := raiseKey .holds (maskBit (k - 1))
/-- Raises RELEASES for release `k`. -/
def noteRelease (k : Nat) : State → State := raiseKey .releases (maskBit (k - 1))
/-- Raises FAULTS for a source code. -/
def noteFault (code : Nat) : State → State := raiseKey .faults (maskBit (code - 1))
/-- Raises CODES for link `k`. -/
def noteCode (k : Nat) : State → State := raiseKey .codes (maskBit (k - 1))

/-! ### Appending to the train register (R151, R153) -/

/-- The code of an entry's kind (section 8.6). -/
def Event.kind : Event → Nat
  | .codeSent .. => 1
  | .codeReceived .. => 2
  | .codeAck .. => 3
  | .codeNotRepeated .. => 4
  | .codeUnanswered .. => 5
  | .lineState .. => 6
  | .conflict .. => 7
  | .clearLost .. => 8
  | .overdue .. => 9
  | .hold .. => 10
  | .releaseStarted .. => 11
  | .releaseComplete .. => 12
  | .releaseCancelled .. => 13
  | .faultRaised .. => 14
  | .faultCleared .. => 15
  | .mode .. => 16
  | .reset .. => 17
  | .clockSet .. => 18

/-- The most entries the ring holds (R153). -/
def ringSize : Nat := 256

/-- The register with an entry appended: numbered, stamped, and joined to the ring (R151, R153). -/
def Register.append (r : Register) (e : Event) : Register :=
  let entry : Entry := ⟨r.nextSeq, r.day, r.tenths, e⟩
  { r with
    ring := if r.ring.length < ringSize then r.ring ++ [entry] else r.ring.tail ++ [entry]
    unread := min (r.unread + 1) ringSize
    nextSeq := (r.nextSeq + 1) % 65536 }

/-- Whether an append loses an unread entry (R153, third case). -/
def Register.losesUnread (r : Register) : Bool :=
  decide (ringSize ≤ r.ring.length) && decide (ringSize ≤ r.unread)

/-- Appends an entry and raises its REGISTER key; bit 31 tells of an unread entry lost (R153). -/
def append (e : Event) (s : State) : State :=
  let lost : Word32 := if s.register.losesUnread then maskBit 31 else 0
  raiseKey .register (maskBit (e.kind - 1) ||| lost) (s.modRegister fun r => r.append e)

/-! ### Collections of source codes -/

/-- A confinement set with a source added. The manual gives a set: the rising order of code in which the
sources are kept, and sent by the READ commands, is the model's (log entry 34). -/
def addSource (c : Nat) : List Nat → List Nat
  | [] => [c]
  | d :: ds => if c < d then c :: d :: ds else if c = d then d :: ds else d :: addSource c ds

/-- A confinement set with a source removed. -/
def dropSource (c : Nat) (l : List Nat) : List Nat := l.filter fun d => d != c

/-- A staged set with a value put in, replacing a pending value of the same field (R187). -/
def putStaged (field value : Nat) (l : List (Nat × Nat)) : List (Nat × Nat) :=
  l.filter (fun p => p.1 != field) ++ [(field, value)]

/-- The pending value of a field, or the value in force. -/
def stagedOr (l : List (Nat × Nat)) (field inForce : Nat) : Nat :=
  ((l.find? fun p => p.1 == field).map (·.2)).getD inForce

end Sys2Proof.Machine
end

