-- ==== Sys2Proof/Machine/Operands.lean ====
section
/-! DEFINITION. How numbers become bytes and bytes numbers in what the host and the far box see:
"Multi-byte numbers in those layouts are sent high byte first" (00_scope.md, Conventions); an absent
field is sent as all ones (R27); the CRC-16 of a host frame (section 10.1), the CRC-32 of the image
(R181) and the exclusive-or of a link frame (section 7.2). -/

namespace Sys2Proof.Machine

/-- The low byte of a number. -/
def byte (n : Nat) : Byte := BitVec.ofNat 8 n
/-- A number in 2 bytes, high byte first. -/
def be16 (n : Nat) : List Byte := [byte (n / 256), byte n]
/-- A number in 3 bytes, high byte first. -/
def be24 (n : Nat) : List Byte := [byte (n / 65536), byte (n / 256), byte n]
/-- A 32-bit word in 4 bytes, high byte first. -/
def be32 (w : Word32) : List Byte :=
  [byte (w.toNat / 16777216), byte (w.toNat / 65536), byte (w.toNat / 256), byte w.toNat]
/-- The number of 2 bytes, high byte first. -/
def ofBe16 (h l : Byte) : Nat := h.toNat * 256 + l.toNat

/-- A 1-byte field, all ones when absent. -/
def field1 : Option Nat → List Byte
  | none => [255]
  | some n => [byte n]
/-- A 2-byte field, all ones when absent. -/
def field2 : Option Nat → List Byte
  | none => [255, 255]
  | some n => be16 n
/-- A no or yes field. -/
def fieldBool (b : Bool) : List Byte := [if b then 1 else 0]

/-- The first record and the count of a READ command, the count clamped to 1 to `most` and then so
that the last record is at most `last` (R27, R76, R94, R95, R135). -/
def readNumbers (first count most last : Nat) : List Nat :=
  List.range' first (min (min (max count 1) most) (last + 1 - first))

/-! ### Codes of enumerated values -/

/-- R27. -/
def TrackState.code : TrackState → Nat
  | .clear => 0
  | .occupied => 1
  | .failed => 2
  | .disabled => 3
/-- R27, from its code. -/
def TrackState.ofCode : Nat → Option TrackState
  | 0 => some .clear
  | 1 => some .occupied
  | 2 => some .failed
  | 3 => some .disabled
  | _ => none
/-- R76. -/
def Pos.code : Pos → Nat
  | .normal => 0
  | .reverse => 1
/-- A position from its code. -/
def Pos.ofCode : Nat → Option Pos
  | 0 => some .normal
  | 1 => some .reverse
  | _ => none
/-- R76. -/
def Position.code : Position → Nat
  | .normal => 0
  | .reverse => 1
  | .moving => 2
  | .unknown => 3
/-- R76. -/
def LeverType.code : LeverType → Nat
  | .signal => 0
  | .points => 1
  | .lock => 2
  | .gate => 3
  | .release => 4
  | .spare => 5
/-- A lever type from its code. -/
def LeverType.ofCode : Nat → Option LeverType
  | 0 => some .signal
  | 1 => some .points
  | 2 => some .lock
  | 3 => some .gate
  | 4 => some .release
  | 5 => some .spare
  | _ => none
/-- R76. -/
def Reason.code : Reason → Nat
  | .none => 0
  | .mode => 1
  | .spare => 2
  | .outOfUse => 3
  | .position => 4
  | .inTransit => 5
  | .list => 6
  | .mismatch => 7
  | .line => 8
  | .allowance => 9
/-- R94. -/
def HoldState.code : HoldState → Nat
  | .idle => 0
  | .set => 1
  | .held => 2
  | .passing => 3
  | .releasing => 4
/-- A hold state from its code. -/
def HoldState.ofCode : Nat → Option HoldState
  | 0 => some .idle
  | 1 => some .set
  | 2 => some .held
  | 3 => some .passing
  | 4 => some .releasing
  | _ => none
/-- R95. -/
def TimerState.code : TimerState → Nat
  | .idle => 0
  | .running => 1
  | .complete => 2
/-- R95. -/
def OwnerKind.code : OwnerKind → Nat
  | .hold => 0
  | .sequence => 1
  | .lever => 2
/-- An owner kind from its code. -/
def OwnerKind.ofCode : Nat → Option OwnerKind
  | 0 => some .hold
  | 1 => some .sequence
  | 2 => some .lever
  | _ => none
/-- R135, and the states of an INDICATION item (section 7.2). -/
def LineState.code : LineState → Nat
  | .blocked => 0
  | .clear => 1
  | .occupied => 2
/-- A line state from its code. -/
def LineState.ofCode : Nat → Option LineState
  | 0 => some .blocked
  | 1 => some .clear
  | 2 => some .occupied
  | _ => none
/-- R135: UNSPECIFIED 0. -/
def Accepted.code : Accepted → Nat
  | .unspecified => 0
  | .cls n => n
/-- R135. -/
def SeqState.code : SeqState → Nat
  | .idle => 0
  | .wait => 1
  | .arriving => 2
  | .passing => 3
  | .complete => 4
/-- R135. -/
def LinkKind.code : LinkKind → Nat
  | .double => 0
  | .single => 1
/-- Section 8.6. -/
def Meaning.code : Meaning → Nat
  | .call => 0
  | .offer => 1
  | .entering => 2
  | .cleared => 3
  | .cancel => 4
  | .obstruction => 5
  | .test => 6
  | .unknown => 7
/-- A meaning a rule may hold, from its code (R107). -/
def Meaning.ofCode : Nat → Option Meaning
  | 0 => some .call
  | 1 => some .offer
  | 2 => some .entering
  | 3 => some .cleared
  | 4 => some .cancel
  | 5 => some .obstruction
  | 6 => some .test
  | _ => none
/-- R188. -/
def Mode.code : Mode → Nat
  | .unconfigured => 0
  | .editing => 1
  | .service => 2
  | .suspended => 3
/-- R188. -/
def ImageState.code : ImageState → Nat
  | .blank => 0
  | .good => 1
  | .bad => 2
/-- Section 8.6. -/
def ClearLostCause.code : ClearLostCause → Nat
  | .linkLost => 0
  | .outOfUse => 1
  | .notInService => 2
/-- Section 8.6. -/
def CancelCause.code : CancelCause → Nat
  | .owner => 0
  | .consumed => 1
  | .lapsed => 2
  | .host => 3
/-- Section 8.6. -/
def ResetCause.code : ResetCause → Nat
  | .supply => 0
  | .warmReset => 1
  | .commit => 2
  | .abandonEdit => 3
/-- Section 10.6. -/
def Key.code : Key → Nat
  | .mode => 1
  | .tracks => 2
  | .levers => 3
  | .lines => 4
  | .holds => 5
  | .releases => 6
  | .register => 7
  | .faults => 8
  | .codes => 9
/-- R178. -/
def ResultCode.code : ResultCode → Nat
  | .done => 0
  | .skipped => 1
  | .notRun => 2
  | .refused => 3
/-- R178. -/
def RefuseReason.code : RefuseReason → Nat
  | .none => 0
  | .badCode => 1
  | .badParam => 2
  | .range => 3
  | .state => 4
  | .busy => 5
  | .protectedField => 6
  | .tableFull => 7
  | .tableForm => 8
/-- Section 7.2. -/
def FrameType.code : FrameType → Nat
  | .bid => 1
  | .go => 2
  | .wait => 3
  | .data => 4
  | .taken => 5
  | .reject => 6
/-- A link frame type from its TYPE byte (section 7.2). -/
def FrameType.ofCode : Nat → Option FrameType
  | 1 => some .bid
  | 2 => some .go
  | 3 => some .wait
  | 4 => some .data
  | 5 => some .taken
  | 6 => some .reject
  | _ => none

/-! ### Checks -/

/-- `f` done `n` times. -/
def iterate {α : Type} (f : α → α) : Nat → α → α
  | 0, a => a
  | n + 1, a => iterate f n (f a)

/-- One bit of the CRC-16 with polynomial 0x1021, not reflected. -/
def crc16Bit (c : Word16) : Word16 := if c.msb then (c <<< 1) ^^^ 0x1021#16 else c <<< 1

/-- A byte in the high half of a CRC-16 register. -/
def byteHigh (b : Byte) : Word16 := BitVec.ofNat 16 (b.toNat * 256)

/-- The CRC-16 of a host frame: initial value 0xFFFF, no final exclusive-or (section 10.1). -/
def crc16 (bytes : List Byte) : Word16 :=
  bytes.foldl (fun c b => iterate crc16Bit 8 (c ^^^ byteHigh b)) 0xFFFF#16

/-- One bit of the CRC-32 with the reflected polynomial 0xEDB88320. -/
def crc32Bit (c : Word32) : Word32 := if c.getLsbD 0 then (c >>> 1) ^^^ 0xEDB88320#32 else c >>> 1

/-- The CRC-32 of the image: initial value all ones, final complement (R181). -/
def crc32 (bytes : List Byte) : Word32 :=
  ~~~ bytes.foldl (fun c b => iterate crc32Bit 8 (c ^^^ b.zeroExtend 32)) 0xFFFFFFFF#32

/-- The exclusive-or of bytes: the CHECK of a link frame (section 7.2). -/
def xorAll (bytes : List Byte) : Byte := bytes.foldl (· ^^^ ·) 0

end Sys2Proof.Machine
end

