-- ==== Sys2Proof/Machine/Flags.lean ====
section
/-! DEFINITION. The eight condition flags of a batch and the guards that test them (R176, R177). -/

namespace Sys2Proof.Machine

/-- The flags a batch begins with: all false (R177). -/
def clearFlags : List Bool := List.replicate 8 false

/-- The value of flag `f`, 0 to 7. -/
def flag (s : State) (f : Nat) : Bool := s.host.flags.getD f false

/-- Sets flag `f`, 0 to 7, to the value a TEST command found. -/
def setFlag (f : Nat) (v : Bool) (s : State) : State :=
  s.modHost fun h => { h with flags := h.flags.set f v }

/-! ### The guard byte (section 10.5) -/

/-- Bit 7: a guard is present. -/
def guarded (g : Byte) : Bool := g.getLsbD 7
/-- Bit 6: the paired mark. -/
def paired (g : Byte) : Bool := g.getLsbD 6
/-- Bits 4 and 5 are unused and must be 0. -/
def guardUnused (g : Byte) : Bool := g.getLsbD 4 || g.getLsbD 5
/-- Bits 0 to 2: the flag the guard names. -/
def guardFlag (g : Byte) : Nat := g.toNat % 8
/-- Bit 3: the wanted sense. -/
def guardSense (g : Byte) : Bool := g.getLsbD 3

/-- Whether a command's guard lets it run: it has none, or its flag has the wanted sense (R177). -/
def guardPasses (s : State) (g : Byte) : Bool := !guarded g || flag s (guardFlag g) == guardSense g

end Sys2Proof.Machine
end

