-- ==== Sys2Proof/Machine/Faults.lean ====
section
/-! DEFINITION. The fault table and the overflow record (section 9.2): the change that a beginning
or an ending of a cause makes to them. Applying the reaction to the subject is in Reactions.lean. -/

namespace Sys2Proof.Machine

/-- The most records the fault table holds (section 9.2). -/
def faultTableSize : Nat := 32

/-- Whether a record is that of a source and subject. -/
def FaultRecord.isFor (r : FaultRecord) (c : Nat) (subject : Option Nat) : Bool :=
  r.source == c && r.subject == subject

/-- The record of a source and subject (R162). -/
def Faults.find (f : Faults) (c : Nat) (subject : Option Nat) : Option FaultRecord :=
  f.records.find? fun r => r.isFor c subject

/-- The table without the record of a source and subject: those after it move up (R163, R165). -/
def Faults.remove (f : Faults) (c : Nat) (subject : Option Nat) : Faults :=
  { f with records := f.records.filter fun r => !r.isFor c subject }

/-- The table with the record of a source and subject changed. -/
def Faults.update (f : Faults) (c : Nat) (subject : Option Nat) (g : FaultRecord → FaultRecord) :
    Faults :=
  { f with records := f.records.map fun r => if r.isFor c subject then g r else r }

/-- The higher of the overflow record's reaction and another (R164). -/
def higher (a : Option Reaction) (b : Reaction) : Reaction :=
  match a with
  | none => b
  | some a => if a.code < b.code then b else a

/-- The reaction of a source in the reaction table in force (R160). -/
def reactionOf (s : State) (c : Nat) : Reaction := nth s.tables.reactions .report c

/-- What an occurrence did to the table: the reaction to apply, the source with which it enters a
confinement, its own or OVERFLOW, and the count for the register entry. -/
structure Occurrence where
  reaction : Reaction
  source : Nat
  count : Nat
  deriving DecidableEq, Repr

/-- The occurrence made by a cause beginning (R162, R164): case 1, a record exists; case 2, there is
room for one; case 3, the overflow record counts it. -/
def occurrence (s : State) (c : Nat) (subject : Option Nat) : Occurrence :=
  match s.faults.find c subject with
  | some r => ⟨r.reaction, c, min (r.count + 1) 255⟩
  | none =>
    if s.faults.records.length < faultTableSize then ⟨reactionOf s c, c, 1⟩
    else ⟨reactionOf s c, 22, 0⟩

/-- A record at its creation (R162, case 2). -/
def newRecord (s : State) (c : Nat) (subject : Option Nat) : FaultRecord :=
  { source := c, subject := subject, active := true, count := 1
    firstDay := s.register.day, firstTenths := s.register.tenths
    lastDay := s.register.day, lastTenths := s.register.tenths
    reaction := reactionOf s c }

/-- The tables after a cause beginning (R162, R164). -/
def countOccurrence (c : Nat) (subject : Option Nat) (s : State) : State :=
  match s.faults.find c subject with
  | some _ =>
    s.modFaults fun f => f.update c subject fun r =>
      { r with count := min (r.count + 1) 255, active := true
               lastDay := s.register.day, lastTenths := s.register.tenths }
  | none =>
    if s.faults.records.length < faultTableSize then
      s.modFaults fun f => { f with records := f.records ++ [newRecord s c subject] }
    else
      s.modFaults fun f =>
        { f with
          overflowCount := min (f.overflowCount + 1) 255
          overflowLast := some (c, subject)
          overflowReaction := some (higher f.overflowReaction (reactionOf s c)) }

/-- Removes a record, with its FAULT_CLEARED entry (R163, R165). -/
def clearRecord (r : FaultRecord) (byHost : Bool) (s : State) : State :=
  (s.modFaults fun f => f.remove r.source r.subject)
    |> append (.faultCleared r.source r.subject r.reaction r.count byHost)

/-- Removes the record of a self-clearing source whose cause has ended, with its FAULT_CLEARED entry
and FAULTS key (R163). The owner takes its subject back by its own rule. -/
def removeSelfClearing (c : Nat) (subject : Option Nat) (s : State) : State :=
  match s.faults.find c subject with
  | none => s
  | some r => clearRecord r false s |> noteFault c

/-- Makes the record of a source that is not self-clearing LATCHED (R163). -/
def latchRecord (c : Nat) (subject : Option Nat) (s : State) : State :=
  match s.faults.find c subject with
  | none => s
  | some _ =>
    (s.modFaults fun f => f.update c subject fun r => { r with active := false }) |> noteFault c

/-- Whether a record with reaction SUSPEND stands, or the overflow record holds SUSPEND (R166,
R167). -/
def suspendStands (s : State) : Bool :=
  s.faults.records.any (fun r => r.reaction == .suspend)
    || s.faults.overflowReaction == some .suspend

end Sys2Proof.Machine
end

