-- ==== Sys2Proof/Machine/Locking.lean ====
section
/-! DEFINITION. The Locking Evaluator's decisions (sections 3.3 to 3.7 and 3.10): which conditions
apply, when they are met, the two walks, the free decision, the coil command and the pull
allowance. -/

namespace Sys2Proof.Machine

/-! ### Positions and conditions -/

/-- The position by which a lever is read in conditions and qualifiers (R54): its decoded position,
NORMAL while it is out of use. -/
def readPosition (s : State) (k : Nat) : Position :=
  if (s.lever k).outOfUse then .normal else (s.lever k).current

/-- The list of a lever: the one in the image in force, its alteration copy while it is out of use
(R50). -/
def listOf (s : State) (k : Nat) : CondList :=
  if (s.lever k).outOfUse then (s.lever k).copy else s.tables.conds k

/-- Whether a qualifier holds: lever W is at rest in position Q, or is MOVING or UNKNOWN (R52). -/
def qualifierHolds (s : State) (q : Nat × Pos) : Bool :=
  match readPosition s q.1 with
  | .normal => q.2 == .normal
  | .reverse => q.2 == .reverse
  | .moving => true
  | .unknown => true

/-- Whether a direction covers leaving a settled position (R52). -/
def Applies.covers (a : Applies) (settled : Pos) : Bool :=
  match a, settled with
  | .both, _ => true
  | .toReverse, .normal => true
  | .toNormal, .reverse => true
  | _, _ => false

/-- Whether an entry applies to a lever with a settled position (R52). -/
def entryApplies (s : State) (settled : Option Pos) (c : Cond) : Bool :=
  match settled with
  | none => false
  | some p => c.applies.covers p && c.qualifier.all (qualifierHolds s)

/-- The link whose inbound or outbound line a line is. -/
def lineState (s : State) (line : Nat) : Option LineState :=
  if line % 2 = 1 then (s.inb ((line + 1) / 2)).state else (s.outb (line / 2)).state

/-- Whether an entry is met (R53). -/
def entryMet (s : State) (c : Cond) : Bool :=
  match c.subject with
  | .lever k p => readPosition s k == p.atRest
  | .track k => (s.circuit k).state == .clear
  | .line k st => lineState s k == some st
  | .hold k => (s.hold k).state == some .idle
  | .release k => (s.timer k).state == .complete

/-- Whether an entry of a list applies and is unmet. An UNUSED entry holds no condition (R50). -/
def entryBars (s : State) (settled : Option Pos) : Option Cond → Bool
  | none => false
  | some c => entryApplies s settled c && !entryMet s c

/-! ### Dual evaluation -/

/-- Evaluator X (R57): from index 1 upward, to the first applicable unmet entry; true is ALL MET. -/
def walkX (s : State) (settled : Option Pos) : CondList → Bool
  | [] => true
  | c :: cs => if entryBars s settled c then false else walkX s settled cs

/-- Evaluator Y's walk over a list in descending order of index, `i` entries long: `kept` is the
index kept so far (R58). -/
def walkDown (s : State) (settled : Option Pos) : CondList → Nat → Option Nat → Option Nat
  | [], _, kept => kept
  | c :: cs, i, kept =>
    walkDown s settled cs (i - 1) (if entryBars s settled c then some i else kept)

/-- Evaluator Y (R58): from the last index downward, keeping the lowest applicable unmet index. -/
def walkY (s : State) (settled : Option Pos) (l : CondList) : Option Nat :=
  walkDown s settled l.reverse l.length none

/-- Whether the two results agree (R59). -/
def resultsAgree (x : Bool) (y : Option Nat) : Bool := x == y.isNone

/-! ### The free decision -/

/-- A free decision with its reason and first unmet (R55). -/
structure Decision where
  free : Bool
  reason : Reason
  firstUnmet : Option Nat
  agree : Bool
  deriving DecidableEq, Repr

/-- Steps 2 to 9 of R55 for a lever with a record, given the results of the two walks. -/
def decideSteps (s : State) (l : Lever) (x : Bool) (y : Option Nat) : Bool × Reason :=
  if l.type = .signal ∧ l.settled = some .reverse then (true, .none)
  else if l.type = .spare then (false, .spare)
  else if l.outOfUse then (false, .outOfUse)
  else if l.current = .unknown ∨ l.confinement ≠ [] ∨ l.settled = none then (false, .position)
  else if l.current = .moving then (false, .inTransit)
  else if !resultsAgree x y then (false, .mismatch)
  else if !x then (false, .list)
  else
    match l.blockLine with
    | none => (true, .none)
    | some line =>
      if l.type = .signal ∧ l.settled = some .normal then
        if lineState s line ≠ some .clear then (false, .line)
        else if l.allowance = some false then (false, .allowance)
        else (true, .none)
      else (true, .none)

/-- The free decision of lever `k` (R55, R59). The walks are made for a lever that has a slot,
outside UNCONFIGURED. -/
def decideLever (s : State) (k : Nat) : Decision :=
  let l := s.lever k
  if s.blockMode = .unconfigured then ⟨false, .mode, none, true⟩
  else if l.slot.isNone then
    let d := decideSteps s l true none
    ⟨d.1, d.2, none, true⟩
  else
    let x := walkX s l.settled (listOf s k)
    let y := walkY s l.settled (listOf s k)
    let d := decideSteps s l x y
    ⟨d.1, d.2, y, resultsAgree x y⟩

/-- Whether a lever is at rest in its settled position. -/
def Lever.atRest (l : Lever) : Bool := l.settled.any fun p => l.current == p.atRest

/-- Whether a lever is a SIGNAL lever settled REVERSE (R67). -/
def Lever.signalAtReverse (l : Lever) : Bool := l.type == .signal && l.settled == some .reverse

/-- The coil command of a lever in a mode, from its record and its free decision (R61). -/
def coilCommand (m : Mode) (l : Lever) (free : Bool) : Bool :=
  match m with
  | .service => (l.atRest && free) || (l.current == .moving && l.held.isSome)
  | .suspended | .editing =>
    l.type == .signal
      && ((l.atRest && l.settled == some .reverse)
        || (l.current == .moving && l.held == some .reverse))
  | .unconfigured => false

/-- The coil command with a decision taken (R59, R61): OFF where the walks disagree, unless step 2
of R55 has decided the lever free. -/
def decidedCoil (m : Mode) (l : Lever) (d : Decision) : Bool :=
  coilCommand m l d.free && (d.agree || l.signalAtReverse)

/-- What a LEVERS notice key watches of a lever (R60). -/
def Lever.watched (l : Lever) : Bool × Reason × Option Nat × Bool × Option Pos × Option Bool × Bool :=
  (l.free, l.reason, l.firstUnmet, l.coil, l.held, l.allowance, l.outOfUse)

/-- Changes lever `k`, raising a LEVERS key where what the key watches changes (R60). -/
def changeLever (k : Nat) (f : Lever → Lever) (s : State) : State :=
  let t := s.modLever k f
  when ((s.lever k).watched != (t.lever k).watched) (noteLever k) t

/-- Evaluates lever `k` afresh (R59, R60, R61). A disagreement is marked, and is reported when the
work of the step is done (log entry 10). -/
def evaluate (k : Nat) (s : State) : State :=
  let d := decideLever s k
  let walked := s.blockMode != .unconfigured && (s.lever k).slot.isSome
  let ends := walked && d.agree && (s.lever k).mismatch
  let begins := walked && !d.agree && !(s.lever k).mismatch
  let s := changeLever k (fun l =>
    { l with free := d.free, reason := d.reason, firstUnmet := d.firstUnmet
             coil := decidedCoil s.blockMode l d
             mismatch := (l.mismatch || begins) && !ends
             mismatchDue := (l.mismatchDue || begins) && !ends }) s
  when ends (latchRecord 20 (some k)) s

/-- Evaluates every lever afresh (R62). -/
def evaluateAll (s : State) : State := forEach (upTo 64) evaluate s

/-- Evaluates every lever with an entry that names a subject (R60). -/
def evaluateNaming (p : Subject → Bool) (s : State) : State :=
  forEach ((upTo 64).filter fun k => (listOf s k).any fun c => c.any fun c => p c.subject) evaluate s

/-- Evaluates every lever whose list names lever `k`, as subject or as qualifier (R60, R66). -/
def evaluateNamingLever (k : Nat) (s : State) : State :=
  forEach ((upTo 64).filter fun j => (listOf s j).any fun c => c.any fun c =>
    (match c.subject with | .lever w _ => w == k | _ => false) || c.qualifier.any (·.1 == k))
    evaluate s

/-- Evaluates the levers whose conditions name circuit `k`. -/
def evaluateTrack (k : Nat) : State → State := evaluateNaming (· == .track k)
/-- Evaluates the levers whose conditions name hold `k`. -/
def evaluateHold (k : Nat) : State → State := evaluateNaming (· == .hold k)
/-- Evaluates the levers whose conditions name release `k`. -/
def evaluateRelease (k : Nat) : State → State := evaluateNaming (· == .release k)

/-- The SIGNAL levers whose block line is a line (R48). -/
def signalsOn (s : State) (line : Nat) : List Nat :=
  (upTo 64).filter fun k => (s.lever k).type == .signal && (s.lever k).blockLine == some line

/-- Evaluates the levers whose conditions or block line name a line (R60). -/
def evaluateLine (line : Nat) (s : State) : State :=
  s |> evaluateNaming (fun | .line k _ => k == line | _ => false)
    |> forEach (signalsOn s line) evaluate

/-! ### Releases held and pull allowances -/

/-- Ends lever `k`'s release held and evaluates it (R64). -/
def endRelease (k : Nat) (s : State) : State :=
  s |> changeLever k (fun l => { l with held := none }) |> evaluate k

/-- Grants the allowance of the SIGNAL levers in use on a line (R68). -/
def grantAllowances (line : Nat) (s : State) : State :=
  forEach ((signalsOn s line).filter fun k => !(s.lever k).outOfUse)
    (fun k s => s |> changeLever k (fun l => { l with allowance := some true }) |> evaluate k) s

/-- Consumes the allowances on a line: a lever on it has settled REVERSE (R69). -/
def consumeAllowances (line : Nat) (s : State) : State :=
  forEach (signalsOn s line)
    (fun k s => s |> changeLever k (fun l => { l with allowance := some false }) |> evaluate k) s

/-- Withdraws the allowances on a line, and ends the releases FROM_NORMAL of levers on it that are
MOVING (R64, R69). `leaving` says that the line has left CLEAR, which ends such a release by
itself; an OBSTRUCTION ends it where an allowance was there to withdraw. -/
def withdrawAllowances (leaving : Bool) (line : Nat) (s : State) : State :=
  forEach (signalsOn s line)
    (fun k s =>
      let l := s.lever k
      let ends := l.held == some .normal && (leaving || l.allowance == some true)
      s |> changeLever k (fun l =>
            { l with allowance := some false, held := if ends then none else l.held })
        |> evaluate k) s

end Sys2Proof.Machine
end

