-- ==== Sys2Proof/Machine/TableCodec.lean ====
section
/-! DEFINITION. The encoding of table records (R184), the bytes and the signature of the image
(R181), and the changes an image write or a reload point makes to an image (R181, R187). -/

namespace Sys2Proof.Machine

/-! ### Field layouts -/

/-- How a field is sent: in 1 byte, in 2 bytes, or as a count byte and items (R184). -/
inductive FieldKind where
  | one | two | list
  deriving DecidableEq, Repr

/-- A field as sent. -/
inductive Raw where
  | num (n : Nat)
  | list (l : List Nat)
  deriving DecidableEq, Repr

/-- The fields of the records of each table, in the order its owning chapter lists them (section
11.1); a line's record has the fields of its direction (R115). -/
def layout (table record : Nat) : List FieldKind :=
  match table with
  | 1 => [.one]
  | 2 => [.one, .one, .one, .one, .one, .two, .two, .two, .one, .one, .one, .one]
  | 3 => [.two, .two, .one, .two, .two, .one]
  | 4 => [.one]
  | 5 => [.one, .one, .one, .one]
  | 6 => [.one, .one, .one]
  | 7 => [.one, .one, .one, .one, .one, .one]
  | 8 => [.one, .two, .two, .two, .two, .one, .two, .two, .two, .two, .list, .two]
  | 9 => [.one, .one, .list, .list, .one]
  | 10 => [.one, .one, .one, .two, .two]
  | 11 => if record % 2 = 1 then [.one, .one, .one, .list, .one] else [.one, .two]
  | 12 => [.list, .one, .one, .one]
  | 13 => [.one]
  | _ => []

/-- The fields of a record from its bytes; none unless the bytes make exactly one record (R184). -/
def parseFields : List FieldKind → List Byte → Option (List Raw)
  | [], [] => some []
  | [], _ :: _ => none
  | .one :: ks, b :: bs => (parseFields ks bs).map (.num b.toNat :: ·)
  | .two :: ks, h :: l :: bs => (parseFields ks bs).map (.num (ofBe16 h l) :: ·)
  | .list :: ks, n :: bs =>
    if n.toNat ≤ bs.length then
      (parseFields ks (bs.drop n.toNat)).map (.list ((bs.take n.toNat).map (·.toNat)) :: ·)
    else none
  | _ :: _, _ => none

/-- The bytes of one field. -/
def encodeField : FieldKind → Raw → List Byte
  | .one, .num n => [byte n]
  | .two, .num n => be16 n
  | .list, .list l => byte l.length :: l.map byte
  | _, _ => []

/-- The bytes of a record. -/
def encodeFields (ks : List FieldKind) (rs : List Raw) : List Byte :=
  (List.zipWith encodeField ks rs).flatten

/-! ### Records -/

/-- The record of a table. -/
inductive Value where
  | identity (n : Option Nat)
  | link (c : LinkCfg)
  | bell (c : BellCfg)
  | board (b : Bool)
  | window (w : Option Window)
  | lever (c : LeverCfg)
  | cond (c : Option Cond)
  | track (c : TrackCfg)
  | hold (c : HoldCfg)
  | timer (c : TimerCfg)
  | inb (c : InboundCfg)
  | outb (c : OutboundCfg)
  | code (r : CodeRule)
  | reaction (r : Reaction)
  deriving DecidableEq, Repr

/-- Whether a number lies in a range, both ends included. -/
def inRange (n lo hi : Nat) : Bool := decide (lo ≤ n) && decide (n ≤ hi)

/-- A required number in its range. -/
def num? (n lo hi : Nat) : Option Nat := if inRange n lo hi then some n else none

/-- An optional 1-byte number: absent (255), or in its range. -/
def opt? (n lo hi : Nat) : Option (Option Nat) :=
  if n = 255 then some none else (num? n lo hi).map some

/-- A no or yes field. -/
def bool? : Nat → Option Bool
  | 0 => some false
  | 1 => some true
  | _ => none

/-- A list of numbers in a range, of a length in a range. -/
def list? (l : List Nat) (loLen hiLen lo hi : Nat) : Option (List Nat) :=
  if inRange l.length loLen hiLen && l.all (inRange · lo hi) then some l else none

/-- The number or the absent value of a 1-byte field. -/
def rawOpt (n : Option Nat) : Raw := .num (n.getD 255)
/-- A no or yes field. -/
def rawBool (b : Bool) : Raw := .num (if b then 1 else 0)

/-- Table 2 (R137). -/
def linkOfRaw : List Raw → Option LinkCfg
  | [.num cf, .num kd, .num ro, .num fb, .num tu, .num ba, .num ds, .num tw, .num br, .num dr,
      .num hb, .num si] => do
    let configured ← bool? cf
    let single ← bool? kd
    let role ← opt? ro 0 1
    let farBox ← opt? fb 1 254
    let turnaround ← num? tu 5 50
    let bidAnswer ← num? ba 50 1000
    let dataStart ← num? ds 50 1000
    let takenWait ← num? tw 50 1000
    let bidRetries ← num? br 1 31
    let dataRetries ← num? dr 0 5
    let heartbeat ← num? hb 1 10
    let silence ← num? si (max 3 (2 * hb)) 30
    return { configured, kind := if single then .single else .double
             role := role.map fun r => if r = 0 then .senior else .junior
             farBox, turnaround, bidAnswer, dataStart, takenWait, bidRetries, dataRetries,
             heartbeat, silence }
  | _ => none

/-- Table 2 (R137). -/
def linkRaw (c : LinkCfg) : List Raw :=
  [rawBool c.configured, .num c.kind.code,
   rawOpt (c.role.map fun r => match r with | .senior => 0 | .junior => 1), rawOpt c.farBox,
   .num c.turnaround, .num c.bidAnswer, .num c.dataStart, .num c.takenWait, .num c.bidRetries,
   .num c.dataRetries, .num c.heartbeat, .num c.silence]

/-- Table 3 (R97): the send stroke in steps of 5 ms. -/
def bellOfRaw : List Raw → Option BellCfg
  | [.num gg, .num eg, .num st, .num ig, .num bg, .num rp] => do
    let groupGap ← num? gg 250 900
    let endGap ← num? eg 1000 3000
    let sendStroke ← if st % 5 = 0 then num? st 40 250 else none
    let inGroup ← num? ig 100 850
    let betweenGroup ← num? bg 250 2900
    let reply ← num? rp 5 60
    return { groupGap, endGap, sendStroke, inGroup, betweenGroup, reply }
  | _ => none

/-- Table 3 (R97). -/
def bellRaw (c : BellCfg) : List Raw :=
  [.num c.groupGap, .num c.endGap, .num c.sendStroke, .num c.inGroup, .num c.betweenGroup,
   .num c.reply]

/-- Table 5 (R33). With no window present its other fields are absent (log entry 9). -/
def windowOfRaw : List Raw → Option (Option Window)
  | [.num p, .num f, .num l, .num t] => do
    let present ← bool? p
    if present then
      let first ← num? f 1 64
      let last ← num? l first 64
      let target ← num? t 1 64
      return some ⟨first, last, target⟩
    else
      let _ ← opt? f 1 64
      let _ ← opt? l 1 64
      let _ ← opt? t 1 64
      return none
  | _ => none

/-- Table 5 (R33). -/
def windowRaw : Option Window → List Raw
  | none => [.num 0, .num 255, .num 255, .num 255]
  | some w => [.num 1, .num w.first, .num w.last, .num w.target]

/-- Table 6 (R48). -/
def leverOfRaw : List Raw → Option LeverCfg
  | [.num ty, .num bl, .num al] => do
    let type ← LeverType.ofCode ty
    let blockLine ← opt? bl 2 6
    let altered ← bool? al
    if blockLine.all (· % 2 = 0) then return { type, blockLine, altered } else none
  | _ => none

/-- Table 6 (R48). -/
def leverRaw (c : LeverCfg) : List Raw :=
  [.num c.type.code, rawOpt c.blockLine, rawBool c.altered]

/-- What an entry of a kind names and requires, from its codes (R50); a RELEASE entry requires
COMPLETE, 2 in READ RELEASES. -/
def subjectOfRaw (kind subject required : Nat) : Option Subject :=
  match kind with
  | 1 => do return .lever (← num? subject 1 64) (← Pos.ofCode required)
  | 2 => do let k ← num? subject 1 24; if required = 0 then return .track k else none
  | 3 => do return .line (← num? subject 1 6) (← LineState.ofCode required)
  | 4 => do let k ← num? subject 1 16; if required = 0 then return .hold k else none
  | 5 => do let k ← num? subject 1 16; if required = 2 then return .release k else none
  | _ => none

/-- A direction from its code (R50). -/
def appliesOfRaw : Nat → Option Applies
  | 0 => some .toReverse
  | 1 => some .toNormal
  | 2 => some .both
  | _ => none

/-- Table 7 (R50). An UNUSED entry holds no condition, whatever its other bytes. -/
def condOfRaw : List Raw → Option (Option Cond)
  | [.num kind, .num subj, .num req, .num app, .num ql, .num qp] =>
    if kind = 0 then some none
    else do
      let subject ← subjectOfRaw kind subj req
      let applies ← appliesOfRaw app
      let lever ← opt? ql 1 64
      let position ← opt? qp 0 1
      match lever, position with
      | none, none => return some { subject, applies }
      | some w, some q => return some { subject, applies, qualifier := some (w, ← Pos.ofCode q) }
      | _, _ => none
  | _ => none

/-- Kind, number and required state of an entry's subject, as coded (R50, R184). -/
def subjectRaw : Subject → Nat × Nat × Nat
  | .lever k p => (1, k, p.code)
  | .track k => (2, k, 0)
  | .line k st => (3, k, st.code)
  | .hold k => (4, k, 0)
  | .release k => (5, k, 2)

/-- Table 7 (R50). -/
def condRaw : Option Cond → List Raw
  | none => [.num 0, .num 255, .num 255, .num 255, .num 255, .num 255]
  | some c =>
    let (kind, k, req) := subjectRaw c.subject
    [.num kind, .num k, .num req,
     .num (match c.applies with | .toReverse => 0 | .toNormal => 1 | .both => 2),
     rawOpt (c.qualifier.map (·.1)), rawOpt (c.qualifier.map (·.2.code))]

/-- Table 8, for circuit `r` (section 1.1). -/
def trackOfRaw (r : Nat) : List Raw → Option TrackCfg
  | [.num en, .num pn, .num ar, .num dr, .num pk, .num pc, .num mo, .num lf, .num mg, .num ov,
      .list nb, .num wi] => do
    let enabled ← bool? en
    let pnom ← num? pn 200 2000
    let aref ← num? ar 256 4095
    let drop ← num? dr 200 900
    let pickup ← num? pk (drop + 50) 950
    let pickupCount ← num? pc 2 15
    let minOccupancy ← num? mo 5 300
    let lossFactor ← num? lf 150 300
    let margin ← num? mg 300 900
    let overLevel ← num? ov 1200 1999
    let neighbours ← list? nb 0 2 1 24
    let wiringInterval ← num? wi 10 600
    if neighbours.contains r || !decide neighbours.Nodup then none
    else return { enabled, pnom, aref, drop, pickup, pickupCount, minOccupancy, lossFactor,
                  margin, overLevel, neighbours, wiringInterval }
  | _ => none

/-- Table 8. -/
def trackRaw (c : TrackCfg) : List Raw :=
  [rawBool c.enabled, .num c.pnom, .num c.aref, .num c.drop, .num c.pickup, .num c.pickupCount,
   .num c.minOccupancy, .num c.lossFactor, .num c.margin, .num c.overLevel, .list c.neighbours,
   .num c.wiringInterval]

/-- Table 9 (R78). A hold not configured may name nothing. -/
def holdOfRaw : List Raw → Option HoldCfg
  | [.num cf, .num sg, .list ap, .list ro, .num tm] => do
    let configured ← bool? cf
    let least := if configured then 1 else 0
    let signal ← opt? sg 1 64
    let approach ← list? ap least 4 1 24
    let route ← list? ro least 6 1 24
    let timer ← opt? tm 1 16
    if configured && signal.isNone then none
    else return { configured, signal, approach, route, timer }
  | _ => none

/-- Table 9 (R78). -/
def holdRaw (c : HoldCfg) : List Raw :=
  [rawBool c.configured, rawOpt c.signal, .list c.approach, .list c.route, rawOpt c.timer]

/-- The owner of a timer, from its codes (R86). -/
def ownerOfRaw (kind number : Nat) : Option (Option (OwnerKind × Nat)) :=
  if kind = 255 && number = 255 then some none
  else match OwnerKind.ofCode kind with
    | some .hold => (num? number 1 16).map fun n => some (.hold, n)
    | some .sequence =>
      if number = 1 || number = 3 || number = 5 then some (some (.sequence, number)) else none
    | some .lever => (num? number 1 64).map fun n => some (.lever, n)
    | none => none

/-- Table 10 (R86): a lever-owned timer has a validity, the default where its record is written without one,
and no other timer has one (log entry 38). -/
def timerOfRaw : List Raw → Option TimerCfg
  | [.num cf, .num ok, .num on, .num du, .num va] => do
    let configured ← bool? cf
    let owner ← ownerOfRaw ok on
    let duration ← num? du 10 600
    let leverOwned := owner.any fun o => o.1 == .lever
    let validity ←
      if va = 65535 then some (if leverOwned then some defaultValidity else none)
      else (num? va 10 300).map some
    if (configured && owner.isNone) || leverOwned != validity.isSome then none
    else return { configured, owner, duration, validity }
  | _ => none

/-- Table 10 (R86). -/
def timerRaw (c : TimerCfg) : List Raw :=
  [rawBool c.configured, rawOpt (c.owner.map (·.1.code)), rawOpt (c.owner.map (·.2)),
   .num c.duration, .num (c.validity.getD 65535)]

/-- Table 11, an inbound line (R115): the arrival circuit is required. -/
def inbOfRaw : List Raw → Option InboundCfg
  | [.num ar, .num cl, .num ho, .list cp, .num tm] => do
    let arrival ← num? ar 1 24
    let clearing ← opt? cl 1 24
    let home ← opt? ho 1 64
    let clearingPoint ← list? cp 0 4 1 24
    let timer ← opt? tm 1 16
    return { arrival := some arrival, clearing, home, clearingPoint, timer }
  | _ => none

/-- Table 11, an inbound line (R115). -/
def inbRaw (c : InboundCfg) : List Raw :=
  [rawOpt c.arrival, rawOpt c.clearing, rawOpt c.home, .list c.clearingPoint, rawOpt c.timer]

/-- Table 11, an outbound line (R115). -/
def outbOfRaw : List Raw → Option OutboundCfg
  | [.num de, .num ov] => do
    let departure ← opt? de 1 24
    let overdue ← num? ov 10 300
    return { departure, overdue }
  | _ => none

/-- A code rule's directions, from their code (R107). -/
def validForOfRaw : Nat → Option ValidFor
  | 0 => some .sent
  | 1 => some .received
  | 2 => some .both
  | _ => none

/-- Table 12 (R107): a class with OFFER and with no other meaning. -/
def codeOfRaw : List Raw → Option CodeRule
  | [.list pa, .num me, .num cl, .num vf] => do
    let pattern ← list? pa 0 4 1 16
    let meaning ← Meaning.ofCode me
    let cls ← opt? cl 1 8
    let validFor ← validForOfRaw vf
    if (meaning == .offer) != cls.isSome then none else return { pattern, meaning, cls, validFor }
  | _ => none

/-- Table 12 (R107). -/
def codeRaw (c : CodeRule) : List Raw :=
  [.list c.pattern, .num c.meaning.code, rawOpt c.cls,
   .num (match c.validFor with | .sent => 0 | .received => 1 | .both => 2)]

/-- A reaction from its code. -/
def Reaction.ofCode : Nat → Option Reaction
  | 0 => some .report
  | 1 => some .confine
  | 2 => some .suspend
  | _ => none

/-- Table 13, for a source code (R160): not below the source's minimum. -/
def reactionOfRaw (c : Nat) : List Raw → Option Reaction
  | [.num n] => do
    let r ← Reaction.ofCode n
    if r.code < (source c).minimum.code then none else return r
  | _ => none

/-- A record from its fields; none where a field is outside its range (R184). -/
def valueOfRaw (table record : Nat) (rs : List Raw) : Option Value :=
  match table with
  | 1 => match rs with
    | [.num n] => (opt? n 1 254).map .identity
    | _ => none
  | 2 => (linkOfRaw rs).map .link
  | 3 => (bellOfRaw rs).map .bell
  | 4 => match rs with
    | [.num n] => (bool? n).map .board
    | _ => none
  | 5 => (windowOfRaw rs).map .window
  | 6 => (leverOfRaw rs).map .lever
  | 7 => (condOfRaw rs).map .cond
  | 8 => (trackOfRaw record rs).map .track
  | 9 => (holdOfRaw rs).map .hold
  | 10 => (timerOfRaw rs).map .timer
  | 11 => if record % 2 = 1 then (inbOfRaw rs).map .inb else (outbOfRaw rs).map .outb
  | 12 => (codeOfRaw rs).map .code
  | 13 => (reactionOfRaw record rs).map .reaction
  | _ => none

/-- The fields of a record. -/
def Value.raw : Value → List Raw
  | .identity n => [rawOpt n]
  | .link c => linkRaw c
  | .bell c => bellRaw c
  | .board b => [rawBool b]
  | .window w => windowRaw w
  | .lever c => leverRaw c
  | .cond c => condRaw c
  | .track c => trackRaw c
  | .hold c => holdRaw c
  | .timer c => timerRaw c
  | .inb c => inbRaw c
  | .outb c => [rawOpt c.departure, .num c.overdue]
  | .code r => codeRaw r
  | .reaction r => [.num r.code]

/-! ### Records of an image -/

/-- Whether a record number is one of the table's (section 11.1). -/
def recordOk (table record : Nat) : Bool :=
  match table with
  | 1 => record == 1
  | 2 => within record 3
  | 3 => within record 3
  | 4 => within record 11
  | 5 => record == 1
  | 6 => within record 64
  | 7 => within (record / 256) 64 && within (record % 256) 32
  | 8 => within record 24
  | 9 => within record 16
  | 10 => within record 16
  | 11 => within record 6
  | 12 => decide (record / 256 ≤ 3) && within (record % 256) 16
  | 13 => within record 21
  | _ => false

/-- The link of a line: lines 2k − 1 and 2k are link k's. -/
def linkOfLine (line : Nat) : Nat := (line + 1) / 2

/-- The record of a table by its number. -/
def Image.get (i : Image) (table record : Nat) : Value :=
  match table with
  | 1 => .identity i.identity
  | 2 => .link (i.link record)
  | 3 => .bell (i.bell record)
  | 4 => .board (i.board record)
  | 5 => .window i.window
  | 6 => .lever (i.lever record)
  | 7 => .cond (nth (i.conds (record / 256)) none (record % 256))
  | 8 => .track (i.track record)
  | 9 => .hold (i.hold record)
  | 10 => .timer (i.timer record)
  | 11 =>
    if record % 2 = 1 then .inb (i.inb (linkOfLine record)) else .outb (i.outb (linkOfLine record))
  | 12 => .code (nth (i.page (record / 256)) {} (record % 256))
  | _ => .reaction (nth i.reactions .report record)

/-- The image with a record replaced. -/
def Image.set (i : Image) (record : Nat) : Value → Image
  | .identity n => { i with identity := n }
  | .link c => { i with links := put i.links record c }
  | .bell c => { i with bells := put i.bells record c }
  | .board b => { i with boards := put i.boards record b }
  | .window w => { i with window := w }
  | .lever c => { i with levers := put i.levers record c }
  | .cond c =>
    { i with
      conditions := modAt i.conditions [] (record / 256) fun l => writeCond l (record % 256) c }
  | .track c => { i with tracks := put i.tracks record c }
  | .hold c => { i with holds := put i.holds record c }
  | .timer c => { i with timers := put i.timers record c }
  | .inb c => { i with inbound := put i.inbound (linkOfLine record) c }
  | .outb c => { i with outbound := put i.outbound (linkOfLine record) c }
  | .code r =>
    { i with codes := modAt i.codes [] (record / 256 + 1) fun p => put p (record % 256) r }
  | .reaction r => { i with reactions := put i.reactions record r }

/-- The bytes of a record in the WRITE TABLE encoding (R184). -/
def Image.recordBytes (i : Image) (table record : Nat) : List Byte :=
  encodeFields (layout table record) (i.get table record).raw

/-- The record numbers of a table, in number order (section 11.1). -/
def recordsOf (table : Nat) : List Nat :=
  match table with
  | 1 => [1]
  | 2 => upTo 3
  | 3 => upTo 3
  | 4 => upTo 11
  | 5 => [1]
  | 6 => upTo 64
  | 7 => (upTo 64).flatMap fun k => (upTo 32).map fun j => k * 256 + j
  | 8 => upTo 24
  | 9 => upTo 16
  | 10 => upTo 16
  | 11 => upTo 6
  | 12 => (List.range 4).flatMap fun p => (upTo 16).map fun r => p * 256 + r
  | 13 => upTo 21
  | _ => []

/-- The bytes of the image: the tables in code order, each table's records in number order (R181). -/
def Image.bytes (i : Image) : List Byte :=
  (upTo 13).flatMap fun t => (recordsOf t).flatMap fun r => i.recordBytes t r

/-- The signature of an image (R181). -/
def Image.signature (i : Image) : Word32 := crc32 i.bytes

/-! ### Changes to an image -/

/-- A staged field of a track circuit record (R24). -/
def TrackCfg.setField (c : TrackCfg) (field v : Nat) : TrackCfg :=
  match field with
  | 4 => { c with drop := v }
  | 5 => { c with pickup := v }
  | 6 => { c with pickupCount := v }
  | 7 => { c with minOccupancy := v }
  | 9 => { c with margin := v }
  | 10 => { c with overLevel := v }
  | 12 => { c with wiringInterval := v }
  | _ => c

/-- A staged field of a links record (R137). -/
def LinkCfg.setField (c : LinkCfg) (field v : Nat) : LinkCfg :=
  match field with
  | 5 => { c with turnaround := v }
  | 6 => { c with bidAnswer := v }
  | 7 => { c with dataStart := v }
  | 8 => { c with takenWait := v }
  | 9 => { c with bidRetries := v }
  | 10 => { c with dataRetries := v }
  | 11 => { c with heartbeat := v }
  | 12 => { c with silence := v }
  | _ => c

/-- A staged field of a link timing record (R112). -/
def BellCfg.setField (c : BellCfg) (field v : Nat) : BellCfg :=
  match field with
  | 1 => { c with groupGap := v }
  | 2 => { c with endGap := v }
  | 3 => { c with sendStroke := v }
  | 4 => { c with inGroup := v }
  | 5 => { c with betweenGroup := v }
  | 6 => { c with reply := v }
  | _ => c

/-- A staged field of a releases record (R92). -/
def TimerCfg.setField (c : TimerCfg) (field v : Nat) : TimerCfg :=
  match field with
  | 4 => { c with duration := v }
  | 5 => { c with validity := some v }
  | _ => c

/-- A staged field of an outbound line's record (R133). -/
def OutboundCfg.setField (c : OutboundCfg) (field v : Nat) : OutboundCfg :=
  if field = 2 then { c with overdue := v } else c

/-- Fields of one record set to staged values (R187). -/
def Image.setFields (i : Image) (table record : Nat) (vs : List (Nat × Nat)) : Image :=
  let setAll {α : Type} (f : α → Nat → Nat → α) (c : α) : α := vs.foldl (fun c v => f c v.1 v.2) c
  match table with
  | 2 => { i with links := modAt i.links {} record (setAll LinkCfg.setField) }
  | 3 => { i with bells := modAt i.bells {} record (setAll BellCfg.setField) }
  | 8 => { i with tracks := modAt i.tracks {} record (setAll TrackCfg.setField) }
  | 10 => { i with timers := modAt i.timers {} record (setAll TimerCfg.setField) }
  | 11 => { i with outbound := modAt i.outbound {} (linkOfLine record) (setAll OutboundCfg.setField) }
  | _ => i

/-- Lever `k`'s membership of the alteration set in an image (R71, R73). -/
def Image.setAltered (i : Image) (k : Nat) (b : Bool) : Image :=
  { i with levers := modAt i.levers {} k (fun c => { c with altered := b }) }

/-- What an image write makes of the stored image (R181). -/
def Patch.apply (p : Patch) (i : Image) : Image :=
  match p with
  | .whole new => new
  | .takeOut k => i.setAltered k true
  | .bringIn k l => ({ i with conditions := put i.conditions k l }).setAltered k false
  | .code page rule v => i.set (page * 256 + rule) (.code v)
  | .fields table record vs => i.setFields table record vs

end Sys2Proof.Machine
end

