-- ==== Sys2Proof/Machine/Store.lean ====
section
/-! DEFINITION. The stored image and its writes (R181), and what an owner does with its staged
values at its reload point (R187). -/

namespace Sys2Proof.Machine

/-- Whether the signature of the stored image stands for its bytes (R181). -/
def Stored.good (st : Stored) : Bool := !st.cut && st.signature == st.image.signature

/-- The state in which the stored image is found at a start (R181, R182). -/
def Store.found (st : Store) : ImageState :=
  match st.stored with
  | none => .blank
  | some x => if x.good then .good else .bad

/-- The image an owner's write works on: the stored one. -/
def Store.image (st : Store) : Image := (st.stored.map (·.image)).getD Image.defaults

/-- The stored image after a write has ended, with its new signature (R181). -/
def Store.written (st : Store) (p : Patch) : Stored :=
  let i := p.apply st.image
  { image := i, signature := i.signature }

/-- A write begins, or waits behind the writes already due (R181). -/
def queueJob (p : Patch) (w : Option Waiter) (s : State) : State :=
  s.modStore fun st => { st with jobs := st.jobs ++ [⟨p, w⟩] }

/-- Whether an image write is under way. -/
def writing (s : State) : Bool := !s.store.jobs.isEmpty

/-- Applies an owner's pending values to its record in the tables in force, and makes their write
due (R187). -/
def applyStaged (table record : Nat) (vs : List (Nat × Nat)) (s : State) : State :=
  s.modTables (fun i => i.setFields table record vs) |> queueJob (.fields table record vs) none

/-- The levers in the alteration set. -/
def alterationSet (s : State) : List Nat := (upTo 64).filter fun k => (s.lever k).outOfUse

end Sys2Proof.Machine
end

