-- ==== Sys2Proof/Machine/Holds.lean ====
section
/-! DEFINITION. The Route Hold Unit and the Release Timers (chapter 4): the changes of their
records, and how holds and lever-owned timers take settles, circuit changes and RESUME. -/

namespace Sys2Proof.Machine

/-! ### Changes -/

/-- The owner of a configured timer. -/
def timerOwner (s : State) (r : Nat) : OwnerKind × Nat := (s.tables.timer r).owner.getD (.hold, 0)

/-- Whether timer `r` is configured in the tables in force (R86). -/
def timerOn (s : State) (r : Nat) : Bool := (s.tables.timer r).configured

/-- A timer goes IDLE with its expiry and lapse times none (R89, R90, R91). -/
def Timer.toIdle (t : Timer) : Timer := { t with state := .idle, expiry := none, lapse := none }

/-- Timer `r` goes IDLE with a RELEASE_CANCELLED entry of a cause and a RELEASES key (R89, R90,
R91). The levers are evaluated by the caller. -/
def cancelTimer (cause : CancelCause) (r : Nat) (s : State) : State :=
  s.modTimer r Timer.toIdle
    |> append (.releaseCancelled r (timerOwner s r) cause)
    |> noteRelease r

/-- Release `r`'s reload point: it is IDLE (R92). A timer's entry to IDLE reaches it at the end of the step
that makes it, before any other command or event (R187). -/
def reloadTimer (r : Nat) (s : State) : State :=
  let t := s.timer r
  if t.staged = [] ∨ t.state ≠ .idle then s
  else
    s |> applyStaged 10 r t.staged
      |> (·.modTimer r fun t => { t with staged := [] })
      |> noteRelease r

/-- Hold `k` changes state, with its HOLD entry and HOLDS key; nothing where the state is the one it
has (R84). The levers are evaluated by the caller. -/
def setHold (k : Nat) (new : HoldState) (s : State) : State :=
  match (s.hold k).state with
  | none => s
  | some old =>
    if old = new then s
    else
      s.modHold k (fun h => { h with state := some new, lastChange := some s.now })
        |> append (.hold k old new)
        |> noteHold k

/-- The evaluations that follow a change of hold `k` and of its timer (R60, R84). -/
def evaluateHoldAndTimer (k : Nat) (r : Option Nat) (s : State) : State :=
  s |> (match r with | none => id | some r => evaluateRelease r) |> evaluateHold k

/-- The release timer of hold `k`, where it is RUNNING for the hold, which is RELEASING (R87). -/
def runningTimer (s : State) (k : Nat) : Option Nat :=
  if (s.hold k).state = some .releasing then (s.tables.hold k).timer else none

/-- The holds of `ks` that one event moves go each to the state that `dest` gives it, the RUNNING timers of
those RELEASING cancelled by their owner (R80, R83, R84, R85, R89). The entries of the Release Timers come
first and those of the holds after them, so that each owner's stand together (R154); the order of several
timers or holds is that of `ks` (log entry 34). -/
def moveHolds (dest : Nat → Option HoldState) (ks : List Nat) (s : State) : State :=
  let moving := ks.filter fun k => (dest k).isSome
  s |> forEach (moving.filterMap (runningTimer s)) (cancelTimer .owner)
    |> forEach moving (fun k => match dest k with | none => id | some new => setHold k new)
    |> forEach moving (fun k => evaluateHoldAndTimer k (runningTimer s k))

/-! ### Events -/

/-- Whether every approach circuit of hold `k` is CLEAR (R82). -/
def approachClear (s : State) (k : Nat) : Bool := s.allClear (s.tables.hold k).approach

/-- The configured holds, in rising order of number: the order in which one event that changes several of
them makes their entries is the model's (log entry 34). -/
def holdsOn (s : State) : List Nat := (upTo 16).filter fun k => (s.hold k).state.isSome

/-- The state to which a settle of its signal lever takes hold `k`; none where it does not move (R80,
R81). -/
def holdAtSettle (s : State) (pos : Pos) (k : Nat) : Option HoldState :=
  match pos, (s.hold k).state with
  | .reverse, some .set => none
  | .reverse, some _ => some .set
  | .normal, some .set => some (if approachClear s k then .idle else .held)
  | _, _ => none

/-- The holds take a settle of lever `lever` (R80, R81). -/
def holdsTakeSettle (lever : Nat) (pos : Pos) (s : State) : State :=
  moveHolds (holdAtSettle s pos)
    ((holdsOn s).filter fun k => (s.tables.hold k).signal == some lever) s

/-- The state to which a change of circuit `c` takes hold `k`; none where it does not move (R82, R83). -/
def holdAtCircuit (s : State) (c : Nat) (old new : TrackState) (k : Nat) : Option HoldState :=
  let cfg := s.tables.hold k
  let passage := cfg.route.contains c && old == .clear && new == .occupied
  match (s.hold k).state with
  | some .held =>
    if passage then some .passing
    else if cfg.approach.contains c && new == .clear && approachClear s k then some .idle
    else none
  | some .releasing => if passage then some .passing else none
  | some .passing =>
    if cfg.route.contains c && new == .clear && s.allClear cfg.route then some .idle else none
  | _ => none

/-- The holds take a change of circuit `c` (R25, R82, R83). -/
def holdsTakeCircuit (c : Nat) (old new : TrackState) (s : State) : State :=
  moveHolds (holdAtCircuit s c old new) (holdsOn s) s

/-- The state to which RESUME takes hold `k` (R85, steps 2 to 4). -/
def holdAtResume (s : State) (k : Nat) : HoldState :=
  match (s.tables.hold k).signal with
  | some l =>
    if (s.lever l).current = .reverse then .set
    else if approachClear s k then .idle else .held
  | none => if approachClear s k then .idle else .held

/-- The holds take a RESUME (R85). -/
def holdsResume (s : State) : State :=
  moveHolds (fun k => some (holdAtResume s k)) (holdsOn s) s

/-- The lever-owned timers take a settle REVERSE of lever `lever` (R89, R90). The manual does not order
several timers of one lever: the rising order of release number is the model's (log entry 34). -/
def timersTakeReverse (lever : Nat) (s : State) : State :=
  forEach ((upTo 16).filter fun r =>
      timerOn s r && timerOwner s r == (OwnerKind.lever, lever) && (s.timer r).state != .idle)
    (fun r s =>
      let cause := if (s.timer r).state = .running then CancelCause.owner else .consumed
      s |> cancelTimer cause r |> evaluateRelease r) s

end Sys2Proof.Machine
end

