-- ==== Sys2Proof/Machine/Lines.lean ====
section
/-! DEFINITION. The Block Controller's records (chapter 6): commutator coils, the inbound and
outbound changes, the arrival sequence, far indications, meanings, the departure watch and the
cross-check. Settles that may raise COMMUTATOR_FORCED are taken in Commutator.lean. -/

namespace Sys2Proof.Machine

/-! ### Changes with their notice key -/

/-- The fields of an inbound line whose changes raise LINES (R133, R135). -/
def Inbound.watched (i : Inbound) :
    Option LineState × Option Nat × Option Accepted × SeqState × Bool × Option LineState × Coils :=
  (i.state, i.offered, i.accepted, i.sequence, i.released, i.farView, i.coils)

/-- The fields of an outbound line whose changes raise LINES (R133, R135). -/
def Outbound.watched (o : Outbound) :
    Option LineState × Option Nat × Option Accepted × Bool × Bool × Bool :=
  (o.state, o.offered, o.accepted, o.guard, o.departureSeen, o.entering)

/-- Changes link `k`'s inbound line, raising LINES where a reported field changes (R133). -/
def changeInb (k : Nat) (f : Inbound → Inbound) (s : State) : State :=
  let t := s.modInb k f
  when ((s.inb k).watched != (t.inb k).watched) (noteLine (2 * k - 1)) t

/-- Changes link `k`'s outbound line, raising LINES where a reported field changes (R133). -/
def changeOutb (k : Nat) (f : Outbound → Outbound) (s : State) : State :=
  let t := s.modOutb k f
  when ((s.outb k).watched != (t.outb k).watched) (noteLine (2 * k)) t

/-! ### Commutator coils -/

/-- The position of link `k`'s commutator as presented to the Block Controller (R43). -/
def presented (s : State) (k : Nat) : CommCurrent :=
  if (s.instrument k).confinement ≠ [] ∨ (s.board (8 + k)).missing then .unknown
  else (s.instrument k).current

/-- The position that stands for a line state (R116). -/
def LineState.handle : LineState → CommPos
  | .clear => .c
  | .blocked => .b
  | .occupied => .o

/-- The line state that a position stands for (R116). -/
def CommPos.line : CommPos → LineState
  | .c => .clear
  | .b => .blocked
  | .o => .occupied

/-- The coils a move needs (R116). -/
def coilsNeeded : CommPos → CommPos → Coils
  | .c, .b => ⟨true, false⟩
  | .b, .c => ⟨true, false⟩
  | .b, .o => ⟨false, true⟩
  | .o, .b => ⟨false, true⟩
  | .c, .o => ⟨true, true⟩
  | .o, .c => ⟨true, true⟩
  | _, _ => ⟨false, false⟩

/-- Whether a set of coils contains another. -/
def Coils.contains (a b : Coils) : Bool := (a.k1 || !b.k1) && (a.k2 || !b.k2)

/-- The coils in both sets. -/
def Coils.both (a b : Coils) : Coils := ⟨a.k1 && b.k1, a.k2 && b.k2⟩

/-- Whether link `k` is a SINGLE link whose outbound line is not BLOCKED, which keeps the coils at B
OFF (R122, R127). -/
def singleBarred (s : State) (k : Nat) : Bool :=
  s.isSingle k && (s.outb k).state != some .blocked

/-- Whether the home signal lever of link `k`'s inbound line, if one is configured, is at rest with
settled position NORMAL (R121). -/
def homeNormal (s : State) (k : Nat) : Bool :=
  match (s.tables.inb k).home with
  | none => true
  | some l => (s.lever l).current == .normal && (s.lever l).settled == some .normal

/-- Acceptance control of link `k`'s inbound line (R121). -/
def acceptanceControl (s : State) (k : Nat) : Bool :=
  (s.inb k).offered.isSome
    && s.allClear (s.tables.inb k).clearingPoint
    && homeNormal s k
    && !(s.link k).lost && (s.link k).state != .outOfUse
    && !singleBarred s k

/-- Arrival control of link `k`'s inbound line (R121). -/
def arrivalControl (s : State) (k : Nat) : Bool := (s.inb k).sequence == .complete

/-- The coils of a commutator at rest in correspondence and not confined, by mode and position
(R121, R122). -/
def coilsAt (s : State) (k : Nat) : Mode → CommPos → Coils
  | .service, .c => ⟨true, true⟩
  | .service, .b => ⟨acceptanceControl s k, !singleBarred s k⟩
  | .service, .o => ⟨false, arrivalControl s k⟩
  | .unconfigured, _ => ⟨false, false⟩
  | _, .c => ⟨true, false⟩
  | _, .b => ⟨false, !singleBarred s k⟩
  | _, .o => ⟨false, false⟩

/-- The coil commands of link `k`'s commutator as they should stand (R116, R120, R121, R122). -/
def coilsFor (s : State) (k : Nat) : Coils :=
  match presented s k with
  | .unknown => ⟨false, false⟩
  | .moving => (s.inb k).permission
  | .rest p =>
    match (s.inb k).state with
    | none => ⟨false, false⟩
    | some st =>
      if s.blockMode = .unconfigured then ⟨false, false⟩
      else if p ≠ st.handle then coilsNeeded p st.handle
      else if (s.inb k).forcedConfinement ≠ [] then ⟨p == .c, false⟩
      else coilsAt s k s.blockMode p

/-- Evaluates the coils of link `k`'s commutator afresh (R123). -/
def evalCoils (k : Nat) (s : State) : State :=
  changeInb k (fun i => { i with coils := coilsFor s k }) s

/-- Evaluates the coils of every commutator afresh. -/
def evalAllCoils (s : State) : State := forEach (upTo 3) evalCoils s

/-- The coils a mode energises at the position left by a move (R117). -/
def keptByMode (s : State) (k : Nat) : Coils :=
  match (s.inb k).handle with
  | some .c => ⟨true, false⟩
  | some .b => ⟨false, !singleBarred s k⟩
  | _ => ⟨false, false⟩

/-- Cuts link `k`'s permission held to a set of coils (R117). -/
def cutPermission (k : Nat) (c : Coils) (s : State) : State :=
  s |> changeInb k (fun i => { i with permission := i.permission.both c }) |> evalCoils k

/-! ### The cross-check with the far box (R132) -/

/-- Compares link `k`'s inbound record with the far view. -/
def crossCheck (k : Nat) (s : State) : State :=
  let i := s.inb k
  if i.farView = none ∨ i.state = none ∨ i.farView = i.state then
    (s.modInb k fun i =>
        { i with disagreeSince := none, disagreeAt := none, disagreeActive := false })
      |> when i.disagreeActive (removeSelfClearing 19 (some k))
  else if i.disagreeSince.isSome then s
  else
    s.modInb k fun i =>
      { i with disagreeSince := some s.now
               disagreeAt := some (s.now + 2 * (s.tables.link k).heartbeat * 1000) }

/-! ### The inbound line -/

/-- The record of an inbound line after a permitted move, by the table of R119. -/
def Inbound.moveTo (i : Inbound) (new : LineState) : Inbound :=
  let accept : Accepted := match i.offered with | some c => .cls c | none => .unspecified
  match i.state, new with
  | some .blocked, .clear => { i with state := some .clear, accepted := some accept, offered := none }
  | some .blocked, .occupied =>
    { i with state := some .occupied, offered := none, sequence := .wait, released := false }
  | some .clear, .occupied => { i with state := some .occupied, sequence := .wait, released := false }
  | some .clear, .blocked =>
    { i with state := some .blocked, offered := none, accepted := none }
  | some .occupied, .blocked =>
    { i with state := some .blocked, offered := none, accepted := none
             sequence := .idle, released := false }
  | some .occupied, .clear =>
    { i with state := some .clear, offered := none, accepted := some .unspecified
             sequence := .idle, released := false }
  | none, .occupied => { i with state := some .occupied, sequence := .wait }
  | none, st => { i with state := some st }
  | _, _ => i

/-- Link `k`'s inbound record takes a state by a permitted move, or by its first settle (R119,
R134). The cross-check comes before the LINE_STATE entry, so that a FAULT_CLEARED of LINE_DISAGREE stands with
the Fault Monitor's other entries of the same event (R154), which is the model's order (log entry 34). -/
def setInbound (k : Nat) (new : LineState) (s : State) : State :=
  let old := (s.inb k).state
  s |> changeInb k (fun i => { i.moveTo new with lastChange := some s.now })
    |> crossCheck k
    |> (fun s => append (.lineState (2 * k - 1) old new (s.inb k).accepted) s)
    |> evaluateLine (2 * k - 1)
    |> (·.modLink k fun l => { l with indicationDue := true })
    |> evalCoils k

/-! ### The arrival sequence (R124, R125) -/

/-- The sequence state after a change of circuit `c` (R124). -/
def Inbound.sequenceAfter (i : Inbound) (cfg : InboundCfg) (c : Nat) (old new : TrackState) :
    SeqState :=
  let enters := old == .clear && new == .occupied
  let clears := new == .clear
  let arrival := cfg.arrival == some c
  match i.sequence with
  | .wait => if arrival && enters then (if cfg.clearing.isNone then .passing else .arriving) else .wait
  | .arriving =>
    if cfg.clearing == some c && enters then .passing
    else if arrival && clears then .wait else .arriving
  | .passing => if arrival && clears then .complete else .passing
  | q => q

/-- The line's sequence release timer, where it is RUNNING. -/
def sequenceTimer (s : State) (k : Nat) : Option Nat :=
  (s.tables.inb k).timer.filter fun r => (s.timer r).state == .running

/-- Link `k`'s arrival sequence takes a change of circuit `c`; proof cancels the RUNNING sequence
timer (R124, R125). -/
def sequenceCircuit (c : Nat) (old new : TrackState) (k : Nat) (s : State) : State :=
  let q : SeqState := (s.inb k).sequenceAfter (s.tables.inb k) c old new
  if q = (s.inb k).sequence then s
  else
    s |> changeInb k (fun i => { i with sequence := q })
      |> (match (if q = SeqState.complete then sequenceTimer s k else none) with
          | none => id
          | some r => fun s => s |> cancelTimer .owner r |> evaluateRelease r)
      |> evalCoils k

/-- The arrival sequence of link `k` is completed by its timer (R88, R124). -/
def sequenceReleased (k : Nat) (s : State) : State :=
  match (s.inb k).sequence with
  | .wait | .arriving | .passing =>
    s |> changeInb k (fun i => { i with sequence := .complete, released := true }) |> evalCoils k
  | _ => s

/-! ### The outbound line -/

/-- Whether single-line exclusion refuses a far CLEAR or OCCUPIED on link `k` (R127). -/
def excluded (s : State) (k : Nat) : Bool :=
  let i := s.inb k
  s.isSingle k
    && (i.state != some .blocked
      || (presented s k == .moving && i.handle == some .b && (i.permission.k1 || i.permission.k2)))

/-- The classes and marks of an outbound line after a change of state; `through` says that the
change passes through BLOCKED (R126). -/
def Outbound.moveTo (o : Outbound) (new : LineState) (through : Bool) : Outbound :=
  let o := if through then { o with offered := none, accepted := none } else o
  let accept : Accepted := match o.offered with | some c => .cls c | none => .unspecified
  match new with
  | .clear =>
    { o with state := some .clear, accepted := some accept, offered := none
             departureSeen := false, entering := false }
  | .blocked => { o with state := some .blocked, offered := none, accepted := none }
  | .occupied => { o with state := some .occupied }

/-- Link `k`'s outbound record changes state, with a LINE_STATE entry, or a CLEAR_LOST entry where a
cause is given (R126, R128). -/
def setOutbound (k : Nat) (new : LineState) (through : Bool) (lost : Option ClearLostCause)
    (s : State) : State :=
  let old := (s.outb k).state
  s |> changeOutb k (fun o =>
        { o.moveTo new through with refusedFar := none, lastChange := some s.now })
    |> (fun s => append (match lost with
          | some cause => .clearLost (2 * k) cause
          | none => .lineState (2 * k) old new (s.outb k).accepted) s)
    |> when (old == some .clear && new != .clear) (withdrawAllowances true (2 * k))
    |> when (old != some .clear && new == .clear) (grantAllowances (2 * k))
    |> evaluateLine (2 * k)
    |> evalCoils k

/-- A far state is refused, with a CONFLICT entry the first time (R126). -/
def refuseFar (k : Nat) (far : LineState) (s : State) : State :=
  if (s.outb k).refusedFar = some far then s
  else
    (s.modOutb k fun o => { o with refusedFar := some far }) |> append (.conflict (2 * k) far)

/-- The stale-clear guard of link `k`'s outbound line (R126, R128). -/
def setGuard (k : Nat) (b : Bool) : State → State := changeOutb k fun o => { o with guard := b }

/-- The outbound line takes the far state of an INDICATION (R126). -/
def takeFarState (k : Nat) (far : LineState) (service : Bool) (s : State) : State :=
  let o := s.outb k
  let believed := !o.guard && service && !excluded s k
  match o.state, far with
  | none, _ => s
  | some .blocked, .blocked =>
    s |> setGuard k false |> (·.modOutb k fun o => { o with refusedFar := none })
  | some _, .blocked => s |> setGuard k false |> setOutbound k .blocked false none
  | some .blocked, .clear =>
    if believed then setOutbound k .clear false none s else refuseFar k .clear s
  | some .blocked, .occupied =>
    if excluded s k then refuseFar k .occupied s else setOutbound k .occupied false none s
  | some .clear, .clear =>
    if service then s
    else s |> setOutbound k .blocked false (some .notInService) |> setGuard k true
  | some .clear, .occupied => setOutbound k .occupied true none s
  | some .occupied, .clear =>
    if believed then setOutbound k .clear true none s
    else s |> setOutbound k .blocked false none |> refuseFar k .clear
  | some .occupied, .occupied => s

/-- The Block Controller takes an INDICATION item (R126, R132). The outbound line comes first: its LINE_STATE,
CONFLICT or CLEAR_LOST entry stands before the FAULT_CLEARED of a LINE_DISAGREE that the cross-check ends, which
is the model's order (log entry 34). -/
def takeIndication (k : Nat) (inbound outbound : LineState) (service : Bool) (s : State) : State :=
  s |> takeFarState k inbound service
    |> changeInb k (fun i => { i with farView := some outbound })
    |> crossCheck k

/-- The inbound half of what LINK_LOST, or the entry to OUT_OF_USE, of link `k` does (R128): the far view is
none, and the cross-check ends a standing LINE_DISAGREE. It comes first, so that this FAULT_CLEARED stands with
the Fault Monitor's other entries of the same event (R154), which is the model's order (log entry 34). -/
def farViewLost (k : Nat) (s : State) : State :=
  s |> changeInb k (fun i => { i with farView := none }) |> crossCheck k

/-- The outbound half of what LINK_LOST, or the entry to OUT_OF_USE, of link `k` does, and the coils (R128). Its
CLEAR_LOST entry comes after those of the Fault Monitor, which is the model's order (log entry 34). -/
def lineLost (k : Nat) (cause : ClearLostCause) (s : State) : State :=
  s |> when ((s.outb k).state == some .clear) (setOutbound k .blocked false (some cause))
    |> setGuard k true
    |> (·.modOutb k fun o => { o with refusedFar := none })
    |> evalCoils k

/-! ### Meanings (R129) -/

/-- The meaning of a sent code takes effect on its acknowledgement (R129). -/
def meaningAcknowledged (k : Nat) (m : Meaning) (cls : Option Nat) (s : State) : State :=
  match m with
  | .offer =>
    if (s.outb k).state = some .blocked then changeOutb k (fun o => { o with offered := cls }) s else s
  | .cancel => changeOutb k (fun o => { o with offered := none }) s
  | _ => s

/-- The meaning of a fresh received code takes effect (R129). -/
def meaningReceived (k : Nat) (m : Meaning) (cls : Option Nat) (s : State) : State :=
  match m with
  | .offer =>
    if (s.inb k).state = some .blocked then
      s |> changeInb k (fun i => { i with offered := cls }) |> evalCoils k
    else s
  | .cancel => s |> changeInb k (fun i => { i with offered := none }) |> evalCoils k
  | .obstruction => withdrawAllowances false (2 * k) s
  | _ => s

/-! ### The overdue time (R131) -/

/-- Outbound line 2k's reload point: its overdue expiry is none (R131). -/
def reloadLine (k : Nat) (s : State) : State :=
  let o := s.outb k
  if o.staged = [] ∨ o.overdueAt.isSome = true then s
  else
    s |> applyStaged 11 (2 * k) o.staged
      |> (·.modOutb k fun o => { o with staged := [] })
      |> noteLine (2 * k)

/-! ### Departure (R130) -/

/-- Link `k`'s outbound line takes a change of circuit `c` (R130). -/
def departureCircuit (c : Nat) (old new : TrackState) (k : Nat) (s : State) : State :=
  let o := s.outb k
  let cfg := s.tables.outb k
  if cfg.departure = some c ∧ old = .clear ∧ new = .occupied
      ∧ o.state = some .clear ∧ o.departureSeen = false then
    changeOutb k (fun o =>
      { o with departureSeen := true
               overdueAt := if o.entering then o.overdueAt else some (s.now + cfg.overdue * 1000) }) s
  else s

/-- A sent ENTERING code that is not GARBLED has ended (R130). -/
def enteringSent (k : Nat) (s : State) : State :=
  changeOutb k (fun o => { o with entering := true, overdueAt := none }) s

/-! ### Events of other blocks -/

/-- The links configured in the tables in force. -/
def linksOn (s : State) : List Nat := (upTo 3).filter s.linkOn

/-- The Block Controller takes a change of circuit `c` (R123, R124, R130). -/
def linesTakeCircuit (c : Nat) (old new : TrackState) (s : State) : State :=
  forEach (linksOn s) (fun k s =>
    s |> sequenceCircuit c old new k
      |> departureCircuit c old new k
      |> when ((s.tables.inb k).clearingPoint.contains c) (evalCoils k)) s

/-- The Block Controller takes an event of lever `l`: the coils of the commutators whose home signal
lever it is (R123). -/
def linesTakeLever (l : Nat) (s : State) : State :=
  forEach ((linksOn s).filter fun k => (s.tables.inb k).home == some l) evalCoils s

end Sys2Proof.Machine
end

