-- ==== Sys2Proof/Machine/Links.lean ====
section
/-! DEFINITION. The Link Units' records (chapter 7): the outbound queue, the exchange from BID to
TAKEN, the line and its arbiter, and the entries to IDLE and OUT_OF_USE. Received frames are taken
in LinkFrames.lean. -/

namespace Sys2Proof.Machine

/-! ### The outbound queue (R140) -/

/-- The most STROKE and CODE END items a queue holds. -/
def queueSize : Nat := 32

/-- The code number of an item. -/
def Item.code : Item → Option Nat
  | .stroke c .. => some c
  | .codeEnd c .. => some c
  | .indication .. => none

/-- Whether an item is a STROKE. -/
def Item.isStroke : Item → Bool
  | .stroke .. => true
  | _ => false

/-- Whether an item is an INDICATION. -/
def Item.isIndication : Item → Bool
  | .indication .. => true
  | _ => false

/-- Whether an item is the CODE END of a code number. -/
def Item.isEndOf (c : Nat) : Item → Bool
  | .codeEnd d .. => d == c
  | _ => false

/-- A CODE END with its garbled mark set. -/
def Item.garble : Item → Item
  | .codeEnd c n _ => .codeEnd c n true
  | i => i

/-- The list with its first element that satisfies `p` changed by `f`; none where there is none. -/
def modFirst {α : Type} (p : α → Bool) (f : α → α) : List α → Option (List α)
  | [] => none
  | x :: xs => if p x then some (f x :: xs) else (modFirst p f xs).map (x :: ·)

/-- The list without its first element that satisfies `p`, and that element. -/
def removeFirst {α : Type} (p : α → Bool) : List α → Option (α × List α)
  | [] => none
  | x :: xs => if p x then some (x, xs) else (removeFirst p xs).map fun r => (r.1, x :: r.2)

/-- Marks a code damaged: its CODE END in the queue, the newest where there are several, gets its
garbled mark set; otherwise the link keeps the mark (R140). -/
def Link.damage (l : Link) (c : Nat) : Link :=
  match modFirst (fun q => q.item.isEndOf c) (fun q => { q with item := q.item.garble })
      l.queue.reverse with
  | some q => { l with queue := q.reverse }
  | none => { l with damaged := addSource c l.damaged }

/-- Marks the code of a removed or dropped item damaged. -/
def Link.damageItem (l : Link) (i : Item) : Link :=
  match i.code with
  | some c => if i.isStroke then l.damage c else l
  | none => l

/-- How many items at the head of the queue the DATA frame under way carries (R140). -/
def Link.inFlight (l : Link) : Nat := (l.flight.map (·.fromQueue)).getD 0

/-- An item joins the tail of the queue: a CODE END takes the damaged mark of its code with it, and
a STROKE with stroke number 1 removes that mark (R140). -/
def Link.joinTail (l : Link) (now : Time) (i : Item) : Link :=
  match i with
  | .stroke c _ n _ =>
    { l with queue := l.queue ++ [⟨i, now⟩]
             damaged := if n = 1 then dropSource c l.damaged else l.damaged }
  | .codeEnd c _ _ =>
    { l with queue := l.queue ++ [⟨if l.damaged.contains c then i.garble else i, now⟩]
             damaged := dropSource c l.damaged }
  | .indication .. => l

/-- Room is made in a full queue for a CODE END: the newest STROKE goes, its code marked damaged,
else the oldest CODE END; items in flight are passed over (R140). -/
def Link.makeRoom (l : Link) : Link :=
  let head := l.queue.take l.inFlight
  let rest := l.queue.drop l.inFlight
  match removeFirst (fun q => q.item.isStroke) rest.reverse with
  | some (q, r) => ({ l with queue := head ++ r.reverse } : Link).damageItem q.item
  | none =>
    match removeFirst (fun q => !q.item.isStroke) rest with
    | some (_, r) => { l with queue := head ++ r }
    | none => l

/-- An item is handed over by the Bell Code Unit (R140). -/
def Link.handOver (l : Link) (now : Time) (i : Item) : Link :=
  if l.state = .outOfUse ∨ l.state = .loopback then l
  else if l.queue.length < queueSize then l.joinTail now i
  else if i.isStroke then l.damageItem i
  else l.makeRoom.joinTail now i

/-- The STROKE items of a list that have waited 5 s, and the items that stay (R140). -/
def lateItems (now : Time) (q : List Queued) : List Queued × List Queued :=
  q.partition fun x => x.item.isStroke && x.joined + 5000 ≤ now

/-- Discards the late STROKE items that are not in the DATA frame under way (R140). -/
def Link.discardLate (l : Link) (now : Time) : Link :=
  let r := lateItems now (l.queue.drop l.inFlight)
  r.1.foldl (fun l q => l.damageItem q.item) { l with queue := l.queue.take l.inFlight ++ r.2 }

/-! ### Work and timers -/

/-- Link `k`'s record in force. -/
def cfgOf (s : State) (k : Nat) : LinkCfg := s.tables.link k

/-- Whether link `k` has work (R141). -/
def hasWork (s : State) (k : Nat) : Bool :=
  let l := s.link k
  !l.queue.isEmpty || (l.indicationDue && (s.inb k).state.isSome)

/-- The back-off of a link's role (R139). -/
def backOff (c : LinkCfg) : Nat := if c.role = some .senior then 30 else 90

/-- Whether the line is quiet at link `k` (R139). -/
def quiet (s : State) (k : Nat) : Bool :=
  match (s.link k).heard with
  | none => true
  | some h => decide (h + (cfgOf s k).turnaround ≤ s.now)

/-- The INDICATION item with the states the Block Controller gives for link `k` (R133); none while
it has none to give. -/
def indicationOf (s : State) (k : Nat) : Option Item :=
  match (s.inb k).state, (s.outb k).state with
  | some i, some o => some (.indication i o (s.inService))
  | _, _ => none

/-- Whether a link stands at its reload point (R149). -/
def Link.atReload (l : Link) : Bool :=
  (l.state == .idle || l.state == .outOfUse) && l.queue.isEmpty && !l.indicationDue
    && l.retryAt.isNone

/-- Link `k`'s reload point (R149). -/
def reloadLink (k : Nat) (s : State) : State :=
  let l := s.link k
  if l.staged = [] ∨ l.atReload = false then s
  else
    s |> applyStaged 2 k l.staged
      |> (·.modLink k fun l => { l with staged := [] })
      |> noteLine (2 * k - 1)
      |> noteLine (2 * k)

/-! ### The exchange (R142, R143) -/

/-- The DATA frame built from the queue and a due INDICATION (R142, step 2). -/
def buildFlight (s : State) (k : Nat) : Flight :=
  let l := s.link k
  let head := (l.queue.take 8).map (·.item)
  let ind := if head.length < 8 ∧ l.indicationDue = true then (indicationOf s k).toList else []
  ⟨head.length, head ++ ind⟩

/-- GO is received while the answer timer runs (R142, step 2). -/
def takeGo (k : Nat) (s : State) : State :=
  let f := buildFlight s k
  if f.items = [] then
    s.modLink k fun l => { l with state := .idle, answerAt := none }
  else
    s.modLink k fun l =>
      { l with state := .sending, answerAt := none, flight := some f
               indicationDue := l.indicationDue && !f.items.any Item.isIndication }

/-- Whether the DATA frame of the exchange under way carries an INDICATION (R141). -/
def Link.carriesIndication (l : Link) : Bool :=
  (l.flight.map (·.items.any Item.isIndication)).getD false

/-- TAKEN is received while the taken timer runs (R142, step 4). -/
def takeTaken (k : Nat) (s : State) : State :=
  let hb := (cfgOf s k).heartbeat * 1000
  s.modLink k fun l =>
    { l with state := .idle, queue := l.queue.drop l.inFlight, flight := none, takenAt := none
             heartbeatAt := if l.carriesIndication then some (s.now + hb) else l.heartbeatAt
             bidAttempts := 0, dataAttempts := 0 }

/-- What an exchange that ends without TAKEN leaves of its DATA frame: the frame is dropped, the indication
due mark is set again where it carried an INDICATION, and the late STROKE items are discarded (R140, R141,
R143). -/
def Link.dropFlight (l : Link) (now : Time) : Link :=
  ({ l with flight := none, indicationDue := l.indicationDue || l.carriesIndication } : Link).discardLate now

/-- A GO that waited to be sent when another GO brought the link its DATA frame goes first and takes the link
RECEIVING: with the end of the GO that exchange has ended without TAKEN, which the manual leaves open (R141,
log entry 44). -/
def Link.yieldFlight (l : Link) (now : Time) : Link :=
  if l.flight.isSome then l.dropFlight now else l

/-- The exchange has failed (R143). -/
def exchangeFailed (k : Nat) (s : State) : State :=
  s.modLink k fun l =>
    ({ l with state := .idle, answerAt := none, takenAt := none
              bidAttempts := 0, dataAttempts := 0
              retryAt := some (s.now + 1000) } : Link).dropFlight s.now

/-- A bid attempt fails (R143). -/
def bidFailed (k : Nat) (s : State) : State :=
  let n := (s.link k).bidAttempts + 1
  if n ≤ (cfgOf s k).bidRetries then
    s.modLink k fun l =>
      { l with bidAttempts := n, answerAt := none
               backOffAt := some (s.now + backOff (cfgOf s k)) }
  else exchangeFailed k s

/-- A data attempt fails; a collision brings a back-off (R139, R142). -/
def dataFailed (collision : Bool) (k : Nat) (s : State) : State :=
  let n := (s.link k).dataAttempts + 1
  if n ≤ (cfgOf s k).dataRetries then
    s.modLink k fun l =>
      { l with state := .sending, dataAttempts := n, takenAt := none
               backOffAt := if collision then some (s.now + backOff (cfgOf s k)) else l.backOffAt }
  else exchangeFailed k s

/-! ### Starting frames (R139) -/

/-- The frame link `k` would start on a quiet line: an answer, which a back-off does not hold, or
else the BID or DATA of its own exchange (R139, R142, R144). -/
def frameToStart (l : Link) : Option FrameType :=
  if l.sending.isSome then none
  else if l.answer.isSome then l.answer
  else if l.backOffAt.isSome then none
  else if l.state = .bidding ∧ l.answerAt = none then some .bid
  else if l.state = .sending then some .data
  else none

/-- Link `k` starts the frame that waits, if the line is quiet. A link that starts GO goes RECEIVING; the
answer timer of a BID it had sent stops with a GO, and with a WAIT, after which a SENIOR goes on to bid
(R144, log entry 43). -/
def startFrame (k : Nat) (s : State) : State :=
  match frameToStart (s.link k) with
  | none => s
  | some f =>
    if quiet s k then
      s.modLink k fun l =>
        { l with sending := some f, answer := none
                 state := if f = .go then .receiving else l.state
                 answerAt := if f = .go ∨ f = .wait then none else l.answerAt }
    else s

/-- Link `k`, IDLE with work and no retry time, goes BIDDING (R142). -/
def startBidding (k : Nat) (s : State) : State :=
  let l := s.link k
  if l.state = .idle ∧ hasWork s k = true ∧ l.retryAt = none then
    s.modLink k fun l => { l with state := .bidding }
  else s

/-- The link starts what it can: it goes BIDDING if it has work, and starts the frame that waits if
the line is quiet. -/
def pumpLink (k : Nat) (s : State) : State := s |> startBidding k |> startFrame k

/-! ### Out of use and into use (R147) -/

/-- Link `k` enters OUT_OF_USE (R147). The exchange under way ends without TAKEN, which makes an INDICATION it
carried due again (R141); the indication due mark is then kept. Of what the Block Controller does with the entry
the inbound half is here, and the outbound half, `lineLost`, follows the Fault Monitor's entries (`raise`). -/
def enterOutOfUse (k : Nat) (s : State) : State :=
  (s.modLink k fun l =>
      { l with state := .outOfUse, sending := none, answer := none, toDeliver := [], flight := none
               indicationDue := l.indicationDue || l.carriesIndication
               answerAt := none, takenAt := none, dataAt := none, backOffAt := none
               retryAt := none, heartbeatAt := none, silenceAt := none
               queue := [], damaged := [], assembling := none, loopback := none })
    |> farViewLost k

/-- Link `k` goes IDLE on leaving OUT_OF_USE or LOOPBACK (R141, R146, R147). -/
def enterIdle (k : Nat) (s : State) : State :=
  let c := cfgOf s k
  (s.modLink k fun l =>
      { l with state := .idle, bidAttempts := 0, dataAttempts := 0, indicationDue := true
               heartbeatAt := some (s.now + c.heartbeat * 1000)
               silenceAt := some (s.now + c.silence * 1000)
               loopback := none })
    |> evalCoils k

/-- A mode change between SERVICE and another mode makes an indication due on every link (R141). -/
def modeToLinks (s : State) : State :=
  forEach (linksOn s) (fun k s => s.modLink k fun l => { l with indicationDue := true }) s

end Sys2Proof.Machine
end

