-- ==== Sys2Proof/Machine/Bell.lean ====
section
/-! DEFINITION. The Bell Code Unit (chapter 5): decoding the plunger, sending host codes, rebuilding
received codes, matching, and the repeat expectation. -/

namespace Sys2Proof.Machine

/-! ### Patterns (R101) -/

/-- A pattern with a new group of one beat, and whether it keeps the limits. -/
def Pattern.open (p : Pattern) : Pattern × Bool :=
  if p.groups < 4 then (⟨p.beats ++ [1], p.groups + 1⟩, true) else (⟨p.beats, p.groups + 1⟩, false)

/-- A pattern with one beat more in its last group, and whether it keeps the limits. -/
def Pattern.beat (p : Pattern) : Pattern × Bool :=
  if p.groups ≤ 4 then
    if nth p.beats 0 p.groups < 16 then (⟨modAt p.beats 0 p.groups (· + 1), p.groups⟩, true)
    else (p, false)
  else (p, false)

/-- A pattern with a stroke placed in it. -/
def Pattern.place (p : Pattern) (newGroup : Bool) : Pattern × Bool :=
  if newGroup then p.open else p.beat

/-! ### Matching (R107, R108) -/

/-- The pages in force for link `k`, in search order: the link's own page, then page 0 (R108). -/
def rulesFor (s : State) (k : Nat) : List CodeRule := s.tables.page k ++ s.tables.page 0

/-- Whether a rule is valid for a sent code, or for a received one. -/
def CodeRule.valid (r : CodeRule) (sent : Bool) : Bool :=
  match r.validFor with
  | .both => true
  | .sent => sent
  | .received => !sent

/-- The meaning and class of a pattern: those of the first used rule that is valid and has it;
UNKNOWN with no class where there is none (R108). -/
def matchCode (rules : List CodeRule) (sent : Bool) (pattern : List Nat) : Meaning × Option Nat :=
  match rules.find? fun r => r.pattern != [] && r.pattern == pattern && r.valid sent with
  | some r => (r.meaning, r.cls)
  | none => (.unknown, none)

/-- Link `k`'s bell timing in force (R97). -/
def bellCfg (s : State) (k : Nat) : BellCfg := s.tables.bell k

/-- Hands an item to link `k`'s Link Unit (R102, R104). -/
def handItem (k : Nat) (i : Item) (s : State) : State := s.modLink k fun l => l.handOver s.now i

/-- Whether a code is open on link `k` (chapter 5, introduction). -/
def codeOpen (s : State) (k : Nat) : Bool :=
  let b := s.bell k
  b.plunger.isSome || b.host.isSome || b.received.isSome

/-- Link `k`'s bell timing reload point: no code is open (R112). -/
def reloadBell (k : Nat) (s : State) : State :=
  let b := s.bell k
  if b.staged = [] ∨ codeOpen s k = true then s
  else
    s |> applyStaged 3 k b.staged
      |> (·.modBell k fun b => { b with staged := [] })
      |> noteCode k

/-! ### The end of a sent code (R108, R109) -/

/-- The repeat expectation after a sent code has ended (R109), by the reply timeout in force: a staged one whose
reload point this end reaches is applied after it (R112), which is the model's order (log entry 34). -/
def expectAfter (k : Nat) (pattern : List Nat) (garbled : Bool) (m : Meaning × Option Nat)
    (s : State) : State :=
  let reply := (bellCfg s k).reply * 1000
  let answer := (s.bell k).answerable.any fun a => a.1 == pattern && decide (s.now ≤ a.2 + reply)
  if answer then s.modBell k fun b => { b with answerable := none }
  else
    let new : Expectation := ⟨pattern, m.1, m.2, s.now, s.now + reply⟩
    s.modBell k fun b =>
      { b with answerable := none
               expectation := if garbled || m.1 == .test then none else some new }

/-- A sent code has ended (R108, R109, R130). -/
def endSent (k : Nat) (pattern : List Nat) (garbled byHost : Bool) (rules : List CodeRule)
    (s : State) : State :=
  let m := matchCode rules true pattern
  let meaning := if garbled then none else some m.1
  let cls := if garbled then none else m.2
  s |> append (.codeSent k pattern meaning cls garbled byHost)
    |> when (!garbled && m.1 == .entering) (enteringSent k)
    |> expectAfter k pattern garbled m
    |> noteCode k

/-! ### The plunger (R98, R99, R100, R102) -/

/-- The time at which a plunger code ends if the plunger is not held: none before its first counted
stroke (R100). -/
def plungerEnd (s : State) (k : Nat) (c : PlungerCode) : Option Time :=
  c.previousStart.map (· + (bellCfg s k).endGap)

/-- Link `k`'s plunger code ends (R100, R102, R108). The bell timing reload point is reached with it
(R112), after the code's expectation (log entry 34) and before another code can open in the same step. -/
def endPlunger (k : Nat) (c : PlungerCode) (s : State) : State :=
  (s.modBell k fun b => { b with plunger := none })
    |> handItem k (.codeEnd (c.number.getD 0) c.relayed c.garbled)
    |> endSent k c.pattern.beats c.garbled false c.rules
    |> reloadBell k

/-- Link `k`'s plunger code ends if its end time has come and no taken stroke is held (R100). -/
def endDuePlunger (k : Nat) (s : State) : State :=
  match (s.bell k).plunger with
  | none => s
  | some c =>
    if !(s.bell k).strokeTaken && (plungerEnd s k c).any (fun t => decide (t ≤ s.now)) then
      endPlunger k c s
    else s

/-- Whether link `k` takes strokes and codes: it is configured, and neither OUT_OF_USE nor LOOPBACK
(R98, R103). -/
def linkTakesCodes (s : State) (k : Nat) : Bool :=
  s.linkOn k && (s.link k).state != .outOfUse && (s.link k).state != .loopback

/-- A stroke start is taken or discarded (R98). A code whose end has come ends first (R100). -/
def strokeStart (k : Nat) (s : State) : State :=
  let s := endDuePlunger k s
  let b := s.bell k
  if b.host.isSome then s
  else
    match b.plunger with
    | some _ => s.modBell k fun b => { b with strokeTaken := true }
    | none =>
      if linkTakesCodes s k then
        s.modBell k fun b =>
          { b with strokeTaken := true, plunger := some { opened := s.now, rules := rulesFor s k } }
      else s

/-- A counted stroke is placed in its code (R99, R101). -/
def PlungerCode.count (c : PlungerCode) (start : Time) (groupGap next : Nat) : PlungerCode × Bool :=
  let newGroup := c.previousStart.all fun p => decide (groupGap ≤ start - p)
  let r := c.pattern.place newGroup
  ({ c with number := some (c.number.getD next), pattern := r.1, counted := c.counted + 1
            previousStart := some start, garbled := c.garbled || !r.2 }, newGroup)

/-- The counted stroke of link `k`'s plunger code is placed and handed on (R99, R102). -/
def countStroke (k : Nat) (c : PlungerCode) (start : Time) (duration : Nat) (s : State) : State :=
  let b := s.bell k
  let r := c.count start (bellCfg s k).groupGap b.nextCode
  let relay := decide (r.1.counted ≤ 64)
  let s := s.modBell k fun b =>
    { b with plunger := some { r.1 with relayed := c.relayed + (if relay then 1 else 0) }
             nextCode := if c.number.isNone then (b.nextCode + 1) % 16 else b.nextCode }
  when relay
    (handItem k (.stroke (r.1.number.getD 0) r.2 r.1.counted (min duration 1000 / 5))) s

/-- The end of a stroke is judged (R98), and the code ends with it where that is due, or closes as
if it had never opened (R98, R100). -/
def strokeEnd (k : Nat) (start : Time) (broken : Bool) (s : State) : State :=
  let b := s.bell k
  let d := s.now - start
  match b.strokeTaken, b.plunger with
  | true, some c =>
    let c := { c with garbled := c.garbled || broken || decide (1000 < d) }
    let s := s.modBell k fun b => { b with strokeTaken := false, plunger := some c }
    let s := when (decide (40 ≤ d)) (countStroke k c start d) s
    match (s.bell k).plunger with
    | none => s
    | some c =>
      if c.counted = 0 then s.modBell k fun b => { b with plunger := none }
      else endDuePlunger k s
  | _, _ => s

/-! ### Host codes (R103, R104) -/

/-- The stroke starts of the later strokes of one group. -/
def groupStarts (start step : Nat) : Nat → List (Time × Bool)
  | 0 => []
  | n + 1 => (start + step, false) :: groupStarts (start + step) step n

/-- The schedule of stroke starts, a group starting at `start` (R104). -/
def scheduleOf (c : BellCfg) : List Nat → Time → List (Time × Bool)
  | [], _ => []
  | g :: gs, start =>
    (start, true) :: groupStarts start c.inGroup (g - 1)
      ++ scheduleOf c gs (start + (g - 1) * c.inGroup + c.betweenGroup)

/-- The start of the last stroke of a schedule. -/
def lastStart (l : List (Time × Bool)) : Time := (l.getLast?.map (·.1)).getD 0

/-- Link `k` opens a host code (R103). -/
def openHostCode (k : Nat) (groups : List Nat) (s : State) : State :=
  let c := bellCfg s k
  let sched := scheduleOf c groups s.now
  s.modBell k fun b =>
    { b with
      host := some { number := b.nextCode, pattern := groups, schedule := sched
                     stroke := c.sendStroke, endAt := lastStart sched + c.endGap
                     rules := rulesFor s k }
      nextCode := (b.nextCode + 1) % 16 }

/-- The next stroke of link `k`'s host code ends, if its time has come: its STROKE item is handed on
(R104). -/
def hostStrokeEnd (k : Nat) (s : State) : State :=
  match (s.bell k).host with
  | none => s
  | some h =>
    match h.schedule with
    | [] => s
    | (start, newGroup) :: rest =>
      if start + h.stroke ≤ s.now then
        (s.modBell k fun b => { b with host := some { h with schedule := rest, sent := h.sent + 1 } })
          |> handItem k (.stroke h.number newGroup (h.sent + 1) (h.stroke / 5))
      else s

/-- Link `k`'s host code ends, if its time has come and its strokes have been sent (R104, R108). The bell timing
reload point that it may reach is taken at the end of the step, after the code's expectation (R112, log entry
34). -/
def hostEnd (k : Nat) (s : State) : State :=
  match (s.bell k).host with
  | none => s
  | some h =>
    if h.schedule = [] ∧ h.endAt ≤ s.now then
      (s.modBell k fun b => { b with host := none })
        |> handItem k (.codeEnd h.number h.sent false)
        |> endSent k h.pattern false true h.rules
    else s

/-! ### Received codes (R105, R106, R110) -/

/-- A fresh received code is recorded and given to the Block Controller (R108). -/
def freshReceived (k : Nat) (pattern : List Nat) (garbled : Bool) (m : Meaning × Option Nat)
    (s : State) : State :=
  s |> append (.codeReceived k pattern (if garbled then none else some m.1)
        (if garbled then none else m.2) garbled)
    |> when (!garbled) (meaningReceived k m.1 m.2)
    |> when (!garbled) (fun s => s.modBell k fun b => { b with answerable := some (pattern, s.now) })
    |> noteCode k

/-- A received code closes (R106, R108, R110). -/
def closeReceived (k : Nat) (number : Nat) (pattern : List Nat) (garbled : Bool)
    (rules : List CodeRule) (s : State) : State :=
  let s := s.modBell k fun b => { b with received := none, lastEnded := some (number, s.now) }
  let m := matchCode rules false pattern
  match (s.bell k).expectation with
  | none => freshReceived k pattern garbled m s
  | some e =>
    if garbled then freshReceived k pattern garbled m s
    else
      let s := s.modBell k fun b => { b with expectation := none }
      if e.pattern = pattern then
        s |> append (.codeAck k e.pattern e.meaning e.cls)
          |> meaningAcknowledged k e.meaning e.cls
          |> noteCode k
      else
        s |> append (.codeNotRepeated k e.pattern e.meaning e.cls)
          |> freshReceived k pattern garbled m

/-- A received code ends (R106, R108, R110). The bell timing reload point is reached with it (R112),
before another code can open in the same step. -/
def endReceived (k : Nat) (number : Nat) (pattern : List Nat) (garbled : Bool)
    (rules : List CodeRule) (s : State) : State :=
  s |> closeReceived k number pattern garbled rules |> reloadBell k

/-- Whether a code number is that of the last ended received code, ended less than 10 s before
(R105, R106). -/
def recentlyEnded (s : State) (k number : Nat) : Bool :=
  (s.bell k).lastEnded.any fun e => e.1 == number && decide (s.now < e.2 + 10000)

/-- Whether a STROKE item is a duplicate (R105). -/
def strokeDuplicate (s : State) (k number stroke : Nat) : Bool :=
  match (s.bell k).received with
  | some c => c.number == number && decide (stroke < c.next)
  | none => recentlyEnded s k number

/-- A ring request for link `k`'s bell coil (R45, R105). -/
def ring (k units : Nat) (s : State) : State :=
  let t := s.now + max 40 (min (units * 5) 250)
  s.modInstrument k fun i => { i with ringEnd := some (max (i.ringEnd.getD t) t) }

/-- A received code opens with a STROKE item (R105, case 1). -/
def openReceived (k number stroke : Nat) (s : State) : State :=
  let c : ReceivedCode :=
    { number := number, pattern := ⟨[1], 1⟩, strokes := 1, next := stroke + 1
      garbled := stroke != 1, lastItem := s.now, rules := rulesFor s k }
  s.modBell k fun b => { b with received := some c }

/-- A STROKE item is taken into the open code of its number (R105, case 2). -/
def addReceived (k : Nat) (c : ReceivedCode) (newGroup : Bool) (stroke : Nat) (s : State) : State :=
  let r := c.pattern.place newGroup
  let c : ReceivedCode :=
    { c with pattern := r.1, strokes := c.strokes + 1, next := stroke + 1
             garbled := c.garbled || decide (c.next < stroke) || !r.2, lastItem := s.now }
  s.modBell k fun b => { b with received := some c }

/-- The open received code of another number ends GARBLED (R105). -/
def endOther (k number : Nat) (s : State) : State :=
  match (s.bell k).received with
  | some c => if c.number = number then s else endReceived k c.number c.pattern.beats true c.rules s
  | none => s

/-- A STROKE item is delivered (R105). -/
def takeStroke (k number : Nat) (newGroup : Bool) (stroke units : Nat) (s : State) : State :=
  if strokeDuplicate s k number stroke then s
  else
    let s := s |> ring k units |> endOther k number
    match (s.bell k).received with
    | some c => addReceived k c newGroup stroke s
    | none => openReceived k number stroke s

/-- A CODE END item is delivered (R106). -/
def takeCodeEnd (k number count : Nat) (garbled : Bool) (s : State) : State :=
  let s := endOther k number s
  match (s.bell k).received with
  | some c =>
    endReceived k number c.pattern.beats (c.garbled || garbled || count + 1 != c.next) c.rules s
  | none =>
    if recentlyEnded s k number then s else endReceived k number [] true (rulesFor s k) s

/-- Link `k`'s received code ends GARBLED, if its time has come (R106). -/
def receiveTimedOut (k : Nat) (s : State) : State :=
  match (s.bell k).received with
  | none => s
  | some c =>
    if c.lastItem + (bellCfg s k).endGap + 2000 ≤ s.now then
      endReceived k c.number c.pattern.beats true c.rules s
    else s

/-- Link `k`'s repeat expectation closes unanswered, if its deadline has come (R111). -/
def deadlinePassed (k : Nat) (s : State) : State :=
  match (s.bell k).expectation with
  | none => s
  | some e =>
    if e.deadline ≤ s.now then
      (s.modBell k fun b => { b with expectation := none })
        |> append (.codeUnanswered k e.pattern e.meaning e.cls)
        |> noteCode k
    else s

/-! ### Items of a taken DATA frame (R144) -/

/-- An item of a taken DATA frame is delivered. -/
def deliverItem (k : Nat) (i : Item) (s : State) : State :=
  match i with
  | .stroke c g n u => takeStroke k c g n u s
  | .codeEnd c n g => takeCodeEnd k c n g s
  | .indication i o v => takeIndication k i o v s

/-- The items of the taken DATA frame of link `k` are delivered, in frame order (R144). -/
def deliverItems (k : Nat) (s : State) : State :=
  let items := (s.link k).toDeliver
  items.foldl (fun s i => deliverItem k i s) (s.modLink k fun l => { l with toDeliver := [] })

end Sys2Proof.Machine
end

