-- ==== Sys2Proof/Machine/Tracks.lean ====
section
/-! DEFINITION. The changes of a track circuit's state and their delivery (R11, R14, R25), staging
(R24), the confinement of circuits (R16), and the shared converter (R6). -/

namespace Sys2Proof.Machine

/-! ### State changes -/

/-- A change of circuit `k`'s state is delivered (R25). The lines come before the holds, so that the entries
of the Release Timers stand together: RELEASE_CANCELLED of the sequence timers, of the holds' timers, and then
HOLD (R154), which is the model's order (log entry 34). -/
def deliverTrack (k : Nat) (old new : TrackState) (s : State) : State :=
  if old = new then s
  else
    s |> noteTrack k
      |> evaluateTrack k
      |> linesTakeCircuit k old new
      |> holdsTakeCircuit k old new

/-- A standing TRACK_MARGIN cause of circuit `k` ends and its self-clearing record is removed (R18,
R163). The state does not follow here from the confinement. -/
def endMargin (k : Nat) (s : State) : State :=
  if (s.circuit k).marginActive then
    s |> removeSelfClearing 4 (some k)
      |> (·.modCircuit k fun c =>
          { c with marginActive := false, confinement := dropSource 4 c.confinement })
  else s

/-- Circuit `k` enters OCCUPIED (R11). A standing TRACK_MARGIN cause ends before the change is delivered:
the order of the two is the model's (log entry 34). -/
def enterOccupied (k : Nat) (s : State) : State :=
  let old := (s.circuit k).state
  (s.modCircuit k fun c => { c with state := .occupied, g := 0, occupiedSince := some s.now })
    |> endMargin k
    |> deliverTrack k old .occupied

/-- Circuit `k` enters FAILED (R14), a standing TRACK_MARGIN cause ending first (log entry 34). -/
def enterFailed (k : Nat) (s : State) : State :=
  let old := (s.circuit k).state
  (s.modCircuit k fun c => { c with state := .failed, g := 0 })
    |> endMargin k
    |> deliverTrack k old .failed

/-- Circuit `k`'s pending values are applied, written, and told of (R24). -/
def reloadTrack (k : Nat) (s : State) : State :=
  let vs := (s.circuit k).staged
  if vs = [] then s
  else
    s |> applyStaged 8 k vs
      |> (·.modCircuit k fun c => { c with staged := [] })
      |> noteTrack k

/-- Circuit `k` enters CLEAR with the level that completed pickup (R13). The margin test follows. -/
def enterClear (k level : Nat) (s : State) : State :=
  let old := (s.circuit k).state
  (s.modCircuit k fun c => { c with state := .clear, lavg := some level, bad := 0 })
    |> reloadTrack k
    |> deliverTrack k old .clear

/-! ### Confinement (R16) -/

/-- A source enters the confinement set of circuit `k`. A TRACK_MARGIN cause that ends on the way
may leave the set empty again (R16). -/
def confineTrack (c k : Nat) (s : State) : State :=
  let r := s.circuit k
  if r.state = .disabled then s
  else
    let s := s.modCircuit k fun r => { r with confinement := addSource c r.confinement }
    if r.confinement ≠ [] then s
    else
      let s := enterFailed k s
      if (s.circuit k).confinement = [] then enterOccupied k s else s

/-- A source leaves the confinement set of circuit `k` (R14). -/
def unconfineTrack (c k : Nat) (s : State) : State :=
  let r := s.circuit k
  let s := s.modCircuit k fun r => { r with confinement := dropSource c r.confinement }
  if r.confinement ≠ [] ∧ (s.circuit k).confinement = [] ∧ r.state = .failed then enterOccupied k s
  else s

/-! ### The converter (R6) -/

/-- How the converter ranks its requests. -/
def Conversion.rank : Conversion → Nat
  | .pulse k => k
  | .reference .. => 100
  | .wiring k => 200 + k

/-- The waiting request that is chosen, and those left waiting: the lowest in rank, the first to come
among equals. -/
def chooseConversion : List Conversion → Option (Conversion × List Conversion)
  | [] => none
  | c :: cs =>
    match chooseConversion cs with
    | none => some (c, [])
    | some (d, ds) => if c.rank ≤ d.rank then some (c, cs) else some (d, c :: ds)

/-- The converter, idle, takes its next request. -/
def Converter.next (c : Converter) : Converter :=
  match c.busy with
  | some _ => c
  | none =>
    match chooseConversion c.waiting with
    | none => c
    | some (r, rest) => { c with busy := some r, discard := false, waiting := rest }

/-- A request arrives at the converter. -/
def Converter.request (c : Converter) (r : Conversion) : Converter :=
  ({ c with waiting := c.waiting ++ [r] } : Converter).next

/-- The conversion under way ends. -/
def Converter.finish (c : Converter) : Converter :=
  ({ c with busy := none, discard := false } : Converter).next

/-- A reference test requests both its conversions (R167). -/
def requestReferences (t : ConverterTest) (s : State) : State :=
  s.modConverter fun c => (c.request (.reference false t)).request (.reference true t)

/-- A wiring test conversion of circuit `k` is withdrawn, or let run and its result discarded
(R20). -/
def Converter.dropWiring (c : Converter) (k : Nat) : Converter :=
  { c with
    discard := if c.busy = some (.wiring k) then true else c.discard
    waiting := c.waiting.filter fun r => r != .wiring k }

end Sys2Proof.Machine
end

