-- ==== Sys2Proof/Machine/Reactions.lean ====
section
/-! DEFINITION. Reactions to faults (R161 to R166): how a subject is confined and let go, the change
of mode, and a cause beginning or ending. -/

namespace Sys2Proof.Machine

/-! ### Subjects -/

/-- The levers mapped to a slot of lever board `b` (R33). -/
def leversOfBoard (s : State) (b : Nat) : List Nat :=
  (upTo 64).filter fun k => (s.lever k).slot.any fun slot => boardOfSlot slot == b

/-- The enabled circuits. -/
def circuitsOn (s : State) : List Nat := (upTo 24).filter fun k => (s.circuit k).state != .disabled

/-! ### Confinement of levers, commutators and links -/

/-- A source enters the confinement set of lever `k` (R40, R41, R64). -/
def confineLever (c k : Nat) (s : State) : State :=
  let l := s.lever k
  let set := addSource c l.confinement
  if set = l.confinement then s
  else
    let s := (s.modLever k fun l => { l with confinement := set }) |> noteLever k
    if l.confinement ≠ [] then s
    else if l.type = .signal ∧ l.held = some .reverse then evaluate k s
    else endRelease k s

/-- A source leaves the confinement set of lever `k` (R40, R41). -/
def unconfineLever (c k : Nat) (s : State) : State :=
  let l := s.lever k
  let set := dropSource c l.confinement
  if set = l.confinement then s
  else
    let s := (s.modLever k fun l => { l with confinement := set }) |> noteLever k
    if set = [] then evaluate k s else s

/-- The commutator of link `k` is presented to the Block Controller as UNKNOWN (R117). -/
def commutatorUnknown (k : Nat) (s : State) : State :=
  cutPermission k ⟨false, false⟩ s

/-- A source enters the confinement set of link `k`'s commutator (R43). -/
def confineCommutator (c k : Nat) (s : State) : State :=
  let was := (s.instrument k).confinement
  let s := s.modInstrument k fun i => { i with confinement := addSource c i.confinement }
  if was = [] then commutatorUnknown k s else s

/-- A COMMUTATOR_FORCED record, or OVERFLOW in its place, begins to confine link `k` (R117, R120). -/
def confineForced (c k : Nat) (s : State) : State :=
  let i := s.inb k
  let s := s.modInb k fun i => { i with forcedConfinement := addSource c i.forcedConfinement }
  if i.forcedConfinement ≠ [] then s
  else cutPermission k ⟨i.handle == some .c, false⟩ s

/-- A source leaves link `k`'s COMMUTATOR_FORCED confinement (R120). -/
def unconfineForced (c k : Nat) (s : State) : State :=
  (s.modInb k fun i => { i with forcedConfinement := dropSource c i.forcedConfinement })
    |> evalCoils k

/-- A source enters the confinement set of link `k` (R147). -/
def confineLink (c k : Nat) (s : State) : State :=
  let s := s.modLink k fun l => { l with confinement := addSource c l.confinement }
  if (s.link k).state = .outOfUse then s else enterOutOfUse k s

/-- A source leaves the confinement set of link `k` (R147). -/
def unconfineLink (c k : Nat) (s : State) : State :=
  let was := (s.link k).confinement
  let s := s.modLink k fun l => { l with confinement := dropSource c l.confinement }
  if was ≠ [] ∧ (s.link k).confinement = [] ∧ s.linkOn k = true then enterIdle k s else s

/-- A source enters the confinement of the subject of a fault of code `code`, `as` its own code or
OVERFLOW (R161). LINK_LOST acts through R128; LINE_DISAGREE, EVAL_MISMATCH with no subject and
TABLE_CHECK hold no subject. CONVERTER confines the enabled circuits in rising order of number, which is the
model's order (log entry 34). -/
def confine (code as : Nat) (subject : Option Nat) (s : State) : State :=
  match subject with
  | none => if code = 5 then forEach (circuitsOn s) (confineTrack as) s else s
  | some n =>
    match code with
    | 1 | 2 | 3 | 4 => confineTrack as n s
    | 6 =>
      if n ≤ 8 then forEach (leversOfBoard s n) (confineLever as) s
      else confineCommutator as (n - 8) s
    | 7 | 8 | 9 | 10 | 12 | 20 => confineLever as n s
    | 11 | 13 | 14 => confineCommutator as n s
    | 15 => confineForced as n s
    | 17 | 18 => confineLink as n s
    | _ => s

/-! ### The mode -/

/-- The mask bit of a mode (R180). -/
def Mode.bit (m : Mode) : Word32 := maskBit m.code

/-- The releases held that a change of mode ends (R62): all but those FROM_REVERSE of SIGNAL
levers. -/
def endReleasesForMode (s : State) : State :=
  forEach ((upTo 64).filter fun k =>
      let l := s.lever k
      l.held.isSome && !(l.type == .signal && l.held == some .reverse))
    (fun k => changeLever k fun l => { l with held := none }) s

/-- The mode becomes another, with its MODE key (R166). -/
def takeMode (new : Mode) (s : State) : State :=
  { s with mode := some new } |> raiseKey .mode new.bit

/-- The mode is entered, with its MODE entry and MODE key (R166, R182, R183). -/
def enterMode (new : Mode) (s : State) : State :=
  s |> append (.mode s.mode new) |> takeMode new

/-- The blocks take a change to SUSPENDED or EDITING (R62, R117, R122). -/
def blocksRestrict (s : State) : State :=
  s |> endReleasesForMode
    |> evaluateAll
    |> forEach (upTo 3) (fun k s => cutPermission k (keptByMode s k) s)

/-- The mode becomes SUSPENDED or EDITING, its MODE entry already made, and the blocks take the change
(R166, R183). -/
def takeRestriction (new : Mode) (s : State) : State :=
  s |> takeMode new |> blocksRestrict |> when s.inService modeToLinks

/-- The mode becomes SUSPENDED or EDITING, from the mode it is in (R166, R183). -/
def restrictMode (new : Mode) (s : State) : State :=
  s |> append (.mode s.mode new) |> takeRestriction new

/-- The mode becomes SERVICE by RESUME (R62, R85, R117, R166). -/
def resumeService (s : State) : State :=
  s |> enterMode .service |> evaluateAll |> holdsResume |> evalAllCoils |> modeToLinks

/-! ### A cause beginning and ending -/

/-- Whether an occurrence takes the mode to SUSPENDED (R166). -/
def suspends (o : Occurrence) (s : State) : Bool := o.reaction == .suspend && s.inService

/-- The beginning of a cause, in the order of R162: it is counted, FAULT_RAISED is entered, the reaction is
applied by `act`, the FAULTS key is raised, and the MODE entry follows where the reaction takes the mode to
SUSPENDED (R164, R166). `others` is what other blocks do with the reaction that makes entries of their own: it
comes after the Fault Monitor's entries, which so have consecutive sequence numbers (R154), and this order is the
model's (log entry 34). An occurrence counted in the overflow record takes the same order, its FAULTS key of
code 22 before the MODE entry and the MODE key of a SUSPEND: R164 has no line for MODE, and that it stands as R162
has it for the other two cases is the model's (log entry 46, DESIGN CHOICE). -/
def beginCause (c : Nat) (subject : Option Nat) (act others : State → State) (s : State) : State :=
  let o := occurrence s c subject
  s |> countOccurrence c subject
    |> append (.faultRaised c subject o.reaction o.count)
    |> act
    |> noteFault o.source
    |> (fun s => when (suspends o s) (append (.mode s.mode .suspended)) s)
    |> others
    |> fun s => when (suspends o s) (takeRestriction .suspended) s

/-- The link that an occurrence of a cause takes OUT_OF_USE; none where it takes none (R147). -/
def linkTaken (c : Nat) (subject : Option Nat) (s : State) : Option Nat :=
  subject.filter fun k =>
    (c == 17 || c == 18) && (occurrence s c subject).reaction != .report
      && (s.link k).state != .outOfUse

/-- A cause begins, and its subject is confined (R161, R162). -/
def raise (c : Nat) (subject : Option Nat) (s : State) : State :=
  let o := occurrence s c subject
  beginCause c subject (when (o.reaction != .report) (confine c o.source subject))
    (match linkTaken c subject s with
      | some k => lineLost k .outOfUse
      | none => id) s

/-- A single finding: the cause begins and ends at once (R145, R148, R167). -/
def raiseOnce (c : Nat) (subject : Option Nat) (s : State) : State :=
  s |> raise c subject |> latchRecord c subject

/-- The disagreements found in the step are reported (R59): EVAL_MISMATCH for each lever marked.
One round reports every mark that stands when it begins. -/
def reportMismatches (s : State) : State :=
  forEach ((upTo 64).filter fun k => (s.lever k).mismatchDue)
    (fun k s =>
      (s.modLever k fun l => { l with mismatchDue := false }) |> raise 20 (some k)) s

end Sys2Proof.Machine
end

