-- ==== Sys2Proof/Machine/Commutator.lean ====
section
/-! DEFINITION. How the Block Controller takes the departures and settles of a commutator (R116,
R120, R134), how subjects are let go (R163, R165), and the end of a cause. -/

namespace Sys2Proof.Machine

/-! ### Departures and settles -/

/-- A departure of link `k`'s commutator is taken: the coils ON become the permission held (R116). -/
def takeDeparture (k : Nat) (s : State) : State :=
  s |> changeInb k (fun i => { i with permission := i.coils }) |> evalCoils k

/-- How a settle in `y` after a rest in `x` is judged, with the record at `r` (R116). -/
inductive Judgement where
  | noMove | restored | permitted | forced
  deriving DecidableEq, Repr

/-- The judgement of R116, its cases in order. -/
def judge (x y r : CommPos) (permission : Coils) : Judgement :=
  if y = x then .noMove
  else if x ≠ r ∧ y = r then .restored
  else if x = r ∧ permission.contains (coilsNeeded x y) = true then .permitted
  else .forced

/-- The commutator is back in correspondence: an active COMMUTATOR_FORCED cause ends (R120). -/
def endForced (k : Nat) (s : State) : State :=
  if (s.inb k).forcedActive then
    (s.modInb k fun i => { i with forcedActive := false }) |> latchRecord 15 (some k)
  else s

/-- An unpermitted settle begins COMMUTATOR_FORCED, if it is not active (R120). -/
def beginForced (k : Nat) (s : State) : State :=
  if (s.inb k).forcedActive then s
  else (s.modInb k fun i => { i with forcedActive := true }) |> raise 15 (some k)

/-- A settle of link `k`'s commutator in position `y` is taken (R116, R119, R120, R134). -/
def takeSettle (k : Nat) (y : CommPos) (s : State) : State :=
  let i := s.inb k
  let s := s.modInb k fun i => { i with handle := some y, permission := {} }
  let s :=
    match i.state with
    | none => setInbound k y.line s
    | some st =>
      match judge (i.handle.getD y) y st.handle i.permission with
      | .noMove => s
      | .restored => endForced k s
      | .permitted => setInbound k y.line s
      | .forced => beginForced k s
  evalCoils k s

/-- A source leaves the confinement set of link `k`'s commutator; emptied, it lets a settle in the
position the commutator is at rest in be delivered (R43). -/
def unconfineCommutator (c k : Nat) (s : State) : State :=
  let was := (s.instrument k).confinement
  let s := s.modInstrument k fun i => { i with confinement := dropSource c i.confinement }
  if was ≠ [] ∧ (s.instrument k).confinement = [] then
    match presented s k with
    | .rest p => takeSettle k p s
    | _ => evalCoils k s
  else s

/-! ### Letting subjects go -/

/-- A source, `as` the own code of a fault of code `code` or OVERFLOW, leaves the confinement of the
fault's subject, and the owner takes the subject back (R163, R165). -/
def unconfine (code as : Nat) (subject : Option Nat) (s : State) : State :=
  match subject with
  | none => if code = 5 then forEach (circuitsOn s) (unconfineTrack as) s else s
  | some n =>
    match code with
    | 1 | 2 | 3 | 4 => unconfineTrack as n s
    | 6 =>
      if n ≤ 8 then forEach (leversOfBoard s n) (unconfineLever as) s
      else unconfineCommutator as (n - 8) s
    | 7 | 8 | 9 | 10 | 12 | 20 => unconfineLever as n s
    | 11 | 13 | 14 => unconfineCommutator as n s
    | 15 => unconfineForced as n s
    | 17 | 18 => unconfineLink as n s
    | _ => s

/-- OVERFLOW leaves every confinement (R165): of the circuits, the levers, the commutators, the inbound lines
and the links, each in rising order of number, which is the model's order (log entry 34). -/
def unconfineOverflow (s : State) : State :=
  s |> forEach (upTo 24) (unconfineTrack 22)
    |> forEach (upTo 64) (unconfineLever 22)
    |> forEach (upTo 3) (unconfineCommutator 22)
    |> forEach (upTo 3) (unconfineForced 22)
    |> forEach (upTo 3) (unconfineLink 22)

/-- A cause ends (R163): the record of a self-clearing source is removed and its subject let go; any
other record goes LATCHED. -/
def endCause (c : Nat) (subject : Option Nat) (s : State) : State :=
  if (source c).selfClearing then
    match s.faults.find c subject with
    | none => s
    | some r => s |> clearRecord r false |> unconfine c c subject |> noteFault c
  else latchRecord c subject s

end Sys2Proof.Machine
end

