-- ==== Sys2Proof/Machine/Pulses.lean ====
section
/-! DEFINITION. Pulses on the track channels: capture (R2 to R5), classification (R7 to R9), level
(R10), the state machine (R11 to R14), cause tracking (R15), the smoothed level and the margin
warning (R17, R18), wiring tests (R19 to R21) and learning (R22, R23). -/

namespace Sys2Proof.Machine

/-- Circuit `k`'s record in force. -/
def trackCfg (s : State) (k : Nat) : TrackCfg := s.tables.track k

/-- Whether circuit `k` runs: it is not DISABLED (R1). -/
def trackRuns (s : State) (k : Nat) : Bool := (s.circuit k).state != .disabled

/-! ### Arithmetic -/

/-- Whether a period lies in the window of a nominal period (R7, R8). -/
def inWindow (p pnom : Nat) : Bool := decide ((max p pnom - min p pnom) * 8 ≤ pnom)

/-- The classes of a pulse (R7). -/
inductive PulseClass where
  | first | good | foreign | badPeriod
  deriving DecidableEq, Repr

/-- The class of a pulse by its period, its circuit's nominal period and those of its neighbours
(R7, R8). -/
def classify (period : Option Nat) (pnom : Nat) (neighbours : List Nat) : PulseClass :=
  match period with
  | none => .first
  | some p =>
    if inWindow p pnom then .good
    else if neighbours.any (inWindow p) then .foreign
    else .badPeriod

/-- The level of a pulse (R10). -/
def levelOf (amplitude aref : Nat) : Nat := min (amplitude * 1000 / aref) 1999

/-- The smoothed level moved one eighth, truncated toward zero, toward a level (R17). -/
def smooth (lavg level : Nat) : Nat :=
  if lavg ≤ level then lavg + (level - lavg) / 8 else lavg - (lavg - level) / 8

/-- The code-lost time of a circuit (R5). -/
def codeLostTime (c : TrackCfg) : Nat := c.pnom * c.lossFactor / 100

/-! ### Margin (R18) -/

/-- The margin test of circuit `k`. -/
def marginTest (k : Nat) (s : State) : State :=
  let c := s.circuit k
  let cfg := trackCfg s k
  match c.lavg with
  | none => s
  | some v =>
    if c.marginActive then
      if cfg.margin + 25 ≤ v then
        (s.modCircuit k fun c => { c with marginActive := false }) |> endCause 4 (some k)
      else s
    else if c.state = .clear ∧ v < cfg.margin then
      (s.modCircuit k fun c => { c with marginActive := true }) |> raise 4 (some k)
    else s

/-! ### Causes (R15) -/

/-- A FOREIGN pulse: it begins TRACK_FOREIGN, or sets the end count to 0. -/
def foreignPulse (k : Nat) (s : State) : State :=
  let active := (s.circuit k).foreignActive
  (s.modCircuit k fun c => { c with foreignActive := true, foreignEnd := 0, overEnd := 0 })
    |> when (!active) (raise 2 (some k))

/-- An overlevel pulse: it begins TRACK_OVERLEVEL, or sets the end count to 0. -/
def overlevelPulse (k : Nat) (s : State) : State :=
  let active := (s.circuit k).overActive
  (s.modCircuit k fun c => { c with overActive := true, overEnd := 0 })
    |> when (!active) (raise 3 (some k))

/-- A GOOD pulse increases the foreign end count; at 10 an active cause ends. -/
def advanceForeign (k : Nat) (s : State) : State :=
  let c := s.circuit k
  let n := min (c.foreignEnd + 1) 10
  if c.foreignActive ∧ n = 10 then
    (s.modCircuit k fun c => { c with foreignActive := false, foreignEnd := n })
      |> endCause 2 (some k)
  else s.modCircuit k fun c => { c with foreignEnd := n }

/-- A GOOD pulse at or below the over level increases the overlevel end count; at 10 an active cause
ends. -/
def advanceOver (k : Nat) (s : State) : State :=
  let c := s.circuit k
  let n := min (c.overEnd + 1) 10
  if c.overActive ∧ n = 10 then
    (s.modCircuit k fun c => { c with overActive := false, overEnd := n })
      |> endCause 3 (some k)
  else s.modCircuit k fun c => { c with overEnd := n }

/-! ### The state machine -/

/-- A good pulse of level `level` is taken by the state machine (R11, R12, R13, R17). -/
def goodPulse (k level : Nat) (s : State) : State :=
  let c := s.circuit k
  let cfg := trackCfg s k
  match c.state with
  | .clear =>
    if level < cfg.drop then enterOccupied k s
    else
      (s.modCircuit k fun c => { c with lavg := c.lavg.map (smooth · level) }) |> marginTest k
  | .occupied =>
    if level < cfg.pickup then s.modCircuit k fun c => { c with g := 0 }
    else
      let g := min (c.g + 1) 15
      let s := s.modCircuit k fun c => { c with g := g }
      if cfg.pickupCount ≤ g ∧ (c.occupiedSince.getD 0) + cfg.minOccupancy * 100 ≤ s.now then
        s |> enterClear k level |> marginTest k
      else s
  | _ => s

/-- A loss of code for the state machine: CODE_LOST, or the second BAD_PERIOD pulse (R9, R11,
R12). -/
def codeLoss (k : Nat) (s : State) : State :=
  match (s.circuit k).state with
  | .clear => enterOccupied k s
  | .occupied => s.modCircuit k fun c => { c with g := 0 }
  | _ => s

/-- A BAD_PERIOD pulse (R9, R12, R15). -/
def badPeriodPulse (k : Nat) (s : State) : State :=
  let second := (s.circuit k).bad = 1
  let s := s.modCircuit k fun c =>
    { c with bad := if second then 0 else 1, foreignEnd := 0, overEnd := 0
             g := if c.state = .occupied then 0 else c.g }
  if second then codeLoss k s else s

/-- A GOOD pulse of amplitude `a` (R10, R15). -/
def goodPeriodPulse (k a : Nat) (s : State) : State :=
  let cfg := trackCfg s k
  let level := levelOf a cfg.aref
  let s := (s.modCircuit k fun c => { c with bad := 0, lastL := some level }) |> advanceForeign k
  if cfg.overLevel < level then overlevelPulse k s
  else s |> advanceOver k |> goodPulse k level

/-- A pulse of an enabled circuit is classified and taken (R7). -/
def classifyPulse (k a : Nat) (p : Pulse) (s : State) : State :=
  let cfg := trackCfg s k
  let s := s.modCircuit k fun c => { c with lastP := p.period, lastA := some a }
  match classify p.period cfg.pnom (cfg.neighbours.map fun n => (trackCfg s n).pnom) with
  | .first => s.modCircuit k fun c => { c with bad := 0 }
  | .good => goodPeriodPulse k a s
  | .foreign => (s.modCircuit k fun c => { c with bad := 0 }) |> foreignPulse k
  | .badPeriod => badPeriodPulse k s

/-! ### Learning (R23) -/

/-- The value of a completed learning and whether it is weak (R23). -/
def learned (sum : Nat) : Nat × Bool := (max (sum / 8) 256, decide (sum / 8 < 256))

/-- Learning completes with a sum: Aref is written to the working copy (R23). -/
def completeLearning (k sum : Nat) (s : State) : State :=
  let v := learned sum
  let aref (i : Image) : Image :=
    { i with tracks := modAt i.tracks {} k (fun c => { c with aref := v.1 }) }
  (s.modStore fun st => { st with work := st.work.map aref })
    |> (·.modCircuit k fun c => { c with learning := none, learnResult := some v })
    |> noteTrack k

/-- An accepted pulse is taken by the learning record of circuit `k` (R23). -/
def learnPulse (k a : Nat) (p : Pulse) (s : State) : State :=
  match (s.circuit k).learning with
  | none => s
  | some l =>
    let pnom := ((s.store.work.getD Image.defaults).track k).pnom
    match l.previous with
    | none => s.modCircuit k fun c => { c with learning := some { l with previous := some p.rise } }
    | some q =>
      if inWindow (p.rise - q) pnom then
        if l.samples + 1 < 8 then
          s.modCircuit k fun c =>
            { c with learning := some ⟨some p.rise, l.samples + 1, l.sum + a⟩ }
        else completeLearning k (l.sum + a) s
      else s.modCircuit k fun c => { c with learning := some ⟨some p.rise, 0, 0⟩ }

/-! ### Wiring tests (R19, R20, R21) -/

/-- A due wiring test of circuit `k` starts: its load is connected and its window opens (R20). -/
def startWiring (k : Nat) (s : State) : State :=
  let c := s.circuit k
  if c.state ≠ .disabled ∧ c.wiringOpen = false ∧ c.nextWiring.any (fun t => decide (t ≤ s.now)) then
    s.modCircuit k fun c => { c with wiringOpen := true, loadEnd := some (s.now + 15) }
  else s

/-- A wiring test of circuit `k` is abandoned (R20). -/
def abandonWiring (k : Nat) (s : State) : State :=
  if (s.circuit k).wiringOpen then
    (s.modCircuit k fun c => { c with wiringOpen := false, loadEnd := none })
      |> (·.modConverter fun v => v.dropWiring k)
  else s

/-- The kind of wiring test that follows a completed one (R19). -/
def WiringKind.other : WiringKind → WiringKind
  | .pullUp => .pullDown
  | .pullDown => .pullUp

/-- Whether a reading fails a wiring test, of either kind (R21). -/
def wiringFails (reading : Nat) : Bool := decide (3900 ≤ reading)

/-- A completed wiring test of circuit `k` is judged (R19, R21). -/
def judgeWiring (k reading : Nat) (s : State) : State :=
  let active := (s.circuit k).wiringActive
  let fails := wiringFails reading
  (s.modCircuit k fun c =>
      { c with wiringOpen := false, wiringKind := c.wiringKind.other, wiringActive := fails
               nextWiring := some (s.now + (trackCfg s k).wiringInterval * 1000) })
    |> when (fails && !active) (raise 1 (some k))
    |> when (!fails && active) (endCause 1 (some k))

/-! ### Capture (R2 to R5) -/

/-- CODE_LOST of circuit `k` (R5); a wiring test already due starts with it (R19). -/
def takeCodeLost (k : Nat) (s : State) : State :=
  (s.modCircuit k fun c =>
      { c with previousRise := none, bad := 0, foreignEnd := 0, overEnd := 0, codeLostAt := none })
    |> codeLoss k
    |> startWiring k

/-- Whether circuit `k`'s code-lost compare has expired. -/
def lossDue (s : State) (k : Nat) : Bool :=
  (s.circuit k).codeLostAt.any fun t => decide (t ≤ s.now)

/-- The candidate of circuit `k` is discarded as noise (R3). A code loss that waited for it is taken
(R5). -/
def discardCandidate (k : Nat) (s : State) : State :=
  let c := s.circuit k
  let waited := match c.candidate, c.codeLostAt with
    | some r, some t => decide (r ≤ t) && decide (t ≤ s.now)
    | _, _ => false
  (s.modCircuit k fun c => { c with candidate := none }) |> when waited (takeCodeLost k)

/-- The candidate of circuit `k`, which rose at `rise`, is accepted (R3, R4, R5). -/
def acceptCandidate (k : Nat) (rise : Time) (s : State) : State :=
  let c := s.circuit k
  let runs := trackRuns s k
  let wanted := runs || c.learning.isSome
  (s.modCircuit k fun c =>
      { c with
        candidate := none
        previousRise := some rise
        codeLostAt := if runs then some (rise + codeLostTime (trackCfg s k)) else none
        pulse := if wanted then some ⟨rise, c.previousRise.map (rise - ·)⟩ else c.pulse })
    |> when wanted (fun s => s.modConverter fun v => v.request (.pulse k))

end Sys2Proof.Machine
end

