-- ==== Sys2Proof/Machine/Scanner.lean ====
section
/-! DEFINITION. The Frame Scanner (chapter 2): polls and their outputs, lever and commutator
readings, read-backs, forced levers, plungers, and boards that are missing. -/

namespace Sys2Proof.Machine

/-! ### Outputs of a poll (R30, R31) -/

/-- The board of poll position `n`, counted from the reset (R30). -/
def boardAt (n : Nat) : Nat :=
  let j := n / 5 % 4
  match n % 5 with
  | 0 => 9
  | 1 => 10
  | 2 => 11
  | 3 => 2 * j + 1
  | _ => 2 * j + 2

/-- The logical lever mapped to a slot, if there is one (R33). -/
def leverOfSlot (s : State) (slot : Nat) : Option Nat :=
  (upTo 64).find? fun k => (s.lever k).slot == some slot

/-- The slots of a lever board, in order. -/
def slotsOfBoard (b : Nat) : List Nat := List.range' (8 * b - 7) 8

/-- The output state of a board as it stands (R31, R33, R45, R46). -/
def outputsOf (s : State) (b : Nat) : List Bool :=
  if b ≤ 8 then
    (slotsOfBoard b).map fun slot =>
      match leverOfSlot s slot with
      | some k => (s.lever k).coil
      | none => false
  else
    let k := b - 8
    let c := (s.inb k).coils
    let o := (s.outb k).state
    [c.k1, c.k2, (s.instrument k).ringEnd.any fun t => decide (s.now < t),
     o == some .blocked, o == some .clear, o == some .occupied, (s.link k).lost]

/-! ### Lever events (R41) -/

/-- The blocks take an event of lever `k`: the Evaluator evaluates it and the levers that name it,
and the Block Controller its home signal levers. -/
def leverEvent (k : Nat) (s : State) : State :=
  s |> evaluate k |> evaluateNamingLever k |> linesTakeLever k

/-- A reading of a slot's contacts (R34). -/
def readingOf (n r : Bool) : Reading :=
  match n, r with
  | true, false => .normal
  | false, true => .reverse
  | false, false => .moving
  | true, true => .both

/-- The position a reading gives. -/
def Reading.pos : Reading → Option Pos
  | .normal => some .normal
  | .reverse => some .reverse
  | _ => none

/-- The reading of a position. -/
def Pos.reading : Pos → Reading
  | .normal => .normal
  | .reverse => .reverse

/-- Whether a reading is of the position opposite to the settled one. -/
def oppositeReading (l : Lever) (r : Reading) : Bool :=
  match l.settled, r.pos with
  | some p, some q => q == p.opposite
  | _, _ => false

/-- Whether a SIGNAL lever settled REVERSE takes a release FROM_REVERSE at a reading of MOVING
(R63). -/
def takesFromReverse (s : State) (l : Lever) (r : Reading) : Bool :=
  l.signalAtReverse && r == .moving && l.held.isNone && s.blockMode != .unconfigured

/-- The release held after a departure (R63). -/
def releaseAtDeparture (s : State) (l : Lever) (r : Reading) : Option Pos :=
  if l.atRest && l.free && l.coil then l.settled
  else if takesFromReverse s l r then some .reverse else none

/-- Lever `k` departs (R34, R35, R63). -/
def leverDeparts (k : Nat) (r : Reading) (s : State) : State :=
  let held := releaseAtDeparture s (s.lever k) r
  s |> changeLever k (fun l =>
        { l with held := held, current := .moving, departed := true
                 transitStart := some s.now, transitAt := some (s.now + 30000) })
    |> noteLever k
    |> leverEvent k

/-- Lever `k`, in transit or UNKNOWN, is read MOVING (R34, R35, R63). An UNKNOWN lever goes MOVING so after
an absence of its board too: R32 says that it then leaves UNKNOWN only by settling, and the model follows R34
(log entry 25). -/
def leverMoving (k : Nat) (s : State) : State :=
  let l := s.lever k
  let held := if takesFromReverse s l .moving then some Pos.reverse else l.held
  let t := changeLever k (fun l =>
    { l with held := held, current := .moving
             transitStart := some (l.transitStart.getD s.now)
             transitAt := if l.transitStart.isNone then some (s.now + 30000) else l.transitAt }) s
  if l.current = .moving then when (held != l.held) (evaluate k) t
  else t |> noteLever k |> leverEvent k

/-- Lever `k` becomes UNKNOWN (R32, R36, R64). -/
def leverUnknown (k : Nat) (s : State) : State :=
  if (s.lever k).current = .unknown then s
  else
    s |> changeLever k (fun l => { l with current := .unknown, seenUnknown := true, held := none })
      |> noteLever k
      |> leverEvent k

/-- A forcing is found, if the cause is not active (R39). -/
def beginLeverForced (k : Nat) (s : State) : State :=
  if (s.lever k).forcedActive then s
  else (s.modLever k fun l => { l with forcedActive := true }) |> raise 8 (some k)

/-- The reading `r` of lever `k` forces it, in a transit that began with a departure (R39, first
case). -/
def forcesInTransit (l : Lever) (r : Reading) : Bool :=
  l.departed && l.transitStart.isSome && l.held.isNone && oppositeReading l r

/-- Lever `k` settles in `p` (R34, R35, R39, R66, R69, R80, R81, R90). A settle REVERSE consumes the
allowances on the lever's block line unless its own is ABSENT already (R69). Of one settle the manual gives
no order between the owners' entries (R154): the RELEASE_CANCELLED entries, of the lever's own timers and
then of its holds' timers, come before the HOLD entries, and these before LEVER_TRANSIT's FAULT_CLEARED and
LEVER_FORCED's FAULT_RAISED (R35, R90), which is the model's (log entry 34). So does a forcing in transit that
the settling reading is the first to show: it is raised after the settle, which ends it (R39). -/
def leverSettles (k : Nat) (p : Pos) (s : State) : State :=
  let l := s.lever k
  let inTransit := forcesInTransit l p.reading
  let forced := l.seenUnknown && l.settled == some p.opposite && l.held.isNone
  let consumed :=
    if p = .reverse ∧ l.type = .signal ∧ l.allowance ≠ some false then l.blockLine else none
  s |> changeLever k (fun l =>
        { l with settled := some p, current := p.atRest, transitStart := none, transitAt := none
                 departed := false, seenUnknown := false, held := none, lastSettle := some s.now })
    |> noteLever k
    |> leverEvent k
    |> (match consumed with | some line => consumeAllowances line | none => id)
    |> when (p == .reverse) (timersTakeReverse k)
    |> holdsTakeSettle k p
    |> when l.transitActive (fun s =>
        (s.modLever k fun l => { l with transitActive := false }) |> endCause 9 (some k))
    |> (if l.forcedActive then fun s =>
          (s.modLever k fun l => { l with forcedActive := false }) |> latchRecord 8 (some k)
        else if inTransit then raiseOnce 8 (some k)
        else when forced (beginLeverForced k))

/-- A valid reading advances the run that ends LEVER_CONTACT (R36). -/
def contactRecovers (k : Nat) (s : State) : State :=
  let l := s.lever k
  if !l.contactActive then s
  else if l.validRun + 1 < 2 then s.modLever k fun l => { l with validRun := l.validRun + 1 }
  else
    (s.modLever k fun l => { l with validRun := 2, contactActive := false })
      |> latchRecord 7 (some k)

/-- A reading of BOTH (R36). -/
def leverBoth (k : Nat) (s : State) : State :=
  let active := (s.lever k).contactActive
  s |> leverUnknown k
    |> (·.modLever k fun l => { l with validRun := 0, contactActive := true })
    |> when (!active) (raise 7 (some k))

/-- The reading of lever `k`'s contacts is taken (R34, R36, R39). -/
def takeReading (k : Nat) (r : Reading) (s : State) : State :=
  let same := (s.lever k).lastReading == some r
  let s := s.modLever k fun l => { l with lastReading := some r, run := if same then 2 else 1 }
  match r.pos with
  | none =>
    if r = .both then leverBoth k s
    else
      let s := contactRecovers k s
      if (s.lever k).atRest then leverDeparts k r s else leverMoving k s
  | some p =>
    let s := contactRecovers k s
    let l := s.lever k
    if l.atRest then
      if l.settled = some p then s
      else
        let s := leverDeparts k r s
        when (forcesInTransit (s.lever k) r) (beginLeverForced k) s
    else if same then leverSettles k p s
    else when (forcesInTransit l r) (beginLeverForced k) s

/-! ### Read-backs (R38) -/

/-- Findings of a judged read-back. -/
inductive Finding where
  | stuckOn | stuckOff | agreement
  deriving DecidableEq, Repr

/-- The finding of a read-back under a command (R38). -/
def findingOf (command current : Bool) : Finding :=
  match command, current with
  | false, true => .stuckOn
  | true, false => .stuckOff
  | _, _ => .agreement

/-- The command under which output `i` of a board is judged: both polls before this one answered
GOOD, with the same command (R38). -/
def judgedCommand (b : Board) (i : Nat) : Option Bool :=
  match b.last, b.before with
  | some p, some q =>
    if p.good && q.good && p.outputs.getD i false == q.outputs.getD i false then
      some (p.outputs.getD i false)
    else none
  | _, _ => none

/-- A judged read-back of lever `k`'s lock coil (R38). -/
def leverFinding (k : Nat) (f : Finding) (s : State) : State :=
  let l := s.lever k
  match f with
  | .stuckOn =>
    if l.stuckOnActive then s
    else (s.modLever k fun l => { l with stuckOnActive := true }) |> raise 10 (some k)
  | .stuckOff =>
    if l.stuckOffActive then s
    else (s.modLever k fun l => { l with stuckOffActive := true }) |> raise 12 (some k)
  | .agreement =>
    (s.modLever k fun l => { l with stuckOnActive := false, stuckOffActive := false })
      |> when l.stuckOnActive (latchRecord 10 (some k))
      |> when l.stuckOffActive (latchRecord 12 (some k))

/-- The findings of a commutator coil after a judged read-back. -/
def Instrument.find (i : Instrument) (first : Bool) (f : Finding) : Instrument :=
  match first, f with
  | true, .stuckOn => { i with k1StuckOn := true }
  | true, .stuckOff => { i with k1StuckOff := true }
  | true, .agreement => { i with k1StuckOn := false, k1StuckOff := false }
  | false, .stuckOn => { i with k2StuckOn := true }
  | false, .stuckOff => { i with k2StuckOff := true }
  | false, .agreement => { i with k2StuckOn := false, k2StuckOff := false }

/-- A judged read-back of K1 (`first`) or K2 of link `k`, and the causes that begin or end with it
(R38). -/
def coilFinding (k : Nat) (first : Bool) (f : Finding) (s : State) : State :=
  let s := s.modInstrument k fun i => i.find first f
  let i := s.instrument k
  let on := i.k1StuckOn || i.k2StuckOn
  let off := i.k1StuckOff || i.k2StuckOff
  (s.modInstrument k fun i => { i with stuckOnActive := on, stuckOffActive := off })
    |> when (on && !i.stuckOnActive) (raise 11 (some k))
    |> when (!on && i.stuckOnActive) (latchRecord 11 (some k))
    |> when (off && !i.stuckOffActive) (raise 13 (some k))
    |> when (!off && i.stuckOffActive) (latchRecord 13 (some k))

/-! ### Commutators (R42, R43) -/

/-- A reading of a commutator's contacts (R42). -/
def commReadingOf (c b o : Bool) : CommReading :=
  match c, b, o with
  | true, false, false => .pos .c
  | false, true, false => .pos .b
  | false, false, true => .pos .o
  | false, false, false => .gap
  | _, _, _ => .multiple

/-- Whether link `k`'s commutator events are delivered: its confinement set is empty and its board
PRESENT (R43). -/
def commDelivered (s : State) (k : Nat) : Bool :=
  (s.instrument k).confinement.isEmpty && !(s.board (8 + k)).missing

/-- Link `k`'s commutator departs (R42, R43). -/
def commDeparts (k : Nat) (s : State) : State :=
  (s.modInstrument k fun i => { i with current := .moving })
    |> when (commDelivered s k) (takeDeparture k)

/-- Link `k`'s commutator settles (R42, R43). -/
def commSettles (k : Nat) (p : CommPos) (s : State) : State :=
  let active := (s.instrument k).contactActive
  (s.modInstrument k fun i =>
      { i with settled := some p, current := .rest p, contactActive := false })
    |> when active (latchRecord 14 (some k))
    |> when (commDelivered s k) (takeSettle k p)

/-- Link `k`'s commutator becomes UNKNOWN (R32, R43). -/
def commUnknown (k : Nat) (s : State) : State :=
  (s.modInstrument k fun i => { i with current := .unknown }) |> commutatorUnknown k

/-- A reading of MULTIPLE (R43). -/
def commMultiple (k : Nat) (s : State) : State :=
  let active := (s.instrument k).contactActive
  s |> commUnknown k
    |> (·.modInstrument k fun i => { i with contactActive := true })
    |> when (!active) (raise 14 (some k))

/-- The reading of link `k`'s commutator is taken (R42, R43). An UNKNOWN commutator goes MOVING at a reading
of NONE after an absence of its board too: R32 says that it then leaves UNKNOWN only by settling, and the
model follows R42 (log entry 25). -/
def takeCommReading (k : Nat) (r : CommReading) (s : State) : State :=
  let s := s.modInstrument k fun i =>
    { i with lastReading := some r, began := if i.lastReading = some r then i.began else s.now }
  let i := s.instrument k
  match r, i.current with
  | .multiple, _ => commMultiple k s
  | .gap, .rest _ => commDeparts k s
  | .gap, .moving => s
  | .gap, .unknown => (s.modInstrument k fun i => { i with current := .moving }) |> evalCoils k
  | .pos p, .rest q => if p = q then s else commDeparts k s
  | .pos p, _ => if i.began + 300 ≤ s.now then commSettles k p s else s

/-! ### Plungers (R44) -/

/-- The reading of link `k`'s plunger is taken (R44). -/
def takePlunger (k : Nat) (closed : Bool) (s : State) : State :=
  match (s.instrument k).plunger, closed with
  | .arming, false => s.modInstrument k fun i => { i with plunger := .released }
  | .released, true =>
    (s.modInstrument k fun i => { i with plunger := .closed s.now }) |> strokeStart k
  | .closed start, false =>
    (s.modInstrument k fun i => { i with plunger := .released }) |> strokeEnd k start false
  | _, _ => s

/-- The plunger of link `k`'s board, found MISSING: an open stroke ends broken (R44). -/
def plungerLost (k : Nat) (s : State) : State :=
  let p := (s.instrument k).plunger
  (s.modInstrument k fun i => { i with plunger := .arming })
    |> (match p with | .closed start => strokeEnd k start true | _ => id)

/-! ### Answers and missed polls (R31, R32) -/

/-- The readings and the read-back of the slot at index `i` of lever board `b`. -/
def takeSlot (b i : Nat) (x : SlotReading) (s : State) : State :=
  match leverOfSlot s (8 * b - 7 + i) with
  | none => s
  | some k =>
    s |> takeReading k (readingOf x.n x.r)
      |> (match judgedCommand (s.board b) i with
          | some c => leverFinding k (findingOf c x.current)
          | none => id)

/-- The slots of an answer, from index `i` on. The manual gives no order: the slots are taken in rising
order, the reading of each before its read-back, so that the lever of the lower slot is the one that
departs first (log entry 34). -/
def takeSlots (b : Nat) : Nat → List SlotReading → State → State
  | _, [], s => s
  | i, x :: xs, s => takeSlots b (i + 1) xs (takeSlot b i x s)

/-- The readings of an answer of board `b` are taken. Of an instrument board, the commutator comes first,
then the plunger, then the read-back of K1, and then that of K2, each judged by itself: an order that
the manual leaves open (log entry 34). -/
def takeAnswer (b : Nat) (a : Answer) (s : State) : State :=
  match a with
  | .lever slots => takeSlots b 0 slots s
  | .instrument plunger c bb o k1 k2 =>
    let k := b - 8
    s |> takeCommReading k (commReadingOf c bb o)
      |> takePlunger k plunger
      |> (match judgedCommand (s.board b) 0 with
          | some x => coilFinding k true (findingOf x k1)
          | none => id)
      |> (match judgedCommand (s.board b) 1 with
          | some x => coilFinding k false (findingOf x k2)
          | none => id)

/-- Whether an answer is of the kind of board `b`, with a whole set of readings (R31). -/
def answerFits (b : Nat) : Answer → Bool
  | .lever slots => decide (b ≤ 8) && slots.length == 8
  | .instrument .. => decide (9 ≤ b)

/-- The poll under way has ended: it becomes the board's last poll (R38). -/
def endPoll (b : Nat) (outputs : List Bool) (good : Bool) (s : State) : State :=
  { s with polled := none }.modBoard b fun r =>
    { r with before := r.last, last := some ⟨outputs, good⟩ }

/-- What board `b` serves becomes UNKNOWN, and its stroke ends broken (R32). The third good answer's
readings will count as the first. -/
def loseBoard (b : Nat) (s : State) : State :=
  if b ≤ 8 then
    forEach (leversOfBoard s b)
      (fun k s =>
        s |> leverUnknown k |> (·.modLever k fun l => { l with lastReading := none, run := 0 })) s
  else
    let k := b - 8
    s |> commUnknown k
      |> (·.modInstrument k fun i => { i with lastReading := none })
      |> plungerLost k

/-- The poll of board `b` is missed (R32). At the third miss what the board serves is lost first, which may end
a due plunger code with its entry, and FAULT_RAISED of BOARD_MISSING follows: the order is the model's (log
entry 34). -/
def takeMiss (b : Nat) (outputs : List Bool) (s : State) : State :=
  let r := s.board b
  s |> (if r.missing then (·.modBoard b fun r => { r with goods := 0 })
        else if r.misses + 1 < 3 then (·.modBoard b fun r => { r with misses := r.misses + 1 })
        else fun s =>
          (s.modBoard b fun r => { r with misses := 3, missing := true, goods := 0 })
            |> loseBoard b
            |> raise 6 (some b))
    |> endPoll b outputs false

/-- The poll of board `b` is answered GOOD (R32). -/
def takeGood (b : Nat) (a : Answer) (outputs : List Bool) (s : State) : State :=
  let r := s.board b
  s |> (if !r.missing then fun s =>
          (s.modBoard b fun r => { r with misses := 0 }) |> takeAnswer b a
        else if r.goods + 1 < 3 then (·.modBoard b fun r => { r with goods := r.goods + 1 })
        else fun s =>
          (s.modBoard b fun r => { r with goods := 3, missing := false, misses := 0 })
            |> endCause 6 (some b)
            |> takeAnswer b a)
    |> endPoll b outputs true

/-- The next poll position is taken (R30): the poll under way, if there is one, is first counted
missed (R31); an unconfigured board's position is left idle. -/
def takePosition (s : State) : State :=
  let s := match s.polled with
    | some (b, o) => takeMiss b o s
    | none => s
  let b := boardAt s.scan
  { s with
    scan := s.scan + 1
    polled := if (s.board b).configured then some (b, outputsOf s b) else none }

end Sys2Proof.Machine
end

