-- ==== Sys2Proof/Machine/LinkFrames.lean ====
section
/-! DEFINITION. Link frames as characters (section 7.2), the frames a link receives (R138, R144 to
R146), the frames it has sent, its collisions (R139), and the loopback test (R148). -/

namespace Sys2Proof.Machine

/-! ### Items and frames as bytes -/

/-- The START character. -/
def startChar : Byte := 0x5A#8

/-- The bytes of an item. -/
def Item.bytes : Item → List Byte
  | .stroke c g n u => [1, byte (c + if g then 128 else 0), byte n, byte u]
  | .codeEnd c n g => [2, byte c, byte n, if g then 1 else 0]
  | .indication i o v => [3, byte i.code, byte o.code, if v then 1 else 0]

/-- An item from its bytes; none for an unknown kind or a field outside its range, which is skipped
(R138). -/
def itemOfBytes (kind a b c : Nat) : Option Item :=
  match kind with
  | 1 =>
    let code := a % 128
    if code ≤ 15 ∧ 1 ≤ b ∧ b ≤ 64 ∧ 8 ≤ c ∧ c ≤ 200 then some (.stroke code (decide (128 ≤ a)) b c)
    else none
  | 2 => if a ≤ 15 ∧ 1 ≤ b ∧ b ≤ 64 ∧ c ≤ 1 then some (.codeEnd a b (c == 1)) else none
  | 3 =>
    match LineState.ofCode a, LineState.ofCode b with
    | some i, some o => if c ≤ 1 then some (.indication i o (c == 1)) else none
    | _, _ => none
  | _ => none

/-- The items of a DATA frame, those that are skipped left out (R138). -/
def itemsOf : List Byte → List Item
  | a :: b :: c :: d :: rest =>
    (itemOfBytes a.toNat b.toNat c.toNat d.toNat).toList ++ itemsOf rest
  | _ => []

/-- The characters of a frame, from START on (section 7.2). -/
def frameBytes (t : FrameType) (own : Nat) (items : List Item) : List Byte :=
  let body := byte t.code :: byte own :: byte items.length :: items.flatMap Item.bytes
  startChar :: body ++ [xorAll body]

/-- Whether a COUNT is in the range of its TYPE (R138). -/
def countFits (t : FrameType) (n : Nat) : Bool :=
  if t = .data then decide (1 ≤ n) && decide (n ≤ 8) else n == 0

/-- What the receiver makes of the characters from TYPE on (R138). -/
inductive Heard where
  /-- No frame: abandoned. -/
  | abandoned
  /-- A frame whose CHECK is wrong. -/
  | bad (t : FrameType)
  /-- A frame whose CHECK is right, with its FROM and its items. -/
  | whole (t : FrameType) (sender : Nat) (items : List Item)
  deriving DecidableEq, Repr

/-- The frame that characters from TYPE on make (R138). -/
def hear (chars : List Byte) : Heard :=
  match chars with
  | t :: f :: n :: rest =>
    match FrameType.ofCode t.toNat with
    | none => .abandoned
    | some ty =>
      if !countFits ty n.toNat || rest.length != 4 * n.toNat + 1 then .abandoned
      else if xorAll (t :: f :: n :: rest.dropLast) = rest.getLastD 0 then
        .whole ty f.toNat (itemsOf rest.dropLast)
      else .bad ty
  | _ => .abandoned

/-! ### Frames received (R144, R145, R146) -/

/-- The data timer of a RECEIVING link starts again at the end of a frame (R144, R145). -/
def Link.restartData (c : LinkCfg) (now : Time) (l : Link) : Link :=
  { l with dataAt := if l.state = .receiving then some (now + c.dataStart) else l.dataAt }

/-- Link `k`'s data timer, where it is RECEIVING, starts again (R144, R145). -/
def restartData (k : Nat) (s : State) : State := s.modLink k (Link.restartData (cfgOf s k) s.now)

/-- An answer of link `k` waits for the quiet line (R144). One answer waits at a time: that of a later frame
takes the place of an earlier one not yet sent, and the items of a DATA frame whose TAKEN is replaced so are
not delivered, which the manual leaves open (log entry 44). -/
def answerWith (k : Nat) (f : FrameType) (s : State) : State :=
  s.modLink k fun l => { l with answer := some f }

/-- Whether a link is IDLE, BIDDING or RECEIVING. -/
def Link.listening (l : Link) : Bool :=
  l.state == .idle || l.state == .bidding || l.state == .receiving

/-- Link `k` answers a frame of a type, with the items of a DATA frame, by its state (R142, R143,
R144). -/
def takeFrame (k : Nat) (t : FrameType) (items : List Item) (s : State) : State :=
  let l := s.link k
  match l.state, t with
  | .idle, .bid => answerWith k .go s
  | .receiving, .bid => (s.modLink k fun l => { l with dataAt := none }) |> answerWith k .go
  | .bidding, .bid =>
    answerWith k (if (cfgOf s k).role = some .senior then .wait else .go) s
  | .idle, .data | .bidding, .data | .receiving, .data =>
    (s.modLink k fun l => { l with toDeliver := items, dataAt := none }) |> answerWith k .taken
  | .bidding, .go => if l.answerAt.isSome then takeGo k s else s
  | .bidding, .wait => if l.answerAt.isSome then bidFailed k s else s
  | .awaitTaken, .taken => if l.takenAt.isSome then takeTaken k s else s
  | .awaitTaken, .reject => if l.takenAt.isSome then dataFailed false k s else s
  | _, _ => s

/-- A valid frame restarts the silence watch of link `k` and ends LINK_LOST (R138, R146). -/
def validHeard (k : Nat) (s : State) : State :=
  let c := cfgOf s k
  let lost := (s.link k).lost
  (s.modLink k fun l => { l with silenceAt := some (s.now + c.silence * 1000), lost := false })
    |> when lost (fun s => s |> endCause 16 (some k) |> evalCoils k)

/-- What link `k` does with what its receiver made of a run of characters (R138, R144, R145). A DATA frame
of a stranger is answered REJECT, and reported once that has been sent: the report takes the link out of
use (log entry 43). -/
def takeHeard (k : Nat) (h : Heard) (s : State) : State :=
  match h with
  | .abandoned => restartData k s
  | .bad t =>
    s |> restartData k
      |> when (t == .data && (s.link k).listening) (answerWith k .reject)
  | .whole t sender items =>
    if (cfgOf s k).farBox = some sender then s |> validHeard k |> takeFrame k t items
    else if t = .data then
      if (s.link k).listening then
        s |> restartData k
          |> answerWith k .reject
          |> (·.modLink k fun l => { l with crossedDue := true })
      else s
    else takeFrame k t items s

/-- Whether link `k` hears the line: it is neither OUT_OF_USE nor LOOPBACK (R144). What is heard is taken to
come from the other end, whether or not the link drives the line (log entry 44). -/
def hears (s : State) (k : Nat) : Bool :=
  (s.link k).state != .outOfUse && (s.link k).state != .loopback

/-- Whether the characters from TYPE on, still the beginning of a frame, have come to its CHECK: the frame
has ended (R138, step 4). -/
def frameEnded (chars : List Byte) : Bool :=
  match chars with
  | _ :: _ :: n :: rest => rest.length == 4 * n.toNat + 1
  | _ => false

/-- Whether the characters from TYPE on are still the beginning of a frame (R138). -/
def stillFrame (chars : List Byte) : Bool :=
  match chars with
  | [] => true
  | t :: rest =>
    match FrameType.ofCode t.toNat with
    | none => false
    | some ty =>
      match rest with
      | _ :: n :: more => countFits ty n.toNat && decide (more.length ≤ 4 * n.toNat + 1)
      | _ => true

/-- The frame being assembled is abandoned (R138, R144). -/
def Link.abandonFrame (c : LinkCfg) (now : Time) (l : Link) : Link :=
  ({ l with assembling := none } : Link).restartData c now

/-- A character is hunted: a START begins a frame and stops the data timer of a RECEIVING link (R138,
R144). -/
def Link.huntChar (now : Time) (l : Link) (ch : Byte) : Link :=
  if ch = startChar then
    { l with assembling := some ([], now)
             dataAt := if l.state = .receiving then none else l.dataAt }
  else l

/-- A character is heard that no pause comes before (R138, R139). One that comes after the CHECK of a frame is
hunted: the frame that has ended is lost where its row has not taken it before (log entry 7). -/
def Link.joinChar (c : LinkCfg) (now : Time) (l : Link) (ch : Byte) : Link :=
  let l := { l with heard := some now }
  match l.assembling with
  | none => l.huntChar now ch
  | some (chars, _) =>
    if frameEnded chars then (l.abandonFrame c now).huntChar now ch
    else if stillFrame (chars ++ [ch]) then { l with assembling := some (chars ++ [ch], now) }
    else l.abandonFrame c now

/-- Whether a pause of more than 15 ms has run in the frame being assembled when `n` characters have been heard
after it, the last of them now (R138, step 3). Characters of one row come at 2400 bit/s with no pause between
them, so that the first of `n` came 25 / 6 ms for each other one before the last; and a pause runs from the row of one
character to that of the next (log entry 7). A frame that has come to its CHECK has no character to wait for. -/
def Link.paused (now : Time) (n : Nat) (l : Link) : Bool :=
  match l.assembling with
  | some (chars, last) => !frameEnded chars && decide (6 * (last + 15) + 25 * (n - 1) < 6 * now)
  | none => false

/-- A pause before `n` characters, the last heard now, abandons the frame being assembled (R138, step 3). -/
def Link.takePause (c : LinkCfg) (now : Time) (n : Nat) (l : Link) : Link :=
  if l.paused now n then l.abandonFrame c now else l

/-- Characters are heard one after another, the last of them now (R138). -/
def Link.takeChars (c : LinkCfg) (now : Time) (bytes : List Byte) (l : Link) : Link :=
  bytes.foldl (Link.joinChar c now) (l.takePause c now bytes.length)

/-- The characters, from TYPE on, of a frame that has come to its CHECK and waits to be taken. -/
def Link.frameHeld (l : Link) : Option (List Byte) :=
  match l.assembling with
  | some (chars, _) => if frameEnded chars then some chars else none
  | none => none

/-- The frame that link `k` holds is taken (R138, R144). Its START has stopped the data timer of a RECEIVING
link. -/
def takeHeld (k : Nat) (s : State) : State :=
  match (s.link k).frameHeld with
  | none => s
  | some chars =>
    (s.modLink k fun l =>
        { l with heard := some s.now, assembling := none
                 dataAt := if l.state = .receiving then none else l.dataAt })
      |> takeHeard k (hear chars)

/-- Characters come to the receiver of link `k`, the last of them now (R138). -/
def hearChars (k : Nat) (bytes : List Byte) (s : State) : State :=
  s.modLink k (Link.takeChars (cfgOf s k) s.now bytes)

/-- A frame has been assembled on link `k` (R138, R144): the characters given, which no row has taken before,
are heard, and the frame that they complete, or that waits where there are none, is taken (log entry 7). The
row never carries the link's own frame read back (log entry 44). -/
def receiveFrame (k : Nat) (bytes : List Byte) (s : State) : State :=
  if hears s k then s |> hearChars k bytes |> takeHeld k else s

/-- A character is heard on link `k` (R138, R139). One that comes after a pause of more than 15 ms, or after the
CHECK of a frame, is hunted (log entry 7). The row never carries a character of the link's own read back (log
entry 44). -/
def receiveChar (k : Nat) (c : Byte) (s : State) : State :=
  if hears s k then hearChars k [c] s else s

/-! ### Frames sent and collisions (R139, R142, R144) -/

/-- What follows the sending of an answer, whole or cut by a collision (R139, R144). -/
def afterAnswer (k : Nat) (f : FrameType) (s : State) : State :=
  match f with
  | .taken =>
    s |> deliverItems k
      |> (·.modLink k fun l => { l with state := if l.state = .receiving then .idle else l.state })
  | _ => s

/-- A DATA frame of a stranger that link `k` has found is reported (R145). -/
def reportCrossed (k : Nat) (s : State) : State :=
  if (s.link k).crossedDue then
    (s.modLink k fun l => { l with crossedDue := false }) |> raiseOnce 17 (some k)
  else s

/-- What the end of a frame that link `k` has sent brings, by its type (R142, R144). -/
def endFrame (k : Nat) (s : State) : State :=
  match (s.link k).sending with
  | none => s
  | some f =>
    let c := cfgOf s k
    let s := s.modLink k fun l => { l with sending := none, heard := some s.now }
    match f with
    | .bid => s.modLink k fun l => { l with answerAt := some (s.now + c.bidAnswer) }
    | .data =>
      s.modLink k fun l => { l with state := .awaitTaken, takenAt := some (s.now + c.takenWait) }
    | .go =>
      s.modLink k fun l => ({ l with dataAt := some (s.now + c.dataStart) } : Link).yieldFlight s.now
    | f => afterAnswer k f s

/-- The last character of link `k`'s frame has been sent (R142, R144, R145). -/
def frameSent (k : Nat) (s : State) : State := s |> endFrame k |> reportCrossed k

/-- What a collision brings, by the type of the frame that link `k` was sending (R139). -/
def cutFrame (k : Nat) (s : State) : State :=
  match (s.link k).sending with
  | none => s
  | some f =>
    let s := s.modLink k fun l => { l with sending := none, heard := some s.now }
    match f with
    | .bid => bidFailed k s
    | .data => dataFailed true k s
    | .go => s.modLink k fun l => ({ l with state := .idle, dataAt := none } : Link).yieldFlight s.now
    | f => afterAnswer k f s

/-- A collision is read back while link `k` drives the line (R139, R145). -/
def collide (k : Nat) (s : State) : State := s |> cutFrame k |> reportCrossed k

/-! ### The loopback test (R148) -/

/-- The items of the DATA frame of the loopback test. -/
def loopbackItems : List Item :=
  [.stroke 0 true 1 24, .codeEnd 0 1 false, .indication .blocked .blocked true]

/-- The six frame types of the loopback test, in order. -/
def loopbackType : Nat → FrameType
  | 0 => .bid
  | 1 => .go
  | 2 => .wait
  | 3 => .data
  | 4 => .taken
  | _ => .reject

/-- The characters of test frame `n`. -/
def loopbackFrame (s : State) (n : Nat) : List Byte :=
  let t := loopbackType n
  frameBytes t (s.tables.identity.getD 0) (if t = .data then loopbackItems else [])

/-- The characters of the frame that link `k` drives the line with, from START on: every link sends the
4812's own box number as FROM (R137, section 7.2). None while it drives none; a test frame goes no further
than the link's own receiver (R148). -/
def lineFrame (s : State) (k : Nat) : Option (List Byte) :=
  let l := s.link k
  l.sending.map fun f =>
    frameBytes f (s.tables.identity.getD 0)
      (if f = .data then (l.flight.map (·.items)).getD [] else [])

/-- The time in ms, rounded up, that characters take on the line at 2400 bit/s (section 7.2). -/
def lineTime (chars : Nat) : Nat := (chars * 25 + 5) / 6

/-- Link `k` begins a loopback test (R148). An answer that waits or is being sent, and the items of a DATA frame
taken but not yet delivered, are dropped with it, which the manual leaves open (log entry 44). -/
def beginLoopback (k : Nat) (p : LoopbackFor) (s : State) : State :=
  s.modLink k fun l =>
    { l with state := .loopback, retryAt := none, heartbeatAt := none, answer := none
             sending := none, toDeliver := []
             assembling := none
             loopback := some { purpose := p, startAt := some (s.now + 20) } }

/-- The time of the next test frame of link `k` has come: it is sent (R148). -/
def loopbackSend (k : Nat) (s : State) : State :=
  match (s.link k).loopback with
  | none => s
  | some b =>
    if b.startAt.any fun t => decide (t ≤ s.now) then
      let ends := s.now + lineTime (loopbackFrame s b.frame).length
      s.modLink k fun l => { l with loopback := some { b with startAt := none, sentAt := some ends } }
    else s

/-- The result of a step of a loopback test: the state, and the purpose of a test that has ended with
its result PASS 0 or FAIL 1 and the TYPE of the frame that failed. -/
abbrev LoopbackStep := State × Option (LoopbackFor × List Byte)

/-- Link `k`'s loopback test passes (R148). -/
def loopbackPass (k : Nat) (b : Loopback) (s : State) : LoopbackStep :=
  (s |> enterIdle k |> reportCrossed k, some (b.purpose, [0, 255]))

/-- Link `k`'s loopback test fails on the frame that is out (R148). -/
def loopbackFail (k : Nat) (b : Loopback) (s : State) : LoopbackStep :=
  (s |> raiseOnce 18 (some k) |> reportCrossed k, some (b.purpose, [1, byte (loopbackType b.frame).code]))

/-- The receiver of link `k` has assembled a test frame (R148). -/
def loopbackTake (k : Nat) (bytes : List Byte) (s : State) : LoopbackStep :=
  match (s.link k).loopback with
  | none => (s, none)
  | some b =>
    match b.sentAt with
    | none => (s, none)
    | some ends =>
      if bytes = loopbackFrame s b.frame ∧ s.now ≤ ends + 20 then
        if b.frame < 5 then
          let b := { b with frame := b.frame + 1, startAt := some (ends + 20), sentAt := none }
          (s.modLink k fun l => { l with loopback := some b }, none)
        else loopbackPass k b s
      else loopbackFail k b s

/-- A test frame of link `k` has not been assembled in time (R148). -/
def loopbackLate (k : Nat) (s : State) : LoopbackStep :=
  match (s.link k).loopback with
  | none => (s, none)
  | some b =>
    if b.sentAt.any fun t => decide (t + 20 < s.now) then loopbackFail k b s else (s, none)

end Sys2Proof.Machine
end

