-- ==== Sys2Proof/Machine/StartUp.lean ====
section
/-! DEFINITION. The start (R182), the values of every block after a reset (R26, R29, R47, R75, R85,
R93, R113, R134, R150, R159, R170), and the self-tests (R167, R168). -/

namespace Sys2Proof.Machine

/-! ### The evaluator agreement test (R167) -/

/-- A built-in lever case: the states of the subjects, the settled position, the list, and the
stored answer of free and first unmet (R167). -/
structure LeverCase where
  state : State
  settled : Option Pos
  list : CondList
  free : Bool
  firstUnmet : Option Nat

/-- The state of a case: levers and circuits in given states. -/
def caseState (levers : List (Nat × Position)) (tracks : List (Nat × TrackState)) : State :=
  let s := levers.foldl (fun s p => s.modLever p.1 fun l => { l with current := p.2 }) ({} : State)
  tracks.foldl (fun s p => s.modCircuit p.1 fun c => { c with state := p.2 }) s

/-- A lever entry. -/
def leverEntry (k : Nat) (p : Pos) (a : Applies) (q : Option (Nat × Pos) := none) : Option Cond :=
  some ⟨.lever k p, a, q⟩

/-- A circuit entry. -/
def trackEntry (k : Nat) (a : Applies) (q : Option (Nat × Pos) := none) : Option Cond :=
  some ⟨.track k, a, q⟩

/-- The built-in table of 16 lever cases (R167). The manual does not give its contents (log entry
10). -/
def leverCases : List LeverCase :=
  let s := caseState [(1, .normal), (2, .reverse), (3, .moving), (4, .unknown)]
    [(1, .clear), (2, .occupied), (3, .failed)]
  [⟨s, some .normal, [], true, none⟩,
   ⟨s, none, [leverEntry 1 .reverse .both], true, none⟩,
   ⟨s, some .normal, [leverEntry 1 .normal .toReverse], true, none⟩,
   ⟨s, some .normal, [leverEntry 1 .reverse .toReverse], false, some 1⟩,
   ⟨s, some .normal, [leverEntry 1 .reverse .toNormal], true, none⟩,
   ⟨s, some .reverse, [leverEntry 1 .reverse .toNormal], false, some 1⟩,
   ⟨s, some .reverse, [leverEntry 2 .reverse .both], true, none⟩,
   ⟨s, some .normal, [leverEntry 1 .normal .both, leverEntry 3 .normal .both], false, some 2⟩,
   ⟨s, some .normal, [leverEntry 4 .reverse .both, leverEntry 3 .reverse .both], false, some 1⟩,
   ⟨s, some .normal, [trackEntry 1 .toReverse], true, none⟩,
   ⟨s, some .normal, [trackEntry 1 .both, trackEntry 2 .both], false, some 2⟩,
   ⟨s, some .normal, [trackEntry 3 .both, trackEntry 4 .both], false, some 1⟩,
   ⟨s, some .normal, [trackEntry 2 .both (some (1, .normal))], false, some 1⟩,
   ⟨s, some .normal, [trackEntry 2 .both (some (1, .reverse))], true, none⟩,
   ⟨s, some .normal, [trackEntry 1 .both, trackEntry 2 .both (some (3, .normal))], false, some 2⟩,
   ⟨s, some .reverse, [trackEntry 2 .toReverse, trackEntry 2 .toNormal (some (4, .reverse))],
    false, some 2⟩]

/-- Whether a case passes: X and Y agree, and both match the stored answer (R167). -/
def LeverCase.passes (c : LeverCase) : Bool :=
  let x := walkX c.state c.settled c.list
  let y := walkY c.state c.settled c.list
  resultsAgree x y && x == c.free && y == c.firstUnmet

/-- Whether the evaluator agreement test passes (R167). -/
def evaluatorTest : Bool := leverCases.all LeverCase.passes

/-- The evaluator agreement test is made: a failure is a single finding (R167). -/
def testEvaluators (s : State) : State := when (!evaluatorTest) (raiseOnce 20 none) s

/-! ### Signature and converter checks (R167, R168) -/

/-- Whether the stored image's signature is found good. -/
def signaturePasses (s : State) : Bool := s.store.stored.any Stored.good

/-- A signature check is made (R168). -/
def checkSignature (s : State) : State :=
  let active := s.faults.tableActive
  if signaturePasses s then
    (s.modFaults fun f => { f with tableActive := false }) |> when active (endCause 21 none)
  else
    (s.modFaults fun f => { f with tableActive := true }) |> when (!active) (raise 21 none)

/-- Whether a reference conversion passes (R167). -/
def referencePasses (high : Bool) (reading : Nat) : Bool :=
  if high then inRange reading 3056 3088 else inRange reading 1008 1040

/-- A converter check ends with its result (R167, R168). -/
def endConverterCheck (passed : Bool) (s : State) : State :=
  let active := s.faults.converterActive
  (s.modFaults fun f => { f with converterActive := !passed })
    |> when (!passed && !active) (raise 5 none)
    |> when (passed && active) (endCause 5 none)

/-! ### The end of a start (R167, R182) -/

/-- The start ends in a mode (R182). A start that ends in SUSPENDED evaluates the coils and keeps each permission
held as it stands: it is not taken as the change to SUSPENDED that cuts one (R117), which R62 says of levers and
R117 does not say of commutators (log entry 45, DESIGN CHOICE). -/
def endStart (m : Mode) (s : State) : State :=
  { s with start := none }
    |> enterMode m
    |> evaluateAll
    |> evalAllCoils
    |> when (m == .service) modeToLinks

/-- The start-up tests have finished: wiring tests and short-period tests are scheduled, and the
start ends in SERVICE or SUSPENDED (R19, R167, R168). -/
def testsFinished (s : State) : State :=
  let s := forEach (circuitsOn s) (fun k s =>
    let at_ := s.now + (trackCfg s k).wiringInterval * 1000
    s.modCircuit k fun c => { c with nextWiring := some at_, wiringKind := .pullUp }) s
  (s.modFaults fun f =>
      { f with signatureAt := some (s.now + 10000), converterAt := some (s.now + 5000) })
    |> fun s => endStart (if suspendStands s then .suspended else .service) s

/-- The start goes on with the first of the links given that waits for its loopback test, or else its
tests are finished (R167). -/
def startLinks : List Nat → State → State
  | [], s => testsFinished s
  | k :: ks, s =>
    if s.linkOn k && (s.link k).state == .loopback then
      { s with start := some (.link k) } |> beginLoopback k .start
    else startLinks ks s

/-- The converter test of the start has ended: the evaluators are tested, then the links (R167). -/
def startAfterConverter (s : State) : State := s |> testEvaluators |> startLinks (upTo 3)

/-- The loopback test of link `k` in the start has ended (R167). -/
def startAfterLink (k : Nat) (s : State) : State :=
  startLinks ((upTo 3).filter fun j => decide (k < j)) s

/-! ### Values after a reset -/

/-- A retained source enters the confinement of its subject, as `as`, before the blocks start (R26,
R47, R134, R150). -/
def seedConfinement (code as : Nat) (subject : Option Nat) (s : State) : State :=
  let addC (c : Circuit) : Circuit := { c with confinement := addSource as c.confinement }
  let addI (i : Instrument) : Instrument := { i with confinement := addSource as i.confinement }
  match subject with
  | none => if code = 5 then { s with circuits := s.circuits.map addC } else s
  | some n =>
    match code with
    | 1 | 2 | 3 | 4 => s.modCircuit n addC
    | 7 | 8 | 10 | 12 | 20 =>
      s.modLever n fun l => { l with confinement := addSource as l.confinement }
    | 11 | 13 | 14 => s.modInstrument n addI
    | 15 => s.modInb n fun i => { i with forcedConfinement := addSource as i.forcedConfinement }
    | 17 | 18 => s.modLink n fun l => { l with confinement := addSource as l.confinement }
    | _ => s

/-- The confinements are filled from the records kept, and from the overflow record's last source
and subject (R170). -/
def seedConfinements (s : State) : State :=
  let s := s.faults.records.foldl
    (fun s r => when (r.reaction != .report) (seedConfinement r.source r.source r.subject) s) s
  match s.faults.overflowLast, s.faults.overflowReaction with
  | some (c, subject), some r => when (r != .report) (seedConfinement c 22 subject) s
  | _, _ => s

/-- A circuit after a reset, with its confinement filled (R26). -/
def Circuit.started (c : Circuit) (cfg : TrackCfg) : Circuit :=
  if cfg.enabled then { c with state := if c.confinement = [] then .occupied else .failed }
  else { c with confinement := [] }

/-- A lever after a reset, with its confinement filled (R47, R74, R75). A lever that the levers table makes
SPARE keeps the slot the frame map gives it: R33, R48 and R75 take the slot from the map alone, where R37
and R49 say that a SPARE lever has none (log entry 36). -/
def Lever.started (l : Lever) (i : Image) (k : Nat) : Lever :=
  let type := i.typeOf k
  let line := if type = .signal then (i.lever k).blockLine else none
  { l with
    slot := i.slotOf k
    type := type
    blockLine := line
    outOfUse := (i.lever k).altered
    copy := if (i.lever k).altered then i.conds k else []
    reason := if type = .spare then .spare else .position
    allowance := line.map fun _ => false }

/-- A hold after a reset (R85). -/
def Hold.started (cfg : HoldCfg) : Hold :=
  if cfg.configured then { state := some .held, lastChange := some 0 } else {}

/-- A link after a reset, with its confinement filled (R150). -/
def Link.started (l : Link) (cfg : LinkCfg) : Link :=
  if cfg.configured then
    { l with state := if l.confinement = [] then .loopback else .outOfUse }
  else { l with confinement := [] }

/-- The records of a list, each changed by its number. -/
def mapNumbered {α : Type} (f : Nat → α → α) : Nat → List α → List α
  | _, [] => []
  | n, x :: xs => f n x :: mapNumbered f (n + 1) xs

/-- The blocks start from the image, whose confinements are filled (R182, step 4). -/
def startBlocks (i : Image) (s : State) : State :=
  { s with
    store := { s.store with inForce := some i }
    circuits := mapNumbered (fun k c => c.started (i.track k)) 1 s.circuits
    boards := mapNumbered (fun b r => { r with configured := i.board b }) 1 s.boards
    levers := mapNumbered (fun k l => l.started i k) 1 s.levers
    holds := mapNumbered (fun k _ => Hold.started (i.hold k)) 1 s.holds
    inbound := mapNumbered (fun k r =>
      if (i.link k).configured then { r with lastChange := some 0 } else r) 1 s.inbound
    outbound := mapNumbered (fun k r =>
      if (i.link k).configured then { r with state := some .blocked, lastChange := some 0 } else r)
      1 s.outbound
    links := mapNumbered (fun k l => l.started (i.link k)) 1 s.links }

/-! ### The start (R182) -/

/-- The fault table at a warm reset: self-clearing records removed, ACTIVE ones LATCHED, reactions
taken afresh (R170). -/
def warmRecords (reactions : List Reaction) (rs : List FaultRecord) : List FaultRecord :=
  (rs.filter fun r => !(source r.source).selfClearing).map fun r =>
    { r with active := false, reaction := nth reactions .report r.source }

/-- The Fault Monitor after a warm reset (R170). -/
def Faults.warm (f : Faults) (reactions : List Reaction) : Faults :=
  { records := warmRecords reactions f.records, overflowCount := f.overflowCount
    overflowLast := f.overflowLast, overflowReaction := f.overflowReaction }

/-- The stored image as a power-up reset leaves it: a write under way is cut off (R181). -/
def Store.afterCut (st : Store) (free : Nat) : Option Stored :=
  match st.jobs with
  | [] => st.stored
  | j :: _ =>
    some { image := j.patch.apply st.image, signature := Config.cutSignature free, cut := true }

/-- Every block at its values after a reset, before the image is read, with what the reset keeps; box time
next increases at running time `tickAt`. -/
def freshState (s : State) (stored : Option Stored) (register : Register) (tickAt : Int)
    (faults : Faults) : State :=
  { pending := s.pending, freeCount := s.freeCount, start := some .converter
    store := { stored := stored }, register := register, tickAt := tickAt, faults := faults }

/-- The start runs: the image is read, and the start ends in UNCONFIGURED or goes on to its tests
(R182). -/
def runStart (cause : ResetCause) (s : State) : State :=
  let s := append (.reset cause) s
  let found := s.store.found
  let s := s.modStore fun st => { st with imageState := found }
  match found, s.store.stored with
  | .good, some st =>
    s |> seedConfinements |> startBlocks st.image |> requestReferences .startUp
  | .bad, _ =>
    (s.modFaults fun f => { f with tableActive := true })
      |> raise 21 none
      |> endStart .unconfigured
  | _, _ => endStart .unconfigured s

/-- The reaction table in force for a start that finds a stored image (R160). -/
def startReactions (stored : Option Stored) : List Reaction :=
  match stored with
  | some st => if st.good then st.image.reactions else defaultReactions
  | none => defaultReactions

/-- A power-up reset (R159, R170, R181, R182). -/
def powerUp (s : State) : State :=
  let stored := s.store.afterCut s.freeCount
  let s := { s with freeCount := s.freeCount + (if s.store.jobs.isEmpty then 0 else 1) }
  freshState s stored {} 100 {} |> runStart .supply

/-- A warm start with a cause (R159, R170, R182). Box time keeps counting: what was left of the tenth under
way is carried into the new running time (R157). -/
def warmStart (cause : ResetCause) (s : State) : State :=
  let stored := s.store.stored
  freshState s stored s.register (s.tickAt - s.now) (s.faults.warm (startReactions stored))
    |> runStart cause

end Sys2Proof.Machine
end

