-- ==== Sys2Proof/Machine/BlockCommands.lean ====
section
/-! DEFINITION. The commands of the blocks that read, test and change running state: Track Receiver,
Locking Evaluator (READ and TEST), Route Hold Unit, Release Timers, Bell Code Unit, Block Controller,
Link Units, Train Register and Fault Monitor. Commands on tables are in StoreCommands.lean. -/

namespace Sys2Proof.Machine

/-! ### Answers of a block -/

/-- What the owning block answers to a command: DONE with data, REFUSED, or a later end (R177). -/
inductive Reply where
  | done (data : List Byte)
  | refused (reason : RefuseReason) (data : List Byte)
  | waits
  deriving DecidableEq, Repr

/-- A command run by its block. -/
abbrev Ran := State × Reply

/-- A refused command changes no state (Conventions). -/
def refuse (r : RefuseReason) (s : State) : Ran := (s, .refused r [])

/-- A command that completes at once. -/
def reply (data : List Byte) (s : State) : Ran := (s, .done data)

/-- A TEST command: RANGE where its operands are refused, and otherwise the flag is set to the value
found (R177). -/
def test (ok : Bool) (f : Nat) (value : Bool) (data : List Byte) (s : State) : Ran :=
  if decide (f ≤ 7) && ok then (setFlag f value s, .done data) else refuse .range s

/-- A READ command over numbered records: RANGE where the first is none of them. -/
def read (first count most last : Nat) (record : State → Nat → List Byte) (s : State) : Ran :=
  if within first last then reply ((readNumbers first count most last).flatMap (record s)) s
  else refuse .range s

/-- The number of confining sources and their codes. -/
def sourceBytes (l : List Nat) : List Byte := byte l.length :: l.map byte

/-! ### Track Receiver (R22, R27, R28) -/

/-- Circuit `k` in READ TRACKS (R27). -/
def trackBytes (s : State) (k : Nat) : List Byte :=
  let c := s.circuit k
  [byte k, byte c.state.code, byte c.g, byte c.bad]
    ++ field2 (if c.state = .occupied then c.occupiedSince.map s.tenthsSince else none)
    ++ field2 (c.lastP.map (min · 65534)) ++ field2 c.lastA ++ field2 c.lastL ++ field2 c.lavg
    ++ [byte c.foreignEnd, byte c.overEnd,
        match c.wiringKind with | .pullUp => 0 | .pullDown => 1]
    ++ field1 (c.learning.map (·.samples))
    ++ field2 (c.learnResult.map (·.1))
    ++ field1 (c.learnResult.map fun r => if r.2 then 1 else 0)
    ++ fieldBool (!c.staged.isEmpty)
    ++ sourceBytes c.confinement

/-- READ TRACKS (R27). -/
def cmdReadTracks (first count : Nat) : State → Ran := read first count 8 24 trackBytes

/-- TEST TRACK (R28). -/
def cmdTestTrack (f circuit wanted : Nat) (s : State) : Ran :=
  let st := (s.circuit circuit).state
  test (within circuit 24 && decide (wanted ≤ 3)) f (st.code == wanted) [byte st.code] s

/-- LEARN REFERENCE (R22). -/
def cmdLearn (circuit : Nat) (s : State) : Ran :=
  if !within circuit 24 then refuse .range s
  else if s.mode ≠ some .editing then refuse .state s
  else if !((s.store.work.getD Image.defaults).track circuit).enabled then refuse .state s
  else
    reply [] (s.modCircuit circuit fun c => { c with learning := some {}, learnResult := none })

/-! ### Locking Evaluator (R76, R77) -/

/-- Lever `k` in READ LEVERS (R76). -/
def leverBytes (s : State) (k : Nat) : List Byte :=
  let l := s.lever k
  [byte k, byte l.type.code] ++ field1 l.slot ++ field1 l.blockLine
    ++ [byte l.current.code] ++ field1 (l.settled.map Pos.code)
    ++ fieldBool l.outOfUse ++ fieldBool l.free ++ [byte l.reason.code]
    ++ field1 l.firstUnmet ++ field1 (l.held.map Pos.code)
    ++ field1 (l.allowance.map fun a => if a then 1 else 0)
    ++ fieldBool l.coil
    ++ field2 (l.transitStart.map s.tenthsSince) ++ field2 (l.lastSettle.map s.tenthsSince)
    ++ sourceBytes l.confinement

/-- READ LEVERS (R76). -/
def cmdReadLevers (first count : Nat) : State → Ran := read first count 8 64 leverBytes

/-- The value TEST LEVER finds (R77). -/
def leverTest (l : Lever) (wanted : Nat) : Bool :=
  match wanted with
  | 0 => l.current == .normal
  | 1 => l.current == .reverse
  | 2 => l.current == .moving
  | 3 => l.current == .unknown
  | 4 => l.free
  | _ => !l.free

/-- TEST LEVER (R77). -/
def cmdTestLever (f lever wanted : Nat) (s : State) : Ran :=
  let l := s.lever lever
  test (within lever 64 && decide (wanted ≤ 5)) f (leverTest l wanted)
    ([byte l.current.code] ++ fieldBool l.free) s

/-! ### Route Hold Unit (R94, R96) -/

/-- How many circuits of a list are not CLEAR. -/
def notClear (s : State) (l : List Nat) : Nat :=
  (l.filter fun k => (s.circuit k).state != .clear).length

/-- Hold `k` in READ HOLDS (R94). -/
def holdBytes (s : State) (k : Nat) : List Byte :=
  let h := s.hold k
  let c := s.tables.hold k
  if c.configured then
    [byte k, 1] ++ field1 (h.state.map HoldState.code) ++ field1 c.signal
      ++ (byte c.approach.length :: c.approach.map byte) ++ [byte (notClear s c.approach)]
      ++ (byte c.route.length :: c.route.map byte) ++ [byte (notClear s c.route)]
      ++ field1 c.timer ++ field2 (h.lastChange.map s.tenthsSince)
  else [byte k, 0, 255, 255, 0, 0, 0, 0, 255] ++ field2 none

/-- READ HOLDS (R94). -/
def cmdReadHolds (first count : Nat) : State → Ran := read first count 8 16 holdBytes

/-- TEST HOLD (R96). -/
def cmdTestHold (f hold wanted : Nat) (s : State) : Ran :=
  let st := (s.hold hold).state.map HoldState.code
  test (within hold 16 && decide (wanted ≤ 4)) f (st == some wanted) (field1 st) s

/-! ### Release Timers (R87, R91, R95) -/

/-- The remaining time of a timer (R95). -/
def remaining (s : State) (t : Timer) : Option Nat :=
  match t.state with
  | .idle => none
  | .running => t.expiry.map s.tenthsTo
  | .complete => t.lapse.map s.tenthsTo

/-- The pending value of a field. -/
def pendingOf (l : List (Nat × Nat)) (field : Nat) : Option Nat :=
  (l.find? fun p => p.1 == field).map (·.2)

/-- Release `r` in READ RELEASES (R95). -/
def releaseBytes (s : State) (r : Nat) : List Byte :=
  let t := s.timer r
  let c := s.tables.timer r
  let on := c.configured
  [byte r] ++ field1 (if on then c.owner.map (·.1.code) else none)
    ++ field1 (if on then c.owner.map (·.2) else none)
    ++ field2 (if s.store.inForce.isSome then some c.duration else none)
    ++ field2 (if s.store.inForce.isSome then c.validity else none)
    ++ field1 (if on then some t.state.code else none)
    ++ field2 (remaining s t) ++ field2 (pendingOf t.staged 4) ++ field2 (pendingOf t.staged 5)

/-- READ RELEASES (R95). -/
def cmdReadReleases (first count : Nat) : State → Ran := read first count 8 16 releaseBytes

/-- Whether the owner of a timer needs it (R87). -/
def ownerNeeds (s : State) (o : OwnerKind × Nat) : Bool :=
  match o.1 with
  | .hold => (s.hold o.2).state == some .held
  | .sequence =>
    let i := s.inb (linkOfLine o.2)
    i.state == some .occupied && i.sequence != .complete
  | .lever =>
    let l := s.lever o.2
    l.current == .normal && l.settled == some .normal

/-- The owner of release `r` takes a request: a hold goes RELEASING, a lever is evaluated (R87). -/
def ownerRequested (o : OwnerKind × Nat) (s : State) : State :=
  match o.1 with
  | .hold => s |> setHold o.2 .releasing |> evaluateHold o.2
  | .sequence => s
  | .lever => evaluate o.2 s

/-- REQUEST RELEASE (R87). -/
def cmdRequestRelease (r : Nat) (s : State) : Ran :=
  let o := timerOwner s r
  let d := (s.tables.timer r).duration
  if !within r 16 then refuse .range s
  else if !timerOn s r then refuse .state s
  else if (s.timer r).state ≠ .idle then refuse .state s
  else if !ownerNeeds s o then refuse .state s
  else
    (s.modTimer r fun t => { t with state := .running, expiry := some (s.now + d * 1000) })
      |> append (.releaseStarted r o d)
      |> noteRelease r
      |> ownerRequested o
      |> evaluateRelease r
      |> reply (be16 d)

/-- The owner of a timer takes its cancellation by the host (R91). -/
def ownerCancelled (o : OwnerKind × Nat) (s : State) : State :=
  match o.1 with
  | .hold =>
    s |> setHold o.2 (if approachClear s o.2 then .idle else .held) |> evaluateHold o.2
  | .sequence => s
  | .lever => evaluate o.2 s

/-- CANCEL RELEASE (R91). -/
def cmdCancelRelease (r : Nat) (s : State) : Ran :=
  if !within r 16 then refuse .range s
  else if !timerOn s r then refuse .state s
  else if (s.timer r).state = .idle then refuse .state s
  else
    let o := timerOwner s r
    s |> cancelTimer .host r |> ownerCancelled o |> evaluateRelease r |> reply []

/-! ### Bell Code Unit (R103) -/

/-- SEND CODE (R103). -/
def cmdSendCode (link : Nat) (groups : List Nat) (s : State) : Ran :=
  if !within link 3 || !inRange groups.length 1 4 || !groups.all (inRange · 1 16) then
    refuse .range s
  else if !linkTakesCodes s link then refuse .state s
  else if (s.bell link).plunger.isSome || (s.bell link).host.isSome then refuse .busy s
  else reply [byte (s.bell link).nextCode] (openHostCode link groups s)

/-! ### Block Controller (R135, R136) -/

/-- Line `n` in READ LINES (R135). -/
def lineBytes (s : State) (n : Nat) : List Byte :=
  let k := linkOfLine n
  let i := s.inb k
  let o := s.outb k
  let cls (c : Option Accepted) := field1 (c.map Accepted.code)
  let state (st : Option LineState) := field1 (st.map LineState.code)
  let kind := field1 ((s.linkCfg k).map (·.kind.code))
  if !s.linkOn k then
    [byte n, byte k, byte ((n + 1) % 2)] ++ List.replicate 18 255
  else if n % 2 = 1 then
    [byte n, byte k, 0] ++ kind ++ state i.state ++ field1 i.offered ++ cls i.accepted
      ++ [byte i.sequence.code] ++ fieldBool i.released ++ state i.farView
      ++ fieldBool i.coils.k1 ++ fieldBool i.coils.k2 ++ [255, 255, 255]
      ++ field2 none ++ field2 none ++ field2 (i.lastChange.map s.tenthsSince)
  else
    [byte n, byte k, 1] ++ kind ++ state o.state ++ field1 o.offered ++ cls o.accepted
      ++ [255, 255, 255, 255, 255] ++ fieldBool o.guard ++ fieldBool o.departureSeen
      ++ fieldBool o.entering ++ field2 (o.overdueAt.map s.tenthsTo)
      ++ field2 (pendingOf o.staged 2) ++ field2 (o.lastChange.map s.tenthsSince)

/-- READ LINES (R135). -/
def cmdReadLines (first count : Nat) : State → Ran := read first count 6 6 lineBytes

/-- TEST LINE (R136). -/
def cmdTestLine (f line wanted : Nat) (s : State) : Ran :=
  let st := (lineState s line).map LineState.code
  let q := if line % 2 = 1 ∧ s.linkOn (linkOfLine line) = true then
      some (s.inb (linkOfLine line)).sequence else none
  test (within line 6 && decide (wanted ≤ 3)) f
    (if wanted = 3 then q == some SeqState.complete else st == some wanted)
    (field1 st ++ field1 (q.map SeqState.code)) s

/-! ### Link Units and Fault Monitor: RUN TEST (R148, R169) -/

/-- RUN TEST of a link (R148). -/
def cmdTestLink (w : Waiter) (k : Nat) (s : State) : Ran :=
  let l := s.link k
  if !within k 3 then refuse .range s
  else if !s.linkOn k || l.state == .outOfUse then refuse .state s
  else if (s.inb k).state ≠ some .blocked ∨ (s.inb k).offered ≠ none
      ∨ (s.outb k).state ≠ some .blocked ∨ (s.outb k).offered ≠ none then refuse .state s
  else if !l.queue.isEmpty || codeOpen s k then refuse .state s
  else if l.state ≠ .idle then refuse .busy s
  else (beginLoopback k (.host w) s, .waits)

/-- RUN TEST of the table (R169): the signature check is made, and the converter check begun. -/
def cmdTestTable (w : Waiter) (s : State) : Ran :=
  if s.mode = some .unconfigured then refuse .state s
  else if s.faults.signatureAt.isNone || writing s then refuse .busy s
  else
    (s |> checkSignature |> requestReferences (.table w (signaturePasses s)), .waits)

/-! ### Train Register (R155, R156, R158) -/

/-- The beats of the groups of a pattern, 0 for a group absent (section 8.6). -/
def patternBytes (p : List Nat) : List Byte :=
  [byte (p.getD 0 0), byte (p.getD 1 0), byte (p.getD 2 0), byte (p.getD 3 0)]

/-- The bytes of a code entry (section 8.6). -/
def codeBytes (p : List Nat) (m : Option Meaning) (cls : Option Nat) (marks : Nat) : List Byte :=
  patternBytes p ++ field1 (m.map Meaning.code) ++ field1 cls ++ [byte marks]

/-- The subject byte and detail bytes of an entry (section 8.6). -/
def Event.details : Event → List Byte
  | .codeSent k p m c g h =>
    byte k :: codeBytes p m c ((if g then 1 else 0) + (if h then 2 else 0))
  | .codeReceived k p m c g => byte k :: codeBytes p m c (if g then 1 else 0)
  | .codeAck k p m c => byte k :: codeBytes p (some m) c 0
  | .codeNotRepeated k p m c => byte k :: codeBytes p (some m) c 0
  | .codeUnanswered k p m c => byte k :: codeBytes p (some m) c 0
  | .lineState n old new acc =>
    byte n :: (field1 (old.map LineState.code) ++ [byte new.code] ++ field1 (acc.map Accepted.code))
  | .conflict n far => [byte n, byte far.code]
  | .clearLost n c => [byte n, byte c.code]
  | .overdue n t => byte n :: be16 t
  | .hold k old new => [byte k, byte old.code, byte new.code]
  | .releaseStarted r o t => [byte r, byte o.1.code, byte o.2] ++ be16 t
  | .releaseComplete r o => [byte r, byte o.1.code, byte o.2]
  | .releaseCancelled r o c => [byte r, byte o.1.code, byte o.2, byte c.code]
  | .faultRaised c subj r n => field1 subj ++ [byte c, byte r.code, byte n]
  | .faultCleared c subj r n h =>
    field1 subj ++ [byte c, byte r.code, byte n, if h then 1 else 0]
  | .mode old new => 255 :: (field1 (old.map Mode.code) ++ [byte new.code])
  | .reset c => [255, if c = .supply then 0 else 1, byte c.code]
  | .clockSet d t => 255 :: (be16 d ++ be24 t)

/-- An entry in 16 bytes; detail bytes not used are 0 (section 8.6). -/
def Entry.bytes (e : Entry) : List Byte :=
  let head := be16 e.seq ++ be16 e.day ++ be24 e.tenths ++ [byte e.event.kind]
  let tail := e.event.details
  head ++ tail ++ List.replicate (8 - tail.length) 0

/-- The unread entries, oldest first: the newest ones held (R153). -/
def Register.unreadEntries (r : Register) : List Entry := r.ring.drop (r.ring.length - r.unread)

/-- READ REGISTER (R155). -/
def cmdReadRegister (count : Nat) (s : State) : Ran :=
  let r := s.register
  let es := r.unreadEntries.take (min (max count 1) 8)
  reply (be16 r.ring.length ++ be16 r.unread ++ be16 r.day ++ be24 r.tenths
    ++ [byte es.length] ++ es.flatMap Entry.bytes) s

/-- ADVANCE REGISTER (R156). -/
def cmdAdvanceRegister (count : Nat) (s : State) : Ran :=
  let r := s.register
  let n := min count r.unread
  let newest := (((r.unreadEntries.take n).getLast?).map (·.seq)).getD 0
  reply (be16 n ++ be16 newest ++ be16 (r.unread - n))
    (s.modRegister fun r => { r with unread := r.unread - n })

/-- SET CLOCK (R158). The next increase of box time comes a tenth of a second after the command. -/
def cmdSetClock (day tenths : Nat) (s : State) : Ran :=
  if 863999 < tenths then refuse .range s
  else
    let r := s.register
    { s.modRegister fun r => { r with day := day % 65536, tenths := tenths } with
        tickAt := s.now + 100 }
      |> append (.clockSet r.day r.tenths)
      |> reply []

/-! ### Fault Monitor (R165, R166, R171, R172) -/

/-- The subject a source code may have with a number sent, 255 standing for none (R165): none where
the code or the number is refused. -/
def faultSubject (c n : Nat) : Option (Option Nat) :=
  if !within c 22 then none
  else
    let number (last : Nat) := if within n last then some (some n) else none
    match (source c).kind with
    | .circuit => number 24
    | .board => number 11
    | .lever => number 64
    | .leverOrNone => if n = 255 then some none else number 64
    | .link => number 3
    | .noSubject => if n = 255 then some none else none

/-- A fault record in READ FAULTS (R171). -/
def FaultRecord.bytes (r : FaultRecord) : List Byte :=
  [byte r.source] ++ field1 r.subject ++ [if r.active then 0 else 1, byte r.count, byte r.reaction.code]
    ++ be16 r.firstDay ++ be24 r.firstTenths ++ be16 r.lastDay ++ be24 r.lastTenths

/-- READ FAULTS (R171). -/
def cmdReadFaults (first count : Nat) (s : State) : Ran :=
  let f := s.faults
  let rs := (f.records.drop (first - 1)).take (min (max count 1) 8)
  if !within first 32 then refuse .range s
  else
    reply ([byte f.records.length, byte f.overflowCount] ++ field1 (f.overflowLast.map (·.1))
      ++ field1 (f.overflowLast.bind (·.2)) ++ field1 (f.overflowReaction.map Reaction.code)
      ++ [byte rs.length] ++ rs.flatMap FaultRecord.bytes) s

/-- The state TEST FAULT finds: ACTIVE, or LATCHED (R172). -/
def faultFound (f : Faults) (c : Nat) (subject : Option Nat) : Option Bool :=
  if c = 22 then (if f.overflowCount = 0 then none else some false)
  else (f.find c subject).map (·.active)

/-- TEST FAULT (R172). -/
def cmdTestFault (f c n wanted : Nat) (s : State) : Ran :=
  match faultSubject c n with
  | none => refuse .range s
  | some subject =>
    let found := faultFound s.faults c subject
    let value := match wanted with
      | 0 => found.isNone
      | 1 => found.isSome
      | 2 => found == some true
      | _ => found == some false
    test (decide (wanted ≤ 3)) f value
      (field1 (found.map fun a => if a then 0 else 1)) s

/-- CLEAR FAULT of the overflow record (R165). -/
def clearOverflow (s : State) : Ran :=
  let f := s.faults
  if f.overflowCount = 0 then refuse .state s
  else
    (s.modFaults fun f =>
        { f with overflowCount := 0, overflowLast := none, overflowReaction := none })
      |> append (.faultCleared 22 none (f.overflowReaction.getD .report) f.overflowCount true)
      |> unconfineOverflow
      |> noteFault 22
      |> reply []

/-- CLEAR FAULT (R165). -/
def cmdClearFault (c n : Nat) (s : State) : Ran :=
  match faultSubject c n with
  | none => refuse .range s
  | some subject =>
    if c = 22 then clearOverflow s
    else
      match s.faults.find c subject with
      | none => refuse .state s
      | some r =>
        if r.active then refuse .state s
        else s |> clearRecord r true |> unconfine c c subject |> noteFault c |> reply []

/-- RESUME (R166). -/
def cmdResume (s : State) : Ran :=
  if s.mode ≠ some .suspended || suspendStands s then refuse .state s
  else reply [] (resumeService s)

end Sys2Proof.Machine
end

