-- ==== Sys2Proof/Machine/FormChecks.lean ====
section
/-! DEFINITION. The form checks COMMIT makes of a working copy, table by table in code order and
record by record in number order (R185), and those BRING INTO USE makes of one list (R73). A failure
names the table, the record and the index, 255 where the check names none. -/

namespace Sys2Proof.Machine

/-- A form at fault: table, record and index (R178). -/
structure FormFault where
  table : Nat
  record : Nat
  index : Nat
  deriving DecidableEq, Repr

/-- The data of a TABLE_FORM refusal (R178). -/
def FormFault.bytes (f : FormFault) : List Byte := byte f.table :: (be16 f.record ++ [byte f.index])

/-- The first of some numbers whose record fails a check, as a fault of a table. -/
def firstFault (table : Nat) (ns : List Nat) (bad : Nat → Bool) : Option FormFault :=
  (ns.find? bad).map fun n => ⟨table, n, 255⟩

/-- The first fault of a list of checks. -/
def firstOf : List (Option FormFault) → Option FormFault
  | [] => none
  | some f :: _ => some f
  | none :: fs => firstOf fs

/-! ### Links, bell timing, frame map (R33, R97, R137) -/

/-- Whether link `k`'s record breaks a form of R137. -/
def linkFault (i : Image) (k : Nat) : Bool :=
  let c := i.link k
  if c.configured then
    c.role.isNone || c.farBox.isNone || c.farBox == i.identity
      || decide (c.silence < 2 * c.heartbeat) || !i.board (8 + k)
  else i.board (8 + k)

/-- Whether bell timing keeps the relations of R97. -/
def BellCfg.related (c : BellCfg) : Bool :=
  decide (c.groupGap + 400 ≤ c.endGap) && decide (c.sendStroke < c.inGroup)
    && decide (c.inGroup < c.groupGap) && decide (c.groupGap ≤ c.betweenGroup)
    && decide (c.betweenGroup < c.endGap)

/-- Whether the remap window breaks a form of R33. -/
def windowFault (i : Image) : Bool :=
  match i.window with
  | none => false
  | some w =>
    let last := w.target + (w.last - w.first)
    decide (64 < last)
      || (List.range' w.target (w.last + 1 - w.first)).any fun slot => !i.board (boardOfSlot slot)

/-! ### The locking table (R51) -/

/-- Whether lever `k` is SPARE under an image. -/
def isSpare (i : Image) (k : Nat) : Bool := i.typeOf k == .spare

/-- Whether lever `k` is of type SIGNAL under an image. -/
def isSignal (i : Image) (k : Nat) : Bool := i.typeOf k == .signal

/-- How many of levers 1 to `k` are in the alteration set. -/
def alteredUpTo (i : Image) (k : Nat) : Nat := ((upTo k).filter fun j => (i.lever j).altered).length

/-- Whether lever `k`'s record breaks a form of R51. -/
def leverFault (i : Image) (k : Nat) : Bool :=
  let l := i.lever k
  (l.altered && (isSpare i k || decide (8 < alteredUpTo i k)))
    || l.blockLine.any fun line => !isSignal i k || !(i.link (line / 2)).configured

/-- Whether what an entry names is missing (R51). -/
def subjectFault (i : Image) (k : Nat) : Subject → Bool
  | .lever w _ => w == k || isSpare i w
  | .track c => !(i.track c).enabled
  | .line n _ => !(i.link (linkOfLine n)).configured
  | .hold h => !(i.hold h).configured
  | .release r => !(i.timer r).configured

/-- Whether an entry of lever `k`'s list breaks a form of R51; `none` is an UNUSED entry below a used
one. -/
def entryFault (i : Image) (k : Nat) : Option Cond → Bool
  | none => true
  | some c =>
    (isSignal i k && c.applies != .toReverse)
      || subjectFault i k c.subject
      || c.qualifier.any fun q => q.1 == k || isSpare i q.1

/-- The first index, from `n` on, of an entry at fault. -/
def firstEntryFault (i : Image) (k : Nat) : CondList → Nat → Option Nat
  | [], _ => none
  | c :: cs, n => if entryFault i k c then some n else firstEntryFault i k cs (n + 1)

/-- The fault of a lever's condition entry. -/
def condFault (k index : Nat) : FormFault := ⟨7, k * 256 + index, index⟩

/-- The fault of lever `k`'s list (R51). -/
def listFault (i : Image) (k : Nat) : Option FormFault :=
  (firstEntryFault i k (i.conds k) 1).map (condFault k)

/-- The entry at which the pool passes 1024 entries, over levers in order (R51). -/
def poolFault (i : Image) : List Nat → Nat → Option FormFault
  | [], _ => none
  | k :: ks, used =>
    let n := (i.conds k).length
    if 1024 < used + n then some (condFault k (1024 - used + 1)) else poolFault i ks (used + n)

/-! ### Track circuits (R8) -/

/-- Whether a neighbour `n` of circuit `k` breaks a form of R8. -/
def neighbourFault (i : Image) (k n : Nat) : Bool :=
  let a := (i.track k).pnom
  let b := (i.track n).pnom
  !(i.track n).enabled || !(i.track n).neighbours.contains k
    || !decide (9 * min a b < 7 * max a b)

/-- Whether circuit `k`'s record breaks a form of R8. -/
def trackFault (i : Image) (k : Nat) : Bool := (i.track k).neighbours.any (neighbourFault i k)

/-! ### Holds and timers (R79) -/

/-- Whether a list of circuits names one that is not enabled, or one twice. -/
def circuitsFault (i : Image) (l : List Nat) : Bool :=
  l.any (fun c => !(i.track c).enabled) || !decide l.Nodup

/-- Whether hold `k`'s record breaks a form of R79. -/
def holdFault (i : Image) (k : Nat) : Bool :=
  let h := i.hold k
  h.configured
    && (!h.signal.any (isSignal i)
      || circuitsFault i h.approach || circuitsFault i h.route
      || h.approach.any (h.route.contains ·)
      || h.timer.any fun r =>
          !(i.timer r).configured || (i.timer r).owner != some (.hold, k))

/-- Whether a list holds a RELEASE entry naming timer `r`. -/
def namesRelease (l : CondList) (r : Nat) : Bool := l.any fun c => c.any fun c => c.subject == .release r

/-- Whether the owner of timer `r` breaks a form of R79. -/
def ownerFault (i : Image) (r : Nat) : OwnerKind × Nat → Bool
  | (.hold, k) => !(i.hold k).configured || (i.hold k).timer != some r
  | (.sequence, n) =>
    n % 2 != 1 || !(i.link (linkOfLine n)).configured || (i.inb (linkOfLine n)).timer != some r
  | (.lever, k) => isSpare i k || !namesRelease (i.conds k) r

/-- Whether timer `r`'s record, or a RELEASE entry that names it, breaks a form of R79. -/
def timerFault (i : Image) (r : Nat) : Bool :=
  let t := i.timer r
  (t.configured && !t.owner.any (fun o => !ownerFault i r o))
    || (upTo 64).any fun k => namesRelease (i.conds k) r && t.owner != some (OwnerKind.lever, k)

/-! ### Lines and codes (R107, R115) -/

/-- Whether line `n`'s record breaks a form of R115. A line is configured exactly when its link is (R114), so
that R115's refusal of a configured line of a link that is not configured has no case, and what the record of
such a line holds is not checked (log entry 39). -/
def lineFault (i : Image) (n : Nat) : Bool :=
  let k := linkOfLine n
  let on := (i.link k).configured
  let off (c : Option Nat) : Bool := c.any fun c => !(i.track c).enabled
  on &&
    if n % 2 = 1 then
      let c := i.inb k
      c.arrival.isNone || off c.arrival || off c.clearing || c.arrival == c.clearing
        || circuitsFault i c.clearingPoint
        || c.home.any (fun l => !isSignal i l)
        || c.timer.any fun r =>
            !(i.timer r).configured || (i.timer r).owner != some (OwnerKind.sequence, n)
    else off (i.outb k).departure

/-- The first used rule before rule `r` of a page with a pattern (R107). -/
def duplicateOf (page : List CodeRule) (r : Nat) (pattern : List Nat) : Option Nat :=
  if pattern = [] then none
  else (upTo 16).find? fun j => j != r && (nth page {} j).pattern == pattern

/-- Whether rule `r` of a page has the pattern of a used rule before it (R107). -/
def ruleFault (page : List CodeRule) (r : Nat) : Bool :=
  (duplicateOf page r (nth page {} r).pattern).any fun j => decide (j < r)

/-! ### COMMIT and BRING INTO USE -/

/-- The first form at fault in a working copy (R185). The pool check of R51 stands after the list checks of
every lever, though it names the first entry past 1024: the manual does not say where it stands among checks
made record by record (log entry 9). -/
def formFault (i : Image) : Option FormFault :=
  firstOf
    [firstFault 1 [1] (fun _ => i.identity.isNone),
     firstFault 2 (upTo 3) (linkFault i),
     firstFault 3 (upTo 3) (fun k => (i.link k).configured && !(i.bell k).related),
     firstFault 5 [1] (fun _ => windowFault i),
     firstFault 6 (upTo 64) (leverFault i),
     firstOf ((upTo 64).map (listFault i)),
     poolFault i (upTo 64) 0,
     firstFault 8 (upTo 24) (trackFault i),
     firstFault 9 (upTo 16) (holdFault i),
     firstFault 10 (upTo 16) (timerFault i),
     firstFault 11 (upTo 6) (lineFault i),
     firstFault 12 (recordsOf 12) (fun n => ruleFault (i.page (n / 256)) (n % 256))]

/-- Whether an entry of lever `k`'s list names a timer that lever `k` does not own (R79). -/
def strangeRelease (i : Image) (k : Nat) : Option Cond → Bool
  | some c =>
    match c.subject with
    | .release r => (i.timer r).owner != some (OwnerKind.lever, k)
    | _ => false
  | none => false

/-- The fault of the first entry of lever `k`'s list that names a timer not its own (R79). -/
def strangeFault (i : Image) (k : Nat) : Option FormFault :=
  ((upTo (i.conds k).length).find? fun n => strangeRelease i k (nth (i.conds k) none n)).map
    (condFault k)

/-- Whether a configured timer of lever `k` is named by no RELEASE entry of its list (R79). -/
def releaseMissing (i : Image) (k : Nat) : Bool :=
  (upTo 16).any fun r =>
    let t := i.timer r
    t.configured && t.owner == some (OwnerKind.lever, k)
      && (isSpare i k || !namesRelease (i.conds k) r)

/-- The first form at fault in the one list that lever `k` is brought into use with, in an image that
holds it (R73, R79): it names the lever, by its list in the conditions table, and the index. A list that
lacks the RELEASE entry of a timer has no entry at fault, and names index 255. Where several checks fail, the
forms of the list are named before the pool, then an entry that names a timer not the lever's, and last a
timer that no entry names, which is the model's order (log entry 37). -/
def bringFault (i : Image) (k : Nat) : Option FormFault :=
  firstOf
    [listFault i k,
     poolFault i (upTo 64) 0,
     strangeFault i k,
     if releaseMissing i k then some ⟨7, k * 256, 255⟩ else none]

end Sys2Proof.Machine
end

