-- ==== Sys2Proof/Machine/StoreCommands.lean ====
section
/-! DEFINITION. The commands on the tables: TAKE OUT OF USE and BRING INTO USE (R71, R73), and those
of the Configuration Store (R183 to R188). -/

namespace Sys2Proof.Machine

/-! ### The alteration set (R71, R73) -/

/-- Whether lever `k` is at rest with settled position NORMAL. -/
def restsNormal (s : State) (k : Nat) : Bool :=
  (s.lever k).current == .normal && (s.lever k).settled == some .normal

/-- Whether the mode is SERVICE or SUSPENDED. -/
def working (s : State) : Bool := s.mode == some .service || s.mode == some .suspended

/-- TAKE OUT OF USE (R71). -/
def cmdTakeOut (w : Waiter) (k : Nat) (s : State) : Ran :=
  let l := s.lever k
  if !within k 64 then refuse .range s
  else if !working s then refuse .state s
  else if l.type == .spare || l.outOfUse then refuse .state s
  else if !restsNormal s k then refuse .state s
  else if 8 ≤ (alterationSet s).length then refuse .tableFull s
  else
    (s |> changeLever k (fun l =>
            { l with outOfUse := true, copy := s.tables.conds k
                     allowance := l.allowance.map fun _ => false })
        |> (·.modTables fun i => i.setAltered k true)
        |> queueJob (.takeOut k) (some w)
        |> evaluate k
        |> evaluateNamingLever k, .waits)

/-- BRING INTO USE (R73). -/
def cmdBringIn (w : Waiter) (k : Nat) (s : State) : Ran :=
  let l := s.lever k
  if !within k 64 then refuse .range s
  else if !working s then refuse .state s
  else if !l.outOfUse then refuse .state s
  else if !restsNormal s k then refuse .state s
  else
    match bringFault { s.tables with conditions := put s.tables.conditions k l.copy } k with
    | some f => (s, .refused .tableForm f.bytes)
    | none => (queueJob (.bringIn k l.copy) (some w) s, .waits)

/-- Lever `k` is in use again: the write has ended (R73). -/
def broughtIn (k : Nat) (list : CondList) (s : State) : State :=
  (s.modTables fun i => ({ i with conditions := put i.conditions k list }).setAltered k false)
    |> changeLever k (fun l => { l with outOfUse := false, copy := [] })
    |> evaluate k
    |> evaluateNamingLever k

/-! ### Editing (R183, R186) -/

/-- Whether a SIGNAL lever is at rest in REVERSE, or MOVING with settled position REVERSE (R183). -/
def signalOff (s : State) : Bool :=
  (upTo 64).any fun k =>
    let l := s.lever k
    l.signalAtReverse && (l.current == .reverse || l.current == .moving)

/-- Whether a line of a configured link has a state other than BLOCKED (R183). -/
def lineOpen (s : State) : Bool :=
  (linksOn s).any fun k =>
    (s.inb k).state != some .blocked || (s.outb k).state != some .blocked

/-- OPEN EDIT (R183). -/
def cmdOpenEdit (s : State) : Ran :=
  if s.mode = some .editing then refuse .state s
  else if working s && signalOff s then refuse .state s
  else if working s && lineOpen s then refuse .state s
  else if writing s then refuse .busy s
  else
    (s.modStore fun st => { st with work := some (st.inForce.getD Image.defaults) })
      |> restrictMode .editing
      |> reply []

/-- ABANDON EDIT (R186). The batch then ends, and the part warm-starts (R179). -/
def cmdAbandon (s : State) : Ran :=
  if s.mode ≠ some .editing then refuse .state s
  else if writing s then refuse .busy s
  else
    let t : State := { s with circuits := s.circuits.map fun (c : Circuit) =>
      { c with learning := none } }
    reply [] (t.modStore fun st => { st with work := none })

/-- Whether any circuit is learning. -/
def learning (s : State) : Nat := (s.circuits.filter fun c => c.learning.isSome).length

/-- COMMIT (R185). -/
def cmdCommit (w : Waiter) (s : State) : Ran :=
  let i := s.store.work.getD Image.defaults
  if s.mode ≠ some .editing then refuse .state s
  else if learning s ≠ 0 then refuse .busy s
  else if writing s then refuse .busy s
  else
    match formFault i with
    | some f => (s, .refused .tableForm f.bytes)
    | none => (queueJob (.whole i) (some w) s, .waits)

/-! ### WRITE TABLE and READ TABLE (R184) -/

/-- Whether a write of the working copy as the stored image is under way (R185). -/
def committing (s : State) : Bool :=
  s.store.jobs.any fun j => match j.patch with | .whole _ => true | _ => false

/-- Whether the attribute map gives W for a record in the mode (section 11.1, R72, R107). -/
def mayWrite (s : State) (table record : Nat) : Bool :=
  s.mode == some .editing
    || (working s && (table == 12 || (table == 7 && (s.lever (record / 256)).outOfUse)))

/-- A write to a condition entry of a lever in the alteration set goes to its copy (R72). -/
def writeCopy (record : Nat) (c : Option Cond) (s : State) : State :=
  s |> changeLever (record / 256) (fun l => { l with copy := writeCond l.copy (record % 256) c })
    |> evaluate (record / 256)

/-- Where the write of a record in range goes, in the mode (R184). BUSY during COMMIT's write (R185) is given
after the checks of R184, to a write that has passed them: the manual does not order the refusals (log entry
9). -/
def writeValue (w : Waiter) (record : Nat) (v : Value) (s : State) : Ran :=
  if s.mode = some .editing then
    if committing s then refuse .busy s
    else reply [] (s.modStore fun st => { st with work := st.work.map fun i => i.set record v })
  else
    match v with
    | .cond c => reply [] (writeCopy record c s)
    | .code r =>
      match duplicateOf (s.tables.page (record / 256)) (record % 256) r.pattern with
      | some j => (s, .refused .tableForm (FormFault.bytes ⟨12, record / 256 * 256 + j, 255⟩))
      | none => (queueJob (.code (record / 256) (record % 256) r) (some w) s, .waits)
    | _ => refuse .protectedField s

/-- WRITE TABLE (R184). -/
def cmdWriteTable (w : Waiter) (table record : Nat) (fields : List Byte) (s : State) : Ran :=
  if !within table 13 || !recordOk table record then refuse .range s
  else if !mayWrite s table record then refuse .protectedField s
  else
    match parseFields (layout table record) fields with
    | none => refuse .badParam s
    | some raw =>
      match valueOfRaw table record raw with
      | none => refuse .range s
      | some v => writeValue w record v s

/-- READ TABLE (R184). -/
def cmdReadTable (table record : Nat) (s : State) : Ran :=
  if s.mode = some .unconfigured then refuse .state s
  else if !within table 13 || !recordOk table record then refuse .range s
  else if s.mode = some .editing then
    reply ((s.store.work.getD Image.defaults).recordBytes table record) s
  else if table = 7 ∧ (s.lever (record / 256)).outOfUse = true then
    let c := nth (s.lever (record / 256)).copy none (record % 256)
    reply (encodeFields (layout 7 record) (condRaw c)) s
  else reply (s.tables.recordBytes table record) s

/-! ### STAGE (R187) -/

/-- The fields the attribute map gives S for (section 11.1). On an inbound line STAGE is left to the
owner's rule, which refuses it STATE, where the field number is that of the overdue time (log entry
9). The owner of a releases record is counted as two fields, its kind and its number, so that the duration is
field 4 and the validity field 5: the manual does not say how it counts (log entry 9). -/
def stageable (table field : Nat) : Bool :=
  match table with
  | 2 => inRange field 5 12
  | 3 => inRange field 1 6
  | 8 => [4, 5, 6, 7, 9, 10, 12].contains field
  | 10 => field == 4 || field == 5
  | 11 => field == 2
  | _ => false

/-- The value sent for a field; none where its length does not match the field's encoding. -/
def stagedValue (table record field : Nat) (v : List Byte) : Option Nat :=
  match nth (layout table record) .one field, v with
  | .one, [a] => some a.toNat
  | .two, [a, b] => some (ofBe16 a b)
  | _, _ => none

/-- Whether a track field takes a staged value, against the levels that will hold (R24). -/
def trackTakes (c : TrackCfg) (staged : List (Nat × Nat)) (field v : Nat) : Bool :=
  let drop := stagedOr staged 4 c.drop
  let pickup := stagedOr staged 5 c.pickup
  match field with
  | 4 => inRange v 200 900 && decide (v + 50 ≤ pickup)
  | 5 => inRange v (drop + 50) 950
  | 6 => inRange v 2 15
  | 7 => inRange v 5 300
  | 9 => inRange v 300 900
  | 10 => inRange v 1200 1999
  | _ => inRange v 10 600

/-- Staging of a track field (R24). -/
def stageTrack (k field v : Nat) (s : State) : Ran :=
  let c := s.circuit k
  if c.state = .disabled then refuse .state s
  else if !trackTakes (trackCfg s k) c.staged field v then refuse .range s
  else
    let s := s.modCircuit k fun c => { c with staged := putStaged field v c.staged }
    reply [] (if c.state = .clear then s |> reloadTrack k |> marginTest k else s)

/-- Staging of a timer field (R92): the reload point is reached at once while the timer is IDLE. -/
def stageTimer (r field v : Nat) (s : State) : Ran :=
  let leverOwned := (timerOwner s r).1 == .lever
  if !timerOn s r then refuse .state s
  else if field == 5 && !leverOwned then refuse .state s
  else if !(if field = 4 then inRange v 10 600 else inRange v 10 300) then refuse .range s
  else reply [] (reloadTimer r (s.modTimer r fun t => { t with staged := putStaged field v t.staged }))

/-- The range of a bell timing field (R97). -/
def bellRange (field v : Nat) : Bool :=
  match field with
  | 1 => inRange v 250 900
  | 2 => inRange v 1000 3000
  | 3 => inRange v 40 250 && v % 5 == 0
  | 4 => inRange v 100 850
  | 5 => inRange v 250 2900
  | _ => inRange v 5 60

/-- Bell timing as it will hold once a staged set is applied (R112). -/
def BellCfg.withStaged (c : BellCfg) (staged : List (Nat × Nat)) : BellCfg :=
  staged.foldl (fun c v => c.setField v.1 v.2) c

/-- Staging of a bell timing field (R112): the reload point is reached at once while no code is
open. -/
def stageBell (k field v : Nat) (s : State) : Ran :=
  let staged := putStaged field v (s.bell k).staged
  if !s.linkOn k then refuse .state s
  else if !bellRange field v || !((bellCfg s k).withStaged staged).related then refuse .range s
  else reply [] (reloadBell k (s.modBell k fun b => { b with staged := staged }))

/-- Staging of the entering-overdue time (R131): the reload point is reached at once while the overdue
expiry is none. A value that goes pending raises no LINES key, as a change of a time (log entry 40). -/
def stageLine (line field v : Nat) (s : State) : Ran :=
  let k := linkOfLine line
  if line % 2 = 1 ∨ s.linkOn k = false then refuse .state s
  else if !inRange v 10 300 then refuse .range s
  else
    reply [] (reloadLine k (s.modOutb k fun o => { o with staged := putStaged field v o.staged }))

/-- The range of a link timing field (R137). -/
def linkRange (field v : Nat) : Bool :=
  match field with
  | 5 => inRange v 5 50
  | 6 => inRange v 50 1000
  | 7 => inRange v 50 1000
  | 8 => inRange v 50 1000
  | 9 => inRange v 1 31
  | 10 => inRange v 0 5
  | 11 => inRange v 1 10
  | _ => inRange v 3 30

/-- Staging of a link timing field (R149): the reload point is reached at once where the link stands
at it. -/
def stageLink (k field v : Nat) (s : State) : Ran :=
  let c := cfgOf s k
  let staged := putStaged field v (s.link k).staged
  let relates := decide (2 * stagedOr staged 11 c.heartbeat ≤ stagedOr staged 12 c.silence)
  if !s.linkOn k then refuse .state s
  else if !linkRange field v || ((field == 11 || field == 12) && !relates) then refuse .range s
  else reply [] (reloadLink k (s.modLink k fun l => { l with staged := staged }))

/-- STAGE (R187). -/
def cmdStage (table record field : Nat) (value : List Byte) (s : State) : Ran :=
  if !working s then refuse .state s
  else if !within table 13 || !recordOk table record
      || !within field (layout table record).length then refuse .range s
  else if !stageable table field then refuse .protectedField s
  else if table = 11 ∧ record % 2 = 1 then refuse .state s
  else
    match stagedValue table record field value with
    | none => refuse .badParam s
    | some v =>
      match table with
      | 2 => stageLink record field v s
      | 3 => stageBell record field v s
      | 8 => stageTrack record field v s
      | 10 => stageTimer record field v s
      | _ => stageLine record field v s

/-! ### READ STATUS (R188) -/

/-- How many owners have a value pending (R188). -/
def ownersPending (s : State) : Nat :=
  (s.circuits.filter fun c => !c.staged.isEmpty).length
    + (s.timers.filter fun t => !t.staged.isEmpty).length
    + (s.bells.filter fun b => !b.staged.isEmpty).length
    + (s.outbound.filter fun o => !o.staged.isEmpty).length
    + (s.links.filter fun l => !l.staged.isEmpty).length

/-- READ STATUS (R188). -/
def cmdReadStatus (s : State) : Ran :=
  reply (field1 (s.mode.map Mode.code) ++ [byte s.store.imageState.code]
    ++ (match s.store.stored with | some st => be32 st.signature | none => [255, 255, 255, 255])
    ++ field1 s.tables.identity ++ fieldBool (writing s)
    ++ [byte (learning s), byte (ownersPending s), byte (alterationSet s).length,
        byte s.faults.records.length,
        byte (s.faults.records.filter fun r => r.reaction == .suspend).length,
        byte s.faults.overflowCount]
    ++ be16 s.register.unread) s

end Sys2Proof.Machine
end

