-- ==== Sys2Proof/Machine/HostPort.lean ====
section
/-! DEFINITION. The Host Port (chapter 10): frames from and to the host, the form checks of a
request, the running of a batch, and the command summary that carries each command to the block that
owns it. -/

namespace Sys2Proof.Machine

/-! ### Frames (section 10.1, R173) -/

/-- The SYNC byte. -/
def syncByte : Byte := 0xC3#8

/-- Codes of the frame kinds the 4812 sends (section 10.1). -/
def OutKind.code : OutKind → Nat
  | .reply => 0x20
  | .notice => 0x21
  | .refusal => 0x2F

/-- The KIND of a request. -/
def requestKind : Byte := 0x10#8

/-- The bytes from LENGTH to the end of PAYLOAD. -/
def frameBody (tag kind : Byte) (payload : List Byte) : List Byte :=
  byte (payload.length + 2) :: tag :: kind :: payload

/-- The two CHECK bytes of a frame body. -/
def checkBytes (body : List Byte) : List Byte := be16 (crc16 body).toNat

/-- A frame as it stands on the line, from SYNC on. -/
def hostFrame (tag kind : Byte) (payload : List Byte) : List Byte :=
  let body := frameBody tag kind payload
  syncByte :: body ++ checkBytes body

/-- The bytes of a frame the 4812 sends. -/
def OutFrame.bytes (f : OutFrame) : List Byte := hostFrame f.tag (byte f.kind.code) f.payload

/-- Whether a LENGTH discards its frame (R173). -/
def badLength (n : Nat) : Bool := decide (n < 2) || decide (240 < n)

/-- Whether the bytes from LENGTH on are a complete frame. -/
def frameComplete : List Byte → Bool
  | [] => false
  | n :: rest => rest.length == n.toNat + 2

/-- Whether the CHECK of a complete frame is right (R173). -/
def frameChecks (bytes : List Byte) : Bool :=
  let body := bytes.take (bytes.length - 2)
  bytes.drop (bytes.length - 2) == checkBytes body

/-- The receiver's bytes from LENGTH on, with the time of the last one. -/
abbrev Receiving := Option (List Byte × Time)

/-- A hunted byte (R173). -/
def huntByte (now : Time) (b : Byte) : Receiving := if b = syncByte then some ([], now) else none

/-- The bytes of a frame with one more, unless the frame is now discarded (R173). -/
def keepFrame (now : Time) (bytes : List Byte) : Receiving :=
  if badLength (bytes.headD 0).toNat then none
  else if frameComplete bytes && !frameChecks bytes then none
  else some (bytes, now)

/-- The receiver takes a byte (R173). A byte that arrives after a whole frame not yet taken, or after
the gap that discards a frame, is hunted. -/
def feedByte (now : Time) (r : Receiving) (b : Byte) : Receiving :=
  match r with
  | none => huntByte now b
  | some (bytes, last) =>
    if frameComplete bytes || decide (last + 20 < now) then huntByte now b
    else keepFrame now (bytes ++ [b])

/-- The TAG and payload of a whole REQUEST frame; none for any other frame (R173). -/
def requestOf (bytes : List Byte) : Option (Byte × List Byte) :=
  match bytes with
  | n :: tag :: kind :: rest =>
    if frameComplete bytes && frameChecks bytes && kind == requestKind then
      some (tag, rest.take (n.toNat - 2))
    else none
  | _ => none

/-- The receiver takes one byte from the host (R173). -/
def receiveByte (b : Byte) (s : State) : State :=
  s.modHost fun h => { h with receiving := feedByte s.now h.receiving b }

/-- A gap of more than 20 ms has passed inside a frame: it is discarded (R173). -/
def gapPassed (s : State) : State :=
  match s.host.receiving with
  | none => s
  | some (bytes, last) =>
    if !frameComplete bytes && decide (last + 20 < s.now) then
      s.modHost fun h => { h with receiving := none }
    else s

/-! ### Form checks (R176) -/

/-- Reasons of a REFUSAL (R178). -/
inductive RefusalReason where
  | busy | batchForm | count
  deriving DecidableEq, Repr

/-- Their codes. -/
def RefusalReason.code : RefusalReason → Nat
  | .busy => 1
  | .batchForm => 2
  | .count => 3

/-- A refusal with the batch position of the command at fault. -/
structure FormRefusal where
  reason : RefusalReason
  position : Nat
  deriving DecidableEq, Repr

/-- The result of a form check: what it found, or the refusal. -/
abbrev Formed (α : Type) := FormRefusal ⊕ α

/-- The TEST commands (R176). -/
def isTest (code : Nat) : Bool := [0x02, 0x11, 0x21, 0x41, 0x71].contains code

/-- The commands of a payload, `n` of them from batch position `i` on (R176, layout). Bytes that
remain are the fault of the last command. -/
def layoutCommands : Nat → Nat → List Byte → Formed (List Command)
  | 0, i, bytes => if bytes = [] then .inr [] else .inl ⟨.batchForm, i - 1⟩
  | n + 1, i, c :: g :: len :: rest =>
    if guardUnused g || decide (60 < len.toNat) || decide (rest.length < len.toNat) then
      .inl ⟨.batchForm, i⟩
    else
      match layoutCommands n (i + 1) (rest.drop len.toNat) with
      | .inl r => .inl r
      | .inr cs => .inr (⟨c.toNat, g, rest.take len.toNat⟩ :: cs)
  | _ + 1, i, _ => .inl ⟨.batchForm, i⟩

/-- The batch position of the first paired command whose pairing fails, from position `i` on (R176,
pairing). -/
def pairingFault : Nat → List Command → Option Nat
  | _, [] => none
  | i, [c] => if paired c.guard then some i else none
  | i, c :: d :: cs =>
    if paired c.guard && (isTest d.code || guarded d.guard || paired d.guard) then some i
    else pairingFault (i + 1) (d :: cs)

/-- The form checks of a request (R176). -/
def formRequest (tag : Byte) (payload : List Byte) : Formed Request :=
  match payload with
  | flags :: count :: rest =>
    if !inRange count.toNat 1 8 then .inl ⟨.count, 0⟩
    else
      match layoutCommands count.toNat 1 rest with
      | .inl r => .inl r
      | .inr cs =>
        match pairingFault 1 cs with
        | some i => .inl ⟨.batchForm, i⟩
        | none => .inr ⟨tag, flags.getLsbD 0, cs⟩
  | _ => .inl ⟨.batchForm, 0⟩

/-! ### Command summary -/

/-- A read count clamped to 1 to `most`. -/
def clampCount (most n : Nat) : Nat := min (max n 1) most

/-- Whether a parameter length is one the summary gives for a code; none for a code that is not in
the summary (R178). -/
def parametersFit (code : Nat) (ps : List Byte) : Option Bool :=
  let n := ps.length
  match code with
  | 0x01 | 0x10 | 0x20 | 0x22 | 0x40 | 0x61 | 0x70 | 0x72 => some (n == 2)
  | 0x02 | 0x11 | 0x21 | 0x41 | 0x82 => some (n == 3)
  | 0x03 | 0x12 | 0x13 | 0x23 | 0x24 | 0x50 | 0x60 => some (n == 1)
  | 0x30 => some (decide (2 ≤ n) && n == 2 + (ps.getD 1 0).toNat)
  | 0x62 => some (n == 5)
  | 0x71 => some (n == 4)
  | 0x73 | 0x80 | 0x83 | 0x84 | 0x86 | 0x87 => some (n == 0)
  | 0x81 => some (decide (3 ≤ n))
  | 0x85 => some (decide (4 ≤ n))
  | _ => none

/-- The largest data of a command, with its count clamped (R178). -/
def largestData (code : Nat) (ps : List Byte) : Nat :=
  let count (i most : Nat) := clampCount most (ps.getD i 0).toNat
  match code with
  | 0x01 => 29 * count 1 8
  | 0x10 => 26 * count 1 8
  | 0x20 => 21 * count 1 8
  | 0x22 => 14 * count 1 8
  | 0x40 => 21 * count 1 6
  | 0x60 => 10 + 16 * count 0 8
  | 0x70 => 6 + 15 * count 1 8
  | 0x02 | 0x21 | 0x30 | 0x71 => 1
  | 0x11 | 0x23 | 0x41 => 2
  | 0x50 => 3
  | 0x12 | 0x13 | 0x81 | 0x83 => 4
  | 0x61 => 6
  | 0x82 => 57
  | 0x86 => 16
  | _ => 0

/-- The codes of the commands that end their batch (R179). -/
def endsBatch (code : Nat) : Option ResetCause :=
  match code with
  | 0x83 => some .commit
  | 0x84 => some .abandonEdit
  | 0x87 => some .warmReset
  | _ => none

/-- RUN TEST: the table for 0, or a link (R148, R169). -/
def cmdRunTest (w : Waiter) (n : Nat) (s : State) : Ran :=
  if n = 0 then cmdTestTable w s else cmdTestLink w n s

/-- WARM RESET (R179): the port itself ends the batch. -/
def cmdWarmReset (s : State) : Ran := reply [] s

/-- A command is carried to the block that owns it, its parameters decoded (command summary). -/
def runCommand (w : Waiter) (code : Nat) (params : List Byte) (s : State) : Ran :=
  let ns := params.map (·.toNat)
  match code, ns with
  | 0x01, [a, b] => cmdReadTracks a b s
  | 0x02, [f, a, b] => cmdTestTrack f a b s
  | 0x03, [a] => cmdLearn a s
  | 0x10, [a, b] => cmdReadLevers a b s
  | 0x11, [f, a, b] => cmdTestLever f a b s
  | 0x12, [a] => cmdTakeOut w a s
  | 0x13, [a] => cmdBringIn w a s
  | 0x20, [a, b] => cmdReadHolds a b s
  | 0x21, [f, a, b] => cmdTestHold f a b s
  | 0x22, [a, b] => cmdReadReleases a b s
  | 0x23, [a] => cmdRequestRelease a s
  | 0x24, [a] => cmdCancelRelease a s
  | 0x30, k :: _ :: groups => cmdSendCode k groups s
  | 0x40, [a, b] => cmdReadLines a b s
  | 0x41, [f, a, b] => cmdTestLine f a b s
  | 0x50, [n] => cmdRunTest w n s
  | 0x60, [n] => cmdReadRegister n s
  | 0x61, [h, l] => cmdAdvanceRegister (h * 256 + l) s
  | 0x62, [d, e, x, y, z] => cmdSetClock (d * 256 + e) (x * 65536 + y * 256 + z) s
  | 0x70, [a, b] => cmdReadFaults a b s
  | 0x71, [f, c, n, v] => cmdTestFault f c n v s
  | 0x72, [c, n] => cmdClearFault c n s
  | 0x73, _ => cmdResume s
  | 0x80, _ => cmdOpenEdit s
  | 0x81, t :: h :: l :: _ => cmdWriteTable w t (h * 256 + l) (params.drop 3) s
  | 0x82, [t, h, l] => cmdReadTable t (h * 256 + l) s
  | 0x83, _ => cmdCommit w s
  | 0x84, _ => cmdAbandon s
  | 0x85, t :: h :: l :: f :: _ => cmdStage t (h * 256 + l) f (params.drop 4) s
  | 0x86, _ => cmdReadStatus s
  | 0x87, _ => cmdWarmReset s
  | _, _ => refuse .badParam s

/-! ### Replies and refusals (R174, R178, R179) -/

/-- A result in a reply (R178). -/
def CmdResult.bytes (r : CmdResult) : List Byte :=
  [byte r.code, byte r.result.code, byte r.reason.code, byte r.data.length] ++ r.data

/-- The payload of a reply (R178). -/
def replyPayload (rs : List CmdResult) : List Byte := byte rs.length :: rs.flatMap CmdResult.bytes

/-- A REPLY or REFUSAL becomes ready (R174). -/
def readyFrame (f : OutFrame) (s : State) : State :=
  s.modHost fun h => { h with ready := h.ready ++ [f] }

/-- A request is answered by a REFUSAL (R175, R176). -/
def refuseRequest (tag : Byte) (r : FormRefusal) : State → State :=
  readyFrame ⟨.refusal, tag, [byte r.reason.code, byte r.position], false⟩

/-- The data a batch's results have placed in its reply. -/
def dataPlaced (rs : List CmdResult) : Nat := (rs.map (·.data.length)).sum

/-- The room for data left in the reply of a batch (R178). -/
def roomLeft (count : Nat) (rs : List CmdResult) : Nat := 237 - 4 * count - dataPlaced rs

/-- A result without data. -/
def plainResult (code : Nat) (r : ResultCode) : CmdResult := ⟨code, r, .none, []⟩

/-- The result of a command that its block answered. -/
def doneResult (code : Nat) (data : List Byte) : CmdResult := ⟨code, .done, .none, data⟩

/-- The result of a refused command. -/
def refusedResult (code : Nat) (r : RefuseReason) (data : List Byte) : CmdResult :=
  ⟨code, .refused, r, data⟩

/-- The last command of a batch has ended: its reply is made ready, and its place becomes empty; with
a cause, the part will warm-start once the reply has been sent, and the waiting request is lost
(R175, R178, R179). -/
def endBatch (tag : Byte) (rs : List CmdResult) (cause : Option ResetCause) (s : State) : State :=
  (readyFrame ⟨.reply, tag, replyPayload rs, cause.isSome⟩ s).modHost fun h =>
    { h with
      executing := none
      waiting := if cause.isSome then none else h.waiting
      warm := match cause with | some c => some ⟨c, false⟩ | none => h.warm }

/-! ### Running a batch (R177, R178, R179) -/

/-- The port's own check of a command whose turn has come (R178). -/
def portCheck (count : Nat) (rs : List CmdResult) (c : Command) : Option RefuseReason :=
  match parametersFit c.code c.params with
  | none => some .badCode
  | some false => some .badParam
  | some true => if roomLeft count rs < largestData c.code c.params then some .busy else none

/-- The result of a command that does not run: halt, failed pair, or guard (R177, cases 1 to 3). -/
def passedOver (s : State) (halt skip : Bool) (rs : List CmdResult) (c : Command) :
    Option ResultCode :=
  if halt && rs.any (fun r => r.result == .refused) then some .notRun
  else if skip then some .skipped
  else if guardPasses s c.guard then none
  else some .skipped

/-- Runs a command that reaches its turn, with the port's check (R177, case 4). -/
def runChecked (count : Nat) (rs : List CmdResult) (c : Command) (s : State) : Ran :=
  match portCheck count rs c with
  | some r => refuse r s
  | none => runCommand .batch c.code c.params s

/-- A command of the batch has its result, and `skip` says whether it was SKIPPED as a paired command: the
batch ends with its last command; otherwise the turn of the next one has come (R177). -/
def giveResult (b : Batch) (r : CmdResult) (skip : Bool) (s : State) : State :=
  let rs := b.results ++ [r]
  if b.rest = [] then endBatch b.tag rs none s
  else s.modHost fun h =>
    { h with executing := some { b with results := rs, awaited := none, skip := skip } }

/-- The last command of the batch that runs is done, with the cause of a warm start: every later one is
NOT_RUN, and the batch ends (R179). -/
def cutBatch (b : Batch) (r : CmdResult) (cause : ResetCause) : State → State :=
  endBatch b.tag (b.results ++ r :: b.rest.map fun d => plainResult d.code .notRun) (some cause)

/-- The turn of the batch's next command is taken (R177). -/
def takeTurn (b : Batch) (s : State) : State :=
  match b.rest with
  | [] => endBatch b.tag b.results none s
  | c :: cs =>
    let later := { b with rest := cs }
    match passedOver s b.halt b.skip b.results c with
    | some r => giveResult later (plainResult c.code r) (paired c.guard && r == .skipped) s
    | none =>
      match runChecked b.count b.results c s with
      | (s, .done data) =>
        match endsBatch c.code with
        | some cause => cutBatch later (doneResult c.code data) cause s
        | none => giveResult later (doneResult c.code data) false s
      | (s, .refused r data) => giveResult later (refusedResult c.code r data) false s
      | (s, .waits) =>
        s.modHost fun h => { h with executing := some { later with awaited := some c, skip := false } }

/-- A request's batch begins in the executing place: its flags are set to false, its reply is empty, and the
turn of its first command has come (R175, R177). -/
def beginBatch (r : Request) (s : State) : State :=
  s.modHost fun h =>
    { h with
      flags := clearFlags
      executing := some
        { tag := r.tag, halt := r.halt, count := r.commands.length, rest := r.commands } }

/-- The waiting request moves into the executing place, if that is empty, and its batch begins at once (R175,
R179). -/
def advanceQueue (s : State) : State :=
  match s.host.executing, s.host.waiting, s.host.warm with
  | none, some r, none => (s.modHost fun h => { h with waiting := none }) |> beginBatch r
  | _, _, _ => s

/-- The batch whose next command's turn has come, if there is one (R177); none once a warm start is due
(R179). -/
def turnDue (s : State) : Option Batch :=
  if s.host.warm.isSome then none else s.host.executing.filter fun b => b.awaited.isNone

/-- The turn that has come is taken; a batch that ends with it makes room for the waiting request (R175,
R177). -/
def nextTurn (s : State) : State :=
  match turnDue s with
  | none => s
  | some b => s |> takeTurn b |> advanceQueue

/-- A whole REQUEST frame has arrived (R175, R179). -/
def takeRequest (tag : Byte) (payload : List Byte) (s : State) : State :=
  if s.host.warm.isSome then s
  else if s.start.isSome then refuseRequest tag ⟨.busy, 0⟩ s
  else if s.host.executing.isSome && s.host.waiting.isSome then refuseRequest tag ⟨.busy, 0⟩ s
  else
    match formRequest tag payload with
    | .inl r => refuseRequest tag r s
    | .inr r =>
      if s.host.executing.isSome then s.modHost fun h => { h with waiting := some r }
      else s |> beginBatch r |> nextTurn

/-- The bytes of a frame not yet received arrive, and the whole frame, if they complete one, is taken
(R173, R175). -/
def receiveRequest (bytes : List Byte) (s : State) : State :=
  let s := bytes.foldl (fun s b => receiveByte b s) s
  match s.host.receiving with
  | none => s
  | some (bytes, _) =>
    if frameComplete bytes then
      let s := s.modHost fun h => { h with receiving := none }
      match requestOf bytes with
      | some (tag, payload) => takeRequest tag payload s
      | none => s
    else s

/-! ### Commands that end later, and commands taken by themselves -/

/-- A batch's command that waited has ended with a result (R177, R179). -/
def resumeBatch (r : CmdResult) (s : State) : State :=
  match s.host.executing with
  | none => s
  | some b =>
    match b.awaited with
    | none => s
    | some c =>
      let r := { r with code := c.code }
      match (if r.result = .done then endsBatch c.code else none) with
      | some cause => cutBatch b r cause s
      | none => s |> giveResult b r false |> advanceQueue

/-- A command row taken by itself has its result; the commands that end a batch make the warm start
due (R179, log entry 4). -/
def endAlone (r : CmdResult) (s : State) : State :=
  s.modHost fun h =>
    { h with
      lastResult := some r
      warm := match (if r.result = .done then endsBatch r.code else none) with
        | some cause => some ⟨cause, true⟩
        | none => h.warm }

/-- A command that waited has ended with a result. -/
def endWait (w : Waiter) (r : CmdResult) (s : State) : State :=
  match w with
  | .batch => resumeBatch r s
  | .alone => endAlone r s

/-- A host command row taken by itself: the block runs the command and its result is kept (log entry
4). During a start it is refused BUSY (R175); with a warm start due it is lost (R179). -/
def runAlone (code : Nat) (command : State → Ran) (s : State) : State :=
  if s.host.warm.isSome then s
  else if s.start.isSome then endAlone (refusedResult code .busy []) s
  else
    match command s with
    | (s, .done data) => endAlone (doneResult code data) s
    | (s, .refused r data) => endAlone (refusedResult code r data) s
    | (s, .waits) => s.modHost fun h => { h with lastResult := none }

/-! ### The transmitter (R174, R180) -/

/-- A notice as a frame (R178, R180). -/
def Notice.frame (n : Notice) : OutFrame := ⟨.notice, 0, byte n.key.code :: be32 n.mask, false⟩

/-- Whether the transmitter chooses no frame: a final reply has been sent, and the part is about to
warm-start (R179). -/
def warmStarting (h : HostPort) : Bool := h.warm.any (·.replySent)

/-- The transmitter, idle, sends the first REPLY or REFUSAL ready, or else, outside a start, the
oldest notice (R174, R180). -/
def chooseFrame (started : Bool) (h : HostPort) : HostPort :=
  match h.sending, h.ready, h.notices with
  | some _, _, _ => h
  | none, f :: fs, _ => if warmStarting h then h else { h with sending := some f, ready := fs }
  | none, [], n :: ns =>
    if warmStarting h || !started then h else { h with sending := some n.frame, notices := ns }
  | none, [], [] => h

/-- The last byte of a frame has been sent (R174, R179). -/
def frameLeft (s : State) : State :=
  match s.host.sending with
  | none => s
  | some f =>
    s.modHost fun h =>
      { h with
        sending := none
        warm := if f.final then h.warm.map fun w => { w with replySent := true } else h.warm }

end Sys2Proof.Machine
end

