-- ==== Sys2Proof/Machine/Finish.lean ====
section
/-! DEFINITION. What comes about at the end of every step, whatever the step was: disagreements
found are reported (R59), reload points that stand are taken (R187), links start what they can (R139,
R142), and the host transmitter chooses its next frame (R174); and the turns of a batch that are taken on an
empty queue and before a later row (R177). -/

namespace Sys2Proof.Machine

/-! ### Disagreements (R59) -/

/-- Reports the disagreements that stand, and those that the reports bring, at most `n` rounds. -/
def settleMismatches : Nat → State → State
  | 0, s => s
  | n + 1, s =>
    if s.levers.any (·.mismatchDue) then settleMismatches n (reportMismatches s) else s

/-! ### Reload points (R187) -/

/-- The reload points that stand are taken. Those of the track circuits are taken where R24 has
them. The writes of several owners whose reload points one event reaches become due in the order timers, bells,
lines, links, each in rising order of number, which is the model's (R181, log entry 34). -/
def reloadAll (s : State) : State :=
  s |> forEach (upTo 16) reloadTimer
    |> forEach (upTo 3) reloadBell
    |> forEach (upTo 3) reloadLine
    |> forEach (upTo 3) reloadLink

/-! ### The end of a step -/

/-- The host transmitter chooses its next frame (R174, R180). -/
def kickHost (s : State) : State := s.modHost (chooseFrame s.start.isNone)

/-- The end of a step. -/
def finish (s : State) : State :=
  s |> settleMismatches 64
    |> reloadAll
    |> forEach (upTo 3) pumpLink
    |> kickHost

/-! ### The turns of a batch between two rows (R177) -/

/-- What the part does while no event waits: the turn that has come of a batch's next command is taken, with
the end of a step after it (R177, log entry 42); otherwise the part idles. -/
def idle (s : State) : State :=
  match turnDue s with
  | none => s
  | some _ => finish (nextTurn s)

/-- As many as `n` turns that have come are taken, one after the other. -/
def takeTurns : Nat → State → State
  | 0, s => s
  | n + 1, s => takeTurns n (idle s)

/-- A bound on the turns that can be taken before an event: those of the batch that runs, and those of the
waiting request. -/
def turnsLeft (s : State) : Nat :=
  (s.host.executing.map fun b => b.rest.length + 1).getD 0
    + (s.host.waiting.map fun r => r.commands.length + 2).getD 0

/-- The state in which a row of running time `t` is taken. The turn of a command comes when the command
before it has ended (R177): where the row is later than the running time, the turns that have come are all
taken before it, at the running time of the part. The running time is then the row's; a step is never taken
before one already taken (log entries 1 and 42). -/
def State.comeTo (s : State) (t : Time) : State :=
  (if s.now < t then takeTurns (turnsLeft s) s else s).atTime t

/-- Whether a compare has come due. -/
def due (s : State) (at_ : Option Time) : Bool := at_.any fun t => decide (t ≤ s.now)

/-- What every row answers: the next state, its effect followed by the end of the step. -/
abbrev Stepped := Host.Outcome State Fault Refusal

end Sys2Proof.Machine
end

