-- ==== Sys2Proof/Machine/BlockRows.lean ====
section
/-! DEFINITION. The rows of the release timers, the bell codes and the lines (chapters 4 to 6). -/

namespace Sys2Proof.Machine

/-! ### Release timers (R88, R90) -/

/-- What the owner of a timer takes at its expiry at running time `e` (R88). -/
def ownerTakesExpiry (r : Nat) (e : Time) (s : State) : State :=
  let o := timerOwner s r
  match o.1 with
  | .hold =>
    s.modTimer r Timer.toIdle |> setHold o.2 .idle |> evaluateHoldAndTimer o.2 (some r)
  | .sequence => s.modTimer r Timer.toIdle |> sequenceReleased (linkOfLine o.2) |> evaluateRelease r
  | .lever =>
    let validity := (s.tables.timer r).validity.getD defaultValidity
    (s.modTimer r fun t =>
        { t with state := .complete, expiry := none, lapse := some (e + validity * 1000) })
      |> evaluate o.2
      |> evaluateRelease r

/-- The RUNNING timer of release `r` expires (R88). -/
def releaseExpires (r : Nat) (s : State) : State :=
  let t := s.timer r
  match t.expiry with
  | none => s
  | some e =>
    if t.state = .running ∧ e ≤ s.now then
      s |> append (.releaseComplete r (timerOwner s r)) |> ownerTakesExpiry r e |> noteRelease r
    else s

/-- RELEASE_TIMER_EXPIRY (R88). -/
def execReleaseTimerExpiry (t : Time) (release : Nat) (s : State) : Stepped :=
  .next (finish (releaseExpires release (s.comeTo t)))

/-- The COMPLETE timer of release `r` lapses (R90). -/
def releaseLapses (r : Nat) (s : State) : State :=
  if (s.timer r).state = .complete ∧ due s (s.timer r).lapse = true then
    s |> cancelTimer .lapsed r |> evaluate (timerOwner s r).2 |> evaluateRelease r
  else s

/-- RELEASE_LAPSE (R90). -/
def execReleaseLapse (t : Time) (release : Nat) (s : State) : Stepped :=
  .next (finish (releaseLapses release (s.comeTo t)))

/-! ### Bell codes (R100, R104, R106, R111) -/

/-- PLUNGER_CODE_END (R100). -/
def execPlungerCodeEnd (t : Time) (link : Nat) (s : State) : Stepped :=
  .next (finish (endDuePlunger link (s.comeTo t)))

/-- HOST_CODE_STROKE_END (R104). -/
def execHostCodeStrokeEnd (t : Time) (link : Nat) (s : State) : Stepped :=
  .next (finish (hostStrokeEnd link (s.comeTo t)))

/-- HOST_CODE_END (R104). -/
def execHostCodeEnd (t : Time) (link : Nat) (s : State) : Stepped :=
  .next (finish (hostEnd link (s.comeTo t)))

/-- RECEIVE_TIMEOUT (R106). -/
def execReceiveTimeout (t : Time) (link : Nat) (s : State) : Stepped :=
  .next (finish (receiveTimedOut link (s.comeTo t)))

/-- EXPECTATION_DEADLINE (R111). -/
def execExpectationDeadline (t : Time) (link : Nat) (s : State) : Stepped :=
  .next (finish (deadlinePassed link (s.comeTo t)))

/-! ### Lines (R130, R132) -/

/-- Link `k`'s disagreement compare expires: LINE_DISAGREE begins (R132). -/
def disagreementExpires (k : Nat) (s : State) : State :=
  if (s.inb k).disagreeSince.isSome && due s (s.inb k).disagreeAt then
    (s.modInb k fun i => { i with disagreeAt := none, disagreeActive := true })
      |> when (!(s.inb k).disagreeActive) (raise 19 (some k))
  else s

/-- DISAGREEMENT_COMPARE_EXPIRY (R132). -/
def execDisagreementCompareExpiry (t : Time) (link : Nat) (s : State) : Stepped :=
  .next (finish (disagreementExpires link (s.comeTo t)))

/-- The overdue expiry of link `k`'s outbound line is reached (R130). -/
def overdueExpires (k : Nat) (s : State) : State :=
  if due s (s.outb k).overdueAt then
    (s.modOutb k fun o => { o with overdueAt := none })
      |> append (.overdue (2 * k) (s.tables.outb k).overdue)
      |> noteLine (2 * k)
  else s

/-- OVERDUE_EXPIRY (R130). -/
def execOverdueExpiry (t : Time) (link : Nat) (s : State) : Stepped :=
  .next (finish (overdueExpires link (s.comeTo t)))

end Sys2Proof.Machine
end

