-- ==== Sys2Proof/Machine/CommandRows.lean ====
section
/-! DEFINITION. The host command rows, each taken by itself (log entry 4): the owning block runs the
command at its time, and its result stands in `lastResult`. -/

namespace Sys2Proof.Machine

/-- A host command row taken by itself at running time `t`. -/
def commandRow (t : Time) (code : Nat) (command : State → Ran) (s : State) : State :=
  finish (runAlone code command (s.comeTo t))

/-- READ_TRACKS (R27). -/
def execReadTracks (t : Time) (first count : Nat) (s : State) : Stepped :=
  .next (commandRow t 0x01 (cmdReadTracks first count) s)

/-- TEST_TRACK (R28). -/
def execTestTrack (t : Time) (flag circuit wanted : Nat) (s : State) : Stepped :=
  .next (commandRow t 0x02 (cmdTestTrack flag circuit wanted) s)

/-- LEARN_REFERENCE (R22). -/
def execLearnReference (t : Time) (circuit : Nat) (s : State) : Stepped :=
  .next (commandRow t 0x03 (cmdLearn circuit) s)

/-- READ_LEVERS (R76). -/
def execReadLevers (t : Time) (first count : Nat) (s : State) : Stepped :=
  .next (commandRow t 0x10 (cmdReadLevers first count) s)

/-- TEST_LEVER (R77). -/
def execTestLever (t : Time) (flag lever wanted : Nat) (s : State) : Stepped :=
  .next (commandRow t 0x11 (cmdTestLever flag lever wanted) s)

/-- TAKE_OUT_OF_USE (R71). -/
def execTakeOutOfUse (t : Time) (lever : Nat) (s : State) : Stepped :=
  .next (commandRow t 0x12 (cmdTakeOut .alone lever) s)

/-- BRING_INTO_USE (R73). -/
def execBringIntoUse (t : Time) (lever : Nat) (s : State) : Stepped :=
  .next (commandRow t 0x13 (cmdBringIn .alone lever) s)

/-- READ_HOLDS (R94). -/
def execReadHolds (t : Time) (first count : Nat) (s : State) : Stepped :=
  .next (commandRow t 0x20 (cmdReadHolds first count) s)

/-- TEST_HOLD (R96). -/
def execTestHold (t : Time) (flag hold wanted : Nat) (s : State) : Stepped :=
  .next (commandRow t 0x21 (cmdTestHold flag hold wanted) s)

/-- READ_RELEASES (R95). -/
def execReadReleases (t : Time) (first count : Nat) (s : State) : Stepped :=
  .next (commandRow t 0x22 (cmdReadReleases first count) s)

/-- REQUEST_RELEASE (R87). -/
def execRequestRelease (t : Time) (release : Nat) (s : State) : Stepped :=
  .next (commandRow t 0x23 (cmdRequestRelease release) s)

/-- CANCEL_RELEASE (R91). -/
def execCancelRelease (t : Time) (release : Nat) (s : State) : Stepped :=
  .next (commandRow t 0x24 (cmdCancelRelease release) s)

/-- SEND_CODE (R103). -/
def execSendCode (t : Time) (link : Nat) (groups : List Nat) (s : State) : Stepped :=
  .next (commandRow t 0x30 (cmdSendCode link groups) s)

/-- READ_LINES (R135). -/
def execReadLines (t : Time) (first count : Nat) (s : State) : Stepped :=
  .next (commandRow t 0x40 (cmdReadLines first count) s)

/-- TEST_LINE (R136). -/
def execTestLine (t : Time) (flag line wanted : Nat) (s : State) : Stepped :=
  .next (commandRow t 0x41 (cmdTestLine flag line wanted) s)

/-- RUN_TEST_LINK (R148). -/
def execRunTestLink (t : Time) (link : Nat) (s : State) : Stepped :=
  .next (commandRow t 0x50 (cmdTestLink .alone link) s)

/-- RUN_TEST_TABLE (R169). -/
def execRunTestTable (t : Time) (s : State) : Stepped :=
  .next (commandRow t 0x50 (cmdTestTable .alone) s)

/-- READ_REGISTER (R155). -/
def execReadRegister (t : Time) (count : Nat) (s : State) : Stepped :=
  .next (commandRow t 0x60 (cmdReadRegister count) s)

/-- ADVANCE_REGISTER (R156). -/
def execAdvanceRegister (t : Time) (count : Nat) (s : State) : Stepped :=
  .next (commandRow t 0x61 (cmdAdvanceRegister count) s)

/-- SET_CLOCK (R158). -/
def execSetClock (t : Time) (day tenths : Nat) (s : State) : Stepped :=
  .next (commandRow t 0x62 (cmdSetClock day tenths) s)

/-- READ_FAULTS (R171). -/
def execReadFaults (t : Time) (first count : Nat) (s : State) : Stepped :=
  .next (commandRow t 0x70 (cmdReadFaults first count) s)

/-- TEST_FAULT (R172). -/
def execTestFault (t : Time) (flag source subject wanted : Nat) (s : State) : Stepped :=
  .next (commandRow t 0x71 (cmdTestFault flag source subject wanted) s)

/-- CLEAR_FAULT (R165). -/
def execClearFault (t : Time) (source subject : Nat) (s : State) : Stepped :=
  .next (commandRow t 0x72 (cmdClearFault source subject) s)

/-- RESUME (R166). -/
def execResume (t : Time) (s : State) : Stepped :=
  .next (commandRow t 0x73 cmdResume s)

/-- OPEN_EDIT (R183). -/
def execOpenEdit (t : Time) (s : State) : Stepped :=
  .next (commandRow t 0x80 cmdOpenEdit s)

/-- WRITE_TABLE (R184). -/
def execWriteTable (t : Time) (table record : Nat) (fields : List Byte) (s : State) : Stepped :=
  .next (commandRow t 0x81 (cmdWriteTable .alone table record fields) s)

/-- READ_TABLE (R184). -/
def execReadTable (t : Time) (table record : Nat) (s : State) : Stepped :=
  .next (commandRow t 0x82 (cmdReadTable table record) s)

/-- COMMIT (R185). -/
def execCommit (t : Time) (s : State) : Stepped :=
  .next (commandRow t 0x83 (cmdCommit .alone) s)

/-- ABANDON_EDIT (R186). -/
def execAbandonEdit (t : Time) (s : State) : Stepped :=
  .next (commandRow t 0x84 cmdAbandon s)

/-- STAGE (R187). -/
def execStage (t : Time) (table record field : Nat) (value : List Byte) (s : State) : Stepped :=
  .next (commandRow t 0x85 (cmdStage table record field value) s)

/-- READ_STATUS (R188). -/
def execReadStatus (t : Time) (s : State) : Stepped :=
  .next (commandRow t 0x86 cmdReadStatus s)

/-- WARM_RESET (R179). -/
def execWarmReset (t : Time) (s : State) : Stepped :=
  .next (commandRow t 0x87 cmdWarmReset s)

end Sys2Proof.Machine
end

