-- ==== Sys2Proof/Machine/FrameRows.lean ====
section
/-! DEFINITION. The rows of the frame bus and of the levers' compares (chapter 2). -/

namespace Sys2Proof.Machine

/-- POLL_POSITION (R30). -/
def execPollPosition (t : Time) (s : State) : Stepped := .next (finish (takePosition (s.comeTo t)))

/-- An answer whose check is right comes to the poll under way: GOOD where it is of the board polled
and of its kind, and otherwise a miss (R31). -/
def answered (b : Nat) (a : Answer) (s : State) : State :=
  match s.polled with
  | none => s
  | some (p, outputs) =>
    if b = p ∧ answerFits p a = true then takeGood p a outputs s else takeMiss p outputs s

/-- GOOD_ANSWER (R31). -/
def execGoodAnswer (t : Time) (board : Nat) (answer : Answer) (s : State) : Stepped :=
  .next (finish (answered board answer (s.comeTo t)))

/-- The poll under way of board `b` has no good answer within its position (R31, R32). -/
def missed (b : Nat) (s : State) : State :=
  match s.polled with
  | none => s
  | some (p, outputs) => if b = p then takeMiss p outputs s else s

/-- MISSED_POLL (R32). -/
def execMissedPoll (t : Time) (board : Nat) (s : State) : Stepped :=
  .next (finish (missed board (s.comeTo t)))

/-- The transit compare of lever `k` expires while it is not settled: LEVER_TRANSIT begins (R35). -/
def transitExpires (k : Nat) (s : State) : State :=
  if due s (s.lever k).transitAt then
    (s.modLever k fun l => { l with transitAt := none, transitActive := true })
      |> when (!(s.lever k).transitActive) (raise 9 (some k))
  else s

/-- TRANSIT_COMPARE_EXPIRY (R35). -/
def execTransitCompareExpiry (t : Time) (lever : Nat) (s : State) : Stepped :=
  .next (finish (transitExpires lever (s.comeTo t)))

end Sys2Proof.Machine
end

