-- ==== Sys2Proof/Machine/HostRows.lean ====
section
/-! DEFINITION. The rows of the host line: HOST_REQUEST_FRAME, HOST_BYTE_RECEIVED,
HOST_INTERBYTE_TIMEOUT and HOST_FRAME_SENT (R173 to R175). -/

namespace Sys2Proof.Machine

/-- HOST_REQUEST_FRAME (R175). -/
def execHostRequestFrame (t : Time) (bytes : List Byte) (s : State) : Stepped :=
  .next (finish (receiveRequest bytes (s.comeTo t)))

/-- HOST_INTERBYTE_TIMEOUT (R173). -/
def execHostInterbyteTimeout (t : Time) (s : State) : Stepped :=
  .next (finish (gapPassed (s.comeTo t)))

/-- HOST_FRAME_SENT (R174). -/
def execHostFrameSent (t : Time) (s : State) : Stepped := .next (finish (frameLeft (s.comeTo t)))

/-- HOST_BYTE_RECEIVED (R173). -/
def execHostByteReceived (t : Time) (value : Byte) (s : State) : Stepped :=
  .next (finish (receiveByte value (s.comeTo t)))

end Sys2Proof.Machine
end

