-- ==== Sys2Proof/Machine/LinkRows.lean ====
section
/-! DEFINITION. The rows of the block links (chapter 7). -/

namespace Sys2Proof.Machine

/-! ### Characters and frames -/

/-- LINK_FRAME_RECEIVED (R144). -/
def execLinkFrameReceived (t : Time) (link : Nat) (bytes : List Byte) (s : State) : Stepped :=
  .next (finish (receiveFrame link bytes (s.comeTo t)))

/-- A pause of more than 15 ms inside a frame that link `k` assembles abandons it (R138). -/
def pauseAbandons (k : Nat) (s : State) : State :=
  s.modLink k (Link.takePause (cfgOf s k) s.now 0)

/-- LINK_FRAME_ABANDONED (R138). -/
def execLinkFrameAbandoned (t : Time) (link : Nat) (s : State) : Stepped :=
  .next (finish (pauseAbandons link (s.comeTo t)))

/-- LINK_COLLISION (R139). -/
def execLinkCollision (t : Time) (link : Nat) (s : State) : Stepped :=
  .next (finish (collide link (s.comeTo t)))

/-- LINK_FRAME_SENT (R142). -/
def execLinkFrameSent (t : Time) (link : Nat) (s : State) : Stepped :=
  .next (finish (frameSent link (s.comeTo t)))

/-- LINE_QUIET (R139): the frame that waits is started. -/
def execLineQuiet (t : Time) (link : Nat) (s : State) : Stepped :=
  .next (finish (startFrame link (s.comeTo t)))

/-- LINK_CHARACTER_RECEIVED (R138). -/
def execLinkCharacterReceived (t : Time) (link : Nat) (char : Byte) (s : State) : Stepped :=
  .next (finish (receiveChar link char (s.comeTo t)))

/-! ### Timers of the exchange -/

/-- Link `k`'s back-off has passed (R139). -/
def backOffPasses (k : Nat) (s : State) : State :=
  if due s (s.link k).backOffAt then s.modLink k fun l => { l with backOffAt := none } else s

/-- BACK_OFF_END (R139). -/
def execBackOffEnd (t : Time) (link : Nat) (s : State) : Stepped :=
  .next (finish (backOffPasses link (s.comeTo t)))

/-- Link `k`'s answer timer expires (R143). -/
def answerExpires (k : Nat) (s : State) : State :=
  if (s.link k).state = .bidding ∧ due s (s.link k).answerAt = true then bidFailed k s else s

/-- ANSWER_TIMER_EXPIRY (R143). -/
def execAnswerTimerExpiry (t : Time) (link : Nat) (s : State) : Stepped :=
  .next (finish (answerExpires link (s.comeTo t)))

/-- Link `k`'s taken timer expires (R142). -/
def takenExpires (k : Nat) (s : State) : State :=
  if (s.link k).state = .awaitTaken ∧ due s (s.link k).takenAt = true then dataFailed false k s
  else s

/-- TAKEN_TIMER_EXPIRY (R142). -/
def execTakenTimerExpiry (t : Time) (link : Nat) (s : State) : Stepped :=
  .next (finish (takenExpires link (s.comeTo t)))

/-- Link `k`'s data timer expires: it goes IDLE (R144). -/
def dataExpires (k : Nat) (s : State) : State :=
  if (s.link k).state = .receiving ∧ due s (s.link k).dataAt = true then
    s.modLink k fun l => { l with state := .idle, dataAt := none }
  else s

/-- DATA_TIMER_EXPIRY (R144). -/
def execDataTimerExpiry (t : Time) (link : Nat) (s : State) : Stepped :=
  .next (finish (dataExpires link (s.comeTo t)))

/-- Link `k`'s retry time is reached (R142). A link that is RECEIVING then, answering as an IDLE link does, goes
BIDDING with work only when it has left RECEIVING, which the manual leaves open (log entry 44). -/
def retryComes (k : Nat) (s : State) : State :=
  if due s (s.link k).retryAt then s.modLink k fun l => { l with retryAt := none } else s

/-- RETRY_TIME (R142). -/
def execRetryTime (t : Time) (link : Nat) (s : State) : Stepped :=
  .next (finish (retryComes link (s.comeTo t)))

/-- The STROKE items of link `k` that have waited 5 s are discarded (R140). -/
def strokesLate (k : Nat) (s : State) : State := s.modLink k fun l => l.discardLate s.now

/-- LATE_STROKE (R140). -/
def execLateStroke (t : Time) (link : Nat) (s : State) : Stepped :=
  .next (finish (strokesLate link (s.comeTo t)))

/-! ### Heartbeat and silence -/

/-- Link `k`'s heartbeat expires, and starts again (R141). -/
def heartbeatExpires (k : Nat) (s : State) : State :=
  if due s (s.link k).heartbeatAt then
    s.modLink k fun l =>
      { l with indicationDue := true, heartbeatAt := some (s.now + (cfgOf s k).heartbeat * 1000) }
  else s

/-- HEARTBEAT_EXPIRY (R141). -/
def execHeartbeatExpiry (t : Time) (link : Nat) (s : State) : Stepped :=
  .next (finish (heartbeatExpires link (s.comeTo t)))

/-- Link `k`'s silence watch expires: LINK_LOST begins, if it is not active (R128, R146). Its reaction is what
the Block Controller does (R161). -/
def silenceExpires (k : Nat) (s : State) : State :=
  if due s (s.link k).silenceAt then
    let lost := (s.link k).lost
    (s.modLink k fun l => { l with silenceAt := none, lost := true })
      |> when (!lost) (beginCause 16 (some k) (farViewLost k) (lineLost k .linkLost))
  else s

/-- SILENCE_WATCH_EXPIRY (R146). -/
def execSilenceWatchExpiry (t : Time) (link : Nat) (s : State) : Stepped :=
  .next (finish (silenceExpires link (s.comeTo t)))

/-! ### The loopback test (R148) -/

/-- What follows a step of link `k`'s loopback test: a test that has ended gives its result to the
start or to the command that asked for it (R148, R167). -/
def afterLoopback (k : Nat) (r : LoopbackStep) : State :=
  match r.2 with
  | none => r.1
  | some (.start, _) => startAfterLink k r.1
  | some (.host w, data) => endWait w (doneResult 0x50 data) r.1

/-- LOOPBACK_FRAME_TIMER (R148). -/
def execLoopbackFrameTimer (t : Time) (link : Nat) (s : State) : Stepped :=
  .next (finish (loopbackSend link (s.comeTo t)))

/-- LOOPBACK_FRAME_ASSEMBLED (R148). -/
def execLoopbackFrameAssembled (t : Time) (link : Nat) (bytes : List Byte) (s : State) : Stepped :=
  .next (finish (afterLoopback link (loopbackTake link bytes (s.comeTo t))))

/-- LOOPBACK_FRAME_TIMEOUT (R148). -/
def execLoopbackFrameTimeout (t : Time) (link : Nat) (s : State) : Stepped :=
  .next (finish (afterLoopback link (loopbackLate link (s.comeTo t))))

end Sys2Proof.Machine
end

