-- ==== Sys2Proof/Machine/MonitorRows.lean ====
section
/-! DEFINITION. The rows of box time, the short-period tests and the image writes (R157, R168,
R181). -/

namespace Sys2Proof.Machine

/-- Box time one tenth of a second later (R157). -/
def Register.tick (r : Register) : Register :=
  if r.tenths < 863999 then { r with tenths := r.tenths + 1 }
  else { r with tenths := 0, day := (r.day + 1) % 65536 }

/-- Box time increases where its next increase has come; the one after follows a tenth of a second later
(R157). -/
def takeTick (s : State) : State :=
  if s.tickAt ≤ s.now then { s.modRegister Register.tick with tickAt := s.tickAt + 100 } else s

/-- BOX_TIME_TICK (R157). -/
def execBoxTimeTick (t : Time) (s : State) : Stepped := .next (finish (takeTick (s.comeTo t)))

/-- A periodic signature check is made; the next is due 10 s later (R168). -/
def periodicSignature (s : State) : State :=
  (checkSignature s).modFaults fun f =>
    { f with checkWaiting := false, signatureAt := some (s.now + 10000) }

/-- The signature check comes due: it is made, or waits for a write under way to end (R168). -/
def signatureDue (s : State) : State :=
  if due s s.faults.signatureAt then
    if writing s then s.modFaults fun f => { f with checkWaiting := true } else periodicSignature s
  else s

/-- SIGNATURE_CHECK_DUE (R168). -/
def execSignatureCheckDue (t : Time) (s : State) : Stepped :=
  .next (finish (signatureDue (s.comeTo t)))

/-- The converter check comes due: both references are requested, and the next is due 5 s later
(R168). -/
def converterDue (s : State) : State :=
  match s.faults.converterAt with
  | none => s
  | some t =>
    if t ≤ s.now then
      (s.modFaults fun f => { f with converterAt := some (t + 5000) })
        |> requestReferences .periodic
    else s

/-- CONVERTER_CHECK_DUE (R168). -/
def execConverterCheckDue (t : Time) (s : State) : Stepped :=
  .next (finish (converterDue (s.comeTo t)))

/-! ### Image writes (R181) -/

/-- The command code whose write a patch is. -/
def Patch.command : Patch → Nat
  | .whole _ => 0x83
  | .takeOut _ => 0x12
  | .bringIn .. => 0x13
  | .code .. => 0x81
  | .fields .. => 0x85

/-- What the blocks take when a write has ended (R73, R107). -/
def afterWrite (p : Patch) (s : State) : State :=
  match p with
  | .bringIn k l => broughtIn k l s
  | .code .. => s.modTables p.apply
  | _ => s

/-- The write under way ends: the image has its new signature, the command that waited replies, and a
waiting signature check is made (R168, R181). -/
def writeEnds (s : State) : State :=
  match s.store.jobs with
  | [] => s
  | j :: js =>
    let w := s.store.written j.patch
    (s.modStore fun st => { st with stored := some w, imageState := .good, jobs := js })
      |> afterWrite j.patch
      |> (match j.waiter with
          | some x => endWait x (doneResult j.patch.command (be32 w.signature))
          | none => id)
      |> when s.faults.checkWaiting periodicSignature

/-- IMAGE_WRITE_COMPLETE (R181). -/
def execImageWriteComplete (t : Time) (s : State) : Stepped :=
  .next (finish (writeEnds (s.comeTo t)))

end Sys2Proof.Machine
end

