-- ==== Sys2Proof/Machine/ResetRows.lean ====
section
/-! DEFINITION. The rows POWER_UP_RESET and WARM_START (R182). -/

namespace Sys2Proof.Machine

/-- POWER_UP_RESET (R182). -/
def execPowerUpReset (s : State) : Stepped := .next (finish (powerUp s))

/-- WARM_START (R179, R182): taken once the reply that ended the batch has been sent. -/
def warmStartIfDue (s : State) : State :=
  match s.host.warm with
  | some ⟨cause, true⟩ => finish (warmStart cause s)
  | _ => s

/-- WARM_START (R182). -/
def execWarmStart (s : State) : Stepped := .next (warmStartIfDue s)

end Sys2Proof.Machine
end

