-- ==== Sys2Proof/Machine/TrackRows.lean ====
section
/-! DEFINITION. The rows of the track channels and the converter (chapter 1). -/

namespace Sys2Proof.Machine

/-- Whether a number is that of a circuit. -/
def isCircuit (k : Nat) : Bool := within k 24

/-- The envelope of circuit `k` rises past the detect threshold (R2, R20). -/
def pulseRises (k : Nat) (s : State) : State :=
  if isCircuit k && !(s.circuit k).above then
    (s.modCircuit k fun c => { c with above := true, candidate := some s.now }) |> abandonWiring k
  else s

/-- PULSE_RISING_EDGE (R2). -/
def execPulseRisingEdge (t : Time) (circuit : Nat) (s : State) : Stepped :=
  .next (finish (pulseRises circuit (s.comeTo t)))

/-- The envelope of circuit `k` falls below the detect threshold: an open candidate is decided (R3).
One that has been open longer than 1000 ms is noise. -/
def pulseFalls (k : Nat) (s : State) : State :=
  let rise := (s.circuit k).candidate
  let s := s.modCircuit k fun c => { c with above := false }
  match rise with
  | none => s
  | some r =>
    if s.now < r + 20 ∨ r + 1000 < s.now then discardCandidate k s else acceptCandidate k r s

/-- PULSE_FALLING_EDGE (R3). -/
def execPulseFallingEdge (t : Time) (circuit : Nat) (s : State) : Stepped :=
  .next (finish (pulseFalls circuit (s.comeTo t)))

/-- A candidate of circuit `k` open for 1000 ms is discarded as noise (R3). -/
def candidateTimesOut (k : Nat) (s : State) : State :=
  if (s.circuit k).candidate.any fun r => decide (r + 1000 ≤ s.now) then discardCandidate k s else s

/-- CANDIDATE_TIMEOUT (R3). -/
def execCandidateTimeout (t : Time) (circuit : Nat) (s : State) : Stepped :=
  .next (finish (candidateTimesOut circuit (s.comeTo t)))

/-- Whether the decision on a loss of code waits for a candidate that rose in time (R5). -/
def lossWaits (c : Circuit) : Bool :=
  match c.candidate, c.codeLostAt with
  | some r, some t => decide (r ≤ t)
  | _, _ => false

/-- The code-lost compare of circuit `k` has expired (R5). -/
def codeLostExpires (k : Nat) (s : State) : State :=
  if lossDue s k && !lossWaits (s.circuit k) then takeCodeLost k s else s

/-- CODE_LOST (R5). -/
def execCodeLost (t : Time) (circuit : Nat) (s : State) : Stepped :=
  .next (finish (codeLostExpires circuit (s.comeTo t)))

/-- The most counts the converter reads: it has 12 bits. -/
def fullScale : Nat := 4095

/-- A pulse-end conversion ends with amplitude `a` (R6, R7, R19, R23). -/
def pulseConverted (a : Nat) (s : State) : State :=
  match s.converter.busy with
  | some (.pulse k) =>
    let pulse := (s.circuit k).pulse
    let s := (s.modConverter Converter.finish).modCircuit k fun c => { c with pulse := none }
    match pulse with
    | none => s
    | some p =>
      s |> when (trackRuns s k) (classifyPulse k a p) |> learnPulse k a p |> startWiring k
  | _ => s

/-- PULSE_END_CONVERSION_COMPLETE (R7). -/
def execPulseEndConversionComplete (t : Time) (amplitude : Nat) (s : State) : Stepped :=
  .next (finish (pulseConverted (min amplitude fullScale) (s.comeTo t)))

/-- A wiring test of circuit `k` is due: it starts where there is no code to wait for (R19). One that has been
abandoned is still due: R20 retries it at the next accepted pulse, and a further row of this kind starts it
again before that where there is still no code, which is the model's (log entry 20). -/
def wiringDue (k : Nat) (s : State) : State :=
  if (s.circuit k).previousRise.isNone then startWiring k s else s

/-- WIRING_TEST_DUE (R19). -/
def execWiringTestDue (t : Time) (circuit : Nat) (s : State) : Stepped :=
  .next (finish (wiringDue circuit (s.comeTo t)))

/-- The load time of circuit `k`'s wiring test ends: its conversion is requested (R20). -/
def wiringLoaded (k : Nat) (s : State) : State :=
  if (s.circuit k).wiringOpen && due s (s.circuit k).loadEnd then
    (s.modCircuit k fun c => { c with loadEnd := none })
      |> (·.modConverter fun v => v.request (.wiring k))
  else s

/-- WIRING_LOAD_TIME_END (R20). -/
def execWiringLoadTimeEnd (t : Time) (circuit : Nat) (s : State) : Stepped :=
  .next (finish (wiringLoaded circuit (s.comeTo t)))

/-- A wiring test conversion ends with a reading; the result of an abandoned test is discarded (R20,
R21). -/
def wiringConverted (reading : Nat) (s : State) : State :=
  match s.converter.busy with
  | some (.wiring k) =>
    let discard := s.converter.discard
    let s := s.modConverter Converter.finish
    if discard then s else judgeWiring k reading s
  | _ => s

/-- WIRING_CONVERSION_COMPLETE (R21). -/
def execWiringConversionComplete (t : Time) (reading : Nat) (s : State) : Stepped :=
  .next (finish (wiringConverted (min reading fullScale) (s.comeTo t)))

/-- The byte of a test result: PASS 0, FAIL 1 (R169). -/
def resultByte (passed : Bool) : Byte := if passed then 0 else 1

/-- What follows the end of a converter test, by its purpose (R167, R168, R169). -/
def afterConverterTest (t : ConverterTest) (passed : Bool) (s : State) : State :=
  match t with
  | .startUp => startAfterConverter s
  | .periodic => s
  | .table w signature =>
    s |> testEvaluators
      |> endWait w (doneResult 0x50 [resultByte signature, resultByte passed, resultByte evaluatorTest])

/-- The result of a test's low reference, and the results kept of other tests. -/
def takeLow (t : ConverterTest) : List (ConverterTest × Bool) → Bool × List (ConverterTest × Bool)
  | [] => (false, [])
  | r :: rs => if r.1 = t then (r.2, rs) else let q := takeLow t rs; (q.1, r :: q.2)

/-- A reference conversion ends with a reading; the high one ends its test (R167). -/
def referenceConverted (reading : Nat) (s : State) : State :=
  match s.converter.busy with
  | some (.reference high test) =>
    let passed := referencePasses high reading
    let s := s.modConverter Converter.finish
    if high then
      let low := takeLow test s.converter.lowResults
      let passed := low.1 && passed
      (s.modConverter fun c => { c with lowResults := low.2 })
        |> endConverterCheck passed
        |> afterConverterTest test passed
    else s.modConverter fun c => { c with lowResults := c.lowResults ++ [(test, passed)] }
  | _ => s

/-- REFERENCE_CONVERSION_COMPLETE (R167). -/
def execReferenceConversionComplete (t : Time) (reading : Nat) (s : State) : Stepped :=
  .next (finish (referenceConverted (min reading fullScale) (s.comeTo t)))

end Sys2Proof.Machine
end

