-- ==== Sys2Proof/Machine/Dispatch.lean ====
section
/-! DEFINITION. One arm for each row of the opcode table: a direct call of its meaning. -/

namespace Sys2Proof.Machine

/-- The effect of a command or event on everything but the queue of those that wait. -/
def exec (i : Instr) (s : State) : Host.Outcome State Fault Refusal :=
  match i with
  | .powerUpReset => Sys2Proof.Machine.execPowerUpReset s
  | .warmStart => Sys2Proof.Machine.execWarmStart s
  | .hostRequestFrame t bytes => Sys2Proof.Machine.execHostRequestFrame t bytes s
  | .hostInterbyteTimeout t => Sys2Proof.Machine.execHostInterbyteTimeout t s
  | .hostFrameSent t => Sys2Proof.Machine.execHostFrameSent t s
  | .readTracks t first count => Sys2Proof.Machine.execReadTracks t first count s
  | .testTrack t flag circuit wanted => Sys2Proof.Machine.execTestTrack t flag circuit wanted s
  | .learnReference t circuit => Sys2Proof.Machine.execLearnReference t circuit s
  | .readLevers t first count => Sys2Proof.Machine.execReadLevers t first count s
  | .testLever t flag lever wanted => Sys2Proof.Machine.execTestLever t flag lever wanted s
  | .takeOutOfUse t lever => Sys2Proof.Machine.execTakeOutOfUse t lever s
  | .bringIntoUse t lever => Sys2Proof.Machine.execBringIntoUse t lever s
  | .readHolds t first count => Sys2Proof.Machine.execReadHolds t first count s
  | .testHold t flag hold wanted => Sys2Proof.Machine.execTestHold t flag hold wanted s
  | .readReleases t first count => Sys2Proof.Machine.execReadReleases t first count s
  | .requestRelease t release => Sys2Proof.Machine.execRequestRelease t release s
  | .cancelRelease t release => Sys2Proof.Machine.execCancelRelease t release s
  | .sendCode t link groups => Sys2Proof.Machine.execSendCode t link groups s
  | .readLines t first count => Sys2Proof.Machine.execReadLines t first count s
  | .testLine t flag line wanted => Sys2Proof.Machine.execTestLine t flag line wanted s
  | .runTestLink t link => Sys2Proof.Machine.execRunTestLink t link s
  | .runTestTable t => Sys2Proof.Machine.execRunTestTable t s
  | .readRegister t count => Sys2Proof.Machine.execReadRegister t count s
  | .advanceRegister t count => Sys2Proof.Machine.execAdvanceRegister t count s
  | .setClock t day tenths => Sys2Proof.Machine.execSetClock t day tenths s
  | .readFaults t first count => Sys2Proof.Machine.execReadFaults t first count s
  | .testFault t flag source subject wanted => Sys2Proof.Machine.execTestFault t flag source subject wanted s
  | .clearFault t source subject => Sys2Proof.Machine.execClearFault t source subject s
  | .resume t => Sys2Proof.Machine.execResume t s
  | .openEdit t => Sys2Proof.Machine.execOpenEdit t s
  | .writeTable t table record fields => Sys2Proof.Machine.execWriteTable t table record fields s
  | .readTable t table record => Sys2Proof.Machine.execReadTable t table record s
  | .commit t => Sys2Proof.Machine.execCommit t s
  | .abandonEdit t => Sys2Proof.Machine.execAbandonEdit t s
  | .stage t table record field value => Sys2Proof.Machine.execStage t table record field value s
  | .readStatus t => Sys2Proof.Machine.execReadStatus t s
  | .warmReset t => Sys2Proof.Machine.execWarmReset t s
  | .imageWriteComplete t => Sys2Proof.Machine.execImageWriteComplete t s
  | .pulseRisingEdge t circuit => Sys2Proof.Machine.execPulseRisingEdge t circuit s
  | .pulseFallingEdge t circuit => Sys2Proof.Machine.execPulseFallingEdge t circuit s
  | .candidateTimeout t circuit => Sys2Proof.Machine.execCandidateTimeout t circuit s
  | .codeLost t circuit => Sys2Proof.Machine.execCodeLost t circuit s
  | .pulseEndConversionComplete t amplitude => Sys2Proof.Machine.execPulseEndConversionComplete t amplitude s
  | .wiringTestDue t circuit => Sys2Proof.Machine.execWiringTestDue t circuit s
  | .wiringLoadTimeEnd t circuit => Sys2Proof.Machine.execWiringLoadTimeEnd t circuit s
  | .wiringConversionComplete t reading => Sys2Proof.Machine.execWiringConversionComplete t reading s
  | .referenceConversionComplete t reading => Sys2Proof.Machine.execReferenceConversionComplete t reading s
  | .pollPosition t => Sys2Proof.Machine.execPollPosition t s
  | .goodAnswer t board answer => Sys2Proof.Machine.execGoodAnswer t board answer s
  | .missedPoll t board => Sys2Proof.Machine.execMissedPoll t board s
  | .transitCompareExpiry t lever => Sys2Proof.Machine.execTransitCompareExpiry t lever s
  | .releaseTimerExpiry t release => Sys2Proof.Machine.execReleaseTimerExpiry t release s
  | .releaseLapse t release => Sys2Proof.Machine.execReleaseLapse t release s
  | .plungerCodeEnd t link => Sys2Proof.Machine.execPlungerCodeEnd t link s
  | .hostCodeStrokeEnd t link => Sys2Proof.Machine.execHostCodeStrokeEnd t link s
  | .hostCodeEnd t link => Sys2Proof.Machine.execHostCodeEnd t link s
  | .receiveTimeout t link => Sys2Proof.Machine.execReceiveTimeout t link s
  | .expectationDeadline t link => Sys2Proof.Machine.execExpectationDeadline t link s
  | .disagreementCompareExpiry t link => Sys2Proof.Machine.execDisagreementCompareExpiry t link s
  | .overdueExpiry t link => Sys2Proof.Machine.execOverdueExpiry t link s
  | .linkFrameReceived t link bytes => Sys2Proof.Machine.execLinkFrameReceived t link bytes s
  | .linkFrameAbandoned t link => Sys2Proof.Machine.execLinkFrameAbandoned t link s
  | .linkCollision t link => Sys2Proof.Machine.execLinkCollision t link s
  | .linkFrameSent t link => Sys2Proof.Machine.execLinkFrameSent t link s
  | .lineQuiet t link => Sys2Proof.Machine.execLineQuiet t link s
  | .backOffEnd t link => Sys2Proof.Machine.execBackOffEnd t link s
  | .answerTimerExpiry t link => Sys2Proof.Machine.execAnswerTimerExpiry t link s
  | .takenTimerExpiry t link => Sys2Proof.Machine.execTakenTimerExpiry t link s
  | .dataTimerExpiry t link => Sys2Proof.Machine.execDataTimerExpiry t link s
  | .retryTime t link => Sys2Proof.Machine.execRetryTime t link s
  | .lateStroke t link => Sys2Proof.Machine.execLateStroke t link s
  | .heartbeatExpiry t link => Sys2Proof.Machine.execHeartbeatExpiry t link s
  | .silenceWatchExpiry t link => Sys2Proof.Machine.execSilenceWatchExpiry t link s
  | .loopbackFrameTimer t link => Sys2Proof.Machine.execLoopbackFrameTimer t link s
  | .loopbackFrameAssembled t link bytes => Sys2Proof.Machine.execLoopbackFrameAssembled t link bytes s
  | .loopbackFrameTimeout t link => Sys2Proof.Machine.execLoopbackFrameTimeout t link s
  | .boxTimeTick t => Sys2Proof.Machine.execBoxTimeTick t s
  | .signatureCheckDue t => Sys2Proof.Machine.execSignatureCheckDue t s
  | .converterCheckDue t => Sys2Proof.Machine.execConverterCheckDue t s
  | .linkCharacterReceived t link char => Sys2Proof.Machine.execLinkCharacterReceived t link char s
  | .hostByteReceived t value => Sys2Proof.Machine.execHostByteReceived t value s

end Sys2Proof.Machine
end

