-- ==== Sys2Proof/Machine/Step.lean ====
section
/-! DEFINITION. One step of the 4812: the command at the front of the queue is taken. On an empty queue the
part takes the turn of its batch's next command, or idles (log entries 2 and 42). -/

namespace Sys2Proof.Machine

/-- One step: the first of the waiting commands and events is taken. -/
def step (s : State) : Host.Outcome State Fault Refusal :=
  match s.pending with
  | [] => .next (idle s)
  | i :: rest => exec i { s with pending := rest }

/-- The state with the command a word spells at the front of its queue. No row of the table has an
encoding, so no word spells one. -/
def State.withFetchWord (s : State) (nbits w : Nat) : State :=
  match decodeTableWord nbits w with
  | some i => { s with pending := i :: s.pending }
  | none => s

end Sys2Proof.Machine
end

