-- ==== Sys2Proof/WellFormed.lean ====
section
/-! DEFINITION. Which terms of `Instr` stand for a command or event that can reach the part: its
numbers name circuits, boards, levers, releases and links that exist, its readings fit the converter,
and the parameters of a host command fit the bytes that carry them. What a command refuses (R176 to
R188) is a matter of its meaning and not of its form. -/

namespace Sys2Proof

/-- A number of a record, 1 to `n`. -/
def numbered (n k : Nat) : Bool := decide (1 ≤ k) && decide (k ≤ n)

/-- A 1-byte parameter (R178). -/
def isByte (n : Nat) : Bool := decide (n < 256)

/-- A 2-byte parameter. -/
def isWord (n : Nat) : Bool := decide (n < 65536)

/-- A reading of the converter: 12 bits (section 1.1). -/
def isReading (n : Nat) : Bool := decide (n < 4096)

/-- An answer of a lever board gives its eight slots (R31). -/
def Answer.whole : Answer → Bool
  | .lever slots => slots.length == 8
  | .instrument .. => true

/-- The form of a command or event. -/
def Instr.wellFormed : Instr → Bool
  | .powerUpReset => true
  | .warmStart => true
  | .hostRequestFrame _ bytes => decide (bytes.length ≤ 244)
  | .hostInterbyteTimeout _ => true
  | .hostFrameSent _ => true
  | .readTracks _ first count => isByte first && isByte count
  | .testTrack _ flag circuit wanted => isByte flag && isByte circuit && isByte wanted
  | .learnReference _ circuit => isByte circuit
  | .readLevers _ first count => isByte first && isByte count
  | .testLever _ flag lever wanted => isByte flag && isByte lever && isByte wanted
  | .takeOutOfUse _ lever => isByte lever
  | .bringIntoUse _ lever => isByte lever
  | .readHolds _ first count => isByte first && isByte count
  | .testHold _ flag hold wanted => isByte flag && isByte hold && isByte wanted
  | .readReleases _ first count => isByte first && isByte count
  | .requestRelease _ release => isByte release
  | .cancelRelease _ release => isByte release
  | .sendCode _ link groups => isByte link && groups.all isByte && decide (groups.length ≤ 58)
  | .readLines _ first count => isByte first && isByte count
  | .testLine _ flag line wanted => isByte flag && isByte line && isByte wanted
  | .runTestLink _ link => isByte link && decide (1 ≤ link)
  | .runTestTable _ => true
  | .readRegister _ count => isByte count
  | .advanceRegister _ count => isWord count
  | .setClock _ day tenths => isWord day && decide (tenths < 16777216)
  | .readFaults _ first count => isByte first && isByte count
  | .testFault _ flag source subject wanted =>
    isByte flag && isByte source && isByte subject && isByte wanted
  | .clearFault _ source subject => isByte source && isByte subject
  | .resume _ => true
  | .openEdit _ => true
  | .writeTable _ table record fields =>
    isByte table && isWord record && decide (fields.length ≤ 57)
  | .readTable _ table record => isByte table && isWord record
  | .commit _ => true
  | .abandonEdit _ => true
  | .stage _ table record field value =>
    isByte table && isWord record && isByte field && decide (value.length ≤ 56)
  | .readStatus _ => true
  | .warmReset _ => true
  | .imageWriteComplete _ => true
  | .pulseRisingEdge _ circuit => numbered 24 circuit
  | .pulseFallingEdge _ circuit => numbered 24 circuit
  | .candidateTimeout _ circuit => numbered 24 circuit
  | .codeLost _ circuit => numbered 24 circuit
  | .pulseEndConversionComplete _ amplitude => isReading amplitude
  | .wiringTestDue _ circuit => numbered 24 circuit
  | .wiringLoadTimeEnd _ circuit => numbered 24 circuit
  | .wiringConversionComplete _ reading => isReading reading
  | .referenceConversionComplete _ reading => isReading reading
  | .pollPosition _ => true
  | .goodAnswer _ board answer => numbered 11 board && answer.whole
  | .missedPoll _ board => numbered 11 board
  | .transitCompareExpiry _ lever => numbered 64 lever
  | .releaseTimerExpiry _ release => numbered 16 release
  | .releaseLapse _ release => numbered 16 release
  | .plungerCodeEnd _ link => numbered 3 link
  | .hostCodeStrokeEnd _ link => numbered 3 link
  | .hostCodeEnd _ link => numbered 3 link
  | .receiveTimeout _ link => numbered 3 link
  | .expectationDeadline _ link => numbered 3 link
  | .disagreementCompareExpiry _ link => numbered 3 link
  | .overdueExpiry _ link => numbered 3 link
  | .linkFrameReceived _ link bytes => numbered 3 link && decide (bytes.length ≤ 37)
  | .linkFrameAbandoned _ link => numbered 3 link
  | .linkCollision _ link => numbered 3 link
  | .linkFrameSent _ link => numbered 3 link
  | .lineQuiet _ link => numbered 3 link
  | .backOffEnd _ link => numbered 3 link
  | .answerTimerExpiry _ link => numbered 3 link
  | .takenTimerExpiry _ link => numbered 3 link
  | .dataTimerExpiry _ link => numbered 3 link
  | .retryTime _ link => numbered 3 link
  | .lateStroke _ link => numbered 3 link
  | .heartbeatExpiry _ link => numbered 3 link
  | .silenceWatchExpiry _ link => numbered 3 link
  | .loopbackFrameTimer _ link => numbered 3 link
  | .loopbackFrameAssembled _ link bytes => numbered 3 link && decide (bytes.length ≤ 37)
  | .loopbackFrameTimeout _ link => numbered 3 link
  | .boxTimeTick _ => true
  | .signatureCheckDue _ => true
  | .converterCheckDue _ => true
  | .linkCharacterReceived _ link _ => numbered 3 link
  | .hostByteReceived _ _ => true

/-- The running time a row is taken at; none for the two resets, which start it afresh (log entry
1). -/
def Instr.time : Instr → Option Time
  | .powerUpReset => none
  | .warmStart => none
  | .hostRequestFrame t _ => some t
  | .hostInterbyteTimeout t => some t
  | .hostFrameSent t => some t
  | .readTracks t _ _ => some t
  | .testTrack t _ _ _ => some t
  | .learnReference t _ => some t
  | .readLevers t _ _ => some t
  | .testLever t _ _ _ => some t
  | .takeOutOfUse t _ => some t
  | .bringIntoUse t _ => some t
  | .readHolds t _ _ => some t
  | .testHold t _ _ _ => some t
  | .readReleases t _ _ => some t
  | .requestRelease t _ => some t
  | .cancelRelease t _ => some t
  | .sendCode t _ _ => some t
  | .readLines t _ _ => some t
  | .testLine t _ _ _ => some t
  | .runTestLink t _ => some t
  | .runTestTable t => some t
  | .readRegister t _ => some t
  | .advanceRegister t _ => some t
  | .setClock t _ _ => some t
  | .readFaults t _ _ => some t
  | .testFault t _ _ _ _ => some t
  | .clearFault t _ _ => some t
  | .resume t => some t
  | .openEdit t => some t
  | .writeTable t _ _ _ => some t
  | .readTable t _ _ => some t
  | .commit t => some t
  | .abandonEdit t => some t
  | .stage t _ _ _ _ => some t
  | .readStatus t => some t
  | .warmReset t => some t
  | .imageWriteComplete t => some t
  | .pulseRisingEdge t _ => some t
  | .pulseFallingEdge t _ => some t
  | .candidateTimeout t _ => some t
  | .codeLost t _ => some t
  | .pulseEndConversionComplete t _ => some t
  | .wiringTestDue t _ => some t
  | .wiringLoadTimeEnd t _ => some t
  | .wiringConversionComplete t _ => some t
  | .referenceConversionComplete t _ => some t
  | .pollPosition t => some t
  | .goodAnswer t _ _ => some t
  | .missedPoll t _ => some t
  | .transitCompareExpiry t _ => some t
  | .releaseTimerExpiry t _ => some t
  | .releaseLapse t _ => some t
  | .plungerCodeEnd t _ => some t
  | .hostCodeStrokeEnd t _ => some t
  | .hostCodeEnd t _ => some t
  | .receiveTimeout t _ => some t
  | .expectationDeadline t _ => some t
  | .disagreementCompareExpiry t _ => some t
  | .overdueExpiry t _ => some t
  | .linkFrameReceived t _ _ => some t
  | .linkFrameAbandoned t _ => some t
  | .linkCollision t _ => some t
  | .linkFrameSent t _ => some t
  | .lineQuiet t _ => some t
  | .backOffEnd t _ => some t
  | .answerTimerExpiry t _ => some t
  | .takenTimerExpiry t _ => some t
  | .dataTimerExpiry t _ => some t
  | .retryTime t _ => some t
  | .lateStroke t _ => some t
  | .heartbeatExpiry t _ => some t
  | .silenceWatchExpiry t _ => some t
  | .loopbackFrameTimer t _ => some t
  | .loopbackFrameAssembled t _ _ => some t
  | .loopbackFrameTimeout t _ => some t
  | .boxTimeTick t => some t
  | .signatureCheckDue t => some t
  | .converterCheckDue t => some t
  | .linkCharacterReceived t _ _ => some t
  | .hostByteReceived t _ => some t

end Sys2Proof
end

