-- ==== Sys2Proof/Safety.lean ====
section
/-! DEFINITION. The terms in which statements about runs of the 4812 are made: what the end of a step
may touch, what it leaves alone, and the invariants that the manual's prose promises of the whole
part. -/

namespace Sys2Proof.Machine

/-! ### What the end of every step leaves alone -/

/-- No lever has a disagreement of the two evaluators standing or still to be reported (R59, log entry
10). -/
abbrev State.Undisputed (s : State) : Prop :=
  ∀ l ∈ s.levers, l.mismatch = false ∧ l.mismatchDue = false

/-- A release timer but for its staged values. -/
def Timer.kept (t : Timer) : Timer := { t with staged := [] }

/-- The bell records of a link but for the staged values. -/
def Bell.kept (b : Bell) : Bell := { b with staged := [] }

/-- An outbound line but for its staged value. -/
def Outbound.kept (o : Outbound) : Outbound := { o with staged := [] }

/-- A link but for what a link that starts a frame changes, and for its staged values. -/
def Link.kept (l : Link) : Link :=
  { l with state := .idle, sending := none, answer := none, answerAt := none, staged := [] }

/-- The store but for the tables in force and the writes that reload points make due. -/
def Store.kept (st : Store) : Store := { st with inForce := none, jobs := [] }

/-- The Host Port but for its transmitter. -/
def HostPort.kept (h : HostPort) : HostPort := { h with sending := none, ready := [], notices := [] }

/-- No circuit, release, link or line has a staged value pending (R187). -/
abbrev State.NoneStaged (s : State) : Prop :=
  (∀ c ∈ s.circuits, c.staged = []) ∧ (∀ t ∈ s.timers, t.staged = []) ∧ (∀ b ∈ s.bells, b.staged = [])
    ∧ (∀ o ∈ s.outbound, o.staged = []) ∧ ∀ l ∈ s.links, l.staged = []

/-- The parts of the state, each a group of records that the manual gives one owner. -/
inductive Part where
  | mode | store | tracks | converter | boards | levers | instruments | holds | timers | bells
  | inbound | outbound | links | register | faults | batch | receiver | result
  | boxTime | transmitter
  deriving DecidableEq, Repr

/-- A part is the same in two states, but for what the end of every step may do to it: staged values
that reach their reload point, with the tables in force and the writes they make due; a frame that a
link starts; and the transmitter and the notices of the Host Port. -/
def Part.same (p : Part) (s u : State) : Prop :=
  match p with
  | .mode => u.mode = s.mode ∧ u.start = s.start
  | .store => u.store.kept = s.store.kept
  | .tracks => u.circuits = s.circuits
  | .converter => u.converter = s.converter
  | .boards => u.boards = s.boards ∧ u.scan = s.scan ∧ u.polled = s.polled
  | .levers => u.levers = s.levers
  | .instruments => u.instruments = s.instruments
  | .holds => u.holds = s.holds
  | .timers => u.timers.map Timer.kept = s.timers.map Timer.kept
  | .bells => u.bells.map Bell.kept = s.bells.map Bell.kept
  | .inbound => u.inbound = s.inbound
  | .outbound => u.outbound.map Outbound.kept = s.outbound.map Outbound.kept
  | .links => u.links.map Link.kept = s.links.map Link.kept
  | .register => u.register = s.register
  | .faults => u.faults = s.faults
  | .batch =>
    u.host.executing = s.host.executing ∧ u.host.waiting = s.host.waiting
      ∧ u.host.flags = s.host.flags ∧ u.host.warm = s.host.warm
  | .receiver => u.host.receiving = s.host.receiving
  | .result => u.host.lastResult = s.host.lastResult
  | .boxTime => u.tickAt = s.tickAt
  | .transmitter => True

/-- Whether no change of a part raises a notice of the Host Port or makes a frame of it ready. -/
def Part.silent : Part → Bool
  | .store | .converter | .boards | .instruments | .links | .batch | .receiver | .result | .boxTime =>
    true
  | _ => false

/-- Every part but those listed is the same in two states, and so are the queue and the count of free
values. -/
def KeptParts (ps : List Part) (s u : State) : Prop :=
  u.pending = s.pending ∧ u.freeCount = s.freeCount ∧ ∀ p, p ∉ ps → p.same s u

/-- The transmitter of the Host Port is as it was, but for the frame that the end of a step chooses (R174,
R180): no reply and no notice has joined it. -/
def HostQuiet (s u : State) : Prop :=
  let h := chooseFrame u.start.isNone
    { u.host with sending := s.host.sending, ready := s.host.ready, notices := s.host.notices }
  u.host.sending = h.sending ∧ u.host.ready = h.ready ∧ u.host.notices = h.notices

/-- Every part but those listed is the same in two states, with the queue and the count of free values;
and where no staged value is pending in the first, the store is exactly the same, unless it is listed, and
no notice is raised and no frame made ready, unless a part is listed that may do it. -/
def KeptBut (ps : List Part) (s u : State) : Prop :=
  KeptParts ps s u
    ∧ (s.NoneStaged →
        (.store ∉ ps → u.store = s.store) ∧ ((∀ p ∈ ps, p.silent = true) → HostQuiet s u))

/-- Row `i` finds no turn of a batch to be taken before it: none has come, or the row is not later than the
running time (R177, log entry 42). Any other row is taken at a state that meets this, after the turns. -/
abbrev State.Prompt (s : State) (i : Instr) : Prop :=
  turnDue s = none ∨ ∀ t, i.time = some t → t ≤ s.now

/-- Row `i`, taken at `s` with no turn of a batch to be taken before it, answers a next state at the row's
running time, in which every part but those listed is the same and `P` holds. -/
def Takes (i : Instr) (s : State) (ps : List Part) (P : State → Prop) : Prop :=
  s.Prompt i → ∃ u, exec i s = .next u ∧ (∀ t, i.time = some t → u.now = max s.now t) ∧ KeptBut ps s u ∧ P u

/-- Whether host commands are taken: the start is complete, no warm start is due, and nothing is left
to report (R175, R179). -/
abbrev State.Open (s : State) : Prop := s.start = none ∧ s.host.warm = none ∧ s.Undisputed

/-- Whether the last command row was answered DONE, with data. -/
def State.Gave (u : State) (code : Nat) (data : List Byte) : Prop :=
  u.host.lastResult = some (doneResult code data)

/-- Whether the last command row was refused, with a reason. -/
def State.Refused (u : State) (code : Nat) (r : RefuseReason) : Prop :=
  u.host.lastResult = some (refusedResult code r [])

/-- Whether flag `f` of the batch, and no other flag, is set to `v`, with nothing else of the batch
changed. -/
def State.SetsFlag (u s : State) (f : Nat) (v : Bool) : Prop :=
  u.host.flags = s.host.flags.set f v ∧ u.host.executing = s.host.executing
    ∧ u.host.waiting = s.host.waiting ∧ u.host.warm = s.host.warm

/-- Pending values of a record are in force in the second state, with the write that they make due queued
behind those due in the first (R187). -/
def Applied (table record : Nat) (vs : List (Nat × Nat)) (s u : State) : Prop :=
  u.store.inForce = s.store.inForce.map (fun i => i.setFields table record vs)
    ∧ u.store.jobs = s.store.jobs ++ [⟨.fields table record vs, none⟩]

/-- A command of batch `b`, followed by the commands `later`, has its result `r` in the second state: the turn
of the next command has come, `skip` saying whether that is the companion of a SKIPPED one, or, after the
last command, the reply is ready, and the executing place is empty, or the batch of the request that waited
has begun there (R175, R177). -/
def GivenResult (b : Batch) (later : List Command) (r : CmdResult) (skip : Bool) (s u : State) : Prop :=
  (later ≠ [] →
      u.host.waiting = s.host.waiting
        ∧ u.host.executing = some { b with
          results := b.results ++ [r], awaited := none, rest := later, skip := skip })
    ∧ (later = [] →
      u.host.waiting = none
        ∧ u.host.executing = (s.host.waiting.map fun w =>
          { tag := w.tag, halt := w.halt, count := w.commands.length, rest := w.commands })
        ∧ (s.host.waiting ≠ none → u.host.flags = List.replicate 8 false)
        ∧ u.host.ready
          = s.host.ready ++ [⟨.reply, b.tag, replyPayload (b.results ++ [r]), false⟩])

/-- Every circuit but `k` is the same in two states. -/
def OtherCircuits (k : Nat) (s u : State) : Prop := ∀ j, j ≠ k → u.circuit j = s.circuit j

/-- Every lever but `k` is the same in two states. -/
def OtherLevers (k : Nat) (s u : State) : Prop := ∀ j, j ≠ k → u.lever j = s.lever j

/-- Every hold but `k` is the same in two states. -/
def OtherHolds (k : Nat) (s u : State) : Prop := ∀ j, j ≠ k → u.hold j = s.hold j

/-- Every release timer but `k` is the same in two states, but for staged values. -/
def OtherTimers (k : Nat) (s u : State) : Prop :=
  ∀ j, j ≠ k → (u.timer j).kept = (s.timer j).kept

/-- The bell records of every link but `k` are the same in two states, but for staged values. -/
def OtherBells (k : Nat) (s u : State) : Prop := ∀ j, j ≠ k → (u.bell j).kept = (s.bell j).kept

/-- Every inbound line but link `k`'s is the same in two states. -/
def OtherInbound (k : Nat) (s u : State) : Prop := ∀ j, j ≠ k → u.inb j = s.inb j

/-- Every outbound line but link `k`'s is the same in two states, but for staged values. -/
def OtherOutbound (k : Nat) (s u : State) : Prop :=
  ∀ j, j ≠ k → (u.outb j).kept = (s.outb j).kept

/-- Every link but `k` is the same in two states, but for a frame it starts and staged values. -/
def OtherLinks (k : Nat) (s u : State) : Prop := ∀ j, j ≠ k → (u.link j).kept = (s.link j).kept

/-! ### Invariants -/

/-- The sequence numbers of a list of entries run consecutively, modulo 65 536, up to the one before
`next` (R151, R153). -/
def Consecutive : List Entry → Nat → Prop
  | [], _ => True
  | [e], next => (e.seq + 1) % 65536 = next
  | e :: f :: es, next => (e.seq + 1) % 65536 = f.seq ∧ Consecutive (f :: es) next

/-- The train register keeps its limits (R151, R153, R157). -/
def Register.Sound (r : Register) : Prop :=
  r.ring.length ≤ 256 ∧ r.unread ≤ r.ring.length ∧ r.nextSeq < 65536
    ∧ Consecutive r.ring r.nextSeq ∧ r.day < 65536 ∧ r.tenths < 864000

/-- The notice queue holds at most one notice for each key (R180). -/
abbrev HostPort.Sound (h : HostPort) : Prop := (h.notices.map (·.key)).Nodup

/-- The fault table holds at most one record for each source and subject, at most 32 in all, each
with a count of 1 to 255, and the overflow count is at most 255 (section 9.2, R162, R164). -/
abbrev Faults.Sound (f : Faults) : Prop :=
  (f.records.map fun r => (r.source, r.subject)).Nodup ∧ f.records.length ≤ 32
    ∧ (∀ r ∈ f.records, 1 ≤ r.count ∧ r.count ≤ 255) ∧ f.overflowCount ≤ 255

/-- The running record of a circuit keeps the ranges of section 1.1 (R9, R10, R12, R15, R17). -/
def Circuit.Sound (c : Circuit) : Prop :=
  c.g ≤ 15 ∧ c.bad ≤ 1 ∧ c.foreignEnd ≤ 10 ∧ c.overEnd ≤ 10
    ∧ (∀ l, c.lastL = some l → l ≤ 1999) ∧ (∀ l, c.lavg = some l → l ≤ 1999)

/-- An item of a DATA frame with its fields in the ranges of section 7.2. -/
def Item.Sound : Item → Prop
  | .stroke c _ n u => c ≤ 15 ∧ 1 ≤ n ∧ n ≤ 64 ∧ 8 ≤ u ∧ u ≤ 200
  | .codeEnd c n _ => c ≤ 15 ∧ 1 ≤ n ∧ n ≤ 64
  | .indication .. => True

/-- Every numbered record is there, and the batch has its eight flags (00_scope.md, Principal
numbers). -/
abbrev State.Whole (s : State) : Prop :=
  s.circuits.length = 24 ∧ s.boards.length = 11 ∧ s.levers.length = 64
    ∧ s.instruments.length = 3 ∧ s.holds.length = 16 ∧ s.timers.length = 16
    ∧ s.bells.length = 3 ∧ s.inbound.length = 3 ∧ s.outbound.length = 3 ∧ s.links.length = 3
    ∧ s.host.flags.length = 8

/-- Whether the coil command of a lever is one R61 allows in a mode: ON only while the lever is at
rest and free, or moving with a release held, and outside SERVICE only for a SIGNAL lever at rest in
REVERSE or moving with a release FROM_REVERSE. -/
def CoilAllowed (m : Mode) (l : Lever) : Prop :=
  l.coil = true →
    match m with
    | .service =>
      (l.settled.map Pos.atRest = some l.current ∧ l.free = true)
        ∨ (l.current = .moving ∧ l.held ≠ none)
    | .suspended | .editing =>
      l.type = .signal
        ∧ ((l.current = .reverse ∧ l.settled = some .reverse)
          ∨ (l.current = .moving ∧ l.held = some .reverse))
    | .unconfigured => False

end Sys2Proof.Machine
end

