-- ==== Sys2Proof/Certificates/Slice0/Obligations.lean ====
section
/-! DEFINITION. Statements about the 4812 for the provers, one definition each. Where a frame is stated,
`Takes i s ps P` says that row `i` answers a next state in which every part but those of `ps` is the same,
the parts being those of Safety.lean, and which meets `P`. A premise `s.Undisputed` says that no
disagreement of the evaluators is left to report; that none ever is from such a state is a statement of
its own. -/

open Sys2Proof Sys2Proof.Machine

/-! ### The queue and the outcomes -/

/-- A step runs the command at the front of the queue on the state with the queue's rest; on an empty
queue the part idles, which leaves the state as it is unless the turn of a batch's next command has come.
A row later than the running time, found with a turn due, runs as if it came after the turns that are left,
each an idle step; any other row finds the state at its own running time. That the commands wait in a queue,
that an empty one idles, and when the turns of a batch are taken, is the model's own (log entries 2 and
42). -/
def Obligations.StepRunsTheFrontCommand : Prop :=
  ∀ s : State,
    (∀ c rest, s.pending = c :: rest → step s = exec c { s with pending := rest })
      ∧ (s.pending = [] →
        step s = .next (idle s)
          ∧ (s.host.executing = none ∨ s.host.warm ≠ none
                ∨ (∃ b, s.host.executing = some b ∧ b.awaited ≠ none) →
              step s = .next s))
      ∧ ∀ c t, c.time = some t →
        exec c s = exec c (s.comeTo t)
          ∧ (turnDue s = none ∨ t ≤ s.now → s.comeTo t = s.atTime t)
          ∧ (turnDue s ≠ none → s.now < t →
            s.comeTo t = (takeTurns (turnsLeft s) s).atTime t
              ∧ takeTurns (turnsLeft s) s = takeTurns (turnsLeft s - 1) (idle s))

/-- Every row answers a next state, in every state and with any operands; the queue is left alone, and
the running time becomes the row's where that is later. That no row stops is the model's reading of the
manual, and that a row carries its time is its own (log entries 1 and 2). -/
def Obligations.EveryRowAnswersANextState : Prop :=
  ∀ (i : Instr) (s : State),
    ∃ u, exec i s = .next u ∧ u.pending = s.pending
      ∧ (∀ t, i.time = some t → u.now = max s.now t)

/-! ### Reset -/

/-- A power-up reset of a part whose storage holds no image, and no write under way, leaves the state
after reset, but for the queue and the count of free values, from whatever state it is taken. -/
def Obligations.PowerUpWithNoImageGivesTheResetState : Prop :=
  ∀ s : State, s.store.stored = none → s.store.jobs = [] →
    exec .powerUpReset s
      = .next { State.reset with pending := s.pending, freeCount := s.freeCount }

/-- The state after reset keeps every invariant stated of runs. -/
def Obligations.ResetStateKeepsEveryInvariant : Prop :=
  State.reset.register.Sound ∧ State.reset.host.Sound ∧ State.reset.faults.Sound
    ∧ (∀ c ∈ State.reset.circuits, c.Sound) ∧ State.reset.Whole ∧ State.reset.Undisputed
    ∧ State.reset.mode = some .unconfigured ∧ suspendStands State.reset = false
    ∧ (∀ l ∈ State.reset.levers, CoilAllowed State.reset.blockMode l)

/-- A power-up reset with a GOOD stored image starts every block afresh from the image: the register
holds the one RESET entry, stamped day 0, time 0; the fault table is empty; an enabled circuit is
OCCUPIED since 0 with nothing kept of its code, and any other DISABLED; a configured hold is HELD; every
timer is IDLE; a configured outbound line is BLOCKED with its guard set; no lever and no commutator has a
settled position; nothing is kept of codes; a configured link waits in LOOPBACK; and the start waits for
its converter test. That the test converts the low reference first, the high one waiting, is the model's
(log entry 24, DEDUCED: R167 does not order the two), and so is the slot that the frame map gives a SPARE
lever (log entry 36, DEDUCED). -/
def Obligations.PowerUpStartsEveryBlockAfresh : Prop :=
  ∀ (s : State) (st : Stored), s.store.stored = some st → st.good = true → s.store.jobs = [] →
    ∃ u, exec .powerUpReset s = .next u
      ∧ u.pending = s.pending ∧ u.freeCount = s.freeCount
      ∧ u.now = 0 ∧ u.mode = none ∧ u.start = some .converter
      ∧ u.store.stored = some st ∧ u.store.inForce = some st.image ∧ u.store.work = none
      ∧ u.register
          = { ring := [⟨0, 0, 0, .reset .supply⟩], unread := 1, nextSeq := 1, day := 0, tenths := 0 }
      ∧ u.faults = {}
      ∧ u.converter.busy = some (.reference false .startUp)
      ∧ u.converter.waiting = [.reference true .startUp]
      ∧ u.polled = none ∧ u.scan = 0
      ∧ u.host = { notices := [⟨.register, maskBit 16⟩] }
      ∧ (∀ k, within k 24 = true →
          u.circuit k
            = { state := if (st.image.track k).enabled then .occupied else .disabled })
      ∧ (∀ b, within b 11 = true → u.board b = { configured := st.image.board b })
      ∧ (∀ k, within k 64 = true →
          (u.lever k).current = .unknown ∧ (u.lever k).settled = none ∧ (u.lever k).held = none
            ∧ (u.lever k).free = false ∧ (u.lever k).coil = false
            ∧ (u.lever k).confinement = [] ∧ (u.lever k).slot = st.image.slotOf k
            ∧ (u.lever k).outOfUse = (st.image.lever k).altered)
      ∧ (∀ k, within k 16 = true →
          u.hold k = if (st.image.hold k).configured then ⟨some .held, some 0⟩ else {})
      ∧ u.timers = List.replicate 16 {} ∧ u.bells = List.replicate 3 {}
      ∧ u.instruments = List.replicate 3 {}
      ∧ (∀ k, within k 3 = true →
          u.inb k = { lastChange := if (st.image.link k).configured then some 0 else none }
            ∧ u.outb k
              = (if (st.image.link k).configured then
                  { state := some .blocked, lastChange := some 0 } else {})
            ∧ (u.link k).state = (if (st.image.link k).configured then .loopback else .outOfUse)
            ∧ (u.link k).queue = [])

/-- A warm start that is due, with a GOOD stored image, keeps the train register, with its RESET entry appended, box time, the
stored image, and the fault table as a warm reset makes it: self-clearing records removed, ACTIVE ones
LATCHED, reactions taken afresh from the image; every circuit starts without a code, OCCUPIED or FAILED;
and the Host Port starts empty. Where no warm start is due, the row changes nothing, which is the model's
(log entry 2, DESIGN CHOICE). Warm starts that find the image BLANK or BAD are left out. -/
def Obligations.WarmStartKeepsRegisterFaultsAndImage : Prop :=
  ∀ s : State,
    (∀ (c : ResetCause) (st : Stored), s.host.warm = some ⟨c, true⟩ → s.store.stored = some st →
        st.good = true →
        ∃ u, exec .warmStart s = .next u
          ∧ u.pending = s.pending ∧ u.freeCount = s.freeCount ∧ u.now = 0
          ∧ u.register = s.register.append (.reset c)
          ∧ u.faults.records
              = ((s.faults.records.filter fun r => !(source r.source).selfClearing).map fun r =>
                  { r with active := false, reaction := nth st.image.reactions .report r.source })
          ∧ u.faults.overflowCount = s.faults.overflowCount
          ∧ u.store.stored = some st ∧ u.store.inForce = some st.image
          ∧ u.mode = none ∧ u.start = some .converter
          ∧ u.host.executing = none ∧ u.host.waiting = none ∧ u.host.ready = []
          ∧ u.host.receiving = none ∧ u.host.warm = none
          ∧ (∀ k, within k 24 = true → (st.image.track k).enabled = true →
              (u.circuit k).state = (if (u.circuit k).confinement = [] then .occupied else .failed)
                ∧ (u.circuit k).previousRise = none ∧ (u.circuit k).g = 0
                ∧ (u.circuit k).occupiedSince = some 0))
      ∧ ((∀ c, s.host.warm ≠ some ⟨c, true⟩) → exec .warmStart s = .next s)

/-! ### Invariants that every step keeps -/

/-- The train register takes an entry as R153 gives: while it holds fewer than 256, the entry joins as the
newest and both counts grow; when it is full with a read entry, the oldest goes and the unread count
grows; when it is full of unread entries, the oldest is lost unread and both counts stay. The entry takes
the next sequence number and the box time. The unread entries are always the newest ones held, so that a
loss shows as a gap. The REGISTER key is raised with the bit of the entry's kind, and bit 31 at a loss,
into the notice already queued where there is one. Every step keeps the limits: at most 256 entries,
numbered consecutively modulo 65 536, and no more unread than held. -/
def Obligations.RegisterTakesEntriesWithinItsLimits : Prop :=
  (∀ s u : State, s.register.Sound → step s = .next u → u.register.Sound)
    ∧ ∀ (s u : State) (e : Event) (r : Register) (x : Entry) (lost : Bool), s.register.Sound →
        r = s.register → u = append e s → x = ⟨r.nextSeq, r.day, r.tenths, e⟩ →
        lost = decide (r.ring.length = 256 ∧ r.unread = 256) →
        u.register.Sound ∧ u.register.nextSeq = (r.nextSeq + 1) % 65536
          ∧ u.register.day = r.day ∧ u.register.tenths = r.tenths
          ∧ (r.ring.length < 256 →
              u.register.ring = r.ring ++ [x] ∧ u.register.unread = r.unread + 1)
          ∧ (r.ring.length = 256 → u.register.ring = r.ring.drop 1 ++ [x])
          ∧ (r.ring.length = 256 → r.unread < 256 → u.register.unread = r.unread + 1)
          ∧ (lost = true → u.register.unread = 256)
          ∧ r.unreadEntries.length = r.unread ∧ r.unreadEntries <:+ r.ring
          ∧ u.register.unreadEntries
            = (if lost then r.unreadEntries.drop 1 else r.unreadEntries) ++ [x]
          ∧ (∀ m, m = maskBit (e.kind - 1) ||| (if lost then maskBit 31 else 0) →
              u = raiseKey .register m { s with register := u.register }
                ∧ ((∀ n ∈ s.host.notices, n.key ≠ .register) →
                  u.host.notices = s.host.notices ++ [⟨.register, m⟩])
                ∧ ∀ before n after, s.host.notices = before ++ n :: after → n.key = .register →
                    (∀ q ∈ before, q.key ≠ .register) →
                    u.host.notices = before ++ ⟨.register, n.mask ||| m⟩ :: after)

/-- The notice queue holds at most one notice for each key through every step. A key raised that is not
queued joins the tail with its mask; one that is queued has its mask combined into the notice queued,
which keeps its place; and no other notice changes. -/
def Obligations.NoticeQueueHoldsOneNoticePerKey : Prop :=
  (∀ s u : State, s.host.Sound → step s = .next u → u.host.Sound)
    ∧ ∀ (key : Key) (mask : Word32) (ns : List Notice), (ns.map (·.key)).Nodup →
        ((∀ n ∈ ns, n.key ≠ key) → addNotice key mask ns = ns ++ [⟨key, mask⟩])
          ∧ ((∃ n ∈ ns, n.key = key) →
            addNotice key mask ns
              = ns.map fun n => if n.key = key then ⟨key, n.mask ||| mask⟩ else n)

/-- The fault table holds at most one record for each source and subject, and at most 32, through every
step, each with a count of 1 to 255; the overflow count is at most 255. -/
def Obligations.FaultTableKeepsItsLimits : Prop :=
  ∀ s u : State, s.faults.Sound → step s = .next u → u.faults.Sound

/-- Every circuit keeps the ranges of its good count, its bad count, its two end counts, its last level and
its smoothed level through every step, and every numbered record and flag stays there. -/
def Obligations.RecordsKeepTheirRanges : Prop :=
  ∀ s u : State, s.Whole → (∀ c ∈ s.circuits, c.Sound) → step s = .next u →
    u.Whole ∧ ∀ c ∈ u.circuits, c.Sound

/-- A track circuit enters CLEAR only from OCCUPIED, and only at the end of the conversion of one of its
own pulses, which is GOOD, at or above the pickup level and not above the over level, and brings its good
count to the pickup count, and only once its minimum occupancy time has passed. The row of the step is one
with no turn of a batch to be taken before it. That the time is compared at the end of the conversion is
DEDUCED (log entry 22). -/
def Obligations.ClearIsEnteredOnlyByPickup : Prop :=
  ∀ (s u : State) (k : Nat), (∀ i rest, s.pending = i :: rest → s.Prompt i) → step s = .next u →
    (u.circuit k).state = .clear → (s.circuit k).state ≠ .clear →
    (s.circuit k).state = .occupied
      ∧ ∃ (t : Time) (a : Nat) (rest : List Instr) (p : Pulse) (cfg : TrackCfg) (level : Nat),
        s.pending = .pulseEndConversionComplete t a :: rest
          ∧ s.converter.busy = some (.pulse k) ∧ (s.circuit k).pulse = some p
          ∧ cfg = s.tables.track k ∧ level = levelOf (min a 4095) cfg.aref
          ∧ classify p.period cfg.pnom (cfg.neighbours.map fun n => (s.tables.track n).pnom) = .good
          ∧ cfg.pickup ≤ level ∧ level ≤ cfg.overLevel
          ∧ cfg.pickupCount ≤ min ((s.circuit k).g + 1) 15
          ∧ u.now = max s.now t
          ∧ (s.circuit k).occupiedSince.getD 0 + cfg.minOccupancy * 100 ≤ u.now

/-- No disagreement of the two evaluators ever arises: from a state with none, no step leaves one. -/
def Obligations.EvaluatorsNeverDisagree : Prop :=
  ∀ s u : State, s.Undisputed → step s = .next u → u.Undisputed

/-- The mode is never SERVICE while a fault record, or the overflow record, stands with SUSPEND. When the
start-up tests have finished, the start ends in SERVICE where none stands and in SUSPENDED where one does,
with its MODE entry; the wiring tests of the enabled circuits are due one interval later, the first a
PULL-UP, the signature check 10 s later and the converter check 5 s later. The converter test of a start
that passes, and the loopback test of a link in a start, go on with the loopback test of the next link that
waits for one, the lowest first, and finish the tests where none waits. -/
def Obligations.NoSuspendStandsInService : Prop :=
  (∀ s u : State, (s.mode = some .service → suspendStands s = false) → step s = .next u →
      u.mode = some .service → suspendStands u = false)
    ∧ (∀ (s u : State) (m : Mode), s.Undisputed → s.circuits.length = 24 → u = testsFinished s →
        m = (if suspendStands s = true then .suspended else .service) →
        u.start = none ∧ u.mode = some m ∧ u.register = s.register.append (.mode s.mode m)
          ∧ u.faults = { s.faults with
              signatureAt := some (s.now + 10000), converterAt := some (s.now + 5000) }
          ∧ ∀ k, within k 24 = true →
            u.circuit k = if (s.circuit k).state = .disabled then s.circuit k else
              { s.circuit k with
                nextWiring := some (s.now + (s.tables.track k).wiringInterval * 1000)
                wiringKind := .pullUp })
    ∧ (∀ (s : State) (j : Nat), s.links.length = 3 →
        ((∀ k, within k 3 = true → j < k →
              s.linkOn k = false ∨ (s.link k).state ≠ .loopback) →
            startAfterLink j s = testsFinished s)
          ∧ ∀ k, within k 3 = true → j < k → s.linkOn k = true → (s.link k).state = .loopback →
            (∀ i, within i 3 = true → j < i → i < k →
              s.linkOn i = false ∨ (s.link i).state ≠ .loopback) →
            (startAfterLink j s).start = some (.link k)
              ∧ ((startAfterLink j s).link k).state = .loopback
              ∧ ((startAfterLink j s).link k).loopback
                = some { purpose := .start, startAt := some (s.now + 20) }
              ∧ (startAfterLink j s).mode = s.mode)
    ∧ ∀ (s : State) (t : Time) (n : Nat) (rest : List (ConverterTest × Bool)), s.Undisputed →
        s.circuits.length = 24 → s.links.length = 3 →
        s.converter.busy = some (.reference true .startUp) →
        s.converter.lowResults = (.startUp, true) :: rest → 3056 ≤ n → n ≤ 3088 →
        s.faults.converterActive = false →
        ((∀ k, within k 3 = true → s.linkOn k = false ∨ (s.link k).state ≠ .loopback) →
            Takes (.referenceConversionComplete t n) s
              [.converter, .tracks, .faults, .mode, .levers, .inbound, .links, .register] fun u =>
              u.start = none
                ∧ u.mode = some (if suspendStands s = true then .suspended else .service)
                ∧ u.faults.signatureAt = some (max s.now t + 10000)
                ∧ u.faults.converterAt = some (max s.now t + 5000))
          ∧ ∀ k, within k 3 = true → s.linkOn k = true → (s.link k).state = .loopback →
            (∀ i, within i 3 = true → i < k →
              s.linkOn i = false ∨ (s.link i).state ≠ .loopback) →
            Takes (.referenceConversionComplete t n) s [.converter, .mode, .links] fun u =>
              u.start = some (.link k) ∧ u.mode = s.mode ∧ OtherLinks k s u
                ∧ (u.link k).loopback
                  = some { purpose := .start, startAt := some (max s.now t + 20) }

/-- No lock coil is commanded ON but as R61 allows in the mode: no coil of a lever is ON in
UNCONFIGURED, and outside SERVICE only those of SIGNAL levers returning to NORMAL. -/
def Obligations.CoilsAreOnOnlyWhereAllowed : Prop :=
  ∀ s u : State, (∀ k, within k 64 = true → CoilAllowed s.blockMode (s.lever k)) →
    step s = .next u → ∀ k, within k 64 = true → CoilAllowed u.blockMode (u.lever k)

/-! ### Encodings -/

/-- A record that WRITE TABLE takes is given back by READ TABLE's encoding as the same record, whatever
its table, its number and its field bytes. -/
def Obligations.TableRecordsSurviveTheirEncoding : Prop :=
  ∀ (table record : Nat) (fields : List Byte) (raw : List Raw) (v : Value),
    parseFields (layout table record) fields = some raw → valueOfRaw table record raw = some v →
      parseFields (layout table record) (encodeFields (layout table record) v.raw) = some v.raw
        ∧ valueOfRaw table record v.raw = some v

/-- A host frame fed to a hunting receiver, its bytes without a gap, becomes whole at its last byte and
no sooner, and a REQUEST frame gives its TAG and its payload back. -/
def Obligations.HostFramesAreReadAsSent : Prop :=
  ∀ (now : Time) (tag kind : Byte) (payload : List Byte), payload.length ≤ 238 →
    (hostFrame tag kind payload).foldl (feedByte now) none
        = some ((hostFrame tag kind payload).tail, now)
      ∧ frameComplete (hostFrame tag kind payload).tail = true
      ∧ (∀ n, n + 1 < (hostFrame tag kind payload).length →
          frameComplete (((hostFrame tag kind payload).take (n + 1)).tail) = false)
      ∧ requestOf (hostFrame tag requestKind payload).tail = some (tag, payload)

/-- A link frame of any type, with items in their ranges and a COUNT in that of its type, is heard as the
frame that was sent, and each of its characters but the last leaves the receiver assembling. A receiver that
assembles no frame, or whose frame has come to its CHECK, or has been broken by a pause of more than 15 ms, makes
of its characters that frame; how the pause is measured is the model's (log entry 7, DESIGN CHOICE). The frame that
a link drives its line with is one of its type, with the 4812's own box number and, for DATA, the items of
its exchange; so it is heard as a frame of that box. -/
def Obligations.LinkFramesAreHeardAsSent : Prop :=
  (∀ (f : FrameType) (own : Nat) (items : List Item), own ≤ 255 → (∀ i ∈ items, i.Sound) →
      countFits f items.length = true →
        hear (frameBytes f own items).tail = .whole f own items
          ∧ (∀ n, n < (frameBytes f own items).tail.length →
              stillFrame ((frameBytes f own items).tail.take n) = true)
          ∧ ∀ (l : Link) (c : LinkCfg) (now : Time),
              (l.assembling = none ∨ ∃ chars last, l.assembling = some (chars, last)
                ∧ (frameEnded chars = true
                  ∨ 6 * (last + 15) + 25 * ((frameBytes f own items).length - 1) < 6 * now)) →
              (l.takeChars c now (frameBytes f own items)).frameHeld
                = some (frameBytes f own items).tail)
    ∧ ∀ (s : State) (k : Nat), ((s.link k).sending = none → lineFrame s k = none)
        ∧ ∀ (f : FrameType) (own : Nat) (items : List Item), (s.link k).sending = some f →
          s.tables.identity = some own → own ≤ 255 →
          items = (if f = .data then ((s.link k).flight.map (·.items)).getD [] else []) →
          (∀ i ∈ items, i.Sound) → countFits f items.length = true →
            ∃ chars, lineFrame s k = some (startChar :: chars) ∧ hear chars = .whole f own items

/-! ### Commands that read -/

/-- The five READ commands over numbered records reply DONE with the records named, the count clamped to
the command's limits and to the last record, refuse RANGE a first record that is none, and change
nothing. -/
def Obligations.NumberedReadsReplyAndChangeNothing : Prop :=
  ∀ (s : State) (t : Time) (first count : Nat), s.Open →
    Takes (.readTracks t first count) s [.result] (fun u =>
        if within first 24 then
          u.Gave 0x01 ((readNumbers first count 8 24).flatMap (trackBytes (s.atTime t)))
        else u.Refused 0x01 .range)
      ∧ Takes (.readLevers t first count) s [.result] (fun u =>
        if within first 64 then
          u.Gave 0x10 ((readNumbers first count 8 64).flatMap (leverBytes (s.atTime t)))
        else u.Refused 0x10 .range)
      ∧ Takes (.readHolds t first count) s [.result] (fun u =>
        if within first 16 then
          u.Gave 0x20 ((readNumbers first count 8 16).flatMap (holdBytes (s.atTime t)))
        else u.Refused 0x20 .range)
      ∧ Takes (.readReleases t first count) s [.result] (fun u =>
        if within first 16 then
          u.Gave 0x22 ((readNumbers first count 8 16).flatMap (releaseBytes (s.atTime t)))
        else u.Refused 0x22 .range)
      ∧ Takes (.readLines t first count) s [.result] (fun u =>
        if within first 6 then
          u.Gave 0x40 ((readNumbers first count 6 6).flatMap (lineBytes (s.atTime t)))
        else u.Refused 0x40 .range)
      ∧ ∀ most last, within first last = true → within most last = true →
          readNumbers first count most last
            = (List.range (min (min (max count 1) most) (last + 1 - first))).map (first + ·)

/-- READ FAULTS replies DONE with the number of records held, the overflow record, the number returned
and the records from the first position on, at most 8 of them, in 15 bytes each; it refuses RANGE a first
position outside 1 to 32; it is taken in every mode and changes nothing. READ STATUS replies DONE with
the 16 bytes of R188 and changes nothing, in every mode. -/
def Obligations.ReadFaultsAndStatusGiveTheirBytes : Prop :=
  (∀ (s : State) (t : Time) (first count : Nat), s.Open →
      (within first 32 = false →
          Takes (.readFaults t first count) s [.result] fun u => u.Refused 0x70 .range)
        ∧ (within first 32 = true →
          ∀ rs, rs = (s.faults.records.drop (first - 1)).take (min (max count 1) 8) →
            Takes (.readFaults t first count) s [.result] (fun u => u.Gave 0x70
                  ([byte s.faults.records.length, byte s.faults.overflowCount]
                    ++ field1 (s.faults.overflowLast.map (·.1))
                    ++ field1 (s.faults.overflowLast.bind (·.2))
                    ++ field1 (s.faults.overflowReaction.map Reaction.code)
                    ++ [byte rs.length]
                    ++ rs.flatMap fun r =>
                      [byte r.source] ++ field1 r.subject
                        ++ [if r.active then 0 else 1, byte r.count, byte r.reaction.code]
                        ++ be16 r.firstDay ++ be24 r.firstTenths
                        ++ be16 r.lastDay ++ be24 r.lastTenths))
            ∧ ∀ r ∈ rs, r.bytes.length = 15))
    ∧ ∀ (s : State) (t : Time), s.Open →
          Takes (.readStatus t) s [.result] fun u => ∃ data,
              u.Gave 0x86 data ∧ data.length = 16
                ∧ data = field1 (s.mode.map Mode.code) ++ [byte s.store.imageState.code]
                    ++ (match s.store.stored with
                        | some st => be32 st.signature
                        | none => [255, 255, 255, 255])
                    ++ field1 s.tables.identity ++ fieldBool (writing s)
                    ++ [byte (s.circuits.filter fun c => c.learning.isSome).length,
                        byte (ownersPending s), byte (alterationSet s).length,
                        byte s.faults.records.length,
                        byte (s.faults.records.filter fun r => r.reaction == .suspend).length,
                        byte s.faults.overflowCount]
                    ++ be16 s.register.unread

/-! ### Commands that test -/

/-- TEST TRACK sets its flag to whether the circuit has the wanted state and replies with the state
found; it refuses RANGE a flag, a circuit or a state that is none, leaving the flags; and nothing else
changes. A flag keeps the value found through the edges and conversions of the track channels, a loss of
code, the wiring tests and CLEAR FAULT, whatever state they give a circuit, as rows with no turn of a batch
to be taken before them; a reference conversion is included while no batch executes, since one that ends RUN
TEST may begin the next batch. -/
def Obligations.TestTrackSetsItsFlag : Prop :=
  (∀ (s : State) (t : Time) (f k wanted : Nat), s.Open →
      (f ≤ 7 → within k 24 = true → wanted ≤ 3 →
          Takes (.testTrack t f k wanted) s [.batch, .result] fun u =>
            u.SetsFlag s f ((s.circuit k).state.code == wanted)
              ∧ u.Gave 0x02 [byte (s.circuit k).state.code])
        ∧ (7 < f ∨ within k 24 = false ∨ 3 < wanted →
          Takes (.testTrack t f k wanted) s [.result] fun u => u.Refused 0x02 .range))
    ∧ (∀ (s u : State) (t : Time) (k a : Nat) (i : Instr),
        i ∈ [Instr.pulseRisingEdge t k, .pulseFallingEdge t k, .candidateTimeout t k, .codeLost t k,
            .pulseEndConversionComplete t a, .wiringTestDue t k, .wiringLoadTimeEnd t k,
            .wiringConversionComplete t a, .clearFault t k a] →
          s.Prompt i → exec i s = .next u → u.host.flags = s.host.flags)
    ∧ ∀ (s u : State) (t : Time) (a : Nat), s.host.executing = none →
        exec (.referenceConversionComplete t a) s = .next u → u.host.flags = s.host.flags

/-- TEST LEVER, TEST HOLD, TEST LINE and TEST FAULT set their flag to the value found and reply with what
was found; they refuse RANGE operands that are none, leaving the flags; and nothing else changes. That TEST
FAULT of code 22 wanting ABSENT finds it while the overflow count is 0 is the model's: R172 names only PRESENT
and LATCHED there (log entry 16, DEDUCED). -/
def Obligations.TestCommandsSetTheirFlag : Prop :=
  ∀ (s : State) (t : Time) (f n wanted : Nat), s.Open →
    (f ≤ 7 → within n 64 = true → wanted ≤ 5 →
        Takes (.testLever t f n wanted) s [.batch, .result] fun u =>
          u.SetsFlag s f (leverTest (s.lever n) wanted)
            ∧ u.Gave 0x11 [byte (s.lever n).current.code, if (s.lever n).free then 1 else 0])
      ∧ (7 < f ∨ within n 64 = false ∨ 5 < wanted →
        Takes (.testLever t f n wanted) s [.result] fun u => u.Refused 0x11 .range)
      ∧ (f ≤ 7 → within n 16 = true → wanted ≤ 4 →
        Takes (.testHold t f n wanted) s [.batch, .result] fun u =>
          u.SetsFlag s f ((s.hold n).state.map HoldState.code == some wanted)
            ∧ u.Gave 0x21 (field1 ((s.hold n).state.map HoldState.code)))
      ∧ (7 < f ∨ within n 16 = false ∨ 4 < wanted →
        Takes (.testHold t f n wanted) s [.result] fun u => u.Refused 0x21 .range)
      ∧ (∀ k, within k 3 = true → f ≤ 7 → wanted ≤ 3 →
          (Takes (.testLine t f (2 * k - 1) wanted) s [.batch, .result] fun u =>
              u.SetsFlag s f (if wanted = 3 then s.linkOn k && (s.inb k).sequence == .complete
                  else (s.inb k).state.map LineState.code == some wanted)
                ∧ u.Gave 0x41 (field1 ((s.inb k).state.map LineState.code)
                    ++ [if s.linkOn k then byte (s.inb k).sequence.code else 255]))
          ∧ Takes (.testLine t f (2 * k) wanted) s [.batch, .result] fun u =>
              u.SetsFlag s f (wanted != 3 && (s.outb k).state.map LineState.code == some wanted)
                ∧ u.Gave 0x41 (field1 ((s.outb k).state.map LineState.code) ++ [255]))
      ∧ (7 < f ∨ within n 6 = false ∨ 3 < wanted →
          Takes (.testLine t f n wanted) s [.result] fun u => u.Refused 0x41 .range)
      ∧ (∀ c, (f ≤ 7 → wanted ≤ 3 → ∀ subject, faultSubject c n = some subject →
            Takes (.testFault t f c n wanted) s [.batch, .result] fun u =>
              u.SetsFlag s f
                  (match wanted with
                    | 0 => (faultFound s.faults c subject).isNone
                    | 1 => (faultFound s.faults c subject).isSome
                    | 2 => faultFound s.faults c subject == some true
                    | _ => faultFound s.faults c subject == some false)
                ∧ u.Gave 0x71
                    [match faultFound s.faults c subject with
                      | some true => 0
                      | some false => 1
                      | none => 255])
          ∧ (7 < f ∨ 3 < wanted ∨ faultSubject c n = none →
            Takes (.testFault t f c n wanted) s [.result] fun u => u.Refused 0x71 .range))

/-! ### Track circuits -/

/-- A rising edge opens a candidate at the running time of the step and abandons an open wiring test,
its request withdrawn, or its result to be discarded where the conversion is under way; on an envelope
above the threshold it changes nothing. That an edge is taken only on an envelope below the threshold is
the model's own (log entry 6). -/
def Obligations.RisingEdgeOpensACandidate : Prop :=
  ∀ (s : State) (t : Time) (k : Nat), s.Undisputed → within k 24 = true → s.circuits.length = 24 →
    ((s.circuit k).above = true → Takes (.pulseRisingEdge t k) s [] fun _ => True)
      ∧ ((s.circuit k).above = false → (s.circuit k).wiringOpen = false →
          Takes (.pulseRisingEdge t k) s [.tracks] fun u =>
            u.circuit k = { s.circuit k with above := true, candidate := some (max s.now t) }
              ∧ OtherCircuits k s u)
      ∧ ((s.circuit k).above = false → (s.circuit k).wiringOpen = true →
          Takes (.pulseRisingEdge t k) s [.tracks, .converter] fun u =>
            u.circuit k
                = { s.circuit k with above := true, candidate := some (max s.now t)
                                     wiringOpen := false, loadEnd := none }
              ∧ OtherCircuits k s u
              ∧ u.converter.busy = s.converter.busy
              ∧ u.converter.waiting = s.converter.waiting.filter (· != .wiring k)
              ∧ u.converter.lowResults = s.converter.lowResults
              ∧ u.converter.discard
                = (s.converter.discard || s.converter.busy == some (.wiring k)))

/-- A falling edge decides the open candidate: less than 20 ms after its rise it is noise, and leaves
the previous rise and the code-lost compare; from 20 ms it is accepted, its rise becomes the previous
rise, its period is taken, the code-lost compare is started again from it and its conversion requested,
but on a DISABLED circuit that is not learning. A candidate open for 1000 ms is noise. An edge or a time
with no candidate decides nothing. -/
def Obligations.FallingEdgeDecidesTheCandidate : Prop :=
  ∀ (s : State) (t : Time) (k : Nat), s.Undisputed → within k 24 = true → s.circuits.length = 24 →
    ((s.circuit k).candidate = none →
        Takes (.pulseFallingEdge t k) s [.tracks] (fun u =>
            u.circuit k = { s.circuit k with above := false } ∧ OtherCircuits k s u)
          ∧ Takes (.candidateTimeout t k) s [] fun _ => True)
      ∧ ∀ r, (s.circuit k).candidate = some r →
        (max s.now t < r + 20 → (∀ e, (s.circuit k).codeLostAt = some e → e < r ∨ max s.now t < e) →
            Takes (.pulseFallingEdge t k) s [.tracks] fun u =>
              u.circuit k = { s.circuit k with above := false, candidate := none }
                ∧ OtherCircuits k s u)
          ∧ (r + 20 ≤ max s.now t → max s.now t ≤ r + 1000 → (s.circuit k).state ≠ .disabled →
            Takes (.pulseFallingEdge t k) s [.tracks, .converter] fun u =>
              u.circuit k
                  = { s.circuit k with
                      above := false, candidate := none, previousRise := some r
                      codeLostAt := some (r + (s.tables.track k).pnom
                        * (s.tables.track k).lossFactor / 100)
                      pulse := some ⟨r, (s.circuit k).previousRise.map (r - ·)⟩ }
                ∧ OtherCircuits k s u ∧ u.converter = s.converter.request (.pulse k))
          ∧ (r + 20 ≤ max s.now t → max s.now t ≤ r + 1000 → (s.circuit k).state = .disabled →
            (s.circuit k).learning = none →
            Takes (.pulseFallingEdge t k) s [.tracks] fun u =>
              u.circuit k
                  = { s.circuit k with
                      above := false, candidate := none, previousRise := some r, codeLostAt := none }
                ∧ OtherCircuits k s u)
          ∧ (r + 1000 ≤ max s.now t →
            (∀ e, (s.circuit k).codeLostAt = some e → e < r ∨ max s.now t < e) →
            Takes (.candidateTimeout t k) s [.tracks] fun u =>
              u.circuit k = { s.circuit k with candidate := none } ∧ OtherCircuits k s u)
          ∧ (max s.now t < r + 1000 → Takes (.candidateTimeout t k) s [] fun _ => True)

/-- CODE_LOST, once its compare has expired and no candidate that rose in time is open, makes the
previous rise none and the bad count and both end counts 0, and stops the compare; an OCCUPIED circuit
sets g to 0, a FAILED one keeps its state, and a CLEAR one goes OCCUPIED at that running time with g 0
and its smoothed level kept. A candidate that rose in time makes the decision wait. -/
def Obligations.CodeLostDropsAClearCircuit : Prop :=
  ∀ (s : State) (t : Time) (k e : Nat), s.Undisputed → within k 24 = true →
    s.circuits.length = 24 → (s.circuit k).codeLostAt = some e →
    (∀ w, (s.circuit k).nextWiring = some w → max s.now t < w) →
    (max s.now t < e → Takes (.codeLost t k) s [] fun _ => True)
      ∧ (∀ r, (s.circuit k).candidate = some r → r ≤ e → Takes (.codeLost t k) s [] fun _ => True)
      ∧ (e ≤ max s.now t → (∀ r, (s.circuit k).candidate = some r → e < r) →
        ((s.circuit k).state = .occupied →
            Takes (.codeLost t k) s [.tracks] fun u =>
              u.circuit k
                  = { s.circuit k with previousRise := none, bad := 0, foreignEnd := 0, overEnd := 0
                                       codeLostAt := none, g := 0 }
                ∧ OtherCircuits k s u)
          ∧ ((s.circuit k).state = .failed →
            Takes (.codeLost t k) s [.tracks] fun u =>
              u.circuit k
                  = { s.circuit k with previousRise := none, bad := 0, foreignEnd := 0, overEnd := 0
                                       codeLostAt := none }
                ∧ OtherCircuits k s u)
          ∧ ((s.circuit k).state = .clear → (s.circuit k).marginActive = false →
            Takes (.codeLost t k) s
              [.tracks, .levers, .faults, .register, .holds, .timers, .inbound, .outbound] fun u =>
              u.circuit k
                  = { s.circuit k with
                      state := .occupied, g := 0, occupiedSince := some (max s.now t)
                      previousRise := none, bad := 0, foreignEnd := 0, overEnd := 0
                      codeLostAt := none }
                ∧ OtherCircuits k s u))

/-- The end of a pulse's conversion classifies it and takes it by its class, in a circuit with no cause
active and no test due: a FIRST pulse sets the bad count to 0; a first BAD_PERIOD pulse is held, with the
end counts 0, and g 0 in OCCUPIED; a GOOD pulse of a CLEAR circuit at or above its drop level moves the
smoothed level; a GOOD pulse of an OCCUPIED circuit counts at or above the pickup level, while the pickup
test fails, and sets g to 0 below it; a GOOD pulse of a FAILED circuit moves no state. The smoothed level
moves by one eighth of its difference to the level, truncated toward zero, and never passes it; and the
level of a pulse is its amplitude in per mille of the reference, at most 1999. That the end counts advance
with no cause active, and stay at 10, is the model's (log entry 21, DESIGN CHOICE), and that the minimum
occupancy is compared at the end of the conversion is DEDUCED (log entry 22). Overlevel pulses, pulses of a
learning circuit and those that end a cause are the next statement's. -/
def Obligations.PulseEndTakesThePulseByItsClass : Prop :=
  (∀ (s : State) (t : Time) (k a : Nat) (p : Pulse) (cls : PulseClass) (level : Nat) (c : Circuit)
      (cfg : TrackCfg), s.Undisputed →
      within k 24 = true → s.circuits.length = 24 → a ≤ 4095 → c = s.circuit k →
      cfg = s.tables.track k → s.converter.busy = some (.pulse k) → c.pulse = some p →
      c.learning = none → (∀ w, c.nextWiring = some w → max s.now t < w) →
      c.state ≠ .disabled → c.foreignActive = false → c.overActive = false → c.marginActive = false →
      cls = classify p.period cfg.pnom (cfg.neighbours.map fun n => (s.tables.track n).pnom) →
      level = levelOf a cfg.aref → level ≤ cfg.overLevel →
      (cls = .first →
          Takes (.pulseEndConversionComplete t a) s [.tracks, .converter] fun u =>
            u.circuit k = { c with pulse := none, lastP := none, lastA := some a, bad := 0 }
              ∧ OtherCircuits k s u ∧ u.converter = s.converter.finish)
        ∧ (cls = .badPeriod → c.bad = 0 →
          Takes (.pulseEndConversionComplete t a) s [.tracks, .converter] fun u =>
            u.circuit k
                = { c with pulse := none, lastP := p.period, lastA := some a, bad := 1
                           foreignEnd := 0, overEnd := 0, g := if c.state = .occupied then 0 else c.g }
              ∧ OtherCircuits k s u ∧ u.converter = s.converter.finish)
        ∧ (cls = .good → c.state = .clear → cfg.drop ≤ level →
          (∀ v, c.lavg = some v → cfg.margin ≤ smooth v level) →
          Takes (.pulseEndConversionComplete t a) s [.tracks, .converter] fun u =>
            u.circuit k
                = { c with pulse := none, lastP := p.period, lastA := some a, lastL := some level
                           bad := 0, foreignEnd := min (c.foreignEnd + 1) 10
                           overEnd := min (c.overEnd + 1) 10
                           lavg := c.lavg.map (smooth · level) }
              ∧ OtherCircuits k s u ∧ u.converter = s.converter.finish)
        ∧ (cls = .good → c.state = .occupied →
          (cfg.pickup ≤ level → min (c.g + 1) 15 < cfg.pickupCount
            ∨ max s.now t < c.occupiedSince.getD 0 + cfg.minOccupancy * 100) →
          Takes (.pulseEndConversionComplete t a) s [.tracks, .converter] fun u =>
            u.circuit k
                = { c with pulse := none, lastP := p.period, lastA := some a, lastL := some level
                           bad := 0, foreignEnd := min (c.foreignEnd + 1) 10
                           overEnd := min (c.overEnd + 1) 10
                           g := if cfg.pickup ≤ level then min (c.g + 1) 15 else 0 }
              ∧ OtherCircuits k s u ∧ u.converter = s.converter.finish)
        ∧ (cls = .good → c.state = .failed →
          Takes (.pulseEndConversionComplete t a) s [.tracks, .converter] fun u =>
            u.circuit k
                = { c with pulse := none, lastP := p.period, lastA := some a, lastL := some level
                           bad := 0, foreignEnd := min (c.foreignEnd + 1) 10
                           overEnd := min (c.overEnd + 1) 10 }
              ∧ OtherCircuits k s u ∧ u.converter = s.converter.finish))
    ∧ (∀ lavg level : Nat, (smooth lavg level : Int) = lavg + ((level : Int) - lavg).tdiv 8)
    ∧ (∀ lavg level : Nat, min lavg level ≤ smooth lavg level ∧ smooth lavg level ≤ max lavg level)
    ∧ ∀ a aref : Nat, 0 < aref → levelOf a aref ≤ 1999
        ∧ (a * 1000 < 2000 * aref →
            aref * levelOf a aref ≤ a * 1000 ∧ a * 1000 < aref * (levelOf a aref + 1))

/-- The pulses that move the state of a circuit with no cause active: a GOOD pulse below the drop level
takes CLEAR to OCCUPIED; one that completes the pickup count once the minimum occupancy has passed takes
OCCUPIED to CLEAR with its level as smoothed level; a second BAD_PERIOD pulse takes CLEAR to OCCUPIED;
and a FOREIGN pulse, with the reaction CONFINE, begins TRACK_FOREIGN and takes CLEAR or OCCUPIED to FAILED
with the cause's record ACTIVE. An overlevel pulse begins TRACK_OVERLEVEL in the same way, or sets its end
count to 0. The pulse that brings an end count to 10 ends its cause and leaves the record LATCHED. A
smoothed level below the margin level begins TRACK_MARGIN, at the reaction REPORT, and one at the margin
level and 25 more ends it and removes its record. A pulse of a DISABLED circuit that learns opens the run
of samples, starts it again where its period is out of the window, adds a sample, or completes the learning
at the eighth. That the minimum occupancy is compared at the end of the conversion is DEDUCED (log entry
22), and that the end counts advance with no cause active the model's (log entry 21). -/
def Obligations.PulsesMoveTheCircuitState : Prop :=
  (∀ (s : State) (t : Time) (k a : Nat) (p : Pulse) (cls : PulseClass) (level : Nat) (c : Circuit)
      (cfg : TrackCfg), s.Undisputed →
      within k 24 = true → s.circuits.length = 24 → a ≤ 4095 → c = s.circuit k →
      cfg = s.tables.track k → s.converter.busy = some (.pulse k) → c.pulse = some p →
      c.learning = none → (∀ w, c.nextWiring = some w → max s.now t < w) →
      c.confinement = [] → c.staged = [] →
      c.foreignActive = false → c.overActive = false → c.marginActive = false →
      cls = classify p.period cfg.pnom (cfg.neighbours.map fun n => (s.tables.track n).pnom) →
      level = levelOf a cfg.aref → level ≤ cfg.overLevel →
      (c.state = .clear → (cls = .good ∧ level < cfg.drop) ∨ (cls = .badPeriod ∧ c.bad = 1) →
          Takes (.pulseEndConversionComplete t a) s
            [.tracks, .converter, .levers, .faults, .register, .holds, .timers, .inbound, .outbound]
            fun u =>
              (u.circuit k).state = .occupied ∧ (u.circuit k).g = 0 ∧ (u.circuit k).bad = 0
                ∧ (u.circuit k).occupiedSince = some (max s.now t) ∧ (u.circuit k).lavg = c.lavg
                ∧ OtherCircuits k s u)
        ∧ (c.state = .occupied → cls = .good → cfg.pickup ≤ level → cfg.margin ≤ level →
          cfg.pickupCount ≤ min (c.g + 1) 15 →
          c.occupiedSince.getD 0 + cfg.minOccupancy * 100 ≤ max s.now t →
          Takes (.pulseEndConversionComplete t a) s
            [.tracks, .converter, .levers, .faults, .register, .holds, .timers, .inbound, .outbound]
            fun u =>
              (u.circuit k).state = .clear ∧ (u.circuit k).lavg = some level
                ∧ (u.circuit k).bad = 0 ∧ (u.circuit k).lastL = some level ∧ OtherCircuits k s u)
        ∧ (c.state = .clear ∨ c.state = .occupied → cls = .foreign → reactionOf s 2 = .confine →
          s.faults.find 2 (some k) = none → s.faults.records.length < 32 →
          Takes (.pulseEndConversionComplete t a) s
            [.tracks, .converter, .levers, .faults, .register, .holds, .timers, .inbound, .outbound]
            fun u =>
              (u.circuit k).state = .failed ∧ (u.circuit k).g = 0 ∧ (u.circuit k).bad = 0
                ∧ (u.circuit k).foreignActive = true ∧ (u.circuit k).foreignEnd = 0
                ∧ (u.circuit k).confinement = [2] ∧ OtherCircuits k s u
                ∧ u.faults.find 2 (some k)
                  = some ⟨2, some k, true, 1, s.register.day, s.register.tenths, s.register.day,
                      s.register.tenths, .confine⟩))
    ∧ (∀ (s : State) (t : Time) (k a : Nat) (p : Pulse) (level : Nat) (c good : Circuit)
        (cfg : TrackCfg), s.Undisputed →
        within k 24 = true → s.circuits.length = 24 → a ≤ 4095 → c = s.circuit k →
        cfg = s.tables.track k → s.converter.busy = some (.pulse k) → c.pulse = some p →
        c.learning = none → (∀ w, c.nextWiring = some w → max s.now t < w) → c.state ≠ .disabled →
        classify p.period cfg.pnom (cfg.neighbours.map fun n => (s.tables.track n).pnom) = .good →
        level = levelOf a cfg.aref →
        good = { c with pulse := none, lastP := p.period, lastA := some a, lastL := some level
                        bad := 0, foreignEnd := min (c.foreignEnd + 1) 10 } →
        (cfg.overLevel < level → c.foreignActive = false →
            (c.overActive = true →
                Takes (.pulseEndConversionComplete t a) s [.tracks, .converter] fun u =>
                  u.circuit k = { good with overEnd := 0 } ∧ OtherCircuits k s u)
              ∧ (c.overActive = false → c.confinement = [] → c.marginActive = false →
                reactionOf s 3 = .confine → s.faults.find 3 (some k) = none →
                s.faults.records.length < 32 →
                Takes (.pulseEndConversionComplete t a) s
                  [.tracks, .converter, .levers, .faults, .register, .holds, .timers, .inbound,
                    .outbound] fun u =>
                  u.circuit k = { good with overActive := true, overEnd := 0, confinement := [3]
                                            state := .failed, g := 0 }
                    ∧ OtherCircuits k s u
                    ∧ u.faults.find 3 (some k)
                      = some ⟨3, some k, true, 1, s.register.day, s.register.tenths,
                          s.register.day, s.register.tenths, .confine⟩))
          ∧ (level ≤ cfg.overLevel → c.state = .failed →
            Takes (.pulseEndConversionComplete t a) s [.tracks, .converter, .faults] fun u =>
              u.circuit k = { good with
                  overEnd := min (c.overEnd + 1) 10
                  foreignActive := c.foreignActive && decide (c.foreignEnd < 9)
                  overActive := c.overActive && decide (c.overEnd < 9) }
                ∧ OtherCircuits k s u
                ∧ u.faults.find 2 (some k) = (s.faults.find 2 (some k)).map (fun r =>
                    { r with active := r.active && !(c.foreignActive && decide (9 ≤ c.foreignEnd)) })
                ∧ u.faults.find 3 (some k) = (s.faults.find 3 (some k)).map (fun r =>
                    { r with active := r.active && !(c.overActive && decide (9 ≤ c.overEnd)) }))
          ∧ (level ≤ cfg.overLevel → cfg.drop ≤ level → c.state = .clear →
            c.foreignActive = false → c.overActive = false →
            ∀ v x next, c.lavg = some v → x = smooth v level →
            next = { good with overEnd := min (c.overEnd + 1) 10, lavg := some x } →
            (c.marginActive = false → x < cfg.margin → reactionOf s 4 = .report →
                s.faults.find 4 (some k) = none → s.faults.records.length < 32 →
                Takes (.pulseEndConversionComplete t a) s
                  [.tracks, .converter, .faults, .register] fun u =>
                  u.circuit k = { next with marginActive := true } ∧ OtherCircuits k s u
                    ∧ u.faults = { s.faults with records := s.faults.records ++
                        [⟨4, some k, true, 1, s.register.day, s.register.tenths,
                          s.register.day, s.register.tenths, .report⟩] }
                    ∧ u.register = s.register.append (.faultRaised 4 (some k) .report 1))
              ∧ (c.marginActive = true → x < cfg.margin + 25 →
                Takes (.pulseEndConversionComplete t a) s [.tracks, .converter] fun u =>
                  u.circuit k = next ∧ OtherCircuits k s u)
              ∧ (∀ r, c.marginActive = true → cfg.margin + 25 ≤ x →
                s.faults.find 4 (some k) = some r → 4 ∉ c.confinement →
                Takes (.pulseEndConversionComplete t a) s
                  [.tracks, .converter, .faults, .register] fun u =>
                  u.circuit k = { next with marginActive := false } ∧ OtherCircuits k s u
                    ∧ u.faults = { s.faults with records := s.faults.records.filter fun q =>
                        !(q.source == 4 && q.subject == some k) }
                    ∧ u.register = s.register.append
                      (.faultCleared 4 (some k) r.reaction r.count false))))
    ∧ ∀ (s : State) (t : Time) (k a : Nat) (p : Pulse) (c base : Circuit) (l : Learning)
        (pnom : Nat), s.Undisputed → within k 24 = true → s.circuits.length = 24 → a ≤ 4095 →
        c = s.circuit k → s.converter.busy = some (.pulse k) → c.pulse = some p →
        c.state = .disabled → c.learning = some l → base = { c with pulse := none } →
        pnom = ((s.store.work.getD Image.defaults).track k).pnom →
        (l.previous = none →
            Takes (.pulseEndConversionComplete t a) s [.tracks, .converter] fun u =>
              u.circuit k = { base with learning := some { l with previous := some p.rise } }
                ∧ OtherCircuits k s u)
          ∧ ∀ q, l.previous = some q →
            (inWindow (p.rise - q) pnom = false →
                Takes (.pulseEndConversionComplete t a) s [.tracks, .converter] fun u =>
                  u.circuit k = { base with learning := some ⟨some p.rise, 0, 0⟩ }
                    ∧ OtherCircuits k s u)
              ∧ (inWindow (p.rise - q) pnom = true → l.samples < 7 →
                Takes (.pulseEndConversionComplete t a) s [.tracks, .converter] fun u =>
                  u.circuit k = { base with learning := some ⟨some p.rise, l.samples + 1, l.sum + a⟩ }
                    ∧ OtherCircuits k s u)
              ∧ (inWindow (p.rise - q) pnom = true → 7 ≤ l.samples →
                ∀ v, v = max ((l.sum + a) / 8) 256 →
                Takes (.pulseEndConversionComplete t a) s [.tracks, .converter, .store] fun u =>
                  u.circuit k = { base with
                      learning := none, learnResult := some (v, decide ((l.sum + a) / 8 < 256)) }
                    ∧ OtherCircuits k s u ∧ u.store.stored = s.store.stored
                    ∧ u.store.work = s.store.work.map fun i =>
                      { i with tracks := modAt i.tracks {} k fun c => { c with aref := v } })

/-- Wiring tests and reference tests on a part with nothing disputed: a due test starts where there is
no code to wait for, a test that has been abandoned there too, before the next accepted pulse at which R20 retries
it: that restart is the model's (log entry 20, DESIGN CHOICE). At the end of its load time its conversion is requested; a reading below 3900 with
no cause active completes it, changes its kind and schedules the next one; one of 3900 or more while the
cause is active does the same and reports nothing; an abandoned test's result is discarded. A low
reference's result is kept until the high one's, which is DEDUCED (log entry 24), and a periodic test that
passes with no cause active changes nothing but the converter. A test that begins or ends its cause is left
to the statement on occurrences. -/
def Obligations.WiringTestsAndReferencesAreServed : Prop :=
  ∀ (s : State) (t : Time) (k n : Nat) (c : Circuit), s.Undisputed → within k 24 = true →
    s.circuits.length = 24 → n ≤ 4095 → c = s.circuit k →
    (c.previousRise = none → c.state ≠ .disabled → c.wiringOpen = false →
        (∃ w, c.nextWiring = some w ∧ w ≤ max s.now t) →
        Takes (.wiringTestDue t k) s [.tracks] fun u =>
          u.circuit k = { c with wiringOpen := true, loadEnd := some (max s.now t + 15) }
            ∧ OtherCircuits k s u)
      ∧ (c.previousRise ≠ none ∨ c.state = .disabled →
        Takes (.wiringTestDue t k) s [] fun _ => True)
      ∧ (c.wiringOpen = true → (∃ e, c.loadEnd = some e ∧ e ≤ max s.now t) →
        Takes (.wiringLoadTimeEnd t k) s [.tracks, .converter] fun u =>
          u.circuit k = { c with loadEnd := none } ∧ OtherCircuits k s u
            ∧ u.converter = s.converter.request (.wiring k))
      ∧ (s.converter.busy = some (.wiring k) → s.converter.discard = false →
        (n < 3900 ∧ c.wiringActive = false) ∨ (3900 ≤ n ∧ c.wiringActive = true) →
        Takes (.wiringConversionComplete t n) s [.tracks, .converter] fun u =>
          u.circuit k
              = { c with wiringOpen := false, wiringKind := c.wiringKind.other
                         nextWiring := some (max s.now t + (s.tables.track k).wiringInterval * 1000) }
            ∧ OtherCircuits k s u ∧ u.converter = s.converter.finish)
      ∧ (s.converter.busy = some (.wiring k) → s.converter.discard = true →
        Takes (.wiringConversionComplete t n) s [.converter] fun u =>
          u.converter = s.converter.finish)
      ∧ (∀ test, s.converter.busy = some (.reference false test) →
        Takes (.referenceConversionComplete t n) s [.converter] fun u =>
          u.converter = { s.converter.finish with
            lowResults := s.converter.finish.lowResults
              ++ [(test, decide (1008 ≤ n ∧ n ≤ 1040))] })
      ∧ (∀ rest, s.converter.busy = some (.reference true .periodic) → 3056 ≤ n → n ≤ 3088 →
        s.converter.lowResults = (.periodic, true) :: rest → s.faults.converterActive = false →
        Takes (.referenceConversionComplete t n) s [.converter] fun u =>
          u.converter = { s.converter.finish with lowResults := rest })

/-- The converter, when it comes free with requests of numbered circuits waiting, chooses one of them, by
R6: pulse-end conversions first, the lowest circuit among them; then references; then wiring tests, the
lowest circuit among them; every other request goes on waiting. -/
def Obligations.ConverterChoosesByKindThenNumber : Prop :=
  ∀ c : Converter, c.busy = none → c.waiting ≠ [] →
    (∀ x ∈ c.waiting, match x with
      | .pulse k => within k 24 = true
      | .reference .. => True
      | .wiring k => within k 24 = true) →
    ∃ r, c.next.busy = some r ∧ c.next.discard = false
      ∧ r ∈ c.waiting ∧ c.next.waiting.length + 1 = c.waiting.length
      ∧ c.waiting.Perm (r :: c.next.waiting)
      ∧ ∀ x ∈ c.waiting, match r, x with
        | .pulse j, .pulse k => j ≤ k
        | .reference .., .pulse _ => False
        | .wiring _, .pulse _ => False
        | .wiring _, .reference .. => False
        | .wiring j, .wiring k => j ≤ k
        | _, _ => True

/-! ### Frame bus -/

/-- A poll position with no poll under way is counted and polls its board, if that is configured, with
the output state as it stands; in every cycle the boards are polled in the order of R30; and of the lamps
carried to a configured instrument board exactly one of BLOCKED, CLEAR and OCCUPIED is on. A missed poll
of a PRESENT board counts, up to the third, at which the board goes MISSING, with a record of
BOARD_MISSING where the table has room, and every lever of a lever board becomes UNKNOWN with its settled
position kept, the commutator of an instrument board the same, and its plunger ARMING; a missed poll of a
MISSING board sets its good answers to 0. A missed poll of a board that is not the one polled changes
nothing: that a poll is of one board, ended by its own answer or miss, is DEDUCED (log entry 8), and that
the row of another changes nothing the model's (log entry 2). That the commutator's last reading is forgotten at
the third miss is DEDUCED (log entry 25): R31 keeps every last value, and R32 counts the third good answer's
readings as first. -/
def Obligations.PollsFollowTheCycleAndMakeBoardsMissing : Prop :=
  ((∀ (s : State) (t : Time), s.Undisputed → s.polled = none →
        Takes (.pollPosition t) s [.boards] fun u =>
          u.scan = s.scan + 1 ∧ u.boards = s.boards
            ∧ u.polled = if (s.board (boardAt s.scan)).configured then
                some (boardAt s.scan, outputsOf (s.atTime t) (boardAt s.scan)) else none)
      ∧ (∀ n : Nat,
          [boardAt (5 * n), boardAt (5 * n + 1), boardAt (5 * n + 2), boardAt (5 * n + 3),
              boardAt (5 * n + 4)]
            = [9, 10, 11, 2 * (n % 4) + 1, 2 * (n % 4) + 2])
      ∧ ∀ (s : State) (k : Nat), within k 3 = true → (s.outb k).state ≠ none →
          (((outputsOf s (8 + k)).drop 3).take 3).count true = 1)
    ∧ ∀ (s : State) (t : Time) (b : Nat) (o : List Bool), s.Undisputed → within b 11 = true →
          s.boards.length = 11 → s.levers.length = 64 → s.polled = some (b, o) →
          ((s.board b).missing = false → (s.board b).misses < 2 →
              Takes (.missedPoll t b) s [.boards] fun u =>
                u.polled = none ∧ u.scan = s.scan
                  ∧ u.board b = { s.board b with misses := (s.board b).misses + 1
                                                 before := (s.board b).last, last := some ⟨o, false⟩ }
                  ∧ ∀ j, j ≠ b → u.board j = s.board j)
            ∧ ((s.board b).missing = true →
              Takes (.missedPoll t b) s [.boards] fun u =>
                u.polled = none ∧ u.scan = s.scan
                  ∧ u.board b = { s.board b with goods := 0, before := (s.board b).last
                                                 last := some ⟨o, false⟩ }
                  ∧ ∀ j, j ≠ b → u.board j = s.board j)
            ∧ ((s.board b).missing = false → (s.board b).misses = 2 → b ≤ 8 →
              Takes (.missedPoll t b) s [.boards, .levers, .faults, .register, .mode, .inbound, .links]
                fun u =>
                  u.polled = none ∧ (u.board b).missing = true ∧ (u.board b).misses = 3
                    ∧ (u.board b).goods = 0 ∧ (∀ j, j ≠ b → u.board j = s.board j)
                    ∧ (s.faults.records.length < 32 → (u.faults.find 6 (some b)).isSome = true)
                    ∧ ∀ k, within k 64 = true → (s.lever k).slot.any (boardOfSlot · == b) = true →
                        (u.lever k).current = .unknown ∧ (u.lever k).settled = (s.lever k).settled)
            ∧ (∀ k, (s.board b).missing = false → (s.board b).misses = 2 → b = 8 + k →
              within k 3 = true → s.instruments.length = 3 →
              Takes (.missedPoll t b) s
                [.boards, .instruments, .levers, .faults, .register, .mode, .bells, .inbound,
                  .outbound, .links] fun u =>
                  u.polled = none ∧ (u.board b).missing = true ∧ (u.board b).misses = 3
                    ∧ (u.board b).goods = 0 ∧ (∀ j, j ≠ b → u.board j = s.board j)
                    ∧ (s.faults.records.length < 32 → (u.faults.find 6 (some b)).isSome = true)
                    ∧ (u.instrument k).current = .unknown
                    ∧ (u.instrument k).settled = (s.instrument k).settled
                    ∧ (u.instrument k).lastReading = none ∧ (u.instrument k).plunger = .arming
                    ∧ ∀ j, j ≠ k → u.instrument j = s.instrument j)
            ∧ ∀ j, j ≠ b → Takes (.missedPoll t j) s [] fun _ => True

/-- A GOOD answer of a PRESENT lever board is taken slot by slot: a reading equal to the settled position
leaves a lever at rest; any other reading but BOTH is a departure, at which it goes MOVING with its
settled position kept; in transit or UNKNOWN, a second consecutive NORMAL or REVERSE settles it and ends
its release, one reading does not; MOVING makes it MOVING; and BOTH makes it UNKNOWN. That MOVING takes a
lever from UNKNOWN after an absence of its board too, where R32 says only by settling, and that the contacts of
a SPARE lever with a slot are decoded, is the model's (log entries 25 and 36, DEDUCED). -/
def Obligations.GoodAnswersDecodeTheLevers : Prop :=
  ∀ (s : State) (t : Time) (b : Nat) (o : List Bool) (slots : List SlotReading), s.Undisputed →
    within b 8 = true → s.boards.length = 11 → s.levers.length = 64 → slots.length = 8 →
    s.polled = some (b, o) → (s.board b).missing = false →
    Takes (.goodAnswer t b (.lever slots)) s
      [.boards, .levers, .faults, .register, .mode, .holds, .timers, .inbound, .links] fun u =>
      u.polled = none ∧ (u.board b).misses = 0 ∧ (u.board b).missing = false
        ∧ (u.board b).last = some ⟨o, true⟩ ∧ (u.board b).before = (s.board b).last
        ∧ ∀ i k x, slots[i]? = some x → leverOfSlot s (8 * b - 7 + i) = some k →
          (u.lever k).lastReading = some (readingOf x.n x.r)
            ∧ ((s.lever k).atRest = true → (readingOf x.n x.r).pos = (s.lever k).settled →
                (u.lever k).current = (s.lever k).current
                  ∧ (u.lever k).settled = (s.lever k).settled)
            ∧ ((s.lever k).atRest = true → (readingOf x.n x.r).pos ≠ (s.lever k).settled →
                readingOf x.n x.r ≠ .both →
                (u.lever k).current = .moving ∧ (u.lever k).settled = (s.lever k).settled
                  ∧ (u.lever k).transitStart = some (max s.now t)
                  ∧ (u.lever k).transitAt = some (max s.now t + 30000))
            ∧ (∀ p, (s.lever k).atRest = false → (readingOf x.n x.r).pos = some p →
                (s.lever k).lastReading = some (readingOf x.n x.r) →
                (u.lever k).current = p.atRest ∧ (u.lever k).settled = some p
                  ∧ (u.lever k).transitStart = none ∧ (u.lever k).held = none
                  ∧ (u.lever k).lastSettle = some (max s.now t))
            ∧ (∀ p, (s.lever k).atRest = false → (readingOf x.n x.r).pos = some p →
                (s.lever k).lastReading ≠ some (readingOf x.n x.r) →
                (u.lever k).current = (s.lever k).current
                  ∧ (u.lever k).settled = (s.lever k).settled)
            ∧ ((s.lever k).atRest = false → readingOf x.n x.r = .moving →
                (u.lever k).current = .moving ∧ (u.lever k).settled = (s.lever k).settled)
            ∧ (readingOf x.n x.r = .both →
                (u.lever k).current = .unknown ∧ (u.lever k).settled = (s.lever k).settled)

/-- A GOOD answer of a PRESENT instrument board settles the commutator in a position that it has read for
300 ms while not at rest, and not sooner, makes it MOVING at a gap or at another position after rest, when
the coils that were ON become the permission held, and UNKNOWN at a reading of more than one contact, its
settled position otherwise kept. A plunger that is ARMING is OPEN once it reads open; an OPEN one that
reads closed is CLOSED from that answer's time; a CLOSED one that reads open is OPEN. A GOOD answer of a
MISSING board counts, and takes no reading; the third makes the board PRESENT, with its record removed and
a FAULT_CLEARED entry. A read-back of a coil judged STUCK ON or STUCK OFF begins that cause, on the lever
or on the link, if it is not active, and an agreement ends both; of K1 and K2 of a link the cause stands
while either has its finding. That K1 is judged before K2 is the model's (log entry 34), and so is that a gap
takes a commutator from UNKNOWN to MOVING after an absence of its board too, where R32 says only by settling (log
entry 25, DEDUCED). -/
def Obligations.InstrumentAnswersDecodeTheCommutator : Prop :=
  (∀ (s : State) (t : Time) (k : Nat) (o : List Bool) (plunger c b' o' k1 k2 : Bool)
      (r : CommReading), s.Undisputed → within k 3 = true → s.boards.length = 11 →
      s.instruments.length = 3 → s.polled = some (8 + k, o) → (s.board (8 + k)).missing = false →
      r = commReadingOf c b' o' →
      Takes (.goodAnswer t (8 + k) (.instrument plunger c b' o' k1 k2)) s
        [.boards, .levers, .instruments, .faults, .register, .mode, .bells, .inbound, .outbound,
          .links] fun u =>
        u.polled = none ∧ (u.board (8 + k)).misses = 0
          ∧ (∀ j, j ≠ k → u.instrument j = s.instrument j)
          ∧ (u.instrument k).lastReading = some r
          ∧ (r = .multiple →
              (u.instrument k).current = .unknown
                ∧ (u.instrument k).settled = (s.instrument k).settled
                ∧ (u.instrument k).contactActive = true)
          ∧ (r = .gap →
              (u.instrument k).current = .moving
                ∧ (u.instrument k).settled = (s.instrument k).settled)
          ∧ (∀ p, r = .pos p →
              ((s.instrument k).current = .rest p →
                (u.instrument k).current = .rest p
                  ∧ (u.instrument k).settled = (s.instrument k).settled)
              ∧ (∀ q, (s.instrument k).current = .rest q → q ≠ p →
                (u.instrument k).current = .moving
                  ∧ (u.instrument k).settled = (s.instrument k).settled)
              ∧ ((∀ q, (s.instrument k).current ≠ .rest q) →
                (s.instrument k).lastReading = some r →
                (s.instrument k).began + 300 ≤ max s.now t →
                (u.instrument k).current = .rest p ∧ (u.instrument k).settled = some p
                  ∧ (u.instrument k).contactActive = false)
              ∧ ((∀ q, (s.instrument k).current ≠ .rest q) →
                (s.instrument k).lastReading = some r →
                max s.now t < (s.instrument k).began + 300 →
                (u.instrument k).current = (s.instrument k).current
                  ∧ (u.instrument k).settled = (s.instrument k).settled)
              ∧ ((∀ q, (s.instrument k).current ≠ .rest q) →
                (s.instrument k).lastReading ≠ some r →
                (u.instrument k).current = (s.instrument k).current
                  ∧ (u.instrument k).settled = (s.instrument k).settled))
          ∧ ((s.instrument k).lastReading = some r →
              (u.instrument k).began = (s.instrument k).began)
          ∧ ((s.instrument k).lastReading ≠ some r → (u.instrument k).began = max s.now t)
          ∧ (u.instrument k).plunger = (match (s.instrument k).plunger, plunger with
              | .arming, false => .released
              | .released, true => .closed (max s.now t)
              | .closed _, false => .released
              | p, _ => p)
          ∧ (∀ q, (s.instrument k).current = .rest q →
              r = .gap ∨ (∃ p, r = .pos p ∧ p ≠ q) → (s.instrument k).confinement = [] →
              judgedCommand (s.board (8 + k)) 0 = none → judgedCommand (s.board (8 + k)) 1 = none →
              s.inbound.length = 3 → (u.inb k).permission = (s.inb k).coils))
    ∧ (∀ (s : State) (t : Time) (b : Nat) (o : List Bool) (x : Answer), s.Undisputed →
        within b 11 = true → s.boards.length = 11 → s.polled = some (b, o) →
        (s.board b).missing = true → answerFits b x = true →
        ((s.board b).goods < 2 →
            Takes (.goodAnswer t b x) s [.boards] fun u =>
              u.polled = none ∧ u.scan = s.scan ∧ (∀ j, j ≠ b → u.board j = s.board j)
                ∧ u.board b = { s.board b with
                    goods := (s.board b).goods + 1, before := (s.board b).last
                    last := some ⟨o, true⟩ })
          ∧ (2 ≤ (s.board b).goods →
            Takes (.goodAnswer t b x) s
              [.boards, .levers, .instruments, .faults, .register, .mode, .holds, .timers, .bells,
                .inbound, .outbound, .links] fun u =>
              u.polled = none ∧ u.scan = s.scan ∧ (∀ j, j ≠ b → u.board j = s.board j)
                ∧ u.board b = { s.board b with
                    goods := 3, missing := false, misses := 0, before := (s.board b).last
                    last := some ⟨o, true⟩ }
                ∧ u.faults.find 6 (some b) = none
                ∧ ∀ r, s.faults.find 6 (some b) = some r → ∃ es, u.register
                    = List.foldl Register.append (s.register.append
                        (.faultCleared 6 (some b) r.reaction r.count false)) es))
    ∧ (∀ (s u : State) (k : Nat) (f : Finding) (l m : Lever), s.Undisputed → within k 64 = true →
        s.levers.length = 64 → l = s.lever k → u = leverFinding k f s → m = u.lever k →
        (f = .stuckOn → m.stuckOnActive = true ∧ m.stuckOffActive = l.stuckOffActive
            ∧ u.faults = if l.stuckOnActive then s.faults else (countOccurrence 10 (some k) s).faults)
          ∧ (f = .stuckOff → m.stuckOffActive = true ∧ m.stuckOnActive = l.stuckOnActive
            ∧ u.faults = if l.stuckOffActive then s.faults
              else (countOccurrence 12 (some k) s).faults)
          ∧ (f = .agreement → m.stuckOnActive = false ∧ m.stuckOffActive = false
            ∧ u.faults.find 10 (some k) = (s.faults.find 10 (some k)).map (fun r =>
                { r with active := r.active && !l.stuckOnActive })
            ∧ u.faults.find 12 (some k) = (s.faults.find 12 (some k)).map (fun r =>
                { r with active := r.active && !l.stuckOffActive })))
    ∧ ∀ (s u : State) (k : Nat) (first : Bool) (f : Finding) (i j : Instrument), s.Undisputed →
        within k 3 = true → s.instruments.length = 3 → i = s.instrument k →
        u = coilFinding k first f s → j = u.instrument k →
        (first = true → j.k2StuckOn = i.k2StuckOn ∧ j.k2StuckOff = i.k2StuckOff
            ∧ (f = .stuckOn → j.k1StuckOn = true ∧ j.k1StuckOff = i.k1StuckOff)
            ∧ (f = .stuckOff → j.k1StuckOff = true ∧ j.k1StuckOn = i.k1StuckOn)
            ∧ (f = .agreement → j.k1StuckOn = false ∧ j.k1StuckOff = false))
          ∧ (first = false → j.k1StuckOn = i.k1StuckOn ∧ j.k1StuckOff = i.k1StuckOff
            ∧ (f = .stuckOn → j.k2StuckOn = true ∧ j.k2StuckOff = i.k2StuckOff)
            ∧ (f = .stuckOff → j.k2StuckOff = true ∧ j.k2StuckOn = i.k2StuckOn)
            ∧ (f = .agreement → j.k2StuckOn = false ∧ j.k2StuckOff = false))
          ∧ j.stuckOnActive = (j.k1StuckOn || j.k2StuckOn)
          ∧ j.stuckOffActive = (j.k1StuckOff || j.k2StuckOff)
          ∧ (i.stuckOnActive = false → j.stuckOnActive = true →
            j.stuckOffActive = i.stuckOffActive →
            u.faults = (countOccurrence 11 (some k) s).faults)
          ∧ (i.stuckOffActive = false → j.stuckOffActive = true →
            j.stuckOnActive = i.stuckOnActive →
            u.faults = (countOccurrence 13 (some k) s).faults)
          ∧ (i.stuckOnActive = true → j.stuckOnActive = false →
            u.faults.find 11 (some k) = (s.faults.find 11 (some k)).map fun r =>
              { r with active := false })
          ∧ (i.stuckOffActive = true → j.stuckOffActive = false →
            u.faults.find 13 (some k) = (s.faults.find 13 (some k)).map fun r =>
              { r with active := false })

/-! ### Locking -/

/-- The walks of R57 and R58 and their agreement (R59). Evaluator X finds ALL MET when no applicable entry of the list is unmet, and NOT MET otherwise,
whatever stands after the first applicable unmet entry. Evaluator Y's result is the lowest index of an
applicable unmet entry, or none where there is none; so the two evaluators agree on every list, in every
state. -/
def Obligations.EvaluatorsFindTheFirstUnmetEntry : Prop :=
  ((∀ (s : State) (p : Option Pos) (l : CondList),
        walkX s p l = true ↔
          ∀ e ∈ l, ∀ c, e = some c → entryApplies s p c = true → entryMet s c = true)
      ∧ ∀ (s : State) (p : Option Pos) (before after : CondList) (c : Cond),
          entryApplies s p c = true → entryMet s c = false →
          walkX s p (before ++ some c :: after) = false)
    ∧ ∀ (s : State) (p : Option Pos) (l : CondList),
          (walkY s p l = none ↔ ∀ e ∈ l, entryBars s p e = false)
            ∧ (∀ i, walkY s p l = some i →
                within i l.length = true ∧ entryBars s p (nth l none i) = true
                  ∧ ∀ j, 1 ≤ j → j < i → entryBars s p (nth l none j) = false)
            ∧ resultsAgree (walkX s p l) (walkY s p l) = true

/-- An evaluation of a lever with a slot, outside UNCONFIGURED, decides it free just where R55 does: a
SIGNAL lever settled REVERSE always; any other lever in use, known, at rest and not confined when its
list is met and, for a SIGNAL lever with a block line that would leave NORMAL, when the line is CLEAR and
the allowance not ABSENT. Its first unmet is evaluator Y's, its coil is that of R61, and no other lever
changes. -/
def Obligations.EvaluationDecidesByR55AndR61 : Prop :=
  ∀ (s : State) (k : Nat) (l m : Lever), s.Undisputed → within k 64 = true →
    s.levers.length = 64 → s.blockMode ≠ .unconfigured → l = s.lever k → l.slot ≠ none →
    m = (evaluate k s).lever k →
    (m.free = true ↔
        (l.type = .signal ∧ l.settled = some .reverse)
          ∨ (l.type ≠ .spare ∧ l.outOfUse = false ∧ l.current ≠ .unknown ∧ l.confinement = []
            ∧ l.settled ≠ none ∧ l.current ≠ .moving
            ∧ (∀ e ∈ listOf s k, entryBars s l.settled e = false)
            ∧ ∀ line, l.blockLine = some line → l.type = .signal → l.settled = some .normal →
                lineState s line = some .clear ∧ l.allowance ≠ some false))
      ∧ m.firstUnmet = walkY s l.settled (listOf s k)
      ∧ (s.blockMode = .service →
          (m.coil = true ↔ (l.atRest = true ∧ m.free = true) ∨ (l.current = .moving ∧ l.held ≠ none)))
      ∧ (s.blockMode ≠ .service →
          (m.coil = true ↔ l.type = .signal
            ∧ ((l.current = .reverse ∧ l.settled = some .reverse)
              ∨ (l.current = .moving ∧ l.held = some .reverse))))
      ∧ m = { l with free := m.free, reason := m.reason, firstUnmet := m.firstUnmet, coil := m.coil }
      ∧ OtherLevers k s (evaluate k s)

/-- At a departure a lever that was at rest, free and with its coil ON takes the release held of the
position it left, and in SERVICE its coil stays ON; a lever that was not takes none, but for a SIGNAL
lever settled REVERSE that is read MOVING. Of the allowances of the SIGNAL levers on a line, a grant makes
PRESENT those of the levers in use; a settle in REVERSE and the line's leaving CLEAR make all of them
ABSENT, the latter ending the releases FROM_NORMAL held by them; no other lever's allowance or release
changes. A settle in REVERSE of a lever whose own allowance is ABSENT already changes no allowance. A lever
that is read away from rest to the opposite position with no release, or is so read in a transit that began
with a departure and holds none, or settles there out of UNKNOWN, is forced: LEVER_FORCED is counted once,
and stands until it next settles, when its record goes LATCHED; one that holds a release is not. That the departing
reading is itself judged for forcing, and that a consumption of the allowances ends no release, is DEDUCED (log
entry 11). -/
def Obligations.ReleasesAndAllowancesAreTakenAndWithdrawn : Prop :=
  (∀ (s : State) (k : Nat) (r : Reading) (l m : Lever), s.Undisputed → within k 64 = true →
      s.levers.length = 64 → s.blockMode ≠ .unconfigured → l = s.lever k → l.atRest = true →
      m = (leverDeparts k r s).lever k →
      m.current = .moving ∧ m.settled = l.settled
        ∧ (l.free = true → l.coil = true →
            m.held = l.settled ∧ (s.blockMode = .service → m.coil = true))
        ∧ (l.free = false ∨ l.coil = false → l.held = none →
            m.held = (if l.type = .signal ∧ l.settled = some .reverse ∧ r = .moving then
              some .reverse else none)))
    ∧ ∀ (s : State) (line k : Nat), within k 64 = true → s.levers.length = 64 →
          (((grantAllowances line s).lever k).allowance
              = if (s.lever k).type = .signal ∧ (s.lever k).blockLine = some line
                    ∧ (s.lever k).outOfUse = false then some true else (s.lever k).allowance)
            ∧ ((grantAllowances line s).lever k).held = (s.lever k).held
            ∧ (((consumeAllowances line s).lever k).allowance
              = if (s.lever k).type = .signal ∧ (s.lever k).blockLine = some line then some false
                else (s.lever k).allowance)
            ∧ ((consumeAllowances line s).lever k).held = (s.lever k).held
            ∧ (((withdrawAllowances true line s).lever k).allowance
              = if (s.lever k).type = .signal ∧ (s.lever k).blockLine = some line then some false
                else (s.lever k).allowance)
            ∧ ((withdrawAllowances true line s).lever k).held
              = (if (s.lever k).type = .signal ∧ (s.lever k).blockLine = some line
                    ∧ (s.lever k).held = some .normal then none else (s.lever k).held)
    ∧ (∀ (s u : State) (line k j : Nat) (l m : Lever), within k 64 = true → within j 64 = true →
        s.levers.length = 64 → l = s.lever k → m = s.lever j → l.type = .signal →
        l.blockLine = some line → u = leverSettles k .reverse s →
        (u.lever j).allowance
          = if l.allowance ≠ some false ∧ m.type = .signal ∧ m.blockLine = some line then some false
            else m.allowance)
    ∧ ∀ (s u : State) (k : Nat) (r : Reading) (p : Pos) (l m : Lever), s.Undisputed →
        within k 64 = true → s.levers.length = 64 → l = s.lever k → l.contactActive = false →
        r.pos = some p → u = takeReading k r s → m = u.lever k →
        (l.forcedActive = false → l.settled = some p.opposite →
            (l.atRest = true →
                (l.free = false ∨ l.coil = false →
                    m.forcedActive = true ∧ m.held = none
                      ∧ u.faults = (countOccurrence 8 (some k) s).faults)
                  ∧ (l.free = true → l.coil = true →
                    m.forcedActive = false ∧ u.faults = s.faults))
              ∧ (l.atRest = false → l.lastReading ≠ some r →
                (l.departed = true → l.transitStart ≠ none → l.held = none →
                    m.forcedActive = true ∧ u.faults = (countOccurrence 8 (some k) s).faults)
                  ∧ (l.held ≠ none → m.forcedActive = false ∧ u.faults = s.faults))
              ∧ (l.atRest = false → l.lastReading = some r → l.departed = false →
                l.transitActive = false →
                (l.seenUnknown = true → l.held = none →
                    m.forcedActive = true ∧ m.settled = some p
                      ∧ u.faults = (countOccurrence 8 (some k) s).faults)
                  ∧ (l.seenUnknown = false ∨ l.held ≠ none →
                    m.forcedActive = false ∧ m.settled = some p ∧ u.faults = s.faults)))
          ∧ (l.forcedActive = true → l.atRest = false → l.lastReading = some r →
            l.transitActive = false →
            m.forcedActive = false ∧ m.settled = some p
              ∧ u.faults.find 8 (some k)
                = (s.faults.find 8 (some k)).map fun r => { r with active := false })

/-- TAKE OUT OF USE of a lever in use at rest in NORMAL, in SERVICE or SUSPENDED, puts it out of use with
its list as its copy and its allowance ABSENT, makes the write of its membership due, and replies when
that ends; BRING INTO USE of one whose copy passes the form checks makes the write of its list due; each
refusal of R71 and R73 changes nothing, TABLE_FORM with the form at fault among them. -/
def Obligations.AlterationSetTakesAndReturnsLevers : Prop :=
  ∀ (s : State) (t : Time) (k : Nat), s.Open → s.levers.length = 64 →
    (within k 64 = false →
        Takes (.takeOutOfUse t k) s [.result] (fun u => u.Refused 0x12 .range)
          ∧ Takes (.bringIntoUse t k) s [.result] fun u => u.Refused 0x13 .range)
      ∧ (within k 64 = true →
        (working s = false ∨ (s.lever k).type = .spare ∨ (s.lever k).outOfUse = true
            ∨ restsNormal s k = false →
          Takes (.takeOutOfUse t k) s [.result] fun u => u.Refused 0x12 .state)
        ∧ (working s = false ∨ (s.lever k).outOfUse = false ∨ restsNormal s k = false →
          Takes (.bringIntoUse t k) s [.result] fun u => u.Refused 0x13 .state)
        ∧ (working s = true → (s.lever k).type ≠ .spare → (s.lever k).outOfUse = false →
          restsNormal s k = true → 8 ≤ (alterationSet s).length →
          Takes (.takeOutOfUse t k) s [.result] fun u => u.Refused 0x12 .tableFull)
        ∧ (working s = true → (s.lever k).type ≠ .spare → (s.lever k).outOfUse = false →
          restsNormal s k = true → (alterationSet s).length < 8 →
          Takes (.takeOutOfUse t k) s [.levers, .store, .result] fun u =>
            (u.lever k).outOfUse = true ∧ (u.lever k).copy = s.tables.conds k
              ∧ (u.lever k).allowance = (s.lever k).allowance.map (fun _ => false)
              ∧ (u.lever k).current = (s.lever k).current
              ∧ (u.lever k).settled = (s.lever k).settled
              ∧ (s.blockMode ≠ .unconfigured → (u.lever k).slot ≠ none → (u.lever k).free = false)
              ∧ (∀ j, (s.lever j).outOfUse = true → (u.lever j).outOfUse = true)
              ∧ (∃ more, u.store.jobs = s.store.jobs ++ ⟨.takeOut k, some .alone⟩ :: more)
              ∧ u.store.stored = s.store.stored ∧ u.host.lastResult = none)
        ∧ (∀ f, working s = true → (s.lever k).outOfUse = true → restsNormal s k = true →
          bringFault { s.tables with
            conditions := put s.tables.conditions k (s.lever k).copy } k = some f →
          Takes (.bringIntoUse t k) s [.result] fun u =>
            u.host.lastResult = some (refusedResult 0x13 .tableForm
              (byte f.table :: (be16 f.record ++ [byte f.index]))))
        ∧ (working s = true → (s.lever k).outOfUse = true → restsNormal s k = true →
          bringFault { s.tables with
            conditions := put s.tables.conditions k (s.lever k).copy } k = none →
          Takes (.bringIntoUse t k) s [.store, .result] fun u =>
            (∃ more, u.store.jobs
                = s.store.jobs ++ ⟨.bringIn k (s.lever k).copy, some .alone⟩ :: more)
              ∧ u.store.stored = s.store.stored ∧ u.host.lastResult = none))

/-! ### Holds and releases -/

/-- A configured hold takes its events as R80 to R83 state: a settle in REVERSE of its signal lever sets
it; one in NORMAL frees a SET hold whose approach is all CLEAR, makes any other SET hold HELD, and moves no
other; a train that enters the route makes a HELD or RELEASING hold PASSING; the last approach circuit to
clear frees a HELD one, and the last route circuit to clear a PASSING one; no other change of a circuit moves
it. The settle of a lever that is not its signal lever leaves it as it is, and a hold that is not configured
takes nothing. A hold that moves is stamped with the running time of its move. -/
def Obligations.HoldsTakeSettlesAndCircuits : Prop :=
  ∀ (s : State) (k lever c : Nat) (old new : TrackState), within k 16 = true → s.holds.length = 16 →
    ((s.hold k).state = none →
        (∀ pos, (holdsTakeSettle lever pos s).hold k = s.hold k)
          ∧ (holdsTakeCircuit c old new s).hold k = s.hold k)
      ∧ ((s.tables.hold k).signal ≠ some lever →
        ∀ pos, (holdsTakeSettle lever pos s).hold k = s.hold k)
      ∧ ∀ (st : HoldState) (became : HoldState → Hold), (s.hold k).state = some st →
        (∀ x, became x = if x = st then s.hold k else ⟨some x, some s.now⟩) →
        ((s.tables.hold k).signal = some lever →
            (holdsTakeSettle lever .reverse s).hold k = became .set
              ∧ (holdsTakeSettle lever .normal s).hold k
                = became (if st = .set then
                    (if s.allClear (s.tables.hold k).approach then .idle else .held) else st))
          ∧ (holdsTakeCircuit c old new s).hold k
            = became (match st with
              | .held =>
                if c ∈ (s.tables.hold k).route ∧ old = .clear ∧ new = .occupied then .passing
                else if c ∈ (s.tables.hold k).approach ∧ new = .clear
                    ∧ s.allClear (s.tables.hold k).approach = true then .idle
                else .held
              | .releasing =>
                if c ∈ (s.tables.hold k).route ∧ old = .clear ∧ new = .occupied then .passing
                else .releasing
              | .passing =>
                if c ∈ (s.tables.hold k).route ∧ new = .clear
                    ∧ s.allClear (s.tables.hold k).route = true then .idle
                else .passing
              | other => other)

/-- REQUEST RELEASE of a configured IDLE timer whose owner needs it starts it, to run its duration,
enters RELEASE_STARTED and replies DONE with the duration; its hold, if it is a hold's, goes RELEASING.
CANCEL RELEASE of a RUNNING or COMPLETE timer makes it IDLE with its times none, enters
RELEASE_CANCELLED by HOST and replies DONE with no data; a hold RELEASING under it goes IDLE where its
approach is all CLEAR and HELD otherwise. Each refusal of R87 and R91 changes nothing. -/
def Obligations.ReleaseTimersAreRequestedAndCancelled : Prop :=
  ∀ (s : State) (t : Time) (r : Nat) (o : OwnerKind × Nat) (d : Nat), s.Open →
    s.timers.length = 16 → s.holds.length = 16 → o = timerOwner s r →
    d = (s.tables.timer r).duration →
    (within r 16 = false →
        Takes (.requestRelease t r) s [.result] fun u => u.Refused 0x23 .range)
      ∧ (within r 16 = true →
        timerOn s r = false ∨ (s.timer r).state ≠ .idle ∨ ownerNeeds s o = false →
        Takes (.requestRelease t r) s [.result] fun u => u.Refused 0x23 .state)
      ∧ (within r 16 = true → timerOn s r = true → (s.timer r).state = .idle →
        ownerNeeds s o = true →
        Takes (.requestRelease t r) s [.timers, .holds, .register, .levers, .result] fun u =>
          (u.timer r).kept
              = { s.timer r with state := .running, expiry := some (max s.now t + d * 1000)
                                 staged := [] }
            ∧ OtherTimers r s u ∧ u.Gave 0x23 (be16 d)
            ∧ (match o.1 with
              | .hold =>
                (within o.2 16 = true → u.hold o.2 = ⟨some .releasing, some (max s.now t)⟩)
                  ∧ OtherHolds o.2 s u
                  ∧ u.register
                    = (s.register.append (.releaseStarted r o d)).append
                        (.hold o.2 .held .releasing)
              | .sequence =>
                u.holds = s.holds ∧ u.register = s.register.append (.releaseStarted r o d)
              | .lever =>
                u.holds = s.holds ∧ u.register = s.register.append (.releaseStarted r o d)))
      ∧ (within r 16 = false →
        Takes (.cancelRelease t r) s [.result] fun u => u.Refused 0x24 .range)
      ∧ (within r 16 = true → timerOn s r = false ∨ (s.timer r).state = .idle →
        Takes (.cancelRelease t r) s [.result] fun u => u.Refused 0x24 .state)
      ∧ (within r 16 = true → timerOn s r = true → (s.timer r).state ≠ .idle →
        Takes (.cancelRelease t r) s [.timers, .holds, .register, .levers, .result] fun u =>
          (u.timer r).state = .idle ∧ (u.timer r).expiry = none ∧ (u.timer r).lapse = none
            ∧ OtherTimers r s u ∧ u.Gave 0x24 []
            ∧ (o.1 = .hold → within o.2 16 = true → (s.hold o.2).state = some .releasing →
                ∀ new, new = (if s.allClear (s.tables.hold o.2).approach then HoldState.idle
                    else .held) →
                  (u.hold o.2).state = some new ∧ OtherHolds o.2 s u
                    ∧ u.register = (s.register.append (.releaseCancelled r o .host)).append
                        (.hold o.2 .releasing new))
            ∧ (o.1 ≠ .hold →
                u.holds = s.holds ∧ u.register = s.register.append (.releaseCancelled r o .host)))

/-- The expiry of a RUNNING timer enters RELEASE_COMPLETE and is taken by its owner: a hold goes IDLE
with the timer, a sequence that waits is COMPLETE with its released mark, and a lever's timer goes
COMPLETE, to lapse one validity later. The lapse of a COMPLETE timer makes it IDLE, with a
RELEASE_CANCELLED entry of cause LAPSED. Neither acts before its time. That the lapse is counted from
the expiry is the manual's, R88. -/
def Obligations.ReleasesExpireAndLapse : Prop :=
  ∀ (s : State) (t : Time) (r : Nat) (o : OwnerKind × Nat) (e : Time), s.Undisputed →
    within r 16 = true → s.timers.length = 16 → s.holds.length = 16 → s.inbound.length = 3 →
    o = timerOwner s r →
    ((s.timer r).state ≠ .running ∨ (∀ x, (s.timer r).expiry = some x → max s.now t < x) →
        Takes (.releaseTimerExpiry t r) s [] fun _ => True)
      ∧ ((s.timer r).state ≠ .complete ∨ (∀ x, (s.timer r).lapse = some x → max s.now t < x) →
        Takes (.releaseLapse t r) s [] fun _ => True)
      ∧ ((s.timer r).state = .running → (s.timer r).expiry = some e → e ≤ max s.now t →
        (o.1 = .hold → within o.2 16 = true → (s.hold o.2).state = some .releasing →
          Takes (.releaseTimerExpiry t r) s [.timers, .holds, .register, .levers] fun u =>
            (u.timer r).state = .idle ∧ (u.timer r).expiry = none ∧ OtherTimers r s u
              ∧ u.hold o.2 = ⟨some .idle, some (max s.now t)⟩ ∧ OtherHolds o.2 s u
              ∧ u.register = (s.register.append (.releaseComplete r o)).append
                  (.hold o.2 .releasing .idle))
        ∧ (o.1 = .sequence → within (linkOfLine o.2) 3 = true →
          (s.inb (linkOfLine o.2)).sequence = .wait ∨ (s.inb (linkOfLine o.2)).sequence = .arriving
            ∨ (s.inb (linkOfLine o.2)).sequence = .passing →
          Takes (.releaseTimerExpiry t r) s [.timers, .inbound, .register, .levers] fun u =>
            (u.timer r).state = .idle ∧ (u.timer r).expiry = none ∧ OtherTimers r s u
              ∧ (u.inb (linkOfLine o.2)).sequence = .complete
              ∧ (u.inb (linkOfLine o.2)).released = true ∧ OtherInbound (linkOfLine o.2) s u
              ∧ u.register = s.register.append (.releaseComplete r o))
        ∧ (o.1 = .lever →
          Takes (.releaseTimerExpiry t r) s [.timers, .register, .levers] fun u =>
            (u.timer r).state = .complete ∧ (u.timer r).expiry = none
              ∧ (u.timer r).lapse = some (e + (s.tables.timer r).validity.getD 60 * 1000)
              ∧ OtherTimers r s u ∧ u.register = s.register.append (.releaseComplete r o)))
      ∧ ((s.timer r).state = .complete → (s.timer r).lapse = some e → e ≤ max s.now t →
        Takes (.releaseLapse t r) s [.timers, .register, .levers] fun u =>
          (u.timer r).state = .idle ∧ (u.timer r).lapse = none ∧ OtherTimers r s u
            ∧ u.register = s.register.append (.releaseCancelled r o .lapsed))

/-! ### Bell codes -/

/-- SEND CODE on a link that takes codes, with no code being sent, opens a host code with the next code
number, its strokes scheduled from the running time of the step, and replies DONE with that number; each
refusal of R103 changes nothing. The schedule has one stroke for each beat, the first at once, those of a
group one in-group gap apart, and a new-group mark on the first of each group alone. -/
def Obligations.SendCodeOpensAHostCode : Prop :=
  (∀ (s : State) (t : Time) (k : Nat) (groups : List Nat), s.Open → s.bells.length = 3 →
      (within k 3 = false ∨ groups.length < 1 ∨ 4 < groups.length ∨ (∃ g ∈ groups, g < 1 ∨ 16 < g) →
          Takes (.sendCode t k groups) s [.result] fun u => u.Refused 0x30 .range)
        ∧ (within k 3 = true → 1 ≤ groups.length → groups.length ≤ 4 →
          (∀ g ∈ groups, 1 ≤ g ∧ g ≤ 16) →
          (linkTakesCodes s k = false →
              Takes (.sendCode t k groups) s [.result] fun u => u.Refused 0x30 .state)
            ∧ (linkTakesCodes s k = true →
              (s.bell k).plunger ≠ none ∨ (s.bell k).host ≠ none →
              Takes (.sendCode t k groups) s [.result] fun u => u.Refused 0x30 .busy)
            ∧ (linkTakesCodes s k = true → (s.bell k).plunger = none → (s.bell k).host = none →
              Takes (.sendCode t k groups) s [.bells, .result] fun u =>
                u.Gave 0x30 [byte (s.bell k).nextCode] ∧ OtherBells k s u
                  ∧ (u.bell k).nextCode = ((s.bell k).nextCode + 1) % 16
                  ∧ (u.bell k).plunger = none ∧ (u.bell k).received = (s.bell k).received
                  ∧ (u.bell k).expectation = (s.bell k).expectation
                  ∧ ∃ h, (u.bell k).host = some h ∧ h.number = (s.bell k).nextCode
                    ∧ h.pattern = groups ∧ h.sent = 0
                    ∧ h.stroke = (s.tables.bell k).sendStroke
                    ∧ h.rules = s.tables.page k ++ s.tables.page 0
                    ∧ h.schedule = scheduleOf (s.tables.bell k) groups (max s.now t)
                    ∧ h.endAt = lastStart h.schedule + (s.tables.bell k).endGap)))
    ∧ ∀ (c : BellCfg) (g : Nat) (gs : List Nat) (start : Time), 1 ≤ g → (∀ x ∈ gs, 1 ≤ x) →
        (scheduleOf c (g :: gs) start).length = g + gs.sum
          ∧ (scheduleOf c (g :: gs) start).take g
            = (List.range g).map (fun i => (start + i * c.inGroup, i == 0))
          ∧ (scheduleOf c (g :: gs) start).drop g
            = scheduleOf c gs (start + (g - 1) * c.inGroup + c.betweenGroup)

/-- The strokes of a host code end at their times, one STROKE item handed to the Link Unit for each, and
the code ends one end gap after its last stroke start, with its CODE END handed over, a CODE_SENT entry
by host with the first match of the pages copied at its opening, and, for a meaning other than TEST and
ENTERING that does not answer a code, a repeat expectation. Neither acts before its time. -/
def Obligations.HostCodesAreSentAsScheduled : Prop :=
  ∀ (s : State) (t : Time) (k : Nat) (h : HostCode), s.Undisputed → within k 3 = true →
    s.bells.length = 3 → s.links.length = 3 → (s.bell k).host = some h →
    (∀ start g rest, h.schedule = (start, g) :: rest →
        (max s.now t < start + h.stroke →
            Takes (.hostCodeStrokeEnd t k) s [] fun _ => True)
          ∧ (start + h.stroke ≤ max s.now t →
            Takes (.hostCodeStrokeEnd t k) s [.bells, .links] fun u =>
              (u.bell k).host = some { h with schedule := rest, sent := h.sent + 1 }
                ∧ OtherBells k s u ∧ OtherLinks k s u
                ∧ (u.link k).kept = ((s.link k).handOver (max s.now t)
                    (.stroke h.number g (h.sent + 1) (h.stroke / 5))).kept)
          ∧ Takes (.hostCodeEnd t k) s [] fun _ => True)
      ∧ (h.schedule = [] →
        (max s.now t < h.endAt → Takes (.hostCodeEnd t k) s [] fun _ => True)
          ∧ (h.endAt ≤ max s.now t → (matchCode h.rules true h.pattern).1 ≠ .entering →
            (s.bell k).answerable = none →
            Takes (.hostCodeEnd t k) s [.bells, .links, .register] fun u =>
              (u.bell k).host = none ∧ OtherBells k s u ∧ OtherLinks k s u
                ∧ (u.link k).kept = ((s.link k).handOver (max s.now t)
                    (.codeEnd h.number h.sent false)).kept
                ∧ u.register = s.register.append (.codeSent k h.pattern
                    (some (matchCode h.rules true h.pattern).1)
                    (matchCode h.rules true h.pattern).2 false true)
                ∧ (u.bell k).expectation
                  = if (matchCode h.rules true h.pattern).1 = .test then none
                    else some ⟨h.pattern, (matchCode h.rules true h.pattern).1,
                      (matchCode h.rules true h.pattern).2, max s.now t,
                      max s.now t + (s.tables.bell k).reply * 1000⟩))

/-- A plunger code whose end time has come, with no taken stroke held, ends: its CODE END is handed over
with the strokes relayed, and a CODE_SENT entry is made, with no meaning and no expectation where it is
GARBLED; a code ENTERING that is not marks its outbound line and stops its watch. A received
code silent for its end gap and 2 s more ends GARBLED, with a CODE_RECEIVED entry, and leaves the
expectation. An expectation whose deadline has come closes with a CODE_UNANSWERED entry. None of them acts
before its time, or, which is the model's (log entry 2, DESIGN CHOICE), with nothing open. A sent code that
may answer one received, and a plunger code that has no counted stroke yet, are left out. -/
def Obligations.CodesEndAtTheirTimes : Prop :=
  ∀ (s : State) (t : Time) (k : Nat), s.Undisputed → within k 3 = true →
    s.bells.length = 3 → s.links.length = 3 →
    (∀ c e, (s.bell k).plunger = some c → c.previousStart = some e →
        (max s.now t < e + (s.tables.bell k).endGap ∨ (s.bell k).strokeTaken = true →
            Takes (.plungerCodeEnd t k) s [] fun _ => True)
          ∧ (e + (s.tables.bell k).endGap ≤ max s.now t → (s.bell k).strokeTaken = false →
            (s.bell k).answerable = none → ∀ m, m = matchCode c.rules true c.pattern.beats →
            (c.garbled = true ∨ m.1 ≠ .entering →
                Takes (.plungerCodeEnd t k) s [.bells, .links, .register] fun _ => True)
              ∧ Takes (.plungerCodeEnd t k) s [.bells, .links, .register, .outbound] fun u =>
                (u.bell k).plunger = none
                  ∧ (u.bell k).expectation
                    = (if c.garbled = true ∨ m.1 = .test then none
                      else some ⟨c.pattern.beats, m.1, m.2, max s.now t,
                        max s.now t + (s.tables.bell k).reply * 1000⟩)
                  ∧ OtherBells k s u ∧ OtherLinks k s u ∧ OtherOutbound k s u
                  ∧ (u.link k).kept = ((s.link k).handOver (max s.now t)
                      (.codeEnd (c.number.getD 0) c.relayed c.garbled)).kept
                  ∧ (c.garbled = false → m.1 = .entering → s.outbound.length = 3 →
                    (u.outb k).entering = true ∧ (u.outb k).overdueAt = none)
                  ∧ u.register
                    = s.register.append (.codeSent k c.pattern.beats
                        (if c.garbled then none else some m.1)
                        (if c.garbled then none else m.2) c.garbled false)))
      ∧ (∀ c, (s.bell k).received = some c →
        (max s.now t < c.lastItem + (s.tables.bell k).endGap + 2000 →
            Takes (.receiveTimeout t k) s [] fun _ => True)
          ∧ (c.lastItem + (s.tables.bell k).endGap + 2000 ≤ max s.now t →
            Takes (.receiveTimeout t k) s [.bells, .register] fun u =>
              (u.bell k).received = none ∧ (u.bell k).lastEnded = some (c.number, max s.now t)
                ∧ (u.bell k).expectation = (s.bell k).expectation ∧ OtherBells k s u
                ∧ u.register
                  = s.register.append (.codeReceived k c.pattern.beats none none true)))
      ∧ (∀ e, (s.bell k).expectation = some e →
        (max s.now t < e.deadline → Takes (.expectationDeadline t k) s [] fun _ => True)
          ∧ (e.deadline ≤ max s.now t →
            Takes (.expectationDeadline t k) s [.bells, .register] fun u =>
              (u.bell k).kept = { s.bell k with expectation := none, staged := [] }
                ∧ OtherBells k s u
                ∧ u.register
                  = s.register.append (.codeUnanswered k e.pattern e.meaning e.cls)))
      ∧ ((s.bell k).plunger = none → Takes (.plungerCodeEnd t k) s [] fun _ => True)
      ∧ ((s.bell k).received = none → Takes (.receiveTimeout t k) s [] fun _ => True)
      ∧ ((s.bell k).expectation = none → Takes (.expectationDeadline t k) s [] fun _ => True)

/-- Whatever strokes are placed in a pattern, it holds at most 4 groups of 1 to 16 beats; a stroke is
placed just while both limits are kept, and one beyond them leaves the beats. A code is matched against
the link's own page first, then page 0, each in rule order, by the first used rule that is valid in its
direction and has its pattern; with none its meaning is UNKNOWN with no class. A plunger that closes starts
a stroke: it is discarded while a host code is sent or, with no code open, where the link takes none; it
opens a plunger code, or joins the one open. One that opens ends the stroke: of 40 ms or more it is counted,
placed in the pattern with a new group after the group gap, marks its code GARBLED beyond 1000 ms or beyond
the limits of a pattern, and is handed on as a STROKE item, the first 64 of a code; a shorter one counts
nothing, and closes a code that has counted none. The clauses are of codes that do not end with the stroke. -/
def Obligations.PatternsKeepTheirLimitsAndMatchTheFirstRule : Prop :=
  (∀ marks : List Bool, ∀ p : Pattern,
      p = (true :: marks).foldl (fun p g => (p.place g).1) {} →
        1 ≤ p.beats.length ∧ p.beats.length ≤ 4 ∧ (∀ n ∈ p.beats, 1 ≤ n ∧ n ≤ 16)
          ∧ p.groups = 1 + (marks.filter id).length
          ∧ p.beats.length = min p.groups 4)
    ∧ (∀ (p : Pattern) (g : Bool), ((p.place g).2 = false → (p.place g).1.beats = p.beats)
        ∧ ((p.place true).2 = true ↔ p.groups < 4)
        ∧ ((p.place false).2 = true ↔ p.groups ≤ 4 ∧ nth p.beats 0 p.groups < 16))
    ∧ ∀ (s : State) (k : Nat) (sent : Bool) (pattern : List Nat),
        (rulesFor s k = s.tables.page k ++ s.tables.page 0)
          ∧ (∀ before r after, rulesFor s k = before ++ r :: after → r.pattern ≠ [] →
              r.pattern = pattern → r.valid sent = true →
              (∀ q ∈ before, q.pattern ≠ pattern ∨ q.valid sent = false) →
              matchCode (rulesFor s k) sent pattern = (r.meaning, r.cls))
          ∧ ((∀ q ∈ rulesFor s k, q.pattern = [] ∨ q.pattern ≠ pattern ∨ q.valid sent = false) →
              matchCode (rulesFor s k) sent pattern = (.unknown, none))
    ∧ ∀ (s u : State) (k : Nat) (closed : Bool) (b : Bell), within k 3 = true →
        s.instruments.length = 3 → s.bells.length = 3 → s.links.length = 3 → b = s.bell k →
        u = takePlunger k closed s →
        ((s.instrument k).plunger = .arming → closed = true → u = s)
          ∧ ((s.instrument k).plunger = .released → closed = false → u = s)
          ∧ (∀ start, (s.instrument k).plunger = .closed start → closed = true → u = s)
          ∧ ((s.instrument k).plunger = .arming → closed = false →
            (u.instrument k).plunger = .released ∧ u.bells = s.bells ∧ u.links = s.links)
          ∧ ((s.instrument k).plunger = .released → closed = true →
            (u.instrument k).plunger = .closed s.now
              ∧ (b.plunger = none → b.host ≠ none ∨ linkTakesCodes s k = false →
                u.bells = s.bells ∧ u.links = s.links)
              ∧ (b.plunger = none → b.host = none → linkTakesCodes s k = true →
                OtherBells k s u ∧ u.links = s.links
                  ∧ u.bell k = { b with
                      strokeTaken := true
                      plunger := some { opened := s.now, rules := rulesFor s k } })
              ∧ (∀ c, b.plunger = some c → b.host = none →
                (∀ e, c.previousStart = some e → s.now < e + (s.tables.bell k).endGap) →
                OtherBells k s u ∧ u.links = s.links ∧ u.bell k = { b with strokeTaken := true }))
          ∧ ∀ start d, (s.instrument k).plunger = .closed start → closed = false →
            d = s.now - start →
            (u.instrument k).plunger = .released
              ∧ (b.strokeTaken = false ∨ b.plunger = none → u.bells = s.bells ∧ u.links = s.links)
              ∧ ∀ c, b.strokeTaken = true → b.plunger = some c →
                (d < 40 → c.counted = 0 →
                    OtherBells k s u ∧ u.links = s.links
                      ∧ u.bell k = { b with strokeTaken := false, plunger := none })
                  ∧ (d < 40 → c.counted ≠ 0 →
                    (∀ e, c.previousStart = some e → s.now < e + (s.tables.bell k).endGap) →
                    OtherBells k s u ∧ u.links = s.links ∧ u.bell k = { b with strokeTaken := false })
                  ∧ (40 ≤ d → s.now < start + (s.tables.bell k).endGap →
                    ∀ number newGroup p, number = c.number.getD b.nextCode →
                    newGroup = c.previousStart.all
                      (fun e => decide (e + (s.tables.bell k).groupGap ≤ start)) →
                    p = c.pattern.place newGroup →
                    1 ≤ (s.tables.bell k).groupGap →
                    OtherBells k s u
                      ∧ u.bell k = { b with
                          strokeTaken := false
                          nextCode := if c.number = none then (b.nextCode + 1) % 16 else b.nextCode
                          plunger := some { c with
                            number := some number, pattern := p.1, counted := c.counted + 1
                            previousStart := some start
                            garbled := c.garbled || decide (1000 < d) || !p.2
                            relayed := if c.counted < 64 then c.relayed + 1 else c.relayed } }
                      ∧ (64 ≤ c.counted → u.links = s.links)
                      ∧ (c.counted < 64 →
                        u.link k = (s.link k).handOver s.now
                          (.stroke number newGroup (c.counted + 1) (min d 1000 / 5))
                        ∧ ∀ j, j ≠ k → u.link j = s.link j))

/-! ### Lines -/

/-- A settle of a commutator that has a record, judged by R116 from the position of the last settle delivered,
which is the model's reading for a settle after UNKNOWN, as is the time of change that a first settle sets (log
entry 12, DEDUCED): back where it left, it changes nothing;
back in its record's position, it ends COMMUTATOR_FORCED and leaves the record; from the record's
position, with every coil the move needs in the permission held, the record takes the state it stands
for, with the classes and the arrival sequence of R119, a LINE_STATE entry, the time of change and an
indication due; any other settle begins COMMUTATOR_FORCED and leaves the record. In every case the
permission held becomes none. A first settle after a reset gives the record its state. At a departure the
coils that are ON become the permission held, and stay ON. The coils are evaluated as R121 and R122 give
them: in correspondence in SERVICE, both at C, K1 at B by acceptance control and K2 there, and K2 at O by
arrival control; outside SERVICE only K1 at C and K2 at B; none in UNCONFIGURED or while UNKNOWN; out of
correspondence those that lead back; and at C only K1 where the link is confined as forced. A change of the
arrival or the clearing circuit moves the arrival sequence by R124, and the proof of arrival cancels a
RUNNING sequence timer. -/
def Obligations.CommutatorSettlesMoveTheInboundLine : Prop :=
  (∀ (s u : State) (k : Nat) (x y : CommPos) (st : LineState) (i j : Inbound), s.Undisputed →
      within k 3 = true → s.inbound.length = 3 → s.links.length = 3 → i = s.inb k →
      u = takeSettle k y s → j = u.inb k →
      j.permission = ⟨false, false⟩ ∧ j.handle = some y
        ∧ (i.state = some st → i.handle = some x →
          (y = x → j.state = some st ∧ j.sequence = i.sequence ∧ u.register = s.register
              ∧ u.faults = s.faults ∧ OtherInbound k s u)
          ∧ (y ≠ x → x ≠ st.handle → y = st.handle →
            j.state = some st ∧ j.forcedActive = false ∧ u.register = s.register
              ∧ OtherInbound k s u)
          ∧ (y ≠ x → x ≠ st.handle → y ≠ st.handle → j.state = some st ∧ j.forcedActive = true)
          ∧ (y ≠ x → x = st.handle → i.permission.contains (coilsNeeded x y) = false →
            j.state = some st ∧ j.forcedActive = true)
          ∧ (y ≠ x → x = st.handle → i.permission.contains (coilsNeeded x y) = true →
            j.state = some y.line ∧ j.lastChange = some s.now ∧ j.forcedActive = i.forcedActive
              ∧ (u.link k).indicationDue = true ∧ OtherInbound k s u
              ∧ (i.disagreeActive = false → u.register = s.register.append
                  (.lineState (2 * k - 1) (some st) y.line j.accepted))
              ∧ (st = .blocked → y = .c →
                j.offered = none ∧ j.sequence = i.sequence
                  ∧ j.accepted = some (match i.offered with
                    | some c => .cls c
                    | none => .unspecified))
              ∧ (st = .blocked → y = .o →
                j.offered = none ∧ j.sequence = .wait ∧ j.accepted = i.accepted)
              ∧ (st = .clear → y = .o → j.sequence = .wait ∧ j.accepted = i.accepted)
              ∧ (st = .clear → y = .b →
                j.offered = none ∧ j.accepted = none ∧ j.sequence = i.sequence)
              ∧ (st = .occupied → y = .b →
                j.offered = none ∧ j.accepted = none ∧ j.sequence = .idle ∧ j.released = false)))
        ∧ (i.state = none →
          j.state = some y.line ∧ j.lastChange = some s.now ∧ OtherInbound k s u
            ∧ (y = .o → j.sequence = .wait)
            ∧ (i.disagreeActive = false → u.register = s.register.append
                (.lineState (2 * k - 1) none y.line j.accepted))))
    ∧ (∀ (s u : State) (k : Nat), within k 3 = true → s.inbound.length = 3 → u = takeDeparture k s →
        (u.inb k).permission = (s.inb k).coils ∧ OtherInbound k s u
          ∧ u.inb k = { s.inb k with permission := (s.inb k).coils, coils := (u.inb k).coils }
          ∧ (presented s k = .moving → (u.inb k).coils = (s.inb k).coils))
    ∧ (∀ (s u : State) (k : Nat) (c : Coils), within k 3 = true → s.inbound.length = 3 →
        u = evalCoils k s → c = (u.inb k).coils →
        u.inb k = { s.inb k with coils := c } ∧ OtherInbound k s u
          ∧ (presented s k = .unknown → c = ⟨false, false⟩)
          ∧ (presented s k = .moving → c = (s.inb k).permission)
          ∧ ∀ x st, presented s k = .rest x → (s.inb k).state = some st →
            (s.blockMode = .unconfigured → c = ⟨false, false⟩)
              ∧ (s.blockMode ≠ .unconfigured → x ≠ st.handle → c = coilsNeeded x st.handle)
              ∧ (s.blockMode ≠ .unconfigured → x = st.handle →
                ((s.inb k).forcedConfinement ≠ [] → c = ⟨decide (st = .clear), false⟩)
                  ∧ ((s.inb k).forcedConfinement = [] →
                    ((s.blockMode = .service →
                        (st = .clear → c = ⟨true, true⟩)
                          ∧ (st = .occupied →
                            c = ⟨false, decide ((s.inb k).sequence = .complete)⟩)
                          ∧ (st = .blocked →
                            (c.k1 = true ↔ (s.inb k).offered ≠ none
                              ∧ (∀ j ∈ (s.tables.inb k).clearingPoint, (s.circuit j).state = .clear)
                              ∧ (∀ h, (s.tables.inb k).home = some h →
                                (s.lever h).current = .normal ∧ (s.lever h).settled = some .normal)
                              ∧ (s.link k).lost = false ∧ (s.link k).state ≠ .outOfUse
                              ∧ (s.isSingle k = false ∨ (s.outb k).state = some .blocked))
                            ∧ (c.k2 = true ↔
                              s.isSingle k = false ∨ (s.outb k).state = some .blocked)))
                      ∧ (s.blockMode ≠ .service →
                        (st = .clear → c = ⟨true, false⟩)
                          ∧ (st = .occupied → c = ⟨false, false⟩)
                          ∧ (st = .blocked → c.k1 = false ∧ (c.k2 = true ↔
                            s.isSingle k = false ∨ (s.outb k).state = some .blocked)))))))
    ∧ ∀ (s u : State) (k c : Nat) (old new : TrackState) (i j : Inbound) (cfg : InboundCfg),
        within k 3 = true → s.inbound.length = 3 → s.timers.length = 16 → i = s.inb k →
        cfg = s.tables.inb k → u = sequenceCircuit c old new k s → j = u.inb k →
        OtherInbound k s u ∧ j = { i with sequence := j.sequence, coils := j.coils }
          ∧ (i.sequence = .wait →
            j.sequence = if cfg.arrival = some c ∧ old = .clear ∧ new = .occupied then
              (if cfg.clearing = none then .passing else .arriving) else .wait)
          ∧ (i.sequence = .arriving →
            (cfg.clearing = some c → old = .clear → new = .occupied → j.sequence = .passing)
              ∧ (cfg.arrival = some c → old = .occupied → new = .clear → j.sequence = .wait)
              ∧ (cfg.clearing ≠ some c ∨ old ≠ .clear ∨ new ≠ .occupied →
                cfg.arrival ≠ some c ∨ new ≠ .clear → j.sequence = .arriving))
          ∧ (i.sequence = .passing →
            (cfg.arrival = some c → old = .occupied → new = .clear →
                j.sequence = .complete
                  ∧ ∀ r, cfg.timer = some r → within r 16 = true → (s.timer r).state = .running →
                    (u.timer r).state = .idle ∧ (u.timer r).expiry = none
                      ∧ u.register = s.register.append
                        (.releaseCancelled r (timerOwner s r) .owner))
              ∧ (cfg.arrival ≠ some c ∨ new ≠ .clear → j.sequence = .passing))
          ∧ (i.sequence = .idle ∨ i.sequence = .complete → u = s)

/-- The outbound line takes the far state of an indication by R126: a far BLOCKED always blocks it and
clears the guard; a far CLEAR is believed only with the guard clear, the sender in SERVICE and no
exclusion, and then clears the line under the class offered, with its marks fresh; one not believed is
refused, with one CONFLICT entry for the state last refused; a CLEAR line whose sender is not in SERVICE
goes BLOCKED with its guard set and a CLEAR_LOST entry; a far OCCUPIED makes the line OCCUPIED but where
exclusion refuses it. The departure circuit that goes from CLEAR to OCCUPIED while the line is CLEAR, for
the first time, marks the departure and starts the overdue watch, unless ENTERING has been sent. A received
code that repeats the expectation is a CODE_ACK, and its OFFER gives a BLOCKED outbound line its class
offered, its CANCEL takes that away; any other that is not GARBLED is recorded as received, after a
CODE_NOT_REPEATED of the expectation it closes, and may be answered: its OFFER gives a BLOCKED inbound line
its class offered, its CANCEL takes that away, and its OBSTRUCTION withdraws the allowances of the outbound
line. A GARBLED one has no meaning, and leaves the expectation. -/
def Obligations.FarStatesMoveTheOutboundLine : Prop :=
  (∀ (s u : State) (k : Nat) (far : LineState) (service : Bool) (o p : Outbound), s.Undisputed →
      within k 3 = true → s.outbound.length = 3 → o = s.outb k →
      u = takeFarState k far service s → p = u.outb k →
      OtherOutbound k s u
        ∧ (o.state = none → u = s)
        ∧ (far = .blocked → o.state ≠ none →
          p.state = some .blocked ∧ p.guard = false ∧ p.refusedFar = none
            ∧ (o.state = some .blocked → u.register = s.register ∧ p.lastChange = o.lastChange)
            ∧ (∀ st, o.state = some st → st ≠ .blocked →
              p.offered = none ∧ p.accepted = none ∧ p.lastChange = some s.now
                ∧ u.register
                  = s.register.append (.lineState (2 * k) (some st) .blocked none)))
        ∧ (o.state = some .blocked → far = .clear →
          (o.guard = false → service = true → excluded s k = false →
            p.state = some .clear ∧ p.offered = none ∧ p.refusedFar = none
              ∧ p.departureSeen = false ∧ p.entering = false ∧ p.lastChange = some s.now
              ∧ p.accepted = some (match o.offered with
                | some c => .cls c
                | none => .unspecified)
              ∧ u.register = s.register.append
                  (.lineState (2 * k) (some .blocked) .clear p.accepted))
          ∧ (o.guard = true ∨ service = false ∨ excluded s k = true →
            p = { o with refusedFar := some .clear }
              ∧ u.register = if o.refusedFar = some .clear then s.register
                else s.register.append (.conflict (2 * k) .clear)))
        ∧ (o.state = some .blocked → far = .occupied →
          (excluded s k = false → p.state = some .occupied)
            ∧ (excluded s k = true → p = { o with refusedFar := some .occupied }
              ∧ u.register = if o.refusedFar = some .occupied then s.register
                else s.register.append (.conflict (2 * k) .occupied)))
        ∧ (o.state = some .clear → far = .clear → service = false →
          p.state = some .blocked ∧ p.guard = true ∧ p.offered = none ∧ p.accepted = none
            ∧ u.register = s.register.append (.clearLost (2 * k) .notInService))
        ∧ (o.state = some .clear → far = .clear → service = true → u = s)
        ∧ (o.state = some .clear → far = .occupied →
          p.state = some .occupied ∧ p.offered = none ∧ p.accepted = none
            ∧ u.register = s.register.append (.lineState (2 * k) (some .clear) .occupied none))
        ∧ (o.state = some .occupied → far = .occupied → u = s)
        ∧ (o.state = some .occupied → far = .clear →
          (o.guard = false → service = true → excluded s k = false →
            p.state = some .clear ∧ p.accepted = some .unspecified ∧ p.offered = none)
          ∧ (o.guard = true ∨ service = false ∨ excluded s k = true →
            p.state = some .blocked ∧ p.refusedFar = some .clear)))
    ∧ (∀ (s u : State) (k c : Nat) (old new : TrackState) (o : Outbound), within k 3 = true →
        s.outbound.length = 3 → o = s.outb k → u = departureCircuit c old new k s →
        ((s.tables.outb k).departure = some c → old = .clear → new = .occupied →
            o.state = some .clear → o.departureSeen = false →
            OtherOutbound k s u
              ∧ u.outb k = { o with
                  departureSeen := true
                  overdueAt := if o.entering = true then o.overdueAt
                    else some (s.now + (s.tables.outb k).overdue * 1000) })
          ∧ ((s.tables.outb k).departure ≠ some c ∨ old ≠ .clear ∨ new ≠ .occupied
              ∨ o.state ≠ some .clear ∨ o.departureSeen = true → u = s))
    ∧ ∀ (s u : State) (k number : Nat) (pattern : List Nat) (garbled : Bool) (rules : List CodeRule)
        (m : Meaning × Option Nat) (b : Bell), within k 3 = true → s.bells.length = 3 →
        s.inbound.length = 3 → s.outbound.length = 3 → s.levers.length = 64 → b = s.bell k →
        m = matchCode rules false pattern → u = endReceived k number pattern garbled rules s →
        OtherBells k s u ∧ (u.bell k).received = none
          ∧ (u.bell k).lastEnded = some (number, s.now)
          ∧ (garbled = true →
            u.register = s.register.append (.codeReceived k pattern none none true)
              ∧ (u.bell k).expectation = b.expectation ∧ (u.bell k).answerable = b.answerable
              ∧ u.inbound = s.inbound ∧ u.outbound = s.outbound ∧ u.levers = s.levers)
          ∧ (∀ e, garbled = false → b.expectation = some e → e.pattern = pattern →
            u.register = s.register.append (.codeAck k e.pattern e.meaning e.cls)
              ∧ (u.bell k).expectation = none ∧ (u.bell k).answerable = b.answerable
              ∧ u.inbound = s.inbound ∧ u.levers = s.levers ∧ OtherOutbound k s u
              ∧ (e.meaning = .offer → u.outb k = { s.outb k with
                  offered := if (s.outb k).state = some .blocked then e.cls
                    else (s.outb k).offered })
              ∧ (e.meaning = .cancel → u.outb k = { s.outb k with offered := none })
              ∧ (e.meaning ≠ .offer → e.meaning ≠ .cancel → u.outbound = s.outbound))
          ∧ (garbled = false → (∀ e, b.expectation = some e → e.pattern ≠ pattern) →
            (u.bell k).expectation = none ∧ (u.bell k).answerable = some (pattern, s.now)
              ∧ u.outbound = s.outbound
              ∧ (∀ e, b.expectation = some e → u.register
                = (s.register.append (.codeNotRepeated k e.pattern e.meaning e.cls)).append
                    (.codeReceived k pattern (some m.1) m.2 false))
              ∧ (b.expectation = none →
                u.register = s.register.append (.codeReceived k pattern (some m.1) m.2 false))
              ∧ OtherInbound k s u
              ∧ (m.1 = .offer → (u.inb k).offered
                  = (if (s.inb k).state = some .blocked then m.2 else (s.inb k).offered)
                ∧ u.levers = s.levers)
              ∧ (m.1 = .cancel → (u.inb k).offered = none ∧ u.levers = s.levers)
              ∧ (m.1 = .obstruction → u.inbound = s.inbound ∧ ∀ j, within j 64 = true →
                (u.lever j).allowance
                  = if (s.lever j).type = .signal ∧ (s.lever j).blockLine = some (2 * k) then some false
                    else (s.lever j).allowance)
              ∧ (m.1 ≠ .offer → m.1 ≠ .cancel → m.1 ≠ .obstruction →
                u.inbound = s.inbound ∧ u.levers = s.levers))

/-- Compares of levers and lines. A transit compare that has expired begins LEVER_TRANSIT, at a reaction
of REPORT with a record and nothing else. A disagreement that has stood for its time begins
LINE_DISAGREE, which confines nothing, or only stops its compare where that cause is active. An overdue
expiry makes the OVERDUE entry, with the time that ran, and stops the watch. None acts before its time. -/
def Obligations.ComparesOfLeversAndLinesBeginTheirCauses : Prop :=
  ∀ (s : State) (t : Time) (k : Nat), s.Undisputed →
    ((∀ e, (s.lever k).transitAt = some e → max s.now t < e) →
        Takes (.transitCompareExpiry t k) s [] fun _ => True)
      ∧ (∀ e, within k 64 = true → s.levers.length = 64 →
        (s.lever k).transitAt = some e → e ≤ max s.now t →
        (s.lever k).transitActive = false → reactionOf s 9 = .report →
        s.faults.find 9 (some k) = none → s.faults.records.length < 32 →
        Takes (.transitCompareExpiry t k) s [.levers, .faults, .register] fun u =>
          u.lever k = { s.lever k with transitAt := none, transitActive := true }
            ∧ OtherLevers k s u
            ∧ u.faults = { s.faults with records := s.faults.records ++
                [⟨9, some k, true, 1, s.register.day, s.register.tenths, s.register.day,
                  s.register.tenths, .report⟩] }
            ∧ u.register = s.register.append (.faultRaised 9 (some k) .report 1))
      ∧ ((s.inb k).disagreeSince = none
            ∨ (∀ e, (s.inb k).disagreeAt = some e → max s.now t < e) →
          Takes (.disagreementCompareExpiry t k) s [] fun _ => True)
      ∧ (∀ e, within k 3 = true → s.inbound.length = 3 → (s.inb k).disagreeSince ≠ none →
        (s.inb k).disagreeAt = some e → e ≤ max s.now t →
        ((s.inb k).disagreeActive = true →
            Takes (.disagreementCompareExpiry t k) s [.inbound] fun u =>
              u.inb k = { s.inb k with disagreeAt := none } ∧ OtherInbound k s u)
          ∧ ((s.inb k).disagreeActive = false →
            reactionOf s 19 ≠ .suspend ∨ s.mode ≠ some .service →
            s.faults.find 19 (some k) = none → s.faults.records.length < 32 →
            Takes (.disagreementCompareExpiry t k) s [.inbound, .faults, .register] fun u =>
              u.inb k = { s.inb k with disagreeAt := none, disagreeActive := true }
                ∧ OtherInbound k s u
                ∧ u.faults = { s.faults with records := s.faults.records ++
                    [⟨19, some k, true, 1, s.register.day, s.register.tenths, s.register.day,
                      s.register.tenths, reactionOf s 19⟩] }
                ∧ u.register
                  = s.register.append (.faultRaised 19 (some k) (reactionOf s 19) 1)))
      ∧ ((∀ e, (s.outb k).overdueAt = some e → max s.now t < e) →
          Takes (.overdueExpiry t k) s [] fun _ => True)
      ∧ (∀ e, within k 3 = true → s.outbound.length = 3 →
        (s.outb k).overdueAt = some e → e ≤ max s.now t →
        Takes (.overdueExpiry t k) s [.outbound, .register] fun u =>
          (u.outb k).kept = { s.outb k with overdueAt := none, staged := [] }
            ∧ OtherOutbound k s u
            ∧ u.register = s.register.append (.overdue (2 * k) (s.tables.outb k).overdue))

/-! ### Block links -/

/-- A frame heard whole on a link. From the far box it restarts the silence watch, ending LINK_LOST where it
stands, and is taken by the link's state: a BID is answered GO, or WAIT by a senior that is bidding; a DATA
frame is answered TAKEN, its items kept until then; a GO that is waited for brings the DATA frame, or ends the
exchange where nothing is left to send; a WAIT fails the bid attempt, and a REJECT the data attempt, and beyond
the retries the exchange; a TAKEN that is waited for takes the carried items out of the queue and ends the
exchange, after which a link with more work bids again. A frame of another box, but DATA, is taken in the same
way and leaves the silence watch. A DATA frame whose CHECK is wrong is answered REJECT, and so is one of
another box, which is to be reported once that answer has been sent. A link that is OUT_OF_USE or in LOOPBACK
hears nothing. The premises leave out what the end of the step would start. That an answer is decided at
receipt, that a GO with nothing left to send leaves the attempts as they are, and how a stranger's frame is
taken, is DEDUCED (log entry 13), and so is the report after the answer (log entry 43). That the answer to this
frame replaces one that still waits for the quiet line, and the items of this DATA those of a DATA not yet
answered, is the model's (log entry 44, DESIGN CHOICE). The row's characters join those heard before it, unless a
pause of more than 15 ms has come between; where they complete no frame, the link is left assembling one, or none.
How the row shares its characters with the rows of single characters, and from when a pause is measured, is the
model's (log entry 7, DESIGN CHOICE). -/
def Obligations.LinkFramesAreTakenByState : Prop :=
  ∀ (s : State) (t : Time) (k : Nat) (bytes chars : List Byte) (f : FrameType) (own : Nat)
    (items : List Item) (l base bad failed : Link) (c : LinkCfg) (n : Time), s.Undisputed →
    within k 3 = true → s.links.length = 3 → l = s.link k → c = cfgOf s k → n = max s.now t →
    l.staged = [] → 1 ≤ c.turnaround →
    (l.state = .outOfUse ∨ l.state = .loopback →
        Takes (.linkFrameReceived t k bytes) s [] fun _ => True)
      ∧ (l.state ≠ .outOfUse → l.state ≠ .loopback → (l.takeChars c n bytes).frameHeld = none →
        Takes (.linkFrameReceived t k bytes) s [.links] fun u =>
          OtherLinks k s u ∧ (u.link k).kept = (l.takeChars c n bytes).kept)
      ∧ (l.state ≠ .outOfUse → l.state ≠ .loopback → (l.takeChars c n bytes).frameHeld = some chars →
        (hear chars = .whole f own items → c.farBox = some own → l.lost = true →
          s.inbound.length = 3 →
          Takes (.linkFrameReceived t k bytes) s [.links, .inbound, .faults, .register] fun u =>
            OtherLinks k s u ∧ OtherInbound k s u
              ∧ (u.link k).lost = false
              ∧ (u.link k).silenceAt = some (n + c.silence * 1000)
              ∧ u.faults = s.faults.remove 16 (some k)
              ∧ (∀ r, s.faults.find 16 (some k) = some r → u.register
                  = s.register.append (.faultCleared 16 (some k) r.reaction r.count false)))
        ∧ (hear chars = .whole f own items →
          (c.farBox = some own ∧ l.lost = false) ∨ (c.farBox ≠ some own ∧ f ≠ .data) →
          base = { l with heard := some n, assembling := none
                          silenceAt := if c.farBox = some own then some (n + c.silence * 1000)
                            else l.silenceAt } →
          failed = ({ base with
              state := .idle, flight := none, answerAt := none, takenAt := none
              bidAttempts := 0, dataAttempts := 0, retryAt := some (n + 1000)
              indicationDue := l.indicationDue || l.flight.any (·.items.any Item.isIndication) }
              : Link).discardLate n →
          (l.state = .idle → f = .bid → hasWork s k = false →
              Takes (.linkFrameReceived t k bytes) s [.links] fun u => OtherLinks k s u
                ∧ u.link k = { base with answer := some .go })
            ∧ (l.state = .receiving → f = .bid →
              Takes (.linkFrameReceived t k bytes) s [.links] fun u => OtherLinks k s u
                ∧ u.link k = { base with answer := some .go, dataAt := none })
            ∧ (l.state = .bidding → f = .bid →
              Takes (.linkFrameReceived t k bytes) s [.links] fun u => OtherLinks k s u
                ∧ u.link k = { base with
                    answer := some (if c.role = some .senior then .wait else .go) })
            ∧ ((l.state = .idle ∧ hasWork s k = false) ∨ l.state = .bidding
                ∨ l.state = .receiving → f = .data →
              Takes (.linkFrameReceived t k bytes) s [.links] fun u => OtherLinks k s u
                ∧ u.link k = { base with answer := some .taken, toDeliver := items
                                         dataAt := none })
            ∧ (l.state = .bidding → f = .go → l.answerAt ≠ none →
              ∀ fl, fl = buildFlight s k →
              (fl.items ≠ [] →
                  Takes (.linkFrameReceived t k bytes) s [.links] fun u => OtherLinks k s u
                    ∧ u.link k = { base with
                        state := .sending, answerAt := none, flight := some fl
                        indicationDue := l.indicationDue && !fl.items.any Item.isIndication })
                ∧ (hasWork s k = false →
                  Takes (.linkFrameReceived t k bytes) s [.links] fun u => OtherLinks k s u
                    ∧ u.link k = { base with state := .idle, answerAt := none }))
            ∧ (l.state = .bidding → f = .wait → l.answerAt ≠ none →
              Takes (.linkFrameReceived t k bytes) s [.links] fun u => OtherLinks k s u
                ∧ u.link k = if l.bidAttempts + 1 ≤ c.bidRetries then
                    { base with bidAttempts := l.bidAttempts + 1, answerAt := none
                                backOffAt := some (n + backOff c) }
                  else failed)
            ∧ (∀ more : Bool, l.state = .awaitTaken → f = .taken → l.takenAt ≠ none →
              (more = true ↔ l.queue.drop l.inFlight ≠ []
                ∨ l.indicationDue = true ∧ (s.inb k).state ≠ none) →
              Takes (.linkFrameReceived t k bytes) s [.links] fun u => OtherLinks k s u
                ∧ u.link k = { base with
                    state := if more = true ∧ l.retryAt = none then .bidding else .idle
                    queue := l.queue.drop l.inFlight, flight := none, takenAt := none
                    bidAttempts := 0, dataAttempts := 0
                    heartbeatAt := if l.flight.any (·.items.any Item.isIndication) then
                      some (n + c.heartbeat * 1000) else l.heartbeatAt })
            ∧ (l.state = .awaitTaken → f = .reject → l.takenAt ≠ none →
              Takes (.linkFrameReceived t k bytes) s [.links] fun u => OtherLinks k s u
                ∧ u.link k = if l.dataAttempts + 1 ≤ c.dataRetries then
                    { base with state := .sending, takenAt := none
                                dataAttempts := l.dataAttempts + 1 }
                  else failed))
        ∧ (hear chars = .bad .data →
          (l.state = .idle ∧ hasWork s k = false) ∨ l.state = .bidding ∨ l.state = .receiving →
          bad = { l with heard := some n, assembling := none, answer := some .reject
                         dataAt := if l.state = .receiving then some (n + c.dataStart)
                           else l.dataAt } →
          Takes (.linkFrameReceived t k bytes) s [.links] fun u => OtherLinks k s u
            ∧ u.link k = bad)
        ∧ (hear chars = .whole .data own items → c.farBox ≠ some own →
          (l.state = .idle ∧ hasWork s k = false) ∨ l.state = .bidding ∨ l.state = .receiving →
          Takes (.linkFrameReceived t k bytes) s [.links] fun u => OtherLinks k s u
            ∧ u.link k = { l with heard := some n, assembling := none, answer := some .reject
                                  crossedDue := true
                                  dataAt := if l.state = .receiving then some (n + c.dataStart)
                                    else l.dataAt }))

/-- Characters and frames on the line of a link. A START begins a frame; a character that goes on with
one joins it, and one that does not, or a pause of more than 15 ms, abandons it and restarts the data
timer of a RECEIVING link; a character after the pause, or after the CHECK of a frame, is hunted for a START:
that a frame which no row has taken is lost with it, and that a pause runs from the row of one character to that of
the next, is the model's (log entry 7, DESIGN CHOICE). The end of a frame sent starts the timer its type brings: the answer timer
after BID, the taken timer with AWAIT_TAKEN after DATA, the data timer after GO. A collision fails the
bid or data attempt with a back-off, or takes a GO back. A GO sent, or cut, with a DATA frame of the link's own
built before it ends that exchange without TAKEN, the indication it carried due again (log entry 44, DESIGN
CHOICE). On a quiet line the frame that waits is started;
so it is when a back-off has passed. A DATA frame of another box, answered REJECT, is reported when that
answer has been sent: LINK_CROSSED has its record, LATCHED, and the link goes OUT_OF_USE, an INDICATION of the
exchange that so ends being due again. That the report
follows the answer, and that a WAIT sent stops the answer timer, is DEDUCED (log entry 43). The premises
leave out what the end of the step would start. -/
def Obligations.LinkLineEventsMoveTheExchange : Prop :=
  ∀ (s : State) (t : Time) (k : Nat) (ch : Byte) (l hrd gone : Link) (c : LinkCfg) (n : Time),
    s.Undisputed → within k 3 = true → s.links.length = 3 → l = s.link k → c = cfgOf s k →
    n = max s.now t → l.staged = [] → 1 ≤ c.turnaround →
    l.state ≠ .idle ∨ hasWork s k = false → hrd = { l with heard := some n } →
    gone = { l with assembling := none
                    dataAt := if l.state = .receiving then some (n + c.dataStart)
                      else l.dataAt } →
    (l.state ≠ .outOfUse → l.state ≠ .loopback →
        (l.assembling = none → ch ≠ startChar →
            Takes (.linkCharacterReceived t k ch) s [.links] fun u =>
              OtherLinks k s u ∧ u.link k = hrd)
          ∧ (l.assembling = none → ch = startChar →
            Takes (.linkCharacterReceived t k ch) s [.links] fun u => OtherLinks k s u
              ∧ u.link k = { hrd with assembling := some ([], n)
                                      dataAt := if l.state = .receiving then none
                                        else l.dataAt })
          ∧ ∀ chars last, l.assembling = some (chars, last) →
            (frameEnded chars = false → n ≤ last + 15 →
                (stillFrame (chars ++ [ch]) = true →
                    Takes (.linkCharacterReceived t k ch) s [.links] fun u => OtherLinks k s u
                      ∧ u.link k = { hrd with assembling := some (chars ++ [ch], n) })
                  ∧ (stillFrame (chars ++ [ch]) = false →
                    Takes (.linkCharacterReceived t k ch) s [.links] fun u => OtherLinks k s u
                      ∧ u.link k = { gone with heard := some n }))
              ∧ (frameEnded chars = true ∨ last + 15 < n →
                Takes (.linkCharacterReceived t k ch) s [.links] fun u => OtherLinks k s u
                  ∧ u.link k = if ch = startChar then
                      { hrd with assembling := some ([], n)
                                 dataAt := if l.state = .receiving then none else l.dataAt }
                    else { gone with heard := some n }))
      ∧ (l.state = .outOfUse ∨ l.state = .loopback →
        Takes (.linkCharacterReceived t k ch) s [] fun _ => True)
      ∧ (∀ chars last, l.assembling = some (chars, last) →
        (frameEnded chars = false → last + 15 < n →
            Takes (.linkFrameAbandoned t k) s [.links] fun u => OtherLinks k s u
              ∧ (u.link k).kept = gone.kept)
          ∧ (frameEnded chars = true ∨ n ≤ last + 15 →
            Takes (.linkFrameAbandoned t k) s [] fun _ => True))
      ∧ (l.sending = none → l.crossedDue = false →
        Takes (.linkFrameSent t k) s [] (fun _ => True)
          ∧ Takes (.linkCollision t k) s [] fun _ => True)
      ∧ (l.sending = some .bid → l.crossedDue = false →
        Takes (.linkFrameSent t k) s [.links] (fun u => OtherLinks k s u
            ∧ u.link k = { hrd with sending := none, answerAt := some (n + c.bidAnswer) })
          ∧ (l.bidAttempts + 1 ≤ c.bidRetries →
            Takes (.linkCollision t k) s [.links] fun u => OtherLinks k s u
              ∧ u.link k = { hrd with sending := none, answerAt := none
                                      bidAttempts := l.bidAttempts + 1
                                      backOffAt := some (n + backOff c) }))
      ∧ (l.sending = some .data → l.crossedDue = false →
        Takes (.linkFrameSent t k) s [.links] (fun u => OtherLinks k s u
            ∧ u.link k = { hrd with sending := none, state := .awaitTaken
                                    takenAt := some (n + c.takenWait) })
          ∧ (l.dataAttempts + 1 ≤ c.dataRetries →
            Takes (.linkCollision t k) s [.links] fun u => OtherLinks k s u
              ∧ u.link k = { hrd with sending := none, state := .sending, takenAt := none
                                      dataAttempts := l.dataAttempts + 1
                                      backOffAt := some (n + backOff c) }))
      ∧ (l.sending = some .go → l.crossedDue = false → l.flight = none →
        Takes (.linkFrameSent t k) s [.links] (fun u => OtherLinks k s u
            ∧ u.link k = { hrd with sending := none, dataAt := some (n + c.dataStart) })
          ∧ (hasWork s k = false → Takes (.linkCollision t k) s [.links] fun u =>
            OtherLinks k s u
              ∧ u.link k = { hrd with sending := none, state := .idle, dataAt := none }))
      ∧ (∀ fl, l.sending = some .go → l.crossedDue = false → l.flight = some fl →
        l.state = .receiving → ∀ i, i = .linkFrameSent t k ∨ i = .linkCollision t k →
        Takes i s [.links] fun u => OtherLinks k s u
          ∧ (u.link k).sending = none ∧ (u.link k).flight = none
          ∧ (u.link k).indicationDue = (l.indicationDue || fl.items.any Item.isIndication)
          ∧ (u.link k).bidAttempts = l.bidAttempts
          ∧ ((∀ q ∈ l.queue, q.item.isStroke = true → n < q.joined + 5000) →
            (u.link k).queue = l.queue)
          ∧ (i = .linkFrameSent t k →
            (u.link k).state = .receiving ∧ (u.link k).dataAt = some (n + c.dataStart)))
      ∧ (l.sending = some .wait ∨ l.sending = some .reject → l.crossedDue = false →
        Takes (.linkFrameSent t k) s [.links] (fun u => OtherLinks k s u
            ∧ u.link k = { hrd with sending := none })
          ∧ Takes (.linkCollision t k) s [.links] fun u => OtherLinks k s u
            ∧ u.link k = { hrd with sending := none })
      ∧ (l.sending = some .reject → l.crossedDue = true → s.faults.find 17 (some k) = none →
        s.faults.records.length < 32 → reactionOf s 17 = .confine → l.confinement = [] →
        Takes (.linkFrameSent t k) s
          [.links, .inbound, .outbound, .levers, .faults, .register] fun u => OtherLinks k s u
            ∧ (u.link k).state = .outOfUse ∧ (u.link k).crossedDue = false
            ∧ (u.link k).confinement = [17]
            ∧ (l.state ≠ .outOfUse → (u.link k).indicationDue
                = (l.indicationDue || l.flight.any (·.items.any Item.isIndication)))
            ∧ u.faults.find 17 (some k) = some ⟨17, some k, false, 1, s.register.day,
                s.register.tenths, s.register.day, s.register.tenths, .confine⟩)
      ∧ (quiet (s.atTime t) k = false → Takes (.lineQuiet t k) s [] fun u => u.link k = l)
      ∧ (∀ f, quiet (s.atTime t) k = true → frameToStart l = some f →
        Takes (.lineQuiet t k) s [.links] fun u => OtherLinks k s u
          ∧ u.link k = { l with sending := some f, answer := none
                                state := if f = .go then .receiving else l.state
                                answerAt := if f = .go ∨ f = .wait then none else l.answerAt })
      ∧ ((∀ e, l.backOffAt = some e → n < e) →
        Takes (.backOffEnd t k) s [] fun _ => True)
      ∧ (∀ e, l.backOffAt = some e → e ≤ n →
        Takes (.backOffEnd t k) s [.links] fun u => OtherLinks k s u
          ∧ (u.link k).kept = { l with backOffAt := none }.kept
          ∧ (quiet (s.atTime t) k = true → l.sending = none → l.answer = none →
            (l.state = .bidding → l.answerAt = none → (u.link k).sending = some .bid)
              ∧ (l.state = .sending → (u.link k).sending = some .data)))

/-- When a link's TAKEN has been sent, or cut by a collision, the items of its DATA frame are delivered, one
after the other in frame order, and the link goes from RECEIVING to IDLE. That both come at that moment is
the model's (log entry 13, DEDUCED; the worked example of chapter 7 has them as TAKEN is answered). A STROKE
that is a duplicate, of the open code below the stroke expected, or, with none open, of the code that ended
less than 10 s before, changes nothing. Any other rings the bell for its length, 40 ms at least and 250 ms at
most. It opens a received code where none is open; joins the open code of its number, in a new group where it
is marked so, and marks it GARBLED where strokes were lost or the limits of a pattern are passed; and ends an
open code of another number GARBLED before it opens its own. A CODE END ends the open code of its number,
GARBLED where the code or the item is marked so or the stroke counts differ, and an open code of another
number GARBLED; with none open it changes nothing where it is a duplicate, and is else a code received GARBLED
with an empty pattern. What `endReceived` does at such an end, FarStatesMoveTheOutboundLine says. An
INDICATION gives the far view of the inbound line, and the outbound line its far state. -/
def Obligations.TakenItemsAreDelivered : Prop :=
  (∀ (s : State) (t : Time) (k : Nat) (n : Time), s.Undisputed → within k 3 = true →
    s.links.length = 3 → s.bells.length = 3 → s.instruments.length = 3 →
    s.inbound.length = 3 → s.outbound.length = 3 → n = max s.now t →
    (s.link k).sending = some .taken → (s.link k).crossedDue = false →
    ((s.link k).toDeliver = [] →
        Takes (.linkFrameSent t k) s [.links] (fun u => OtherLinks k s u
            ∧ (u.link k).kept = { s.link k with heard := some n }.kept
            ∧ ((s.link k).state = .receiving → hasWork s k = false → (s.link k).answer = none →
              (u.link k).state = .idle))
          ∧ Takes (.linkCollision t k) s [.links] fun u => OtherLinks k s u
            ∧ (u.link k).kept = { s.link k with heard := some n }.kept)
      ∧ (∀ v, v = (s.link k).toDeliver.foldl (fun v i => deliverItem k i v)
            ((s.atTime t).modLink k fun l =>
              { l with sending := none, heard := some n, toDeliver := [] }) →
        ∀ i, i = .linkFrameSent t k ∨ i = .linkCollision t k →
          Takes i s [.links, .bells, .instruments, .inbound, .outbound, .levers, .faults, .register]
            fun u => OtherLinks k s u ∧ OtherBells k s u
              ∧ (u.link k).kept = { s.link k with heard := some n, toDeliver := [] }.kept
              ∧ (u.bell k).kept = (v.bell k).kept ∧ u.instruments = v.instruments
              ∧ u.inbound = v.inbound ∧ u.outbound.map Outbound.kept = v.outbound.map Outbound.kept
              ∧ u.levers = v.levers ∧ u.faults = v.faults ∧ u.register = v.register)
      ∧ (∀ c g num units, (s.link k).toDeliver = [.stroke c g num units] →
        (s.bell k).received = none → recentlyEnded (s.atTime t) k c = false →
        Takes (.linkFrameSent t k) s [.links, .bells, .instruments] fun u =>
          OtherLinks k s u ∧ (u.link k).toDeliver = [] ∧ OtherBells k s u
            ∧ (u.bell k).kept = { s.bell k with
                received := some { number := c, pattern := ⟨[1], 1⟩, strokes := 1
                                   next := num + 1, garbled := num != 1, lastItem := n
                                   rules := rulesFor s k } }.kept
            ∧ (∀ j, j ≠ k → u.instrument j = s.instrument j)
            ∧ (∀ e, e = n + max 40 (min (units * 5) 250) →
              u.instrument k = { s.instrument k with
                ringEnd := some (max ((s.instrument k).ringEnd.getD e) e) }))
      ∧ (∀ c g num m, (s.link k).toDeliver = [.codeEnd c.number num g] →
        (s.bell k).received = some c → m = matchCode c.rules false c.pattern.beats →
        Takes (.linkFrameSent t k) s [.links, .bells, .inbound, .outbound, .levers, .faults, .register]
          fun u => OtherLinks k s u ∧ OtherBells k s u ∧ (u.bell k).received = none
            ∧ (u.bell k).lastEnded = some (c.number, n)
            ∧ (c.garbled = true ∨ g = true ∨ num + 1 ≠ c.next →
              (u.bell k).expectation = (s.bell k).expectation
                ∧ u.register
                  = s.register.append (.codeReceived k c.pattern.beats none none true))
            ∧ (c.garbled = false → g = false → num + 1 = c.next → (s.bell k).expectation = none →
              (u.bell k).answerable = some (c.pattern.beats, n)
                ∧ u.register
                  = s.register.append (.codeReceived k c.pattern.beats (some m.1) m.2 false)))
      ∧ (∀ inn out service, (s.link k).toDeliver = [.indication inn out service] →
        Takes (.linkFrameSent t k) s
          [.links, .inbound, .outbound, .levers, .faults, .register] fun u =>
          OtherLinks k s u ∧ (u.link k).toDeliver = [] ∧ (u.inb k).farView = some out
            ∧ (u.outb k).kept = ((takeFarState k inn service (s.atTime t)).outb k).kept))
    ∧ ∀ (s u : State) (k num n units : Nat) (g : Bool) (b : Bell), within k 3 = true →
        s.bells.length = 3 → s.instruments.length = 3 → b = s.bell k →
        (u = deliverItem k (.stroke num g n units) s →
          ((∃ c, b.received = some c ∧ c.number = num ∧ n < c.next)
                ∨ (b.received = none ∧ ∃ e, b.lastEnded = some (num, e) ∧ s.now < e + 10000) →
              u = s)
            ∧ (∀ rung, rung = s.now + max 40 (min (units * 5) 250) →
              (∀ c, b.received = some c → c.number ≠ num ∨ c.next ≤ n) →
              (b.received = none → ∀ e, b.lastEnded = some (num, e) → e + 10000 ≤ s.now) →
              (∀ j, j ≠ k → u.instrument j = s.instrument j)
                ∧ u.instrument k = { s.instrument k with
                    ringEnd := some (max ((s.instrument k).ringEnd.getD rung) rung) })
            ∧ (∀ c p, b.received = some c → c.number = num → c.next ≤ n → p = c.pattern.place g →
              u = { s with bells := u.bells, instruments := u.instruments }
                ∧ (∀ j, j ≠ k → u.bell j = s.bell j)
                ∧ u.bell k = { b with
                    received := some { c with
                      pattern := p.1, strokes := c.strokes + 1, next := n + 1, lastItem := s.now
                      garbled := c.garbled || decide (c.next < n) || !p.2 } })
            ∧ ∀ c x, b.received = some c → c.number ≠ num →
              x = endReceived k c.number c.pattern.beats true c.rules s →
              u.register = x.register ∧ (∀ j, j ≠ k → u.bell j = s.bell j)
                ∧ u.bell k = { x.bell k with
                    received := some { number := num, pattern := ⟨[1], 1⟩, strokes := 1
                                       next := n + 1, garbled := n != 1, lastItem := s.now
                                       rules := rulesFor x k } })
          ∧ (u = deliverItem k (.codeEnd num n g) s →
            (∀ c, b.received = some c → c.number = num →
                u = endReceived k num c.pattern.beats (c.garbled || g || n + 1 != c.next) c.rules s)
              ∧ (∀ c x, b.received = some c → c.number ≠ num →
                x = endReceived k c.number c.pattern.beats true c.rules s →
                u = endReceived k num [] true (rulesFor x k) x)
              ∧ (b.received = none → (∃ e, b.lastEnded = some (num, e) ∧ s.now < e + 10000) → u = s)
              ∧ (b.received = none → (∀ e, b.lastEnded = some (num, e) → e + 10000 ≤ s.now) →
                u = endReceived k num [] true (rulesFor s k) s))

/-- The timers of a link. An answer timer or a taken timer that expires fails the attempt: a bid waits out
the back-off, DATA is sent again, and beyond the retries the exchange fails, with its late strokes
discarded, an indication it carried due again, and a retry time one second on. The data timer ends
RECEIVING; the retry time lets a link with work go BIDDING; strokes that have waited 5 s leave the queue;
the heartbeat makes an indication due and starts again; the silence watch begins LINK_LOST, at which a
CLEAR outbound line is blocked, its guard set, and the far view becomes none. None acts before its time.
That the heartbeat is counted from the step that takes its row is the model's (log entry 31, DESIGN
CHOICE). -/
def Obligations.LinkTimersActAtTheirTimes : Prop :=
  ∀ (s : State) (t : Time) (k : Nat) (l failed : Link) (c : LinkCfg) (n : Time), s.Undisputed →
    within k 3 = true → s.links.length = 3 → s.inbound.length = 3 → s.outbound.length = 3 →
    l = s.link k → c = cfgOf s k → n = max s.now t →
    failed = ({ l with
        flight := none, answerAt := none, takenAt := none, bidAttempts := 0, dataAttempts := 0
        retryAt := some (n + 1000)
        indicationDue := l.indicationDue || l.flight.any (·.items.any Item.isIndication) }
        : Link).discardLate n →
    (l.state ≠ .bidding ∨ (∀ e, l.answerAt = some e → n < e) →
        Takes (.answerTimerExpiry t k) s [] fun _ => True)
      ∧ (∀ e, l.state = .bidding → l.answerAt = some e → e ≤ n →
        (l.bidAttempts + 1 ≤ c.bidRetries →
            Takes (.answerTimerExpiry t k) s [.links] fun u => OtherLinks k s u
              ∧ (u.link k).kept = { l with bidAttempts := l.bidAttempts + 1
                                           backOffAt := some (n + backOff c) }.kept
              ∧ (u.link k).answerAt = none
              ∧ (l.answer = none → (u.link k).state = .bidding))
          ∧ (c.bidRetries < l.bidAttempts + 1 →
            Takes (.answerTimerExpiry t k) s [.links] fun u => OtherLinks k s u
              ∧ (u.link k).kept = failed.kept
              ∧ (l.answer = none → (u.link k).state = .idle)))
      ∧ (l.state ≠ .awaitTaken ∨ (∀ e, l.takenAt = some e → n < e) →
        Takes (.takenTimerExpiry t k) s [] fun _ => True)
      ∧ (∀ e, l.state = .awaitTaken → l.takenAt = some e → e ≤ n →
        (l.dataAttempts + 1 ≤ c.dataRetries →
            Takes (.takenTimerExpiry t k) s [.links] fun u => OtherLinks k s u
              ∧ (u.link k).kept = { l with dataAttempts := l.dataAttempts + 1
                                           takenAt := none }.kept
              ∧ (l.answer = none → (u.link k).state = .sending))
          ∧ (c.dataRetries < l.dataAttempts + 1 →
            Takes (.takenTimerExpiry t k) s [.links] fun u => OtherLinks k s u
              ∧ (u.link k).kept = failed.kept
              ∧ (l.answer = none → (u.link k).state = .idle)))
      ∧ (l.state ≠ .receiving ∨ (∀ e, l.dataAt = some e → n < e) →
        Takes (.dataTimerExpiry t k) s [] fun _ => True)
      ∧ (∀ e, l.state = .receiving → l.dataAt = some e → e ≤ n →
        Takes (.dataTimerExpiry t k) s [.links] fun u => OtherLinks k s u
          ∧ (u.link k).kept = { l with dataAt := none }.kept
          ∧ (hasWork s k = false → l.answer = none → (u.link k).state = .idle))
      ∧ ((∀ e, l.retryAt = some e → n < e) → Takes (.retryTime t k) s [] fun _ => True)
      ∧ (∀ e, l.retryAt = some e → e ≤ n →
        Takes (.retryTime t k) s [.links] fun u => OtherLinks k s u
          ∧ (u.link k).kept = { l with retryAt := none }.kept
          ∧ (l.state = .idle → hasWork s k = true → l.answer = none →
            (u.link k).state = .bidding))
      ∧ Takes (.lateStroke t k) s [.links] (fun u => OtherLinks k s u
          ∧ (u.link k).kept = (l.discardLate n).kept
          ∧ (∀ q ∈ (u.link k).queue.drop l.inFlight,
              q.item.isStroke = true → n < q.joined + 5000)
          ∧ ((u.link k).queue.take l.inFlight).map (·.joined)
            = (l.queue.take l.inFlight).map (·.joined))
      ∧ ((∀ e, l.heartbeatAt = some e → n < e) →
        Takes (.heartbeatExpiry t k) s [] fun _ => True)
      ∧ (∀ e, l.heartbeatAt = some e → e ≤ n →
        Takes (.heartbeatExpiry t k) s [.links] fun u => OtherLinks k s u
          ∧ (u.link k).kept = { l with indicationDue := true
                                       heartbeatAt := some (n + c.heartbeat * 1000) }.kept)
      ∧ ((∀ e, l.silenceAt = some e → n < e) →
        Takes (.silenceWatchExpiry t k) s [] fun _ => True)
      ∧ (∀ e, l.silenceAt = some e → e ≤ n →
        (l.lost = true →
            Takes (.silenceWatchExpiry t k) s [.links] fun u => OtherLinks k s u
              ∧ (u.link k).kept = { l with silenceAt := none }.kept)
          ∧ (l.lost = false → reactionOf s 16 ≠ .suspend ∨ s.mode ≠ some .service →
            s.faults.find 16 (some k) = none → s.faults.records.length < 32 →
            Takes (.silenceWatchExpiry t k) s
              [.links, .inbound, .outbound, .levers, .faults, .register] fun u =>
              OtherLinks k s u
                ∧ (u.link k).kept = { l with silenceAt := none, lost := true }.kept
                ∧ (u.faults.find 16 (some k)).isSome = true
                ∧ (u.outb k).guard = true ∧ (u.inb k).farView = none
                ∧ ((s.outb k).state = some .clear → (u.outb k).state = some .blocked)
                ∧ ((s.outb k).state ≠ some .clear → (u.outb k).state = (s.outb k).state)))

/-- The loopback test of a link asked for by RUN TEST: it is taken only on a link that is IDLE, with its
lines BLOCKED, nothing queued and no code open; it sends six frames 20 ms apart, each heard back whole
within 20 ms of its end; after the last the link goes IDLE, with an indication due, and the command replies
PASS: with the inbound line's state to send it has work, and goes on to BIDDING in the same step; a frame
heard otherwise, or late, ends it with FAIL and the frame's type, and the reaction CONFINE or SUSPEND takes
the link out of use, SUSPEND the mode with it. That the time of a frame on the line is rounded up to whole
ms is the model's (log entry 29). -/
def Obligations.LoopbackTestsRunSixFrames : Prop :=
  ∀ (s : State) (t : Time) (k : Nat) (l : Link) (n : Time), l = s.link k → n = max s.now t →
    (s.Open → within k 3 = false →
        Takes (.runTestLink t k) s [.result] fun u => u.Refused 0x50 .range)
      ∧ (s.Open → within k 3 = true →
        s.linkOn k = false ∨ l.state = .outOfUse ∨ (s.inb k).state ≠ some .blocked
            ∨ (s.inb k).offered ≠ none ∨ (s.outb k).state ≠ some .blocked
            ∨ (s.outb k).offered ≠ none ∨ l.queue ≠ [] ∨ codeOpen s k = true →
        Takes (.runTestLink t k) s [.result] fun u => u.Refused 0x50 .state)
      ∧ (s.Open → within k 3 = true → s.links.length = 3 → s.linkOn k = true →
        l.state ≠ .outOfUse → (s.inb k).state = some .blocked → (s.inb k).offered = none →
        (s.outb k).state = some .blocked → (s.outb k).offered = none → l.queue = [] →
        codeOpen s k = false →
        (l.state ≠ .idle → Takes (.runTestLink t k) s [.result] fun u => u.Refused 0x50 .busy)
          ∧ (l.state = .idle →
            Takes (.runTestLink t k) s [.links, .result] fun u => OtherLinks k s u
              ∧ u.host.lastResult = none ∧ (u.link k).state = .loopback
              ∧ (u.link k).loopback
                = some { purpose := .host .alone, startAt := some (n + 20) }))
      ∧ (∀ b, s.Undisputed → within k 3 = true → s.links.length = 3 → l.loopback = some b →
        ((∀ e, b.startAt = some e → n < e) →
            Takes (.loopbackFrameTimer t k) s [] fun _ => True)
          ∧ (∀ e, b.startAt = some e → e ≤ n →
            Takes (.loopbackFrameTimer t k) s [.links] fun u => OtherLinks k s u
              ∧ (u.link k).kept = { l with loopback := some { b with
                  startAt := none
                  sentAt := some (n + lineTime (loopbackFrame s b.frame).length) } }.kept)
          ∧ (b.sentAt = none → ∀ bytes,
            Takes (.loopbackFrameAssembled t k bytes) s [] (fun _ => True)
              ∧ Takes (.loopbackFrameTimeout t k) s [] fun _ => True)
          ∧ (∀ e, b.sentAt = some e →
            (n ≤ e + 20 → Takes (.loopbackFrameTimeout t k) s [] fun _ => True)
              ∧ (n ≤ e + 20 → b.frame < 5 →
                Takes (.loopbackFrameAssembled t k (loopbackFrame s b.frame)) s [.links] fun u =>
                  OtherLinks k s u
                    ∧ (u.link k).kept = { l with loopback := some { b with
                        frame := b.frame + 1, startAt := some (e + 20)
                        sentAt := none } }.kept)
              ∧ (n ≤ e + 20 → b.frame = 5 → b.purpose = .host .alone → l.crossedDue = false →
                Takes (.loopbackFrameAssembled t k (loopbackFrame s 5)) s
                  [.links, .inbound, .result] fun u =>
                  OtherLinks k s u ∧ u.Gave 0x50 [0, 255] ∧ (u.link k).loopback = none
                    ∧ (u.link k).indicationDue = true
                    ∧ (u.link k).heartbeatAt
                      = some (n + (cfgOf s k).heartbeat * 1000)
                    ∧ (u.link k).silenceAt = some (n + (cfgOf s k).silence * 1000)
                    ∧ (l.answer = none → l.retryAt = none →
                      ((s.inb k).state ≠ none → (u.link k).state = .bidding)
                        ∧ ((s.inb k).state = none → l.queue = [] → (u.link k).state = .idle)))
              ∧ (∀ bytes, b.purpose = .host .alone → l.state = .loopback → l.crossedDue = false →
                (bytes ≠ loopbackFrame s b.frame ∨ e + 20 < n →
                    ((occurrence s 18 (some k)).reaction = .confine →
                        Takes (.loopbackFrameAssembled t k bytes) s
                          [.links, .inbound, .outbound, .levers, .faults, .register, .result]
                          fun u => OtherLinks k s u ∧ (u.link k).state = .outOfUse
                            ∧ u.Gave 0x50 [1, byte (loopbackType b.frame).code])
                      ∧ ((occurrence s 18 (some k)).reaction = .suspend →
                        Takes (.loopbackFrameAssembled t k bytes) s
                          [.links, .inbound, .outbound, .levers, .faults, .register, .result, .mode]
                          fun u => (u.link k).state = .outOfUse
                            ∧ u.mode = (if s.mode = some .service then some .suspended else s.mode)
                            ∧ u.Gave 0x50 [1, byte (loopbackType b.frame).code]))
                  ∧ (e + 20 < n →
                    ((occurrence s 18 (some k)).reaction = .confine →
                        Takes (.loopbackFrameTimeout t k) s
                          [.links, .inbound, .outbound, .levers, .faults, .register, .result]
                          fun u => OtherLinks k s u ∧ (u.link k).state = .outOfUse
                            ∧ u.Gave 0x50 [1, byte (loopbackType b.frame).code])
                      ∧ ((occurrence s 18 (some k)).reaction = .suspend →
                        Takes (.loopbackFrameTimeout t k) s
                          [.links, .inbound, .outbound, .levers, .faults, .register, .result, .mode]
                          fun u => (u.link k).state = .outOfUse
                            ∧ u.mode = (if s.mode = some .service then some .suspended else s.mode)
                            ∧ u.Gave 0x50 [1, byte (loopbackType b.frame).code])))))

/-! ### The train register -/

/-- READ REGISTER replies DONE with the counts, box time and the oldest unread entries, at most 8, in 16
bytes each, and changes nothing. ADVANCE REGISTER marks at most the unread entries read, and replies with
their number, the sequence number of the newest one marked, or 0 where none is, and the unread count left.
SET CLOCK sets box time and then enters CLOCK_SET with the old time, and the next increase comes a tenth of
a second after it; it refuses RANGE a time of day above 863 999. A tick of box time that has come moves the
time of day by one tenth, and at its end the day, and the next one comes a tenth of a second later; before
its time it changes nothing. How the increases are scheduled is the model's (log entry 41). -/
def Obligations.RegisterIsReadAdvancedAndTimed : Prop :=
  ∀ (s : State) (t : Time) (n m day tenths : Nat) (r : Register), r = s.register →
    (s.Open → ∀ es, es = r.unreadEntries.take (min (max n 1) 8) →
        Takes (.readRegister t n) s [.result] (fun u => u.Gave 0x60
            (be16 r.ring.length ++ be16 r.unread ++ be16 r.day ++ be24 r.tenths
              ++ [byte es.length] ++ es.flatMap Entry.bytes))
          ∧ ∀ e : Entry, e.bytes.length = 16)
      ∧ (s.Open → r.Sound → m = min n r.unread →
        Takes (.advanceRegister t n) s [.register, .result] fun u =>
          u.register = { r with unread := r.unread - m }
            ∧ (m = 0 → u.Gave 0x61 (be16 0 ++ be16 0 ++ be16 r.unread))
            ∧ ∀ e, 1 ≤ m → r.ring[r.ring.length - r.unread + m - 1]? = some e →
              u.Gave 0x61 (be16 m ++ be16 e.seq ++ be16 (r.unread - m)))
      ∧ (s.Open → 863999 < tenths →
        Takes (.setClock t day tenths) s [.result] fun u => u.Refused 0x62 .range)
      ∧ (s.Open → tenths ≤ 863999 → day ≤ 65535 →
        Takes (.setClock t day tenths) s [.register, .boxTime, .result] fun u =>
          u.register = Register.append { r with day := day, tenths := tenths }
              (.clockSet r.day r.tenths)
            ∧ u.tickAt = ((max s.now t + 100 : Nat) : Int) ∧ u.Gave 0x62 [])
      ∧ (s.Undisputed → ((max s.now t : Nat) : Int) < s.tickAt →
        Takes (.boxTimeTick t) s [] fun _ => True)
      ∧ (s.Undisputed → s.tickAt ≤ ((max s.now t : Nat) : Int) →
        Takes (.boxTimeTick t) s [.register, .boxTime] fun u =>
          u.tickAt = s.tickAt + 100
            ∧ u.register = if r.tenths < 863999 then { r with tenths := r.tenths + 1 }
              else { r with tenths := 0, day := (r.day + 1) % 65536 })

/-! ### Faults -/

/-- An occurrence is counted by R162 and R164: on the record of its source and subject, which becomes
ACTIVE with its count one higher, at most 255, and its last time the box time; else in a new record at the
end of the table, with count 1 and the reaction of the reaction table; else, the table full, in the
overflow record, with its count one higher, at most 255, and the higher of the reactions. Where the
reaction is REPORT, the cause's beginning makes no other change of the table and one FAULT_RAISED entry;
and the mode goes from SERVICE to SUSPENDED just where the reaction is SUSPEND. An ended cause that does
not clear itself leaves its record LATCHED. A wiring test that fails begins TRACK_WIRING, which at CONFINE makes
the circuit FAILED, and one that passes ends it; a periodic converter test that fails begins CONVERTER,
which with a reaction other than REPORT confines every enabled circuit, and one that passes ends it. -/
def Obligations.OccurrencesAreCountedBySourceAndSubject : Prop :=
  (∀ (s u : State) (c : Nat) (subject : Option Nat) (f g : Faults), f = s.faults → f.Sound →
      u = countOccurrence c subject s → g = u.faults →
      (∀ r, f.find c subject = some r →
          g.find c subject = some { r with
              active := true, count := min (r.count + 1) 255
              lastDay := s.register.day, lastTenths := s.register.tenths }
            ∧ g.records.length = f.records.length
            ∧ (occurrence s c subject).reaction = r.reaction)
        ∧ (∀ d other, (d, other) ≠ (c, subject) → g.find d other = f.find d other)
        ∧ (f.find c subject = none → (occurrence s c subject).reaction = reactionOf s c)
        ∧ (f.find c subject = none → f.records.length < 32 →
          g = { f with records := f.records ++ [⟨c, subject, true, 1, s.register.day,
            s.register.tenths, s.register.day, s.register.tenths, reactionOf s c⟩] })
        ∧ (f.find c subject = none → f.records.length = 32 →
          g.records = f.records ∧ g.overflowCount = min (f.overflowCount + 1) 255
            ∧ g.overflowLast = some (c, subject)
            ∧ ∃ r, g.overflowReaction = some r
              ∧ r.code = max ((f.overflowReaction.map Reaction.code).getD 0) (reactionOf s c).code)
        ∧ ((occurrence s c subject).reaction = .report →
          (raise c subject s).faults = g
            ∧ (raise c subject s).register = s.register.append
              (.faultRaised c subject .report (occurrence s c subject).count))
        ∧ (raise c subject s).mode
          = (if (occurrence s c subject).reaction = .suspend ∧ s.mode = some .service then
              some .suspended else s.mode)
        ∧ (latchRecord c subject s).faults.find c subject
          = (f.find c subject).map fun r => { r with active := false })
    ∧ (∀ (s : State) (t : Time) (k n : Nat) (c w : Circuit), s.Undisputed → within k 24 = true →
        s.circuits.length = 24 → n ≤ 4095 → c = s.circuit k →
        s.converter.busy = some (.wiring k) → s.converter.discard = false →
        w = { c with wiringOpen := false, wiringKind := c.wiringKind.other
                     wiringActive := decide (3900 ≤ n)
                     nextWiring := some (max s.now t + (s.tables.track k).wiringInterval * 1000) } →
        (3900 ≤ n → c.wiringActive = false → c.state ≠ .disabled → c.confinement = [] →
            c.marginActive = false → reactionOf s 1 = .confine → s.faults.find 1 (some k) = none →
            s.faults.records.length < 32 →
            Takes (.wiringConversionComplete t n) s
              [.tracks, .converter, .levers, .faults, .register, .holds, .timers, .inbound,
                .outbound] fun u =>
              u.circuit k = { w with state := .failed, g := 0, confinement := [1] }
                ∧ OtherCircuits k s u
                ∧ u.faults.find 1 (some k) = some ⟨1, some k, true, 1, s.register.day,
                    s.register.tenths, s.register.day, s.register.tenths, .confine⟩)
          ∧ (n < 3900 → c.wiringActive = true →
            Takes (.wiringConversionComplete t n) s [.tracks, .converter, .faults] fun u =>
              u.circuit k = w ∧ OtherCircuits k s u
                ∧ u.faults.find 1 (some k) = (s.faults.find 1 (some k)).map fun r =>
                  { r with active := false }))
    ∧ ∀ (s : State) (t : Time) (n : Nat) (low : Bool) (rest : List (ConverterTest × Bool)),
        s.Undisputed → s.circuits.length = 24 → n ≤ 4095 →
        s.converter.busy = some (.reference true .periodic) →
        s.converter.lowResults = (.periodic, low) :: rest →
        (low = false ∨ n < 3056 ∨ 3088 < n → s.faults.converterActive = false →
            reactionOf s 5 ≠ .report → s.faults.find 5 none = none → s.faults.records.length < 32 →
            Takes (.referenceConversionComplete t n) s
              [.tracks, .converter, .levers, .faults, .register, .holds, .timers, .inbound,
                .outbound, .mode, .links] fun u =>
              u.faults.converterActive = true
                ∧ u.faults.find 5 none = some ⟨5, none, true, 1, s.register.day,
                    s.register.tenths, s.register.day, s.register.tenths, reactionOf s 5⟩
                ∧ ∀ k, within k 24 = true → (s.circuit k).state ≠ .disabled →
                  5 ∈ (u.circuit k).confinement
                    ∧ ((s.circuit k).confinement = [] → (u.circuit k).state = .failed))
          ∧ (low = true → 3056 ≤ n → n ≤ 3088 → s.faults.converterActive = true →
            Takes (.referenceConversionComplete t n) s [.converter, .faults] fun u =>
              u.faults.converterActive = false
                ∧ u.faults.find 5 none = (s.faults.find 5 none).map fun r =>
                  { r with active := false })

/-- CLEAR FAULT removes a LATCHED record with its FAULT_CLEARED entry by HOST, the first entry of the step,
or empties the overflow record, and replies DONE with no data; its source leaves the confinement of its
subject, a circuit, every enabled circuit for CONVERTER, a lever, a commutator, an inbound line or a link:
a FAILED circuit that is left with none goes OCCUPIED, a commutator at rest is settled anew, and a
configured link goes into use. It refuses RANGE a source or a subject that is none, and STATE a
record that is not held or is ACTIVE, and then changes nothing. RESUME returns SUSPENDED to SERVICE, where
no SUSPEND stands, takes every configured hold by R85, and keeps the permissions held; otherwise it is
refused STATE. -/
def Obligations.FaultsAreClearedAndServiceResumed : Prop :=
  ∀ (s : State) (t : Time) (c n : Nat), s.Open →
    (faultSubject c n = none →
        Takes (.clearFault t c n) s [.result] fun u => u.Refused 0x72 .range)
      ∧ (∀ subject, faultSubject c n = some subject →
        (c ≠ 22 → (∀ r, s.faults.find c subject = some r → r.active = true) →
            Takes (.clearFault t c n) s [.result] fun u => u.Refused 0x72 .state)
          ∧ (c = 22 → s.faults.overflowCount = 0 →
            Takes (.clearFault t c n) s [.result] fun u => u.Refused 0x72 .state)
          ∧ (∀ r, c ≠ 22 → s.faults.find c subject = some r → r.active = false →
            Takes (.clearFault t c n) s
              [.faults, .register, .mode, .tracks, .levers, .instruments, .holds, .timers,
                .inbound, .outbound, .links, .result] fun u =>
              u.faults.find c subject = none ∧ u.Gave 0x72 []
                ∧ (∃ es, u.register = List.foldl Register.append (s.register.append
                    (.faultCleared c subject r.reaction r.count true)) es)
                ∧ (c = 16 ∨ c = 19 ∨ c = 21 ∨ (c = 20 ∧ subject = none) →
                  u.faults = { s.faults with
                      records := s.faults.records.filter fun q =>
                        !(q.source == c && q.subject == subject) }
                    ∧ u.register = s.register.append
                      (.faultCleared c subject r.reaction r.count true))
                ∧ (∀ k, subject = some k → c = 1 ∨ c = 2 ∨ c = 3 ∨ c = 4 →
                  s.circuits.length = 24 →
                  OtherCircuits k s u
                    ∧ (u.circuit k).confinement = dropSource c (s.circuit k).confinement
                    ∧ ((s.circuit k).confinement ≠ [] →
                      dropSource c (s.circuit k).confinement = [] →
                      (s.circuit k).state = .failed →
                      (u.circuit k).state = .occupied
                        ∧ (u.circuit k).occupiedSince = some (max s.now t))
                    ∧ (dropSource c (s.circuit k).confinement ≠ [] ∨ (s.circuit k).state ≠ .failed →
                      (u.circuit k).state = (s.circuit k).state))
                ∧ (c = 5 → s.circuits.length = 24 → ∀ k, within k 24 = true →
                  (s.circuit k).state ≠ .disabled →
                  (u.circuit k).confinement = dropSource 5 (s.circuit k).confinement
                    ∧ ((s.circuit k).confinement ≠ [] →
                      dropSource 5 (s.circuit k).confinement = [] →
                      (s.circuit k).state = .failed → (u.circuit k).state = .occupied))
                ∧ (∀ k, subject = some k →
                  c = 7 ∨ c = 8 ∨ c = 9 ∨ c = 10 ∨ c = 12 ∨ c = 20 → s.levers.length = 64 →
                  OtherLevers k s u
                    ∧ (u.lever k).confinement = dropSource c (s.lever k).confinement)
                ∧ (∀ k, subject = some k → c = 11 ∨ c = 13 ∨ c = 14 → s.instruments.length = 3 →
                  (u.instrument k).confinement = dropSource c (s.instrument k).confinement
                    ∧ ∀ p, (s.instrument k).confinement ≠ [] →
                      dropSource c (s.instrument k).confinement = [] →
                      (s.board (8 + k)).missing = false → (s.instrument k).current = .rest p →
                      s.inbound.length = 3 → (u.inb k).handle = some p)
                ∧ (∀ k, subject = some k → c = 15 → s.inbound.length = 3 →
                  (u.inb k).forcedConfinement = dropSource 15 (s.inb k).forcedConfinement)
                ∧ (∀ k, subject = some k → c = 17 ∨ c = 18 → s.links.length = 3 →
                  (u.link k).confinement = dropSource c (s.link k).confinement
                    ∧ ((s.link k).confinement ≠ [] →
                      dropSource c (s.link k).confinement = [] → s.linkOn k = true →
                      (u.link k).state ≠ .outOfUse
                        ∧ (u.link k).silenceAt
                          = some (max s.now t + (cfgOf s k).silence * 1000))))
          ∧ (c = 22 → s.faults.overflowCount ≠ 0 →
            (∀ k, within k 24 = true → 22 ∉ (s.circuit k).confinement) →
            (∀ k, within k 64 = true → 22 ∉ (s.lever k).confinement) →
            (∀ k, within k 3 = true → 22 ∉ (s.instrument k).confinement
              ∧ 22 ∉ (s.inb k).forcedConfinement ∧ 22 ∉ (s.link k).confinement) →
            Takes (.clearFault t c n) s [.faults, .register, .inbound, .result] fun u =>
              u.faults = { s.faults with
                  overflowCount := 0, overflowLast := none, overflowReaction := none }
                ∧ u.register = s.register.append
                  (.faultCleared 22 none (s.faults.overflowReaction.getD .report)
                    s.faults.overflowCount true)
                ∧ u.Gave 0x72 []))
      ∧ (s.mode ≠ some .suspended ∨ suspendStands s = true →
        Takes (.resume t) s [.result] fun u => u.Refused 0x73 .state)
      ∧ (s.mode = some .suspended → suspendStands s = false → s.holds.length = 16 →
        Takes (.resume t) s
          [.mode, .levers, .holds, .timers, .register, .inbound, .links, .result] fun u =>
          u.mode = some .service ∧ u.Gave 0x73 []
            ∧ (∀ k, within k 16 = true → (s.hold k).state ≠ none →
              (u.hold k).state = some (holdAtResume s k))
            ∧ ∀ k, within k 3 = true → (u.inb k).permission = (s.inb k).permission)

/-- The self-tests on a part whose table cause stands as the check finds the signature: RUN TEST of the
table requests both references and waits, and is refused STATE in UNCONFIGURED, and BUSY before the
start-up tests have finished or while the image is written. The last conversion of its converter test ends
it: it replies DONE with a byte for the signature, the converter and the evaluators, each PASS 0 or FAIL 1,
to the command row or to the batch that waits, and the cause of CONVERTER stands as the test has found it;
the evaluators, which are two readings of one table here, always PASS. A signature check that is due is made,
and sets the next one 10 s on, or waits for a write under way; a converter check that is due requests both
references and sets the next one 5 s on. None acts before its time. That the low reference is converted
before the high one is the model's (log entry 24, DEDUCED); so is BUSY where no short-period test is
scheduled, in EDITING opened from UNCONFIGURED (log entry 16, DEDUCED); and so is how the times are counted
(log entry 31, DESIGN CHOICE). -/
def Obligations.SelfTestsAreMadeAtTheirTimes : Prop :=
  ∀ (s : State) (t : Time) (n : Time), n = max s.now t →
    (s.Open → s.mode = some .unconfigured →
        Takes (.runTestTable t) s [.result] fun u => u.Refused 0x50 .state)
      ∧ (s.Open → s.mode ≠ some .unconfigured →
        s.faults.signatureAt = none ∨ s.store.jobs ≠ [] →
        Takes (.runTestTable t) s [.result] fun u => u.Refused 0x50 .busy)
      ∧ (s.Open → s.mode ≠ some .unconfigured → s.faults.signatureAt ≠ none →
        s.store.jobs = [] → s.faults.tableActive = !signaturePasses s →
        ∀ test, test = ConverterTest.table .alone (signaturePasses s) →
        Takes (.runTestTable t) s [.converter, .result] fun u =>
          u.host.lastResult = none
            ∧ u.converter = (s.converter.request (.reference false test)).request
                (.reference true test))
      ∧ (∀ (w : Waiter) (signature low passed : Bool) (rest : List (ConverterTest × Bool)) (v : Nat)
          (data : List Byte), s.Undisputed → v ≤ 4095 →
        s.converter.busy = some (.reference true (.table w signature)) →
        s.converter.lowResults = (.table w signature, low) :: rest →
        passed = (low && decide (3056 ≤ v ∧ v ≤ 3088)) →
        data = [if signature then 0 else 1, if passed then 0 else 1, 0] →
        (w = .alone →
            Takes (.referenceConversionComplete t v) s
              [.tracks, .converter, .levers, .faults, .register, .holds, .timers, .inbound, .outbound,
                .mode, .links, .result] fun u =>
              u.Gave 0x50 data ∧ u.faults.converterActive = !passed)
          ∧ (w = .alone → s.faults.converterActive = !passed →
            Takes (.referenceConversionComplete t v) s [.converter, .result] fun u =>
              u.Gave 0x50 data ∧ u.converter = { s.converter.finish with lowResults := rest })
          ∧ (∀ b c f, w = .batch → s.faults.converterActive = !passed → s.host.warm = none →
            s.host.executing = some b → b.awaited = some c → c.code = 0x50 →
            s.host.sending = some f →
            ∃ u, exec (.referenceConversionComplete t v) s = .next u ∧ u.now = n
              ∧ GivenResult b b.rest (doneResult 0x50 data) false s u
              ∧ (b.rest ≠ [] → KeptBut [.converter, .batch] s u)))
      ∧ (s.Undisputed → (∀ e, s.faults.signatureAt = some e → n < e) →
        Takes (.signatureCheckDue t) s [] fun _ => True)
      ∧ (∀ e, s.Undisputed → s.faults.signatureAt = some e → e ≤ n →
        (s.store.jobs ≠ [] →
            Takes (.signatureCheckDue t) s [.faults] fun u =>
              u.faults = { s.faults with checkWaiting := true })
          ∧ (s.store.jobs = [] → s.faults.tableActive = !signaturePasses s →
            Takes (.signatureCheckDue t) s [.faults] fun u =>
              u.faults = { s.faults with
                checkWaiting := false, signatureAt := some (n + 10000) })
          ∧ (s.store.jobs = [] → s.faults.tableActive = false → signaturePasses s = false →
            s.faults.find 21 none = none → s.faults.records.length < 32 →
            reactionOf s 21 ≠ .suspend ∨ s.mode ≠ some .service →
            Takes (.signatureCheckDue t) s [.faults, .register] fun u =>
              u.faults.tableActive = true ∧ u.faults.signatureAt = some (n + 10000)
                ∧ u.faults.records = s.faults.records ++ [⟨21, none, true, 1, s.register.day,
                    s.register.tenths, s.register.day, s.register.tenths, reactionOf s 21⟩]
                ∧ u.register = s.register.append (.faultRaised 21 none (reactionOf s 21) 1)))
      ∧ (s.Undisputed → (∀ e, s.faults.converterAt = some e → n < e) →
        Takes (.converterCheckDue t) s [] fun _ => True)
      ∧ (∀ e, s.Undisputed → s.faults.converterAt = some e → e ≤ n →
        Takes (.converterCheckDue t) s [.faults, .converter] fun u =>
          u.faults = { s.faults with converterAt := some (e + 5000) }
            ∧ u.converter = (s.converter.request (.reference false .periodic)).request
                (.reference true .periodic))

/-! ### Host port -/

/-- The host line. A byte received is fed to the receiver, and changes nothing else; a gap of more than 20
ms inside a frame discards it, and any other pause does not. When a frame has been sent, the first reply or
refusal ready is sent next, and with none ready the oldest notice, outside a start; after a final reply
the warm start is due and no frame is chosen, which is the model's (log entry 18, DESIGN CHOICE). -/
def Obligations.HostLineTakesBytesAndSendsFrames : Prop :=
  ∀ (s : State) (t : Time) (b : Byte) (n : Time), s.Undisputed → n = max s.now t →
    (Takes (.hostByteReceived t b) s [.receiver] fun u =>
        u.host.receiving = feedByte n s.host.receiving b)
      ∧ (∀ bytes last, s.host.receiving = some (bytes, last) →
        (frameComplete bytes = false → last + 20 < n →
            Takes (.hostInterbyteTimeout t) s [.receiver] fun u => u.host.receiving = none)
          ∧ (frameComplete bytes = true ∨ n ≤ last + 20 →
            Takes (.hostInterbyteTimeout t) s [] fun _ => True))
      ∧ (s.host.receiving = none → Takes (.hostInterbyteTimeout t) s [] fun _ => True)
      ∧ (s.host.sending = none → Takes (.hostFrameSent t) s [] fun _ => True)
      ∧ (∀ f, s.host.sending = some f →
        (f.final = true → ∀ w, s.host.warm = some w →
            Takes (.hostFrameSent t) s [.batch, .transmitter] fun u =>
              u.host.warm = some ⟨w.cause, true⟩ ∧ u.host.executing = s.host.executing
                ∧ u.host.waiting = s.host.waiting ∧ u.host.flags = s.host.flags
                ∧ u.host.sending = none ∧ u.host.ready = s.host.ready)
          ∧ (f.final = false → s.host.warm = none →
            (∀ g rest, s.host.ready = g :: rest →
                Takes (.hostFrameSent t) s [.transmitter] fun u =>
                  u.host.sending = some g ∧ u.host.ready = rest)
              ∧ (s.host.ready = [] → s.start = none →
                (∀ x ∈ s.timers, x.staged = []) → (∀ x ∈ s.bells, x.staged = []) →
                (∀ x ∈ s.outbound, x.staged = []) → (∀ x ∈ s.links, x.staged = []) →
                ∀ q rest, s.host.notices = q :: rest →
                  Takes (.hostFrameSent t) s [.transmitter] fun u =>
                    u.host.sending = some ⟨.notice, 0, byte q.key.code :: be32 q.mask, false⟩
                      ∧ u.host.notices = rest)))

/-- A whole REQUEST frame completed by the bytes that arrive. During a start, or with both places taken, it
is answered by a REFUSAL BUSY; a form at fault by a REFUSAL with its reason and position; it waits while
another executes; after a batch that ends in a warm start it is lost. A batch that runs clears the flags and
takes the turn of its first command; the turn of each later one is a step of an empty queue, or comes before
a row later than the running time, which finds no turn left, so that the events waiting come between (log
entry 42). At its turn a command is NOT_RUN after a refusal with halt set; else SKIPPED as
the companion of a SKIPPED paired command, or where its flag differs from the wanted sense, the flags and
the blocks left alone; else refused by the port's check; else run, its result DONE or REFUSED as its block
gives, or awaited. The result joins those before it; after the last command the reply is ready, with one
result for each in batch order, and its place is empty or taken by the request that waited, its batch begun; COMMIT, ABANDON EDIT and WARM RESET done make it
final, and every later command NOT_RUN. A transmitter that is busy keeps what becomes ready. -/
def Obligations.RequestsAreRefusedQueuedOrRun : Prop :=
  (∀ (s : State) (t : Time) (bytes body : List Byte) (last : Time) (tag : Byte)
      (payload : List Byte) (f : OutFrame), s.Undisputed → s.host.sending = some f →
      bytes.foldl (feedByte (max s.now t)) s.host.receiving = some (body, last) →
      frameComplete body = true → requestOf body = some (tag, payload) →
      (s.host.warm ≠ none →
          Takes (.hostRequestFrame t bytes) s [.receiver] fun u => u.host.receiving = none
            ∧ u.host.ready = s.host.ready)
        ∧ (s.host.warm = none →
          s.start ≠ none ∨ (s.host.executing ≠ none ∧ s.host.waiting ≠ none) →
          Takes (.hostRequestFrame t bytes) s [.receiver, .transmitter] fun u =>
            u.host.receiving = none
              ∧ u.host.ready = s.host.ready ++ [⟨.refusal, tag, [1, 0], false⟩])
        ∧ (s.host.warm = none → s.start = none →
          s.host.executing = none ∨ s.host.waiting = none →
          (∀ r, formRequest tag payload = .inl r →
              Takes (.hostRequestFrame t bytes) s [.receiver, .transmitter] fun u =>
                u.host.receiving = none
                  ∧ u.host.ready = s.host.ready
                    ++ [⟨.refusal, tag, [byte r.reason.code, byte r.position], false⟩])
            ∧ (∀ r, formRequest tag payload = .inr r →
              r.tag = tag ∧ 1 ≤ r.commands.length ∧ r.commands.length ≤ 8
                ∧ (s.host.executing ≠ none →
                  Takes (.hostRequestFrame t bytes) s [.receiver, .batch] fun u =>
                    u.host.receiving = none ∧ u.host.waiting = some r
                      ∧ u.host.executing = s.host.executing ∧ u.host.flags = s.host.flags
                      ∧ u.host.warm = none ∧ u.host.ready = s.host.ready)
                ∧ (s.host.executing = none → s.host.waiting = none →
                  (∃ u, exec (.hostRequestFrame t bytes) s = .next u
                      ∧ u.host.receiving = none ∧ u.host.waiting = none
                      ∧ ((∃ b, u.host.executing = some b ∧ b.tag = tag ∧ b.halt = r.halt
                            ∧ b.count = r.commands.length
                            ∧ (b.results.map (·.code)) ++ (b.awaited.toList.map (·.code))
                                ++ (b.rest.map (·.code)) = r.commands.map (·.code))
                        ∨ ∃ rs final, u.host.executing = none ∧ u.host.ready
                            = s.host.ready ++ [⟨.reply, tag, replyPayload rs, final⟩]
                          ∧ rs.map (·.code) = r.commands.map (·.code)))
                    ∧ (∀ c, r.commands = [c] → guarded c.guard = true →
                      guardSense c.guard = true →
                      Takes (.hostRequestFrame t bytes) s [.receiver, .batch, .transmitter]
                        fun u =>
                        u.host.receiving = none ∧ u.host.executing = none
                          ∧ u.host.waiting = none ∧ u.host.warm = none
                          ∧ u.host.flags = List.replicate 8 false
                          ∧ u.host.ready = s.host.ready
                            ++ [⟨.reply, tag, [1, byte c.code, 1, 0, 0], false⟩])
                    ∧ ∀ c cs, r.commands = c :: cs → cs ≠ [] → guarded c.guard = true →
                      guardSense c.guard = true →
                      Takes (.hostRequestFrame t bytes) s [.receiver, .batch] fun u =>
                        u.host.receiving = none ∧ u.host.waiting = none ∧ u.host.warm = none
                          ∧ u.host.flags = List.replicate 8 false ∧ u.host.ready = s.host.ready
                          ∧ u.host.executing = some
                            { tag := tag, halt := r.halt, count := r.commands.length
                              results := [⟨c.code, .skipped, .none, []⟩], rest := cs
                              skip := paired c.guard }))))
    ∧ (∀ (s : State) (t : Time), s.now < t → turnDue (s.comeTo t) = none)
    ∧ ∀ (s : State) (f : OutFrame) (b : Batch) (c : Command) (cs : List Command) (halted : Bool),
        s.Undisputed → s.pending = [] → s.host.sending = some f → s.host.warm = none →
        s.host.executing = some b → b.awaited = none → b.rest = c :: cs →
        halted = (b.halt && b.results.any fun r => r.result == .refused) →
        (∀ result, result = (if halted = true then ResultCode.notRun else .skipped) →
            halted = true ∨ b.skip = true
              ∨ (guarded c.guard = true ∧ flag s (guardFlag c.guard) ≠ guardSense c.guard) →
            ∃ u, step s = .next u ∧ u.now = s.now
              ∧ (cs ≠ [] ∨ s.host.waiting = none → u.host.flags = s.host.flags)
              ∧ GivenResult b cs ⟨c.code, result, .none, []⟩ (paired c.guard && !halted) s u
              ∧ (cs ≠ [] → KeptBut [.batch] s u ∧ u.host.warm = none)
              ∧ (cs = [] → KeptBut [.batch, .transmitter] s u ∧ u.host.warm = none))
          ∧ (halted = false → b.skip = false →
            guarded c.guard = false ∨ flag s (guardFlag c.guard) = guardSense c.guard →
            (∀ reason, portCheck b.count b.results c = some reason →
                ∃ u, step s = .next u ∧ u.now = s.now
                  ∧ (cs ≠ [] ∨ s.host.waiting = none → u.host.flags = s.host.flags)
                  ∧ GivenResult b cs (refusedResult c.code reason []) false s u
                  ∧ (cs ≠ [] → KeptBut [.batch] s u))
              ∧ (portCheck b.count b.results c = none →
                ∀ v, v = runCommand .batch c.code c.params s →
                (∀ data, v.2 = .done data → endsBatch c.code = none →
                    ∃ u, step s = .next u ∧ u.now = s.now
                      ∧ (cs ≠ [] ∨ s.host.waiting = none → u.host.flags = v.1.host.flags)
                      ∧ GivenResult b cs ⟨c.code, .done, .none, data⟩ false s u)
                  ∧ (∀ data cause, v.2 = .done data → endsBatch c.code = some cause →
                    ∃ u, step s = .next u ∧ u.now = s.now ∧ u.host.executing = none
                      ∧ u.host.waiting = none ∧ u.host.warm = some ⟨cause, false⟩
                      ∧ u.host.ready = s.host.ready ++ [⟨.reply, b.tag,
                        replyPayload (b.results ++ ⟨c.code, .done, .none, data⟩
                          :: cs.map fun d => ⟨d.code, .notRun, .none, []⟩), true⟩])
                  ∧ (∀ reason data, v.2 = .refused reason data →
                    ∃ u, step s = .next u ∧ u.now = s.now
                      ∧ (cs ≠ [] ∨ s.host.waiting = none → u.host.flags = s.host.flags)
                      ∧ GivenResult b cs (refusedResult c.code reason data) false s u
                      ∧ (cs ≠ [] → KeptBut [.batch] s u))
                  ∧ (v.2 = .waits →
                    ∃ u, step s = .next u ∧ u.now = s.now ∧ u.host.flags = s.host.flags
                      ∧ u.host.waiting = s.host.waiting
                      ∧ u.host.executing = some { b with awaited := some c, rest := cs })))

/-! ### Configuration store -/

/-- The commands of an editing session, each with its refusals, which change nothing. OPEN EDIT copies the
image in force, or the defaults, and enters EDITING with its MODE entry. LEARN REFERENCE starts the
learning record of a circuit enabled in the working copy. ABANDON EDIT ends all learning, drops the working
copy and makes a warm start due. COMMIT makes the write of a working copy due that passes the form checks,
and otherwise is refused TABLE_FORM with the form at fault. WARM RESET makes a warm start due, in every
mode. That a command row taken by itself makes the warm start due at once is the model's own (log entry
4). -/
def Obligations.EditingIsOpenedCommittedAndAbandoned : Prop :=
  ∀ (s : State) (t : Time) (k : Nat), s.Open →
    (s.mode = some .editing
          ∨ (working s = true ∧ (signalOff s = true ∨ lineOpen s = true)) →
        Takes (.openEdit t) s [.result] fun u => u.Refused 0x80 .state)
      ∧ (s.mode ≠ some .editing →
        working s = false ∨ (signalOff s = false ∧ lineOpen s = false) →
        (s.store.jobs ≠ [] → Takes (.openEdit t) s [.result] fun u => u.Refused 0x80 .busy)
          ∧ (s.store.jobs = [] →
            Takes (.openEdit t) s
              [.mode, .store, .levers, .inbound, .links, .register, .result] fun u =>
              u.mode = some .editing ∧ u.Gave 0x80 []
                ∧ u.store.work = some (s.store.inForce.getD Image.defaults)
                ∧ u.store.stored = s.store.stored
                ∧ u.register = s.register.append (.mode s.mode .editing)))
      ∧ (within k 24 = false →
        Takes (.learnReference t k) s [.result] fun u => u.Refused 0x03 .range)
      ∧ (within k 24 = true → s.mode ≠ some .editing →
        Takes (.learnReference t k) s [.result] fun u => u.Refused 0x03 .state)
      ∧ (∀ w, s.store.work = some w → within k 24 = true →
        ((w.track k).enabled = false →
            Takes (.learnReference t k) s [.result] fun u => u.Refused 0x03 .state)
          ∧ (s.circuits.length = 24 → s.mode = some .editing → (w.track k).enabled = true →
            Takes (.learnReference t k) s [.tracks, .result] fun u =>
              u.circuit k = { s.circuit k with learning := some {}, learnResult := none }
                ∧ OtherCircuits k s u ∧ u.Gave 0x03 []))
      ∧ (s.mode ≠ some .editing →
        Takes (.abandonEdit t) s [.result] (fun u => u.Refused 0x84 .state)
          ∧ Takes (.commit t) s [.result] fun u => u.Refused 0x83 .state)
      ∧ (s.mode = some .editing → s.store.jobs ≠ [] →
        Takes (.abandonEdit t) s [.result] (fun u => u.Refused 0x84 .busy)
          ∧ Takes (.commit t) s [.result] fun u => u.Refused 0x83 .busy)
      ∧ (s.mode = some .editing → s.store.jobs = [] →
        Takes (.abandonEdit t) s [.tracks, .store, .batch, .result] (fun u =>
            u.Gave 0x84 [] ∧ u.store.work = none ∧ u.store.stored = s.store.stored
              ∧ u.circuits = s.circuits.map (fun c => { c with learning := none })
              ∧ u.host.warm = some ⟨.abandonEdit, true⟩
              ∧ u.host.executing = s.host.executing ∧ u.host.waiting = s.host.waiting
              ∧ u.host.flags = s.host.flags)
          ∧ (∀ c ∈ s.circuits, c.learning ≠ none →
            Takes (.commit t) s [.result] fun u => u.Refused 0x83 .busy)
          ∧ ((∀ c ∈ s.circuits, c.learning = none) → ∀ w, s.store.work = some w →
            (∀ f, formFault w = some f →
                Takes (.commit t) s [.result] fun u =>
                  u.host.lastResult = some (refusedResult 0x83 .tableForm
                    (byte f.table :: (be16 f.record ++ [byte f.index]))))
              ∧ (formFault w = none →
                Takes (.commit t) s [.store, .result] fun u =>
                  u.host.lastResult = none ∧ u.store.work = some w
                    ∧ u.store.stored = s.store.stored
                    ∧ ∃ more, u.store.jobs = ⟨.whole w, some .alone⟩ :: more)))
      ∧ Takes (.warmReset t) s [.batch, .result] (fun u =>
          u.Gave 0x87 [] ∧ u.host.warm = some ⟨.warmReset, true⟩
            ∧ u.host.executing = s.host.executing ∧ u.host.waiting = s.host.waiting
            ∧ u.host.flags = s.host.flags)

/-- The end of an image write stores what it changed with its new signature, finds the image GOOD, and
replies with the signature to the command that waited: a COMMIT then makes the warm start due, TAKE OUT OF
USE has its lever out already, BRING INTO USE puts its lever in use again with its list in force, and a rule
of the code table is in force. A command that waits in a batch has its result, and the next command's turn
comes; a COMMIT ends its batch, its later commands NOT_RUN and the warm start due. With no write under way
the row changes nothing, which is the model's (log entry 2, DESIGN CHOICE), and so is the warm start made
due at once by a COMMIT row taken by itself (log entry 4). -/
def Obligations.ImageWritesStoreAndReply : Prop :=
  ∀ (s : State) (t : Time), s.Undisputed → s.faults.checkWaiting = false →
    (s.store.jobs = [] → Takes (.imageWriteComplete t) s [] fun _ => True)
      ∧ (∀ p w js st, s.store.jobs = ⟨p, w⟩ :: js → st = s.store.written p →
        st.good = true ∧ st.image = p.apply s.store.image
          ∧ (w = none → (∀ k l, p ≠ .bringIn k l) →
            Takes (.imageWriteComplete t) s [.store] fun u =>
              u.store.stored = some st ∧ u.store.imageState = .good ∧ u.store.work = s.store.work
                ∧ ∃ more, u.store.jobs = js ++ more)
          ∧ (w = some .alone → (∀ i, p ≠ .whole i) → (∀ k l, p ≠ .bringIn k l) →
            Takes (.imageWriteComplete t) s [.store, .result] fun u =>
              u.store.stored = some st ∧ u.store.imageState = .good
                ∧ u.Gave p.command (be32 st.signature) ∧ (∃ more, u.store.jobs = js ++ more)
                ∧ (s.NoneStaged → u.store.jobs = js
                  ∧ u.store.inForce = (match p with
                    | .code .. => s.store.inForce.map p.apply
                    | _ => s.store.inForce))
                ∧ (∀ page rule r i, p = .code page rule r → s.NoneStaged →
                  s.store.inForce = some i → i.codes.length = 4 → page ≤ 3 →
                  (∀ q ∈ i.codes, q.length = 16) → within rule 16 = true →
                  nth (u.tables.page page) {} rule = r))
          ∧ (∀ i, w = some .alone → p = .whole i →
            Takes (.imageWriteComplete t) s [.store, .batch, .result] fun u =>
              u.store.stored = some st ∧ st.image = i ∧ u.Gave 0x83 (be32 st.signature)
                ∧ u.host.warm = some ⟨.commit, true⟩
                ∧ u.host.executing = s.host.executing ∧ u.host.waiting = s.host.waiting
                ∧ u.host.flags = s.host.flags)
          ∧ (∀ k l, w = some .alone → p = .bringIn k l → within k 64 = true →
            s.levers.length = 64 →
            Takes (.imageWriteComplete t) s [.store, .levers, .result] fun u =>
              u.store.stored = some st ∧ u.Gave 0x13 (be32 st.signature)
                ∧ (u.lever k).outOfUse = false ∧ (u.lever k).copy = []
                ∧ (u.lever k).current = (s.lever k).current
                ∧ (u.lever k).settled = (s.lever k).settled
                ∧ (s.NoneStaged → u.store.inForce = s.store.inForce.map p.apply)
                ∧ (∀ i, s.store.inForce = some i → i.conditions.length = 64 →
                  u.tables.conds k = l))
          ∧ ∀ (b : Batch) (c : Command) (f : OutFrame) (x : CmdResult), w = some .batch →
            s.host.executing = some b → b.awaited = some c → c.code = p.command →
            s.host.sending = some f → x = ⟨c.code, .done, .none, be32 st.signature⟩ →
            ((∀ i, p ≠ .whole i) →
                ∃ u, exec (.imageWriteComplete t) s = .next u ∧ u.now = max s.now t
                  ∧ u.store.stored = some st ∧ u.store.imageState = .good
                  ∧ (s.host.warm = none → GivenResult b b.rest x false s u)
                  ∧ (b.rest ≠ [] → (∀ k l, p ≠ .bringIn k l) → KeptBut [.store, .batch] s u))
              ∧ (∀ i, p = .whole i →
                ∃ u, exec (.imageWriteComplete t) s = .next u ∧ u.now = max s.now t
                  ∧ KeptBut [.store, .batch, .transmitter] s u ∧ u.store.stored = some st
                  ∧ u.host.executing = none ∧ u.host.waiting = none
                  ∧ u.host.warm = some ⟨.commit, false⟩
                  ∧ u.host.ready = s.host.ready ++ [⟨.reply, b.tag,
                    replyPayload (b.results ++ x
                      :: b.rest.map fun d => ⟨d.code, .notRun, .none, []⟩), true⟩]))

/-- WRITE TABLE takes a whole record: it is refused RANGE for a table or record that is none, PROTECTED
where the mode gives no W, BAD_PARAM where the bytes do not make one record, and RANGE for a field out of
its range; in EDITING it goes to the working copy, BUSY while a COMMIT is written; in SERVICE and SUSPENDED
a condition entry of a lever out of use goes to its copy, and a rule of the code table is written unless
its pattern is another rule's. READ TABLE gives the record in the same encoding, from the working copy in
EDITING, from the copy of a lever out of use, and else from the image in force. That a write while a COMMIT is
written is BUSY only after the other checks, which R184 and R185 do not order, and that a repeated pattern is
named by page times 256 plus rule, with index 255, is the model's (log entry 9, DEDUCED). -/
def Obligations.TablesAreWrittenAndRead : Prop :=
  ∀ (s : State) (t : Time) (table record : Nat) (bytes : List Byte), s.Open →
    (within table 13 = false ∨ recordOk table record = false →
        Takes (.writeTable t table record bytes) s [.result] fun u => u.Refused 0x81 .range)
      ∧ (within table 13 = true → recordOk table record = true →
        (mayWrite s table record = false →
            Takes (.writeTable t table record bytes) s [.result] fun u =>
              u.Refused 0x81 .protectedField)
          ∧ (s.mode = some .unconfigured → mayWrite s table record = false)
          ∧ (mayWrite s table record = true →
            (parseFields (layout table record) bytes = none →
                Takes (.writeTable t table record bytes) s [.result] fun u =>
                  u.Refused 0x81 .badParam)
              ∧ ∀ raw, parseFields (layout table record) bytes = some raw →
                (valueOfRaw table record raw = none →
                    Takes (.writeTable t table record bytes) s [.result] fun u =>
                      u.Refused 0x81 .range)
                  ∧ ∀ v, valueOfRaw table record raw = some v →
                    (s.mode = some .editing → committing s = true →
                        Takes (.writeTable t table record bytes) s [.result] fun u =>
                          u.Refused 0x81 .busy)
                      ∧ (s.mode = some .editing → committing s = false →
                        Takes (.writeTable t table record bytes) s [.store, .result] fun u =>
                          u.Gave 0x81 [] ∧ u.store.stored = s.store.stored
                            ∧ u.store.work = s.store.work.map (·.set record v))
                      ∧ (∀ c, s.mode ≠ some .editing → v = .cond c → s.levers.length = 64 →
                        Takes (.writeTable t table record bytes) s [.levers, .result] fun u =>
                          u.Gave 0x81 []
                            ∧ (u.lever (record / 256)).copy
                              = writeCond (s.lever (record / 256)).copy (record % 256) c
                            ∧ OtherLevers (record / 256) s u)
                      ∧ (∀ r, s.mode ≠ some .editing → v = .code r →
                        (∀ j, duplicateOf (s.tables.page (record / 256)) (record % 256) r.pattern
                              = some j →
                            Takes (.writeTable t table record bytes) s [.result] fun u =>
                              u.host.lastResult = some (refusedResult 0x81 .tableForm
                                (12 :: (be16 (record / 256 * 256 + j) ++ [255]))))
                          ∧ (duplicateOf (s.tables.page (record / 256)) (record % 256) r.pattern
                              = none →
                            Takes (.writeTable t table record bytes) s [.store, .result] fun u =>
                              u.host.lastResult = none ∧ u.store.stored = s.store.stored
                                ∧ ∃ more, u.store.jobs = s.store.jobs
                                  ++ ⟨.code (record / 256) (record % 256) r, some .alone⟩
                                    :: more))))
      ∧ (s.mode = some .unconfigured →
        Takes (.readTable t table record) s [.result] fun u => u.Refused 0x82 .state)
      ∧ (s.mode ≠ some .unconfigured → within table 13 = false ∨ recordOk table record = false →
        Takes (.readTable t table record) s [.result] fun u => u.Refused 0x82 .range)
      ∧ (within table 13 = true → recordOk table record = true →
        (∀ w, s.mode = some .editing → s.store.work = some w →
            Takes (.readTable t table record) s [.result] fun u =>
              u.Gave 0x82 (encodeFields (layout table record) (w.get table record).raw))
          ∧ (s.mode ≠ some .unconfigured → s.mode ≠ some .editing →
            (table = 7 → (s.lever (record / 256)).outOfUse = true →
                Takes (.readTable t table record) s [.result] fun u =>
                  u.Gave 0x82 (encodeFields (layout 7 record)
                    (condRaw (nth (s.lever (record / 256)).copy none (record % 256)))))
              ∧ (table ≠ 7 ∨ (s.lever (record / 256)).outOfUse = false →
                Takes (.readTable t table record) s [.result] fun u =>
                  u.Gave 0x82 (encodeFields (layout table record)
                    (s.tables.get table record).raw))))

/-- STAGE is refused STATE outside SERVICE and SUSPENDED, RANGE for a table, record or field that is none,
PROTECTED for a field the attribute map gives no S, and BAD_PARAM for a value of another length. Its owner
refuses STATE for a record that is not configured, a DISABLED circuit, an inbound line, and the validity of a timer
that no lever owns, and RANGE for a value outside its range or against a relation with the record's other fields.
That the owner of a releases record counts as two fields, so that duration is field 4 and validity field 5, that
STATE comes before RANGE, and that field 2 of an inbound line is refused STATE whatever the value's length, before
BAD_PARAM, is the model's (log entry 9, DEDUCED). A value the owner takes joins its pending values in the place of one already pending for the field, until the
owner's reload point, and the command replies DONE with no data. At its reload point, and at once where it
stands when a value is staged, an owner puts its pending values into its record in force, makes their write
due, and has none pending; before it, nothing changes. -/
def Obligations.StagedValuesJoinTheirOwners : Prop :=
  (∀ (s : State) (t : Time) (table k field v : Nat) (value : List Byte), s.Open →
      (working s = false →
          Takes (.stage t table k field value) s [.result] fun u => u.Refused 0x85 .state)
        ∧ (working s = true →
          (within table 13 = false ∨ recordOk table k = false
                ∨ within field (layout table k).length = false →
              Takes (.stage t table k field value) s [.result] fun u => u.Refused 0x85 .range)
            ∧ (within table 13 = true → recordOk table k = true →
              within field (layout table k).length = true →
              (stageable table field = false →
                  Takes (.stage t table k field value) s [.result] fun u =>
                    u.Refused 0x85 .protectedField)
                ∧ (stageable table field = true → table = 11 → k % 2 = 1 →
                  Takes (.stage t table k field value) s [.result] fun u => u.Refused 0x85 .state)
                ∧ (stageable table field = true → table ≠ 11 ∨ k % 2 = 0 →
                  stagedValue table k field value = none →
                  Takes (.stage t table k field value) s [.result] fun u =>
                    u.Refused 0x85 .badParam)
                ∧ (stageable table field = true → table ≠ 11 ∨ k % 2 = 0 →
                  stagedValue table k field value = some v →
                  ((table = 8 ∧ (s.circuit k).state = .disabled)
                        ∨ (table = 10 ∧ (timerOn s k = false
                          ∨ (field = 5 ∧ (timerOwner s k).1 ≠ .lever)))
                        ∨ ((table = 2 ∨ table = 3) ∧ s.linkOn k = false)
                        ∨ (table = 11 ∧ s.linkOn (k / 2) = false) →
                      Takes (.stage t table k field value) s [.result] fun u =>
                        u.Refused 0x85 .state)
                    ∧ ((table = 8 ∧ (s.circuit k).state ≠ .disabled
                          ∧ trackTakes (s.tables.track k) (s.circuit k).staged field v = false)
                        ∨ (table = 10 ∧ timerOn s k = true
                          ∧ ((field = 4 ∧ (v < 10 ∨ 600 < v))
                            ∨ (field = 5 ∧ (timerOwner s k).1 = .lever ∧ (v < 10 ∨ 300 < v))))
                        ∨ (table = 3 ∧ s.linkOn k = true ∧ (bellRange field v = false
                          ∨ ((s.tables.bell k).withStaged
                            (putStaged field v (s.bell k).staged)).related = false))
                        ∨ (table = 2 ∧ s.linkOn k = true ∧ (linkRange field v = false
                          ∨ ((field = 11 ∨ field = 12) ∧ ∃ vs, vs = putStaged field v (s.link k).staged
                            ∧ stagedOr vs 12 (cfgOf s k).silence
                              < 2 * stagedOr vs 11 (cfgOf s k).heartbeat)))
                        ∨ (table = 11 ∧ s.linkOn (k / 2) = true ∧ (v < 10 ∨ 300 < v)) →
                      Takes (.stage t table k field value) s [.result] fun u =>
                        u.Refused 0x85 .range)
                    ∧ (table = 8 → s.circuits.length = 24 → (s.circuit k).state ≠ .disabled →
                      (s.circuit k).state ≠ .clear →
                      (trackTakes (s.tables.track k) (s.circuit k).staged field v = false →
                          Takes (.stage t table k field value) s [.result] fun u =>
                            u.Refused 0x85 .range)
                        ∧ (trackTakes (s.tables.track k) (s.circuit k).staged field v = true →
                          Takes (.stage t table k field value) s [.tracks, .result] fun u =>
                            u.Gave 0x85 [] ∧ OtherCircuits k s u
                              ∧ u.circuit k = { s.circuit k with
                                staged := (s.circuit k).staged.filter (·.1 != field)
                                  ++ [(field, v)] }))
                    ∧ (table = 10 → s.timers.length = 16 → timerOn s k = true →
                      (s.timer k).state ≠ .idle → (timerOwner s k).1 = .lever ∨ field = 4 →
                      (field = 4 → 10 ≤ v ∧ v ≤ 600) → (field = 5 → 10 ≤ v ∧ v ≤ 300) →
                      Takes (.stage t table k field value) s [.timers, .result] fun u =>
                        u.Gave 0x85 [] ∧ OtherTimers k s u
                          ∧ u.timer k = { s.timer k with
                            staged := (s.timer k).staged.filter (·.1 != field)
                              ++ [(field, v)] })
                    ∧ (table = 3 → s.bells.length = 3 → s.linkOn k = true →
                      codeOpen s k = true → bellRange field v = true →
                      ((s.tables.bell k).withStaged (putStaged field v (s.bell k).staged)).related
                        = true →
                      Takes (.stage t table k field value) s [.bells, .result] fun u =>
                        u.Gave 0x85 [] ∧ OtherBells k s u
                          ∧ u.bell k = { s.bell k with
                            staged := (s.bell k).staged.filter (·.1 != field)
                              ++ [(field, v)] })
                    ∧ (table = 2 → s.links.length = 3 → s.linkOn k = true →
                      linkRange field v = true →
                      (field = 11 ∨ field = 12 → ∀ vs, vs = putStaged field v (s.link k).staged →
                        2 * stagedOr vs 11 (cfgOf s k).heartbeat
                          ≤ stagedOr vs 12 (cfgOf s k).silence) →
                      (s.link k).state ≠ .idle → (s.link k).state ≠ .outOfUse →
                      Takes (.stage t table k field value) s [.links, .result] fun u =>
                        u.Gave 0x85 [] ∧ OtherLinks k s u
                          ∧ (u.link k).staged
                            = (s.link k).staged.filter (·.1 != field) ++ [(field, v)])
                    ∧ (table = 11 → s.outbound.length = 3 → s.linkOn (k / 2) = true →
                      10 ≤ v → v ≤ 300 → (s.outb (k / 2)).overdueAt ≠ none →
                      Takes (.stage t table k field value) s [.outbound, .result] fun u =>
                        u.Gave 0x85 [] ∧ OtherOutbound (k / 2) s u
                          ∧ u.outb (k / 2) = { s.outb (k / 2) with
                            staged := (s.outb (k / 2)).staged.filter (·.1 != field)
                              ++ [(field, v)] })
                    ∧ (s.NoneStaged →
                      (table = 8 → s.circuits.length = 24 → (s.circuit k).state = .clear →
                          trackTakes (s.tables.track k) [] field v = true →
                          Takes (.stage t table k field value) s
                            [.tracks, .store, .levers, .faults, .register, .holds, .timers, .inbound,
                              .outbound, .mode, .links, .result] fun u =>
                            u.Gave 0x85 [] ∧ (u.circuit k).staged = []
                              ∧ Applied 8 k [(field, v)] s u)
                        ∧ (table = 10 → s.timers.length = 16 → timerOn s k = true →
                          (s.timer k).state = .idle → (timerOwner s k).1 = .lever ∨ field = 4 →
                          (field = 4 → 10 ≤ v ∧ v ≤ 600) → (field = 5 → 10 ≤ v ∧ v ≤ 300) →
                          Takes (.stage t table k field value) s [.store, .result, .transmitter]
                            fun u => u.Gave 0x85 [] ∧ u.NoneStaged ∧ Applied 10 k [(field, v)] s u)
                        ∧ (table = 3 → s.bells.length = 3 → s.linkOn k = true →
                          codeOpen s k = false → bellRange field v = true →
                          ((s.tables.bell k).withStaged [(field, v)]).related = true →
                          Takes (.stage t table k field value) s [.store, .result, .transmitter]
                            fun u => u.Gave 0x85 [] ∧ u.NoneStaged ∧ Applied 3 k [(field, v)] s u)
                        ∧ (table = 2 → s.links.length = 3 → s.linkOn k = true →
                          linkRange field v = true →
                          (field = 11 → 2 * v ≤ (cfgOf s k).silence) →
                          (field = 12 → 2 * (cfgOf s k).heartbeat ≤ v) →
                          (s.link k).state = .idle ∨ (s.link k).state = .outOfUse →
                          (s.link k).queue = [] → (s.link k).indicationDue = false →
                          (s.link k).retryAt = none →
                          Takes (.stage t table k field value) s [.store, .result, .transmitter]
                            fun u => u.Gave 0x85 [] ∧ u.NoneStaged ∧ Applied 2 k [(field, v)] s u)
                        ∧ (table = 11 → s.outbound.length = 3 → s.linkOn (k / 2) = true →
                          10 ≤ v → v ≤ 300 → (s.outb (k / 2)).overdueAt = none →
                          Takes (.stage t table k field value) s [.store, .result, .transmitter]
                            fun u => u.Gave 0x85 [] ∧ u.NoneStaged
                              ∧ Applied 11 k [(field, v)] s u))))))
    ∧ ∀ (s : State) (k : Nat),
        ((s.circuit k).staged = [] → reloadTrack k s = s)
          ∧ ((s.timer k).staged = [] ∨ (s.timer k).state ≠ .idle → reloadTimer k s = s)
          ∧ ((s.bell k).staged = [] ∨ codeOpen s k = true → reloadBell k s = s)
          ∧ ((s.outb k).staged = [] ∨ (s.outb k).overdueAt ≠ none → reloadLine k s = s)
          ∧ ((s.link k).staged = [] ∨ (s.link k).atReload = false → reloadLink k s = s)
          ∧ ((s.circuit k).staged ≠ [] → within k 24 = true → s.circuits.length = 24 →
            Applied 8 k (s.circuit k).staged s (reloadTrack k s) ∧ OtherCircuits k s (reloadTrack k s)
              ∧ (reloadTrack k s).circuit k = { s.circuit k with staged := [] })
          ∧ ((s.timer k).staged ≠ [] → (s.timer k).state = .idle → within k 16 = true →
            s.timers.length = 16 →
            Applied 10 k (s.timer k).staged s (reloadTimer k s)
              ∧ (reloadTimer k s).timer k = { s.timer k with staged := [] })
          ∧ ((s.bell k).staged ≠ [] → codeOpen s k = false → within k 3 = true →
            s.bells.length = 3 →
            Applied 3 k (s.bell k).staged s (reloadBell k s)
              ∧ (reloadBell k s).bell k = { s.bell k with staged := [] })
          ∧ ((s.outb k).staged ≠ [] → (s.outb k).overdueAt = none → within k 3 = true →
            s.outbound.length = 3 →
            Applied 11 (2 * k) (s.outb k).staged s (reloadLine k s)
              ∧ (reloadLine k s).outb k = { s.outb k with staged := [] })
          ∧ ((s.link k).staged ≠ [] → (s.link k).atReload = true → within k 3 = true →
            s.links.length = 3 →
            Applied 2 k (s.link k).staged s (reloadLink k s)
              ∧ (reloadLink k s).link k = { s.link k with staged := [] })
end

