-- ==== Sys2Proof/Laws/Records.lean ====
section
/-! SUPPORT. The laws of numbered records (`nth`, `put`, `modAt`), of `forEach` and of `when`: a read
after a write of the same record gives what was written, and every other record is left alone. -/

set_option Elab.async false

namespace Sys2Proof.Machine

variable {α β : Type}

/-! ### nth and put -/

@[simp] theorem nth_zero (l : List α) (d : α) : nth l d 0 = d := rfl

@[simp] theorem nth_succ (l : List α) (d : α) (j : Nat) : nth l d (j + 1) = l.getD j d := rfl

@[simp] theorem length_put (l : List α) (k : Nat) (x : α) : (put l k x).length = l.length := by
  cases k <;> simp [put]

@[simp] theorem length_modAt (l : List α) (d : α) (k : Nat) (f : α → α) :
    (modAt l d k f).length = l.length := length_put l k _

theorem within_iff (k n : Nat) : within k n = true ↔ 1 ≤ k ∧ k ≤ n := by simp [within]

/-- A number outside the list names the default record. -/
theorem nth_outside (l : List α) (d : α) (k : Nat) (h : within k l.length = false) :
    nth l d k = d := by
  cases k with
  | zero => rfl
  | succ j =>
    have : l.length ≤ j := by simpa [within] using h
    simp [nth, List.getD, this]

/-- A record written is read back, and every other is left alone. -/
theorem nth_put (l : List α) (d : α) (k j : Nat) (x : α) :
    nth (put l k x) d j = if j = k ∧ within k l.length = true then x else nth l d j := by
  cases k with
  | zero => simp [put, within]
  | succ k =>
    cases j with
    | zero => simp
    | succ j =>
      simp only [put, nth, List.getD, List.getElem?_set, within_iff]
      by_cases hjk : k = j
      · subst hjk
        by_cases hk : k < l.length
        · simp [hk, Nat.succ_le_of_lt hk]
        · simp [hk]
      · have : ¬ j = k := fun h => hjk h.symm
        simp [hjk, this]

/-- What a change of one record leaves in each. -/
theorem nth_modAt (l : List α) (d : α) (k j : Nat) (f : α → α) :
    nth (modAt l d k f) d j
      = if j = k ∧ within k l.length = true then f (nth l d k) else nth l d j :=
  nth_put l d k j _

/-- A change of a record that is not there is no change. -/
theorem put_outside (l : List α) (k : Nat) (x : α) (h : within k l.length = false) :
    put l k x = l := by
  cases k with
  | zero => rfl
  | succ j =>
    have : l.length ≤ j := by simpa [within] using h
    simp [put, List.set_eq_of_length_le this]

/-- A record of the list is one of its numbered records. -/
theorem exists_nth_of_mem {l : List α} {x : α} (d : α) (h : x ∈ l) :
    ∃ k, within k l.length = true ∧ nth l d k = x := by
  obtain ⟨i, hi, rfl⟩ := List.getElem_of_mem h
  exact ⟨i + 1, by simp [within]; omega, by simp [nth, List.getD, hi]⟩

/-- A numbered record of the list is in it. -/
theorem nth_mem (l : List α) (d : α) (k : Nat) (h : within k l.length = true) : nth l d k ∈ l := by
  obtain ⟨j, rfl⟩ : ∃ j, k = j + 1 := ⟨k - 1, by have := (within_iff _ _).1 h; omega⟩
  have hj : j < l.length := by have := (within_iff _ _).1 h; omega
  simp [nth, List.getD, hj]

/-- Every record of a changed list is one it had, or the changed one. -/
theorem mem_modAt {l : List α} {d x : α} {k : Nat} {f : α → α} (h : x ∈ modAt l d k f) :
    x ∈ l ∨ (within k l.length = true ∧ x = f (nth l d k)) := by
  obtain ⟨j, hj, rfl⟩ := exists_nth_of_mem d h
  rw [length_modAt] at hj
  rw [nth_modAt]
  split
  · next hk => exact .inr ⟨hk.2, rfl⟩
  · exact .inl (nth_mem l d j hj)

/-- What holds of every record holds of every record of the changed list, if the change keeps it. -/
theorem all_modAt {l : List α} {d : α} {k : Nat} {f : α → α} {p : α → Prop}
    (h : ∀ x ∈ l, p x) (hf : p (nth l d k) → p (f (nth l d k))) : ∀ x ∈ modAt l d k f, p x := by
  intro x hx
  rcases mem_modAt hx with hx | ⟨hk, rfl⟩
  · exact h x hx
  · exact hf (h _ (nth_mem l d k hk))

/-- A change that keeps a view of its record keeps the view of the list. -/
theorem map_modAt (l : List α) (d : α) (k : Nat) (f : α → α) (v : α → β)
    (h : v (f (nth l d k)) = v (nth l d k)) : (modAt l d k f).map v = l.map v := by
  cases k with
  | zero => rfl
  | succ j =>
    simp only [modAt, put, List.map_set]
    rw [h]
    by_cases hj : j < l.length
    · apply List.ext_getElem (by simp)
      intro i h1 h2
      simp only [List.getElem_set, List.getElem_map]
      split
      · next e => subst e; simp [nth, List.getD, hj]
      · rfl
    · exact List.set_eq_of_length_le (by simpa using Nat.le_of_not_lt hj)

/-- A change of a record to itself changes nothing. -/
theorem modAt_self (l : List α) (d : α) (k : Nat) (f : α → α) (h : f (nth l d k) = nth l d k) :
    modAt l d k f = l := by
  have := map_modAt l d k f id (by simpa using h)
  simpa using this

/-! ### when and forEach -/

@[simp] theorem when_true (f : State → State) (s : State) : when true f s = f s := rfl

@[simp] theorem when_false (f : State → State) (s : State) : when false f s = s := rfl

@[simp] theorem forEach_nil (f : Nat → State → State) (s : State) : forEach [] f s = s := rfl

@[simp] theorem forEach_cons (n : Nat) (ns : List Nat) (f : Nat → State → State) (s : State) :
    forEach (n :: ns) f s = forEach ns f (f n s) := rfl

/-- What a change keeps is kept where it is made only under a condition. -/
theorem when_keeps {I : State → Prop} {f : State → State} (c : Bool) {s : State}
    (hf : I s → I (f s)) (h : I s) : I (when c f s) := by
  cases c
  · exact h
  · exact hf h

/-- What each round keeps is kept by all of them. -/
theorem forEach_keeps {I : State → Prop} {f : Nat → State → State} (ns : List Nat)
    (hf : ∀ n ∈ ns, ∀ s, I s → I (f n s)) : ∀ s, I s → I (forEach ns f s) := by
  induction ns with
  | nil => intro s h; exact h
  | cons n ns ih =>
    intro s h
    exact ih (fun m hm => hf m (List.mem_cons_of_mem _ hm)) _ (hf n List.mem_cons_self s h)

/-- Rounds that each change nothing change nothing. -/
theorem forEach_eq_self {f : Nat → State → State} (ns : List Nat) (s : State)
    (hf : ∀ n ∈ ns, f n s = s) : forEach ns f s = s := by
  induction ns with
  | nil => rfl
  | cons n ns ih =>
    rw [forEach_cons, hf n List.mem_cons_self]
    exact ih fun m hm => hf m (List.mem_cons_of_mem _ hm)

end Sys2Proof.Machine
end

