-- ==== Sys2Proof/Laws/State.lean ====
section
/-! SUPPORT. The small lemmas of State: for each update, what each field and each numbered record is
after it. All but those of the record an update changes are true by `rfl`. -/

set_option Elab.async false

namespace Sys2Proof.Machine.State

variable (s : State)


/-! ### modCircuit -/

@[simp] theorem modCircuit_pending (k : Nat) (f : Circuit → Circuit) :
    (s.modCircuit k f).pending = s.pending := rfl
@[simp] theorem modCircuit_now (k : Nat) (f : Circuit → Circuit) :
    (s.modCircuit k f).now = s.now := rfl
@[simp] theorem modCircuit_freeCount (k : Nat) (f : Circuit → Circuit) :
    (s.modCircuit k f).freeCount = s.freeCount := rfl
@[simp] theorem modCircuit_mode (k : Nat) (f : Circuit → Circuit) :
    (s.modCircuit k f).mode = s.mode := rfl
@[simp] theorem modCircuit_start (k : Nat) (f : Circuit → Circuit) :
    (s.modCircuit k f).start = s.start := rfl
@[simp] theorem modCircuit_store (k : Nat) (f : Circuit → Circuit) :
    (s.modCircuit k f).store = s.store := rfl
@[simp] theorem modCircuit_circuits (k : Nat) (f : Circuit → Circuit) :
    (s.modCircuit k f).circuits = modAt s.circuits {} k f := rfl
@[simp] theorem modCircuit_converter (k : Nat) (f : Circuit → Circuit) :
    (s.modCircuit k f).converter = s.converter := rfl
@[simp] theorem modCircuit_scan (k : Nat) (f : Circuit → Circuit) :
    (s.modCircuit k f).scan = s.scan := rfl
@[simp] theorem modCircuit_polled (k : Nat) (f : Circuit → Circuit) :
    (s.modCircuit k f).polled = s.polled := rfl
@[simp] theorem modCircuit_boards (k : Nat) (f : Circuit → Circuit) :
    (s.modCircuit k f).boards = s.boards := rfl
@[simp] theorem modCircuit_levers (k : Nat) (f : Circuit → Circuit) :
    (s.modCircuit k f).levers = s.levers := rfl
@[simp] theorem modCircuit_instruments (k : Nat) (f : Circuit → Circuit) :
    (s.modCircuit k f).instruments = s.instruments := rfl
@[simp] theorem modCircuit_holds (k : Nat) (f : Circuit → Circuit) :
    (s.modCircuit k f).holds = s.holds := rfl
@[simp] theorem modCircuit_timers (k : Nat) (f : Circuit → Circuit) :
    (s.modCircuit k f).timers = s.timers := rfl
@[simp] theorem modCircuit_bells (k : Nat) (f : Circuit → Circuit) :
    (s.modCircuit k f).bells = s.bells := rfl
@[simp] theorem modCircuit_inbound (k : Nat) (f : Circuit → Circuit) :
    (s.modCircuit k f).inbound = s.inbound := rfl
@[simp] theorem modCircuit_outbound (k : Nat) (f : Circuit → Circuit) :
    (s.modCircuit k f).outbound = s.outbound := rfl
@[simp] theorem modCircuit_links (k : Nat) (f : Circuit → Circuit) :
    (s.modCircuit k f).links = s.links := rfl
@[simp] theorem modCircuit_register (k : Nat) (f : Circuit → Circuit) :
    (s.modCircuit k f).register = s.register := rfl
@[simp] theorem modCircuit_tickAt (k : Nat) (f : Circuit → Circuit) :
    (s.modCircuit k f).tickAt = s.tickAt := rfl
@[simp] theorem modCircuit_faults (k : Nat) (f : Circuit → Circuit) :
    (s.modCircuit k f).faults = s.faults := rfl
@[simp] theorem modCircuit_host (k : Nat) (f : Circuit → Circuit) :
    (s.modCircuit k f).host = s.host := rfl
theorem circuit_modCircuit (k j : Nat) (f : Circuit → Circuit) :
    (s.modCircuit k f).circuit j = if j = k ∧ within k s.circuits.length = true then f (s.circuit k) else s.circuit j :=
  nth_modAt s.circuits {} k j f
@[simp] theorem circuit_modCircuit_same (k : Nat) (f : Circuit → Circuit) (hk : within k s.circuits.length = true) :
    (s.modCircuit k f).circuit k = f (s.circuit k) := by rw [circuit_modCircuit, if_pos ⟨rfl, hk⟩]
theorem circuit_modCircuit_other (k j : Nat) (f : Circuit → Circuit) (hj : j ≠ k) :
    (s.modCircuit k f).circuit j = s.circuit j := by rw [circuit_modCircuit, if_neg (fun h => hj h.1)]
@[simp] theorem modCircuit_board (k j : Nat) (f : Circuit → Circuit) :
    (s.modCircuit k f).board j = s.board j := rfl
@[simp] theorem modCircuit_lever (k j : Nat) (f : Circuit → Circuit) :
    (s.modCircuit k f).lever j = s.lever j := rfl
@[simp] theorem modCircuit_instrument (k j : Nat) (f : Circuit → Circuit) :
    (s.modCircuit k f).instrument j = s.instrument j := rfl
@[simp] theorem modCircuit_hold (k j : Nat) (f : Circuit → Circuit) :
    (s.modCircuit k f).hold j = s.hold j := rfl
@[simp] theorem modCircuit_timer (k j : Nat) (f : Circuit → Circuit) :
    (s.modCircuit k f).timer j = s.timer j := rfl
@[simp] theorem modCircuit_bell (k j : Nat) (f : Circuit → Circuit) :
    (s.modCircuit k f).bell j = s.bell j := rfl
@[simp] theorem modCircuit_inb (k j : Nat) (f : Circuit → Circuit) :
    (s.modCircuit k f).inb j = s.inb j := rfl
@[simp] theorem modCircuit_outb (k j : Nat) (f : Circuit → Circuit) :
    (s.modCircuit k f).outb j = s.outb j := rfl
@[simp] theorem modCircuit_link (k j : Nat) (f : Circuit → Circuit) :
    (s.modCircuit k f).link j = s.link j := rfl

/-! ### modBoard -/

@[simp] theorem modBoard_pending (k : Nat) (f : Board → Board) :
    (s.modBoard k f).pending = s.pending := rfl
@[simp] theorem modBoard_now (k : Nat) (f : Board → Board) :
    (s.modBoard k f).now = s.now := rfl
@[simp] theorem modBoard_freeCount (k : Nat) (f : Board → Board) :
    (s.modBoard k f).freeCount = s.freeCount := rfl
@[simp] theorem modBoard_mode (k : Nat) (f : Board → Board) :
    (s.modBoard k f).mode = s.mode := rfl
@[simp] theorem modBoard_start (k : Nat) (f : Board → Board) :
    (s.modBoard k f).start = s.start := rfl
@[simp] theorem modBoard_store (k : Nat) (f : Board → Board) :
    (s.modBoard k f).store = s.store := rfl
@[simp] theorem modBoard_circuits (k : Nat) (f : Board → Board) :
    (s.modBoard k f).circuits = s.circuits := rfl
@[simp] theorem modBoard_converter (k : Nat) (f : Board → Board) :
    (s.modBoard k f).converter = s.converter := rfl
@[simp] theorem modBoard_scan (k : Nat) (f : Board → Board) :
    (s.modBoard k f).scan = s.scan := rfl
@[simp] theorem modBoard_polled (k : Nat) (f : Board → Board) :
    (s.modBoard k f).polled = s.polled := rfl
@[simp] theorem modBoard_boards (k : Nat) (f : Board → Board) :
    (s.modBoard k f).boards = modAt s.boards {} k f := rfl
@[simp] theorem modBoard_levers (k : Nat) (f : Board → Board) :
    (s.modBoard k f).levers = s.levers := rfl
@[simp] theorem modBoard_instruments (k : Nat) (f : Board → Board) :
    (s.modBoard k f).instruments = s.instruments := rfl
@[simp] theorem modBoard_holds (k : Nat) (f : Board → Board) :
    (s.modBoard k f).holds = s.holds := rfl
@[simp] theorem modBoard_timers (k : Nat) (f : Board → Board) :
    (s.modBoard k f).timers = s.timers := rfl
@[simp] theorem modBoard_bells (k : Nat) (f : Board → Board) :
    (s.modBoard k f).bells = s.bells := rfl
@[simp] theorem modBoard_inbound (k : Nat) (f : Board → Board) :
    (s.modBoard k f).inbound = s.inbound := rfl
@[simp] theorem modBoard_outbound (k : Nat) (f : Board → Board) :
    (s.modBoard k f).outbound = s.outbound := rfl
@[simp] theorem modBoard_links (k : Nat) (f : Board → Board) :
    (s.modBoard k f).links = s.links := rfl
@[simp] theorem modBoard_register (k : Nat) (f : Board → Board) :
    (s.modBoard k f).register = s.register := rfl
@[simp] theorem modBoard_tickAt (k : Nat) (f : Board → Board) :
    (s.modBoard k f).tickAt = s.tickAt := rfl
@[simp] theorem modBoard_faults (k : Nat) (f : Board → Board) :
    (s.modBoard k f).faults = s.faults := rfl
@[simp] theorem modBoard_host (k : Nat) (f : Board → Board) :
    (s.modBoard k f).host = s.host := rfl
@[simp] theorem modBoard_circuit (k j : Nat) (f : Board → Board) :
    (s.modBoard k f).circuit j = s.circuit j := rfl
theorem board_modBoard (k j : Nat) (f : Board → Board) :
    (s.modBoard k f).board j = if j = k ∧ within k s.boards.length = true then f (s.board k) else s.board j :=
  nth_modAt s.boards {} k j f
@[simp] theorem board_modBoard_same (k : Nat) (f : Board → Board) (hk : within k s.boards.length = true) :
    (s.modBoard k f).board k = f (s.board k) := by rw [board_modBoard, if_pos ⟨rfl, hk⟩]
theorem board_modBoard_other (k j : Nat) (f : Board → Board) (hj : j ≠ k) :
    (s.modBoard k f).board j = s.board j := by rw [board_modBoard, if_neg (fun h => hj h.1)]
@[simp] theorem modBoard_lever (k j : Nat) (f : Board → Board) :
    (s.modBoard k f).lever j = s.lever j := rfl
@[simp] theorem modBoard_instrument (k j : Nat) (f : Board → Board) :
    (s.modBoard k f).instrument j = s.instrument j := rfl
@[simp] theorem modBoard_hold (k j : Nat) (f : Board → Board) :
    (s.modBoard k f).hold j = s.hold j := rfl
@[simp] theorem modBoard_timer (k j : Nat) (f : Board → Board) :
    (s.modBoard k f).timer j = s.timer j := rfl
@[simp] theorem modBoard_bell (k j : Nat) (f : Board → Board) :
    (s.modBoard k f).bell j = s.bell j := rfl
@[simp] theorem modBoard_inb (k j : Nat) (f : Board → Board) :
    (s.modBoard k f).inb j = s.inb j := rfl
@[simp] theorem modBoard_outb (k j : Nat) (f : Board → Board) :
    (s.modBoard k f).outb j = s.outb j := rfl
@[simp] theorem modBoard_link (k j : Nat) (f : Board → Board) :
    (s.modBoard k f).link j = s.link j := rfl

/-! ### modLever -/

@[simp] theorem modLever_pending (k : Nat) (f : Lever → Lever) :
    (s.modLever k f).pending = s.pending := rfl
@[simp] theorem modLever_now (k : Nat) (f : Lever → Lever) :
    (s.modLever k f).now = s.now := rfl
@[simp] theorem modLever_freeCount (k : Nat) (f : Lever → Lever) :
    (s.modLever k f).freeCount = s.freeCount := rfl
@[simp] theorem modLever_mode (k : Nat) (f : Lever → Lever) :
    (s.modLever k f).mode = s.mode := rfl
@[simp] theorem modLever_start (k : Nat) (f : Lever → Lever) :
    (s.modLever k f).start = s.start := rfl
@[simp] theorem modLever_store (k : Nat) (f : Lever → Lever) :
    (s.modLever k f).store = s.store := rfl
@[simp] theorem modLever_circuits (k : Nat) (f : Lever → Lever) :
    (s.modLever k f).circuits = s.circuits := rfl
@[simp] theorem modLever_converter (k : Nat) (f : Lever → Lever) :
    (s.modLever k f).converter = s.converter := rfl
@[simp] theorem modLever_scan (k : Nat) (f : Lever → Lever) :
    (s.modLever k f).scan = s.scan := rfl
@[simp] theorem modLever_polled (k : Nat) (f : Lever → Lever) :
    (s.modLever k f).polled = s.polled := rfl
@[simp] theorem modLever_boards (k : Nat) (f : Lever → Lever) :
    (s.modLever k f).boards = s.boards := rfl
@[simp] theorem modLever_levers (k : Nat) (f : Lever → Lever) :
    (s.modLever k f).levers = modAt s.levers {} k f := rfl
@[simp] theorem modLever_instruments (k : Nat) (f : Lever → Lever) :
    (s.modLever k f).instruments = s.instruments := rfl
@[simp] theorem modLever_holds (k : Nat) (f : Lever → Lever) :
    (s.modLever k f).holds = s.holds := rfl
@[simp] theorem modLever_timers (k : Nat) (f : Lever → Lever) :
    (s.modLever k f).timers = s.timers := rfl
@[simp] theorem modLever_bells (k : Nat) (f : Lever → Lever) :
    (s.modLever k f).bells = s.bells := rfl
@[simp] theorem modLever_inbound (k : Nat) (f : Lever → Lever) :
    (s.modLever k f).inbound = s.inbound := rfl
@[simp] theorem modLever_outbound (k : Nat) (f : Lever → Lever) :
    (s.modLever k f).outbound = s.outbound := rfl
@[simp] theorem modLever_links (k : Nat) (f : Lever → Lever) :
    (s.modLever k f).links = s.links := rfl
@[simp] theorem modLever_register (k : Nat) (f : Lever → Lever) :
    (s.modLever k f).register = s.register := rfl
@[simp] theorem modLever_tickAt (k : Nat) (f : Lever → Lever) :
    (s.modLever k f).tickAt = s.tickAt := rfl
@[simp] theorem modLever_faults (k : Nat) (f : Lever → Lever) :
    (s.modLever k f).faults = s.faults := rfl
@[simp] theorem modLever_host (k : Nat) (f : Lever → Lever) :
    (s.modLever k f).host = s.host := rfl
@[simp] theorem modLever_circuit (k j : Nat) (f : Lever → Lever) :
    (s.modLever k f).circuit j = s.circuit j := rfl
@[simp] theorem modLever_board (k j : Nat) (f : Lever → Lever) :
    (s.modLever k f).board j = s.board j := rfl
theorem lever_modLever (k j : Nat) (f : Lever → Lever) :
    (s.modLever k f).lever j = if j = k ∧ within k s.levers.length = true then f (s.lever k) else s.lever j :=
  nth_modAt s.levers {} k j f
@[simp] theorem lever_modLever_same (k : Nat) (f : Lever → Lever) (hk : within k s.levers.length = true) :
    (s.modLever k f).lever k = f (s.lever k) := by rw [lever_modLever, if_pos ⟨rfl, hk⟩]
theorem lever_modLever_other (k j : Nat) (f : Lever → Lever) (hj : j ≠ k) :
    (s.modLever k f).lever j = s.lever j := by rw [lever_modLever, if_neg (fun h => hj h.1)]
@[simp] theorem modLever_instrument (k j : Nat) (f : Lever → Lever) :
    (s.modLever k f).instrument j = s.instrument j := rfl
@[simp] theorem modLever_hold (k j : Nat) (f : Lever → Lever) :
    (s.modLever k f).hold j = s.hold j := rfl
@[simp] theorem modLever_timer (k j : Nat) (f : Lever → Lever) :
    (s.modLever k f).timer j = s.timer j := rfl
@[simp] theorem modLever_bell (k j : Nat) (f : Lever → Lever) :
    (s.modLever k f).bell j = s.bell j := rfl
@[simp] theorem modLever_inb (k j : Nat) (f : Lever → Lever) :
    (s.modLever k f).inb j = s.inb j := rfl
@[simp] theorem modLever_outb (k j : Nat) (f : Lever → Lever) :
    (s.modLever k f).outb j = s.outb j := rfl
@[simp] theorem modLever_link (k j : Nat) (f : Lever → Lever) :
    (s.modLever k f).link j = s.link j := rfl

/-! ### modInstrument -/

@[simp] theorem modInstrument_pending (k : Nat) (f : Instrument → Instrument) :
    (s.modInstrument k f).pending = s.pending := rfl
@[simp] theorem modInstrument_now (k : Nat) (f : Instrument → Instrument) :
    (s.modInstrument k f).now = s.now := rfl
@[simp] theorem modInstrument_freeCount (k : Nat) (f : Instrument → Instrument) :
    (s.modInstrument k f).freeCount = s.freeCount := rfl
@[simp] theorem modInstrument_mode (k : Nat) (f : Instrument → Instrument) :
    (s.modInstrument k f).mode = s.mode := rfl
@[simp] theorem modInstrument_start (k : Nat) (f : Instrument → Instrument) :
    (s.modInstrument k f).start = s.start := rfl
@[simp] theorem modInstrument_store (k : Nat) (f : Instrument → Instrument) :
    (s.modInstrument k f).store = s.store := rfl
@[simp] theorem modInstrument_circuits (k : Nat) (f : Instrument → Instrument) :
    (s.modInstrument k f).circuits = s.circuits := rfl
@[simp] theorem modInstrument_converter (k : Nat) (f : Instrument → Instrument) :
    (s.modInstrument k f).converter = s.converter := rfl
@[simp] theorem modInstrument_scan (k : Nat) (f : Instrument → Instrument) :
    (s.modInstrument k f).scan = s.scan := rfl
@[simp] theorem modInstrument_polled (k : Nat) (f : Instrument → Instrument) :
    (s.modInstrument k f).polled = s.polled := rfl
@[simp] theorem modInstrument_boards (k : Nat) (f : Instrument → Instrument) :
    (s.modInstrument k f).boards = s.boards := rfl
@[simp] theorem modInstrument_levers (k : Nat) (f : Instrument → Instrument) :
    (s.modInstrument k f).levers = s.levers := rfl
@[simp] theorem modInstrument_instruments (k : Nat) (f : Instrument → Instrument) :
    (s.modInstrument k f).instruments = modAt s.instruments {} k f := rfl
@[simp] theorem modInstrument_holds (k : Nat) (f : Instrument → Instrument) :
    (s.modInstrument k f).holds = s.holds := rfl
@[simp] theorem modInstrument_timers (k : Nat) (f : Instrument → Instrument) :
    (s.modInstrument k f).timers = s.timers := rfl
@[simp] theorem modInstrument_bells (k : Nat) (f : Instrument → Instrument) :
    (s.modInstrument k f).bells = s.bells := rfl
@[simp] theorem modInstrument_inbound (k : Nat) (f : Instrument → Instrument) :
    (s.modInstrument k f).inbound = s.inbound := rfl
@[simp] theorem modInstrument_outbound (k : Nat) (f : Instrument → Instrument) :
    (s.modInstrument k f).outbound = s.outbound := rfl
@[simp] theorem modInstrument_links (k : Nat) (f : Instrument → Instrument) :
    (s.modInstrument k f).links = s.links := rfl
@[simp] theorem modInstrument_register (k : Nat) (f : Instrument → Instrument) :
    (s.modInstrument k f).register = s.register := rfl
@[simp] theorem modInstrument_tickAt (k : Nat) (f : Instrument → Instrument) :
    (s.modInstrument k f).tickAt = s.tickAt := rfl
@[simp] theorem modInstrument_faults (k : Nat) (f : Instrument → Instrument) :
    (s.modInstrument k f).faults = s.faults := rfl
@[simp] theorem modInstrument_host (k : Nat) (f : Instrument → Instrument) :
    (s.modInstrument k f).host = s.host := rfl
@[simp] theorem modInstrument_circuit (k j : Nat) (f : Instrument → Instrument) :
    (s.modInstrument k f).circuit j = s.circuit j := rfl
@[simp] theorem modInstrument_board (k j : Nat) (f : Instrument → Instrument) :
    (s.modInstrument k f).board j = s.board j := rfl
@[simp] theorem modInstrument_lever (k j : Nat) (f : Instrument → Instrument) :
    (s.modInstrument k f).lever j = s.lever j := rfl
theorem instrument_modInstrument (k j : Nat) (f : Instrument → Instrument) :
    (s.modInstrument k f).instrument j = if j = k ∧ within k s.instruments.length = true then f (s.instrument k) else s.instrument j :=
  nth_modAt s.instruments {} k j f
@[simp] theorem instrument_modInstrument_same (k : Nat) (f : Instrument → Instrument) (hk : within k s.instruments.length = true) :
    (s.modInstrument k f).instrument k = f (s.instrument k) := by rw [instrument_modInstrument, if_pos ⟨rfl, hk⟩]
theorem instrument_modInstrument_other (k j : Nat) (f : Instrument → Instrument) (hj : j ≠ k) :
    (s.modInstrument k f).instrument j = s.instrument j := by rw [instrument_modInstrument, if_neg (fun h => hj h.1)]
@[simp] theorem modInstrument_hold (k j : Nat) (f : Instrument → Instrument) :
    (s.modInstrument k f).hold j = s.hold j := rfl
@[simp] theorem modInstrument_timer (k j : Nat) (f : Instrument → Instrument) :
    (s.modInstrument k f).timer j = s.timer j := rfl
@[simp] theorem modInstrument_bell (k j : Nat) (f : Instrument → Instrument) :
    (s.modInstrument k f).bell j = s.bell j := rfl
@[simp] theorem modInstrument_inb (k j : Nat) (f : Instrument → Instrument) :
    (s.modInstrument k f).inb j = s.inb j := rfl
@[simp] theorem modInstrument_outb (k j : Nat) (f : Instrument → Instrument) :
    (s.modInstrument k f).outb j = s.outb j := rfl
@[simp] theorem modInstrument_link (k j : Nat) (f : Instrument → Instrument) :
    (s.modInstrument k f).link j = s.link j := rfl

/-! ### modHold -/

@[simp] theorem modHold_pending (k : Nat) (f : Hold → Hold) :
    (s.modHold k f).pending = s.pending := rfl
@[simp] theorem modHold_now (k : Nat) (f : Hold → Hold) :
    (s.modHold k f).now = s.now := rfl
@[simp] theorem modHold_freeCount (k : Nat) (f : Hold → Hold) :
    (s.modHold k f).freeCount = s.freeCount := rfl
@[simp] theorem modHold_mode (k : Nat) (f : Hold → Hold) :
    (s.modHold k f).mode = s.mode := rfl
@[simp] theorem modHold_start (k : Nat) (f : Hold → Hold) :
    (s.modHold k f).start = s.start := rfl
@[simp] theorem modHold_store (k : Nat) (f : Hold → Hold) :
    (s.modHold k f).store = s.store := rfl
@[simp] theorem modHold_circuits (k : Nat) (f : Hold → Hold) :
    (s.modHold k f).circuits = s.circuits := rfl
@[simp] theorem modHold_converter (k : Nat) (f : Hold → Hold) :
    (s.modHold k f).converter = s.converter := rfl
@[simp] theorem modHold_scan (k : Nat) (f : Hold → Hold) :
    (s.modHold k f).scan = s.scan := rfl
@[simp] theorem modHold_polled (k : Nat) (f : Hold → Hold) :
    (s.modHold k f).polled = s.polled := rfl
@[simp] theorem modHold_boards (k : Nat) (f : Hold → Hold) :
    (s.modHold k f).boards = s.boards := rfl
@[simp] theorem modHold_levers (k : Nat) (f : Hold → Hold) :
    (s.modHold k f).levers = s.levers := rfl
@[simp] theorem modHold_instruments (k : Nat) (f : Hold → Hold) :
    (s.modHold k f).instruments = s.instruments := rfl
@[simp] theorem modHold_holds (k : Nat) (f : Hold → Hold) :
    (s.modHold k f).holds = modAt s.holds {} k f := rfl
@[simp] theorem modHold_timers (k : Nat) (f : Hold → Hold) :
    (s.modHold k f).timers = s.timers := rfl
@[simp] theorem modHold_bells (k : Nat) (f : Hold → Hold) :
    (s.modHold k f).bells = s.bells := rfl
@[simp] theorem modHold_inbound (k : Nat) (f : Hold → Hold) :
    (s.modHold k f).inbound = s.inbound := rfl
@[simp] theorem modHold_outbound (k : Nat) (f : Hold → Hold) :
    (s.modHold k f).outbound = s.outbound := rfl
@[simp] theorem modHold_links (k : Nat) (f : Hold → Hold) :
    (s.modHold k f).links = s.links := rfl
@[simp] theorem modHold_register (k : Nat) (f : Hold → Hold) :
    (s.modHold k f).register = s.register := rfl
@[simp] theorem modHold_tickAt (k : Nat) (f : Hold → Hold) :
    (s.modHold k f).tickAt = s.tickAt := rfl
@[simp] theorem modHold_faults (k : Nat) (f : Hold → Hold) :
    (s.modHold k f).faults = s.faults := rfl
@[simp] theorem modHold_host (k : Nat) (f : Hold → Hold) :
    (s.modHold k f).host = s.host := rfl
@[simp] theorem modHold_circuit (k j : Nat) (f : Hold → Hold) :
    (s.modHold k f).circuit j = s.circuit j := rfl
@[simp] theorem modHold_board (k j : Nat) (f : Hold → Hold) :
    (s.modHold k f).board j = s.board j := rfl
@[simp] theorem modHold_lever (k j : Nat) (f : Hold → Hold) :
    (s.modHold k f).lever j = s.lever j := rfl
@[simp] theorem modHold_instrument (k j : Nat) (f : Hold → Hold) :
    (s.modHold k f).instrument j = s.instrument j := rfl
theorem hold_modHold (k j : Nat) (f : Hold → Hold) :
    (s.modHold k f).hold j = if j = k ∧ within k s.holds.length = true then f (s.hold k) else s.hold j :=
  nth_modAt s.holds {} k j f
@[simp] theorem hold_modHold_same (k : Nat) (f : Hold → Hold) (hk : within k s.holds.length = true) :
    (s.modHold k f).hold k = f (s.hold k) := by rw [hold_modHold, if_pos ⟨rfl, hk⟩]
theorem hold_modHold_other (k j : Nat) (f : Hold → Hold) (hj : j ≠ k) :
    (s.modHold k f).hold j = s.hold j := by rw [hold_modHold, if_neg (fun h => hj h.1)]
@[simp] theorem modHold_timer (k j : Nat) (f : Hold → Hold) :
    (s.modHold k f).timer j = s.timer j := rfl
@[simp] theorem modHold_bell (k j : Nat) (f : Hold → Hold) :
    (s.modHold k f).bell j = s.bell j := rfl
@[simp] theorem modHold_inb (k j : Nat) (f : Hold → Hold) :
    (s.modHold k f).inb j = s.inb j := rfl
@[simp] theorem modHold_outb (k j : Nat) (f : Hold → Hold) :
    (s.modHold k f).outb j = s.outb j := rfl
@[simp] theorem modHold_link (k j : Nat) (f : Hold → Hold) :
    (s.modHold k f).link j = s.link j := rfl

/-! ### modTimer -/

@[simp] theorem modTimer_pending (k : Nat) (f : Timer → Timer) :
    (s.modTimer k f).pending = s.pending := rfl
@[simp] theorem modTimer_now (k : Nat) (f : Timer → Timer) :
    (s.modTimer k f).now = s.now := rfl
@[simp] theorem modTimer_freeCount (k : Nat) (f : Timer → Timer) :
    (s.modTimer k f).freeCount = s.freeCount := rfl
@[simp] theorem modTimer_mode (k : Nat) (f : Timer → Timer) :
    (s.modTimer k f).mode = s.mode := rfl
@[simp] theorem modTimer_start (k : Nat) (f : Timer → Timer) :
    (s.modTimer k f).start = s.start := rfl
@[simp] theorem modTimer_store (k : Nat) (f : Timer → Timer) :
    (s.modTimer k f).store = s.store := rfl
@[simp] theorem modTimer_circuits (k : Nat) (f : Timer → Timer) :
    (s.modTimer k f).circuits = s.circuits := rfl
@[simp] theorem modTimer_converter (k : Nat) (f : Timer → Timer) :
    (s.modTimer k f).converter = s.converter := rfl
@[simp] theorem modTimer_scan (k : Nat) (f : Timer → Timer) :
    (s.modTimer k f).scan = s.scan := rfl
@[simp] theorem modTimer_polled (k : Nat) (f : Timer → Timer) :
    (s.modTimer k f).polled = s.polled := rfl
@[simp] theorem modTimer_boards (k : Nat) (f : Timer → Timer) :
    (s.modTimer k f).boards = s.boards := rfl
@[simp] theorem modTimer_levers (k : Nat) (f : Timer → Timer) :
    (s.modTimer k f).levers = s.levers := rfl
@[simp] theorem modTimer_instruments (k : Nat) (f : Timer → Timer) :
    (s.modTimer k f).instruments = s.instruments := rfl
@[simp] theorem modTimer_holds (k : Nat) (f : Timer → Timer) :
    (s.modTimer k f).holds = s.holds := rfl
@[simp] theorem modTimer_timers (k : Nat) (f : Timer → Timer) :
    (s.modTimer k f).timers = modAt s.timers {} k f := rfl
@[simp] theorem modTimer_bells (k : Nat) (f : Timer → Timer) :
    (s.modTimer k f).bells = s.bells := rfl
@[simp] theorem modTimer_inbound (k : Nat) (f : Timer → Timer) :
    (s.modTimer k f).inbound = s.inbound := rfl
@[simp] theorem modTimer_outbound (k : Nat) (f : Timer → Timer) :
    (s.modTimer k f).outbound = s.outbound := rfl
@[simp] theorem modTimer_links (k : Nat) (f : Timer → Timer) :
    (s.modTimer k f).links = s.links := rfl
@[simp] theorem modTimer_register (k : Nat) (f : Timer → Timer) :
    (s.modTimer k f).register = s.register := rfl
@[simp] theorem modTimer_tickAt (k : Nat) (f : Timer → Timer) :
    (s.modTimer k f).tickAt = s.tickAt := rfl
@[simp] theorem modTimer_faults (k : Nat) (f : Timer → Timer) :
    (s.modTimer k f).faults = s.faults := rfl
@[simp] theorem modTimer_host (k : Nat) (f : Timer → Timer) :
    (s.modTimer k f).host = s.host := rfl
@[simp] theorem modTimer_circuit (k j : Nat) (f : Timer → Timer) :
    (s.modTimer k f).circuit j = s.circuit j := rfl
@[simp] theorem modTimer_board (k j : Nat) (f : Timer → Timer) :
    (s.modTimer k f).board j = s.board j := rfl
@[simp] theorem modTimer_lever (k j : Nat) (f : Timer → Timer) :
    (s.modTimer k f).lever j = s.lever j := rfl
@[simp] theorem modTimer_instrument (k j : Nat) (f : Timer → Timer) :
    (s.modTimer k f).instrument j = s.instrument j := rfl
@[simp] theorem modTimer_hold (k j : Nat) (f : Timer → Timer) :
    (s.modTimer k f).hold j = s.hold j := rfl
theorem timer_modTimer (k j : Nat) (f : Timer → Timer) :
    (s.modTimer k f).timer j = if j = k ∧ within k s.timers.length = true then f (s.timer k) else s.timer j :=
  nth_modAt s.timers {} k j f
@[simp] theorem timer_modTimer_same (k : Nat) (f : Timer → Timer) (hk : within k s.timers.length = true) :
    (s.modTimer k f).timer k = f (s.timer k) := by rw [timer_modTimer, if_pos ⟨rfl, hk⟩]
theorem timer_modTimer_other (k j : Nat) (f : Timer → Timer) (hj : j ≠ k) :
    (s.modTimer k f).timer j = s.timer j := by rw [timer_modTimer, if_neg (fun h => hj h.1)]
@[simp] theorem modTimer_bell (k j : Nat) (f : Timer → Timer) :
    (s.modTimer k f).bell j = s.bell j := rfl
@[simp] theorem modTimer_inb (k j : Nat) (f : Timer → Timer) :
    (s.modTimer k f).inb j = s.inb j := rfl
@[simp] theorem modTimer_outb (k j : Nat) (f : Timer → Timer) :
    (s.modTimer k f).outb j = s.outb j := rfl
@[simp] theorem modTimer_link (k j : Nat) (f : Timer → Timer) :
    (s.modTimer k f).link j = s.link j := rfl

/-! ### modBell -/

@[simp] theorem modBell_pending (k : Nat) (f : Bell → Bell) :
    (s.modBell k f).pending = s.pending := rfl
@[simp] theorem modBell_now (k : Nat) (f : Bell → Bell) :
    (s.modBell k f).now = s.now := rfl
@[simp] theorem modBell_freeCount (k : Nat) (f : Bell → Bell) :
    (s.modBell k f).freeCount = s.freeCount := rfl
@[simp] theorem modBell_mode (k : Nat) (f : Bell → Bell) :
    (s.modBell k f).mode = s.mode := rfl
@[simp] theorem modBell_start (k : Nat) (f : Bell → Bell) :
    (s.modBell k f).start = s.start := rfl
@[simp] theorem modBell_store (k : Nat) (f : Bell → Bell) :
    (s.modBell k f).store = s.store := rfl
@[simp] theorem modBell_circuits (k : Nat) (f : Bell → Bell) :
    (s.modBell k f).circuits = s.circuits := rfl
@[simp] theorem modBell_converter (k : Nat) (f : Bell → Bell) :
    (s.modBell k f).converter = s.converter := rfl
@[simp] theorem modBell_scan (k : Nat) (f : Bell → Bell) :
    (s.modBell k f).scan = s.scan := rfl
@[simp] theorem modBell_polled (k : Nat) (f : Bell → Bell) :
    (s.modBell k f).polled = s.polled := rfl
@[simp] theorem modBell_boards (k : Nat) (f : Bell → Bell) :
    (s.modBell k f).boards = s.boards := rfl
@[simp] theorem modBell_levers (k : Nat) (f : Bell → Bell) :
    (s.modBell k f).levers = s.levers := rfl
@[simp] theorem modBell_instruments (k : Nat) (f : Bell → Bell) :
    (s.modBell k f).instruments = s.instruments := rfl
@[simp] theorem modBell_holds (k : Nat) (f : Bell → Bell) :
    (s.modBell k f).holds = s.holds := rfl
@[simp] theorem modBell_timers (k : Nat) (f : Bell → Bell) :
    (s.modBell k f).timers = s.timers := rfl
@[simp] theorem modBell_bells (k : Nat) (f : Bell → Bell) :
    (s.modBell k f).bells = modAt s.bells {} k f := rfl
@[simp] theorem modBell_inbound (k : Nat) (f : Bell → Bell) :
    (s.modBell k f).inbound = s.inbound := rfl
@[simp] theorem modBell_outbound (k : Nat) (f : Bell → Bell) :
    (s.modBell k f).outbound = s.outbound := rfl
@[simp] theorem modBell_links (k : Nat) (f : Bell → Bell) :
    (s.modBell k f).links = s.links := rfl
@[simp] theorem modBell_register (k : Nat) (f : Bell → Bell) :
    (s.modBell k f).register = s.register := rfl
@[simp] theorem modBell_tickAt (k : Nat) (f : Bell → Bell) :
    (s.modBell k f).tickAt = s.tickAt := rfl
@[simp] theorem modBell_faults (k : Nat) (f : Bell → Bell) :
    (s.modBell k f).faults = s.faults := rfl
@[simp] theorem modBell_host (k : Nat) (f : Bell → Bell) :
    (s.modBell k f).host = s.host := rfl
@[simp] theorem modBell_circuit (k j : Nat) (f : Bell → Bell) :
    (s.modBell k f).circuit j = s.circuit j := rfl
@[simp] theorem modBell_board (k j : Nat) (f : Bell → Bell) :
    (s.modBell k f).board j = s.board j := rfl
@[simp] theorem modBell_lever (k j : Nat) (f : Bell → Bell) :
    (s.modBell k f).lever j = s.lever j := rfl
@[simp] theorem modBell_instrument (k j : Nat) (f : Bell → Bell) :
    (s.modBell k f).instrument j = s.instrument j := rfl
@[simp] theorem modBell_hold (k j : Nat) (f : Bell → Bell) :
    (s.modBell k f).hold j = s.hold j := rfl
@[simp] theorem modBell_timer (k j : Nat) (f : Bell → Bell) :
    (s.modBell k f).timer j = s.timer j := rfl
theorem bell_modBell (k j : Nat) (f : Bell → Bell) :
    (s.modBell k f).bell j = if j = k ∧ within k s.bells.length = true then f (s.bell k) else s.bell j :=
  nth_modAt s.bells {} k j f
@[simp] theorem bell_modBell_same (k : Nat) (f : Bell → Bell) (hk : within k s.bells.length = true) :
    (s.modBell k f).bell k = f (s.bell k) := by rw [bell_modBell, if_pos ⟨rfl, hk⟩]
theorem bell_modBell_other (k j : Nat) (f : Bell → Bell) (hj : j ≠ k) :
    (s.modBell k f).bell j = s.bell j := by rw [bell_modBell, if_neg (fun h => hj h.1)]
@[simp] theorem modBell_inb (k j : Nat) (f : Bell → Bell) :
    (s.modBell k f).inb j = s.inb j := rfl
@[simp] theorem modBell_outb (k j : Nat) (f : Bell → Bell) :
    (s.modBell k f).outb j = s.outb j := rfl
@[simp] theorem modBell_link (k j : Nat) (f : Bell → Bell) :
    (s.modBell k f).link j = s.link j := rfl

/-! ### modInb -/

@[simp] theorem modInb_pending (k : Nat) (f : Inbound → Inbound) :
    (s.modInb k f).pending = s.pending := rfl
@[simp] theorem modInb_now (k : Nat) (f : Inbound → Inbound) :
    (s.modInb k f).now = s.now := rfl
@[simp] theorem modInb_freeCount (k : Nat) (f : Inbound → Inbound) :
    (s.modInb k f).freeCount = s.freeCount := rfl
@[simp] theorem modInb_mode (k : Nat) (f : Inbound → Inbound) :
    (s.modInb k f).mode = s.mode := rfl
@[simp] theorem modInb_start (k : Nat) (f : Inbound → Inbound) :
    (s.modInb k f).start = s.start := rfl
@[simp] theorem modInb_store (k : Nat) (f : Inbound → Inbound) :
    (s.modInb k f).store = s.store := rfl
@[simp] theorem modInb_circuits (k : Nat) (f : Inbound → Inbound) :
    (s.modInb k f).circuits = s.circuits := rfl
@[simp] theorem modInb_converter (k : Nat) (f : Inbound → Inbound) :
    (s.modInb k f).converter = s.converter := rfl
@[simp] theorem modInb_scan (k : Nat) (f : Inbound → Inbound) :
    (s.modInb k f).scan = s.scan := rfl
@[simp] theorem modInb_polled (k : Nat) (f : Inbound → Inbound) :
    (s.modInb k f).polled = s.polled := rfl
@[simp] theorem modInb_boards (k : Nat) (f : Inbound → Inbound) :
    (s.modInb k f).boards = s.boards := rfl
@[simp] theorem modInb_levers (k : Nat) (f : Inbound → Inbound) :
    (s.modInb k f).levers = s.levers := rfl
@[simp] theorem modInb_instruments (k : Nat) (f : Inbound → Inbound) :
    (s.modInb k f).instruments = s.instruments := rfl
@[simp] theorem modInb_holds (k : Nat) (f : Inbound → Inbound) :
    (s.modInb k f).holds = s.holds := rfl
@[simp] theorem modInb_timers (k : Nat) (f : Inbound → Inbound) :
    (s.modInb k f).timers = s.timers := rfl
@[simp] theorem modInb_bells (k : Nat) (f : Inbound → Inbound) :
    (s.modInb k f).bells = s.bells := rfl
@[simp] theorem modInb_inbound (k : Nat) (f : Inbound → Inbound) :
    (s.modInb k f).inbound = modAt s.inbound {} k f := rfl
@[simp] theorem modInb_outbound (k : Nat) (f : Inbound → Inbound) :
    (s.modInb k f).outbound = s.outbound := rfl
@[simp] theorem modInb_links (k : Nat) (f : Inbound → Inbound) :
    (s.modInb k f).links = s.links := rfl
@[simp] theorem modInb_register (k : Nat) (f : Inbound → Inbound) :
    (s.modInb k f).register = s.register := rfl
@[simp] theorem modInb_tickAt (k : Nat) (f : Inbound → Inbound) :
    (s.modInb k f).tickAt = s.tickAt := rfl
@[simp] theorem modInb_faults (k : Nat) (f : Inbound → Inbound) :
    (s.modInb k f).faults = s.faults := rfl
@[simp] theorem modInb_host (k : Nat) (f : Inbound → Inbound) :
    (s.modInb k f).host = s.host := rfl
@[simp] theorem modInb_circuit (k j : Nat) (f : Inbound → Inbound) :
    (s.modInb k f).circuit j = s.circuit j := rfl
@[simp] theorem modInb_board (k j : Nat) (f : Inbound → Inbound) :
    (s.modInb k f).board j = s.board j := rfl
@[simp] theorem modInb_lever (k j : Nat) (f : Inbound → Inbound) :
    (s.modInb k f).lever j = s.lever j := rfl
@[simp] theorem modInb_instrument (k j : Nat) (f : Inbound → Inbound) :
    (s.modInb k f).instrument j = s.instrument j := rfl
@[simp] theorem modInb_hold (k j : Nat) (f : Inbound → Inbound) :
    (s.modInb k f).hold j = s.hold j := rfl
@[simp] theorem modInb_timer (k j : Nat) (f : Inbound → Inbound) :
    (s.modInb k f).timer j = s.timer j := rfl
@[simp] theorem modInb_bell (k j : Nat) (f : Inbound → Inbound) :
    (s.modInb k f).bell j = s.bell j := rfl
theorem inb_modInb (k j : Nat) (f : Inbound → Inbound) :
    (s.modInb k f).inb j = if j = k ∧ within k s.inbound.length = true then f (s.inb k) else s.inb j :=
  nth_modAt s.inbound {} k j f
@[simp] theorem inb_modInb_same (k : Nat) (f : Inbound → Inbound) (hk : within k s.inbound.length = true) :
    (s.modInb k f).inb k = f (s.inb k) := by rw [inb_modInb, if_pos ⟨rfl, hk⟩]
theorem inb_modInb_other (k j : Nat) (f : Inbound → Inbound) (hj : j ≠ k) :
    (s.modInb k f).inb j = s.inb j := by rw [inb_modInb, if_neg (fun h => hj h.1)]
@[simp] theorem modInb_outb (k j : Nat) (f : Inbound → Inbound) :
    (s.modInb k f).outb j = s.outb j := rfl
@[simp] theorem modInb_link (k j : Nat) (f : Inbound → Inbound) :
    (s.modInb k f).link j = s.link j := rfl

/-! ### modOutb -/

@[simp] theorem modOutb_pending (k : Nat) (f : Outbound → Outbound) :
    (s.modOutb k f).pending = s.pending := rfl
@[simp] theorem modOutb_now (k : Nat) (f : Outbound → Outbound) :
    (s.modOutb k f).now = s.now := rfl
@[simp] theorem modOutb_freeCount (k : Nat) (f : Outbound → Outbound) :
    (s.modOutb k f).freeCount = s.freeCount := rfl
@[simp] theorem modOutb_mode (k : Nat) (f : Outbound → Outbound) :
    (s.modOutb k f).mode = s.mode := rfl
@[simp] theorem modOutb_start (k : Nat) (f : Outbound → Outbound) :
    (s.modOutb k f).start = s.start := rfl
@[simp] theorem modOutb_store (k : Nat) (f : Outbound → Outbound) :
    (s.modOutb k f).store = s.store := rfl
@[simp] theorem modOutb_circuits (k : Nat) (f : Outbound → Outbound) :
    (s.modOutb k f).circuits = s.circuits := rfl
@[simp] theorem modOutb_converter (k : Nat) (f : Outbound → Outbound) :
    (s.modOutb k f).converter = s.converter := rfl
@[simp] theorem modOutb_scan (k : Nat) (f : Outbound → Outbound) :
    (s.modOutb k f).scan = s.scan := rfl
@[simp] theorem modOutb_polled (k : Nat) (f : Outbound → Outbound) :
    (s.modOutb k f).polled = s.polled := rfl
@[simp] theorem modOutb_boards (k : Nat) (f : Outbound → Outbound) :
    (s.modOutb k f).boards = s.boards := rfl
@[simp] theorem modOutb_levers (k : Nat) (f : Outbound → Outbound) :
    (s.modOutb k f).levers = s.levers := rfl
@[simp] theorem modOutb_instruments (k : Nat) (f : Outbound → Outbound) :
    (s.modOutb k f).instruments = s.instruments := rfl
@[simp] theorem modOutb_holds (k : Nat) (f : Outbound → Outbound) :
    (s.modOutb k f).holds = s.holds := rfl
@[simp] theorem modOutb_timers (k : Nat) (f : Outbound → Outbound) :
    (s.modOutb k f).timers = s.timers := rfl
@[simp] theorem modOutb_bells (k : Nat) (f : Outbound → Outbound) :
    (s.modOutb k f).bells = s.bells := rfl
@[simp] theorem modOutb_inbound (k : Nat) (f : Outbound → Outbound) :
    (s.modOutb k f).inbound = s.inbound := rfl
@[simp] theorem modOutb_outbound (k : Nat) (f : Outbound → Outbound) :
    (s.modOutb k f).outbound = modAt s.outbound {} k f := rfl
@[simp] theorem modOutb_links (k : Nat) (f : Outbound → Outbound) :
    (s.modOutb k f).links = s.links := rfl
@[simp] theorem modOutb_register (k : Nat) (f : Outbound → Outbound) :
    (s.modOutb k f).register = s.register := rfl
@[simp] theorem modOutb_tickAt (k : Nat) (f : Outbound → Outbound) :
    (s.modOutb k f).tickAt = s.tickAt := rfl
@[simp] theorem modOutb_faults (k : Nat) (f : Outbound → Outbound) :
    (s.modOutb k f).faults = s.faults := rfl
@[simp] theorem modOutb_host (k : Nat) (f : Outbound → Outbound) :
    (s.modOutb k f).host = s.host := rfl
@[simp] theorem modOutb_circuit (k j : Nat) (f : Outbound → Outbound) :
    (s.modOutb k f).circuit j = s.circuit j := rfl
@[simp] theorem modOutb_board (k j : Nat) (f : Outbound → Outbound) :
    (s.modOutb k f).board j = s.board j := rfl
@[simp] theorem modOutb_lever (k j : Nat) (f : Outbound → Outbound) :
    (s.modOutb k f).lever j = s.lever j := rfl
@[simp] theorem modOutb_instrument (k j : Nat) (f : Outbound → Outbound) :
    (s.modOutb k f).instrument j = s.instrument j := rfl
@[simp] theorem modOutb_hold (k j : Nat) (f : Outbound → Outbound) :
    (s.modOutb k f).hold j = s.hold j := rfl
@[simp] theorem modOutb_timer (k j : Nat) (f : Outbound → Outbound) :
    (s.modOutb k f).timer j = s.timer j := rfl
@[simp] theorem modOutb_bell (k j : Nat) (f : Outbound → Outbound) :
    (s.modOutb k f).bell j = s.bell j := rfl
@[simp] theorem modOutb_inb (k j : Nat) (f : Outbound → Outbound) :
    (s.modOutb k f).inb j = s.inb j := rfl
theorem outb_modOutb (k j : Nat) (f : Outbound → Outbound) :
    (s.modOutb k f).outb j = if j = k ∧ within k s.outbound.length = true then f (s.outb k) else s.outb j :=
  nth_modAt s.outbound {} k j f
@[simp] theorem outb_modOutb_same (k : Nat) (f : Outbound → Outbound) (hk : within k s.outbound.length = true) :
    (s.modOutb k f).outb k = f (s.outb k) := by rw [outb_modOutb, if_pos ⟨rfl, hk⟩]
theorem outb_modOutb_other (k j : Nat) (f : Outbound → Outbound) (hj : j ≠ k) :
    (s.modOutb k f).outb j = s.outb j := by rw [outb_modOutb, if_neg (fun h => hj h.1)]
@[simp] theorem modOutb_link (k j : Nat) (f : Outbound → Outbound) :
    (s.modOutb k f).link j = s.link j := rfl

/-! ### modLink -/

@[simp] theorem modLink_pending (k : Nat) (f : Link → Link) :
    (s.modLink k f).pending = s.pending := rfl
@[simp] theorem modLink_now (k : Nat) (f : Link → Link) :
    (s.modLink k f).now = s.now := rfl
@[simp] theorem modLink_freeCount (k : Nat) (f : Link → Link) :
    (s.modLink k f).freeCount = s.freeCount := rfl
@[simp] theorem modLink_mode (k : Nat) (f : Link → Link) :
    (s.modLink k f).mode = s.mode := rfl
@[simp] theorem modLink_start (k : Nat) (f : Link → Link) :
    (s.modLink k f).start = s.start := rfl
@[simp] theorem modLink_store (k : Nat) (f : Link → Link) :
    (s.modLink k f).store = s.store := rfl
@[simp] theorem modLink_circuits (k : Nat) (f : Link → Link) :
    (s.modLink k f).circuits = s.circuits := rfl
@[simp] theorem modLink_converter (k : Nat) (f : Link → Link) :
    (s.modLink k f).converter = s.converter := rfl
@[simp] theorem modLink_scan (k : Nat) (f : Link → Link) :
    (s.modLink k f).scan = s.scan := rfl
@[simp] theorem modLink_polled (k : Nat) (f : Link → Link) :
    (s.modLink k f).polled = s.polled := rfl
@[simp] theorem modLink_boards (k : Nat) (f : Link → Link) :
    (s.modLink k f).boards = s.boards := rfl
@[simp] theorem modLink_levers (k : Nat) (f : Link → Link) :
    (s.modLink k f).levers = s.levers := rfl
@[simp] theorem modLink_instruments (k : Nat) (f : Link → Link) :
    (s.modLink k f).instruments = s.instruments := rfl
@[simp] theorem modLink_holds (k : Nat) (f : Link → Link) :
    (s.modLink k f).holds = s.holds := rfl
@[simp] theorem modLink_timers (k : Nat) (f : Link → Link) :
    (s.modLink k f).timers = s.timers := rfl
@[simp] theorem modLink_bells (k : Nat) (f : Link → Link) :
    (s.modLink k f).bells = s.bells := rfl
@[simp] theorem modLink_inbound (k : Nat) (f : Link → Link) :
    (s.modLink k f).inbound = s.inbound := rfl
@[simp] theorem modLink_outbound (k : Nat) (f : Link → Link) :
    (s.modLink k f).outbound = s.outbound := rfl
@[simp] theorem modLink_links (k : Nat) (f : Link → Link) :
    (s.modLink k f).links = modAt s.links {} k f := rfl
@[simp] theorem modLink_register (k : Nat) (f : Link → Link) :
    (s.modLink k f).register = s.register := rfl
@[simp] theorem modLink_tickAt (k : Nat) (f : Link → Link) :
    (s.modLink k f).tickAt = s.tickAt := rfl
@[simp] theorem modLink_faults (k : Nat) (f : Link → Link) :
    (s.modLink k f).faults = s.faults := rfl
@[simp] theorem modLink_host (k : Nat) (f : Link → Link) :
    (s.modLink k f).host = s.host := rfl
@[simp] theorem modLink_circuit (k j : Nat) (f : Link → Link) :
    (s.modLink k f).circuit j = s.circuit j := rfl
@[simp] theorem modLink_board (k j : Nat) (f : Link → Link) :
    (s.modLink k f).board j = s.board j := rfl
@[simp] theorem modLink_lever (k j : Nat) (f : Link → Link) :
    (s.modLink k f).lever j = s.lever j := rfl
@[simp] theorem modLink_instrument (k j : Nat) (f : Link → Link) :
    (s.modLink k f).instrument j = s.instrument j := rfl
@[simp] theorem modLink_hold (k j : Nat) (f : Link → Link) :
    (s.modLink k f).hold j = s.hold j := rfl
@[simp] theorem modLink_timer (k j : Nat) (f : Link → Link) :
    (s.modLink k f).timer j = s.timer j := rfl
@[simp] theorem modLink_bell (k j : Nat) (f : Link → Link) :
    (s.modLink k f).bell j = s.bell j := rfl
@[simp] theorem modLink_inb (k j : Nat) (f : Link → Link) :
    (s.modLink k f).inb j = s.inb j := rfl
@[simp] theorem modLink_outb (k j : Nat) (f : Link → Link) :
    (s.modLink k f).outb j = s.outb j := rfl
theorem link_modLink (k j : Nat) (f : Link → Link) :
    (s.modLink k f).link j = if j = k ∧ within k s.links.length = true then f (s.link k) else s.link j :=
  nth_modAt s.links {} k j f
@[simp] theorem link_modLink_same (k : Nat) (f : Link → Link) (hk : within k s.links.length = true) :
    (s.modLink k f).link k = f (s.link k) := by rw [link_modLink, if_pos ⟨rfl, hk⟩]
theorem link_modLink_other (k j : Nat) (f : Link → Link) (hj : j ≠ k) :
    (s.modLink k f).link j = s.link j := by rw [link_modLink, if_neg (fun h => hj h.1)]

/-! ### modConverter -/

@[simp] theorem modConverter_pending (f : Converter → Converter) : (s.modConverter f).pending = s.pending := rfl
@[simp] theorem modConverter_now (f : Converter → Converter) : (s.modConverter f).now = s.now := rfl
@[simp] theorem modConverter_freeCount (f : Converter → Converter) : (s.modConverter f).freeCount = s.freeCount := rfl
@[simp] theorem modConverter_mode (f : Converter → Converter) : (s.modConverter f).mode = s.mode := rfl
@[simp] theorem modConverter_start (f : Converter → Converter) : (s.modConverter f).start = s.start := rfl
@[simp] theorem modConverter_store (f : Converter → Converter) : (s.modConverter f).store = s.store := rfl
@[simp] theorem modConverter_circuits (f : Converter → Converter) : (s.modConverter f).circuits = s.circuits := rfl
@[simp] theorem modConverter_converter (f : Converter → Converter) : (s.modConverter f).converter = f s.converter := rfl
@[simp] theorem modConverter_scan (f : Converter → Converter) : (s.modConverter f).scan = s.scan := rfl
@[simp] theorem modConverter_polled (f : Converter → Converter) : (s.modConverter f).polled = s.polled := rfl
@[simp] theorem modConverter_boards (f : Converter → Converter) : (s.modConverter f).boards = s.boards := rfl
@[simp] theorem modConverter_levers (f : Converter → Converter) : (s.modConverter f).levers = s.levers := rfl
@[simp] theorem modConverter_instruments (f : Converter → Converter) : (s.modConverter f).instruments = s.instruments := rfl
@[simp] theorem modConverter_holds (f : Converter → Converter) : (s.modConverter f).holds = s.holds := rfl
@[simp] theorem modConverter_timers (f : Converter → Converter) : (s.modConverter f).timers = s.timers := rfl
@[simp] theorem modConverter_bells (f : Converter → Converter) : (s.modConverter f).bells = s.bells := rfl
@[simp] theorem modConverter_inbound (f : Converter → Converter) : (s.modConverter f).inbound = s.inbound := rfl
@[simp] theorem modConverter_outbound (f : Converter → Converter) : (s.modConverter f).outbound = s.outbound := rfl
@[simp] theorem modConverter_links (f : Converter → Converter) : (s.modConverter f).links = s.links := rfl
@[simp] theorem modConverter_register (f : Converter → Converter) : (s.modConverter f).register = s.register := rfl
@[simp] theorem modConverter_tickAt (f : Converter → Converter) : (s.modConverter f).tickAt = s.tickAt := rfl
@[simp] theorem modConverter_faults (f : Converter → Converter) : (s.modConverter f).faults = s.faults := rfl
@[simp] theorem modConverter_host (f : Converter → Converter) : (s.modConverter f).host = s.host := rfl
@[simp] theorem modConverter_circuit (j : Nat) (f : Converter → Converter) : (s.modConverter f).circuit j = s.circuit j := rfl
@[simp] theorem modConverter_board (j : Nat) (f : Converter → Converter) : (s.modConverter f).board j = s.board j := rfl
@[simp] theorem modConverter_lever (j : Nat) (f : Converter → Converter) : (s.modConverter f).lever j = s.lever j := rfl
@[simp] theorem modConverter_instrument (j : Nat) (f : Converter → Converter) : (s.modConverter f).instrument j = s.instrument j := rfl
@[simp] theorem modConverter_hold (j : Nat) (f : Converter → Converter) : (s.modConverter f).hold j = s.hold j := rfl
@[simp] theorem modConverter_timer (j : Nat) (f : Converter → Converter) : (s.modConverter f).timer j = s.timer j := rfl
@[simp] theorem modConverter_bell (j : Nat) (f : Converter → Converter) : (s.modConverter f).bell j = s.bell j := rfl
@[simp] theorem modConverter_inb (j : Nat) (f : Converter → Converter) : (s.modConverter f).inb j = s.inb j := rfl
@[simp] theorem modConverter_outb (j : Nat) (f : Converter → Converter) : (s.modConverter f).outb j = s.outb j := rfl
@[simp] theorem modConverter_link (j : Nat) (f : Converter → Converter) : (s.modConverter f).link j = s.link j := rfl

/-! ### modRegister -/

@[simp] theorem modRegister_pending (f : Register → Register) : (s.modRegister f).pending = s.pending := rfl
@[simp] theorem modRegister_now (f : Register → Register) : (s.modRegister f).now = s.now := rfl
@[simp] theorem modRegister_freeCount (f : Register → Register) : (s.modRegister f).freeCount = s.freeCount := rfl
@[simp] theorem modRegister_mode (f : Register → Register) : (s.modRegister f).mode = s.mode := rfl
@[simp] theorem modRegister_start (f : Register → Register) : (s.modRegister f).start = s.start := rfl
@[simp] theorem modRegister_store (f : Register → Register) : (s.modRegister f).store = s.store := rfl
@[simp] theorem modRegister_circuits (f : Register → Register) : (s.modRegister f).circuits = s.circuits := rfl
@[simp] theorem modRegister_converter (f : Register → Register) : (s.modRegister f).converter = s.converter := rfl
@[simp] theorem modRegister_scan (f : Register → Register) : (s.modRegister f).scan = s.scan := rfl
@[simp] theorem modRegister_polled (f : Register → Register) : (s.modRegister f).polled = s.polled := rfl
@[simp] theorem modRegister_boards (f : Register → Register) : (s.modRegister f).boards = s.boards := rfl
@[simp] theorem modRegister_levers (f : Register → Register) : (s.modRegister f).levers = s.levers := rfl
@[simp] theorem modRegister_instruments (f : Register → Register) : (s.modRegister f).instruments = s.instruments := rfl
@[simp] theorem modRegister_holds (f : Register → Register) : (s.modRegister f).holds = s.holds := rfl
@[simp] theorem modRegister_timers (f : Register → Register) : (s.modRegister f).timers = s.timers := rfl
@[simp] theorem modRegister_bells (f : Register → Register) : (s.modRegister f).bells = s.bells := rfl
@[simp] theorem modRegister_inbound (f : Register → Register) : (s.modRegister f).inbound = s.inbound := rfl
@[simp] theorem modRegister_outbound (f : Register → Register) : (s.modRegister f).outbound = s.outbound := rfl
@[simp] theorem modRegister_links (f : Register → Register) : (s.modRegister f).links = s.links := rfl
@[simp] theorem modRegister_register (f : Register → Register) : (s.modRegister f).register = f s.register := rfl
@[simp] theorem modRegister_tickAt (f : Register → Register) : (s.modRegister f).tickAt = s.tickAt := rfl
@[simp] theorem modRegister_faults (f : Register → Register) : (s.modRegister f).faults = s.faults := rfl
@[simp] theorem modRegister_host (f : Register → Register) : (s.modRegister f).host = s.host := rfl
@[simp] theorem modRegister_circuit (j : Nat) (f : Register → Register) : (s.modRegister f).circuit j = s.circuit j := rfl
@[simp] theorem modRegister_board (j : Nat) (f : Register → Register) : (s.modRegister f).board j = s.board j := rfl
@[simp] theorem modRegister_lever (j : Nat) (f : Register → Register) : (s.modRegister f).lever j = s.lever j := rfl
@[simp] theorem modRegister_instrument (j : Nat) (f : Register → Register) : (s.modRegister f).instrument j = s.instrument j := rfl
@[simp] theorem modRegister_hold (j : Nat) (f : Register → Register) : (s.modRegister f).hold j = s.hold j := rfl
@[simp] theorem modRegister_timer (j : Nat) (f : Register → Register) : (s.modRegister f).timer j = s.timer j := rfl
@[simp] theorem modRegister_bell (j : Nat) (f : Register → Register) : (s.modRegister f).bell j = s.bell j := rfl
@[simp] theorem modRegister_inb (j : Nat) (f : Register → Register) : (s.modRegister f).inb j = s.inb j := rfl
@[simp] theorem modRegister_outb (j : Nat) (f : Register → Register) : (s.modRegister f).outb j = s.outb j := rfl
@[simp] theorem modRegister_link (j : Nat) (f : Register → Register) : (s.modRegister f).link j = s.link j := rfl

/-! ### modFaults -/

@[simp] theorem modFaults_pending (f : Faults → Faults) : (s.modFaults f).pending = s.pending := rfl
@[simp] theorem modFaults_now (f : Faults → Faults) : (s.modFaults f).now = s.now := rfl
@[simp] theorem modFaults_freeCount (f : Faults → Faults) : (s.modFaults f).freeCount = s.freeCount := rfl
@[simp] theorem modFaults_mode (f : Faults → Faults) : (s.modFaults f).mode = s.mode := rfl
@[simp] theorem modFaults_start (f : Faults → Faults) : (s.modFaults f).start = s.start := rfl
@[simp] theorem modFaults_store (f : Faults → Faults) : (s.modFaults f).store = s.store := rfl
@[simp] theorem modFaults_circuits (f : Faults → Faults) : (s.modFaults f).circuits = s.circuits := rfl
@[simp] theorem modFaults_converter (f : Faults → Faults) : (s.modFaults f).converter = s.converter := rfl
@[simp] theorem modFaults_scan (f : Faults → Faults) : (s.modFaults f).scan = s.scan := rfl
@[simp] theorem modFaults_polled (f : Faults → Faults) : (s.modFaults f).polled = s.polled := rfl
@[simp] theorem modFaults_boards (f : Faults → Faults) : (s.modFaults f).boards = s.boards := rfl
@[simp] theorem modFaults_levers (f : Faults → Faults) : (s.modFaults f).levers = s.levers := rfl
@[simp] theorem modFaults_instruments (f : Faults → Faults) : (s.modFaults f).instruments = s.instruments := rfl
@[simp] theorem modFaults_holds (f : Faults → Faults) : (s.modFaults f).holds = s.holds := rfl
@[simp] theorem modFaults_timers (f : Faults → Faults) : (s.modFaults f).timers = s.timers := rfl
@[simp] theorem modFaults_bells (f : Faults → Faults) : (s.modFaults f).bells = s.bells := rfl
@[simp] theorem modFaults_inbound (f : Faults → Faults) : (s.modFaults f).inbound = s.inbound := rfl
@[simp] theorem modFaults_outbound (f : Faults → Faults) : (s.modFaults f).outbound = s.outbound := rfl
@[simp] theorem modFaults_links (f : Faults → Faults) : (s.modFaults f).links = s.links := rfl
@[simp] theorem modFaults_register (f : Faults → Faults) : (s.modFaults f).register = s.register := rfl
@[simp] theorem modFaults_tickAt (f : Faults → Faults) : (s.modFaults f).tickAt = s.tickAt := rfl
@[simp] theorem modFaults_faults (f : Faults → Faults) : (s.modFaults f).faults = f s.faults := rfl
@[simp] theorem modFaults_host (f : Faults → Faults) : (s.modFaults f).host = s.host := rfl
@[simp] theorem modFaults_circuit (j : Nat) (f : Faults → Faults) : (s.modFaults f).circuit j = s.circuit j := rfl
@[simp] theorem modFaults_board (j : Nat) (f : Faults → Faults) : (s.modFaults f).board j = s.board j := rfl
@[simp] theorem modFaults_lever (j : Nat) (f : Faults → Faults) : (s.modFaults f).lever j = s.lever j := rfl
@[simp] theorem modFaults_instrument (j : Nat) (f : Faults → Faults) : (s.modFaults f).instrument j = s.instrument j := rfl
@[simp] theorem modFaults_hold (j : Nat) (f : Faults → Faults) : (s.modFaults f).hold j = s.hold j := rfl
@[simp] theorem modFaults_timer (j : Nat) (f : Faults → Faults) : (s.modFaults f).timer j = s.timer j := rfl
@[simp] theorem modFaults_bell (j : Nat) (f : Faults → Faults) : (s.modFaults f).bell j = s.bell j := rfl
@[simp] theorem modFaults_inb (j : Nat) (f : Faults → Faults) : (s.modFaults f).inb j = s.inb j := rfl
@[simp] theorem modFaults_outb (j : Nat) (f : Faults → Faults) : (s.modFaults f).outb j = s.outb j := rfl
@[simp] theorem modFaults_link (j : Nat) (f : Faults → Faults) : (s.modFaults f).link j = s.link j := rfl

/-! ### modStore -/

@[simp] theorem modStore_pending (f : Store → Store) : (s.modStore f).pending = s.pending := rfl
@[simp] theorem modStore_now (f : Store → Store) : (s.modStore f).now = s.now := rfl
@[simp] theorem modStore_freeCount (f : Store → Store) : (s.modStore f).freeCount = s.freeCount := rfl
@[simp] theorem modStore_mode (f : Store → Store) : (s.modStore f).mode = s.mode := rfl
@[simp] theorem modStore_start (f : Store → Store) : (s.modStore f).start = s.start := rfl
@[simp] theorem modStore_store (f : Store → Store) : (s.modStore f).store = f s.store := rfl
@[simp] theorem modStore_circuits (f : Store → Store) : (s.modStore f).circuits = s.circuits := rfl
@[simp] theorem modStore_converter (f : Store → Store) : (s.modStore f).converter = s.converter := rfl
@[simp] theorem modStore_scan (f : Store → Store) : (s.modStore f).scan = s.scan := rfl
@[simp] theorem modStore_polled (f : Store → Store) : (s.modStore f).polled = s.polled := rfl
@[simp] theorem modStore_boards (f : Store → Store) : (s.modStore f).boards = s.boards := rfl
@[simp] theorem modStore_levers (f : Store → Store) : (s.modStore f).levers = s.levers := rfl
@[simp] theorem modStore_instruments (f : Store → Store) : (s.modStore f).instruments = s.instruments := rfl
@[simp] theorem modStore_holds (f : Store → Store) : (s.modStore f).holds = s.holds := rfl
@[simp] theorem modStore_timers (f : Store → Store) : (s.modStore f).timers = s.timers := rfl
@[simp] theorem modStore_bells (f : Store → Store) : (s.modStore f).bells = s.bells := rfl
@[simp] theorem modStore_inbound (f : Store → Store) : (s.modStore f).inbound = s.inbound := rfl
@[simp] theorem modStore_outbound (f : Store → Store) : (s.modStore f).outbound = s.outbound := rfl
@[simp] theorem modStore_links (f : Store → Store) : (s.modStore f).links = s.links := rfl
@[simp] theorem modStore_register (f : Store → Store) : (s.modStore f).register = s.register := rfl
@[simp] theorem modStore_tickAt (f : Store → Store) : (s.modStore f).tickAt = s.tickAt := rfl
@[simp] theorem modStore_faults (f : Store → Store) : (s.modStore f).faults = s.faults := rfl
@[simp] theorem modStore_host (f : Store → Store) : (s.modStore f).host = s.host := rfl
@[simp] theorem modStore_circuit (j : Nat) (f : Store → Store) : (s.modStore f).circuit j = s.circuit j := rfl
@[simp] theorem modStore_board (j : Nat) (f : Store → Store) : (s.modStore f).board j = s.board j := rfl
@[simp] theorem modStore_lever (j : Nat) (f : Store → Store) : (s.modStore f).lever j = s.lever j := rfl
@[simp] theorem modStore_instrument (j : Nat) (f : Store → Store) : (s.modStore f).instrument j = s.instrument j := rfl
@[simp] theorem modStore_hold (j : Nat) (f : Store → Store) : (s.modStore f).hold j = s.hold j := rfl
@[simp] theorem modStore_timer (j : Nat) (f : Store → Store) : (s.modStore f).timer j = s.timer j := rfl
@[simp] theorem modStore_bell (j : Nat) (f : Store → Store) : (s.modStore f).bell j = s.bell j := rfl
@[simp] theorem modStore_inb (j : Nat) (f : Store → Store) : (s.modStore f).inb j = s.inb j := rfl
@[simp] theorem modStore_outb (j : Nat) (f : Store → Store) : (s.modStore f).outb j = s.outb j := rfl
@[simp] theorem modStore_link (j : Nat) (f : Store → Store) : (s.modStore f).link j = s.link j := rfl

/-! ### modHost -/

@[simp] theorem modHost_pending (f : HostPort → HostPort) : (s.modHost f).pending = s.pending := rfl
@[simp] theorem modHost_now (f : HostPort → HostPort) : (s.modHost f).now = s.now := rfl
@[simp] theorem modHost_freeCount (f : HostPort → HostPort) : (s.modHost f).freeCount = s.freeCount := rfl
@[simp] theorem modHost_mode (f : HostPort → HostPort) : (s.modHost f).mode = s.mode := rfl
@[simp] theorem modHost_start (f : HostPort → HostPort) : (s.modHost f).start = s.start := rfl
@[simp] theorem modHost_store (f : HostPort → HostPort) : (s.modHost f).store = s.store := rfl
@[simp] theorem modHost_circuits (f : HostPort → HostPort) : (s.modHost f).circuits = s.circuits := rfl
@[simp] theorem modHost_converter (f : HostPort → HostPort) : (s.modHost f).converter = s.converter := rfl
@[simp] theorem modHost_scan (f : HostPort → HostPort) : (s.modHost f).scan = s.scan := rfl
@[simp] theorem modHost_polled (f : HostPort → HostPort) : (s.modHost f).polled = s.polled := rfl
@[simp] theorem modHost_boards (f : HostPort → HostPort) : (s.modHost f).boards = s.boards := rfl
@[simp] theorem modHost_levers (f : HostPort → HostPort) : (s.modHost f).levers = s.levers := rfl
@[simp] theorem modHost_instruments (f : HostPort → HostPort) : (s.modHost f).instruments = s.instruments := rfl
@[simp] theorem modHost_holds (f : HostPort → HostPort) : (s.modHost f).holds = s.holds := rfl
@[simp] theorem modHost_timers (f : HostPort → HostPort) : (s.modHost f).timers = s.timers := rfl
@[simp] theorem modHost_bells (f : HostPort → HostPort) : (s.modHost f).bells = s.bells := rfl
@[simp] theorem modHost_inbound (f : HostPort → HostPort) : (s.modHost f).inbound = s.inbound := rfl
@[simp] theorem modHost_outbound (f : HostPort → HostPort) : (s.modHost f).outbound = s.outbound := rfl
@[simp] theorem modHost_links (f : HostPort → HostPort) : (s.modHost f).links = s.links := rfl
@[simp] theorem modHost_register (f : HostPort → HostPort) : (s.modHost f).register = s.register := rfl
@[simp] theorem modHost_tickAt (f : HostPort → HostPort) : (s.modHost f).tickAt = s.tickAt := rfl
@[simp] theorem modHost_faults (f : HostPort → HostPort) : (s.modHost f).faults = s.faults := rfl
@[simp] theorem modHost_host (f : HostPort → HostPort) : (s.modHost f).host = f s.host := rfl
@[simp] theorem modHost_circuit (j : Nat) (f : HostPort → HostPort) : (s.modHost f).circuit j = s.circuit j := rfl
@[simp] theorem modHost_board (j : Nat) (f : HostPort → HostPort) : (s.modHost f).board j = s.board j := rfl
@[simp] theorem modHost_lever (j : Nat) (f : HostPort → HostPort) : (s.modHost f).lever j = s.lever j := rfl
@[simp] theorem modHost_instrument (j : Nat) (f : HostPort → HostPort) : (s.modHost f).instrument j = s.instrument j := rfl
@[simp] theorem modHost_hold (j : Nat) (f : HostPort → HostPort) : (s.modHost f).hold j = s.hold j := rfl
@[simp] theorem modHost_timer (j : Nat) (f : HostPort → HostPort) : (s.modHost f).timer j = s.timer j := rfl
@[simp] theorem modHost_bell (j : Nat) (f : HostPort → HostPort) : (s.modHost f).bell j = s.bell j := rfl
@[simp] theorem modHost_inb (j : Nat) (f : HostPort → HostPort) : (s.modHost f).inb j = s.inb j := rfl
@[simp] theorem modHost_outb (j : Nat) (f : HostPort → HostPort) : (s.modHost f).outb j = s.outb j := rfl
@[simp] theorem modHost_link (j : Nat) (f : HostPort → HostPort) : (s.modHost f).link j = s.link j := rfl

/-! ### atTime -/

@[simp] theorem atTime_pending (t : Time) : (s.atTime t).pending = s.pending := rfl
@[simp] theorem atTime_now (t : Time) : (s.atTime t).now = max s.now t := rfl
@[simp] theorem atTime_freeCount (t : Time) : (s.atTime t).freeCount = s.freeCount := rfl
@[simp] theorem atTime_mode (t : Time) : (s.atTime t).mode = s.mode := rfl
@[simp] theorem atTime_start (t : Time) : (s.atTime t).start = s.start := rfl
@[simp] theorem atTime_store (t : Time) : (s.atTime t).store = s.store := rfl
@[simp] theorem atTime_circuits (t : Time) : (s.atTime t).circuits = s.circuits := rfl
@[simp] theorem atTime_converter (t : Time) : (s.atTime t).converter = s.converter := rfl
@[simp] theorem atTime_scan (t : Time) : (s.atTime t).scan = s.scan := rfl
@[simp] theorem atTime_polled (t : Time) : (s.atTime t).polled = s.polled := rfl
@[simp] theorem atTime_boards (t : Time) : (s.atTime t).boards = s.boards := rfl
@[simp] theorem atTime_levers (t : Time) : (s.atTime t).levers = s.levers := rfl
@[simp] theorem atTime_instruments (t : Time) : (s.atTime t).instruments = s.instruments := rfl
@[simp] theorem atTime_holds (t : Time) : (s.atTime t).holds = s.holds := rfl
@[simp] theorem atTime_timers (t : Time) : (s.atTime t).timers = s.timers := rfl
@[simp] theorem atTime_bells (t : Time) : (s.atTime t).bells = s.bells := rfl
@[simp] theorem atTime_inbound (t : Time) : (s.atTime t).inbound = s.inbound := rfl
@[simp] theorem atTime_outbound (t : Time) : (s.atTime t).outbound = s.outbound := rfl
@[simp] theorem atTime_links (t : Time) : (s.atTime t).links = s.links := rfl
@[simp] theorem atTime_register (t : Time) : (s.atTime t).register = s.register := rfl
@[simp] theorem atTime_tickAt (t : Time) : (s.atTime t).tickAt = s.tickAt := rfl
@[simp] theorem atTime_faults (t : Time) : (s.atTime t).faults = s.faults := rfl
@[simp] theorem atTime_host (t : Time) : (s.atTime t).host = s.host := rfl
@[simp] theorem atTime_circuit (t : Time) (j : Nat) : (s.atTime t).circuit j = s.circuit j := rfl
@[simp] theorem atTime_board (t : Time) (j : Nat) : (s.atTime t).board j = s.board j := rfl
@[simp] theorem atTime_lever (t : Time) (j : Nat) : (s.atTime t).lever j = s.lever j := rfl
@[simp] theorem atTime_instrument (t : Time) (j : Nat) : (s.atTime t).instrument j = s.instrument j := rfl
@[simp] theorem atTime_hold (t : Time) (j : Nat) : (s.atTime t).hold j = s.hold j := rfl
@[simp] theorem atTime_timer (t : Time) (j : Nat) : (s.atTime t).timer j = s.timer j := rfl
@[simp] theorem atTime_bell (t : Time) (j : Nat) : (s.atTime t).bell j = s.bell j := rfl
@[simp] theorem atTime_inb (t : Time) (j : Nat) : (s.atTime t).inb j = s.inb j := rfl
@[simp] theorem atTime_outb (t : Time) (j : Nat) : (s.atTime t).outb j = s.outb j := rfl
@[simp] theorem atTime_link (t : Time) (j : Nat) : (s.atTime t).link j = s.link j := rfl

/-! ### Tables in force -/

@[simp] theorem atTime_tables (t : Time) : (s.atTime t).tables = s.tables := rfl
@[simp] theorem atTime_blockMode (t : Time) : (s.atTime t).blockMode = s.blockMode := rfl
@[simp] theorem atTime_inService (t : Time) : (s.atTime t).inService = s.inService := rfl
@[simp] theorem atTime_linkOn (t : Time) (k : Nat) : (s.atTime t).linkOn k = s.linkOn k := rfl
@[simp] theorem modTables_mode (f : Image → Image) : (s.modTables f).mode = s.mode := rfl
@[simp] theorem modTables_levers (f : Image → Image) : (s.modTables f).levers = s.levers := rfl
@[simp] theorem modTables_host (f : Image → Image) : (s.modTables f).host = s.host := rfl
@[simp] theorem modTables_register (f : Image → Image) : (s.modTables f).register = s.register := rfl
@[simp] theorem modTables_tickAt (f : Image → Image) : (s.modTables f).tickAt = s.tickAt := rfl
@[simp] theorem modTables_faults (f : Image → Image) : (s.modTables f).faults = s.faults := rfl
@[simp] theorem modTables_inForce (f : Image → Image) :
    (s.modTables f).store.inForce = s.store.inForce.map f := rfl

/-- A change of the tables in force is a change of no mode the blocks act by. -/
@[simp] theorem modTables_blockMode (f : Image → Image) : (s.modTables f).blockMode = s.blockMode := by
  simp [blockMode, modTables, modStore]

end Sys2Proof.Machine.State
end

