-- ==== Sys2Proof/Laws/Moves.lean ====
section
/-! SUPPORT. What the blocks can do to the state, said once: `Moves ks s u` says that `u` comes of `s` by
moves of the kinds `ks` alone, each a primitive change with the condition under which the blocks make
it. Every shared operation has one lemma, here or in the files after this one, that says of which kinds
its moves are; frames and invariants are read off `Moves` by one induction, and not off the
operations. -/

set_option Elab.async false

namespace Sys2Proof.Machine

/-- Kinds of move, by what they touch. -/
inductive Kind where
  | note | record | circuit | fall | clear | converter | board | lever | evaluate | instrument
  | hold | timer | bell | inb | outb | link | faults | mode | tables | jobs | store | clock
  | flags | batch | receiver | transmit | result | start | scan | time | begin | tick | stage | reload
  deriving DecidableEq, Repr

/-- Whether every kind of the first list is in the second. -/
def Kind.sub (a b : List Kind) : Bool := a.all b.contains

theorem Kind.sub_iff {a b : List Kind} : Kind.sub a b = true ↔ ∀ k ∈ a, k ∈ b := by
  simp [Kind.sub]

/-- The kinds of move by which the blocks confine the subject of a fault, or let it go. -/
abbrev calmKinds : List Kind :=
  [.note, .record, .circuit, .fall, .lever, .evaluate, .instrument, .hold, .timer, .inb, .outb, .link,
   .faults]

/-- The kinds of move by which a cause begins. -/
abbrev raiseKinds : List Kind := .mode :: calmKinds

/-! ### The conditions of the moves -/

/-- A change of a circuit's record that keeps its state and its ranges. -/
def Circuit.Steady (c d : Circuit) : Prop := (c.Sound → d.Sound) ∧ d.state = c.state

/-- A change of a circuit's record to a state other than CLEAR that keeps its ranges. -/
def Circuit.Falls (c d : Circuit) : Prop := (c.Sound → d.Sound) ∧ d.state ≠ .clear

/-- A change of a lever's record that begins no disagreement. -/
def Lever.Quiet (l m : Lever) : Prop :=
  (l.mismatch = false → m.mismatch = false) ∧ (l.mismatchDue = false → m.mismatchDue = false)

/-- A quiet change that leaves alone what the coil command is taken from. -/
def Lever.Steady (l m : Lever) : Prop :=
  l.Quiet m ∧ m.type = l.type ∧ m.settled = l.settled ∧ m.current = l.current ∧ m.held = l.held
    ∧ m.free = l.free ∧ m.coil = l.coil

/-- Whether a fault record or the overflow record holds SUSPEND. -/
def Faults.suspends (f : Faults) : Bool :=
  f.records.any (fun r => r.reaction == .suspend) || f.overflowReaction == some .suspend

/-- A change of the Fault Monitor that keeps its limits and brings no SUSPEND. -/
def Faults.Eases (f g : Faults) : Prop :=
  (f.Sound → g.Sound) ∧ (f.suspends = false → g.suspends = false)

/-- A change of the Host Port that touches only what the kinds given touch, and keeps its limits. -/
def HostPort.Alters (ks : List Kind) (h g : HostPort) : Prop :=
  (.batch ∈ ks ∨ (g.executing = h.executing ∧ g.waiting = h.waiting ∧ g.warm = h.warm))
    ∧ (.flags ∈ ks ∨ g.flags = h.flags)
    ∧ (.receiver ∈ ks ∨ g.receiving = h.receiving)
    ∧ (.transmit ∈ ks ∨ (g.sending = h.sending ∧ g.ready = h.ready ∧ g.notices = h.notices))
    ∧ (.result ∈ ks ∨ g.lastResult = h.lastResult)
    ∧ (h.Sound → g.Sound) ∧ (h.flags.length = 8 → g.flags.length = 8)

/-- The state after a cause has begun and its subject has been confined, `t` being the state at that
point: the mode becomes SUSPENDED where the reaction is SUSPEND and the part is in SERVICE (R166). -/
def suspendFor (o : Occurrence) (t : State) : State :=
  if o.reaction == .suspend && t.inService then
    evaluateAll (endReleasesForMode (takeMode .suspended t))
  else t

/-! ### Staged values -/

/-- What holds of every record of a list and of the default holds of a record read by its number. -/
theorem nth_all {α : Type} {l : List α} {d : α} {p : α → Prop} (h : ∀ x ∈ l, p x) (hd : p d)
    (k : Nat) : p (nth l d k) := by
  cases hk : within k l.length
  · rw [nth_outside l d k hk]; exact hd
  · exact h _ (nth_mem l d k hk)

theorem State.NoneStaged.circuit {s : State} (h : s.NoneStaged) (k : Nat) :
    (s.circuit k).staged = [] := nth_all h.1 rfl k
theorem State.NoneStaged.timer {s : State} (h : s.NoneStaged) (k : Nat) :
    (s.timer k).staged = [] := nth_all h.2.1 rfl k
theorem State.NoneStaged.bell {s : State} (h : s.NoneStaged) (k : Nat) :
    (s.bell k).staged = [] := nth_all h.2.2.1 rfl k
theorem State.NoneStaged.outb {s : State} (h : s.NoneStaged) (k : Nat) :
    (s.outb k).staged = [] := nth_all h.2.2.2.1 rfl k
theorem State.NoneStaged.link {s : State} (h : s.NoneStaged) (k : Nat) :
    (s.link k).staged = [] := nth_all h.2.2.2.2 rfl k

/-! ### Moves -/

/-- Moves of the kinds `ks`. -/
inductive Moves : List Kind → State → State → Prop
  | refl {ks s} : Moves ks s s
  | note {ks r s} (key mask) (h : .note ∈ ks) : Moves ks r s → Moves ks r (raiseKey key mask s)
  | record {ks r s} (e) (h : .record ∈ ks) : Moves ks r s → Moves ks r (append e s)
  | circuit {ks r s} (k g) (h : .circuit ∈ ks) (hg : Circuit.Steady (s.circuit k) (g (s.circuit k)))
    (hs : .stage ∈ ks ∨ ((s.circuit k).staged = [] → (g (s.circuit k)).staged = [])) :
    Moves ks r s → Moves ks r (s.modCircuit k g)
  | circuits {ks r s} (g : Circuit → Circuit) (h : .circuit ∈ ks)
    (hg : ∀ c, Circuit.Steady c (g c)) (hs : ∀ c, c.staged = [] → (g c).staged = []) :
    Moves ks r s → Moves ks r { s with circuits := s.circuits.map g }
  | fall {ks r s} (k g) (h : .fall ∈ ks) (hg : Circuit.Falls (s.circuit k) (g (s.circuit k)))
    (hs : (s.circuit k).staged = [] → (g (s.circuit k)).staged = []) :
    Moves ks r s → Moves ks r (s.modCircuit k g)
  | clear {ks r s} (k level) (h : .clear ∈ ks) (hl : level ≤ 1999)
    (hs : (s.circuit k).state = .occupied) :
    Moves ks r s →
      Moves ks r (s.modCircuit k fun c => { c with state := .clear, lavg := some level, bad := 0 })
  | converter {ks r s} (g) (h : .converter ∈ ks) : Moves ks r s → Moves ks r (s.modConverter g)
  | board {ks r s} (k g) (h : .board ∈ ks) : Moves ks r s → Moves ks r (s.modBoard k g)
  | lever {ks r s} (k g) (h : .lever ∈ ks) (hg : (s.lever k).Steady (g (s.lever k))) :
    Moves ks r s → Moves ks r (s.modLever k g)
  | eval {ks r s} (k) (h : .evaluate ∈ ks) : Moves ks r s → Moves ks r (evaluate k s)
  | relever {ks r s t} (k g) (h : .evaluate ∈ ks) (hg : (s.lever k).Quiet (g (s.lever k)))
    (ht : Moves [.note] (changeLever k g s) t) :
    Moves ks r s → Moves ks r (evaluate k t)
  | instrument {ks r s} (k g) (h : .instrument ∈ ks) :
    Moves ks r s → Moves ks r (s.modInstrument k g)
  | hold {ks r s} (k g) (h : .hold ∈ ks) : Moves ks r s → Moves ks r (s.modHold k g)
  | timer {ks r s} (k g) (h : .timer ∈ ks)
    (hg : .stage ∈ ks ∨ ((s.timer k).staged = [] → (g (s.timer k)).staged = [])) :
    Moves ks r s → Moves ks r (s.modTimer k g)
  | bell {ks r s} (k g) (h : .bell ∈ ks)
    (hg : .stage ∈ ks ∨ ((s.bell k).staged = [] → (g (s.bell k)).staged = [])) :
    Moves ks r s → Moves ks r (s.modBell k g)
  | inb {ks r s} (k g) (h : .inb ∈ ks) : Moves ks r s → Moves ks r (s.modInb k g)
  | outb {ks r s} (k g) (h : .outb ∈ ks)
    (hg : .stage ∈ ks ∨ ((s.outb k).staged = [] → (g (s.outb k)).staged = [])) :
    Moves ks r s → Moves ks r (s.modOutb k g)
  | link {ks r s} (k g) (h : .link ∈ ks)
    (hg : .stage ∈ ks ∨ ((s.link k).staged = [] → (g (s.link k)).staged = [])) :
    Moves ks r s → Moves ks r (s.modLink k g)
  | faults {ks r s} (g) (h : .faults ∈ ks) (hg : s.faults.Eases (g s.faults)) :
    Moves ks r s → Moves ks r (s.modFaults g)
  | cause {ks r s t} (c subject) (h : ∀ k ∈ raiseKinds, k ∈ ks)
    (ht : Moves calmKinds
      (append (.faultRaised c subject (occurrence s c subject).reaction (occurrence s c subject).count)
        (countOccurrence c subject s)) t) :
    Moves ks r s → Moves ks r (suspendFor (occurrence s c subject) t)
  | restrict {ks r s} (m) (h : .mode ∈ ks) (hm : m ≠ .service) :
    Moves ks r s → Moves ks r (evaluateAll (endReleasesForMode (takeMode m s)))
  | serve {ks r s} (m) (h : .mode ∈ ks) (hm : m = .service → s.faults.suspends = false) :
    Moves ks r s → Moves ks r (evaluateAll (enterMode m s))
  | store {ks r s} (g : Store → Store) (h : .store ∈ ks)
    (hg : (g s.store).inForce = s.store.inForce) :
    Moves ks r s → Moves ks r (s.modStore g)
  | tables {ks r s} (g) (h : .tables ∈ ks) : Moves ks r s → Moves ks r (s.modTables g)
  | jobs {ks r s} (p w) (h : .jobs ∈ ks) : Moves ks r s → Moves ks r (queueJob p w s)
  | clock {ks r s} (g) (h : .clock ∈ ks) (hg : s.register.Sound → (g s.register).Sound) :
    Moves ks r s → Moves ks r (s.modRegister g)
  | host {ks r s} (g) (hg : HostPort.Alters ks s.host (g s.host)) :
    Moves ks r s → Moves ks r (s.modHost g)
  | start {ks r s} (p) (h : .start ∈ ks) : Moves ks r s → Moves ks r { s with start := p }
  | scan {ks r s} (n p) (h : .scan ∈ ks) :
    Moves ks r s → Moves ks r { s with scan := n, polled := p }
  | time {ks r s} (t) (h : .time ∈ ks) : Moves ks r s → Moves ks r (s.atTime t)
  | tick {ks r s} (n) (h : .tick ∈ ks) : Moves ks r s → Moves ks r { s with tickAt := n }
  | reload {ks r s} (table record vs) (h : .reload ∈ ks) (hv : ¬ s.NoneStaged) :
    Moves ks r s → Moves ks r (applyStaged table record vs s)
  | begin {ks r s} (i) (h : .begin ∈ ks) (hi : s.store.inForce = none) :
    Moves ks r s → Moves ks r (startBlocks i s)

theorem HostPort.Alters.mono {ks ls : List Kind} {h g : HostPort} (ha : HostPort.Alters ks h g)
    (hk : ∀ k ∈ ks, k ∈ ls) : HostPort.Alters ls h g :=
  ⟨ha.1.imp_left (hk _), ha.2.1.imp_left (hk _), ha.2.2.1.imp_left (hk _), ha.2.2.2.1.imp_left (hk _),
    ha.2.2.2.2.1.imp_left (hk _), ha.2.2.2.2.2⟩

/-- Moves of some kinds are moves of more kinds. -/
theorem Moves.mono {ks ls : List Kind} {s t : State} (h : Moves ks s t) (hk : ∀ k ∈ ks, k ∈ ls) :
    Moves ls s t := by
  induction h with
  | refl => exact .refl
  | note key mask h _ ih => exact .note key mask (hk _ h) (ih hk)
  | record e h _ ih => exact .record e (hk _ h) (ih hk)
  | circuit k g h hg hs _ ih => exact .circuit k g (hk _ h) hg (hs.imp_left (hk _)) (ih hk)
  | circuits g h hg hs _ ih => exact .circuits g (hk _ h) hg hs (ih hk)
  | fall k g h hg hs _ ih => exact .fall k g (hk _ h) hg hs (ih hk)
  | clear k l h hl hs _ ih => exact .clear k l (hk _ h) hl hs (ih hk)
  | converter g h _ ih => exact .converter g (hk _ h) (ih hk)
  | board k g h _ ih => exact .board k g (hk _ h) (ih hk)
  | lever k g h hg _ ih => exact .lever k g (hk _ h) hg (ih hk)
  | eval k h _ ih => exact .eval k (hk _ h) (ih hk)
  | relever k g h hg ht _ _ ih => exact .relever k g (hk _ h) hg ht (ih hk)
  | instrument k g h _ ih => exact .instrument k g (hk _ h) (ih hk)
  | hold k g h _ ih => exact .hold k g (hk _ h) (ih hk)
  | timer k g h hg _ ih => exact .timer k g (hk _ h) (hg.imp_left (hk _)) (ih hk)
  | bell k g h hg _ ih => exact .bell k g (hk _ h) (hg.imp_left (hk _)) (ih hk)
  | inb k g h _ ih => exact .inb k g (hk _ h) (ih hk)
  | outb k g h hg _ ih => exact .outb k g (hk _ h) (hg.imp_left (hk _)) (ih hk)
  | link k g h hg _ ih => exact .link k g (hk _ h) (hg.imp_left (hk _)) (ih hk)
  | faults g h hg _ ih => exact .faults g (hk _ h) hg (ih hk)
  | cause c subject h ht _ _ ih => exact .cause c subject (fun k hc => hk _ (h k hc)) ht (ih hk)
  | restrict m h hm _ ih => exact .restrict m (hk _ h) hm (ih hk)
  | serve m h hm _ ih => exact .serve m (hk _ h) hm (ih hk)
  | store g h hg _ ih => exact .store g (hk _ h) hg (ih hk)
  | tables g h _ ih => exact .tables g (hk _ h) (ih hk)
  | jobs p w h _ ih => exact .jobs p w (hk _ h) (ih hk)
  | clock g h hg _ ih => exact .clock g (hk _ h) hg (ih hk)
  | host g hg _ ih => exact .host g (hg.mono hk) (ih hk)
  | start p h _ ih => exact .start p (hk _ h) (ih hk)
  | scan n p h _ ih => exact .scan n p (hk _ h) (ih hk)
  | time t h _ ih => exact .time t (hk _ h) (ih hk)
  | tick n h _ ih => exact .tick n (hk _ h) (ih hk)
  | reload a b v h hv _ ih => exact .reload a b v (hk _ h) hv (ih hk)
  | begin i h hi _ ih => exact .begin i (hk _ h) hi (ih hk)

/-- Moves after moves are moves. -/
theorem Moves.trans {ks : List Kind} {s t u : State} (h : Moves ks s t) (g : Moves ks t u) :
    Moves ks s u := by
  induction g with
  | refl => exact h
  | note key mask hk _ ih => exact .note key mask hk (ih h)
  | record e hk _ ih => exact .record e hk (ih h)
  | circuit k g hk hg hs _ ih => exact .circuit k g hk hg hs (ih h)
  | circuits g hk hg hs _ ih => exact .circuits g hk hg hs (ih h)
  | fall k g hk hg hs _ ih => exact .fall k g hk hg hs (ih h)
  | clear k l hk hl hs _ ih => exact .clear k l hk hl hs (ih h)
  | converter g hk _ ih => exact .converter g hk (ih h)
  | board k g hk _ ih => exact .board k g hk (ih h)
  | lever k g hk hg _ ih => exact .lever k g hk hg (ih h)
  | eval k hk _ ih => exact .eval k hk (ih h)
  | relever k g hk hg ht _ _ ih => exact .relever k g hk hg ht (ih h)
  | instrument k g hk _ ih => exact .instrument k g hk (ih h)
  | hold k g hk _ ih => exact .hold k g hk (ih h)
  | timer k g hk hg _ ih => exact .timer k g hk hg (ih h)
  | bell k g hk hg _ ih => exact .bell k g hk hg (ih h)
  | inb k g hk _ ih => exact .inb k g hk (ih h)
  | outb k g hk hg _ ih => exact .outb k g hk hg (ih h)
  | link k g hk hg _ ih => exact .link k g hk hg (ih h)
  | faults g hk hg _ ih => exact .faults g hk hg (ih h)
  | cause c subject hk ht _ _ ih => exact .cause c subject hk ht (ih h)
  | restrict m hk hm _ ih => exact .restrict m hk hm (ih h)
  | serve m hk hm _ ih => exact .serve m hk hm (ih h)
  | store g hk hg _ ih => exact .store g hk hg (ih h)
  | tables g hk _ ih => exact .tables g hk (ih h)
  | jobs p w hk _ ih => exact .jobs p w hk (ih h)
  | clock g hk hg _ ih => exact .clock g hk hg (ih h)
  | host g hg _ ih => exact .host g hg (ih h)
  | start p hk _ ih => exact .start p hk (ih h)
  | scan n p hk _ ih => exact .scan n p hk (ih h)
  | time t hk _ ih => exact .time t hk (ih h)
  | tick n hk _ ih => exact .tick n hk (ih h)
  | reload a b v hk hv _ ih => exact .reload a b v hk hv (ih h)
  | begin i hk hi _ ih => exact .begin i hk hi (ih h)

variable {ks ls : List Kind} {r s u : State}

/-- Moves followed by moves of fewer kinds. -/
theorem Moves.andThen (h : Moves ks r s) (hk : Kind.sub ls ks = true) (m : Moves ls s u) :
    Moves ks r u := h.trans (m.mono (Kind.sub_iff.1 hk))

theorem Moves.to_when {f : State → State} (c : Bool) (h : Moves ks r s)
    (hf : c = true → Moves ks s (f s)) : Moves ks r (when c f s) := by
  cases c
  · exact h
  · exact h.trans (hf rfl)

theorem Moves.to_forEach {f : Nat → State → State} (ns : List Nat) (h : Moves ks r s)
    (hf : ∀ n s, Moves ks s (f n s)) : Moves ks r (forEach ns f s) :=
  forEach_keeps (I := Moves ks r) ns (fun n _ t ht => ht.trans (hf n t)) s h

end Sys2Proof.Machine
end

