-- ==== Sys2Proof/Laws/BlockMoves.lean ====
section
/-! SUPPORT. What each shared operation of the blocks can do: one lemma `Moves.to_<operation>` for each,
in the order of the files under Machine/. A chain of them reads like the operation's own text. -/

set_option Elab.async false

namespace Sys2Proof.Machine

variable {ks : List Kind} {r s : State}

/-! ### Primitive changes -/

theorem Moves.to_raiseKey (key : Key) (mask : Word32) (h : Moves ks r s)
    (hk : .note ∈ ks := by decide) : Moves ks r (raiseKey key mask s) := .note _ _ hk h

theorem Moves.to_append (e : Event) (h : Moves ks r s) (hk : .record ∈ ks := by decide) :
    Moves ks r (append e s) := .record _ hk h

theorem Moves.to_noteTrack (k : Nat) (h : Moves ks r s) (hk : .note ∈ ks := by decide) :
    Moves ks r (noteTrack k s) := .note _ _ hk h
theorem Moves.to_noteLever (k : Nat) (h : Moves ks r s) (hk : .note ∈ ks := by decide) :
    Moves ks r (noteLever k s) := .note _ _ hk h
theorem Moves.to_noteLine (k : Nat) (h : Moves ks r s) (hk : .note ∈ ks := by decide) :
    Moves ks r (noteLine k s) := .note _ _ hk h
theorem Moves.to_noteHold (k : Nat) (h : Moves ks r s) (hk : .note ∈ ks := by decide) :
    Moves ks r (noteHold k s) := .note _ _ hk h
theorem Moves.to_noteRelease (k : Nat) (h : Moves ks r s) (hk : .note ∈ ks := by decide) :
    Moves ks r (noteRelease k s) := .note _ _ hk h
theorem Moves.to_noteFault (k : Nat) (h : Moves ks r s) (hk : .note ∈ ks := by decide) :
    Moves ks r (noteFault k s) := .note _ _ hk h
theorem Moves.to_noteCode (k : Nat) (h : Moves ks r s) (hk : .note ∈ ks := by decide) :
    Moves ks r (noteCode k s) := .note _ _ hk h

/-- A change of a circuit's record that touches neither its state nor what has a range. -/
theorem Moves.to_modCircuit (k : Nat) (g : Circuit → Circuit) (h : Moves ks r s)
    (hg : Circuit.Steady (s.circuit k) (g (s.circuit k)) := by exact ⟨id, rfl⟩)
    (hs : .stage ∈ ks ∨ ((s.circuit k).staged = [] → (g (s.circuit k)).staged = []) := by
      first | exact .inr id | exact .inr fun _ => rfl | exact .inl (by decide))
    (hk : .circuit ∈ ks := by decide) : Moves ks r (s.modCircuit k g) := .circuit k g hk hg hs h

theorem Moves.to_modLever (k : Nat) (g : Lever → Lever) (h : Moves ks r s)
    (hg : Lever.Steady (s.lever k) (g (s.lever k)) := by
      exact ⟨⟨id, id⟩, rfl, rfl, rfl, rfl, rfl, rfl⟩)
    (hk : .lever ∈ ks := by decide) : Moves ks r (s.modLever k g) := .lever k g hk hg h

theorem Moves.to_modConverter (g : Converter → Converter) (h : Moves ks r s)
    (hk : .converter ∈ ks := by decide) : Moves ks r (s.modConverter g) := .converter g hk h
theorem Moves.to_modBoard (k : Nat) (g : Board → Board) (h : Moves ks r s)
    (hk : .board ∈ ks := by decide) : Moves ks r (s.modBoard k g) := .board k g hk h
theorem Moves.to_modInstrument (k : Nat) (g : Instrument → Instrument) (h : Moves ks r s)
    (hk : .instrument ∈ ks := by decide) : Moves ks r (s.modInstrument k g) := .instrument k g hk h
theorem Moves.to_modHold (k : Nat) (g : Hold → Hold) (h : Moves ks r s)
    (hk : .hold ∈ ks := by decide) : Moves ks r (s.modHold k g) := .hold k g hk h
theorem Moves.to_modTimer (k : Nat) (g : Timer → Timer) (h : Moves ks r s)
    (hg : .stage ∈ ks ∨ ((s.timer k).staged = [] → (g (s.timer k)).staged = []) := by
      first | exact .inr id | exact .inr fun _ => rfl | exact .inl (by decide))
    (hk : .timer ∈ ks := by decide) : Moves ks r (s.modTimer k g) := .timer k g hk hg h
theorem Moves.to_modBell (k : Nat) (g : Bell → Bell) (h : Moves ks r s)
    (hg : .stage ∈ ks ∨ ((s.bell k).staged = [] → (g (s.bell k)).staged = []) := by
      first | exact .inr id | exact .inr fun _ => rfl | exact .inl (by decide))
    (hk : .bell ∈ ks := by decide) : Moves ks r (s.modBell k g) := .bell k g hk hg h
theorem Moves.to_modInb (k : Nat) (g : Inbound → Inbound) (h : Moves ks r s)
    (hk : .inb ∈ ks := by decide) : Moves ks r (s.modInb k g) := .inb k g hk h
theorem Moves.to_modOutb (k : Nat) (g : Outbound → Outbound) (h : Moves ks r s)
    (hg : .stage ∈ ks ∨ ((s.outb k).staged = [] → (g (s.outb k)).staged = []) := by
      first | exact .inr id | exact .inr fun _ => rfl | exact .inl (by decide))
    (hk : .outb ∈ ks := by decide) : Moves ks r (s.modOutb k g) := .outb k g hk hg h
theorem Moves.to_modLink (k : Nat) (g : Link → Link) (h : Moves ks r s)
    (hg : .stage ∈ ks ∨ ((s.link k).staged = [] → (g (s.link k)).staged = []) := by
      first | exact .inr id | exact .inr fun _ => rfl | exact .inl (by decide))
    (hk : .link ∈ ks := by decide) : Moves ks r (s.modLink k g) := .link k g hk hg h
theorem Moves.to_modFaults (g : Faults → Faults) (h : Moves ks r s)
    (hg : Faults.Eases s.faults (g s.faults) := by exact ⟨id, id⟩)
    (hk : .faults ∈ ks := by decide) : Moves ks r (s.modFaults g) := .faults g hk hg h
theorem Moves.to_modStore (g : Store → Store) (h : Moves ks r s)
    (hg : (g s.store).inForce = s.store.inForce := by rfl)
    (hk : .store ∈ ks := by decide) : Moves ks r (s.modStore g) := .store g hk hg h
theorem Moves.to_modTables (g : Image → Image) (h : Moves ks r s)
    (hk : .tables ∈ ks := by decide) : Moves ks r (s.modTables g) := .tables g hk h
theorem Moves.to_queueJob (p : Patch) (w : Option Waiter) (h : Moves ks r s)
    (hk : .jobs ∈ ks := by decide) : Moves ks r (queueJob p w s) := .jobs p w hk h

/-! ### Fault records -/

/-- A change of a record that keeps its source, subject and reaction, and a count in range, eases the
fault table. -/
theorem Faults.eases_update (f : Faults) (c : Nat) (subject : Option Nat)
    (g : FaultRecord → FaultRecord)
    (hs : ∀ r, (g r).source = r.source) (hj : ∀ r, (g r).subject = r.subject)
    (hr : ∀ r, (g r).reaction = r.reaction)
    (hc : ∀ r, 1 ≤ r.count ∧ r.count ≤ 255 → 1 ≤ (g r).count ∧ (g r).count ≤ 255) :
    f.Eases (f.update c subject g) := by
  constructor
  · rintro ⟨h1, h2, h3, h4⟩
    refine ⟨?_, by simpa [Faults.update] using h2, ?_, h4⟩
    · have : (f.update c subject g).records.map (fun r => (r.source, r.subject))
          = f.records.map fun r => (r.source, r.subject) := by
        simp only [Faults.update, List.map_map]
        refine List.map_congr_left fun r _ => ?_
        simp only [Function.comp]
        split
        · rw [hs, hj]
        · rfl
      rw [this]; exact h1
    · intro r hr'
      simp only [Faults.update, List.mem_map] at hr'
      obtain ⟨q, hq, rfl⟩ := hr'
      split
      · exact hc q (h3 q hq)
      · exact h3 q hq
  · intro h
    have : (f.update c subject g).suspends = f.suspends := by
      simp only [Faults.suspends, Faults.update, List.any_map]
      congr 2
      funext r
      simp only [Function.comp]
      split
      · rw [hr]
      · rfl
    rw [this]; exact h

/-- Removing a record eases the fault table. -/
theorem Faults.eases_remove (f : Faults) (c : Nat) (subject : Option Nat) :
    f.Eases (f.remove c subject) := by
  constructor
  · rintro ⟨h1, h2, h3, h4⟩
    refine ⟨?_, ?_, fun r hr => h3 r (List.mem_of_mem_filter hr), h4⟩
    · exact (List.filter_sublist.map _).nodup h1
    · exact (List.length_filter_le _ _).trans h2
  · intro h
    simp only [Faults.suspends, Bool.or_eq_false_iff] at h ⊢
    refine ⟨?_, h.2⟩
    rw [List.any_eq_false] at h ⊢
    exact fun r hr => h.1 r (List.mem_of_mem_filter hr)

theorem Moves.to_clearRecord (q : FaultRecord) (b : Bool) (h : Moves ks r s)
    (hk : Kind.sub [.record, .faults] ks = true := by decide) : Moves ks r (clearRecord q b s) :=
  h.andThen hk ((Moves.refl.to_modFaults _ (Faults.eases_remove ..)).to_append _)

theorem Moves.to_removeSelfClearing (c : Nat) (subject : Option Nat) (h : Moves ks r s)
    (hk : Kind.sub [.note, .record, .faults] ks = true := by decide) :
    Moves ks r (removeSelfClearing c subject s) := h.andThen hk <| by
  unfold removeSelfClearing
  split
  · exact .refl
  · exact (Moves.refl.to_clearRecord _ _).to_noteFault _

theorem Moves.to_latchRecord (c : Nat) (subject : Option Nat) (h : Moves ks r s)
    (hk : Kind.sub [.note, .faults] ks = true := by decide) :
    Moves ks r (latchRecord c subject s) := h.andThen hk <| by
  unfold latchRecord
  split
  · exact .refl
  · exact (Moves.refl.to_modFaults _ (Faults.eases_update _ c subject
      (fun r => { r with active := false }) (fun _ => rfl) (fun _ => rfl) (fun _ => rfl) fun _ h => h)).to_noteFault _

/-! ### Locking Evaluator -/

theorem Moves.to_evaluate (k : Nat) (h : Moves ks r s) (hk : .evaluate ∈ ks := by decide) :
    Moves ks r (evaluate k s) := .eval k hk h

/-- A quiet change of a lever with its evaluation. -/
theorem Moves.to_relever (k : Nat) (g : Lever → Lever) (h : Moves ks r s)
    (hg : Lever.Quiet (s.lever k) (g (s.lever k)) := by exact ⟨id, id⟩)
    (hk : .evaluate ∈ ks := by decide) : Moves ks r (evaluate k (changeLever k g s)) :=
  .relever k g hk hg .refl h

/-- A quiet change of a lever with its notice and its evaluation. -/
theorem Moves.to_releverNoted (k : Nat) (g : Lever → Lever) (h : Moves ks r s)
    (hg : Lever.Quiet (s.lever k) (g (s.lever k)) := by exact ⟨id, id⟩)
    (hk : .evaluate ∈ ks := by decide) :
    Moves ks r (evaluate k (noteLever k (changeLever k g s))) :=
  .relever k g hk hg (Moves.refl.to_noteLever k) h

/-- A steady change of a lever. -/
theorem Moves.to_changeLever (k : Nat) (g : Lever → Lever) (h : Moves ks r s)
    (hg : Lever.Steady (s.lever k) (g (s.lever k)))
    (hk : Kind.sub [.note, .lever] ks = true := by decide) : Moves ks r (changeLever k g s) :=
  h.andThen hk <| (Moves.refl.to_modLever k g hg).to_when _ fun _ => Moves.refl.to_noteLever k

theorem Moves.to_evaluateAll (h : Moves ks r s) (hk : Kind.sub [.evaluate] ks = true := by decide) :
    Moves ks r (evaluateAll s) :=
  h.andThen hk <| Moves.refl.to_forEach _ fun k _ => Moves.refl.to_evaluate k

theorem Moves.to_evaluateNaming (p : Subject → Bool) (h : Moves ks r s)
    (hk : Kind.sub [.evaluate] ks = true := by decide) : Moves ks r (evaluateNaming p s) :=
  h.andThen hk <| Moves.refl.to_forEach _ fun k _ => Moves.refl.to_evaluate k

theorem Moves.to_evaluateNamingLever (k : Nat) (h : Moves ks r s)
    (hk : Kind.sub [.evaluate] ks = true := by decide) : Moves ks r (evaluateNamingLever k s) :=
  h.andThen hk <| Moves.refl.to_forEach _ fun k _ => Moves.refl.to_evaluate k

theorem Moves.to_evaluateTrack (k : Nat) (h : Moves ks r s)
    (hk : Kind.sub [.evaluate] ks = true := by decide) : Moves ks r (evaluateTrack k s) :=
  h.to_evaluateNaming _ hk
theorem Moves.to_evaluateHold (k : Nat) (h : Moves ks r s)
    (hk : Kind.sub [.evaluate] ks = true := by decide) : Moves ks r (evaluateHold k s) :=
  h.to_evaluateNaming _ hk
theorem Moves.to_evaluateRelease (k : Nat) (h : Moves ks r s)
    (hk : Kind.sub [.evaluate] ks = true := by decide) : Moves ks r (evaluateRelease k s) :=
  h.to_evaluateNaming _ hk

theorem Moves.to_evaluateLine (n : Nat) (h : Moves ks r s)
    (hk : Kind.sub [.evaluate] ks = true := by decide) : Moves ks r (evaluateLine n s) :=
  h.andThen hk <| (Moves.refl.to_evaluateNaming _).to_forEach _ fun k _ => Moves.refl.to_evaluate k

theorem Moves.to_endRelease (k : Nat) (h : Moves ks r s)
    (hk : Kind.sub [.evaluate] ks = true := by decide) : Moves ks r (endRelease k s) :=
  h.andThen hk <| Moves.refl.to_relever k _

theorem Moves.to_grantAllowances (n : Nat) (h : Moves ks r s)
    (hk : Kind.sub [.evaluate] ks = true := by decide) : Moves ks r (grantAllowances n s) :=
  h.andThen hk <| Moves.refl.to_forEach _ fun k _ => Moves.refl.to_relever k _

theorem Moves.to_consumeAllowances (n : Nat) (h : Moves ks r s)
    (hk : Kind.sub [.evaluate] ks = true := by decide) : Moves ks r (consumeAllowances n s) :=
  h.andThen hk <| Moves.refl.to_forEach _ fun k _ => Moves.refl.to_relever k _

theorem Moves.to_withdrawAllowances (b : Bool) (n : Nat) (h : Moves ks r s)
    (hk : Kind.sub [.evaluate] ks = true := by decide) : Moves ks r (withdrawAllowances b n s) :=
  h.andThen hk <| Moves.refl.to_forEach _ fun k _ => Moves.refl.to_relever k _

/-! ### Store -/

theorem Moves.to_applyStaged (table record : Nat) (vs : List (Nat × Nat)) (hv : ¬ s.NoneStaged)
    (h : Moves ks r s) (hk : .reload ∈ ks := by decide) : Moves ks r (applyStaged table record vs s) :=
  .reload table record vs hk hv h

/-! ### Holds and timers -/

/-- The kinds of move of the Route Hold Unit. -/
abbrev holdKinds : List Kind := [.note, .record, .evaluate, .hold, .timer]

theorem Moves.to_cancelTimer (c : CancelCause) (k : Nat) (h : Moves ks r s)
    (hk : Kind.sub [.note, .record, .timer] ks = true := by decide) :
    Moves ks r (cancelTimer c k s) :=
  h.andThen hk <| ((Moves.refl.to_modTimer k _).to_append _).to_noteRelease k

theorem Moves.to_reloadTimer (k : Nat) (h : Moves ks r s)
    (hk : Kind.sub [.note, .reload, .timer] ks = true := by decide) :
    Moves ks r (reloadTimer k s) := h.andThen hk <| by
  simp only [reloadTimer]
  split
  · exact .refl
  · next hs =>
    exact ((Moves.refl.to_applyStaged _ _ _ fun hn => hs (.inl (hn.timer k))).to_modTimer
      k _).to_noteRelease k

theorem Moves.to_setHold (k : Nat) (new : HoldState) (h : Moves ks r s)
    (hk : Kind.sub [.note, .record, .hold] ks = true := by decide) :
    Moves ks r (setHold k new s) := h.andThen hk <| by
  unfold setHold
  split
  · exact .refl
  · split
    · exact .refl
    · exact ((Moves.refl.to_modHold k _).to_append _).to_noteHold k

theorem Moves.to_evaluateHoldAndTimer (k : Nat) (t : Option Nat) (h : Moves ks r s)
    (hk : Kind.sub [.evaluate] ks = true := by decide) :
    Moves ks r (evaluateHoldAndTimer k t s) := h.andThen hk <| by
  unfold evaluateHoldAndTimer
  cases t with
  | none => exact Moves.refl.to_evaluateHold k
  | some t => exact (Moves.refl.to_evaluateRelease t).to_evaluateHold k

theorem Moves.to_moveHolds (dest : Nat → Option HoldState) (ns : List Nat) (h : Moves ks r s)
    (hk : Kind.sub holdKinds ks = true := by decide) : Moves ks r (moveHolds dest ns s) :=
  h.andThen hk <| by
    refine ((Moves.refl.to_forEach _ fun k _ => Moves.refl.to_cancelTimer _ k).to_forEach _
      fun k u => ?_).to_forEach _ fun k _ => Moves.refl.to_evaluateHoldAndTimer k _
    cases dest k with
    | none => exact .refl
    | some new => exact Moves.refl.to_setHold k new

theorem Moves.to_holdsTakeSettle (l : Nat) (p : Pos) (h : Moves ks r s)
    (hk : Kind.sub holdKinds ks = true := by decide) : Moves ks r (holdsTakeSettle l p s) :=
  h.to_moveHolds _ _ hk

theorem Moves.to_holdsTakeCircuit (c : Nat) (old new : TrackState) (h : Moves ks r s)
    (hk : Kind.sub holdKinds ks = true := by decide) : Moves ks r (holdsTakeCircuit c old new s) :=
  h.to_moveHolds _ _ hk

theorem Moves.to_holdsResume (h : Moves ks r s)
    (hk : Kind.sub holdKinds ks = true := by decide) : Moves ks r (holdsResume s) :=
  h.to_moveHolds _ _ hk

theorem Moves.to_timersTakeReverse (l : Nat) (h : Moves ks r s)
    (hk : Kind.sub [.note, .record, .evaluate, .timer] ks = true := by decide) :
    Moves ks r (timersTakeReverse l s) :=
  h.andThen hk <| Moves.refl.to_forEach _ fun k _ =>
    (Moves.refl.to_cancelTimer _ k).to_evaluateRelease k

/-! ### Lines -/

/-- A change of state of an outbound line leaves its staged value alone. -/
theorem Outbound.moveTo_staged (o : Outbound) (new : LineState) (b : Bool) :
    (o.moveTo new b).staged = o.staged := by
  cases b <;> cases new <;> rfl

theorem Moves.to_changeInb (k : Nat) (g : Inbound → Inbound) (h : Moves ks r s)
    (hk : Kind.sub [.note, .inb] ks = true := by decide) : Moves ks r (changeInb k g s) :=
  h.andThen hk <| (Moves.refl.to_modInb k g).to_when _ fun _ => Moves.refl.to_noteLine _

theorem Moves.to_changeOutb (k : Nat) (g : Outbound → Outbound) (h : Moves ks r s)
    (hg : (s.outb k).staged = [] → (g (s.outb k)).staged = [] := by exact id)
    (hk : Kind.sub [.note, .outb] ks = true := by decide) : Moves ks r (changeOutb k g s) :=
  h.andThen hk <| (Moves.refl.to_modOutb k g (.inr hg)).to_when _ fun _ => Moves.refl.to_noteLine _

theorem Moves.to_evalCoils (k : Nat) (h : Moves ks r s)
    (hk : Kind.sub [.note, .inb] ks = true := by decide) : Moves ks r (evalCoils k s) :=
  h.to_changeInb k _ hk

theorem Moves.to_evalAllCoils (h : Moves ks r s)
    (hk : Kind.sub [.note, .inb] ks = true := by decide) : Moves ks r (evalAllCoils s) :=
  h.andThen hk <| Moves.refl.to_forEach _ fun k _ => Moves.refl.to_evalCoils k

theorem Moves.to_cutPermission (k : Nat) (c : Coils) (h : Moves ks r s)
    (hk : Kind.sub [.note, .inb] ks = true := by decide) : Moves ks r (cutPermission k c s) :=
  h.andThen hk <| (Moves.refl.to_changeInb k _).to_evalCoils k

theorem Moves.to_crossCheck (k : Nat) (h : Moves ks r s)
    (hk : Kind.sub [.note, .record, .inb, .faults] ks = true := by decide) :
    Moves ks r (crossCheck k s) := h.andThen hk <| by
  simp only [crossCheck]
  split
  · exact (Moves.refl.to_modInb k _).to_when _ fun _ => Moves.refl.to_removeSelfClearing _ _
  · split
    · exact .refl
    · exact Moves.refl.to_modInb k _

theorem Moves.to_setInbound (k : Nat) (new : LineState) (h : Moves ks r s)
    (hk : Kind.sub [.note, .record, .evaluate, .inb, .link, .faults] ks = true := by decide) :
    Moves ks r (setInbound k new s) :=
  h.andThen hk <| (((((Moves.refl.to_changeInb k _).to_crossCheck k).to_append _).to_evaluateLine
    _).to_modLink k _).to_evalCoils k

/-- The kinds of move by which a line takes a change of a circuit or a release. -/
abbrev sequenceKinds : List Kind := [.note, .record, .evaluate, .timer, .inb]

theorem Moves.to_sequenceCircuit (c : Nat) (old new : TrackState) (k : Nat) (h : Moves ks r s)
    (hk : Kind.sub sequenceKinds ks = true := by decide) :
    Moves ks r (sequenceCircuit c old new k s) := h.andThen hk <| by
  simp only [sequenceCircuit]
  split
  · exact .refl
  · refine Moves.to_evalCoils k ?_
    have h1 := Moves.refl (ks := sequenceKinds) (s := s) |>.to_changeInb k fun i =>
      { i with sequence := (s.inb k).sequenceAfter (s.tables.inb k) c old new }
    split
    · cases sequenceTimer s k with
      | none => exact h1
      | some t => exact (h1.to_cancelTimer _ t).to_evaluateRelease t
    · exact h1

theorem Moves.to_sequenceReleased (k : Nat) (h : Moves ks r s)
    (hk : Kind.sub [.note, .inb] ks = true := by decide) : Moves ks r (sequenceReleased k s) :=
  h.andThen hk <| by
    unfold sequenceReleased
    split
    · exact (Moves.refl.to_changeInb k _).to_evalCoils k
    · exact (Moves.refl.to_changeInb k _).to_evalCoils k
    · exact (Moves.refl.to_changeInb k _).to_evalCoils k
    · exact .refl

/-- The kinds of move of the outbound line. -/
abbrev outKinds : List Kind := [.note, .record, .evaluate, .inb, .outb]

theorem Moves.to_setOutbound (k : Nat) (new : LineState) (b : Bool) (lost : Option ClearLostCause)
    (h : Moves ks r s) (hk : Kind.sub outKinds ks = true := by decide) :
    Moves ks r (setOutbound k new b lost s) :=
  h.andThen hk <| (((((Moves.refl.to_changeOutb k _ (fun h => (Outbound.moveTo_staged ..).trans h)).to_append _).to_when _
    fun _ => Moves.refl.to_withdrawAllowances _ _).to_when _
    fun _ => Moves.refl.to_grantAllowances _).to_evaluateLine _).to_evalCoils k

theorem Moves.to_refuseFar (k : Nat) (far : LineState) (h : Moves ks r s)
    (hk : Kind.sub [.record, .outb] ks = true := by decide) : Moves ks r (refuseFar k far s) :=
  h.andThen hk <| by
    unfold refuseFar
    split
    · exact .refl
    · exact (Moves.refl.to_modOutb k _).to_append _

theorem Moves.to_setGuard (k : Nat) (b : Bool) (h : Moves ks r s)
    (hk : Kind.sub [.note, .outb] ks = true := by decide) : Moves ks r (setGuard k b s) :=
  h.to_changeOutb k _ id hk

theorem Moves.to_takeFarState (k : Nat) (far : LineState) (b : Bool) (h : Moves ks r s)
    (hk : Kind.sub outKinds ks = true := by decide) : Moves ks r (takeFarState k far b s) :=
  h.andThen hk <| by
    simp only [takeFarState]
    split
    · exact .refl
    · exact (Moves.refl.to_setGuard k _).to_modOutb k _
    · exact (Moves.refl.to_setGuard k _).to_setOutbound k _ _ _
    · split
      · exact Moves.refl.to_setOutbound k _ _ _
      · exact Moves.refl.to_refuseFar k _
    · split
      · exact Moves.refl.to_refuseFar k _
      · exact Moves.refl.to_setOutbound k _ _ _
    · split
      · exact .refl
      · exact (Moves.refl.to_setOutbound k _ _ _).to_setGuard k _
    · exact Moves.refl.to_setOutbound k _ _ _
    · split
      · exact Moves.refl.to_setOutbound k _ _ _
      · exact (Moves.refl.to_setOutbound k _ _ _).to_refuseFar k _
    · exact .refl

/-- The kinds of move of the lines. -/
abbrev lineKinds : List Kind := [.note, .record, .evaluate, .inb, .outb, .faults]

theorem Moves.to_takeIndication (k : Nat) (i o : LineState) (b : Bool) (h : Moves ks r s)
    (hk : Kind.sub lineKinds ks = true := by decide) : Moves ks r (takeIndication k i o b s) :=
  h.andThen hk <| ((Moves.refl.to_takeFarState k _ _).to_changeInb k _).to_crossCheck k

theorem Moves.to_farViewLost (k : Nat) (h : Moves ks r s)
    (hk : Kind.sub lineKinds ks = true := by decide) : Moves ks r (farViewLost k s) :=
  h.andThen hk <| (Moves.refl.to_changeInb k _).to_crossCheck k

theorem Moves.to_lineLost (k : Nat) (c : ClearLostCause) (h : Moves ks r s)
    (hk : Kind.sub lineKinds ks = true := by decide) : Moves ks r (lineLost k c s) :=
  h.andThen hk <| (((Moves.refl.to_when _ fun _ => Moves.refl.to_setOutbound k _ _ _).to_setGuard
    k _).to_modOutb k _).to_evalCoils k

theorem Moves.to_meaningAcknowledged (k : Nat) (m : Meaning) (c : Option Nat) (h : Moves ks r s)
    (hk : Kind.sub [.note, .outb] ks = true := by decide) :
    Moves ks r (meaningAcknowledged k m c s) := h.andThen hk <| by
  unfold meaningAcknowledged
  split
  · split
    · exact Moves.refl.to_changeOutb k _
    · exact .refl
  · exact Moves.refl.to_changeOutb k _
  · exact .refl

theorem Moves.to_meaningReceived (k : Nat) (m : Meaning) (c : Option Nat) (h : Moves ks r s)
    (hk : Kind.sub [.note, .evaluate, .inb] ks = true := by decide) :
    Moves ks r (meaningReceived k m c s) := h.andThen hk <| by
  unfold meaningReceived
  split
  · split
    · exact (Moves.refl.to_changeInb k _).to_evalCoils k
    · exact .refl
  · exact (Moves.refl.to_changeInb k _).to_evalCoils k
  · exact Moves.refl.to_withdrawAllowances _ _
  · exact .refl

theorem Moves.to_reloadLine (k : Nat) (h : Moves ks r s)
    (hk : Kind.sub [.note, .reload, .outb] ks = true := by decide) :
    Moves ks r (reloadLine k s) := h.andThen hk <| by
  simp only [reloadLine]
  split
  · exact .refl
  · next hs =>
    exact ((Moves.refl.to_applyStaged _ _ _ fun hn => hs (.inl (hn.outb k))).to_modOutb
      k _).to_noteLine _

theorem Moves.to_departureCircuit (c : Nat) (old new : TrackState) (k : Nat) (h : Moves ks r s)
    (hk : Kind.sub [.note, .outb] ks = true := by decide) :
    Moves ks r (departureCircuit c old new k s) := h.andThen hk <| by
  simp only [departureCircuit]
  split
  · exact Moves.refl.to_changeOutb k _
  · exact .refl

theorem Moves.to_enteringSent (k : Nat) (h : Moves ks r s)
    (hk : Kind.sub [.note, .outb] ks = true := by decide) : Moves ks r (enteringSent k s) :=
  h.to_changeOutb k _ id hk

theorem Moves.to_linesTakeCircuit (c : Nat) (old new : TrackState) (h : Moves ks r s)
    (hk : Kind.sub (.outb :: sequenceKinds) ks = true := by decide) :
    Moves ks r (linesTakeCircuit c old new s) :=
  h.andThen hk <| Moves.refl.to_forEach _ fun k _ =>
    ((Moves.refl.to_sequenceCircuit c old new k).to_departureCircuit c old new k).to_when _
      fun _ => Moves.refl.to_evalCoils k

theorem Moves.to_linesTakeLever (l : Nat) (h : Moves ks r s)
    (hk : Kind.sub [.note, .inb] ks = true := by decide) : Moves ks r (linesTakeLever l s) :=
  h.andThen hk <| Moves.refl.to_forEach _ fun k _ => Moves.refl.to_evalCoils k

end Sys2Proof.Machine
end

