-- ==== Sys2Proof/Laws/FaultMoves.lean ====
section
/-! SUPPORT. What the operations of the track circuits, the reactions to faults, the commutators, the
links' records and the bell codes can do. -/

set_option Elab.async false

namespace Sys2Proof.Machine

variable {ks : List Kind} {r s : State}

/-! ### Track circuits -/

/-- The kinds of move by which a change of a circuit's state is delivered. -/
abbrev deliverKinds : List Kind := [.note, .record, .evaluate, .hold, .timer, .inb, .outb]

theorem Moves.to_deliverTrack (k : Nat) (old new : TrackState) (h : Moves ks r s)
    (hk : Kind.sub deliverKinds ks = true := by decide) : Moves ks r (deliverTrack k old new s) :=
  h.andThen hk <| by
    unfold deliverTrack
    split
    · exact .refl
    · exact (((Moves.refl.to_noteTrack k).to_evaluateTrack k).to_linesTakeCircuit k old
        new).to_holdsTakeCircuit k old new

theorem Moves.to_endMargin (k : Nat) (h : Moves ks r s)
    (hk : Kind.sub [.note, .record, .circuit, .faults] ks = true := by decide) :
    Moves ks r (endMargin k s) := h.andThen hk <| by
  unfold endMargin
  split
  · exact (Moves.refl.to_removeSelfClearing _ _).to_modCircuit k _
  · exact .refl

/-- The kinds of move by which a circuit goes OCCUPIED or FAILED. -/
abbrev fallKinds : List Kind :=
  [.note, .record, .circuit, .fall, .evaluate, .hold, .timer, .inb, .outb, .faults]

theorem Moves.to_enterOccupied (k : Nat) (h : Moves ks r s)
    (hk : Kind.sub fallKinds ks = true := by decide) : Moves ks r (enterOccupied k s) :=
  h.andThen hk <| ((Moves.fall k _ (by decide)
    ⟨fun h => ⟨Nat.zero_le _, h.2⟩, by simp⟩ id Moves.refl).to_endMargin k).to_deliverTrack k _ _

theorem Moves.to_enterFailed (k : Nat) (h : Moves ks r s)
    (hk : Kind.sub fallKinds ks = true := by decide) : Moves ks r (enterFailed k s) :=
  h.andThen hk <| ((Moves.fall k _ (by decide)
    ⟨fun h => ⟨Nat.zero_le _, h.2⟩, by simp⟩ id Moves.refl).to_endMargin k).to_deliverTrack k _ _

theorem Moves.to_reloadTrack (k : Nat) (h : Moves ks r s)
    (hk : Kind.sub [.note, .circuit, .reload] ks = true := by decide) :
    Moves ks r (reloadTrack k s) := h.andThen hk <| by
  simp only [reloadTrack]
  split
  · exact .refl
  · next hs =>
    exact ((Moves.refl.to_applyStaged 8 k _ fun hn => hs (hn.circuit k)).to_modCircuit
      k _).to_noteTrack k

/-- The kinds of move by which a circuit goes CLEAR. -/
abbrev clearKinds : List Kind := .circuit :: .clear :: .reload :: deliverKinds

theorem Moves.to_enterClear (k level : Nat) (hl : level ≤ 1999)
    (hs : (s.circuit k).state = .occupied) (h : Moves ks r s)
    (hk : Kind.sub clearKinds ks = true := by decide) : Moves ks r (enterClear k level s) :=
  h.andThen hk <| ((Moves.clear k level (by decide) hl hs Moves.refl).to_reloadTrack
    k).to_deliverTrack k _ _

theorem Moves.to_confineTrack (c k : Nat) (h : Moves ks r s)
    (hk : Kind.sub fallKinds ks = true := by decide) : Moves ks r (confineTrack c k s) :=
  h.andThen hk <| by
    have h1 := (Moves.refl (ks := fallKinds) (s := s)).to_modCircuit k
      fun r => { r with confinement := addSource c r.confinement }
    simp only [confineTrack]
    split
    · exact .refl
    · split
      · exact h1
      · split
        · exact (h1.to_enterFailed k).to_enterOccupied k
        · exact h1.to_enterFailed k

theorem Moves.to_unconfineTrack (c k : Nat) (h : Moves ks r s)
    (hk : Kind.sub fallKinds ks = true := by decide) : Moves ks r (unconfineTrack c k s) :=
  h.andThen hk <| by
    have h1 := (Moves.refl (ks := fallKinds) (s := s)).to_modCircuit k
      fun r => { r with confinement := dropSource c r.confinement }
    simp only [unconfineTrack]
    split
    · exact h1.to_enterOccupied k
    · exact h1

theorem Moves.to_requestReferences (t : ConverterTest) (h : Moves ks r s)
    (hk : Kind.sub [.converter] ks = true := by decide) : Moves ks r (requestReferences t s) :=
  h.andThen hk <| Moves.refl.to_modConverter _

/-! ### Links' records -/

theorem Moves.to_takeGo (k : Nat) (h : Moves ks r s)
    (hk : Kind.sub [.link] ks = true := by decide) : Moves ks r (takeGo k s) := h.andThen hk <| by
  simp only [takeGo]
  split
  · exact Moves.refl.to_modLink k _
  · exact Moves.refl.to_modLink k _

theorem Moves.to_takeTaken (k : Nat) (h : Moves ks r s)
    (hk : Kind.sub [.link] ks = true := by decide) : Moves ks r (takeTaken k s) :=
  h.andThen hk <| Moves.refl.to_modLink k _

/-- A damaged mark leaves the staged values alone. -/
theorem Link.damage_staged (l : Link) (c : Nat) : (l.damage c).staged = l.staged := by
  unfold Link.damage
  split <;> rfl

theorem Link.damageItem_staged (l : Link) (i : Item) : (l.damageItem i).staged = l.staged := by
  unfold Link.damageItem
  split
  · split
    · exact Link.damage_staged l _
    · rfl
  · rfl

theorem Link.discardLate_staged (l : Link) (now : Time) : (l.discardLate now).staged = l.staged := by
  have all : ∀ (qs : List Queued) (m : Link),
      (qs.foldl (fun l q => l.damageItem q.item) m).staged = m.staged := by
    intro qs
    induction qs with
    | nil => exact fun _ => rfl
    | cons q qs ih => exact fun m => (ih _).trans (Link.damageItem_staged m _)
  exact all _ _

theorem Link.dropFlight_staged (l : Link) (now : Time) : (l.dropFlight now).staged = l.staged :=
  Link.discardLate_staged _ now

theorem Link.yieldFlight_staged (l : Link) (now : Time) : (l.yieldFlight now).staged = l.staged := by
  unfold Link.yieldFlight
  split
  · exact Link.dropFlight_staged l now
  · rfl

theorem Link.joinTail_staged (l : Link) (now : Time) (i : Item) :
    (l.joinTail now i).staged = l.staged := by
  cases i <;> rfl

theorem Link.makeRoom_staged (l : Link) : l.makeRoom.staged = l.staged := by
  simp only [Link.makeRoom]
  split
  · exact Link.damageItem_staged _ _
  · split <;> rfl

/-- An item handed over leaves the staged values alone. -/
theorem Link.handOver_staged (l : Link) (now : Time) (i : Item) :
    (l.handOver now i).staged = l.staged := by
  unfold Link.handOver
  split
  · rfl
  · split
    · exact Link.joinTail_staged ..
    · split
      · exact Link.damageItem_staged ..
      · exact (Link.joinTail_staged ..).trans (Link.makeRoom_staged l)

theorem Moves.to_reloadLink (k : Nat) (h : Moves ks r s)
    (hk : Kind.sub [.note, .reload, .link] ks = true := by decide) :
    Moves ks r (reloadLink k s) := h.andThen hk <| by
  simp only [reloadLink]
  split
  · exact .refl
  · next hs =>
    exact (((Moves.refl.to_applyStaged _ _ _ fun hn => hs (.inl (hn.link k))).to_modLink
      k _).to_noteLine _).to_noteLine _

theorem Moves.to_exchangeFailed (k : Nat) (h : Moves ks r s)
    (hk : Kind.sub [.link] ks = true := by decide) : Moves ks r (exchangeFailed k s) :=
  h.andThen hk <| Moves.refl.to_modLink k _ (.inr fun h => (Link.dropFlight_staged ..).trans h)

theorem Moves.to_bidFailed (k : Nat) (h : Moves ks r s)
    (hk : Kind.sub [.link] ks = true := by decide) : Moves ks r (bidFailed k s) :=
  h.andThen hk <| by
    simp only [bidFailed]
    split
    · exact Moves.refl.to_modLink k _
    · exact Moves.refl.to_exchangeFailed k

theorem Moves.to_dataFailed (b : Bool) (k : Nat) (h : Moves ks r s)
    (hk : Kind.sub [.link] ks = true := by decide) : Moves ks r (dataFailed b k s) :=
  h.andThen hk <| by
    simp only [dataFailed]
    split
    · exact Moves.refl.to_modLink k _
    · exact Moves.refl.to_exchangeFailed k

theorem Moves.to_startFrame (k : Nat) (h : Moves ks r s)
    (hk : Kind.sub [.link] ks = true := by decide) : Moves ks r (startFrame k s) :=
  h.andThen hk <| by
    unfold startFrame
    split
    · exact .refl
    · split
      · exact Moves.refl.to_modLink k _
      · exact .refl

theorem Moves.to_startBidding (k : Nat) (h : Moves ks r s)
    (hk : Kind.sub [.link] ks = true := by decide) : Moves ks r (startBidding k s) :=
  h.andThen hk <| by
    simp only [startBidding]
    split
    · exact Moves.refl.to_modLink k _
    · exact .refl

theorem Moves.to_pumpLink (k : Nat) (h : Moves ks r s)
    (hk : Kind.sub [.link] ks = true := by decide) : Moves ks r (pumpLink k s) :=
  h.andThen hk <| (Moves.refl.to_startBidding k).to_startFrame k

theorem Moves.to_enterOutOfUse (k : Nat) (h : Moves ks r s)
    (hk : Kind.sub (.link :: lineKinds) ks = true := by decide) : Moves ks r (enterOutOfUse k s) :=
  h.andThen hk <| (Moves.refl.to_modLink k _).to_farViewLost k

theorem Moves.to_enterIdle (k : Nat) (h : Moves ks r s)
    (hk : Kind.sub [.note, .inb, .link] ks = true := by decide) : Moves ks r (enterIdle k s) :=
  h.andThen hk <| (Moves.refl.to_modLink k _).to_evalCoils k

theorem Moves.to_modeToLinks (h : Moves ks r s)
    (hk : Kind.sub [.link] ks = true := by decide) : Moves ks r (modeToLinks s) :=
  h.andThen hk <| Moves.refl.to_forEach _ fun k _ => Moves.refl.to_modLink k _

/-! ### Confinement -/

theorem Lever.steady_confinement (l : Lever) (set : List Nat) :
    l.Steady { l with confinement := set } := ⟨⟨id, id⟩, rfl, rfl, rfl, rfl, rfl, rfl⟩

theorem Moves.to_confineLever (c k : Nat) (h : Moves ks r s)
    (hk : Kind.sub [.note, .lever, .evaluate] ks = true := by decide) :
    Moves ks r (confineLever c k s) := h.andThen hk <| by
  simp only [confineLever]
  split
  · exact .refl
  · have h1 := ((Moves.refl (ks := [.note, .lever, .evaluate]) (s := s)).to_modLever k
      fun l => { l with confinement := addSource c (s.lever k).confinement }).to_noteLever k
    split
    · exact h1
    · split
      · exact h1.to_evaluate k
      · exact h1.to_endRelease k

theorem Moves.to_unconfineLever (c k : Nat) (h : Moves ks r s)
    (hk : Kind.sub [.note, .lever, .evaluate] ks = true := by decide) :
    Moves ks r (unconfineLever c k s) := h.andThen hk <| by
  simp only [unconfineLever]
  split
  · exact .refl
  · have h1 := ((Moves.refl (ks := [.note, .lever, .evaluate]) (s := s)).to_modLever k
      fun l => { l with confinement := dropSource c (s.lever k).confinement }).to_noteLever k
    split
    · exact h1.to_evaluate k
    · exact h1

theorem Moves.to_commutatorUnknown (k : Nat) (h : Moves ks r s)
    (hk : Kind.sub [.note, .inb] ks = true := by decide) : Moves ks r (commutatorUnknown k s) :=
  h.to_cutPermission k _ hk

theorem Moves.to_confineCommutator (c k : Nat) (h : Moves ks r s)
    (hk : Kind.sub [.note, .inb, .instrument] ks = true := by decide) :
    Moves ks r (confineCommutator c k s) := h.andThen hk <| by
  simp only [confineCommutator]
  split
  · exact (Moves.refl.to_modInstrument k _).to_commutatorUnknown k
  · exact Moves.refl.to_modInstrument k _

theorem Moves.to_confineForced (c k : Nat) (h : Moves ks r s)
    (hk : Kind.sub [.note, .inb] ks = true := by decide) : Moves ks r (confineForced c k s) :=
  h.andThen hk <| by
    simp only [confineForced]
    split
    · exact Moves.refl.to_modInb k _
    · exact (Moves.refl.to_modInb k _).to_cutPermission k _

theorem Moves.to_unconfineForced (c k : Nat) (h : Moves ks r s)
    (hk : Kind.sub [.note, .inb] ks = true := by decide) : Moves ks r (unconfineForced c k s) :=
  h.andThen hk <| (Moves.refl.to_modInb k _).to_evalCoils k

theorem Moves.to_confineLink (c k : Nat) (h : Moves ks r s)
    (hk : Kind.sub (.link :: lineKinds) ks = true := by decide) : Moves ks r (confineLink c k s) :=
  h.andThen hk <| by
    simp only [confineLink]
    split
    · exact Moves.refl.to_modLink k _
    · exact (Moves.refl.to_modLink k _).to_enterOutOfUse k

theorem Moves.to_unconfineLink (c k : Nat) (h : Moves ks r s)
    (hk : Kind.sub [.note, .inb, .link] ks = true := by decide) :
    Moves ks r (unconfineLink c k s) := h.andThen hk <| by
  simp only [unconfineLink]
  split
  · exact (Moves.refl.to_modLink k _).to_enterIdle k
  · exact Moves.refl.to_modLink k _

/-- Confining a subject is a matter of calm moves. -/
theorem Moves.to_confine (code c : Nat) (subject : Option Nat) (h : Moves ks r s)
    (hk : Kind.sub calmKinds ks = true := by decide) : Moves ks r (confine code c subject s) :=
  h.andThen hk <| by
    unfold confine
    split
    · split
      · exact Moves.refl.to_forEach _ fun k _ => Moves.refl.to_confineTrack c k
      · exact .refl
    · split
      all_goals first
        | exact Moves.refl.to_confineTrack c _
        | exact Moves.refl.to_confineLever c _
        | exact Moves.refl.to_confineCommutator c _
        | exact Moves.refl.to_confineForced c _
        | exact Moves.refl.to_confineLink c _
        | exact Moves.refl
        | skip
      split
      · exact Moves.refl.to_forEach _ fun k _ => Moves.refl.to_confineLever c k
      · exact Moves.refl.to_confineCommutator c _

/-! ### The mode -/

/-- The kinds of move by which the mode changes. -/
abbrev modeKinds : List Kind := [.note, .record, .evaluate, .inb, .link, .mode]

theorem Moves.to_takeRestriction (m : Mode) (hm : m ≠ .service) (h : Moves ks r s)
    (hk : Kind.sub modeKinds ks = true := by decide) : Moves ks r (takeRestriction m s) :=
  h.andThen hk <| ((Moves.restrict m (by decide) hm Moves.refl).to_forEach _ fun k _ =>
    Moves.refl.to_cutPermission k _).to_when _ fun _ => Moves.refl.to_modeToLinks

theorem Moves.to_restrictMode (m : Mode) (hm : m ≠ .service) (h : Moves ks r s)
    (hk : Kind.sub modeKinds ks = true := by decide) : Moves ks r (restrictMode m s) :=
  h.andThen hk <| (Moves.refl.to_append _).to_takeRestriction m hm

theorem Moves.to_resumeService (hs : suspendStands s = false) (h : Moves ks r s)
    (hk : Kind.sub (.hold :: .timer :: modeKinds) ks = true := by decide) :
    Moves ks r (resumeService s) :=
  h.andThen hk <| (((Moves.serve .service (by decide) (fun _ => hs) Moves.refl).to_holdsResume
    ).to_evalAllCoils).to_modeToLinks

/-! ### A cause beginning -/

/-- The beginning of a cause, where what is done with it is a matter of calm moves. -/
theorem Moves.to_beginCause (c : Nat) (subject : Option Nat) (act others : State → State)
    (ha : ∀ t, Moves calmKinds t (act t)) (ho : ∀ t, Moves calmKinds t (others t)) (h : Moves ks r s)
    (hk : Kind.sub raiseKinds ks = true := by decide) :
    Moves ks r (beginCause c subject act others s) :=
  h.andThen hk <| by
    simp only [beginCause]
    generalize ho' : occurrence s c subject = o
    have calm : Moves calmKinds
        (append (.faultRaised c subject o.reaction o.count) (countOccurrence c subject s))
        (others ((fun s => when (suspends o s) (append (.mode s.mode .suspended)) s)
          (noteFault o.source (act
            (append (.faultRaised c subject o.reaction o.count) (countOccurrence c subject s)))))) :=
      ((((ha _).to_noteFault o.source).to_when _ fun _ => Moves.refl.to_append _).trans (ho _))
    subst ho'
    have begun := Moves.cause (ks := raiseKinds) c subject (fun _ h => h) calm .refl
    generalize others _ = t at begun ⊢
    unfold suspendFor at begun
    by_cases hs : ((occurrence s c subject).reaction == .suspend && t.inService) = true
    · rw [if_pos hs] at begun
      rw [suspends, hs]
      show Moves raiseKinds s (takeRestriction .suspended t)
      unfold takeRestriction blocksRestrict
      exact (begun.to_forEach _ fun k _ => Moves.refl.to_cutPermission k _).to_when _
        fun _ => Moves.refl.to_modeToLinks
    · rw [if_neg hs] at begun
      rw [Bool.not_eq_true] at hs
      rw [suspends, hs]
      exact begun

theorem Moves.to_raise (c : Nat) (subject : Option Nat) (h : Moves ks r s)
    (hk : Kind.sub raiseKinds ks = true := by decide) : Moves ks r (raise c subject s) :=
  h.andThen hk <| by
    unfold raise
    refine Moves.refl.to_beginCause c subject _ _
      (fun t => Moves.refl.to_when _ fun _ => Moves.refl.to_confine ..) fun t => ?_
    cases linkTaken c subject s with
    | none => exact .refl
    | some k => exact Moves.refl.to_lineLost k _

theorem Moves.to_raiseOnce (c : Nat) (subject : Option Nat) (h : Moves ks r s)
    (hk : Kind.sub raiseKinds ks = true := by decide) : Moves ks r (raiseOnce c subject s) :=
  h.andThen hk <| (Moves.refl.to_raise c subject).to_latchRecord c subject

theorem Moves.to_reportMismatches (h : Moves ks r s)
    (hk : Kind.sub raiseKinds ks = true := by decide) : Moves ks r (reportMismatches s) :=
  h.andThen hk <| Moves.refl.to_forEach _ fun k _ =>
    (Moves.refl.to_modLever k _ ⟨⟨id, fun _ => rfl⟩, rfl, rfl, rfl, rfl, rfl, rfl⟩).to_raise _ _

/-! ### Commutators and the end of a cause -/

theorem Moves.to_takeDeparture (k : Nat) (h : Moves ks r s)
    (hk : Kind.sub [.note, .inb] ks = true := by decide) : Moves ks r (takeDeparture k s) :=
  h.andThen hk <| (Moves.refl.to_changeInb k _).to_evalCoils k

theorem Moves.to_endForced (k : Nat) (h : Moves ks r s)
    (hk : Kind.sub [.note, .inb, .faults] ks = true := by decide) : Moves ks r (endForced k s) :=
  h.andThen hk <| by
    unfold endForced
    split
    · exact (Moves.refl.to_modInb k _).to_latchRecord _ _
    · exact .refl

theorem Moves.to_beginForced (k : Nat) (h : Moves ks r s)
    (hk : Kind.sub raiseKinds ks = true := by decide) : Moves ks r (beginForced k s) :=
  h.andThen hk <| by
    unfold beginForced
    split
    · exact .refl
    · exact (Moves.refl.to_modInb k _).to_raise _ _

theorem Moves.to_takeSettle (k : Nat) (y : CommPos) (h : Moves ks r s)
    (hk : Kind.sub raiseKinds ks = true := by decide) : Moves ks r (takeSettle k y s) :=
  h.andThen hk <| by
    have h1 := (Moves.refl (ks := raiseKinds) (s := s)).to_modInb k
      fun i => { i with handle := some y, permission := {} }
    simp only [takeSettle]
    refine Moves.to_evalCoils k ?_
    split
    · exact h1.to_setInbound k _
    · split
      · exact h1
      · exact h1.to_endForced k
      · exact h1.to_setInbound k _
      · exact h1.to_beginForced k

theorem Moves.to_unconfineCommutator (c k : Nat) (h : Moves ks r s)
    (hk : Kind.sub (.instrument :: raiseKinds) ks = true := by decide) :
    Moves ks r (unconfineCommutator c k s) := h.andThen hk <| by
  have h1 := (Moves.refl (ks := .instrument :: raiseKinds) (s := s)).to_modInstrument k
    fun i => { i with confinement := dropSource c i.confinement }
  simp only [unconfineCommutator]
  split
  · split
    · exact h1.to_takeSettle k _
    · exact h1.to_evalCoils k
  · exact h1

/-- Letting a subject go is a matter of the moves of a cause beginning: a commutator let go may be
found forced. -/
theorem Moves.to_unconfine (code c : Nat) (subject : Option Nat) (h : Moves ks r s)
    (hk : Kind.sub raiseKinds ks = true := by decide) : Moves ks r (unconfine code c subject s) :=
  h.andThen hk <| by
    unfold unconfine
    split
    · split
      · exact Moves.refl.to_forEach _ fun k _ => Moves.refl.to_unconfineTrack c k
      · exact .refl
    · split
      all_goals first
        | exact Moves.refl.to_unconfineTrack c _
        | exact Moves.refl.to_unconfineLever c _
        | exact Moves.refl.to_unconfineCommutator c _
        | exact Moves.refl.to_unconfineForced c _
        | exact Moves.refl.to_unconfineLink c _
        | exact Moves.refl
        | skip
      split
      · exact Moves.refl.to_forEach _ fun k _ => Moves.refl.to_unconfineLever c k
      · exact Moves.refl.to_unconfineCommutator c _

theorem Moves.to_unconfineOverflow (h : Moves ks r s)
    (hk : Kind.sub raiseKinds ks = true := by decide) : Moves ks r (unconfineOverflow s) :=
  h.andThen hk <| ((((Moves.refl.to_forEach _ fun k _ => Moves.refl.to_unconfineTrack _ k).to_forEach
    _ fun k _ => Moves.refl.to_unconfineLever _ k).to_forEach
    _ fun k _ => Moves.refl.to_unconfineCommutator _ k).to_forEach
    _ fun k _ => Moves.refl.to_unconfineForced _ k).to_forEach
    _ fun k _ => Moves.refl.to_unconfineLink _ k

theorem Moves.to_endCause (c : Nat) (subject : Option Nat) (h : Moves ks r s)
    (hk : Kind.sub raiseKinds ks = true := by decide) : Moves ks r (endCause c subject s) :=
  h.andThen hk <| by
    unfold endCause
    split
    · split
      · exact .refl
      · exact ((Moves.refl.to_clearRecord _ _).to_unconfine _ _ _).to_noteFault _
    · exact Moves.refl.to_latchRecord _ _

end Sys2Proof.Machine
end

