-- ==== Sys2Proof/Laws/Receiver.lean ====
section
/-! SUPPORT. What the receiver of a link can do to its link, said once (R138), and the frame that characters
with no pause between them leave it holding. -/

set_option Elab.async false

namespace Sys2Proof.Machine

variable {l m n : Link}

/-! ### What the receiver leaves alone -/

/-- All that the receiver of a link can change: the time at which a character was last heard, the frame being
assembled, and, where the link is RECEIVING, its data timer (R138, R144). -/
def Link.Receives (l m : Link) : Prop :=
  ∃ h a d, m = { l with heard := h, assembling := a, dataAt := d } ∧ (l.state ≠ .receiving → d = l.dataAt)

theorem Link.Receives.refl (l : Link) : l.Receives l := ⟨l.heard, l.assembling, l.dataAt, rfl, fun _ => rfl⟩

theorem Link.Receives.trans (h : l.Receives m) (g : m.Receives n) : l.Receives n := by
  obtain ⟨_, _, d, rfl, hd⟩ := h
  obtain ⟨h', a', d', rfl, hd'⟩ := g
  exact ⟨h', a', d', rfl, fun hs => (hd' hs).trans (hd hs)⟩

theorem Link.Receives.state_eq (h : l.Receives m) : m.state = l.state := by
  obtain ⟨_, _, _, rfl, _⟩ := h; rfl

theorem Link.Receives.staged_eq (h : l.Receives m) : m.staged = l.staged := by
  obtain ⟨_, _, _, rfl, _⟩ := h; rfl

theorem Link.Receives.dataAt_eq (h : l.Receives m) (hs : l.state ≠ .receiving) : m.dataAt = l.dataAt := by
  obtain ⟨_, _, _, rfl, hd⟩ := h; exact hd hs

theorem Link.receives_abandonFrame (c : LinkCfg) (now : Time) (l : Link) :
    l.Receives (l.abandonFrame c now) := ⟨l.heard, none, _, rfl, fun hs => if_neg hs⟩

theorem Link.receives_huntChar (now : Time) (l : Link) (ch : Byte) : l.Receives (l.huntChar now ch) := by
  unfold Link.huntChar
  split
  · exact ⟨l.heard, _, _, rfl, fun hs => if_neg hs⟩
  · exact .refl l

theorem Link.receives_joinChar (c : LinkCfg) (now : Time) (l : Link) (ch : Byte) :
    l.Receives (l.joinChar c now ch) := by
  have h : l.Receives { l with heard := some now } := ⟨_, l.assembling, l.dataAt, rfl, fun _ => rfl⟩
  refine h.trans ?_
  simp only [Link.joinChar]
  split
  · exact Link.receives_huntChar now _ ch
  · split
    · exact (Link.receives_abandonFrame c now _).trans (Link.receives_huntChar now _ ch)
    · split
      · exact ⟨_, _, _, rfl, fun _ => rfl⟩
      · exact Link.receives_abandonFrame c now _

theorem Link.receives_takePause (c : LinkCfg) (now : Time) (k : Nat) (l : Link) :
    l.Receives (l.takePause c now k) := by
  unfold Link.takePause
  split
  · exact Link.receives_abandonFrame c now l
  · exact .refl l

theorem Link.receives_foldl (c : LinkCfg) (now : Time) (bytes : List Byte) (l : Link) :
    l.Receives (bytes.foldl (Link.joinChar c now) l) := by
  induction bytes generalizing l with
  | nil => exact .refl l
  | cons b bs ih => exact (Link.receives_joinChar c now l b).trans (ih _)

theorem Link.receives_takeChars (c : LinkCfg) (now : Time) (bytes : List Byte) (l : Link) :
    l.Receives (l.takeChars c now bytes) :=
  (Link.receives_takePause c now _ l).trans (Link.receives_foldl c now bytes _)

/-! ### Characters that make a frame -/

/-- A START that is hunted begins a frame, whatever went before it. -/
theorem Link.joinChar_start (c : LinkCfg) (now : Time) (l : Link)
    (h : l.assembling = none ∨ ∃ chars last, l.assembling = some (chars, last) ∧ frameEnded chars = true) :
    (l.joinChar c now startChar).assembling = some ([], now) := by
  obtain h | ⟨chars, last, h, he⟩ := h
  · simp [Link.joinChar, h, Link.huntChar]
  · simp [Link.joinChar, h, he, Link.huntChar]

/-- Characters that go on with the frame being assembled, none of which comes after its CHECK, all join it. -/
theorem Link.foldl_joinChar_assembling (c : LinkCfg) (now : Time) (bs chars : List Byte) (l : Link)
    (h : l.assembling = some (chars, now))
    (hg : ∀ i < bs.length, frameEnded (chars ++ bs.take i) = false
      ∧ stillFrame (chars ++ bs.take (i + 1)) = true) :
    (bs.foldl (Link.joinChar c now) l).assembling = some (chars ++ bs, now) := by
  induction bs generalizing chars l with
  | nil => simpa using h
  | cons b bs ih =>
    have h0 := hg 0 (by simp)
    simp only [List.take_zero, List.append_nil, Nat.zero_add, List.take_succ_cons] at h0
    have hj : (l.joinChar c now b).assembling = some (chars ++ [b], now) := by
      simp [Link.joinChar, h, h0.1, h0.2]
    simpa using ih (chars ++ [b]) (l.joinChar c now b) hj fun i hi => by
      simpa using hg (i + 1) (by simpa using hi)

/-- A receiver that assembles no frame, or whose frame has ended, or has been broken by a pause, takes the
START and the characters of a frame as that frame. -/
theorem Link.takeChars_assembling (c : LinkCfg) (now : Time) (bs : List Byte) (l : Link)
    (h : l.assembling = none ∨ ∃ chars last, l.assembling = some (chars, last)
      ∧ (frameEnded chars = true ∨ 6 * (last + 15) + 25 * bs.length < 6 * now))
    (hg : ∀ i < bs.length, frameEnded (bs.take i) = false ∧ stillFrame (bs.take (i + 1)) = true) :
    (l.takeChars c now (startChar :: bs)).assembling = some (bs, now) := by
  have hp : (l.takePause c now (startChar :: bs).length).assembling = none
      ∨ ∃ chars last, (l.takePause c now (startChar :: bs).length).assembling = some (chars, last)
        ∧ frameEnded chars = true := by
    unfold Link.takePause
    split
    · exact .inl rfl
    · obtain h | ⟨chars, last, h, he | ht⟩ := h
      · exact .inl h
      · exact .inr ⟨chars, last, h, he⟩
      · rename_i hn
        by_cases he : frameEnded chars = true
        · exact .inr ⟨chars, last, h, he⟩
        · simp [Link.paused, h, he, ht] at hn
  simpa [Link.takeChars] using
    Link.foldl_joinChar_assembling c now bs [] _ (Link.joinChar_start c now _ hp) (by simpa using hg)

end Sys2Proof.Machine
end

