-- ==== Sys2Proof/Laws/TrackMoves.lean ====
section
/-! SUPPORT. What the operations of the bell codes, of the track channels and of the frame scanner can
do. -/

set_option Elab.async false

namespace Sys2Proof.Machine

variable {ks : List Kind} {r s : State}

/-! ### Bell codes -/

/-- The kinds of move by which a sent code ends. -/
abbrev sentKinds : List Kind := [.note, .record, .bell, .outb, .link, .reload]

/-- The kinds of move by which a received code ends. -/
abbrev receivedKinds : List Kind := [.note, .record, .evaluate, .bell, .inb, .outb, .reload]

theorem Moves.to_handItem (k : Nat) (i : Item) (h : Moves ks r s)
    (hk : Kind.sub [.link] ks = true := by decide) : Moves ks r (handItem k i s) :=
  h.andThen hk <| Moves.refl.to_modLink k _ (.inr fun h => (Link.handOver_staged ..).trans h)

theorem Moves.to_reloadBell (k : Nat) (h : Moves ks r s)
    (hk : Kind.sub [.note, .reload, .bell] ks = true := by decide) :
    Moves ks r (reloadBell k s) := h.andThen hk <| by
  simp only [reloadBell]
  split
  · exact .refl
  · next hs =>
    exact ((Moves.refl.to_applyStaged _ _ _ fun hn => hs (.inl (hn.bell k))).to_modBell
      k _).to_noteCode k

theorem Moves.to_expectAfter (k : Nat) (p : List Nat) (g : Bool) (m : Meaning × Option Nat)
    (h : Moves ks r s) (hk : Kind.sub [.bell] ks = true := by decide) :
    Moves ks r (expectAfter k p g m s) := h.andThen hk <| by
  simp only [expectAfter]
  split
  · exact Moves.refl.to_modBell k _
  · exact Moves.refl.to_modBell k _

theorem Moves.to_endSent (k : Nat) (p : List Nat) (g b : Bool) (rules : List CodeRule)
    (h : Moves ks r s) (hk : Kind.sub [.note, .record, .bell, .outb] ks = true := by decide) :
    Moves ks r (endSent k p g b rules s) :=
  h.andThen hk <| (((Moves.refl.to_append _).to_when _ fun _ =>
    Moves.refl.to_enteringSent k).to_expectAfter k _ _ _).to_noteCode k

theorem Moves.to_endPlunger (k : Nat) (c : PlungerCode) (h : Moves ks r s)
    (hk : Kind.sub sentKinds ks = true := by decide) : Moves ks r (endPlunger k c s) :=
  h.andThen hk <| (((Moves.refl.to_modBell k _).to_handItem k _).to_endSent k _ _ _ _).to_reloadBell k

theorem Moves.to_endDuePlunger (k : Nat) (h : Moves ks r s)
    (hk : Kind.sub sentKinds ks = true := by decide) : Moves ks r (endDuePlunger k s) :=
  h.andThen hk <| by
    unfold endDuePlunger
    split
    · exact .refl
    · split
      · exact Moves.refl.to_endPlunger k _
      · exact .refl

theorem Moves.to_strokeStart (k : Nat) (h : Moves ks r s)
    (hk : Kind.sub sentKinds ks = true := by decide) : Moves ks r (strokeStart k s) :=
  h.andThen hk <| by
    have h1 := (Moves.refl (ks := sentKinds) (s := s)).to_endDuePlunger k
    simp only [strokeStart]
    split
    · exact h1
    · split
      · exact h1.to_modBell k _
      · split
        · exact h1.to_modBell k _
        · exact h1

theorem Moves.to_countStroke (k : Nat) (c : PlungerCode) (a d : Nat) (h : Moves ks r s)
    (hk : Kind.sub [.bell, .link] ks = true := by decide) : Moves ks r (countStroke k c a d s) :=
  h.andThen hk <| (Moves.refl.to_modBell k _).to_when _ fun _ => Moves.refl.to_handItem k _

theorem Moves.to_strokeEnd (k : Nat) (a : Time) (b : Bool) (h : Moves ks r s)
    (hk : Kind.sub sentKinds ks = true := by decide) : Moves ks r (strokeEnd k a b s) :=
  h.andThen hk <| by
    simp only [strokeEnd]
    split
    · next c _ _ =>
      have h1 := ((Moves.refl (ks := sentKinds) (s := s)).to_modBell k fun b' =>
        { b' with
          strokeTaken := false
          plunger := some { c with garbled := c.garbled || b || decide (1000 < s.now - a) } }).to_when
        (decide (40 ≤ s.now - a)) (f := countStroke k
          { c with garbled := c.garbled || b || decide (1000 < s.now - a) } a (s.now - a))
        fun _ => Moves.refl.to_countStroke k _ _ _
      split
      · exact h1
      · split
        · exact h1.to_modBell k _
        · exact h1.to_endDuePlunger k
    · exact .refl

theorem Moves.to_openHostCode (k : Nat) (groups : List Nat) (h : Moves ks r s)
    (hk : Kind.sub [.bell] ks = true := by decide) : Moves ks r (openHostCode k groups s) :=
  h.andThen hk <| Moves.refl.to_modBell k _

theorem Moves.to_hostStrokeEnd (k : Nat) (h : Moves ks r s)
    (hk : Kind.sub [.bell, .link] ks = true := by decide) : Moves ks r (hostStrokeEnd k s) :=
  h.andThen hk <| by
    unfold hostStrokeEnd
    split
    · exact .refl
    · split
      · exact .refl
      · split
        · exact (Moves.refl.to_modBell k _).to_handItem k _
        · exact .refl

theorem Moves.to_hostEnd (k : Nat) (h : Moves ks r s)
    (hk : Kind.sub sentKinds ks = true := by decide) : Moves ks r (hostEnd k s) :=
  h.andThen hk <| by
    unfold hostEnd
    split
    · exact .refl
    · split
      · exact ((Moves.refl.to_modBell k _).to_handItem k _).to_endSent k _ _ _ _
      · exact .refl

theorem Moves.to_freshReceived (k : Nat) (p : List Nat) (g : Bool) (m : Meaning × Option Nat)
    (h : Moves ks r s)
    (hk : Kind.sub [.note, .record, .evaluate, .bell, .inb] ks = true := by decide) :
    Moves ks r (freshReceived k p g m s) :=
  h.andThen hk <| (((Moves.refl.to_append _).to_when _ fun _ =>
    Moves.refl.to_meaningReceived k _ _).to_when _ fun _ => Moves.refl.to_modBell k _).to_noteCode k

theorem Moves.to_closeReceived (k n : Nat) (p : List Nat) (g : Bool) (rules : List CodeRule)
    (h : Moves ks r s)
    (hk : Kind.sub [.note, .record, .evaluate, .bell, .inb, .outb] ks = true := by decide) :
    Moves ks r (closeReceived k n p g rules s) := h.andThen hk <| by
  have h1 := (Moves.refl (ks := [.note, .record, .evaluate, .bell, .inb, .outb])
    (s := s)).to_modBell k fun b => { b with received := none, lastEnded := some (n, s.now) }
  simp only [closeReceived]
  split
  · exact h1.to_freshReceived k _ _ _
  · split
    · exact h1.to_freshReceived k _ _ _
    · split
      · exact (((h1.to_modBell k _).to_append _).to_meaningAcknowledged k _ _).to_noteCode k
      · exact ((h1.to_modBell k _).to_append _).to_freshReceived k _ _ _

theorem Moves.to_endReceived (k n : Nat) (p : List Nat) (g : Bool) (rules : List CodeRule)
    (h : Moves ks r s) (hk : Kind.sub receivedKinds ks = true := by decide) :
    Moves ks r (endReceived k n p g rules s) :=
  h.andThen hk <| (Moves.refl.to_closeReceived k n p g rules).to_reloadBell k

theorem Moves.to_ring (k units : Nat) (h : Moves ks r s)
    (hk : Kind.sub [.instrument] ks = true := by decide) : Moves ks r (ring k units s) :=
  h.andThen hk <| Moves.refl.to_modInstrument k _

theorem Moves.to_endOther (k n : Nat) (h : Moves ks r s)
    (hk : Kind.sub receivedKinds ks = true := by decide) : Moves ks r (endOther k n s) :=
  h.andThen hk <| by
    unfold endOther
    split
    · split
      · exact .refl
      · exact Moves.refl.to_endReceived k _ _ _ _
    · exact .refl

theorem Moves.to_takeStroke (k n : Nat) (g : Bool) (m units : Nat) (h : Moves ks r s)
    (hk : Kind.sub (.instrument :: receivedKinds) ks = true := by decide) :
    Moves ks r (takeStroke k n g m units s) := h.andThen hk <| by
  have h1 := ((Moves.refl (ks := .instrument :: receivedKinds) (s := s)).to_ring k
    units).to_endOther k n
  simp only [takeStroke]
  split
  · exact .refl
  · split
    · exact h1.to_modBell k _
    · exact h1.to_modBell k _

theorem Moves.to_takeCodeEnd (k n c : Nat) (g : Bool) (h : Moves ks r s)
    (hk : Kind.sub receivedKinds ks = true := by decide) : Moves ks r (takeCodeEnd k n c g s) :=
  h.andThen hk <| by
    have h1 := (Moves.refl (ks := receivedKinds) (s := s)).to_endOther k n
    simp only [takeCodeEnd]
    split
    · exact h1.to_endReceived k _ _ _ _
    · split
      · exact h1
      · exact h1.to_endReceived k _ _ _ _

theorem Moves.to_receiveTimedOut (k : Nat) (h : Moves ks r s)
    (hk : Kind.sub receivedKinds ks = true := by decide) : Moves ks r (receiveTimedOut k s) :=
  h.andThen hk <| by
    unfold receiveTimedOut
    split
    · exact .refl
    · split
      · exact Moves.refl.to_endReceived k _ _ _ _
      · exact .refl

theorem Moves.to_deadlinePassed (k : Nat) (h : Moves ks r s)
    (hk : Kind.sub [.note, .record, .bell] ks = true := by decide) :
    Moves ks r (deadlinePassed k s) := h.andThen hk <| by
  unfold deadlinePassed
  split
  · exact .refl
  · split
    · exact ((Moves.refl.to_modBell k _).to_append _).to_noteCode k
    · exact .refl

/-- The kinds of move by which the items of a DATA frame are delivered. -/
abbrev itemKinds : List Kind := .instrument :: .faults :: receivedKinds

theorem Moves.to_deliverItem (k : Nat) (i : Item) (h : Moves ks r s)
    (hk : Kind.sub itemKinds ks = true := by decide) : Moves ks r (deliverItem k i s) :=
  h.andThen hk <| by
    unfold deliverItem
    split
    · exact Moves.refl.to_takeStroke k _ _ _ _
    · exact Moves.refl.to_takeCodeEnd k _ _ _
    · exact Moves.refl.to_takeIndication k _ _ _

theorem Moves.to_deliverItems (k : Nat) (h : Moves ks r s)
    (hk : Kind.sub (.link :: itemKinds) ks = true := by decide) : Moves ks r (deliverItems k s) :=
  h.andThen hk <| by
    have all : ∀ (is : List Item) (t : State), Moves (.link :: itemKinds) s t →
        Moves (.link :: itemKinds) s (is.foldl (fun s i => deliverItem k i s) t) := by
      intro is
      induction is with
      | nil => exact fun _ h => h
      | cons i is ih => exact fun _ h => ih _ (h.to_deliverItem k i)
    exact all _ _ (Moves.refl.to_modLink k _)

/-! ### Track channels -/

/-- The kinds of move by which a pulse is taken. -/
abbrev pulseKinds : List Kind := .clear :: .reload :: .store :: raiseKinds

theorem Moves.to_marginTest (k : Nat) (h : Moves ks r s)
    (hk : Kind.sub raiseKinds ks = true := by decide) : Moves ks r (marginTest k s) :=
  h.andThen hk <| by
    simp only [marginTest]
    split
    · exact .refl
    · split
      · split
        · exact (Moves.refl.to_modCircuit k _).to_endCause _ _
        · exact .refl
      · split
        · exact (Moves.refl.to_modCircuit k _).to_raise _ _
        · exact .refl

theorem Moves.to_foreignPulse (k : Nat) (h : Moves ks r s)
    (hk : Kind.sub raiseKinds ks = true := by decide) : Moves ks r (foreignPulse k s) :=
  h.andThen hk <| (Moves.refl.to_modCircuit k _
    ⟨fun h => ⟨h.1, h.2.1, Nat.zero_le _, Nat.zero_le _, h.2.2.2.2⟩, rfl⟩).to_when _
    fun _ => Moves.refl.to_raise _ _

theorem Moves.to_overlevelPulse (k : Nat) (h : Moves ks r s)
    (hk : Kind.sub raiseKinds ks = true := by decide) : Moves ks r (overlevelPulse k s) :=
  h.andThen hk <| (Moves.refl.to_modCircuit k _
    ⟨fun h => ⟨h.1, h.2.1, h.2.2.1, Nat.zero_le _, h.2.2.2.2⟩, rfl⟩).to_when _
    fun _ => Moves.refl.to_raise _ _

/-- The cause of a source that is not self-clearing ends by its record being LATCHED. -/
theorem endCause_latches (c : Nat) (subject : Option Nat) (hc : (source c).selfClearing = false) :
    endCause c subject = latchRecord c subject := by
  funext s
  rw [endCause, hc]
  rfl

theorem Moves.to_advanceForeign (k : Nat) (h : Moves ks r s)
    (hk : Kind.sub [.note, .circuit, .faults] ks = true := by decide) :
    Moves ks r (advanceForeign k s) := h.andThen hk <| by
  simp only [advanceForeign, endCause_latches 2 _ (by decide)]
  split
  · exact (Moves.refl.to_modCircuit k _ ⟨fun h =>
      ⟨h.1, h.2.1, Nat.min_le_right _ _, h.2.2.2⟩, rfl⟩).to_latchRecord _ _
  · exact Moves.refl.to_modCircuit k _ ⟨fun h => ⟨h.1, h.2.1, Nat.min_le_right _ _, h.2.2.2⟩, rfl⟩

theorem Moves.to_advanceOver (k : Nat) (h : Moves ks r s)
    (hk : Kind.sub [.note, .circuit, .faults] ks = true := by decide) :
    Moves ks r (advanceOver k s) := h.andThen hk <| by
  simp only [advanceOver, endCause_latches 3 _ (by decide)]
  split
  · exact (Moves.refl.to_modCircuit k _ ⟨fun h =>
      ⟨h.1, h.2.1, h.2.2.1, Nat.min_le_right _ _, h.2.2.2.2⟩, rfl⟩).to_latchRecord _ _
  · exact Moves.refl.to_modCircuit k _ ⟨fun h =>
      ⟨h.1, h.2.1, h.2.2.1, Nat.min_le_right _ _, h.2.2.2.2⟩, rfl⟩

theorem smooth_le (v l : Nat) (hv : v ≤ 1999) (hl : l ≤ 1999) : smooth v l ≤ 1999 := by
  unfold smooth
  split <;> omega

theorem Moves.to_goodPulse (k level : Nat) (hl : level ≤ 1999) (h : Moves ks r s)
    (hk : Kind.sub pulseKinds ks = true := by decide) : Moves ks r (goodPulse k level s) :=
  h.andThen hk <| by
    simp only [goodPulse]
    split
    · split
      · exact Moves.refl.to_enterOccupied k
      · refine (Moves.refl.to_modCircuit k _ ⟨fun h => ⟨h.1, h.2.1, h.2.2.1, h.2.2.2.1,
          h.2.2.2.2.1, ?_⟩, rfl⟩).to_marginTest k
        intro l hl'
        obtain ⟨v, hv, rfl⟩ := Option.map_eq_some_iff.1 hl'
        exact smooth_le v level (h.2.2.2.2.2 v hv) hl
    · next hs =>
      split
      · exact Moves.refl.to_modCircuit k _ ⟨fun h => ⟨Nat.zero_le _, h.2⟩, rfl⟩
      · have h1 := (Moves.refl (ks := pulseKinds) (s := s)).to_modCircuit k
          (fun c => { c with g := min ((s.circuit k).g + 1) 15 })
          ⟨fun h => ⟨Nat.min_le_right _ _, h.2⟩, rfl⟩
        split
        · refine (h1.to_enterClear k level hl ?_).to_marginTest k
          rw [State.circuit_modCircuit]
          split <;> exact hs
        · exact h1
    · exact .refl

theorem Moves.to_codeLoss (k : Nat) (h : Moves ks r s)
    (hk : Kind.sub fallKinds ks = true := by decide) : Moves ks r (codeLoss k s) :=
  h.andThen hk <| by
    unfold codeLoss
    split
    · exact Moves.refl.to_enterOccupied k
    · exact Moves.refl.to_modCircuit k _ ⟨fun h => ⟨Nat.zero_le _, h.2⟩, rfl⟩
    · exact .refl

theorem Moves.to_badPeriodPulse (k : Nat) (h : Moves ks r s)
    (hk : Kind.sub fallKinds ks = true := by decide) : Moves ks r (badPeriodPulse k s) :=
  h.andThen hk <| by
    have h1 := (Moves.refl (ks := fallKinds) (s := s)).to_modCircuit k
      (fun c => { c with bad := if (s.circuit k).bad = 1 then 0 else 1, foreignEnd := 0, overEnd := 0
                         g := if c.state = .occupied then 0 else c.g })
      ⟨fun h => ⟨by dsimp only; split <;> [exact Nat.zero_le _; exact h.1],
        by dsimp only; split <;> decide, Nat.zero_le _, Nat.zero_le _, h.2.2.2.2⟩, rfl⟩
    by_cases hb : (s.circuit k).bad = 1
    · simp only [badPeriodPulse, hb, if_true] at h1 ⊢
      exact h1.to_codeLoss k
    · simp only [badPeriodPulse, hb, if_false] at h1 ⊢
      exact h1

theorem levelOf_le (a aref : Nat) : levelOf a aref ≤ 1999 := Nat.min_le_right _ _

theorem Moves.to_goodPeriodPulse (k a : Nat) (h : Moves ks r s)
    (hk : Kind.sub pulseKinds ks = true := by decide) : Moves ks r (goodPeriodPulse k a s) :=
  h.andThen hk <| by
    have hl := levelOf_le a (trackCfg s k).aref
    have h1 := ((Moves.refl (ks := pulseKinds) (s := s)).to_modCircuit k
      (fun c => { c with bad := 0, lastL := some (levelOf a (trackCfg s k).aref) })
      ⟨fun h => ⟨h.1, Nat.zero_le _, h.2.2.1, h.2.2.2.1,
        fun l e => Option.some.inj e ▸ hl, h.2.2.2.2.2⟩, rfl⟩).to_advanceForeign k
    simp only [goodPeriodPulse]
    split
    · exact h1.to_overlevelPulse k
    · exact (h1.to_advanceOver k).to_goodPulse k _ hl

theorem Moves.to_classifyPulse (k a : Nat) (p : Pulse) (h : Moves ks r s)
    (hk : Kind.sub pulseKinds ks = true := by decide) : Moves ks r (classifyPulse k a p s) :=
  h.andThen hk <| by
    have h1 := (Moves.refl (ks := pulseKinds) (s := s)).to_modCircuit k
      fun c => { c with lastP := p.period, lastA := some a }
    simp only [classifyPulse]
    split
    · exact h1.to_modCircuit k _ ⟨fun h => ⟨h.1, Nat.zero_le _, h.2.2⟩, rfl⟩
    · exact h1.to_goodPeriodPulse k a
    · exact (h1.to_modCircuit k _ ⟨fun h => ⟨h.1, Nat.zero_le _, h.2.2⟩, rfl⟩).to_foreignPulse k
    · exact h1.to_badPeriodPulse k

theorem Moves.to_completeLearning (k sum : Nat) (h : Moves ks r s)
    (hk : Kind.sub [.note, .circuit, .store] ks = true := by decide) :
    Moves ks r (completeLearning k sum s) :=
  h.andThen hk <| ((Moves.refl.to_modStore _).to_modCircuit k _).to_noteTrack k

theorem Moves.to_learnPulse (k a : Nat) (p : Pulse) (h : Moves ks r s)
    (hk : Kind.sub [.note, .circuit, .store] ks = true := by decide) :
    Moves ks r (learnPulse k a p s) := h.andThen hk <| by
  simp only [learnPulse]
  split
  · exact .refl
  · split
    · exact Moves.refl.to_modCircuit k _
    · split
      · split
        · exact Moves.refl.to_modCircuit k _
        · exact Moves.refl.to_completeLearning k _
      · exact Moves.refl.to_modCircuit k _

theorem Moves.to_startWiring (k : Nat) (h : Moves ks r s)
    (hk : Kind.sub [.circuit] ks = true := by decide) : Moves ks r (startWiring k s) :=
  h.andThen hk <| by
    simp only [startWiring]
    split
    · exact Moves.refl.to_modCircuit k _
    · exact .refl

theorem Moves.to_abandonWiring (k : Nat) (h : Moves ks r s)
    (hk : Kind.sub [.circuit, .converter] ks = true := by decide) :
    Moves ks r (abandonWiring k s) := h.andThen hk <| by
  unfold abandonWiring
  split
  · exact (Moves.refl.to_modCircuit k _).to_modConverter _
  · exact .refl

theorem Moves.to_judgeWiring (k n : Nat) (h : Moves ks r s)
    (hk : Kind.sub raiseKinds ks = true := by decide) : Moves ks r (judgeWiring k n s) :=
  h.andThen hk <| ((Moves.refl.to_modCircuit k _).to_when _ fun _ =>
    Moves.refl.to_raise _ _).to_when _ fun _ => Moves.refl.to_endCause _ _

theorem Moves.to_takeCodeLost (k : Nat) (h : Moves ks r s)
    (hk : Kind.sub fallKinds ks = true := by decide) : Moves ks r (takeCodeLost k s) :=
  h.andThen hk <| ((Moves.refl.to_modCircuit k _ ⟨fun h => ⟨h.1, Nat.zero_le _, Nat.zero_le _,
    Nat.zero_le _, h.2.2.2.2⟩, rfl⟩).to_codeLoss k).to_startWiring k

theorem Moves.to_discardCandidate (k : Nat) (h : Moves ks r s)
    (hk : Kind.sub fallKinds ks = true := by decide) : Moves ks r (discardCandidate k s) :=
  h.andThen hk <| (Moves.refl.to_modCircuit k _).to_when _ fun _ => Moves.refl.to_takeCodeLost k

theorem Moves.to_acceptCandidate (k : Nat) (a : Time) (h : Moves ks r s)
    (hk : Kind.sub [.circuit, .converter] ks = true := by decide) :
    Moves ks r (acceptCandidate k a s) := h.andThen hk <| by
  simp only [acceptCandidate]
  exact (Moves.refl.to_modCircuit k _).to_when _ fun _ => Moves.refl.to_modConverter _

/-! ### The frame scanner -/

/-- The kinds of move of a lever event. -/
abbrev leverKinds : List Kind := [.note, .evaluate, .inb]

theorem Moves.to_leverDeparts (k : Nat) (x : Reading) (h : Moves ks r s)
    (hk : Kind.sub leverKinds ks = true := by decide) : Moves ks r (leverDeparts k x s) :=
  h.andThen hk <| ((Moves.refl.to_releverNoted k _).to_evaluateNamingLever k).to_linesTakeLever k

theorem Moves.to_leverMoving (k : Nat) (h : Moves ks r s)
    (hk : Kind.sub (.lever :: leverKinds) ks = true := by decide) : Moves ks r (leverMoving k s) :=
  h.andThen hk <| by
    simp only [leverMoving]
    split
    · next hc =>
      cases hh : ((if takesFromReverse s (s.lever k) .moving = true then some Pos.reverse
        else (s.lever k).held) != (s.lever k).held)
      · refine Moves.refl.to_changeLever k _ ⟨⟨id, id⟩, rfl, rfl, hc.symm, ?_, rfl, rfl⟩
        simpa using hh
      · exact Moves.refl.to_relever k _
    · exact ((Moves.refl.to_releverNoted k _).to_evaluateNamingLever k).to_linesTakeLever k

theorem Moves.to_leverUnknown (k : Nat) (h : Moves ks r s)
    (hk : Kind.sub leverKinds ks = true := by decide) : Moves ks r (leverUnknown k s) :=
  h.andThen hk <| by
    unfold leverUnknown
    split
    · exact .refl
    · exact ((Moves.refl.to_releverNoted k _).to_evaluateNamingLever k).to_linesTakeLever k

theorem Moves.to_beginLeverForced (k : Nat) (h : Moves ks r s)
    (hk : Kind.sub raiseKinds ks = true := by decide) : Moves ks r (beginLeverForced k s) :=
  h.andThen hk <| by
    unfold beginLeverForced
    split
    · exact .refl
    · exact (Moves.refl.to_modLever k _).to_raise _ _

theorem Moves.to_leverSettles (k : Nat) (p : Pos) (h : Moves ks r s)
    (hk : Kind.sub raiseKinds ks = true := by decide) : Moves ks r (leverSettles k p s) :=
  h.andThen hk <| by
    have h1 := (((Moves.refl (ks := raiseKinds) (s := s)).to_releverNoted k fun l =>
      { l with settled := some p, current := p.atRest, transitStart := none, transitAt := none
               departed := false, seenUnknown := false, held := none
               lastSettle := some s.now }).to_evaluateNamingLever k).to_linesTakeLever k
    have rest : ∀ (a b c d e : Bool) (t : State), Moves raiseKinds s t →
        Moves raiseKinds s
          ((if a = true then fun s =>
              (s.modLever k fun l => { l with forcedActive := false }) |> latchRecord 8 (some k)
            else if e = true then raiseOnce 8 (some k)
            else when b (beginLeverForced k))
            (when c (fun s => (s.modLever k fun l => { l with transitActive := false })
                |> endCause 9 (some k))
              (holdsTakeSettle k p (when d (timersTakeReverse k) t)))) := by
      intro a b c d e t ht
      have h2 := ((ht.to_when (f := timersTakeReverse k) d fun _ =>
        Moves.refl.to_timersTakeReverse k).to_holdsTakeSettle k p).to_when c
        (f := fun s => endCause 9 (some k) (s.modLever k fun l => { l with transitActive := false }))
        fun _ => (Moves.refl.to_modLever k _).to_endCause 9 (some k)
      cases a
      · cases e
        · exact h2.to_when b fun _ => Moves.refl.to_beginLeverForced k
        · exact h2.to_raiseOnce 8 (some k)
      · exact (h2.to_modLever k fun l => { l with forcedActive := false }).to_latchRecord 8 (some k)
    simp only [leverSettles]
    refine rest _ _ _ _ _ _ ?_
    generalize (if p = .reverse ∧ (s.lever k).type = .signal ∧ (s.lever k).allowance ≠ some false then
      (s.lever k).blockLine else none) = o
    cases o with
    | none => exact h1
    | some n => exact h1.to_consumeAllowances n

theorem Moves.to_contactRecovers (k : Nat) (h : Moves ks r s)
    (hk : Kind.sub [.note, .lever, .faults] ks = true := by decide) :
    Moves ks r (contactRecovers k s) := h.andThen hk <| by
  simp only [contactRecovers]
  split
  · exact .refl
  · split
    · exact Moves.refl.to_modLever k _
    · exact (Moves.refl.to_modLever k _).to_latchRecord _ _

theorem Moves.to_leverBoth (k : Nat) (h : Moves ks r s)
    (hk : Kind.sub raiseKinds ks = true := by decide) : Moves ks r (leverBoth k s) :=
  h.andThen hk <| ((Moves.refl.to_leverUnknown k).to_modLever k _).to_when _
    fun _ => Moves.refl.to_raise _ _

theorem Moves.to_takeReading (k : Nat) (x : Reading) (h : Moves ks r s)
    (hk : Kind.sub raiseKinds ks = true := by decide) : Moves ks r (takeReading k x s) :=
  h.andThen hk <| by
    have h1 := (Moves.refl (ks := raiseKinds) (s := s)).to_modLever k fun l =>
      { l with lastReading := some x
               run := if ((s.lever k).lastReading == some x) = true then 2 else 1 }
    simp only [takeReading]
    generalize s.modLever k _ = t at h1 ⊢
    have h2 := h1.to_contactRecovers k
    split
    · split
      · exact h1.to_leverBoth k
      · split
        · exact h2.to_leverDeparts k x
        · exact h2.to_leverMoving k
    · split
      · split
        · exact h2
        · exact (h2.to_leverDeparts k x).to_when _ fun _ => Moves.refl.to_beginLeverForced k
      · split
        · exact h2.to_leverSettles k _
        · exact h2.to_when _ fun _ => Moves.refl.to_beginLeverForced k

theorem Moves.to_leverFinding (k : Nat) (f : Finding) (h : Moves ks r s)
    (hk : Kind.sub raiseKinds ks = true := by decide) : Moves ks r (leverFinding k f s) :=
  h.andThen hk <| by
    simp only [leverFinding]
    split
    · split
      · exact .refl
      · exact (Moves.refl.to_modLever k _).to_raise _ _
    · split
      · exact .refl
      · exact (Moves.refl.to_modLever k _).to_raise _ _
    · exact ((Moves.refl.to_modLever k _).to_when _ fun _ => Moves.refl.to_latchRecord _ _).to_when _
        fun _ => Moves.refl.to_latchRecord _ _

theorem Moves.to_coilFinding (k : Nat) (b : Bool) (f : Finding) (h : Moves ks r s)
    (hk : Kind.sub raiseKinds ks = true := by decide) : Moves ks r (coilFinding k b f s) :=
  h.andThen hk <| (((((Moves.refl.to_modInstrument k _).to_modInstrument k _).to_when _
    fun _ => Moves.refl.to_raise _ _).to_when _ fun _ => Moves.refl.to_latchRecord _ _).to_when _
    fun _ => Moves.refl.to_raise _ _).to_when _ fun _ => Moves.refl.to_latchRecord _ _

theorem Moves.to_commDeparts (k : Nat) (h : Moves ks r s)
    (hk : Kind.sub [.note, .inb, .instrument] ks = true := by decide) :
    Moves ks r (commDeparts k s) :=
  h.andThen hk <| (Moves.refl.to_modInstrument k _).to_when _ fun _ => Moves.refl.to_takeDeparture k

theorem Moves.to_commSettles (k : Nat) (p : CommPos) (h : Moves ks r s)
    (hk : Kind.sub raiseKinds ks = true := by decide) : Moves ks r (commSettles k p s) :=
  h.andThen hk <| ((Moves.refl.to_modInstrument k _).to_when _ fun _ =>
    Moves.refl.to_latchRecord _ _).to_when _ fun _ => Moves.refl.to_takeSettle k p

theorem Moves.to_commUnknown (k : Nat) (h : Moves ks r s)
    (hk : Kind.sub [.note, .inb, .instrument] ks = true := by decide) :
    Moves ks r (commUnknown k s) :=
  h.andThen hk <| (Moves.refl.to_modInstrument k _).to_commutatorUnknown k

theorem Moves.to_commMultiple (k : Nat) (h : Moves ks r s)
    (hk : Kind.sub raiseKinds ks = true := by decide) : Moves ks r (commMultiple k s) :=
  h.andThen hk <| ((Moves.refl.to_commUnknown k).to_modInstrument k _).to_when _
    fun _ => Moves.refl.to_raise _ _

theorem Moves.to_takeCommReading (k : Nat) (x : CommReading) (h : Moves ks r s)
    (hk : Kind.sub raiseKinds ks = true := by decide) : Moves ks r (takeCommReading k x s) :=
  h.andThen hk <| by
    have h1 := (Moves.refl (ks := raiseKinds) (s := s)).to_modInstrument k fun i =>
      { i with lastReading := some x, began := if i.lastReading = some x then i.began else s.now }
    simp only [takeCommReading]
    split
    · exact h1.to_commMultiple k
    · exact h1.to_commDeparts k
    · exact h1
    · exact (h1.to_modInstrument k _).to_evalCoils k
    · split
      · exact h1
      · exact h1.to_commDeparts k
    · split
      · exact h1.to_commSettles k _
      · exact h1

theorem Moves.to_takePlunger (k : Nat) (b : Bool) (h : Moves ks r s)
    (hk : Kind.sub (.instrument :: sentKinds) ks = true := by decide) :
    Moves ks r (takePlunger k b s) := h.andThen hk <| by
  unfold takePlunger
  split
  · exact Moves.refl.to_modInstrument k _
  · exact (Moves.refl.to_modInstrument k _).to_strokeStart k
  · exact (Moves.refl.to_modInstrument k _).to_strokeEnd k _ _
  · exact .refl

theorem Moves.to_plungerLost (k : Nat) (h : Moves ks r s)
    (hk : Kind.sub (.instrument :: sentKinds) ks = true := by decide) :
    Moves ks r (plungerLost k s) := h.andThen hk <| by
  have h1 := (Moves.refl (ks := .instrument :: sentKinds) (s := s)).to_modInstrument k fun i =>
    { i with plunger := .arming }
  simp only [plungerLost]
  cases (s.instrument k).plunger with
  | closed start => exact h1.to_strokeEnd k _ _
  | arming => exact h1
  | released => exact h1

/-- The kinds of move by which an answer of a board is taken. -/
abbrev answerKinds : List Kind := .bell :: .reload :: raiseKinds

theorem Moves.to_takeSlot (b i : Nat) (x : SlotReading) (h : Moves ks r s)
    (hk : Kind.sub raiseKinds ks = true := by decide) : Moves ks r (takeSlot b i x s) :=
  h.andThen hk <| by
    unfold takeSlot
    split
    · exact .refl
    · next k _ =>
      have h1 := (Moves.refl (ks := raiseKinds) (s := s)).to_takeReading k (readingOf x.n x.r)
      cases judgedCommand (s.board b) i with
      | none => exact h1
      | some c => exact h1.to_leverFinding k _

theorem Moves.to_takeSlots (b : Nat) (xs : List SlotReading) (h : Moves ks r s)
    (hk : Kind.sub raiseKinds ks = true := by decide) (i : Nat) :
    Moves ks r (takeSlots b i xs s) := h.andThen hk <| by
  clear h
  induction xs generalizing i s with
  | nil => exact .refl
  | cons x xs ih => exact (Moves.refl.to_takeSlot b i x).trans (ih (i + 1))

theorem Moves.to_takeAnswer (b : Nat) (a : Answer) (h : Moves ks r s)
    (hk : Kind.sub answerKinds ks = true := by decide) : Moves ks r (takeAnswer b a s) :=
  h.andThen hk <| by
    cases a with
    | lever slots => exact Moves.refl.to_takeSlots b slots (i := 0)
    | instrument p c bb o k1 k2 =>
      have h1 := ((Moves.refl (ks := answerKinds) (s := s)).to_takeCommReading (b - 8)
        (commReadingOf c bb o)).to_takePlunger (b - 8) p
      simp only [takeAnswer]
      cases judgedCommand (s.board b) 0 with
      | none =>
        cases judgedCommand (s.board b) 1 with
        | none => exact h1
        | some y => exact h1.to_coilFinding _ _ _
      | some x =>
        have h2 := h1.to_coilFinding (b - 8) true (findingOf x k1)
        cases judgedCommand (s.board b) 1 with
        | none => exact h2
        | some y => exact h2.to_coilFinding _ _ _

/-- The kinds of move by which a poll ends. -/
abbrev pollKinds : List Kind := .board :: .scan :: answerKinds

theorem Moves.to_endPoll (b : Nat) (o : List Bool) (g : Bool) (h : Moves ks r s)
    (hk : Kind.sub [.board, .scan] ks = true := by decide) : Moves ks r (endPoll b o g s) :=
  h.andThen hk <| (Moves.scan s.scan none (by decide) Moves.refl).to_modBoard b _

theorem Moves.to_loseBoard (b : Nat) (h : Moves ks r s)
    (hk : Kind.sub answerKinds ks = true := by decide) : Moves ks r (loseBoard b s) :=
  h.andThen hk <| by
    simp only [loseBoard]
    split
    · exact Moves.refl.to_forEach _ fun k _ => (Moves.refl.to_leverUnknown k).to_modLever k _
    · exact ((Moves.refl.to_commUnknown _).to_modInstrument _ _).to_plungerLost _

theorem Moves.to_takeMiss (b : Nat) (o : List Bool) (h : Moves ks r s)
    (hk : Kind.sub pollKinds ks = true := by decide) : Moves ks r (takeMiss b o s) :=
  h.andThen hk <| by
    simp only [takeMiss]
    refine Moves.to_endPoll b o _ ?_
    split
    · exact Moves.refl.to_modBoard b _
    · split
      · exact Moves.refl.to_modBoard b _
      · exact ((Moves.refl.to_modBoard b _).to_loseBoard b).to_raise _ _

theorem Moves.to_takeGood (b : Nat) (a : Answer) (o : List Bool) (h : Moves ks r s)
    (hk : Kind.sub pollKinds ks = true := by decide) : Moves ks r (takeGood b a o s) :=
  h.andThen hk <| by
    simp only [takeGood]
    refine Moves.to_endPoll b o _ ?_
    split
    · exact (Moves.refl.to_modBoard b _).to_takeAnswer b a
    · split
      · exact Moves.refl.to_modBoard b _
      · exact ((Moves.refl.to_modBoard b _).to_endCause _ _).to_takeAnswer b a

theorem Moves.to_takePosition (h : Moves ks r s)
    (hk : Kind.sub pollKinds ks = true := by decide) : Moves ks r (takePosition s) :=
  h.andThen hk <| by
    simp only [takePosition]
    refine Moves.scan _ _ (by decide) ?_
    split
    · exact Moves.refl.to_takeMiss _ _
    · exact .refl

end Sys2Proof.Machine
end

