-- ==== Sys2Proof/Laws/LinkMoves.lean ====
section
/-! SUPPORT. What the operations of the block links, of the start and of the self-tests can do. -/

set_option Elab.async false

namespace Sys2Proof.Machine

variable {ks : List Kind} {r s : State}

/-! ### Links -/

theorem Moves.to_restartData (k : Nat) (h : Moves ks r s)
    (hk : Kind.sub [.link] ks = true := by decide) : Moves ks r (restartData k s) :=
  h.andThen hk <| Moves.refl.to_modLink k _

theorem Moves.to_answerWith (k : Nat) (f : FrameType) (h : Moves ks r s)
    (hk : Kind.sub [.link] ks = true := by decide) : Moves ks r (answerWith k f s) :=
  h.andThen hk <| Moves.refl.to_modLink k _

theorem Moves.to_takeFrame (k : Nat) (t : FrameType) (items : List Item) (h : Moves ks r s)
    (hk : Kind.sub [.link] ks = true := by decide) : Moves ks r (takeFrame k t items s) :=
  h.andThen hk <| by
    simp only [takeFrame]
    split
    · exact Moves.refl.to_answerWith k _
    · exact (Moves.refl.to_modLink k _).to_answerWith k _
    · exact Moves.refl.to_answerWith k _
    · exact (Moves.refl.to_modLink k _).to_answerWith k _
    · exact (Moves.refl.to_modLink k _).to_answerWith k _
    · exact (Moves.refl.to_modLink k _).to_answerWith k _
    · split
      · exact Moves.refl.to_takeGo k
      · exact .refl
    · split
      · exact Moves.refl.to_bidFailed k
      · exact .refl
    · split
      · exact Moves.refl.to_takeTaken k
      · exact .refl
    · split
      · exact Moves.refl.to_dataFailed _ k
      · exact .refl
    · exact .refl

theorem Moves.to_validHeard (k : Nat) (h : Moves ks r s)
    (hk : Kind.sub raiseKinds ks = true := by decide) : Moves ks r (validHeard k s) :=
  h.andThen hk <| by
    simp only [validHeard]
    exact (Moves.refl.to_modLink k _).to_when _ fun _ =>
      (Moves.refl.to_endCause _ _).to_evalCoils k

theorem Moves.to_takeHeard (k : Nat) (x : Heard) (h : Moves ks r s)
    (hk : Kind.sub raiseKinds ks = true := by decide) : Moves ks r (takeHeard k x s) :=
  h.andThen hk <| by
    unfold takeHeard
    split
    · exact Moves.refl.to_restartData k
    · exact (Moves.refl.to_restartData k).to_when _ fun _ => Moves.refl.to_answerWith k _
    · split
      · exact (Moves.refl.to_validHeard k).to_takeFrame k _ _
      · split
        · split
          · exact ((Moves.refl.to_restartData k).to_answerWith k _).to_modLink k _
          · exact .refl
        · exact Moves.refl.to_takeFrame k _ _

theorem Moves.to_takeHeld (k : Nat) (h : Moves ks r s)
    (hk : Kind.sub raiseKinds ks = true := by decide) : Moves ks r (takeHeld k s) :=
  h.andThen hk <| by
    unfold takeHeld
    split
    · exact .refl
    · exact (Moves.refl.to_modLink k _).to_takeHeard k _

theorem Moves.to_hearChars (k : Nat) (bs : List Byte) (h : Moves ks r s)
    (hk : Kind.sub [.link] ks = true := by decide) : Moves ks r (hearChars k bs s) :=
  h.andThen hk <| Moves.refl.to_modLink k _ <| .inr (Link.receives_takeChars _ _ bs _).staged_eq.trans

theorem Moves.to_receiveFrame (k : Nat) (bs : List Byte) (h : Moves ks r s)
    (hk : Kind.sub raiseKinds ks = true := by decide) : Moves ks r (receiveFrame k bs s) :=
  h.andThen hk <| by
    unfold receiveFrame
    split
    · exact (Moves.refl.to_hearChars k bs).to_takeHeld k
    · exact .refl

theorem Moves.to_receiveChar (k : Nat) (c : Byte) (h : Moves ks r s)
    (hk : Kind.sub [.link] ks = true := by decide) : Moves ks r (receiveChar k c s) :=
  h.andThen hk <| by
    unfold receiveChar
    split
    · exact Moves.refl.to_hearChars k _
    · exact .refl

/-- The kinds of move by which an answer is followed. -/
abbrev frameKinds : List Kind := .link :: itemKinds

theorem Moves.to_afterAnswer (k : Nat) (f : FrameType) (h : Moves ks r s)
    (hk : Kind.sub frameKinds ks = true := by decide) : Moves ks r (afterAnswer k f s) :=
  h.andThen hk <| by
    unfold afterAnswer
    split
    · exact (Moves.refl.to_deliverItems k).to_modLink k _
    · exact .refl

theorem Moves.to_reportCrossed (k : Nat) (h : Moves ks r s)
    (hk : Kind.sub raiseKinds ks = true := by decide) : Moves ks r (reportCrossed k s) :=
  h.andThen hk <| by
    unfold reportCrossed
    split
    · exact (Moves.refl.to_modLink k _).to_raiseOnce _ _
    · exact .refl

theorem Moves.to_endFrame (k : Nat) (h : Moves ks r s)
    (hk : Kind.sub frameKinds ks = true := by decide) : Moves ks r (endFrame k s) :=
  h.andThen hk <| by
    have h1 := (Moves.refl (ks := frameKinds) (s := s)).to_modLink k
      fun l => { l with sending := none, heard := some s.now }
    simp only [endFrame]
    split
    · exact .refl
    · split
      · exact h1.to_modLink k _
      · exact h1.to_modLink k _
      · exact h1.to_modLink k _ (.inr fun h => (Link.yieldFlight_staged ..).trans h)
      · exact h1.to_afterAnswer k _

/-- The kinds of move by which a frame that a link has sent ends, whole or cut. -/
abbrev sendKinds : List Kind := .bell :: .reload :: raiseKinds

theorem Moves.to_frameSent (k : Nat) (h : Moves ks r s)
    (hk : Kind.sub sendKinds ks = true := by decide) : Moves ks r (frameSent k s) :=
  h.andThen hk <| (Moves.refl.to_endFrame k).to_reportCrossed k

theorem Moves.to_cutFrame (k : Nat) (h : Moves ks r s)
    (hk : Kind.sub frameKinds ks = true := by decide) : Moves ks r (cutFrame k s) :=
  h.andThen hk <| by
    have h1 := (Moves.refl (ks := frameKinds) (s := s)).to_modLink k
      fun l => { l with sending := none, heard := some s.now }
    simp only [cutFrame]
    split
    · exact .refl
    · split
      · exact h1.to_bidFailed k
      · exact h1.to_dataFailed _ k
      · exact h1.to_modLink k _ (.inr fun h => (Link.yieldFlight_staged ..).trans h)
      · exact h1.to_afterAnswer k _

theorem Moves.to_collide (k : Nat) (h : Moves ks r s)
    (hk : Kind.sub sendKinds ks = true := by decide) : Moves ks r (collide k s) :=
  h.andThen hk <| (Moves.refl.to_cutFrame k).to_reportCrossed k

theorem Moves.to_beginLoopback (k : Nat) (p : LoopbackFor) (h : Moves ks r s)
    (hk : Kind.sub [.link] ks = true := by decide) : Moves ks r (beginLoopback k p s) :=
  h.andThen hk <| Moves.refl.to_modLink k _

theorem Moves.to_loopbackSend (k : Nat) (h : Moves ks r s)
    (hk : Kind.sub [.link] ks = true := by decide) : Moves ks r (loopbackSend k s) :=
  h.andThen hk <| by
    simp only [loopbackSend]
    split
    · exact .refl
    · split
      · exact Moves.refl.to_modLink k _
      · exact .refl

theorem Moves.to_loopbackFail (k : Nat) (b : Loopback) (h : Moves ks r s)
    (hk : Kind.sub raiseKinds ks = true := by decide) : Moves ks r (loopbackFail k b s).1 :=
  h.andThen hk <| (Moves.refl.to_raiseOnce _ _).to_reportCrossed k

theorem Moves.to_loopbackTake (k : Nat) (bs : List Byte) (h : Moves ks r s)
    (hk : Kind.sub raiseKinds ks = true := by decide) : Moves ks r (loopbackTake k bs s).1 :=
  h.andThen hk <| by
    unfold loopbackTake
    split
    · exact .refl
    · split
      · exact .refl
      · split
        · split
          · exact Moves.refl.to_modLink k _
          · exact (Moves.refl.to_enterIdle k).to_reportCrossed k
        · exact Moves.refl.to_loopbackFail k _

theorem Moves.to_loopbackLate (k : Nat) (h : Moves ks r s)
    (hk : Kind.sub raiseKinds ks = true := by decide) : Moves ks r (loopbackLate k s).1 :=
  h.andThen hk <| by
    unfold loopbackLate
    split
    · exact .refl
    · split
      · exact Moves.refl.to_loopbackFail k _
      · exact .refl

/-! ### Self-tests and the start -/

theorem Moves.to_testEvaluators (h : Moves ks r s)
    (hk : Kind.sub raiseKinds ks = true := by decide) : Moves ks r (testEvaluators s) :=
  h.andThen hk <| Moves.refl.to_when _ fun _ => Moves.refl.to_raiseOnce _ _

theorem Moves.to_checkSignature (h : Moves ks r s)
    (hk : Kind.sub raiseKinds ks = true := by decide) : Moves ks r (checkSignature s) :=
  h.andThen hk <| by
    simp only [checkSignature]
    split
    · exact (Moves.refl.to_modFaults _).to_when _ fun _ => Moves.refl.to_endCause _ _
    · exact (Moves.refl.to_modFaults _).to_when _ fun _ => Moves.refl.to_raise _ _

theorem Moves.to_endConverterCheck (b : Bool) (h : Moves ks r s)
    (hk : Kind.sub raiseKinds ks = true := by decide) : Moves ks r (endConverterCheck b s) :=
  h.andThen hk <| ((Moves.refl.to_modFaults _).to_when _ fun _ => Moves.refl.to_raise _ _).to_when _
    fun _ => Moves.refl.to_endCause _ _

/-- The kinds of move by which a start ends. -/
abbrev startKinds : List Kind := .start :: .circuit :: .faults :: modeKinds

theorem Moves.to_endStart (m : Mode) (hm : m = .service → suspendStands s = false)
    (h : Moves ks r s) (hk : Kind.sub (.start :: modeKinds) ks = true := by decide) :
    Moves ks r (endStart m s) :=
  h.andThen hk <| by
    have h1 : Moves (.start :: modeKinds) s { s with start := none } := .start none (by decide) .refl
    have h2 : Moves (.start :: modeKinds) s (evaluateAll (enterMode m { s with start := none })) :=
      .serve m (by decide) hm h1
    unfold endStart
    exact h2.to_evalAllCoils.to_when _ fun _ => Moves.refl.to_modeToLinks

theorem Moves.to_testsFinished (h : Moves ks r s)
    (hk : Kind.sub startKinds ks = true := by decide) : Moves ks r (testsFinished s) :=
  h.andThen hk <| by
    have h1 := ((Moves.refl (ks := startKinds) (s := s)).to_forEach (circuitsOn s)
      (f := fun k s => s.modCircuit k fun c =>
        { c with nextWiring := some (s.now + (trackCfg s k).wiringInterval * 1000)
                 wiringKind := .pullUp }) fun k _ => Moves.refl.to_modCircuit k _)
    simp only [testsFinished]
    generalize forEach (circuitsOn s) _ s = t at h1 ⊢
    have h2 := h1.to_modFaults fun f =>
      { f with signatureAt := some (t.now + 10000), converterAt := some (t.now + 5000) }
    refine h2.to_endStart _ ?_
    intro hm
    by_contra hs
    rw [Bool.not_eq_false] at hs
    rw [hs] at hm
    cases hm

/-- The kinds of move by which a start goes on. -/
abbrev onKinds : List Kind := .start :: raiseKinds

theorem Moves.to_startLinks (ns : List Nat) (h : Moves ks r s)
    (hk : Kind.sub onKinds ks = true := by decide) : Moves ks r (startLinks ns s) :=
  h.andThen hk <| by
    clear h
    induction ns generalizing s with
    | nil => exact Moves.refl.to_testsFinished
    | cons k ns ih =>
      unfold startLinks
      split
      · exact (Moves.start _ (by decide) Moves.refl).to_beginLoopback k _
      · exact ih

theorem Moves.to_startAfterConverter (h : Moves ks r s)
    (hk : Kind.sub onKinds ks = true := by decide) : Moves ks r (startAfterConverter s) :=
  h.andThen hk <| Moves.refl.to_testEvaluators.to_startLinks _

theorem Moves.to_startAfterLink (k : Nat) (h : Moves ks r s)
    (hk : Kind.sub onKinds ks = true := by decide) : Moves ks r (startAfterLink k s) :=
  h.andThen hk <| Moves.refl.to_startLinks _

/-- The kinds of move by which the confinements are filled. -/
abbrev seedKinds : List Kind := [.circuit, .lever, .instrument, .inb, .link]

theorem Moves.to_seedConfinement (code c : Nat) (subject : Option Nat) (h : Moves ks r s)
    (hk : Kind.sub seedKinds ks = true := by decide) :
    Moves ks r (seedConfinement code c subject s) := h.andThen hk <| by
  simp only [seedConfinement]
  split
  · split
    · exact Moves.circuits _ (by decide) (fun _ => ⟨id, rfl⟩) (fun _ => id) .refl
    · exact .refl
  · split
    all_goals first
      | exact Moves.refl.to_modCircuit _ _
      | exact Moves.refl.to_modLever _ _
      | exact Moves.refl.to_modInstrument _ _
      | exact Moves.refl.to_modInb _ _
      | exact Moves.refl.to_modLink _ _
      | exact Moves.refl

theorem Moves.to_seedConfinements (h : Moves ks r s)
    (hk : Kind.sub seedKinds ks = true := by decide) : Moves ks r (seedConfinements s) :=
  h.andThen hk <| by
    have all : ∀ (rs : List FaultRecord) (t : State), Moves seedKinds s t →
        Moves seedKinds s (rs.foldl (fun s r => when (r.reaction != .report)
          (seedConfinement r.source r.source r.subject) s) t) := by
      intro rs
      induction rs with
      | nil => exact fun _ h => h
      | cons q rs ih => exact fun _ h => ih _ (h.to_when _ fun _ => Moves.refl.to_seedConfinement ..)
    simp only [seedConfinements]
    split
    · exact (all _ _ .refl).to_when _ fun _ => Moves.refl.to_seedConfinement ..
    · exact all _ _ .refl

end Sys2Proof.Machine
end

