-- ==== Sys2Proof/Laws/Frames.lean ====
section
/-! SUPPORT. What moves leave alone: a part of the state that no kind of move made touches is the same
after them. -/

set_option Elab.async false

namespace Sys2Proof.Machine

/-- The parts a kind of move touches. -/
def Kind.parts : Kind → List Part
  | .note => [.transmitter]
  | .record => [.register, .transmitter]
  | .circuit => [.tracks]
  | .fall => [.tracks]
  | .clear => [.tracks]
  | .converter => [.converter]
  | .board => [.boards]
  | .lever => [.levers]
  | .evaluate => [.levers, .faults, .transmitter]
  | .instrument => [.instruments]
  | .hold => [.holds]
  | .timer => [.timers]
  | .bell => [.bells]
  | .inb => [.inbound]
  | .outb => [.outbound]
  | .link => [.links]
  | .faults => [.faults]
  | .mode => [.mode, .levers, .faults, .register, .transmitter]
  | .tables => [.store]
  | .jobs => [.store]
  | .store => [.store]
  | .clock => [.register]
  | .flags => [.batch]
  | .batch => [.batch]
  | .receiver => [.receiver]
  | .transmit => [.transmitter]
  | .result => [.result]
  | .start => [.mode]
  | .scan => [.boards]
  | .time => []
  | .tick => [.boxTime]
  | .stage => []
  | .reload => [.store]
  | .begin => [.store, .tracks, .boards, .levers, .holds, .inbound, .outbound, .links]

/-- A part is the same in two states, field for field. -/
def Part.exactly (p : Part) (s u : State) : Prop :=
  match p with
  | .mode => u.mode = s.mode ∧ u.start = s.start
  | .store => u.store = s.store
  | .tracks => u.circuits = s.circuits
  | .converter => u.converter = s.converter
  | .boards => u.boards = s.boards ∧ u.scan = s.scan ∧ u.polled = s.polled
  | .levers => u.levers = s.levers
  | .instruments => u.instruments = s.instruments
  | .holds => u.holds = s.holds
  | .timers => u.timers = s.timers
  | .bells => u.bells = s.bells
  | .inbound => u.inbound = s.inbound
  | .outbound => u.outbound = s.outbound
  | .links => u.links = s.links
  | .register => u.register = s.register
  | .faults => u.faults = s.faults
  | .batch =>
    u.host.executing = s.host.executing ∧ u.host.waiting = s.host.waiting
      ∧ u.host.flags = s.host.flags ∧ u.host.warm = s.host.warm
  | .receiver => u.host.receiving = s.host.receiving
  | .result => u.host.lastResult = s.host.lastResult
  | .boxTime => u.tickAt = s.tickAt
  | .transmitter =>
    u.host.sending = s.host.sending ∧ u.host.ready = s.host.ready ∧ u.host.notices = s.host.notices

theorem Part.exactly_refl (p : Part) (s : State) : p.exactly s s := by
  cases p <;> simp [Part.exactly]

theorem Part.exactly_trans {p : Part} {s t u : State} (h : p.exactly s t) (g : p.exactly t u) :
    p.exactly s u := by
  cases p <;> simp only [Part.exactly] at h g ⊢ <;> simp_all

/-- A part that is exactly the same is the same. -/
theorem Part.same_of_exactly {p : Part} {s u : State} (h : p.exactly s u) : p.same s u := by
  cases p <;> simp only [Part.exactly, Part.same] at h ⊢ <;> simp_all

theorem Part.same_refl (p : Part) (s : State) : p.same s s :=
  Part.same_of_exactly (p.exactly_refl s)

theorem Part.same_trans {p : Part} {s t u : State} (h : p.same s t) (g : p.same t u) :
    p.same s u := by
  cases p <;> simp only [Part.same] at h g ⊢ <;> simp_all

/-! ### The operations behind one kind of move -/

/-- A change of the state that leaves a list of parts touched and everything else alone, the running
time too. -/
def Leaves (ps : List Part) (s u : State) : Prop :=
  u.pending = s.pending ∧ u.freeCount = s.freeCount ∧ u.now = s.now ∧ ∀ p, p ∉ ps → p.exactly s u

theorem Leaves.refl (ps : List Part) (s : State) : Leaves ps s s :=
  ⟨rfl, rfl, rfl, fun p _ => p.exactly_refl s⟩

theorem Leaves.trans {ps : List Part} {s t u : State} (h : Leaves ps s t) (g : Leaves ps t u) :
    Leaves ps s u :=
  ⟨g.1.trans h.1, g.2.1.trans h.2.1, g.2.2.1.trans h.2.2.1,
    fun p hp => Part.exactly_trans (h.2.2.2 p hp) (g.2.2.2 p hp)⟩

theorem Leaves.mono {ps qs : List Part} {s u : State} (h : Leaves ps s u) (hq : ∀ p ∈ ps, p ∈ qs) :
    Leaves qs s u :=
  ⟨h.1, h.2.1, h.2.2.1, fun p hp => h.2.2.2 p fun hm => hp (hq p hm)⟩

theorem leaves_raiseKey (key : Key) (mask : Word32) (s : State) :
    Leaves [.transmitter] s (raiseKey key mask s) :=
  ⟨rfl, rfl, rfl, fun p hp => by cases p <;> simp [Part.exactly, raiseKey] at hp ⊢⟩

theorem leaves_append (e : Event) (s : State) : Leaves [.register, .transmitter] s (append e s) :=
  ⟨rfl, rfl, rfl, fun p hp => by cases p <;> simp [Part.exactly, append, raiseKey] at hp ⊢⟩

theorem leaves_when {ps : List Part} {f : State → State} (c : Bool) (s : State)
    (hf : Leaves ps s (f s)) : Leaves ps s (when c f s) := by
  cases c
  · exact .refl ps s
  · exact hf

theorem leaves_forEach {ps : List Part} {f : Nat → State → State} (ns : List Nat)
    (hf : ∀ n s, Leaves ps s (f n s)) (s : State) : Leaves ps s (forEach ns f s) :=
  forEach_keeps (I := Leaves ps s) ns (fun n _ t ht => ht.trans (hf n t)) s (.refl ps s)

theorem leaves_modFaults (g : Faults → Faults) (s : State) : Leaves [.faults] s (s.modFaults g) :=
  ⟨rfl, rfl, rfl, fun p hp => by cases p <;> simp [Part.exactly] at hp ⊢⟩

theorem leaves_modLever (k : Nat) (g : Lever → Lever) (s : State) :
    Leaves [.levers] s (s.modLever k g) :=
  ⟨rfl, rfl, rfl, fun p hp => by cases p <;> simp [Part.exactly] at hp ⊢⟩

theorem leaves_changeLever (k : Nat) (g : Lever → Lever) (s : State) :
    Leaves [.levers, .transmitter] s (changeLever k g s) :=
  ((leaves_modLever k g s).mono (by simp)).trans (leaves_when _ _ ((leaves_raiseKey _ _ _).mono (by simp)))

theorem leaves_latchRecord (c : Nat) (subject : Option Nat) (s : State) :
    Leaves [.faults, .transmitter] s (latchRecord c subject s) := by
  unfold latchRecord
  split
  · exact .refl _ s
  · exact ((leaves_modFaults _ s).mono (by simp)).trans ((leaves_raiseKey _ _ _).mono (by simp))

theorem leaves_evaluate (k : Nat) (s : State) :
    Leaves [.levers, .faults, .transmitter] s (evaluate k s) := by
  simp only [evaluate]
  exact ((leaves_changeLever k _ s).mono (by simp)).trans
    (leaves_when _ _ ((leaves_latchRecord _ _ _).mono (by simp)))

theorem leaves_evaluateAll (s : State) :
    Leaves [.levers, .faults, .transmitter] s (evaluateAll s) :=
  leaves_forEach _ leaves_evaluate s

theorem leaves_endReleasesForMode (s : State) :
    Leaves [.levers, .transmitter] s (endReleasesForMode s) :=
  leaves_forEach _ (fun k s => leaves_changeLever k _ s) s

theorem leaves_takeMode (m : Mode) (s : State) :
    Leaves [.mode, .transmitter] s (takeMode m s) := by
  have h1 : Leaves [.mode, .transmitter] s { s with mode := some m } :=
    ⟨rfl, rfl, rfl, fun p hp => by cases p <;> simp [Part.exactly] at hp ⊢⟩
  exact h1.trans ((leaves_raiseKey _ _ _).mono (by simp))

theorem leaves_enterMode (m : Mode) (s : State) :
    Leaves [.mode, .register, .transmitter] s (enterMode m s) :=
  ((leaves_append _ _).mono (by simp)).trans ((leaves_takeMode m _).mono (by simp))

theorem leaves_serve (m : Mode) (s : State) :
    Leaves (Kind.parts .mode) s (evaluateAll (enterMode m s)) :=
  ((leaves_enterMode m s).mono (by simp [Kind.parts])).trans
    ((leaves_evaluateAll _).mono (by simp [Kind.parts]))

theorem leaves_restrict (m : Mode) (s : State) :
    Leaves (Kind.parts .mode) s (evaluateAll (endReleasesForMode (takeMode m s))) :=
  (((leaves_takeMode m s).mono (by simp [Kind.parts])).trans
    ((leaves_endReleasesForMode _).mono (by simp [Kind.parts]))).trans
    ((leaves_evaluateAll _).mono (by simp [Kind.parts]))

theorem leaves_countOccurrence (c : Nat) (subject : Option Nat) (s : State) :
    Leaves [.faults] s (countOccurrence c subject s) := by
  unfold countOccurrence
  split
  · exact leaves_modFaults _ s
  · split <;> exact leaves_modFaults _ s

/-! ### Moves -/

/-- What moves of some kinds leave alone: every part that none of the kinds touches, the queue, the
count of free values, and the running time where no kind is its own. -/
def Untouched (ks : List Kind) (s u : State) : Prop :=
  (∀ p : Part, (∀ k ∈ ks, p ∉ k.parts) → p.exactly s u)
    ∧ u.pending = s.pending ∧ u.freeCount = s.freeCount ∧ (.time ∉ ks → u.now = s.now)

theorem Untouched.refl (ks : List Kind) (s : State) : Untouched ks s s :=
  ⟨fun p _ => p.exactly_refl s, rfl, rfl, fun _ => rfl⟩

/-- A change that leaves alone all but parts the kinds touch follows. -/
theorem Untouched.after {ks : List Kind} {ps : List Part} {s t u : State} (h : Untouched ks s t)
    (g : Leaves ps t u) (hps : ∀ q ∈ ps, ∃ k ∈ ks, q ∈ k.parts) : Untouched ks s u :=
  ⟨fun p hp => Part.exactly_trans (h.1 p hp) (g.2.2.2 p fun hm => by
      obtain ⟨k, hk, hq⟩ := hps p hm
      exact hp k hk hq),
    g.1.trans h.2.1, g.2.1.trans h.2.2.1, fun ht => g.2.2.1.trans (h.2.2.2 ht)⟩

/-- Moves leave alone what none of their kinds touches. -/
theorem Moves.untouched {ks : List Kind} {s u : State} (h : Moves ks s u) : Untouched ks s u := by
  induction h with
  | refl => exact .refl _ _
  | note key mask hk _ ih => exact ih.after (leaves_raiseKey key mask _) fun q hq => ⟨_, hk, hq⟩
  | record e hk _ ih => exact ih.after (leaves_append e _) fun q hq => ⟨_, hk, hq⟩
  | lever k g hk _ _ ih => exact ih.after (leaves_modLever k g _) fun q hq => ⟨_, hk, hq⟩
  | eval k hk _ ih => exact ih.after (leaves_evaluate k _) fun q hq => ⟨_, hk, hq⟩
  | @relever ks _ s0 t k g hk _ ht _ iht ih =>
    have h1 : Leaves [.levers, .transmitter] s0 t := (leaves_changeLever k g s0).trans
      ⟨iht.2.1, iht.2.2.1, iht.2.2.2 (by decide), fun p hp => iht.1 p fun q hq hm => hp (by
        rw [List.mem_singleton.1 hq, Kind.parts] at hm; exact .tail _ hm)⟩
    exact ih.after ((h1.mono (by simp)).trans (leaves_evaluate k t)) fun q hq => ⟨_, hk, hq⟩
  | faults g hk _ _ ih => exact ih.after (leaves_modFaults g _) fun q hq => ⟨_, hk, hq⟩
  | @cause ks _ s0 t c subject hk ht _ iht ih =>
    have h1 := ih.after (leaves_countOccurrence c subject s0) fun q hq =>
      ⟨.faults, hk _ (by decide), hq⟩
    have h2 := h1.after (leaves_append (.faultRaised c subject (occurrence s0 c subject).reaction
      (occurrence s0 c subject).count) _) fun q hq => ⟨.record, hk _ (by decide), hq⟩
    have h3 : Untouched ks _ t :=
      ⟨fun p hp => Part.exactly_trans (h2.1 p hp) (iht.1 p fun k hm => hp k (hk k (.tail _ hm))),
        iht.2.1.trans h2.2.1, iht.2.2.1.trans h2.2.2.1,
        fun ht => (iht.2.2.2 (by decide)).trans (h2.2.2.2 ht)⟩
    unfold suspendFor
    split
    · exact h3.after (leaves_restrict _ _) fun q hq => ⟨.mode, hk _ (by decide), hq⟩
    · exact h3
  | restrict m hk _ _ ih => exact ih.after (leaves_restrict m _) fun q hq => ⟨_, hk, hq⟩
  | serve m hk _ _ ih => exact ih.after (leaves_serve m _) fun q hq => ⟨_, hk, hq⟩
  | circuit k g hk _ _ _ ih =>
    refine ⟨fun p hp => Part.exactly_trans (ih.1 p hp) ?_, ih.2⟩
    have := hp _ hk
    cases p <;> simp [Part.exactly, Kind.parts] at this ⊢
  | circuits g hk _ _ _ ih =>
    refine ⟨fun p hp => Part.exactly_trans (ih.1 p hp) ?_, ih.2⟩
    have := hp _ hk
    cases p <;> simp [Part.exactly, Kind.parts] at this ⊢
  | fall k g hk _ _ _ ih =>
    refine ⟨fun p hp => Part.exactly_trans (ih.1 p hp) ?_, ih.2⟩
    have := hp _ hk
    cases p <;> simp [Part.exactly, Kind.parts] at this ⊢
  | clear k l hk _ _ _ ih =>
    refine ⟨fun p hp => Part.exactly_trans (ih.1 p hp) ?_, ih.2⟩
    have := hp _ hk
    cases p <;> simp [Part.exactly, Kind.parts] at this ⊢
  | converter g hk _ ih =>
    refine ⟨fun p hp => Part.exactly_trans (ih.1 p hp) ?_, ih.2⟩
    have := hp _ hk
    cases p <;> simp [Part.exactly, Kind.parts] at this ⊢
  | board k g hk _ ih =>
    refine ⟨fun p hp => Part.exactly_trans (ih.1 p hp) ?_, ih.2⟩
    have := hp _ hk
    cases p <;> simp [Part.exactly, Kind.parts] at this ⊢
  | instrument k g hk _ ih =>
    refine ⟨fun p hp => Part.exactly_trans (ih.1 p hp) ?_, ih.2⟩
    have := hp _ hk
    cases p <;> simp [Part.exactly, Kind.parts] at this ⊢
  | hold k g hk _ ih =>
    refine ⟨fun p hp => Part.exactly_trans (ih.1 p hp) ?_, ih.2⟩
    have := hp _ hk
    cases p <;> simp [Part.exactly, Kind.parts] at this ⊢
  | timer k g hk _ _ ih =>
    refine ⟨fun p hp => Part.exactly_trans (ih.1 p hp) ?_, ih.2⟩
    have := hp _ hk
    cases p <;> simp [Part.exactly, Kind.parts] at this ⊢
  | bell k g hk _ _ ih =>
    refine ⟨fun p hp => Part.exactly_trans (ih.1 p hp) ?_, ih.2⟩
    have := hp _ hk
    cases p <;> simp [Part.exactly, Kind.parts] at this ⊢
  | inb k g hk _ ih =>
    refine ⟨fun p hp => Part.exactly_trans (ih.1 p hp) ?_, ih.2⟩
    have := hp _ hk
    cases p <;> simp [Part.exactly, Kind.parts] at this ⊢
  | outb k g hk _ _ ih =>
    refine ⟨fun p hp => Part.exactly_trans (ih.1 p hp) ?_, ih.2⟩
    have := hp _ hk
    cases p <;> simp [Part.exactly, Kind.parts] at this ⊢
  | link k g hk _ _ ih =>
    refine ⟨fun p hp => Part.exactly_trans (ih.1 p hp) ?_, ih.2⟩
    have := hp _ hk
    cases p <;> simp [Part.exactly, Kind.parts] at this ⊢
  | store g hk _ _ ih =>
    refine ⟨fun p hp => Part.exactly_trans (ih.1 p hp) ?_, ih.2⟩
    have := hp _ hk
    cases p <;> simp [Part.exactly, Kind.parts] at this ⊢
  | tables g hk _ ih =>
    refine ⟨fun p hp => Part.exactly_trans (ih.1 p hp) ?_, ih.2⟩
    have := hp _ hk
    cases p <;> simp [Part.exactly, Kind.parts, State.modTables] at this ⊢
  | jobs q w hk _ ih =>
    refine ⟨fun p hp => Part.exactly_trans (ih.1 p hp) ?_, ih.2⟩
    have := hp _ hk
    cases p <;> simp [Part.exactly, Kind.parts, queueJob] at this ⊢
  | tick n hk _ ih =>
    refine ⟨fun p hp => Part.exactly_trans (ih.1 p hp) ?_, ih.2⟩
    have := hp _ hk
    cases p <;> simp [Part.exactly, Kind.parts] at this ⊢
  | reload a b v hk _ _ ih =>
    refine ⟨fun p hp => Part.exactly_trans (ih.1 p hp) ?_, ih.2⟩
    have := hp _ hk
    cases p <;> simp [Part.exactly, Kind.parts, applyStaged, queueJob, State.modTables] at this ⊢
  | clock g hk _ _ ih =>
    refine ⟨fun p hp => Part.exactly_trans (ih.1 p hp) ?_, ih.2⟩
    have := hp _ hk
    cases p <;> simp [Part.exactly, Kind.parts] at this ⊢
  | start q hk _ ih =>
    refine ⟨fun p hp => Part.exactly_trans (ih.1 p hp) ?_, ih.2⟩
    have := hp _ hk
    cases p <;> simp [Part.exactly, Kind.parts] at this ⊢
  | scan n q hk _ ih =>
    refine ⟨fun p hp => Part.exactly_trans (ih.1 p hp) ?_, ih.2⟩
    have := hp _ hk
    cases p <;> simp [Part.exactly, Kind.parts] at this ⊢
  | begin i hk _ _ ih =>
    refine ⟨fun p hp => Part.exactly_trans (ih.1 p hp) ?_, ih.2⟩
    have := hp _ hk
    cases p <;> simp [Part.exactly, Kind.parts, startBlocks] at this ⊢
  | @host ks _ s0 g hg _ ih =>
    refine ⟨fun p hp => Part.exactly_trans (ih.1 p hp) ?_, ih.2⟩
    obtain ⟨h1, h2, h3, h4, h5, -⟩ := hg
    have away : ∀ {k : Kind}, p ∈ k.parts → k ∉ ks := fun hm hk => hp _ hk hm
    cases p <;> first
      | exact rfl
      | exact ⟨rfl, rfl⟩
      | exact ⟨rfl, rfl, rfl⟩
      | skip
    · have b := h1.resolve_left (away (by decide))
      have f := h2.resolve_left (away (by decide))
      exact ⟨b.1, b.2.1, f, b.2.2⟩
    · exact h3.resolve_left (away (by decide))
    · exact h5.resolve_left (away (by decide))
    · exact h4.resolve_left (away (by decide))
  | time t hk _ ih =>
    exact ⟨fun p hp => Part.exactly_trans (ih.1 p hp) (by cases p <;> simp [Part.exactly]),
      ih.2.1, ih.2.2.1, fun hn => absurd hk hn⟩

/-- Moves of kinds that do not touch a part leave it exactly as it was. -/
theorem Moves.exactly {ks : List Kind} {s u : State} (h : Moves ks s u) (p : Part)
    (hp : ∀ k ∈ ks, p ∉ k.parts := by decide) : p.exactly s u := h.untouched.1 p hp

end Sys2Proof.Machine
end

