-- ==== Sys2Proof/Laws/HostMoves.lean ====
section
/-! SUPPORT. What the start, the host commands, the batches and the end of a step can do. -/

set_option Elab.async false

namespace Sys2Proof.Machine

variable {ks : List Kind} {r s : State}

/-! ### The start -/

/-- The kinds of move of a start. -/
abbrev runKinds : List Kind := .begin :: .start :: .converter :: .store :: raiseKinds

theorem Moves.to_runStart (c : ResetCause) (hi : s.store.inForce = none) (h : Moves ks r s)
    (hk : Kind.sub runKinds ks = true := by decide) : Moves ks r (runStart c s) :=
  h.andThen hk <| by
    have h1 := (((Moves.refl (ks := runKinds) (s := s)).to_append (.reset c)).to_modStore fun st =>
      { st with imageState := (append (.reset c) s).store.found })
    have hs : (State.modStore (append (.reset c) s) fun st =>
        { st with imageState := (append (.reset c) s).store.found }).store.inForce = none := hi
    simp only [runStart]
    generalize State.modStore _ _ = t at h1 hs ⊢
    split
    · next st _ _ =>
      have hseed : (seedConfinements t).store = t.store :=
        (Moves.refl (ks := seedKinds) (s := t)).to_seedConfinements.exactly .store
      exact (Moves.begin st.image (by decide) (by rw [hseed]; exact hs)
        h1.to_seedConfinements).to_requestReferences _
    · exact ((h1.to_modFaults _).to_raise _ _).to_endStart _ (by simp)
    · exact h1.to_endStart _ (by simp)

/-! ### Commands of the blocks -/

theorem Moves.to_modHost (g : HostPort → HostPort) (h : Moves ks r s)
    (hg : HostPort.Alters ks s.host (g s.host)) : Moves ks r (s.modHost g) := .host g hg h

theorem Moves.to_setFlag (f : Nat) (v : Bool) (h : Moves ks r s)
    (hk : Kind.sub [.flags] ks = true := by decide) : Moves ks r (setFlag f v s) :=
  h.andThen hk <| Moves.refl.to_modHost _
    ⟨.inr ⟨rfl, rfl, rfl⟩, .inl (by decide), .inr rfl, .inr ⟨rfl, rfl, rfl⟩, .inr rfl, id,
      fun h => by simpa using h⟩

theorem Moves.to_test (ok : Bool) (f : Nat) (v : Bool) (d : List Byte) (h : Moves ks r s)
    (hk : Kind.sub [.flags] ks = true := by decide) : Moves ks r (test ok f v d s).1 :=
  h.andThen hk <| by
    unfold test
    split
    · exact Moves.refl.to_setFlag f v
    · exact .refl

theorem read_state (first count most last : Nat) (record : State → Nat → List Byte) (s : State) :
    (read first count most last record s).1 = s := by
  unfold read
  split <;> rfl

theorem Moves.to_cmdLearn (k : Nat) (h : Moves ks r s)
    (hk : Kind.sub [.circuit] ks = true := by decide) : Moves ks r (cmdLearn k s).1 :=
  h.andThen hk <| by
    unfold cmdLearn
    split
    · exact .refl
    · split
      · exact .refl
      · split
        · exact .refl
        · exact Moves.refl.to_modCircuit k _

theorem Moves.to_ownerRequested (o : OwnerKind × Nat) (h : Moves ks r s)
    (hk : Kind.sub [.note, .record, .evaluate, .hold] ks = true := by decide) :
    Moves ks r (ownerRequested o s) := h.andThen hk <| by
  unfold ownerRequested
  split
  · exact (Moves.refl.to_setHold _ _).to_evaluateHold _
  · exact .refl
  · exact Moves.refl.to_evaluate _

theorem Moves.to_cmdRequestRelease (k : Nat) (h : Moves ks r s)
    (hk : Kind.sub holdKinds ks = true := by decide) : Moves ks r (cmdRequestRelease k s).1 :=
  h.andThen hk <| by
    simp only [cmdRequestRelease]
    split
    · exact .refl
    · split
      · exact .refl
      · split
        · exact .refl
        · split
          · exact .refl
          · exact ((((Moves.refl.to_modTimer k _).to_append _).to_noteRelease k).to_ownerRequested
              _).to_evaluateRelease k

theorem Moves.to_ownerCancelled (o : OwnerKind × Nat) (h : Moves ks r s)
    (hk : Kind.sub [.note, .record, .evaluate, .hold] ks = true := by decide) :
    Moves ks r (ownerCancelled o s) := h.andThen hk <| by
  unfold ownerCancelled
  split
  · exact (Moves.refl.to_setHold _ _).to_evaluateHold _
  · exact .refl
  · exact Moves.refl.to_evaluate _

theorem Moves.to_cmdCancelRelease (k : Nat) (h : Moves ks r s)
    (hk : Kind.sub holdKinds ks = true := by decide) : Moves ks r (cmdCancelRelease k s).1 :=
  h.andThen hk <| by
    simp only [cmdCancelRelease]
    split
    · exact .refl
    · split
      · exact .refl
      · split
        · exact .refl
        · exact ((Moves.refl.to_cancelTimer _ k).to_ownerCancelled _).to_evaluateRelease k

theorem Moves.to_cmdSendCode (k : Nat) (groups : List Nat) (h : Moves ks r s)
    (hk : Kind.sub [.bell] ks = true := by decide) : Moves ks r (cmdSendCode k groups s).1 :=
  h.andThen hk <| by
    unfold cmdSendCode
    split
    · exact .refl
    · split
      · exact .refl
      · split
        · exact .refl
        · exact Moves.refl.to_openHostCode k _

theorem Moves.to_cmdTestLink (w : Waiter) (k : Nat) (h : Moves ks r s)
    (hk : Kind.sub [.link] ks = true := by decide) : Moves ks r (cmdTestLink w k s).1 :=
  h.andThen hk <| by
    simp only [cmdTestLink]
    split
    · exact .refl
    · split
      · exact .refl
      · split
        · exact .refl
        · split
          · exact .refl
          · split
            · exact .refl
            · exact Moves.refl.to_beginLoopback k _

theorem Moves.to_cmdTestTable (w : Waiter) (h : Moves ks r s)
    (hk : Kind.sub (.converter :: raiseKinds) ks = true := by decide) :
    Moves ks r (cmdTestTable w s).1 := h.andThen hk <| by
  unfold cmdTestTable
  split
  · exact .refl
  · split
    · exact .refl
    · exact Moves.refl.to_checkSignature.to_requestReferences _

theorem Moves.to_cmdAdvanceRegister (n : Nat) (h : Moves ks r s)
    (hk : Kind.sub [.clock] ks = true := by decide) : Moves ks r (cmdAdvanceRegister n s).1 :=
  h.andThen hk <| by
    simp only [cmdAdvanceRegister, reply]
    exact Moves.clock (ks := [.clock]) _ (by decide)
      (fun h => ⟨h.1, (Nat.sub_le _ _).trans h.2.1, h.2.2⟩) .refl

theorem Moves.to_cmdSetClock (day tenths : Nat) (h : Moves ks r s)
    (hk : Kind.sub [.note, .clock, .record, .tick] ks = true := by decide) :
    Moves ks r (cmdSetClock day tenths s).1 := h.andThen hk <| by
  unfold cmdSetClock
  split
  · exact .refl
  · next ht =>
    have h1 : Moves [.note, .clock, .record, .tick] s
        (s.modRegister fun r => { r with day := day % 65536, tenths := tenths }) :=
      .clock _ (by decide) (fun h => ⟨h.1, h.2.1, h.2.2.1, h.2.2.2.1,
        Nat.mod_lt _ (by decide), show tenths < 864000 by omega⟩) .refl
    exact (h1.tick (s.now + 100) (by decide)).to_append _

theorem Moves.to_cmdTestFault (f c n v : Nat) (h : Moves ks r s)
    (hk : Kind.sub [.flags] ks = true := by decide) : Moves ks r (cmdTestFault f c n v s).1 :=
  h.andThen hk <| by
    unfold cmdTestFault
    split
    · exact .refl
    · exact Moves.refl.to_test _ f _ _

/-- Removing the overflow record's contents eases the Fault Monitor. -/
theorem Faults.eases_clearOverflow (f : Faults) :
    f.Eases { f with overflowCount := 0, overflowLast := none, overflowReaction := none } := by
  refine ⟨fun h => ⟨h.1, h.2.1, h.2.2.1, Nat.zero_le _⟩, fun h => ?_⟩
  simp only [Faults.suspends, Bool.or_eq_false_iff] at h ⊢
  exact ⟨h.1, rfl⟩

theorem Moves.to_clearOverflow (h : Moves ks r s)
    (hk : Kind.sub raiseKinds ks = true := by decide) : Moves ks r (clearOverflow s).1 :=
  h.andThen hk <| by
    simp only [clearOverflow]
    split
    · exact .refl
    · exact (((Moves.refl.to_modFaults _ (Faults.eases_clearOverflow _)).to_append
        _).to_unconfineOverflow).to_noteFault _

theorem Moves.to_cmdClearFault (c n : Nat) (h : Moves ks r s)
    (hk : Kind.sub raiseKinds ks = true := by decide) : Moves ks r (cmdClearFault c n s).1 :=
  h.andThen hk <| by
    unfold cmdClearFault
    split
    · exact .refl
    · split
      · exact Moves.refl.to_clearOverflow
      · split
        · exact .refl
        · split
          · exact .refl
          · exact ((Moves.refl.to_clearRecord _ _).to_unconfine _ _ _).to_noteFault _

/-- The kinds of move of RESUME. -/
abbrev resumeKinds : List Kind := .hold :: .timer :: modeKinds

theorem Moves.to_cmdResume (h : Moves ks r s)
    (hk : Kind.sub resumeKinds ks = true := by decide) : Moves ks r (cmdResume s).1 :=
  h.andThen hk <| by
    unfold cmdResume
    split
    · exact .refl
    · next hs =>
      have hs' : suspendStands s = false := by
        simp only [Bool.or_eq_true, not_or, Bool.not_eq_true] at hs
        exact hs.2
      dsimp only [reply]
      exact Moves.to_resumeService hs' .refl

/-! ### Commands on tables -/

theorem Moves.to_cmdTakeOut (w : Waiter) (k : Nat) (h : Moves ks r s)
    (hk : Kind.sub [.note, .lever, .evaluate, .tables, .jobs] ks = true := by decide) :
    Moves ks r (cmdTakeOut w k s).1 := h.andThen hk <| by
  simp only [cmdTakeOut]
  split
  · exact .refl
  · split
    · exact .refl
    · split
      · exact .refl
      · split
        · exact .refl
        · split
          · exact .refl
          · exact ((((Moves.refl.to_changeLever k _ ⟨⟨id, id⟩, rfl, rfl, rfl, rfl, rfl,
              rfl⟩).to_modTables _).to_queueJob _ _).to_evaluate k).to_evaluateNamingLever k

theorem Moves.to_cmdBringIn (w : Waiter) (k : Nat) (h : Moves ks r s)
    (hk : Kind.sub [.jobs] ks = true := by decide) : Moves ks r (cmdBringIn w k s).1 :=
  h.andThen hk <| by
    simp only [cmdBringIn]
    split
    · exact .refl
    · split
      · exact .refl
      · split
        · exact .refl
        · split
          · exact .refl
          · split
            · exact .refl
            · exact Moves.refl.to_queueJob _ _

theorem Moves.to_broughtIn (k : Nat) (l : CondList) (h : Moves ks r s)
    (hk : Kind.sub [.note, .lever, .evaluate, .tables] ks = true := by decide) :
    Moves ks r (broughtIn k l s) :=
  h.andThen hk <| (((Moves.refl.to_modTables _).to_changeLever k _ ⟨⟨id, id⟩, rfl, rfl, rfl, rfl,
    rfl, rfl⟩).to_evaluate k).to_evaluateNamingLever k

theorem Moves.to_cmdOpenEdit (h : Moves ks r s)
    (hk : Kind.sub (.store :: modeKinds) ks = true := by decide) : Moves ks r (cmdOpenEdit s).1 :=
  h.andThen hk <| by
    unfold cmdOpenEdit
    split
    · exact .refl
    · split
      · exact .refl
      · split
        · exact .refl
        · split
          · exact .refl
          · exact (Moves.refl.to_modStore _).to_restrictMode _ (by decide)

theorem Moves.to_cmdAbandon (h : Moves ks r s)
    (hk : Kind.sub [.circuit, .store] ks = true := by decide) : Moves ks r (cmdAbandon s).1 :=
  h.andThen hk <| by
    unfold cmdAbandon
    split
    · exact .refl
    · split
      · exact .refl
      · have h1 := Moves.circuits (ks := [.circuit, .store]) (s := s)
          (fun c : Circuit => { c with learning := none }) (by decide) (fun _ => ⟨id, rfl⟩)
          (fun _ => id) .refl
        exact h1.to_modStore fun st => { st with work := none }

theorem Moves.to_cmdCommit (w : Waiter) (h : Moves ks r s)
    (hk : Kind.sub [.jobs] ks = true := by decide) : Moves ks r (cmdCommit w s).1 :=
  h.andThen hk <| by
    simp only [cmdCommit]
    split
    · exact .refl
    · split
      · exact .refl
      · split
        · exact .refl
        · split
          · exact .refl
          · exact Moves.refl.to_queueJob _ _

theorem Moves.to_writeCopy (n : Nat) (c : Option Cond) (h : Moves ks r s)
    (hk : Kind.sub [.evaluate] ks = true := by decide) : Moves ks r (writeCopy n c s) :=
  h.andThen hk <| Moves.refl.to_relever _ _

theorem Moves.to_writeValue (w : Waiter) (n : Nat) (v : Value) (h : Moves ks r s)
    (hk : Kind.sub [.evaluate, .store, .jobs] ks = true := by decide) :
    Moves ks r (writeValue w n v s).1 := h.andThen hk <| by
  unfold writeValue
  split
  · split
    · exact .refl
    · exact Moves.refl.to_modStore fun st => { st with work := st.work.map fun i => i.set n v }
  · split
    · exact Moves.refl.to_writeCopy n _
    · split
      · exact .refl
      · exact Moves.refl.to_queueJob _ _
    · exact .refl

theorem Moves.to_cmdWriteTable (w : Waiter) (t n : Nat) (bs : List Byte) (h : Moves ks r s)
    (hk : Kind.sub [.evaluate, .store, .jobs] ks = true := by decide) :
    Moves ks r (cmdWriteTable w t n bs s).1 := h.andThen hk <| by
  unfold cmdWriteTable
  split
  · exact .refl
  · split
    · exact .refl
    · split
      · exact .refl
      · split
        · exact .refl
        · exact Moves.refl.to_writeValue w n _

theorem cmdReadTable_state (t n : Nat) (s : State) : (cmdReadTable t n s).1 = s := by
  unfold cmdReadTable
  split
  · rfl
  · split
    · rfl
    · split
      · rfl
      · split <;> rfl

theorem Moves.to_stageTrack (k f v : Nat) (h : Moves ks r s)
    (hk : Kind.sub (.stage :: .reload :: raiseKinds) ks = true := by decide) :
    Moves ks r (stageTrack k f v s).1 := h.andThen hk <| by
  simp only [stageTrack]
  split
  · exact .refl
  · split
    · exact .refl
    · have h1 := (Moves.refl (ks := .stage :: .reload :: raiseKinds) (s := s)).to_modCircuit k
        fun c => { c with staged := putStaged f v c.staged }
      simp only [reply]
      split
      · exact (h1.to_reloadTrack k).to_marginTest k
      · exact h1

theorem Moves.to_stageTimer (k f v : Nat) (h : Moves ks r s)
    (hk : Kind.sub [.note, .timer, .stage, .reload] ks = true := by decide) :
    Moves ks r (stageTimer k f v s).1 := h.andThen hk <| by
  simp only [stageTimer]
  split
  · exact .refl
  · split
    · exact .refl
    · generalize (!if f = 4 then inRange v 10 600 else inRange v 10 300) = b
      cases b
      · exact (Moves.refl.to_modTimer k _).to_reloadTimer k
      · exact .refl

theorem Moves.to_stageBell (k f v : Nat) (h : Moves ks r s)
    (hk : Kind.sub [.note, .bell, .stage, .reload] ks = true := by decide) :
    Moves ks r (stageBell k f v s).1 := h.andThen hk <| by
  simp only [stageBell]
  split
  · exact .refl
  · split
    · exact .refl
    · exact (Moves.refl.to_modBell k _).to_reloadBell k

theorem Moves.to_stageLine (n f v : Nat) (h : Moves ks r s)
    (hk : Kind.sub [.note, .outb, .stage, .reload] ks = true := by decide) :
    Moves ks r (stageLine n f v s).1 := h.andThen hk <| by
  simp only [stageLine]
  split
  · exact .refl
  · split
    · exact .refl
    · exact (Moves.refl.to_modOutb _ _).to_reloadLine _

theorem Moves.to_stageLink (k f v : Nat) (h : Moves ks r s)
    (hk : Kind.sub [.note, .link, .stage, .reload] ks = true := by decide) :
    Moves ks r (stageLink k f v s).1 := h.andThen hk <| by
  simp only [stageLink]
  split
  · exact .refl
  · split
    · exact .refl
    · exact (Moves.refl.to_modLink k _).to_reloadLink k

/-- The kinds of move of STAGE. -/
abbrev stageKinds : List Kind := .bell :: .stage :: .reload :: raiseKinds

theorem Moves.to_cmdStage (t n f : Nat) (v : List Byte) (h : Moves ks r s)
    (hk : Kind.sub stageKinds ks = true := by decide) : Moves ks r (cmdStage t n f v s).1 :=
  h.andThen hk <| by
    unfold cmdStage
    split
    · exact .refl
    · split
      · exact .refl
      · split
        · exact .refl
        · split
          · exact .refl
          · split
            · exact .refl
            · split
              · exact Moves.refl.to_stageLink n f _
              · exact Moves.refl.to_stageBell n f _
              · exact Moves.refl.to_stageTrack n f _
              · exact Moves.refl.to_stageTimer n f _
              · exact Moves.refl.to_stageLine n f _

/-! ### Batches -/

/-- The kinds of move of the commands. -/
abbrev commandKinds : List Kind :=
  .flags :: .clock :: .tick :: .converter :: .store :: .tables :: .jobs :: stageKinds

theorem Moves.to_runCommand (w : Waiter) (code : Nat) (ps : List Byte) (h : Moves ks r s)
    (hk : Kind.sub commandKinds ks = true := by decide) : Moves ks r (runCommand w code ps s).1 :=
  h.andThen hk <| by
    simp only [runCommand]
    split <;> first
      | exact Moves.refl
      | exact Moves.refl.to_test _ _ _ _
      | exact Moves.refl.to_cmdLearn _
      | exact Moves.refl.to_cmdTakeOut w _
      | exact Moves.refl.to_cmdBringIn w _
      | exact Moves.refl.to_cmdRequestRelease _
      | exact Moves.refl.to_cmdCancelRelease _
      | exact Moves.refl.to_cmdSendCode _ _
      | exact Moves.refl.to_cmdAdvanceRegister _
      | exact Moves.refl.to_cmdSetClock _ _
      | exact Moves.refl.to_cmdTestFault _ _ _ _
      | exact Moves.refl.to_cmdClearFault _ _
      | exact Moves.refl.to_cmdResume
      | exact Moves.refl.to_cmdOpenEdit
      | exact Moves.refl.to_cmdWriteTable w _ _ _
      | exact Moves.refl.to_cmdCommit w
      | exact Moves.refl.to_cmdAbandon
      | exact Moves.refl.to_cmdStage _ _ _ _
      | (simp only [cmdReadTable_state]; exact Moves.refl)
      | (unfold cmdReadTracks; simp only [read_state]; exact Moves.refl)
      | (unfold cmdReadLevers; simp only [read_state]; exact Moves.refl)
      | (unfold cmdReadHolds; simp only [read_state]; exact Moves.refl)
      | (unfold cmdReadReleases; simp only [read_state]; exact Moves.refl)
      | (unfold cmdReadLines; simp only [read_state]; exact Moves.refl)
      | (unfold cmdReadFaults; dsimp only; split <;> exact Moves.refl)
      | (unfold cmdRunTest; split <;>
          [exact Moves.refl.to_cmdTestTable w; exact Moves.refl.to_cmdTestLink w _])

/-- The kinds of move of a batch. -/
abbrev batchKinds : List Kind := .batch :: .transmit :: .receiver :: .result :: commandKinds

theorem Moves.to_readyFrame (f : OutFrame) (h : Moves ks r s)
    (hk : Kind.sub [.transmit] ks = true := by decide) : Moves ks r (readyFrame f s) :=
  h.andThen hk <| Moves.refl.to_modHost _
    ⟨.inr ⟨rfl, rfl, rfl⟩, .inr rfl, .inr rfl, .inl (by decide), .inr rfl, id, id⟩

theorem Moves.to_endBatch (tag : Byte) (rs : List CmdResult) (c : Option ResetCause)
    (h : Moves ks r s) (hk : Kind.sub [.batch, .transmit] ks = true := by decide) :
    Moves ks r (endBatch tag rs c s) :=
  h.andThen hk <| (Moves.refl.to_readyFrame _).to_modHost _
    ⟨.inl (by decide), .inr rfl, .inr rfl, .inr ⟨rfl, rfl, rfl⟩, .inr rfl, id, id⟩

theorem Moves.to_runChecked (n : Nat) (rs : List CmdResult) (c : Command) (h : Moves ks r s)
    (hk : Kind.sub commandKinds ks = true := by decide) : Moves ks r (runChecked n rs c s).1 :=
  h.andThen hk <| by
    unfold runChecked
    split
    · exact .refl
    · exact Moves.refl.to_runCommand _ _ _

theorem Moves.to_giveResult (b : Batch) (q : CmdResult) (skip : Bool) (h : Moves ks r s)
    (hk : Kind.sub [.batch, .transmit] ks = true := by decide) :
    Moves ks r (giveResult b q skip s) := h.andThen hk <| by
  simp only [giveResult]
  split
  · exact Moves.refl.to_endBatch _ _ _
  · exact Moves.refl.to_modHost _ ⟨.inl (by decide), .inr rfl, .inr rfl, .inr ⟨rfl, rfl, rfl⟩, .inr rfl,
      id, id⟩

theorem Moves.to_takeTurn (b : Batch) (h : Moves ks r s)
    (hk : Kind.sub batchKinds ks = true := by decide) : Moves ks r (takeTurn b s) :=
  h.andThen hk <| by
    simp only [takeTurn]
    split
    · exact Moves.refl.to_endBatch _ _ _
    · next c cs _ =>
      split
      · exact Moves.refl.to_giveResult _ _ _
      · have ran := (Moves.refl (ks := batchKinds) (s := s)).to_runChecked b.count b.results c
        split
        · next e =>
          rw [e] at ran
          split
          · exact ran.to_endBatch _ _ _
          · exact ran.to_giveResult _ _ _
        · next e =>
          rw [e] at ran
          exact ran.to_giveResult _ _ _
        · next e =>
          rw [e] at ran
          exact ran.to_modHost _
            ⟨.inl (by decide), .inr rfl, .inr rfl, .inr ⟨rfl, rfl, rfl⟩, .inr rfl, id, id⟩

theorem Moves.to_beginBatch (q : Request) (h : Moves ks r s)
    (hk : Kind.sub [.batch, .flags] ks = true := by decide) : Moves ks r (beginBatch q s) :=
  h.andThen hk <| Moves.refl.to_modHost _ ⟨.inl (by decide), .inl (by decide), .inr rfl,
    .inr ⟨rfl, rfl, rfl⟩, .inr rfl, id, fun _ => rfl⟩

theorem Moves.to_advanceQueue (h : Moves ks r s)
    (hk : Kind.sub [.batch, .flags] ks = true := by decide) : Moves ks r (advanceQueue s) :=
  h.andThen hk <| by
    unfold advanceQueue
    split
    · exact (Moves.refl.to_modHost _ ⟨.inl (by decide), .inr rfl, .inr rfl,
        .inr ⟨rfl, rfl, rfl⟩, .inr rfl, id, id⟩).to_beginBatch _
    · exact .refl

theorem Moves.to_nextTurn (h : Moves ks r s)
    (hk : Kind.sub batchKinds ks = true := by decide) : Moves ks r (nextTurn s) :=
  h.andThen hk <| by
    unfold nextTurn
    split
    · exact .refl
    · exact (Moves.refl.to_takeTurn _).to_advanceQueue

theorem Moves.to_takeRequest (tag : Byte) (bs : List Byte) (h : Moves ks r s)
    (hk : Kind.sub batchKinds ks = true := by decide) : Moves ks r (takeRequest tag bs s) :=
  h.andThen hk <| by
    unfold takeRequest
    split
    · exact .refl
    · split
      · exact Moves.refl.to_readyFrame _
      · split
        · exact Moves.refl.to_readyFrame _
        · split
          · exact Moves.refl.to_readyFrame _
          · split
            · exact Moves.refl.to_modHost _ ⟨.inl (by decide), .inr rfl, .inr rfl,
                .inr ⟨rfl, rfl, rfl⟩, .inr rfl, id, id⟩
            · exact (Moves.refl.to_beginBatch _).to_nextTurn

theorem Moves.to_receiveByte (b : Byte) (h : Moves ks r s)
    (hk : Kind.sub [.receiver] ks = true := by decide) : Moves ks r (receiveByte b s) :=
  h.andThen hk <| Moves.refl.to_modHost _ ⟨.inr ⟨rfl, rfl, rfl⟩, .inr rfl, .inl (by decide),
    .inr ⟨rfl, rfl, rfl⟩, .inr rfl, id, id⟩

theorem Moves.to_receiveRequest (bs : List Byte) (h : Moves ks r s)
    (hk : Kind.sub batchKinds ks = true := by decide) : Moves ks r (receiveRequest bs s) :=
  h.andThen hk <| by
    have all : ∀ (bs : List Byte) (t : State), Moves batchKinds s t →
        Moves batchKinds s (bs.foldl (fun s b => receiveByte b s) t) := by
      intro bs
      induction bs with
      | nil => exact fun _ h => h
      | cons b bs ih => exact fun _ h => ih _ (h.to_receiveByte b)
    have h1 := all bs s .refl
    simp only [receiveRequest]
    generalize bs.foldl (fun s b => receiveByte b s) s = t at h1 ⊢
    have h2 := h1.to_modHost (fun h => { h with receiving := none }) ⟨.inr ⟨rfl, rfl, rfl⟩, .inr rfl,
      .inl (by decide), .inr ⟨rfl, rfl, rfl⟩, .inr rfl, id, id⟩
    split
    · exact h1
    · split
      · split
        · exact h2.to_takeRequest _ _
        · exact h2
      · exact h1

theorem Moves.to_gapPassed (h : Moves ks r s)
    (hk : Kind.sub [.receiver] ks = true := by decide) : Moves ks r (gapPassed s) :=
  h.andThen hk <| by
    unfold gapPassed
    split
    · exact .refl
    · split
      · exact Moves.refl.to_modHost _ ⟨.inr ⟨rfl, rfl, rfl⟩, .inr rfl, .inl (by decide),
          .inr ⟨rfl, rfl, rfl⟩, .inr rfl, id, id⟩
      · exact .refl

theorem Moves.to_resumeBatch (q : CmdResult) (h : Moves ks r s)
    (hk : Kind.sub batchKinds ks = true := by decide) : Moves ks r (resumeBatch q s) :=
  h.andThen hk <| by
    unfold resumeBatch
    split
    · exact .refl
    · split
      · exact .refl
      · dsimp only
        split
        · exact Moves.refl.to_endBatch _ _ _
        · exact (Moves.refl.to_giveResult _ _ _).to_advanceQueue

theorem Moves.to_endAlone (q : CmdResult) (h : Moves ks r s)
    (hk : Kind.sub [.batch, .result] ks = true := by decide) : Moves ks r (endAlone q s) :=
  h.andThen hk <| Moves.refl.to_modHost _ ⟨.inl (by decide), .inr rfl, .inr rfl,
    .inr ⟨rfl, rfl, rfl⟩, .inl (by decide), id, id⟩

theorem Moves.to_endWait (w : Waiter) (q : CmdResult) (h : Moves ks r s)
    (hk : Kind.sub batchKinds ks = true := by decide) : Moves ks r (endWait w q s) :=
  h.andThen hk <| by
    cases w
    · exact Moves.refl.to_resumeBatch q
    · exact Moves.refl.to_endAlone q

/-- A command row taken by itself does what its command does, and puts its result where it is read. -/
theorem Moves.to_runAlone (code : Nat) (command : State → Ran)
    (hc : Moves ks s (command s).1) (h : Moves ks r s)
    (hk : Kind.sub [.batch, .result] ks = true := by decide) :
    Moves ks r (runAlone code command s) := by
  unfold runAlone
  split
  · exact h
  · split
    · exact h.to_endAlone _ hk
    · have h1 := h.trans hc
      split
      · next e => rw [e] at h1; exact h1.to_endAlone _ hk
      · next e => rw [e] at h1; exact h1.to_endAlone _ hk
      · next e =>
        rw [e] at h1
        exact h1.to_modHost _ ⟨.inr ⟨rfl, rfl, rfl⟩, .inr rfl, .inr rfl, .inr ⟨rfl, rfl, rfl⟩,
          .inl (Kind.sub_iff.1 hk _ (by decide)), id, id⟩

theorem Moves.to_frameLeft (h : Moves ks r s)
    (hk : Kind.sub [.batch, .transmit] ks = true := by decide) : Moves ks r (frameLeft s) :=
  h.andThen hk <| by
    unfold frameLeft
    split
    · exact .refl
    · exact Moves.refl.to_modHost _ ⟨.inl (by decide), .inr rfl, .inr rfl, .inl (by decide),
        .inr rfl, id, id⟩

/-! ### The end of a step -/

theorem Moves.to_settleMismatches (n : Nat) (h : Moves ks r s)
    (hk : Kind.sub raiseKinds ks = true := by decide) : Moves ks r (settleMismatches n s) :=
  h.andThen hk <| by
    clear h
    induction n generalizing s with
    | zero => exact .refl
    | succ n ih =>
      unfold settleMismatches
      split
      · exact Moves.refl.to_reportMismatches.trans ih
      · exact .refl

theorem Moves.to_reloadAll (h : Moves ks r s)
    (hk : Kind.sub [.note, .reload, .timer, .bell, .outb, .link] ks = true := by decide) :
    Moves ks r (reloadAll s) :=
  h.andThen hk <| (((Moves.refl.to_forEach _ fun k _ => Moves.refl.to_reloadTimer k).to_forEach _
    fun k _ => Moves.refl.to_reloadBell k).to_forEach _
    fun k _ => Moves.refl.to_reloadLine k).to_forEach _ fun k _ => Moves.refl.to_reloadLink k

theorem chooseFrame_alters (b : Bool) (h : HostPort) :
    HostPort.Alters [.transmit] h (chooseFrame b h) := by
  have keep : HostPort.Alters [.transmit] h h :=
    ⟨.inr ⟨rfl, rfl, rfl⟩, .inr rfl, .inr rfl, .inr ⟨rfl, rfl, rfl⟩, .inr rfl, id, id⟩
  unfold chooseFrame
  split
  · exact keep
  · split
    · exact keep
    · exact ⟨.inr ⟨rfl, rfl, rfl⟩, .inr rfl, .inr rfl, .inl (by decide), .inr rfl, id, id⟩
  · next n ns _ _ hn =>
    split
    · exact keep
    · refine ⟨.inr ⟨rfl, rfl, rfl⟩, .inr rfl, .inr rfl, .inl (by decide), .inr rfl, fun hs => ?_, id⟩
      simp only [HostPort.Sound, hn, List.map_cons, List.nodup_cons] at hs ⊢
      exact hs.2
  · exact keep

theorem Moves.to_kickHost (h : Moves ks r s)
    (hk : Kind.sub [.transmit] ks = true := by decide) : Moves ks r (kickHost s) :=
  h.andThen hk <| Moves.refl.to_modHost _ (chooseFrame_alters _ _)

/-- The kinds of move of the end of a step. -/
abbrev finishKinds : List Kind := .reload :: .bell :: .transmit :: raiseKinds

theorem Moves.to_finish (h : Moves ks r s)
    (hk : Kind.sub finishKinds ks = true := by decide) : Moves ks r (finish s) :=
  h.andThen hk <| ((Moves.refl.to_settleMismatches _).to_reloadAll.to_forEach _
    fun k _ => Moves.refl.to_pumpLink k).to_kickHost

end Sys2Proof.Machine
end

