-- ==== Sys2Proof/Laws/RowMoves.lean ====
section
/-! SUPPORT. What each row of the opcode table can do, and what a step can do at all. -/

set_option Elab.async false

namespace Sys2Proof.Machine

variable {ks : List Kind} {r s : State}

/-! ### Tracks -/

theorem Moves.to_pulseRises (k : Nat) (h : Moves ks r s)
    (hk : Kind.sub [.circuit, .converter] ks = true := by decide) : Moves ks r (pulseRises k s) :=
  h.andThen hk <| by
    unfold pulseRises
    split
    · exact (Moves.refl.to_modCircuit k _).to_abandonWiring k
    · exact .refl

theorem Moves.to_pulseFalls (k : Nat) (h : Moves ks r s)
    (hk : Kind.sub (.converter :: fallKinds) ks = true := by decide) : Moves ks r (pulseFalls k s) :=
  h.andThen hk <| by
    have h1 := (Moves.refl (ks := .converter :: fallKinds) (s := s)).to_modCircuit k
      fun c => { c with above := false }
    simp only [pulseFalls]
    split
    · exact h1
    · split
      · exact h1.to_discardCandidate k
      · exact h1.to_acceptCandidate k _

theorem Moves.to_candidateTimesOut (k : Nat) (h : Moves ks r s)
    (hk : Kind.sub fallKinds ks = true := by decide) : Moves ks r (candidateTimesOut k s) :=
  h.andThen hk <| by
    unfold candidateTimesOut
    split
    · exact Moves.refl.to_discardCandidate k
    · exact .refl

theorem Moves.to_codeLostExpires (k : Nat) (h : Moves ks r s)
    (hk : Kind.sub fallKinds ks = true := by decide) : Moves ks r (codeLostExpires k s) :=
  h.andThen hk <| by
    unfold codeLostExpires
    split
    · exact Moves.refl.to_takeCodeLost k
    · exact .refl

theorem Moves.to_pulseConverted (a : Nat) (h : Moves ks r s)
    (hk : Kind.sub (.converter :: pulseKinds) ks = true := by decide) :
    Moves ks r (pulseConverted a s) := h.andThen hk <| by
  simp only [pulseConverted]
  split
  · next k _ =>
    have h1 := ((Moves.refl (ks := .converter :: pulseKinds) (s := s)).to_modConverter
      Converter.finish).to_modCircuit k fun c => { c with pulse := none }
    split
    · exact h1
    · exact ((h1.to_when _ fun _ => Moves.refl.to_classifyPulse k a _).to_learnPulse k a
        _).to_startWiring k
  · exact .refl

theorem Moves.to_wiringDue (k : Nat) (h : Moves ks r s)
    (hk : Kind.sub [.circuit] ks = true := by decide) : Moves ks r (wiringDue k s) :=
  h.andThen hk <| by
    unfold wiringDue
    split
    · exact Moves.refl.to_startWiring k
    · exact .refl

theorem Moves.to_wiringLoaded (k : Nat) (h : Moves ks r s)
    (hk : Kind.sub [.circuit, .converter] ks = true := by decide) :
    Moves ks r (wiringLoaded k s) := h.andThen hk <| by
  unfold wiringLoaded
  split
  · exact (Moves.refl.to_modCircuit k _).to_modConverter _
  · exact .refl

theorem Moves.to_wiringConverted (n : Nat) (h : Moves ks r s)
    (hk : Kind.sub (.converter :: raiseKinds) ks = true := by decide) :
    Moves ks r (wiringConverted n s) := h.andThen hk <| by
  simp only [wiringConverted]
  split
  · split
    · exact Moves.refl.to_modConverter _
    · exact (Moves.refl.to_modConverter _).to_judgeWiring _ n
  · exact .refl

/-- The kinds of move by which a converter test ends. -/
abbrev testKinds : List Kind := .start :: batchKinds

theorem Moves.to_afterConverterTest (t : ConverterTest) (b : Bool) (h : Moves ks r s)
    (hk : Kind.sub testKinds ks = true := by decide) : Moves ks r (afterConverterTest t b s) :=
  h.andThen hk <| by
    unfold afterConverterTest
    split
    · exact Moves.refl.to_startAfterConverter
    · exact .refl
    · exact Moves.refl.to_testEvaluators.to_endWait _ _

theorem Moves.to_referenceConverted (n : Nat) (h : Moves ks r s)
    (hk : Kind.sub testKinds ks = true := by decide) : Moves ks r (referenceConverted n s) :=
  h.andThen hk <| by
    have h1 := (Moves.refl (ks := testKinds) (s := s)).to_modConverter Converter.finish
    simp only [referenceConverted]
    split
    · split
      · exact ((h1.to_modConverter _).to_endConverterCheck _).to_afterConverterTest _ _
      · exact h1.to_modConverter _
    · exact .refl

/-! ### Frame bus -/

theorem Moves.to_answered (b : Nat) (a : Answer) (h : Moves ks r s)
    (hk : Kind.sub pollKinds ks = true := by decide) : Moves ks r (answered b a s) :=
  h.andThen hk <| by
    unfold answered
    split
    · exact .refl
    · split
      · exact Moves.refl.to_takeGood _ a _
      · exact Moves.refl.to_takeMiss _ _

theorem Moves.to_missed (b : Nat) (h : Moves ks r s)
    (hk : Kind.sub pollKinds ks = true := by decide) : Moves ks r (missed b s) :=
  h.andThen hk <| by
    unfold missed
    split
    · exact .refl
    · split
      · exact Moves.refl.to_takeMiss _ _
      · exact .refl

theorem Moves.to_transitExpires (k : Nat) (h : Moves ks r s)
    (hk : Kind.sub raiseKinds ks = true := by decide) : Moves ks r (transitExpires k s) :=
  h.andThen hk <| by
    unfold transitExpires
    split
    · exact (Moves.refl.to_modLever k _).to_when _ fun _ => Moves.refl.to_raise _ _
    · exact .refl

/-! ### Releases and lines -/

/-- The kinds of move by which a release expires. -/
abbrev expiryKinds : List Kind := .inb :: holdKinds

theorem Moves.to_ownerTakesExpiry (k : Nat) (e : Time) (h : Moves ks r s)
    (hk : Kind.sub expiryKinds ks = true := by decide) : Moves ks r (ownerTakesExpiry k e s) :=
  h.andThen hk <| by
    simp only [ownerTakesExpiry]
    split
    · exact ((Moves.refl.to_modTimer k _).to_setHold _ _).to_evaluateHoldAndTimer _ _
    · exact ((Moves.refl.to_modTimer k _).to_sequenceReleased _).to_evaluateRelease _
    · exact ((Moves.refl.to_modTimer k _).to_evaluate _).to_evaluateRelease _

theorem Moves.to_releaseExpires (k : Nat) (h : Moves ks r s)
    (hk : Kind.sub expiryKinds ks = true := by decide) : Moves ks r (releaseExpires k s) :=
  h.andThen hk <| by
    simp only [releaseExpires]
    split
    · exact .refl
    · split
      · exact ((Moves.refl.to_append _).to_ownerTakesExpiry k _).to_noteRelease k
      · exact .refl

theorem Moves.to_releaseLapses (k : Nat) (h : Moves ks r s)
    (hk : Kind.sub [.note, .record, .evaluate, .timer] ks = true := by decide) :
    Moves ks r (releaseLapses k s) := h.andThen hk <| by
  unfold releaseLapses
  split
  · exact ((Moves.refl.to_cancelTimer _ k).to_evaluate _).to_evaluateRelease k
  · exact .refl

theorem Moves.to_disagreementExpires (k : Nat) (h : Moves ks r s)
    (hk : Kind.sub raiseKinds ks = true := by decide) : Moves ks r (disagreementExpires k s) :=
  h.andThen hk <| by
    unfold disagreementExpires
    split
    · exact (Moves.refl.to_modInb k _).to_when _ fun _ => Moves.refl.to_raise _ _
    · exact .refl

theorem Moves.to_overdueExpires (k : Nat) (h : Moves ks r s)
    (hk : Kind.sub [.note, .record, .outb] ks = true := by decide) :
    Moves ks r (overdueExpires k s) := h.andThen hk <| by
  unfold overdueExpires
  split
  · exact ((Moves.refl.to_modOutb k _).to_append _).to_noteLine _
  · exact .refl

/-! ### Links -/

theorem Moves.to_pauseAbandons (k : Nat) (h : Moves ks r s)
    (hk : Kind.sub [.link] ks = true := by decide) : Moves ks r (pauseAbandons k s) :=
  h.andThen hk <| Moves.refl.to_modLink k _ <| .inr (Link.receives_takePause _ _ _ _).staged_eq.trans

theorem Moves.to_backOffPasses (k : Nat) (h : Moves ks r s)
    (hk : Kind.sub [.link] ks = true := by decide) : Moves ks r (backOffPasses k s) :=
  h.andThen hk <| by
    unfold backOffPasses
    split
    · exact Moves.refl.to_modLink k _
    · exact .refl

theorem Moves.to_answerExpires (k : Nat) (h : Moves ks r s)
    (hk : Kind.sub [.link] ks = true := by decide) : Moves ks r (answerExpires k s) :=
  h.andThen hk <| by
    unfold answerExpires
    split
    · exact Moves.refl.to_bidFailed k
    · exact .refl

theorem Moves.to_takenExpires (k : Nat) (h : Moves ks r s)
    (hk : Kind.sub [.link] ks = true := by decide) : Moves ks r (takenExpires k s) :=
  h.andThen hk <| by
    unfold takenExpires
    split
    · exact Moves.refl.to_dataFailed _ k
    · exact .refl

theorem Moves.to_dataExpires (k : Nat) (h : Moves ks r s)
    (hk : Kind.sub [.link] ks = true := by decide) : Moves ks r (dataExpires k s) :=
  h.andThen hk <| by
    unfold dataExpires
    split
    · exact Moves.refl.to_modLink k _
    · exact .refl

theorem Moves.to_retryComes (k : Nat) (h : Moves ks r s)
    (hk : Kind.sub [.link] ks = true := by decide) : Moves ks r (retryComes k s) :=
  h.andThen hk <| by
    unfold retryComes
    split
    · exact Moves.refl.to_modLink k _
    · exact .refl

theorem Moves.to_heartbeatExpires (k : Nat) (h : Moves ks r s)
    (hk : Kind.sub [.link] ks = true := by decide) : Moves ks r (heartbeatExpires k s) :=
  h.andThen hk <| by
    unfold heartbeatExpires
    split
    · exact Moves.refl.to_modLink k _
    · exact .refl

theorem Moves.to_silenceExpires (k : Nat) (h : Moves ks r s)
    (hk : Kind.sub raiseKinds ks = true := by decide) : Moves ks r (silenceExpires k s) :=
  h.andThen hk <| by
    simp only [silenceExpires]
    split
    · exact (Moves.refl.to_modLink k _).to_when _ fun _ =>
        Moves.refl.to_beginCause _ _ _ _ (fun _ => Moves.refl.to_farViewLost k)
          fun _ => Moves.refl.to_lineLost k _
    · exact .refl

theorem Moves.to_afterLoopback (k : Nat) (x : LoopbackStep) (h : Moves ks r x.1)
    (hk : Kind.sub testKinds ks = true := by decide) : Moves ks r (afterLoopback k x) :=
  h.andThen hk <| by
    unfold afterLoopback
    split
    · exact .refl
    · exact Moves.refl.to_startAfterLink k
    · exact Moves.refl.to_endWait _ _

/-! ### Box time, checks and image writes -/

theorem Register.tick_sound (q : Register) (h : q.Sound) : q.tick.Sound := by
  unfold Register.tick
  split
  · exact ⟨h.1, h.2.1, h.2.2.1, h.2.2.2.1, h.2.2.2.2.1, show q.tenths + 1 < 864000 by omega⟩
  · exact ⟨h.1, h.2.1, h.2.2.1, h.2.2.2.1, Nat.mod_lt _ (by decide),
      show (0 : Nat) < 864000 by decide⟩

theorem Moves.to_takeTick (h : Moves ks r s)
    (hk : Kind.sub [.clock, .tick] ks = true := by decide) : Moves ks r (takeTick s) :=
  h.andThen hk <| by
    unfold takeTick
    split
    · exact (Moves.clock (ks := [.clock, .tick]) Register.tick (by decide) (Register.tick_sound _)
        .refl).tick _ (by decide)
    · exact .refl

theorem Moves.to_periodicSignature (h : Moves ks r s)
    (hk : Kind.sub raiseKinds ks = true := by decide) : Moves ks r (periodicSignature s) :=
  h.andThen hk <| Moves.refl.to_checkSignature.to_modFaults _

theorem Moves.to_signatureDue (h : Moves ks r s)
    (hk : Kind.sub raiseKinds ks = true := by decide) : Moves ks r (signatureDue s) :=
  h.andThen hk <| by
    unfold signatureDue
    split
    · split
      · exact Moves.refl.to_modFaults _
      · exact Moves.refl.to_periodicSignature
    · exact .refl

theorem Moves.to_converterDue (h : Moves ks r s)
    (hk : Kind.sub [.faults, .converter] ks = true := by decide) : Moves ks r (converterDue s) :=
  h.andThen hk <| by
    unfold converterDue
    split
    · exact .refl
    · split
      · exact (Moves.refl.to_modFaults _).to_requestReferences _
      · exact .refl

theorem Moves.to_afterWrite (p : Patch) (h : Moves ks r s)
    (hk : Kind.sub [.note, .lever, .evaluate, .tables] ks = true := by decide) :
    Moves ks r (afterWrite p s) := h.andThen hk <| by
  unfold afterWrite
  split
  · exact Moves.refl.to_broughtIn _ _
  · exact Moves.refl.to_modTables _
  · exact .refl

theorem Moves.to_writeEnds (h : Moves ks r s)
    (hk : Kind.sub batchKinds ks = true := by decide) : Moves ks r (writeEnds s) :=
  h.andThen hk <| by
    unfold writeEnds
    split
    · exact .refl
    · next j js _ =>
      have h1 := ((Moves.refl (ks := batchKinds) (s := s)).to_modStore fun st =>
        { st with stored := some (s.store.written j.patch), imageState := .good
                  jobs := js }).to_afterWrite j.patch
      dsimp only
      cases j.waiter with
      | none => exact h1.to_when _ fun _ => Moves.refl.to_periodicSignature
      | some x => exact (h1.to_endWait x _).to_when _ fun _ => Moves.refl.to_periodicSignature

/-! ### Steps -/

/-- The kinds of move of a row that is no reset. -/
abbrev stepKinds : List Kind := .time :: .scan :: .board :: .start :: .clear :: batchKinds

/-- What the part does while no event waits is a matter of the moves of a row. -/
theorem idle_moves (s : State) : Moves batchKinds s (idle s) := by
  unfold idle
  split
  · exact .refl
  · exact Moves.refl.to_nextTurn.to_finish

theorem Moves.to_takeTurns (n : Nat) (h : Moves ks r s)
    (hk : Kind.sub batchKinds ks = true := by decide) : Moves ks r (takeTurns n s) := by
  induction n generalizing s with
  | zero => exact h
  | succ n ih => exact ih (h.andThen hk (idle_moves s))

theorem Moves.to_comeTo (t : Time) (h : Moves ks r s)
    (hk : Kind.sub (.time :: batchKinds) ks = true := by decide) :
    Moves ks r (s.comeTo t) := h.andThen hk <| by
  unfold State.comeTo
  refine .time t (by decide) ?_
  split
  · exact Moves.refl.to_takeTurns _
  · exact .refl

/-- A row taken at a running time, followed by the end of the step. -/
theorem Moves.of_row (t : Time) {f : State → State}
    (hf : Moves stepKinds (s.comeTo t) (f (s.comeTo t))) :
    Moves stepKinds s (finish (f (s.comeTo t))) :=
  ((Moves.refl.to_comeTo t).trans hf).to_finish

theorem Moves.of_command (t : Time) (code : Nat) (command : State → Ran)
    (hc : ∀ s, Moves stepKinds s (command s).1) : Moves stepKinds s (commandRow t code command s) :=
  Moves.of_row t (f := runAlone code command) (Moves.to_runAlone code command (hc _) .refl)

/-- Every row but the two resets does what moves do. -/
theorem exec_moves (i : Instr) (hi : i.time ≠ none) (s : State) :
    ∃ u, exec i s = .next u ∧ Moves stepKinds s u := by
  cases i with
  | powerUpReset => exact absurd rfl hi
  | warmStart => exact absurd rfl hi
  | hostRequestFrame t bs => exact ⟨_, rfl, .of_row t (Moves.refl.to_receiveRequest bs)⟩
  | hostInterbyteTimeout t => exact ⟨_, rfl, .of_row t Moves.refl.to_gapPassed⟩
  | hostFrameSent t => exact ⟨_, rfl, .of_row t Moves.refl.to_frameLeft⟩
  | readTracks t a b =>
    exact ⟨_, rfl, .of_command t _ _ fun s => by
      unfold cmdReadTracks; rw [read_state]; exact .refl⟩
  | testTrack t f a b => exact ⟨_, rfl, .of_command t _ _ fun _ => Moves.refl.to_test _ _ _ _⟩
  | learnReference t k => exact ⟨_, rfl, .of_command t _ _ fun _ => Moves.refl.to_cmdLearn k⟩
  | readLevers t a b =>
    exact ⟨_, rfl, .of_command t _ _ fun s => by
      unfold cmdReadLevers; rw [read_state]; exact .refl⟩
  | testLever t f a b => exact ⟨_, rfl, .of_command t _ _ fun _ => Moves.refl.to_test _ _ _ _⟩
  | takeOutOfUse t k => exact ⟨_, rfl, .of_command t _ _ fun _ => Moves.refl.to_cmdTakeOut _ k⟩
  | bringIntoUse t k => exact ⟨_, rfl, .of_command t _ _ fun _ => Moves.refl.to_cmdBringIn _ k⟩
  | readHolds t a b =>
    exact ⟨_, rfl, .of_command t _ _ fun s => by
      unfold cmdReadHolds; rw [read_state]; exact .refl⟩
  | testHold t f a b => exact ⟨_, rfl, .of_command t _ _ fun _ => Moves.refl.to_test _ _ _ _⟩
  | readReleases t a b =>
    exact ⟨_, rfl, .of_command t _ _ fun s => by
      unfold cmdReadReleases; rw [read_state]; exact .refl⟩
  | requestRelease t k =>
    exact ⟨_, rfl, .of_command t _ _ fun _ => Moves.refl.to_cmdRequestRelease k⟩
  | cancelRelease t k =>
    exact ⟨_, rfl, .of_command t _ _ fun _ => Moves.refl.to_cmdCancelRelease k⟩
  | sendCode t k g => exact ⟨_, rfl, .of_command t _ _ fun _ => Moves.refl.to_cmdSendCode k g⟩
  | readLines t a b =>
    exact ⟨_, rfl, .of_command t _ _ fun s => by
      unfold cmdReadLines; rw [read_state]; exact .refl⟩
  | testLine t f a b => exact ⟨_, rfl, .of_command t _ _ fun _ => Moves.refl.to_test _ _ _ _⟩
  | runTestLink t k => exact ⟨_, rfl, .of_command t _ _ fun _ => Moves.refl.to_cmdTestLink _ k⟩
  | runTestTable t => exact ⟨_, rfl, .of_command t _ _ fun _ => Moves.refl.to_cmdTestTable _⟩
  | readRegister t n => exact ⟨_, rfl, .of_command t _ _ fun _ => .refl⟩
  | advanceRegister t n =>
    exact ⟨_, rfl, .of_command t _ _ fun _ => Moves.refl.to_cmdAdvanceRegister n⟩
  | setClock t d n => exact ⟨_, rfl, .of_command t _ _ fun _ => Moves.refl.to_cmdSetClock d n⟩
  | readFaults t a b =>
    exact ⟨_, rfl, .of_command t _ _ fun s => by
      unfold cmdReadFaults; dsimp only; split <;> exact .refl⟩
  | testFault t f c n v =>
    exact ⟨_, rfl, .of_command t _ _ fun _ => Moves.refl.to_cmdTestFault f c n v⟩
  | clearFault t c n => exact ⟨_, rfl, .of_command t _ _ fun _ => Moves.refl.to_cmdClearFault c n⟩
  | resume t => exact ⟨_, rfl, .of_command t _ _ fun _ => Moves.refl.to_cmdResume⟩
  | openEdit t => exact ⟨_, rfl, .of_command t _ _ fun _ => Moves.refl.to_cmdOpenEdit⟩
  | writeTable t a b f =>
    exact ⟨_, rfl, .of_command t _ _ fun _ => Moves.refl.to_cmdWriteTable _ a b f⟩
  | readTable t a b =>
    exact ⟨_, rfl, .of_command t _ _ fun s => by rw [cmdReadTable_state]; exact .refl⟩
  | commit t => exact ⟨_, rfl, .of_command t _ _ fun _ => Moves.refl.to_cmdCommit _⟩
  | abandonEdit t => exact ⟨_, rfl, .of_command t _ _ fun _ => Moves.refl.to_cmdAbandon⟩
  | stage t a b f v => exact ⟨_, rfl, .of_command t _ _ fun _ => Moves.refl.to_cmdStage a b f v⟩
  | readStatus t => exact ⟨_, rfl, .of_command t _ _ fun _ => .refl⟩
  | warmReset t => exact ⟨_, rfl, .of_command t _ _ fun _ => .refl⟩
  | imageWriteComplete t => exact ⟨_, rfl, .of_row t Moves.refl.to_writeEnds⟩
  | pulseRisingEdge t k => exact ⟨_, rfl, .of_row t (Moves.refl.to_pulseRises k)⟩
  | pulseFallingEdge t k => exact ⟨_, rfl, .of_row t (Moves.refl.to_pulseFalls k)⟩
  | candidateTimeout t k => exact ⟨_, rfl, .of_row t (Moves.refl.to_candidateTimesOut k)⟩
  | codeLost t k => exact ⟨_, rfl, .of_row t (Moves.refl.to_codeLostExpires k)⟩
  | pulseEndConversionComplete t a =>
    exact ⟨_, rfl, .of_row t (Moves.refl.to_pulseConverted (min a fullScale))⟩
  | wiringTestDue t k => exact ⟨_, rfl, .of_row t (Moves.refl.to_wiringDue k)⟩
  | wiringLoadTimeEnd t k => exact ⟨_, rfl, .of_row t (Moves.refl.to_wiringLoaded k)⟩
  | wiringConversionComplete t n =>
    exact ⟨_, rfl, .of_row t (Moves.refl.to_wiringConverted (min n fullScale))⟩
  | referenceConversionComplete t n =>
    exact ⟨_, rfl, .of_row t (Moves.refl.to_referenceConverted (min n fullScale))⟩
  | pollPosition t => exact ⟨_, rfl, .of_row t Moves.refl.to_takePosition⟩
  | goodAnswer t b a => exact ⟨_, rfl, .of_row t (Moves.refl.to_answered b a)⟩
  | missedPoll t b => exact ⟨_, rfl, .of_row t (Moves.refl.to_missed b)⟩
  | transitCompareExpiry t k => exact ⟨_, rfl, .of_row t (Moves.refl.to_transitExpires k)⟩
  | releaseTimerExpiry t k => exact ⟨_, rfl, .of_row t (Moves.refl.to_releaseExpires k)⟩
  | releaseLapse t k => exact ⟨_, rfl, .of_row t (Moves.refl.to_releaseLapses k)⟩
  | plungerCodeEnd t k => exact ⟨_, rfl, .of_row t (Moves.refl.to_endDuePlunger k)⟩
  | hostCodeStrokeEnd t k => exact ⟨_, rfl, .of_row t (Moves.refl.to_hostStrokeEnd k)⟩
  | hostCodeEnd t k => exact ⟨_, rfl, .of_row t (Moves.refl.to_hostEnd k)⟩
  | receiveTimeout t k => exact ⟨_, rfl, .of_row t (Moves.refl.to_receiveTimedOut k)⟩
  | expectationDeadline t k => exact ⟨_, rfl, .of_row t (Moves.refl.to_deadlinePassed k)⟩
  | disagreementCompareExpiry t k =>
    exact ⟨_, rfl, .of_row t (Moves.refl.to_disagreementExpires k)⟩
  | overdueExpiry t k => exact ⟨_, rfl, .of_row t (Moves.refl.to_overdueExpires k)⟩
  | linkFrameReceived t k bs => exact ⟨_, rfl, .of_row t (Moves.refl.to_receiveFrame k bs)⟩
  | linkFrameAbandoned t k => exact ⟨_, rfl, .of_row t (Moves.refl.to_pauseAbandons k)⟩
  | linkCollision t k => exact ⟨_, rfl, .of_row t (Moves.refl.to_collide k)⟩
  | linkFrameSent t k => exact ⟨_, rfl, .of_row t (Moves.refl.to_frameSent k)⟩
  | lineQuiet t k => exact ⟨_, rfl, .of_row t (Moves.refl.to_startFrame k)⟩
  | backOffEnd t k => exact ⟨_, rfl, .of_row t (Moves.refl.to_backOffPasses k)⟩
  | answerTimerExpiry t k => exact ⟨_, rfl, .of_row t (Moves.refl.to_answerExpires k)⟩
  | takenTimerExpiry t k => exact ⟨_, rfl, .of_row t (Moves.refl.to_takenExpires k)⟩
  | dataTimerExpiry t k => exact ⟨_, rfl, .of_row t (Moves.refl.to_dataExpires k)⟩
  | retryTime t k => exact ⟨_, rfl, .of_row t (Moves.refl.to_retryComes k)⟩
  | lateStroke t k =>
    exact ⟨_, rfl, .of_row t (f := strokesLate k) (Moves.refl.to_modLink k _)⟩
  | heartbeatExpiry t k => exact ⟨_, rfl, .of_row t (Moves.refl.to_heartbeatExpires k)⟩
  | silenceWatchExpiry t k => exact ⟨_, rfl, .of_row t (Moves.refl.to_silenceExpires k)⟩
  | loopbackFrameTimer t k => exact ⟨_, rfl, .of_row t (Moves.refl.to_loopbackSend k)⟩
  | loopbackFrameAssembled t k bs =>
    exact ⟨_, rfl, .of_row t (f := fun s => afterLoopback k (loopbackTake k bs s))
      ((Moves.refl.to_loopbackTake k bs).to_afterLoopback k _)⟩
  | loopbackFrameTimeout t k =>
    exact ⟨_, rfl, .of_row t (f := fun s => afterLoopback k (loopbackLate k s))
      ((Moves.refl.to_loopbackLate k).to_afterLoopback k _)⟩
  | boxTimeTick t =>
    exact ⟨_, rfl, .of_row t Moves.refl.to_takeTick⟩
  | signatureCheckDue t => exact ⟨_, rfl, .of_row t Moves.refl.to_signatureDue⟩
  | converterCheckDue t => exact ⟨_, rfl, .of_row t Moves.refl.to_converterDue⟩
  | linkCharacterReceived t k c => exact ⟨_, rfl, .of_row t (Moves.refl.to_receiveChar k c)⟩
  | hostByteReceived t b => exact ⟨_, rfl, .of_row t (Moves.refl.to_receiveByte b)⟩

/-- What a reset keeps before its start runs: the queue, the stored image, and the Train Register and
Fault Monitor it is given. -/
theorem powerUp_moves (s : State) :
    ∃ f, Moves runKinds (freshState f (s.store.afterCut s.freeCount) {} 100 {}) (powerUp s)
      ∧ f.pending = s.pending :=
  ⟨_, Moves.refl.to_runStart .supply rfl, rfl⟩

theorem warmStart_moves (c : ResetCause) (s : State) :
    Moves runKinds (freshState s s.store.stored s.register (s.tickAt - s.now)
      (s.faults.warm (startReactions s.store.stored))) (warmStart c s) :=
  Moves.refl.to_runStart c rfl

end Sys2Proof.Machine
end

