-- ==== Sys2Proof/Laws/Finish.lean ====
section
/-! SUPPORT. What the end of a step does, said once: with no disagreement to report it leaves every part
of the state as it was, but for staged values that are taken, frames that links start, and the
transmitter. -/

set_option Elab.async false

namespace Sys2Proof.Machine

variable {s t u : State}

theorem KeptParts.refl (ps : List Part) (s : State) : KeptParts ps s s :=
  ⟨rfl, rfl, fun p _ => p.same_refl s⟩

theorem KeptParts.trans {ps : List Part} (h : KeptParts ps s t) (g : KeptParts ps t u) : KeptParts ps s u :=
  ⟨g.1.trans h.1, g.2.1.trans h.2.1, fun p hp => Part.same_trans (h.2.2 p hp) (g.2.2 p hp)⟩

theorem KeptParts.mono {ps qs : List Part} (h : KeptParts ps s u) (hq : ∀ p ∈ ps, p ∈ qs) :
    KeptParts qs s u := ⟨h.1, h.2.1, fun p hp => h.2.2 p fun hm => hp (hq p hm)⟩

/-- A change of the running time touches no part. -/
theorem keptParts_atTime (ps : List Part) (s : State) (t : Time) : KeptParts ps s (s.atTime t) :=
  ⟨rfl, rfl, fun p _ => by cases p <;> simp [Part.same]⟩

/-- The parts a kind of move touches, but for what the end of every step may do: the tables in force and
their writes, and the transmitter. -/
def Kind.main (k : Kind) : List Part :=
  match k with
  | .tables | .jobs | .reload => []
  | k => k.parts.filter (· != .transmitter)

theorem Kind.main_of_ne {k : Kind} {p : Part} (hs : p ≠ .store) (ht : p ≠ .transmitter)
    (hp : p ∈ k.parts) : p ∈ k.main := by
  cases k <;> simp_all [Kind.main, Kind.parts]

/-! ### Moves while nothing is staged -/

theorem noneStaged_of_leaves {ps : List Part} (h : Leaves ps s u) (hn : s.NoneStaged)
    (hc : .tracks ∉ ps) (ht : .timers ∉ ps) (hb : .bells ∉ ps) (ho : .outbound ∉ ps)
    (hl : .links ∉ ps) : u.NoneStaged := by
  have h1 : u.circuits = s.circuits := h.2.2.2 .tracks hc
  have h2 : u.timers = s.timers := h.2.2.2 .timers ht
  have h3 : u.bells = s.bells := h.2.2.2 .bells hb
  have h4 : u.outbound = s.outbound := h.2.2.2 .outbound ho
  have h5 : u.links = s.links := h.2.2.2 .links hl
  simp only [State.NoneStaged, h1, h2, h3, h4, h5]
  exact hn

theorem State.NoneStaged.modCircuit {k : Nat} {g : Circuit → Circuit} (h : s.NoneStaged)
    (hg : (s.circuit k).staged = [] → (g (s.circuit k)).staged = []) : (s.modCircuit k g).NoneStaged :=
  ⟨all_modAt h.1 hg, h.2⟩

/-- What moves of no row but STAGE, and of no start, do while no staged value is pending: none becomes
pending, and the store is left alone unless a kind is its own. -/
def Unstaged (ks : List Kind) (s u : State) : Prop :=
  u.NoneStaged ∧ (.store ∉ ks → .tables ∉ ks → .jobs ∉ ks → u.store = s.store)

theorem Unstaged.leaves {ks : List Kind} {ps : List Part} (h : Unstaged ks s t) (g : Leaves ps t u)
    (hp : Part.store ∉ ps ∧ .tracks ∉ ps ∧ .timers ∉ ps ∧ .bells ∉ ps ∧ .outbound ∉ ps ∧ .links ∉ ps :=
      by decide) : Unstaged ks s u :=
  ⟨noneStaged_of_leaves g h.1 hp.2.1 hp.2.2.1 hp.2.2.2.1 hp.2.2.2.2.1 hp.2.2.2.2.2,
    fun h1 h2 h3 => Eq.trans (g.2.2.2 .store hp.1) (h.2 h1 h2 h3)⟩

/-- What moves do while no staged value is pending. -/
theorem Moves.unstaged {ks : List Kind} (h : Moves ks s u) (hs : .stage ∉ ks) (hb : .begin ∉ ks)
    (hn : s.NoneStaged) : Unstaged ks s u := by
  induction h with
  | refl => exact ⟨hn, fun _ _ _ => rfl⟩
  | note key mask _ _ ih => exact (ih hs hb hn).leaves (leaves_raiseKey ..)
  | record e _ _ ih => exact (ih hs hb hn).leaves (leaves_append ..)
  | lever k g _ _ _ ih => exact (ih hs hb hn).leaves (leaves_modLever ..)
  | eval k _ _ ih => exact (ih hs hb hn).leaves (leaves_evaluate ..)
  | relever k g _ _ _ _ iht ih =>
    have h0 := ih hs hb hn
    have h1 := iht (by decide) (by decide) (h0.leaves (leaves_changeLever k g _)).1
    exact Unstaged.leaves ⟨h1.1, fun a b c => (h1.2 (by decide) (by decide) (by decide)).trans
      ((h0.leaves (leaves_changeLever k g _)).2 a b c)⟩ (leaves_evaluate ..)
  | faults g _ _ _ ih => exact (ih hs hb hn).leaves (leaves_modFaults ..)
  | @cause _ _ s0 _ c subject _ _ _ iht ih =>
    have h0 := ((ih hs hb hn).leaves (leaves_countOccurrence c subject _)).leaves
      (leaves_append (.faultRaised c subject (occurrence s0 c subject).reaction
        (occurrence s0 c subject).count) _)
    have h1 := iht (by decide) (by decide) h0.1
    have h2 := (show Unstaged _ _ _ from ⟨h1.1, fun a b c =>
      (h1.2 (by decide) (by decide) (by decide)).trans (h0.2 a b c)⟩)
    unfold suspendFor
    split
    · exact h2.leaves (leaves_restrict ..) (by simp [Kind.parts])
    · exact h2
  | restrict m _ _ _ ih => exact (ih hs hb hn).leaves (leaves_restrict ..) (by simp [Kind.parts])
  | serve m _ _ _ ih => exact (ih hs hb hn).leaves (leaves_serve ..) (by simp [Kind.parts])
  | circuit k g _ _ hg _ ih =>
    have h0 := ih hs hb hn
    exact ⟨h0.1.modCircuit (hg.resolve_left hs), h0.2⟩
  | circuits g _ _ hg _ ih =>
    have h0 := ih hs hb hn
    refine ⟨⟨fun c hc => ?_, h0.1.2⟩, h0.2⟩
    obtain ⟨d, hd, rfl⟩ := List.mem_map.1 hc
    exact hg d (h0.1.1 d hd)
  | fall k g _ _ hg _ ih =>
    have h0 := ih hs hb hn
    exact ⟨h0.1.modCircuit hg, h0.2⟩
  | clear k l _ _ _ _ ih =>
    have h0 := ih hs hb hn
    exact ⟨h0.1.modCircuit fun h => h, h0.2⟩
  | timer k g _ hg _ ih =>
    have h0 := ih hs hb hn
    exact ⟨⟨h0.1.1, all_modAt h0.1.2.1 (hg.resolve_left hs), h0.1.2.2⟩, h0.2⟩
  | bell k g _ hg _ ih =>
    have h0 := ih hs hb hn
    exact ⟨⟨h0.1.1, h0.1.2.1, all_modAt h0.1.2.2.1 (hg.resolve_left hs), h0.1.2.2.2⟩, h0.2⟩
  | outb k g _ hg _ ih =>
    have h0 := ih hs hb hn
    exact ⟨⟨h0.1.1, h0.1.2.1, h0.1.2.2.1, all_modAt h0.1.2.2.2.1 (hg.resolve_left hs), h0.1.2.2.2.2⟩,
      h0.2⟩
  | link k g _ hg _ ih =>
    have h0 := ih hs hb hn
    exact ⟨⟨h0.1.1, h0.1.2.1, h0.1.2.2.1, h0.1.2.2.2.1, all_modAt h0.1.2.2.2.2 (hg.resolve_left hs)⟩,
      h0.2⟩
  | store g h _ _ ih => exact ⟨(ih hs hb hn).1, fun a => absurd h a⟩
  | tables g h _ ih => exact ⟨(ih hs hb hn).1, fun _ a => absurd h a⟩
  | jobs p w h _ ih => exact ⟨(ih hs hb hn).1, fun _ _ a => absurd h a⟩
  | reload a b v _ hv _ ih => exact absurd (ih hs hb hn).1 hv
  | begin i h _ _ _ => exact absurd h hb
  | converter g _ _ ih => exact ih hs hb hn
  | board k g _ _ ih => exact ih hs hb hn
  | instrument k g _ _ ih => exact ih hs hb hn
  | hold k g _ _ ih => exact ih hs hb hn
  | inb k g _ _ ih => exact ih hs hb hn
  | clock g _ _ _ ih => exact ih hs hb hn
  | host g _ _ ih => exact ih hs hb hn
  | start p _ _ ih => exact ih hs hb hn
  | scan n p _ _ ih => exact ih hs hb hn
  | time t _ _ ih => exact ih hs hb hn
  | tick n _ _ ih => exact ih hs hb hn

/-- A change that leaves the store alone leaves alone all of it but what reload points touch. -/
theorem Leaves.store_kept {ps : List Part} (h : Leaves ps s u) (hp : Part.store ∉ ps) :
    u.store.kept = s.store.kept := congrArg Store.kept (h.2.2.2 .store hp)

/-- Moves of no start and not of the store's own kind leave the store alone but for the tables in force
and their writes. -/
theorem Moves.store_kept {ks : List Kind} (h : Moves ks s u) (hs : .store ∉ ks) (hb : .begin ∉ ks) :
    u.store.kept = s.store.kept := by
  induction h with
  | relever k g _ _ _ _ iht ih =>
    exact ((leaves_evaluate ..).store_kept (by decide)).trans ((iht (by decide) (by decide)).trans
      (((leaves_changeLever k g _).store_kept (by decide)).trans (ih hs hb)))
  | cause c subject _ _ _ iht ih =>
    have h1 := (iht (by decide) (by decide)).trans ((leaves_append _ _).store_kept (by decide))
    have h2 := (h1.trans ((leaves_countOccurrence c subject _).store_kept (by decide))).trans (ih hs hb)
    unfold suspendFor
    split
    · exact ((leaves_restrict ..).store_kept (by simp [Kind.parts])).trans h2
    · exact h2
  | eval k _ _ ih => exact ((leaves_evaluate ..).store_kept (by decide)).trans (ih hs hb)
  | restrict m _ _ _ ih => exact ((leaves_restrict ..).store_kept (by simp [Kind.parts])).trans (ih hs hb)
  | serve m _ _ _ ih => exact ((leaves_serve ..).store_kept (by simp [Kind.parts])).trans (ih hs hb)
  | store g h _ _ _ => exact absurd h hs
  | begin i h _ _ _ => exact absurd h hb
  | refl => rfl
  | _ => rename_i ih; exact ih hs hb

/-- Moves touch no part that is the main business of none of their kinds. -/
theorem Moves.keptParts {ks : List Kind} (h : Moves ks s u) {ps : List Part}
    (hp : ∀ k ∈ ks, ∀ q ∈ k.main, q ∈ ps := by decide) : KeptParts ps s u :=
  ⟨h.untouched.2.1, h.untouched.2.2.1, fun p hm => by
    by_cases hs : p = .store
    · subst hs
      exact h.store_kept (fun hk => hm (hp _ hk _ (by decide))) fun hk => hm (hp _ hk _ (by decide))
    · by_cases ht : p = .transmitter
      · subst ht; trivial
      · exact Part.same_of_exactly (h.untouched.1 p fun k hk hq =>
          hm (hp k hk p (Kind.main_of_ne hs ht hq)))⟩

/-! ### The end of a step -/

theorem settleMismatches_of_undisputed (n : Nat) (h : s.Undisputed) :
    settleMismatches n s = s := by
  cases n with
  | zero => rfl
  | succ n =>
    have : (s.levers.any (·.mismatchDue)) = false := by
      rw [List.any_eq_false]
      intro l hl
      simp [(h l hl).2]
    simp [settleMismatches, this]

/-- A change that the end of a step may make: it keeps every part, and the running time. -/
def Slight (s u : State) : Prop := KeptParts [] s u ∧ u.now = s.now

theorem Slight.refl (s : State) : Slight s s := ⟨.refl [] s, rfl⟩

theorem Slight.trans (h : Slight s t) (g : Slight t u) : Slight s u :=
  ⟨h.1.trans g.1, g.2.trans h.2⟩

theorem slight_raiseKey (key : Key) (mask : Word32) (s : State) : Slight s (raiseKey key mask s) :=
  ⟨⟨rfl, rfl, fun p _ => by cases p <;> simp [Part.same, raiseKey]⟩, rfl⟩

theorem slight_modTimer (k : Nat) (g : Timer → Timer) (s : State)
    (h : (g (s.timer k)).kept = (s.timer k).kept) : Slight s (s.modTimer k g) :=
  ⟨⟨rfl, rfl, fun p _ => by
    cases p <;> (simp only [Part.same, State.modTimer, and_self]; try exact map_modAt _ _ _ _ _ h)⟩, rfl⟩

theorem slight_modBell (k : Nat) (g : Bell → Bell) (s : State)
    (h : (g (s.bell k)).kept = (s.bell k).kept) : Slight s (s.modBell k g) :=
  ⟨⟨rfl, rfl, fun p _ => by
    cases p <;> (simp only [Part.same, State.modBell, and_self]; try exact map_modAt _ _ _ _ _ h)⟩, rfl⟩

theorem slight_modOutb (k : Nat) (g : Outbound → Outbound) (s : State)
    (h : (g (s.outb k)).kept = (s.outb k).kept) : Slight s (s.modOutb k g) :=
  ⟨⟨rfl, rfl, fun p _ => by
    cases p <;> (simp only [Part.same, State.modOutb, and_self]; try exact map_modAt _ _ _ _ _ h)⟩, rfl⟩

theorem slight_modLink (k : Nat) (g : Link → Link) (s : State)
    (h : (g (s.link k)).kept = (s.link k).kept) : Slight s (s.modLink k g) :=
  ⟨⟨rfl, rfl, fun p _ => by
    cases p <;> (simp only [Part.same, State.modLink, and_self]; try exact map_modAt _ _ _ _ _ h)⟩, rfl⟩

theorem slight_applyStaged (table record : Nat) (vs : List (Nat × Nat)) (s : State) :
    Slight s (applyStaged table record vs s) :=
  ⟨⟨rfl, rfl, fun p _ => by
    cases p <;> simp [Part.same, applyStaged, queueJob, State.modTables, Store.kept]⟩, rfl⟩

theorem slight_modHost (g : HostPort → HostPort) (s : State) (h : (g s.host).kept = s.host.kept) :
    Slight s (s.modHost g) :=
  ⟨⟨rfl, rfl, fun p _ => by
    simp only [HostPort.kept, HostPort.mk.injEq] at h
    cases p <;> simp [Part.same, h]⟩, rfl⟩

theorem slight_forEach {f : Nat → State → State} (ns : List Nat) (s : State)
    (hf : ∀ n s, Slight s (f n s)) : Slight s (forEach ns f s) :=
  forEach_keeps (I := Slight s) ns (fun n _ t ht => ht.trans (hf n t)) s (.refl s)

theorem slight_reloadTimer (r : Nat) (s : State) : Slight s (reloadTimer r s) := by
  simp only [reloadTimer]
  split
  · exact .refl s
  · exact ((slight_applyStaged ..).trans (slight_modTimer r _ _ rfl)).trans (slight_raiseKey ..)

theorem slight_reloadBell (k : Nat) (s : State) : Slight s (reloadBell k s) := by
  simp only [reloadBell]
  split
  · exact .refl s
  · exact ((slight_applyStaged ..).trans (slight_modBell k _ _ rfl)).trans (slight_raiseKey ..)

theorem slight_reloadLine (k : Nat) (s : State) : Slight s (reloadLine k s) := by
  simp only [reloadLine]
  split
  · exact .refl s
  · exact ((slight_applyStaged ..).trans (slight_modOutb k _ _ rfl)).trans (slight_raiseKey ..)

theorem slight_reloadLink (k : Nat) (s : State) : Slight s (reloadLink k s) := by
  simp only [reloadLink]
  split
  · exact .refl s
  · exact (((slight_applyStaged ..).trans (slight_modLink k _ _ rfl)).trans
      (slight_raiseKey ..)).trans (slight_raiseKey ..)

theorem slight_reloadAll (s : State) : Slight s (reloadAll s) :=
  (((slight_forEach _ _ slight_reloadTimer).trans (slight_forEach _ _ slight_reloadBell)).trans
    (slight_forEach _ _ slight_reloadLine)).trans (slight_forEach _ _ slight_reloadLink)

theorem slight_startBidding (k : Nat) (s : State) : Slight s (startBidding k s) := by
  simp only [startBidding]
  split
  · exact slight_modLink k _ s rfl
  · exact .refl s

theorem slight_startFrame (k : Nat) (s : State) : Slight s (startFrame k s) := by
  unfold startFrame
  split
  · exact .refl s
  · split
    · exact slight_modLink k _ s rfl
    · exact .refl s

theorem slight_pumpLink (k : Nat) (s : State) : Slight s (pumpLink k s) :=
  (slight_startBidding k s).trans (slight_startFrame k _)

theorem chooseFrame_kept (b : Bool) (h : HostPort) : (chooseFrame b h).kept = h.kept := by
  unfold chooseFrame
  split <;> first | rfl | (split <;> rfl)

/-- The end of a step, where no disagreement is to be reported, keeps every part, and the running
time. -/
theorem finish_slight (h : s.Undisputed) : Slight s (finish s) := by
  have h1 := slight_reloadAll s
  have h2 := h1.trans (slight_forEach (upTo 3) _ slight_pumpLink)
  have h3 := h2.trans (slight_modHost
    (chooseFrame (forEach (upTo 3) pumpLink (reloadAll s)).start.isNone) _ (chooseFrame_kept _ _))
  simpa only [finish, kickHost, settleMismatches_of_undisputed 64 h] using h3

/-- A part that is the same, and is not one of the four with something left out, is exactly the
same. -/
theorem finish_part (h : s.Undisputed) (p : Part) : p.same s (finish s) :=
  (finish_slight h).1.2.2 p (by simp)

@[simp] theorem finish_pending (h : s.Undisputed) : (finish s).pending = s.pending :=
  (finish_slight h).1.1
@[simp] theorem finish_freeCount (h : s.Undisputed) : (finish s).freeCount = s.freeCount :=
  (finish_slight h).1.2.1
@[simp] theorem finish_now (h : s.Undisputed) : (finish s).now = s.now := (finish_slight h).2
@[simp] theorem finish_mode (h : s.Undisputed) : (finish s).mode = s.mode := (finish_part h .mode).1
@[simp] theorem finish_start (h : s.Undisputed) : (finish s).start = s.start :=
  (finish_part h .mode).2
@[simp] theorem finish_circuits (h : s.Undisputed) : (finish s).circuits = s.circuits :=
  finish_part h .tracks
@[simp] theorem finish_converter (h : s.Undisputed) : (finish s).converter = s.converter :=
  finish_part h .converter
@[simp] theorem finish_boards (h : s.Undisputed) : (finish s).boards = s.boards :=
  (finish_part h .boards).1
@[simp] theorem finish_scan (h : s.Undisputed) : (finish s).scan = s.scan :=
  (finish_part h .boards).2.1
@[simp] theorem finish_polled (h : s.Undisputed) : (finish s).polled = s.polled :=
  (finish_part h .boards).2.2
@[simp] theorem finish_levers (h : s.Undisputed) : (finish s).levers = s.levers :=
  finish_part h .levers
@[simp] theorem finish_instruments (h : s.Undisputed) : (finish s).instruments = s.instruments :=
  finish_part h .instruments
@[simp] theorem finish_holds (h : s.Undisputed) : (finish s).holds = s.holds := finish_part h .holds
@[simp] theorem finish_inbound (h : s.Undisputed) : (finish s).inbound = s.inbound :=
  finish_part h .inbound
@[simp] theorem finish_register (h : s.Undisputed) : (finish s).register = s.register :=
  finish_part h .register
@[simp] theorem finish_faults (h : s.Undisputed) : (finish s).faults = s.faults :=
  finish_part h .faults
@[simp] theorem finish_executing (h : s.Undisputed) :
    (finish s).host.executing = s.host.executing := (finish_part h .batch).1
@[simp] theorem finish_waiting (h : s.Undisputed) : (finish s).host.waiting = s.host.waiting :=
  (finish_part h .batch).2.1
@[simp] theorem finish_flags (h : s.Undisputed) : (finish s).host.flags = s.host.flags :=
  (finish_part h .batch).2.2.1
@[simp] theorem finish_warm (h : s.Undisputed) : (finish s).host.warm = s.host.warm :=
  (finish_part h .batch).2.2.2
@[simp] theorem finish_receiving (h : s.Undisputed) :
    (finish s).host.receiving = s.host.receiving := finish_part h .receiver
@[simp] theorem finish_lastResult (h : s.Undisputed) :
    (finish s).host.lastResult = s.host.lastResult := finish_part h .result

/-- What the records of a list agree on record by record. -/
theorem nth_of_map {α β : Type} {f : α → β} {l m : List α} (d : α) (h : l.map f = m.map f) (k : Nat) :
    f (nth l d k) = f (nth m d k) := by
  have hl : l.length = m.length := by simpa using congrArg List.length h
  by_cases hk : within k l.length = true
  · obtain ⟨j, rfl⟩ : ∃ j, k = j + 1 := ⟨k - 1, by have := (within_iff _ _).1 hk; omega⟩
    have hj : j < l.length := by have := (within_iff _ _).1 hk; omega
    have := congrArg (fun x => x[j]?) h
    simpa [nth, List.getD, hj, hl ▸ hj] using this
  · have hk' : within k l.length = false := by simpa using hk
    rw [nth_outside l d k hk', nth_outside m d k (hl ▸ hk')]

theorem finish_timer (h : s.Undisputed) (k : Nat) : ((finish s).timer k).kept = (s.timer k).kept :=
  nth_of_map ({} : Timer) (finish_part h .timers) k
theorem finish_bell (h : s.Undisputed) (k : Nat) : ((finish s).bell k).kept = (s.bell k).kept :=
  nth_of_map ({} : Bell) (finish_part h .bells) k
theorem finish_outb (h : s.Undisputed) (k : Nat) : ((finish s).outb k).kept = (s.outb k).kept :=
  nth_of_map ({} : Outbound) (finish_part h .outbound) k
theorem finish_link (h : s.Undisputed) (k : Nat) : ((finish s).link k).kept = (s.link k).kept :=
  nth_of_map ({} : Link) (finish_part h .links) k

/-! ### The turns of a batch before a row -/

theorem takeTurns_of_none (h : turnDue s = none) (n : Nat) : takeTurns n s = s := by
  have hi : idle s = s := by simp only [idle, h]
  induction n with
  | zero => rfl
  | succ n ih => rw [takeTurns, hi, ih]

/-- A row with no turn to be taken before it moves the running time alone. -/
theorem comeTo_of_prompt {t : Time} (h : turnDue s = none ∨ t ≤ s.now) : s.comeTo t = s.atTime t := by
  unfold State.comeTo
  split
  · next hl => rw [takeTurns_of_none (h.resolve_right (Nat.not_le.2 hl))]
  · rfl

@[simp] theorem atTime_atTime (s : State) (t : Time) : (s.atTime t).atTime t = s.atTime t := by
  simp only [State.atTime, Nat.max_assoc, Nat.max_self]

@[simp] theorem comeTo_comeTo (s : State) (t : Time) : (s.comeTo t).comeTo t = s.comeTo t := by
  rw [comeTo_of_prompt (.inr (Nat.le_max_right _ t)), State.comeTo, atTime_atTime]

/-- Moves that are none of the batch leave its places and the warm start alone. -/
theorem Moves.places {ks : List Kind} (h : Moves ks s u) (hb : .batch ∉ ks) :
    u.host.executing = s.host.executing ∧ u.host.waiting = s.host.waiting
      ∧ u.host.warm = s.host.warm := by
  have of {v w : State} {ps : List Part} (g : Leaves ps v w) (hp : .batch ∉ ps := by decide) :
      w.host.executing = v.host.executing ∧ w.host.waiting = v.host.waiting
        ∧ w.host.warm = v.host.warm :=
    have e := g.2.2.2 .batch hp
    ⟨e.1, e.2.1, e.2.2.2⟩
  have andThen {v w x : State}
      (f : w.host.executing = v.host.executing ∧ w.host.waiting = v.host.waiting
        ∧ w.host.warm = v.host.warm)
      (g : x.host.executing = w.host.executing ∧ x.host.waiting = w.host.waiting
        ∧ x.host.warm = w.host.warm) :
      x.host.executing = v.host.executing ∧ x.host.waiting = v.host.waiting
        ∧ x.host.warm = v.host.warm :=
    ⟨g.1.trans f.1, g.2.1.trans f.2.1, g.2.2.trans f.2.2⟩
  induction h with
  | refl => exact ⟨rfl, rfl, rfl⟩
  | note key mask _ _ ih => exact andThen (ih hb) (of (leaves_raiseKey ..))
  | record e _ _ ih => exact andThen (ih hb) (of (leaves_append ..))
  | eval k _ _ ih => exact andThen (ih hb) (of (leaves_evaluate ..))
  | relever k g _ _ _ _ iht ih =>
    exact andThen (andThen (andThen (ih hb) (of (leaves_changeLever k g _))) (iht (by decide)))
      (of (leaves_evaluate ..))
  | @cause _ _ s0 _ c subject _ _ _ iht ih =>
    have h1 := andThen (andThen (andThen (ih hb) (of (leaves_countOccurrence c subject _)))
      (of (leaves_append (.faultRaised c subject (occurrence s0 c subject).reaction
        (occurrence s0 c subject).count) _))) (iht (by decide))
    unfold suspendFor
    split
    · exact andThen h1 (of (leaves_restrict ..))
    · exact h1
  | restrict m _ _ _ ih => exact andThen (ih hb) (of (leaves_restrict ..))
  | serve m _ _ _ ih => exact andThen (ih hb) (of (leaves_serve ..))
  | host g hg _ ih => exact andThen (ih hb) (hg.1.resolve_left hb)
  | _ => exact ‹_ ∉ _ → _› hb

/-- Whether a turn is due, and how many are left, hang on the two places and the warm start alone. -/
theorem turns_of_places (h : u.host.executing = s.host.executing ∧ u.host.waiting = s.host.waiting
    ∧ u.host.warm = s.host.warm) : turnDue u = turnDue s ∧ turnsLeft u = turnsLeft s := by
  simp only [turnDue, turnsLeft, h.1, h.2.1, h.2.2, and_self]

/-- When a batch has ended, no turn is left but those of the waiting request. -/
theorem turns_endBatch (tag : Byte) (rs : List CmdResult) :
    turnDue (advanceQueue (endBatch tag rs none s)) = none
      ∨ turnsLeft (advanceQueue (endBatch tag rs none s))
        ≤ (s.host.waiting.map fun r => r.commands.length + 2).getD 0 := by
  cases hw : s.host.waiting with
  | none => exact .inl (by simp [advanceQueue, endBatch, readyFrame, turnDue, hw])
  | some r =>
    cases hm : s.host.warm with
    | none => exact .inr (by simp [advanceQueue, endBatch, readyFrame, beginBatch, turnsLeft, hw, hm])
    | some w => exact .inl (by simp [advanceQueue, endBatch, readyFrame, turnDue, hw, hm])

/-- When a command of a batch has its result, no turn is left but those of the commands after it and of the
waiting request. -/
theorem turns_giveResult (b : Batch) (q : CmdResult) (skip : Bool) :
    turnDue (advanceQueue (giveResult b q skip s)) = none
      ∨ turnsLeft (advanceQueue (giveResult b q skip s))
        ≤ b.rest.length + 1 + (s.host.waiting.map fun r => r.commands.length + 2).getD 0 := by
  unfold giveResult
  dsimp only
  split
  · exact (turns_endBatch ..).imp_right fun h => h.trans (Nat.le_add_left _ _)
  · exact .inr (by simp [advanceQueue, turnsLeft])

/-- The turns that can still be taken before an event grow fewer with each one taken. -/
theorem idle_turns (h : turnDue s ≠ none) :
    turnDue (idle s) = none ∨ turnsLeft (idle s) < turnsLeft s := by
  obtain ⟨b, hb⟩ := Option.ne_none_iff_exists'.1 h
  have he : s.host.executing = some b := by
    unfold turnDue at hb
    split at hb
    · cases hb
    · exact (Option.filter_eq_some_iff.1 hb).1
  have hw : s.host.warm = none := by
    unfold turnDue at hb
    split at hb
    · cases hb
    · next hn => simpa using hn
  have e := turns_of_places ((Moves.refl (ks := finishKinds) (s := nextTurn s)).to_finish.places
    (by decide))
  have hn : nextTurn s = advanceQueue (takeTurn b s) := by simp only [nextTurn, hb]
  simp only [idle, hb]
  rw [e.1, e.2, hn]
  have left : turnsLeft s
      = b.rest.length + 1 + (s.host.waiting.map fun r => r.commands.length + 2).getD 0 := by
    simp only [turnsLeft, he, Option.map_some, Option.getD_some]
  have given (v : State) (b' : Batch) (q : CmdResult) (skip : Bool)
      (hv : v.host.waiting = s.host.waiting) (hl : b'.rest.length < b.rest.length) :
      turnDue (advanceQueue (giveResult b' q skip v)) = none
        ∨ turnsLeft (advanceQueue (giveResult b' q skip v)) < turnsLeft s := by
    refine (turns_giveResult (s := v) b' q skip).imp_right fun h => ?_
    rw [hv] at h
    omega
  cases hr : b.rest with
  | nil =>
    simp only [takeTurn, hr]
    exact (turns_endBatch ..).imp_right fun h => by omega
  | cons c cs =>
    have hl : cs.length < b.rest.length := by rw [hr]; exact Nat.lt_succ_self _
    simp only [takeTurn, hr]
    split
    · exact given s { b with rest := cs } _ _ rfl hl
    · have ran := ((Moves.refl (ks := commandKinds) (s := s)).to_runChecked b.count b.results c).places
        (by decide)
      split
      · next e =>
        rw [e] at ran
        split
        · exact .inl (by simp [advanceQueue, cutBatch, endBatch, readyFrame, turnDue])
        · exact given _ { b with rest := cs } _ _ ran.2.1 hl
      · next e =>
        rw [e] at ran
        exact given _ { b with rest := cs } _ _ ran.2.1 hl
      · exact .inl (by simp [advanceQueue, turnDue, Option.filter])

/-! ### Rows -/

/-- Moves that touch no lever and raise no cause leave the part undisputed. -/
theorem Moves.undisputed_of_away {ks : List Kind} (h : Moves ks s u) (hs : s.Undisputed)
    (hp : ∀ k ∈ ks, Part.levers ∉ k.parts := by decide) : u.Undisputed := by
  have : u.levers = s.levers := h.exactly .levers hp
  unfold State.Undisputed
  rw [this]
  exact hs

@[simp] theorem undisputed_atTime (s : State) (t : Time) :
    (s.atTime t).Undisputed ↔ s.Undisputed := Iff.rfl

/-- A row whose effect leaves the part undisputed, taken with no turn before it, touches what its effect
touches. -/
theorem keptParts_row {ps : List Part} (t : Time) {f : State → State}
    (hf : KeptParts ps (s.atTime t) (f (s.atTime t))) (hu : (f (s.atTime t)).Undisputed) :
    KeptParts ps s (finish (f (s.atTime t))) :=
  ((keptParts_atTime ps s t).trans hf).trans ((finish_slight hu).1.mono (by simp))

/-! ### The end of a step while nothing is staged -/

theorem forEach_id {f : Nat → State → State} (ns : List Nat) (s : State)
    (h : ∀ n, f n s = s) : forEach ns f s = s := by
  induction ns with
  | nil => rfl
  | cons n ns ih => exact (congrArg (forEach ns f) (h n)).trans ih

theorem startBidding_host (k : Nat) (s : State) : (startBidding k s).host = s.host := by
  simp only [startBidding]
  split <;> rfl

theorem startFrame_host (k : Nat) (s : State) : (startFrame k s).host = s.host := by
  unfold startFrame
  split
  · rfl
  · split <;> rfl

theorem reloadAll_of_noneStaged (h : s.NoneStaged) : reloadAll s = s := by
  have h1 : forEach (upTo 16) reloadTimer s = s :=
    forEach_id _ s fun k => by simp [reloadTimer, h.timer k]
  have h2 : forEach (upTo 3) reloadBell s = s :=
    forEach_id _ s fun k => by simp [reloadBell, h.bell k]
  have h3 : forEach (upTo 3) reloadLine s = s :=
    forEach_id _ s fun k => by simp [reloadLine, h.outb k]
  have h4 : forEach (upTo 3) reloadLink s = s :=
    forEach_id _ s fun k => by simp [reloadLink, h.link k]
  simp only [reloadAll, h1, h2, h3, h4]

/-- The end of a step, with no disagreement to report and nothing staged: the links start what they can,
and the transmitter chooses its next frame. -/
theorem finish_of_noneStaged (h : s.Undisputed) (hn : s.NoneStaged) :
    finish s = kickHost (forEach (upTo 3) pumpLink s) := by
  simp only [finish, settleMismatches_of_undisputed 64 h, reloadAll_of_noneStaged hn]

/-- With nothing staged, the end of a step leaves the store exactly as it was, and the Host Port but for
the frame chosen. -/
theorem finish_unstaged (h : s.Undisputed) (hn : s.NoneStaged) :
    (finish s).store = s.store ∧ (finish s).host = chooseFrame s.start.isNone s.host := by
  have m : Moves [.link] s (forEach (upTo 3) pumpLink s) :=
    Moves.refl.to_forEach _ fun k _ => Moves.refl.to_pumpLink k
  have hh : (forEach (upTo 3) pumpLink s).host = s.host :=
    forEach_keeps (I := fun t => t.host = s.host) _
      (fun k _ t ht => ((startFrame_host k _).trans (startBidding_host k t)).trans ht) s rfl
  rw [finish_of_noneStaged h hn]
  generalize forEach (upTo 3) pumpLink s = t at m hh
  refine ⟨m.exactly .store, ?_⟩
  rw [← hh, ← (m.exactly .mode).2]
  rfl

/-- What a choice of a frame leaves alone. -/
theorem chooseFrame_with (b : Bool) (h : HostPort) :
    { chooseFrame b h with sending := h.sending, ready := h.ready, notices := h.notices } = h := by
  cases h
  unfold chooseFrame
  split <;> (first | rfl | (split <;> rfl))

/-- Everything that a row leaves alone, read off the kinds of its moves. -/
theorem Moves.keptBut {ks : List Kind} {ps : List Part} (t : Time) {f : State → State}
    (hm : Moves ks (s.atTime t) (f (s.atTime t))) (hu : (f (s.atTime t)).Undisputed)
    (hp : ∀ k ∈ ks, ∀ q ∈ k.main, q ∈ ps := by decide)
    (hb : Kind.stage ∉ ks ∧ .begin ∉ ks := by decide)
    (hs : Part.store ∈ ps ∨ (Kind.store ∉ ks ∧ .tables ∉ ks ∧ .jobs ∉ ks) := by decide)
    (hq : (∃ p ∈ ps, p.silent = false) ∨ ∀ k ∈ ks, Part.transmitter ∉ k.parts := by decide) :
    KeptBut ps s (finish (f (s.atTime t))) := by
  refine ⟨keptParts_row t (hm.keptParts hp) hu, fun hn => ?_⟩
  have un := hm.unstaged hb.1 hb.2 hn
  have fin := finish_unstaged hu un.1
  constructor
  · intro hns
    have hk := hs.resolve_left hns
    exact fin.1.trans (un.2 hk.1 hk.2.1 hk.2.2)
  · intro hsil
    have htr := hq.resolve_left fun ⟨p, hpm, hpf⟩ => by rw [hsil p hpm] at hpf; cases hpf
    obtain ⟨e1, e2, e3⟩ := hm.exactly .transmitter htr
    have e1' : (f (s.atTime t)).host.sending = s.host.sending := e1
    have e2' : (f (s.atTime t)).host.ready = s.host.ready := e2
    have e3' : (f (s.atTime t)).host.notices = s.host.notices := e3
    simp only [HostQuiet, fin.2, finish_start hu]
    rw [← e1', ← e2', ← e3', chooseFrame_with]
    exact ⟨rfl, rfl, rfl⟩

/-- What a row does, taken with no turn of a batch before it, from the moves of its effect `f`. -/
theorem Takes.of_row {i : Instr} {ks : List Kind} {ps : List Part} {P : State → Prop} (t : Time)
    {f : State → State} (hi : exec i s = .next (finish (f (s.comeTo t)))) (ht : i.time = some t)
    (hm : Moves ks (s.atTime t) (f (s.atTime t))) (hu : (f (s.atTime t)).Undisputed)
    (hP : P (finish (f (s.atTime t)))) (hn : (f (s.atTime t)).now = max s.now t)
    (hp : ∀ k ∈ ks, ∀ q ∈ k.main, q ∈ ps := by decide)
    (hb : Kind.stage ∉ ks ∧ .begin ∉ ks := by decide)
    (hs : Part.store ∈ ps ∨ (Kind.store ∉ ks ∧ .tables ∉ ks ∧ .jobs ∉ ks) := by decide)
    (hq : (∃ p ∈ ps, p.silent = false) ∨ ∀ k ∈ ks, Part.transmitter ∉ k.parts := by decide) :
    Takes i s ps P := by
  intro h
  rw [comeTo_of_prompt (h.imp_right fun h => h t ht)] at hi
  refine ⟨_, hi, fun x hx => ?_, hm.keptBut t hu hp hb hs hq, hP⟩
  rw [ht] at hx
  cases hx
  rw [finish_now hu, hn]

end Sys2Proof.Machine
end

