-- ==== Sys2Proof/Laws/PerInstr.lean ====
section
/-! SUPPORT. One lemma per row, for statements made of every row as syntax. -/

set_option Elab.async false

namespace Sys2Proof.Laws

/-- Every row but the two resets carries the running time it is taken at, and a row that carries one is
no reset (log entry 1). -/
def TimedRows.Statement (i : Instr) : Prop :=
  i.time = none ↔ i = .powerUpReset ∨ i = .warmStart

/-- A row that carries a running time is no reset. -/
theorem timed {i : Instr} {t : Time} (h : i.time = some t) : TimedRows.Statement i :=
  ⟨fun n => by simp [n] at h, fun r => by rcases r with rfl | rfl <;> cases h⟩

theorem TimedRows.powerUpReset :
    TimedRows.Statement .powerUpReset := ⟨fun _ => .inl rfl, fun _ => rfl⟩

theorem TimedRows.warmStart :
    TimedRows.Statement .warmStart := ⟨fun _ => .inr rfl, fun _ => rfl⟩

theorem TimedRows.hostRequestFrame (t : Time) (bytes : List Byte) :
    TimedRows.Statement (.hostRequestFrame t bytes) := timed rfl

theorem TimedRows.hostInterbyteTimeout (t : Time) :
    TimedRows.Statement (.hostInterbyteTimeout t) := timed rfl

theorem TimedRows.hostFrameSent (t : Time) :
    TimedRows.Statement (.hostFrameSent t) := timed rfl

theorem TimedRows.readTracks (t : Time) (first count : Nat) :
    TimedRows.Statement (.readTracks t first count) := timed rfl

theorem TimedRows.testTrack (t : Time) (flag circuit wanted : Nat) :
    TimedRows.Statement (.testTrack t flag circuit wanted) := timed rfl

theorem TimedRows.learnReference (t : Time) (circuit : Nat) :
    TimedRows.Statement (.learnReference t circuit) := timed rfl

theorem TimedRows.readLevers (t : Time) (first count : Nat) :
    TimedRows.Statement (.readLevers t first count) := timed rfl

theorem TimedRows.testLever (t : Time) (flag lever wanted : Nat) :
    TimedRows.Statement (.testLever t flag lever wanted) := timed rfl

theorem TimedRows.takeOutOfUse (t : Time) (lever : Nat) :
    TimedRows.Statement (.takeOutOfUse t lever) := timed rfl

theorem TimedRows.bringIntoUse (t : Time) (lever : Nat) :
    TimedRows.Statement (.bringIntoUse t lever) := timed rfl

theorem TimedRows.readHolds (t : Time) (first count : Nat) :
    TimedRows.Statement (.readHolds t first count) := timed rfl

theorem TimedRows.testHold (t : Time) (flag hold wanted : Nat) :
    TimedRows.Statement (.testHold t flag hold wanted) := timed rfl

theorem TimedRows.readReleases (t : Time) (first count : Nat) :
    TimedRows.Statement (.readReleases t first count) := timed rfl

theorem TimedRows.requestRelease (t : Time) (release : Nat) :
    TimedRows.Statement (.requestRelease t release) := timed rfl

theorem TimedRows.cancelRelease (t : Time) (release : Nat) :
    TimedRows.Statement (.cancelRelease t release) := timed rfl

theorem TimedRows.sendCode (t : Time) (link : Nat) (groups : List Nat) :
    TimedRows.Statement (.sendCode t link groups) := timed rfl

theorem TimedRows.readLines (t : Time) (first count : Nat) :
    TimedRows.Statement (.readLines t first count) := timed rfl

theorem TimedRows.testLine (t : Time) (flag line wanted : Nat) :
    TimedRows.Statement (.testLine t flag line wanted) := timed rfl

theorem TimedRows.runTestLink (t : Time) (link : Nat) :
    TimedRows.Statement (.runTestLink t link) := timed rfl

theorem TimedRows.runTestTable (t : Time) :
    TimedRows.Statement (.runTestTable t) := timed rfl

theorem TimedRows.readRegister (t : Time) (count : Nat) :
    TimedRows.Statement (.readRegister t count) := timed rfl

theorem TimedRows.advanceRegister (t : Time) (count : Nat) :
    TimedRows.Statement (.advanceRegister t count) := timed rfl

theorem TimedRows.setClock (t : Time) (day tenths : Nat) :
    TimedRows.Statement (.setClock t day tenths) := timed rfl

theorem TimedRows.readFaults (t : Time) (first count : Nat) :
    TimedRows.Statement (.readFaults t first count) := timed rfl

theorem TimedRows.testFault (t : Time) (flag source subject wanted : Nat) :
    TimedRows.Statement (.testFault t flag source subject wanted) := timed rfl

theorem TimedRows.clearFault (t : Time) (source subject : Nat) :
    TimedRows.Statement (.clearFault t source subject) := timed rfl

theorem TimedRows.resume (t : Time) :
    TimedRows.Statement (.resume t) := timed rfl

theorem TimedRows.openEdit (t : Time) :
    TimedRows.Statement (.openEdit t) := timed rfl

theorem TimedRows.writeTable (t : Time) (table record : Nat) (fields : List Byte) :
    TimedRows.Statement (.writeTable t table record fields) := timed rfl

theorem TimedRows.readTable (t : Time) (table record : Nat) :
    TimedRows.Statement (.readTable t table record) := timed rfl

theorem TimedRows.commit (t : Time) :
    TimedRows.Statement (.commit t) := timed rfl

theorem TimedRows.abandonEdit (t : Time) :
    TimedRows.Statement (.abandonEdit t) := timed rfl

theorem TimedRows.stage (t : Time) (table record field : Nat) (value : List Byte) :
    TimedRows.Statement (.stage t table record field value) := timed rfl

theorem TimedRows.readStatus (t : Time) :
    TimedRows.Statement (.readStatus t) := timed rfl

theorem TimedRows.warmReset (t : Time) :
    TimedRows.Statement (.warmReset t) := timed rfl

theorem TimedRows.imageWriteComplete (t : Time) :
    TimedRows.Statement (.imageWriteComplete t) := timed rfl

theorem TimedRows.pulseRisingEdge (t : Time) (circuit : Nat) :
    TimedRows.Statement (.pulseRisingEdge t circuit) := timed rfl

theorem TimedRows.pulseFallingEdge (t : Time) (circuit : Nat) :
    TimedRows.Statement (.pulseFallingEdge t circuit) := timed rfl

theorem TimedRows.candidateTimeout (t : Time) (circuit : Nat) :
    TimedRows.Statement (.candidateTimeout t circuit) := timed rfl

theorem TimedRows.codeLost (t : Time) (circuit : Nat) :
    TimedRows.Statement (.codeLost t circuit) := timed rfl

theorem TimedRows.pulseEndConversionComplete (t : Time) (amplitude : Nat) :
    TimedRows.Statement (.pulseEndConversionComplete t amplitude) := timed rfl

theorem TimedRows.wiringTestDue (t : Time) (circuit : Nat) :
    TimedRows.Statement (.wiringTestDue t circuit) := timed rfl

theorem TimedRows.wiringLoadTimeEnd (t : Time) (circuit : Nat) :
    TimedRows.Statement (.wiringLoadTimeEnd t circuit) := timed rfl

theorem TimedRows.wiringConversionComplete (t : Time) (reading : Nat) :
    TimedRows.Statement (.wiringConversionComplete t reading) := timed rfl

theorem TimedRows.referenceConversionComplete (t : Time) (reading : Nat) :
    TimedRows.Statement (.referenceConversionComplete t reading) := timed rfl

theorem TimedRows.pollPosition (t : Time) :
    TimedRows.Statement (.pollPosition t) := timed rfl

theorem TimedRows.goodAnswer (t : Time) (board : Nat) (answer : Answer) :
    TimedRows.Statement (.goodAnswer t board answer) := timed rfl

theorem TimedRows.missedPoll (t : Time) (board : Nat) :
    TimedRows.Statement (.missedPoll t board) := timed rfl

theorem TimedRows.transitCompareExpiry (t : Time) (lever : Nat) :
    TimedRows.Statement (.transitCompareExpiry t lever) := timed rfl

theorem TimedRows.releaseTimerExpiry (t : Time) (release : Nat) :
    TimedRows.Statement (.releaseTimerExpiry t release) := timed rfl

theorem TimedRows.releaseLapse (t : Time) (release : Nat) :
    TimedRows.Statement (.releaseLapse t release) := timed rfl

theorem TimedRows.plungerCodeEnd (t : Time) (link : Nat) :
    TimedRows.Statement (.plungerCodeEnd t link) := timed rfl

theorem TimedRows.hostCodeStrokeEnd (t : Time) (link : Nat) :
    TimedRows.Statement (.hostCodeStrokeEnd t link) := timed rfl

theorem TimedRows.hostCodeEnd (t : Time) (link : Nat) :
    TimedRows.Statement (.hostCodeEnd t link) := timed rfl

theorem TimedRows.receiveTimeout (t : Time) (link : Nat) :
    TimedRows.Statement (.receiveTimeout t link) := timed rfl

theorem TimedRows.expectationDeadline (t : Time) (link : Nat) :
    TimedRows.Statement (.expectationDeadline t link) := timed rfl

theorem TimedRows.disagreementCompareExpiry (t : Time) (link : Nat) :
    TimedRows.Statement (.disagreementCompareExpiry t link) := timed rfl

theorem TimedRows.overdueExpiry (t : Time) (link : Nat) :
    TimedRows.Statement (.overdueExpiry t link) := timed rfl

theorem TimedRows.linkFrameReceived (t : Time) (link : Nat) (bytes : List Byte) :
    TimedRows.Statement (.linkFrameReceived t link bytes) := timed rfl

theorem TimedRows.linkFrameAbandoned (t : Time) (link : Nat) :
    TimedRows.Statement (.linkFrameAbandoned t link) := timed rfl

theorem TimedRows.linkCollision (t : Time) (link : Nat) :
    TimedRows.Statement (.linkCollision t link) := timed rfl

theorem TimedRows.linkFrameSent (t : Time) (link : Nat) :
    TimedRows.Statement (.linkFrameSent t link) := timed rfl

theorem TimedRows.lineQuiet (t : Time) (link : Nat) :
    TimedRows.Statement (.lineQuiet t link) := timed rfl

theorem TimedRows.backOffEnd (t : Time) (link : Nat) :
    TimedRows.Statement (.backOffEnd t link) := timed rfl

theorem TimedRows.answerTimerExpiry (t : Time) (link : Nat) :
    TimedRows.Statement (.answerTimerExpiry t link) := timed rfl

theorem TimedRows.takenTimerExpiry (t : Time) (link : Nat) :
    TimedRows.Statement (.takenTimerExpiry t link) := timed rfl

theorem TimedRows.dataTimerExpiry (t : Time) (link : Nat) :
    TimedRows.Statement (.dataTimerExpiry t link) := timed rfl

theorem TimedRows.retryTime (t : Time) (link : Nat) :
    TimedRows.Statement (.retryTime t link) := timed rfl

theorem TimedRows.lateStroke (t : Time) (link : Nat) :
    TimedRows.Statement (.lateStroke t link) := timed rfl

theorem TimedRows.heartbeatExpiry (t : Time) (link : Nat) :
    TimedRows.Statement (.heartbeatExpiry t link) := timed rfl

theorem TimedRows.silenceWatchExpiry (t : Time) (link : Nat) :
    TimedRows.Statement (.silenceWatchExpiry t link) := timed rfl

theorem TimedRows.loopbackFrameTimer (t : Time) (link : Nat) :
    TimedRows.Statement (.loopbackFrameTimer t link) := timed rfl

theorem TimedRows.loopbackFrameAssembled (t : Time) (link : Nat) (bytes : List Byte) :
    TimedRows.Statement (.loopbackFrameAssembled t link bytes) := timed rfl

theorem TimedRows.loopbackFrameTimeout (t : Time) (link : Nat) :
    TimedRows.Statement (.loopbackFrameTimeout t link) := timed rfl

theorem TimedRows.boxTimeTick (t : Time) :
    TimedRows.Statement (.boxTimeTick t) := timed rfl

theorem TimedRows.signatureCheckDue (t : Time) :
    TimedRows.Statement (.signatureCheckDue t) := timed rfl

theorem TimedRows.converterCheckDue (t : Time) :
    TimedRows.Statement (.converterCheckDue t) := timed rfl

theorem TimedRows.linkCharacterReceived (t : Time) (link : Nat) (char : Byte) :
    TimedRows.Statement (.linkCharacterReceived t link char) := timed rfl

theorem TimedRows.hostByteReceived (t : Time) (value : Byte) :
    TimedRows.Statement (.hostByteReceived t value) := timed rfl

end Sys2Proof.Laws
end

