-- ==== Sys2Proof/Tests/Slice0.lean ====
section
/-! SUPPORT. Tests: terms the form checks refuse; worked examples of the manual, or values worked out by
hand from its rules, on one step; and, for each statement with hypotheses, a state and operands that meet
them. -/

open Sys2Proof Sys2Proof.Machine

set_option Elab.async false

namespace Sys2Proof.Tests

/-! ### Forms -/

/-- One term at fault for each form check of a row. -/
def illFormed : List Instr :=
  [.hostRequestFrame 0 (List.replicate 245 0), .readTracks 0 256 1, .readTracks 0 1 256,
    .testTrack 0 256 1 1, .testTrack 0 1 256 1, .testTrack 0 1 1 256, .learnReference 0 256,
    .readLevers 0 256 1, .readLevers 0 1 256, .testLever 0 256 1 1, .testLever 0 1 256 1,
    .testLever 0 1 1 256, .takeOutOfUse 0 256, .bringIntoUse 0 256, .readHolds 0 256 1,
    .readHolds 0 1 256, .testHold 0 256 1 1, .testHold 0 1 256 1, .testHold 0 1 1 256]
    ++ [.readReleases 0 256 1, .readReleases 0 1 256, .requestRelease 0 256, .cancelRelease 0 256,
      .sendCode 0 256 [1], .sendCode 0 1 [256], .sendCode 0 1 (List.replicate 59 1),
      .readLines 0 256 1, .readLines 0 1 256, .testLine 0 256 1 1, .testLine 0 1 256 1,
      .testLine 0 1 1 256, .runTestLink 0 0, .runTestLink 0 256, .readRegister 0 256,
      .advanceRegister 0 65536, .setClock 0 65536 0, .setClock 0 0 16777216, .readFaults 0 256 1,
      .readFaults 0 1 256, .testFault 0 256 1 1 1, .testFault 0 1 256 1 1, .testFault 0 1 1 256 1,
      .testFault 0 1 1 1 256, .clearFault 0 256 1, .clearFault 0 1 256]
    ++ [.writeTable 0 256 1 [], .writeTable 0 1 65536 [], .writeTable 0 1 1 (List.replicate 58 0),
      .readTable 0 256 1, .readTable 0 1 65536, .stage 0 256 1 1 [], .stage 0 1 65536 1 [],
      .stage 0 1 1 256 [], .stage 0 1 1 1 (List.replicate 57 0), .pulseRisingEdge 0 25,
      .pulseFallingEdge 0 0, .candidateTimeout 0 25, .codeLost 0 25,
      .pulseEndConversionComplete 0 4096, .wiringTestDue 0 0, .wiringLoadTimeEnd 0 25,
      .wiringConversionComplete 0 4096, .referenceConversionComplete 0 4096]
    ++ [.goodAnswer 0 12 (.instrument false false false false false false),
      .goodAnswer 0 1 (.lever []), .missedPoll 0 12, .transitCompareExpiry 0 65,
      .releaseTimerExpiry 0 17, .releaseLapse 0 0, .plungerCodeEnd 0 4, .hostCodeStrokeEnd 0 4,
      .hostCodeEnd 0 4, .receiveTimeout 0 4, .expectationDeadline 0 4,
      .disagreementCompareExpiry 0 4, .overdueExpiry 0 4, .linkFrameReceived 0 4 [],
      .linkFrameReceived 0 1 (List.replicate 38 0), .linkFrameAbandoned 0 4, .linkCollision 0 4,
      .linkFrameSent 0 4, .lineQuiet 0 4, .backOffEnd 0 0]
    ++ [.answerTimerExpiry 0 4, .takenTimerExpiry 0 4, .dataTimerExpiry 0 4, .retryTime 0 4,
      .lateStroke 0 4, .heartbeatExpiry 0 4, .silenceWatchExpiry 0 4, .loopbackFrameTimer 0 4,
      .loopbackFrameAssembled 0 4 [], .loopbackFrameAssembled 0 1 (List.replicate 38 0),
      .loopbackFrameTimeout 0 4, .linkCharacterReceived 0 4 0]

theorem test_ill_formed_terms_are_refused :
    illFormed.all (fun i => !i.wellFormed) = true := by decide +kernel

/-- Terms at the ends of their ranges. -/
theorem test_well_formed_terms_pass :
    [Instr.powerUpReset, .warmStart, .hostRequestFrame 0 (List.replicate 244 0),
      .testTrack 0 255 255 255, .runTestLink 0 1, .advanceRegister 0 65535,
      .setClock 0 65535 16777215, .pulseRisingEdge 0 1, .pulseRisingEdge 0 24,
      .pulseEndConversionComplete 0 4095, .missedPoll 0 11, .transitCompareExpiry 0 64,
      .releaseLapse 0 16, .linkCollision 0 3, .goodAnswer 0 8 (.lever (List.replicate 8 ⟨true, false, false⟩)),
      .boxTimeTick 0, .hostByteReceived 0 255].all Instr.wellFormed = true := by decide +kernel

/-- No row of the table gives bits. -/
theorem test_no_word_spells_a_row :
    decodeTableWord 0 0 = none ∧ decodeTableWord 16 0xFFFF = none := by decide

/-! ### Arithmetic of the manual -/

/-- The published check values of the two CRCs, on the digits 1 to 9. -/
theorem test_check_values :
    crc16 [0x31, 0x32, 0x33, 0x34, 0x35, 0x36, 0x37, 0x38, 0x39] = 0x29B1
      ∧ crc32 [0x31, 0x32, 0x33, 0x34, 0x35, 0x36, 0x37, 0x38, 0x39] = 0xCBF43926 := by
  decide +kernel

/-- The worked example on circuit T7: 530 is GOOD, 570 and 430 BAD_PERIOD, 650 FOREIGN; the windows are
438 to 562 and 584 to 750 ms. -/
theorem test_pulse_classes :
    [some 530, some 570, some 430, some 650, some 438, some 437, some 562, some 563, some 584, some 583,
        none].map (classify · 500 [667])
      = [.good, .badPeriod, .badPeriod, .foreign, .good, .badPeriod, .good, .badPeriod, .foreign,
        .badPeriod, .first] := by decide +kernel

/-- The levels and smoothed levels of the worked examples on circuit T7. -/
theorem test_levels :
    levelOf 1830 2400 = 762 ∧ levelOf 288 2400 = 120 ∧ levelOf 1824 2400 = 760
      ∧ levelOf 4095 256 = 1999 ∧ smooth 780 762 = 778 ∧ smooth 778 700 = 769 := by decide +kernel

/-! ### A configured box -/

/-- The configuration of the box under test: T7 and T8 as in chapter 1's worked example, with T1 and
T24; levers 1 (SIGNAL on line 2), 2 and 64; holds 1 and 16; releases of a hold, a lever and a sequence;
links 1 and 3. -/
def image : Image :=
  { identity := some 7
    links := [{ configured := true, role := some .senior, farBox := some 9 }, {},
      { configured := true, kind := .single, role := some .junior, farBox := some 5 }]
    boards := List.replicate 11 true
    levers := [{ type := .signal, blockLine := some 2 }, { type := .points }]
      ++ List.replicate 61 {} ++ [{ type := .lock }]
    conditions := [[], [some ⟨.lever 1 .normal, .toReverse, none⟩]] ++ List.replicate 62 []
    tracks := [{ enabled := true }] ++ List.replicate 5 {}
      ++ [{ enabled := true, aref := 2400, neighbours := [8] },
        { enabled := true, pnom := 667, neighbours := [7] }]
      ++ List.replicate 15 {} ++ [{ enabled := true }]
    holds := [{ configured := true, signal := some 1, approach := [7], route := [8], timer := some 1 }]
      ++ List.replicate 14 {}
      ++ [{ configured := true, signal := some 1, approach := [24], route := [1], timer := some 16 }]
    timers := [{ configured := true, owner := some (.hold, 1) },
        { configured := true, owner := some (.lever, 2), duration := 30, validity := some 60 },
        { configured := true, owner := some (.sequence, 1) }]
      ++ List.replicate 12 {} ++ [{ configured := true, owner := some (.hold, 16) }]
    inbound := [{ arrival := some 7, home := some 1 }, {}, {}]
    outbound := [{ departure := some 1 }, {}, {}]
    codes := [[{ pattern := [1], meaning := .call, validFor := .both },
        { pattern := [3, 1], meaning := .offer, cls := some 2, validFor := .both },
        { pattern := [2], meaning := .entering, validFor := .both }]]
      ++ List.replicate 3 [] }

/-- A circuit that is CLEAR with code. -/
def clearTrack : Circuit := { state := .clear, occupiedSince := none, lavg := some 780 }

/-- A lever at rest in NORMAL, by its configuration, in a slot. -/
def normalLever (c : LeverCfg) (slot : Nat) : Lever :=
  { slot := some slot, type := c.type, blockLine := c.blockLine
    allowance := c.blockLine.map fun _ => false
    lastReading := some .normal, current := .normal, settled := some .normal, seenUnknown := false
    reason := .list }

/-- The box in SERVICE, at rest: its enabled circuits CLEAR, its levers in NORMAL, its lines BLOCKED,
its links IDLE. -/
def box : State :=
  { State.reset with
    mode := some .service, start := none, now := 1000
    store := { inForce := some image, imageState := .good }
    circuits := image.tracks.map fun t => if t.enabled then clearTrack else {}
    boards := List.replicate 11 { configured := true }
    levers := (upTo 64).map fun k => normalLever (image.lever k) k
    instruments := List.replicate 3 { current := .rest .b, settled := some .b, plunger := .released }
    holds := [⟨some .idle, none⟩] ++ List.replicate 14 {} ++ [⟨some .idle, none⟩]
    inbound := List.replicate 3 { state := some .blocked, handle := some .b }
    outbound := List.replicate 3 { state := some .blocked, guard := false }
    links := [{ state := .idle }, {}, { state := .idle }]
    register := { ring := [⟨0, 0, 0, .reset .supply⟩], unread := 1, nextSeq := 1 }
    faults := { signatureAt := some 10000, converterAt := some 5000 }
    host := {} }

/-- The state a row answers. -/
def after (i : Instr) (s : State) : Option State :=
  match exec i s with
  | .next u => some u
  | _ => none

/-- The data of the reply to a command row. -/
def dataAfter (i : Instr) (s : State) : Option (List Byte) :=
  (after i s).bind fun u => u.host.lastResult.map (·.data)

/-- The reason for which a command row is refused. -/
def refusalAfter (i : Instr) (s : State) : Option RefuseReason :=
  (after i s).bind fun u => u.host.lastResult.map (·.reason)

/-- What a row leaves, as far as a test looks. -/
def sees {α : Type} [DecidableEq α] (i : Instr) (s : State) (f : State → α) (x : α) : Bool :=
  match after i s with
  | some u => decide (f u = x)
  | none => false

/-- A compare whose time, if it runs, is ahead of `n`. -/
theorem ahead_of {o : Option Time} {n : Time} (h : (o.all fun e => decide (n < e)) = true) :
    ∀ e, o = some e → n < e := by
  intro e he
  simpa [he] using h

/-- What is none holds everything of what it would be. -/
theorem none_of {α : Type} {o : Option α} {P : α → Prop} (h : o.isNone = true) :
    ∀ e, o = some e → P e := by
  intro e he
  simp [he] at h

/-! ### One step of each row -/

/-- R182, R159: with no image, the part starts in UNCONFIGURED, its register holding the RESET entry. -/
theorem test_power_up_reset :
    sees .powerUpReset box (fun u => (u.mode, u.now, u.register.ring.map (·.event)))
      (some .unconfigured, 0, [.reset .supply, .mode none .unconfigured]) = true := by decide +kernel

/-- R179, R182: a warm start that is due appends its RESET entry and keeps the register. -/
theorem test_warm_start :
    sees .warmStart { box with host := { warm := some ⟨.warmReset, true⟩ } }
      (fun u => (u.now, u.host.warm, (u.register.ring.take 2).map (·.event)))
      (0, none, [.reset .supply, .reset .warmReset]) = true := by decide +kernel

/-- Section 10.1, R178: READ STATUS in a request of TAG 0x41 is answered by a reply of 1 + 4 + 16
bytes. -/
theorem test_host_request_frame :
    sees (.hostRequestFrame 1000 [0xC3, 7, 0x41, 0x10, 0, 1, 0x86, 0, 0, 0x76, 0x61]) box
      (fun u => u.host.sending.map fun f => (f.tag, f.kind, f.payload.take 3, f.payload.length))
      (some (0x41, .reply, [1, 0x86, 0], 21)) = true := by decide +kernel

/-- R173: 21 ms after the last byte a frame is discarded, 20 ms after it is not. -/
theorem test_host_interbyte_timeout :
    sees (.hostInterbyteTimeout 1021) { box with host := { receiving := some ([7], 1000) } }
        (·.host.receiving) none = true
      ∧ sees (.hostInterbyteTimeout 1020) { box with host := { receiving := some ([7], 1000) } }
        (·.host.receiving) (some ([7], 1000)) = true := by decide +kernel

/-- R174: a reply ready is sent before the oldest notice. -/
theorem test_host_frame_sent :
    sees (.hostFrameSent 1000)
      { box with host := { sending := some ⟨.notice, 0, [2], false⟩
                           ready := [⟨.reply, 5, [1], false⟩], notices := [⟨.tracks, 1⟩] } }
      (fun u => (u.host.sending, u.host.ready, u.host.notices))
      (some ⟨.reply, 5, [1], false⟩, [], [⟨.tracks, 1⟩]) = true := by decide +kernel

/-- R27: the record of a CLEAR circuit; of the eight asked for, one is left from T24 on. -/
theorem test_read_tracks :
    dataAfter (.readTracks 1000 24 8) box
      = some [24, 0, 0, 0, 255, 255, 255, 255, 255, 255, 255, 255, 3, 12, 0, 0, 0, 255, 255, 255, 255,
          0, 0] := by decide +kernel

/-- R28: flag 0 becomes true where T7 is CLEAR. -/
theorem test_test_track :
    sees (.testTrack 1000 0 7 0) box (·.host.flags.head?) (some true) = true
      ∧ dataAfter (.testTrack 1000 0 7 0) box = some [0] := by decide +kernel

/-- R22: LEARN REFERENCE is refused outside EDITING, and in EDITING starts the learning. -/
theorem test_learn_reference :
    refusalAfter (.learnReference 1000 7) box = some .state
      ∧ sees (.learnReference 1000 7)
        { box with mode := some .editing, store := { box.store with work := some image } }
        (fun u => (u.circuit 7).learning) (some {}) = true := by decide +kernel

/-- R76: lever 1, a SIGNAL of line 2 at rest in NORMAL. -/
theorem test_read_levers :
    (dataAfter (.readLevers 1000 1 1) box).map (·.take 13)
      = some [1, 0, 1, 2, 0, 0, 0, 0, 6, 255, 255, 0, 0] := by decide +kernel

/-- R77: lever 64 is in NORMAL and not free. -/
theorem test_test_lever :
    sees (.testLever 1000 7 64 0) box (·.host.flags) [false, false, false, false, false, false, false, true]
        = true
      ∧ dataAfter (.testLever 1000 7 64 4) box = some [0, 0] := by decide +kernel

/-- R71: lever 64 goes out of use; lever 3 is SPARE. -/
theorem test_take_out_of_use :
    sees (.takeOutOfUse 1000 64) box (fun u => (u.lever 64).outOfUse) true = true
      ∧ refusalAfter (.takeOutOfUse 1000 3) box = some .state := by decide +kernel

/-- R73: a lever in use cannot be brought into use; one that is out of use waits for the write. -/
theorem test_bring_into_use :
    refusalAfter (.bringIntoUse 1000 64) box = some .state
      ∧ sees (.bringIntoUse 1000 64) (box.modLever 64 fun l => { l with outOfUse := true })
        (fun u => u.store.jobs.map (·.patch)) [.bringIn 64 []] = true := by decide +kernel

/-- R94: hold 1 IDLE, with approach T7 and route T8 CLEAR, its time of last change none. -/
theorem test_read_holds :
    dataAfter (.readHolds 1000 1 1) box = some [1, 1, 0, 1, 1, 7, 0, 1, 8, 0, 1, 255, 255] := by
  decide +kernel

/-- R96: hold 16 is IDLE. -/
theorem test_test_hold :
    dataAfter (.testHold 1000 0 16 0) box = some [0]
      ∧ refusalAfter (.testHold 1000 0 17 0) box = some .range := by decide +kernel

/-- R95: release 2, of lever 2, IDLE. -/
theorem test_read_releases :
    dataAfter (.readReleases 1000 2 1) box
      = some [2, 2, 2, 0, 30, 0, 60, 0, 255, 255, 255, 255, 255, 255] := by decide +kernel

/-- R87, the worked example of chapter 4: the release of a HELD hold runs for 120 s. -/
theorem test_request_release :
    sees (.requestRelease 90000 1) (box.modHold 1 fun _ => ⟨some .held, some 20000⟩)
        (fun u => ((u.timer 1).state, (u.timer 1).expiry, (u.hold 1).state))
        (.running, some 210000, some .releasing) = true
      ∧ dataAfter (.requestRelease 90000 1) (box.modHold 1 fun _ => ⟨some .held, some 20000⟩)
        = some [0, 120] := by decide +kernel

/-- R91: a hold RELEASING whose approach is CLEAR goes IDLE when its release is cancelled. -/
theorem test_cancel_release :
    sees (.cancelRelease 1000 1)
      ((box.modHold 1 fun _ => ⟨some .releasing, some 0⟩).modTimer 1
        fun _ => { state := .running, expiry := some 5000 })
      (fun u => ((u.timer 1).state, (u.hold 1).state)) (.idle, some .idle) = true := by decide +kernel

/-- R103, R104: of the code 3-1 sent at 1000 ms with the default timing, the last stroke starts 1500 ms
after the first and the code ends 1500 ms later. -/
theorem test_send_code :
    sees (.sendCode 1000 1 [3, 1]) box
      (fun u => (u.bell 1).host.map fun h => (h.schedule, h.endAt))
      (some ([(1000, true), (1300, false), (1600, false), (2500, true)], 4000)) = true := by
  decide +kernel

/-- R135: the first eight fields of line 1. -/
theorem test_read_lines :
    (dataAfter (.readLines 1000 1 1) box).map (·.take 8) = some [1, 1, 0, 0, 0, 255, 255, 0] := by
  decide +kernel

/-- R136: line 2 is BLOCKED. -/
theorem test_test_line :
    sees (.testLine 1000 1 2 0) box (·.host.flags.take 2) [false, true] = true
      ∧ dataAfter (.testLine 1000 1 2 0) box = some [0, 255] := by decide +kernel

/-- R148: the first loopback frame is started 20 ms on. -/
theorem test_run_test_link :
    sees (.runTestLink 1000 3) box
      (fun u => ((u.link 3).state, (u.link 3).loopback.map fun b => (b.frame, b.startAt)))
      (.loopback, some (0, some 1020)) = true := by decide +kernel

/-- R169: RUN TEST of the table is refused STATE in UNCONFIGURED, and BUSY before the start-up tests
have finished. -/
theorem test_run_test_table :
    refusalAfter (.runTestTable 1000) { box with mode := some .unconfigured } = some .state
      ∧ refusalAfter (.runTestTable 1000)
        { box with faults := { box.faults with signatureAt := none } } = some .busy := by decide +kernel

/-- R155: one entry held, one unread, day 0, time 0; the RESET entry of kind 17. -/
theorem test_read_register :
    (dataAfter (.readRegister 1000 8) box).map (·.take 10) = some [0, 1, 0, 1, 0, 0, 0, 0, 0, 1] := by
  decide +kernel

/-- R156: of 300 entries asked for, the one unread is marked, with sequence number 0. -/
theorem test_advance_register :
    dataAfter (.advanceRegister 1000 300) box = some [0, 1, 0, 0, 0, 0]
      ∧ sees (.advanceRegister 1000 300) box (·.register.unread) 0 = true := by decide +kernel

/-- R158: the entry keeps the old time; a time of day of 864 000 is refused. -/
theorem test_set_clock :
    sees (.setClock 1000 12 360000) { box with register := { box.register with day := 3, tenths := 7 } }
        (fun u => (u.register.day, u.register.tenths, u.register.ring.getLast?.map (·.event)))
        (12, 360000, some (.clockSet 3 7)) = true
      ∧ refusalAfter (.setClock 1000 0 864000) box = some .range := by decide +kernel

/-- R171: no record held. -/
theorem test_read_faults :
    dataAfter (.readFaults 1000 1 8) box = some [0, 0, 255, 255, 255, 0]
      ∧ refusalAfter (.readFaults 1000 33 1) box = some .range := by decide +kernel

/-- R172: LEVER_FORCED of lever 14 is ABSENT. -/
theorem test_test_fault :
    sees (.testFault 1000 2 8 14 0) box (·.host.flags.take 3) [false, false, true] = true
      ∧ dataAfter (.testFault 1000 2 8 14 0) box = some [255] := by decide +kernel

/-- R165: a LATCHED record is removed; an ACTIVE one is not. -/
theorem test_clear_fault :
    sees (.clearFault 1000 8 2)
        { box with faults := { records := [⟨8, some 2, false, 1, 0, 0, 0, 0, .confine⟩] } }
        (·.faults.records) [] = true
      ∧ refusalAfter (.clearFault 1000 8 2)
        { box with faults := { records := [⟨8, some 2, true, 1, 0, 0, 0, 0, .confine⟩] } }
        = some .state := by decide +kernel

/-- R166: RESUME takes SUSPENDED to SERVICE where no SUSPEND stands. -/
theorem test_resume :
    sees (.resume 1000) { box with mode := some .suspended } (·.mode) (some .service) = true
      ∧ refusalAfter (.resume 1000) box = some .state := by decide +kernel

/-- R183: with every signal in NORMAL and every line BLOCKED, the mode becomes EDITING on a copy of the
image. -/
theorem test_open_edit :
    sees (.openEdit 1000) box (fun u => (u.mode, u.store.work)) (some .editing, some image) = true := by
  decide +kernel

/-- R184: the reaction to LEVER_TRANSIT is written to the working copy, in EDITING only. -/
theorem test_write_table :
    sees (.writeTable 1000 13 9 [0])
        { box with mode := some .editing, store := { box.store with work := some image } }
        (fun u => u.store.work.map fun w => nth w.reactions .suspend 9) (some .report) = true
      ∧ refusalAfter (.writeTable 1000 13 9 [0]) box = some .protectedField := by decide +kernel

/-- R184: the reaction of LEVER_FORCED is SUSPEND, code 2. -/
theorem test_read_table :
    dataAfter (.readTable 1000 13 8) box = some [2]
      ∧ refusalAfter (.readTable 1000 14 1) box = some .range := by decide +kernel

/-- R185: a copy with no identity is at fault in table 1, record 1. -/
theorem test_commit :
    dataAfter (.commit 1000)
        { box with mode := some .editing, store := { box.store with work := some {} } }
        = some [1, 0, 1, 255]
      ∧ refusalAfter (.commit 1000) box = some .state := by decide +kernel

/-- R186: the working copy goes, and a warm start follows. -/
theorem test_abandon_edit :
    sees (.abandonEdit 1000)
      { box with mode := some .editing, store := { box.store with work := some image } }
      (fun u => (u.store.work, u.host.warm.map (·.cause))) (none, some .abandonEdit) = true := by
  decide +kernel

/-- R187, R24: the pickup level of a circuit is staged between drop + 50 and 950. -/
theorem test_stage :
    sees (.stage 1000 8 7 5 [2, 88]) (box.modCircuit 7 fun c => { c with state := .occupied })
        (fun u => (u.circuit 7).staged) [(5, 600)] = true
      ∧ refusalAfter (.stage 1000 8 7 5 [2, 37]) box = some .range := by decide +kernel

/-- R188: 16 bytes; the mode SERVICE, the image GOOD, no record held. -/
theorem test_read_status :
    (dataAfter (.readStatus 1000) box).map (fun d => (d.length, d.drop 10))
      = some (16, [0, 0, 0, 0, 0, 1]) := by decide +kernel

/-- R179: WARM RESET makes the warm start due. -/
theorem test_warm_reset :
    sees (.warmReset 1000) box (·.host.warm) (some ⟨.warmReset, true⟩) = true := by decide +kernel

/-- R181: with no write under way the row changes nothing. -/
theorem test_image_write_complete :
    sees (.imageWriteComplete 1000) box (·.store) box.store = true := by decide +kernel

/-- R2: an edge opens a candidate at its own time. -/
theorem test_pulse_rising_edge :
    sees (.pulseRisingEdge 2000 24) box (fun u => ((u.circuit 24).above, (u.circuit 24).candidate))
      (true, some 2000) = true := by decide +kernel

/-- R3 to R5, the worked example on circuit T7: a candidate of 25 ms is accepted, with period 990, and
its compare runs to 41 990; one of 15 ms is noise. -/
theorem test_pulse_falling_edge :
    sees (.pulseFallingEdge 41015 7)
        (box.modCircuit 7 fun c => { c with above := true, candidate := some 40990
                                            previousRise := some 40000 })
        (fun u => ((u.circuit 7).pulse, (u.circuit 7).codeLostAt, u.converter.busy))
        (some ⟨40990, some 990⟩, some 41990, some (.pulse 7)) = true
      ∧ sees (.pulseFallingEdge 41005 7)
        (box.modCircuit 7 fun c => { c with above := true, candidate := some 40990 })
        (fun u => ((u.circuit 7).pulse, (u.circuit 7).candidate)) (none, none) = true := by
  decide +kernel

/-- R3: at 1000 ms an open candidate is noise. -/
theorem test_candidate_timeout :
    sees (.candidateTimeout 2000 1) (box.modCircuit 1 fun c => { c with candidate := some 1000 })
      (fun u => (u.circuit 1).candidate) none = true := by decide +kernel

/-- R5, the worked example on circuit T7: with an open candidate the decision waits; without one the
circuit goes OCCUPIED at 41 000. -/
theorem test_code_lost :
    sees (.codeLost 41000 7)
        (box.modCircuit 7 fun c => { c with codeLostAt := some 41000, candidate := some 40990 })
        (fun u => (u.circuit 7).state) .clear = true
      ∧ sees (.codeLost 41000 7) (box.modCircuit 7 fun c => { c with codeLostAt := some 41000 })
        (fun u => ((u.circuit 7).state, (u.circuit 7).occupiedSince)) (.occupied, some 41000)
        = true := by decide +kernel

/-- T7 with a pulse awaiting its conversion. -/
def pulsing (period : Option Nat) : State :=
  { box.modCircuit 7 fun c => { c with pulse := some ⟨1500, period⟩ } with
    converter := { busy := some (.pulse 7) } }

/-- R7 to R18, the worked example on circuit T7: pulse a leaves the circuit CLEAR with L 762 and moves
780 to 778; pulse c takes it to FAILED with a record of TRACK_FOREIGN. -/
theorem test_pulse_end_conversion_complete :
    sees (.pulseEndConversionComplete 2000 1830) (pulsing (some 530))
        (fun u => ((u.circuit 7).state, (u.circuit 7).lastL, (u.circuit 7).lavg, u.converter.busy))
        (.clear, some 762, some 778, none) = true
      ∧ sees (.pulseEndConversionComplete 2000 1830) (pulsing (some 650))
        (fun u => ((u.circuit 7).state, u.faults.records.map fun r => (r.source, r.subject, r.active)))
        (.failed, [(2, some 7, true)]) = true := by decide +kernel

/-- R20: a due wiring test of a circuit with no code loads the input for 15 ms. -/
theorem test_wiring_test_due :
    sees (.wiringTestDue 2000 7) (box.modCircuit 7 fun c => { c with nextWiring := some 2000 })
      (fun u => ((u.circuit 7).wiringOpen, (u.circuit 7).loadEnd)) (true, some 2015) = true := by
  decide +kernel

/-- R20: at the end of the load time the conversion is requested. -/
theorem test_wiring_load_time_end :
    sees (.wiringLoadTimeEnd 2015 7)
      (box.modCircuit 7 fun c => { c with wiringOpen := true, loadEnd := some 2015 })
      (·.converter.busy) (some (.wiring 7)) = true := by decide +kernel

/-- R19, R21: a reading of 3899 completes the test, and the next, of the other kind, is due 60 s on; one
of 3900 fails it. -/
theorem test_wiring_conversion_complete :
    sees (.wiringConversionComplete 2016 3899)
        { box.modCircuit 7 fun c => { c with wiringOpen := true } with
          converter := { busy := some (.wiring 7) } }
        (fun u => ((u.circuit 7).nextWiring, (u.circuit 7).wiringKind, (u.circuit 7).state))
        (some 62016, .pullDown, .clear) = true
      ∧ sees (.wiringConversionComplete 2016 3900)
        { box.modCircuit 7 fun c => { c with wiringOpen := true } with
          converter := { busy := some (.wiring 7) } }
        (fun u => ((u.circuit 7).state, u.faults.records.map (·.source))) (.failed, [1])
        = true := by decide +kernel

/-- R167: the low reference passes from 1008 to 1040; a high one of 3089 begins CONVERTER. -/
theorem test_reference_conversion_complete :
    sees (.referenceConversionComplete 2000 1040)
        { box with converter := { busy := some (.reference false .periodic) } }
        (·.converter.lowResults) [(.periodic, true)] = true
      ∧ sees (.referenceConversionComplete 2000 3089)
        { box with converter := { busy := some (.reference true .periodic)
                                  lowResults := [(.periodic, true)] } }
        (fun u => u.faults.records.map (·.source)) [5] = true := by decide +kernel

/-- R30: the cycle begins with board 9. -/
theorem test_poll_position :
    sees (.pollPosition 2000) box (fun u => (u.scan, u.polled.map (·.1))) (1, some 9) = true := by
  decide +kernel

/-- R31, R34: lever 64 is found with both contacts open and departs. -/
theorem test_good_answer :
    sees (.goodAnswer 2000 8 (.lever (List.replicate 7 ⟨true, false, false⟩ ++ [⟨false, false, false⟩])))
      { box with polled := some (8, List.replicate 8 false) }
      (fun u => ((u.lever 64).current, (u.lever 64).settled, (u.lever 64).transitAt, (u.lever 2).current))
      (.moving, some .normal, some 32000, .normal) = true := by decide +kernel

/-- R32: the third miss makes the board MISSING and its levers UNKNOWN. -/
theorem test_missed_poll :
    sees (.missedPoll 2000 8)
      { box.modBoard 8 fun b => { b with misses := 2 } with
        polled := some (8, List.replicate 8 false) }
      (fun u => ((u.board 8).missing, (u.lever 64).current, (u.lever 2).current))
      (true, .unknown, .normal) = true := by decide +kernel

/-- R35: a lever 30 s in transit. -/
theorem test_transit_compare_expiry :
    sees (.transitCompareExpiry 31000 64)
      (box.modLever 64 fun l => { l with current := .moving, transitAt := some 31000 })
      (fun u => ((u.lever 64).transitActive, u.faults.records.map fun r => (r.source, r.subject)))
      (true, [(9, some 64)]) = true := by decide +kernel

/-- R88, the worked example of chapter 4: release 1 expires at 210 s and frees hold 1. -/
theorem test_release_timer_expiry :
    sees (.releaseTimerExpiry 210000 1)
      ((box.modHold 1 fun _ => ⟨some .releasing, some 90000⟩).modTimer 1
        fun _ => { state := .running, expiry := some 210000 })
      (fun u => ((u.timer 1).state, (u.hold 1).state)) (.idle, some .idle) = true := by decide +kernel

/-- R90: the lapse of a lever's release. -/
theorem test_release_lapse :
    sees (.releaseLapse 90000 2)
      (box.modTimer 2 fun _ => { state := .complete, lapse := some 90000 })
      (fun u => ((u.timer 2).state, u.register.ring.getLast?.map (·.event)))
      (.idle, some (.releaseCancelled 2 (.lever, 2) .lapsed)) = true := by decide +kernel

/-- R100, the worked example of chapter 5: code 6 of pattern 3-1 ends at 2760 with 4 strokes. -/
theorem test_plunger_code_end :
    sees (.plungerCodeEnd 2760 3)
      (box.modBell 3 fun b => { b with
        plunger := some { number := some 6, opened := 0, pattern := ⟨[3, 1], 2⟩, counted := 4
                          previousStart := some 1260, relayed := 4, rules := [] } })
      (fun u => ((u.bell 3).plunger, (u.link 3).queue, u.register.ring.getLast?.map (·.event)))
      (none, [⟨.codeEnd 6 4 false, 2760⟩], some (.codeSent 3 [3, 1] (some .unknown) none false false))
      = true := by decide +kernel

/-- Link 1 with a host code of one stroke, started at 1000, on its way. -/
def sendingCode (sent : Bool) : State :=
  box.modBell 1 fun b => { b with
    host := some { number := 4, pattern := [1], schedule := if sent then [] else [(1000, true)]
                   stroke := 120, sent := if sent then 1 else 0, endAt := 2500, rules := rulesFor box 1 } }

/-- R104: the stroke ends 120 ms after its start and is handed on in 24 units of 5 ms. -/
theorem test_host_code_stroke_end :
    sees (.hostCodeStrokeEnd 1120 1) (sendingCode false) (fun u => (u.link 1).queue)
      [⟨.stroke 4 true 1 24, 1120⟩] = true := by decide +kernel

/-- R104, R108, R109: the code of one beat is matched as CALL, and a repeat is expected for 20 s. -/
theorem test_host_code_end :
    sees (.hostCodeEnd 2500 1) (sendingCode true)
      (fun u => ((u.bell 1).host, (u.bell 1).expectation, u.register.ring.getLast?.map (·.event)))
      (none, some ⟨[1], .call, none, 2500, 22500⟩, some (.codeSent 1 [1] (some .call) none false true))
      = true := by decide +kernel

/-- R106: a received code is given up 3500 ms after its last item. -/
theorem test_receive_timeout :
    sees (.receiveTimeout 4500 1)
      (box.modBell 1 fun b => { b with
        received := some { number := 2, pattern := ⟨[1], 1⟩, lastItem := 1000, rules := [] } })
      (fun u => ((u.bell 1).received, u.register.ring.getLast?.map (·.event)))
      (none, some (.codeReceived 1 [1] none none true)) = true := by decide +kernel

/-- R111: the deadline of an expectation. -/
theorem test_expectation_deadline :
    sees (.expectationDeadline 22500 1)
      (box.modBell 1 fun b => { b with expectation := some ⟨[1], .call, none, 2500, 22500⟩ })
      (fun u => ((u.bell 1).expectation, u.register.ring.getLast?.map (·.event)))
      (none, some (.codeUnanswered 1 [1] .call none)) = true := by decide +kernel

/-- R132: a disagreement that has stood for its time begins LINE_DISAGREE. -/
theorem test_disagreement_compare_expiry :
    sees (.disagreementCompareExpiry 9000 1)
      (box.modInb 1 fun i => { i with farView := some .clear, disagreeSince := some 1000
                                      disagreeAt := some 9000 })
      (fun u => (u.faults.records.map fun r => (r.source, r.subject))) [(19, some 1)] = true := by
  decide +kernel

/-- R130: the overdue entry names line 2 and the 60 s that ran. -/
theorem test_overdue_expiry :
    sees (.overdueExpiry 61000 1)
      (box.modOutb 1 fun o => { o with state := some .clear, overdueAt := some 61000 })
      (fun u => ((u.outb 1).overdueAt, u.register.ring.getLast?.map (·.event)))
      (none, some (.overdue 2 60)) = true := by decide +kernel

/-- Section 7.2, R144: a BID of box 9, of TYPE 1 and CHECK 0x08, is answered GO by an IDLE link. -/
theorem test_link_frame_received :
    sees (.linkFrameReceived 2000 1 [0x5A, 1, 9, 0, 8]) box
      (fun u => ((u.link 1).answer, (u.link 1).heard, (u.link 1).silenceAt))
      (some .go, some 2000, some 8000) = true := by decide +kernel

/-- R138: a frame is abandoned when more than 15 ms pass between its characters. -/
theorem test_link_frame_abandoned :
    sees (.linkFrameAbandoned 1016 1) (box.modLink 1 fun l => { l with assembling := some ([1], 1000) })
      (fun u => (u.link 1).assembling) none = true := by decide +kernel

/-- R139, the worked example of a bid collision: the SENIOR end backs off 30 ms, the JUNIOR 90 ms. -/
theorem test_link_collision :
    sees (.linkCollision 2000 1) (box.modLink 1 fun l => { l with state := .bidding, sending := some .bid })
        (fun u => ((u.link 1).bidAttempts, (u.link 1).backOffAt)) (1, some 2030) = true
      ∧ sees (.linkCollision 2000 3)
        (box.modLink 3 fun l => { l with state := .bidding, sending := some .bid })
        (fun u => ((u.link 3).bidAttempts, (u.link 3).backOffAt)) (1, some 2090) = true := by
  decide +kernel

/-- R142: the answer timer runs for 150 ms from the end of a BID. -/
theorem test_link_frame_sent :
    sees (.linkFrameSent 2000 1) (box.modLink 1 fun l => { l with state := .bidding, sending := some .bid })
      (fun u => ((u.link 1).sending, (u.link 1).answerAt)) (none, some 2150) = true := by decide +kernel

/-- R139: the line is quiet 10 ms after the last character heard. -/
theorem test_line_quiet :
    sees (.lineQuiet 2010 1) (box.modLink 1 fun l => { l with state := .bidding, heard := some 2000 })
        (fun u => (u.link 1).sending) (some .bid) = true
      ∧ sees (.lineQuiet 2009 1) (box.modLink 1 fun l => { l with state := .bidding, heard := some 2000 })
        (fun u => (u.link 1).sending) none = true := by decide +kernel

/-- R139: the back-off over, the BID is sent. -/
theorem test_back_off_end :
    sees (.backOffEnd 2030 1) (box.modLink 1 fun l => { l with state := .bidding, backOffAt := some 2030 })
      (fun u => ((u.link 1).backOffAt, (u.link 1).sending)) (none, some .bid) = true := by decide +kernel

/-- R143: a bid with no answer is a failed attempt. -/
theorem test_answer_timer_expiry :
    sees (.answerTimerExpiry 2150 1)
      (box.modLink 1 fun l => { l with state := .bidding, answerAt := some 2150 })
      (fun u => ((u.link 1).bidAttempts, (u.link 1).backOffAt)) (1, some 2180) = true := by decide +kernel

/-- R142: the fourth DATA frame with no answer fails the exchange, to be tried again 1 s on. -/
theorem test_taken_timer_expiry :
    sees (.takenTimerExpiry 2200 1)
      (box.modLink 1 fun l => { l with state := .awaitTaken, takenAt := some 2200, dataAttempts := 3
                                       flight := some ⟨0, [.indication .blocked .blocked true]⟩ })
      (fun u => ((u.link 1).state, (u.link 1).retryAt, (u.link 1).indicationDue))
      (.idle, some 3200, true) = true := by decide +kernel

/-- R144: RECEIVING ends where no DATA comes. -/
theorem test_data_timer_expiry :
    sees (.dataTimerExpiry 2150 1)
      (box.modLink 1 fun l => { l with state := .receiving, dataAt := some 2150 })
      (fun u => (u.link 1).state) .idle = true := by decide +kernel

/-- R142: at the retry time a link with work bids. -/
theorem test_retry_time :
    sees (.retryTime 3200 1)
      (box.modLink 1 fun l => { l with indicationDue := true, retryAt := some 3200 })
      (fun u => ((u.link 1).retryAt, (u.link 1).state)) (none, .bidding) = true := by decide +kernel

/-- R140: a stroke that has waited 5 s is discarded. -/
theorem test_late_stroke :
    sees (.lateStroke 6000 1)
      (box.modLink 1 fun l => { l with queue := [⟨.stroke 4 true 1 22, 1000⟩, ⟨.stroke 4 false 2 22, 1001⟩]
                                       retryAt := some 9000 })
      (fun u => (u.link 1).queue) [⟨.stroke 4 false 2 22, 1001⟩] = true := by decide +kernel

/-- R141: the heartbeat of 2 s makes an indication due. -/
theorem test_heartbeat_expiry :
    sees (.heartbeatExpiry 3000 1)
      (box.modLink 1 fun l => { l with heartbeatAt := some 3000, retryAt := some 9000 })
      (fun u => ((u.link 1).indicationDue, (u.link 1).heartbeatAt)) (true, some 5000) = true := by
  decide +kernel

/-- R128, R146: a silent line blocks a CLEAR outbound line. -/
theorem test_silence_watch_expiry :
    sees (.silenceWatchExpiry 7000 1)
      ((box.modLink 1 fun l => { l with silenceAt := some 7000 }).modOutb 1
        fun o => { o with state := some .clear })
      (fun u => ((u.link 1).lost, (u.outb 1).state, (u.outb 1).guard, u.faults.records.map (·.source)))
      (true, some .blocked, true, [16]) = true := by decide +kernel

/-- Link 3 in a loopback test asked for by a command row. -/
def looping (frame : Nat) (startAt sentAt : Option Time) : State :=
  box.modLink 3 fun l => { l with
    state := .loopback, loopback := some { purpose := .host .alone, frame, startAt, sentAt } }

/-- R148, section 7.2: a frame of five characters takes 20.8 ms. -/
theorem test_loopback_frame_timer :
    sees (.loopbackFrameTimer 1020 3) (looping 0 (some 1020) none)
      (fun u => (u.link 3).loopback.map (·.sentAt)) (some (some 1041)) = true := by decide +kernel

/-- R148: the sixth frame, a REJECT of box 7 with CHECK 1, ends the test with PASS. -/
theorem test_loopback_frame_assembled :
    dataAfter (.loopbackFrameAssembled 1050 3 [0x5A, 6, 7, 0, 1]) (looping 5 none (some 1041))
        = some [0, 255]
      ∧ sees (.loopbackFrameAssembled 1050 3 [0x5A, 6, 7, 0, 1]) (looping 5 none (some 1041))
        (fun u => (u.link 3).loopback) none = true := by decide +kernel

/-- R148: nothing heard 20 ms after the end of a frame fails the test, at its type. -/
theorem test_loopback_frame_timeout :
    dataAfter (.loopbackFrameTimeout 1062 3) (looping 1 none (some 1041)) = some [1, 2] := by
  decide +kernel

/-- R157: the last tenth of the last day. -/
theorem test_box_time_tick :
    sees (.boxTimeTick 1100) { box with register := { day := 65535, tenths := 863999 } }
      (fun u => (u.register.day, u.register.tenths)) (0, 0) = true := by decide +kernel

/-- R168: a check due while a write is under way waits. -/
theorem test_signature_check_due :
    sees (.signatureCheckDue 10000) { box with store := { box.store with jobs := [⟨.takeOut 64, none⟩] } }
      (fun u => (u.faults.checkWaiting, u.faults.signatureAt)) (true, some 10000) = true := by
  decide +kernel

/-- R168: the converter check requests both references and is due again 5 s on. -/
theorem test_converter_check_due :
    sees (.converterCheckDue 5000) box
      (fun u => (u.converter.busy, u.converter.waiting, u.faults.converterAt))
      (some (.reference false .periodic), [.reference true .periodic], some 10000) = true := by
  decide +kernel

/-- R138: a START begins a frame. -/
theorem test_link_character_received :
    sees (.linkCharacterReceived 2000 1 0x5A) box (fun u => ((u.link 1).assembling, (u.link 1).heard))
      (some ([], 2000), some 2000) = true := by decide +kernel

/-- R173: a SYNC begins a frame; any other byte is ignored while hunting. -/
theorem test_host_byte_received :
    sees (.hostByteReceived 2000 0xC3) box (·.host.receiving) (some ([], 2000)) = true
      ∧ sees (.hostByteReceived 2000 0x10) box (·.host.receiving) none = true := by decide +kernel

/-- The request of the second case of chapter 10's worked example. -/
def guardedRelease : Instr :=
  .hostRequestFrame 1000 (hostFrame 0x41 0x10
    ([1, 5] ++ [0x02, 0, 3, 0, 7, 0] ++ [0x23, 0xC0, 1, 1] ++ [0x20, 0, 2, 1, 1]
      ++ [0x41, 0, 3, 1, 1, 0] ++ [0x30, 0x89, 3, 1, 1, 1]))

/-- The box of that case: hold 1 is SET and its approach OCCUPIED. -/
def guardedBox : State :=
  (box.modHold 1 fun _ => ⟨some .set, none⟩).modCircuit 7 fun c => { c with state := .occupied }

/-- What the host is being sent. -/
def sent (s : State) : Option (Byte × List Byte) := s.host.sending.map fun f => (f.tag, f.payload)

/-- The five commands of that case, the last four in turns of their own, are DONE, REFUSED, and three
NOT_RUN, in a payload of 22 bytes; flag 1 stays false. -/
theorem test_guarded_release_request :
    sees guardedRelease guardedBox
      (fun u => let v := idle (idle (idle (idle u)))
        (sent v, v.host.flags.take 2))
      (some (0x41, [5, 0x02, 0, 0, 1, 1, 0x23, 3, 4, 0, 0x20, 2, 0, 0, 0x41, 2, 0, 0, 0x30, 2, 0, 0]),
        [false, false]) = true := by decide +kernel

/-- R177: the turns of those four come before a row later than the running time, and after one that is not:
the reply is on the line at the first, and not yet at the second. -/
theorem test_turns_come_before_a_later_row :
    (match after guardedRelease guardedBox with
      | some u => sees (.linkFrameAbandoned 1001 1) u (fun v => (sent v).map (·.1)) (some 0x41)
        && sees (.linkFrameAbandoned 1000 1) u (fun v => (sent v, turnsLeft v)) (none, 5)
      | none => false) = true := by decide +kernel

/-- R92, R187: CANCEL RELEASE of timer 16 ends its batch with a duration of 600 s staged; the REQUEST RELEASE
of the request that waited, which begins at once, runs it for 600 s, and not for the 120 s it had. -/
theorem test_reload_before_the_waiting_request :
    let s := (((box.modHold 16 fun _ => ⟨some .releasing, some 0⟩).modTimer 16 fun _ =>
      { state := .running, expiry := some 90000, staged := [(4, 600)] }).modCircuit 24 fun c =>
        { c with state := .occupied }).modHost fun h =>
      { h with executing := some { tag := 7, halt := false, count := 1, rest := [⟨0x24, 0, [16]⟩] }
               waiting := some ⟨8, false, [⟨0x23, 0, [16]⟩]⟩ }
    (idle (idle s)).timer 16 = { state := .running, expiry := some 601000 } := by decide +kernel

/-- R154, R162: LINK_CROSSED of link 1 set to SUSPEND, its outbound line CLEAR: FAULT_RAISED and MODE have
consecutive sequence numbers, and CLEAR_LOST, of the Block Controller, follows them. -/
theorem test_suspend_entries_are_consecutive :
    let s : State := { box with store := { box.store with
      inForce := some { image with reactions := List.replicate 22 .suspend } } }
    ((raise 17 (some 1) (s.modOutb 1 fun o => { o with state := some .clear })).register.ring.drop 1).map
        (fun e => (e.seq, e.event))
      = [(1, .faultRaised 17 (some 1) .suspend 1), (2, .mode (some .service) .suspended),
        (3, .clearLost 2 .outOfUse)] := by decide +kernel

/-- R162, R154: a reaction that ends other causes has their FAULT_CLEARED before MODE, and what other blocks
enter comes after it: TRACK_FOREIGN of T24 with its TRACK_MARGIN standing, and LINK_CROSSED of link 1 with its
LINE_DISAGREE standing and its outbound line CLEAR, both set to SUSPEND. -/
theorem test_mode_follows_the_reaction :
    let s : State := { box with store := { box.store with
      inForce := some { image with reactions := List.replicate 22 .suspend } } }
    let margin := (s.modCircuit 24 fun c => { c with state := .clear, marginActive := true })
      |> countOccurrence 4 (some 24)
    let crossed := ((s.modOutb 1 fun o => { o with state := some .clear }).modInb 1 fun i =>
      { i with farView := some .occupied, disagreeSince := some 0, disagreeActive := true })
        |> countOccurrence 19 (some 1)
    ((raise 2 (some 24) margin).register.ring.drop 1).map (·.event)
        = [.faultRaised 2 (some 24) .suspend 1, .faultCleared 4 (some 24) .suspend 1 false,
          .mode (some .service) .suspended]
      ∧ ((raise 17 (some 1) crossed).register.ring.drop 1).map (·.event)
        = [.faultRaised 17 (some 1) .suspend 1, .faultCleared 19 (some 1) .suspend 1 false,
          .mode (some .service) .suspended, .clearLost 2 .outOfUse] := by and_intros <;> decide +kernel

/-- R86: a lever-owned timer written without a validity has 60 s, one that a hold owns has none. -/
theorem test_validity_has_its_default :
    valueOfRaw 10 2 [.num 1, .num OwnerKind.lever.code, .num 2, .num 30, .num 65535]
        = some (.timer { configured := true, owner := some (.lever, 2), duration := 30, validity := some 60 })
      ∧ valueOfRaw 10 2 [.num 1, .num OwnerKind.hold.code, .num 2, .num 30, .num 65535]
        = some (.timer { configured := true, owner := some (.hold, 2), duration := 30, validity := none })
      ∧ valueOfRaw 10 2 [.num 1, .num OwnerKind.hold.code, .num 2, .num 30, .num 60] = none := by
  and_intros <;> decide +kernel

/-- R114, R115: the line records of a link that is configured no more are no fault of form. -/
theorem test_lines_of_a_link_not_configured :
    let i : Image := { image with links := modAt image.links {} 1 fun c => { c with configured := false } }
    (lineFault i 1, lineFault i 2, (i.inb 1).arrival.isSome) = (false, false, true) := by decide +kernel

/-- R84, R154: lever 1 settles REVERSE with both its holds RELEASING: the entries of their timers stand
together, before those of the holds. -/
theorem test_entries_of_one_owner_stand_together :
    let t : Timer := { state := .running, expiry := some 90000 }
    let s := (((box.modHold 1 fun _ => ⟨some .releasing, some 0⟩).modHold 16 fun _ =>
      ⟨some .releasing, some 0⟩).modTimer 1 fun _ => t).modTimer 16 fun _ => t
    ((leverSettles 1 .reverse s).register.ring.drop 1).map (·.event)
      = [.releaseCancelled 1 (.hold, 1) .owner, .releaseCancelled 16 (.hold, 16) .owner,
        .hold 1 .releasing .set, .hold 16 .releasing .set] := by decide +kernel

/-- R158: the next increase of box time comes a tenth of a second after SET CLOCK, and not before. -/
theorem test_set_clock_restarts_the_tenths :
    sees (.setClock 1037 0 0) box (·.tickAt) 1137 = true
      ∧ sees (.boxTimeTick 1136) { box with tickAt := 1137 } (·.register.tenths) 0 = true
      ∧ sees (.boxTimeTick 1137) { box with tickAt := 1137 } (·.register.tenths) 1 = true := by
  decide +kernel

/-- R92, R187: a duration staged of an IDLE timer is in force at once, its write due. -/
theorem test_stage_at_the_reload_point :
    sees (.stage 1000 10 16 4 [2, 88]) box
      (fun u => ((u.tables.timer 16).duration, (u.timer 16).staged, u.store.jobs.map (·.patch)))
      (600, [], [.fields 10 16 [(4, 600)]]) = true := by decide +kernel

/-- R170, R26: the overflow record kept with TRACK_MARGIN of T7 last and a confining reaction confines T7,
which starts FAILED. -/
theorem test_start_keeps_the_overflow_confinement :
    (((seedConfinements { box with
        faults := { overflowCount := 1, overflowLast := some (4, some 7)
                    overflowReaction := some .confine } }).circuit 7).started (image.track 7)).state
      = .failed := by decide +kernel

/-- R145: a stranger's DATA is answered REJECT, and reported when the answer has been sent. -/
theorem test_stranger :
    sees (.linkFrameReceived 2000 1 (frameBytes .data 8 [.codeEnd 0 1 false])) box
        (fun u => ((u.link 1).answer, (u.link 1).state)) (some .reject, .idle) = true
      ∧ sees (.linkFrameSent 2000 1)
        (box.modLink 1 fun l => { l with sending := some .reject, crossedDue := true })
        (fun u => ((u.link 1).state, u.faults.records.map fun r => (r.source, r.active)))
        (.outOfUse, [(17, false)]) = true := by decide +kernel

/-! ### Hypotheses that are met

For each statement with hypotheses, a state and operands that meet them, each clause on its own line. -/

/-- Whether a step from a state answers a next state of a kind. -/
def steps (s : State) (p : State → Bool) : Bool :=
  match step s with
  | .next u => p u
  | _ => false

theorem exists_step {s : State} {p : State → Bool} (h : steps s p = true) :
    ∃ u, step s = .next u ∧ p u = true := by
  unfold steps at h
  split at h
  · exact ⟨_, ‹_›, h⟩
  · cases h

/-- Whether a row answers a next state of a kind. -/
theorem exists_next {i : Instr} {s : State} {α : Type} [DecidableEq α] {f : State → α} {x : α}
    (h : sees i s f x = true) : ∃ u, exec i s = .next u ∧ f u = x := by
  unfold sees after at h
  cases he : exec i s with
  | next u => rw [he] at h; exact ⟨u, rfl, by simpa using h⟩
  | fault r => rw [he] at h; cases h
  | refused r => rw [he] at h; cases h

/-- The box with a box-time tick waiting. -/
def ticking : State := { box with pending := [.boxTimeTick 1100] }

/-- The box with a batch whose command waits for the end of its write. -/
def waitingTurn : State :=
  { box with
    host := { executing := some { tag := 7, halt := true, count := 2, awaited := some ⟨0x12, 0, [64]⟩
                                  rest := [⟨0x86, 0, []⟩] } } }

/-- A row with no turn of a batch to be taken before it: at the box at rest, at a box whose batch waits for a
write, and at a box whose batch has a turn due, no later than the running time. Every other witness is of the
first kind. -/
theorem witness_prompt :
    box.Prompt (.boxTimeTick 1100) ∧ waitingTurn.Prompt (.boxTimeTick 1100)
      ∧ ({ box with host := { executing := some { tag := 7, halt := true, count := 1, rest := [⟨0x86, 0, []⟩] } } }
        : State).Prompt (.boxTimeTick 1000) :=
  ⟨.inl rfl, .inl rfl, .inr fun _ h => by cases h; decide⟩

theorem witness_StepRunsTheFrontCommand :
    ticking.pending = [.boxTimeTick 1100] ∧ box.pending = [] ∧ box.host.executing = none
      ∧ (∃ b, waitingTurn.host.executing = some b ∧ b.awaited ≠ none)
      ∧ ((Instr.boxTimeTick 1100).time = some 1100 ∧ box.now < 1100
        ∧ turnDue { box with host := { executing := some { tag := 7, halt := true, count := 1
                                                           rest := [⟨0x86, 0, []⟩] } } } ≠ none) := by
  exact ⟨rfl, rfl, rfl, ⟨_, rfl, nofun⟩, rfl, by decide, nofun⟩

theorem witness_PowerUpWithNoImageGivesTheResetState :
    box.store.stored = none ∧ box.store.jobs = [] := by decide +kernel

/-- The image, stored with its signature. -/
def storedImage : Stored := ⟨image, image.signature, false⟩

theorem storedImage_good : storedImage.good = true := by simp [storedImage, Stored.good]

/-- The box with its image stored. -/
def storing : State := { box with store := { box.store with stored := some storedImage } }

theorem witness_PowerUpStartsEveryBlockAfresh :
    storing.store.stored = some storedImage ∧ storedImage.good = true ∧ storing.store.jobs = []
      ∧ within 1 24 = true ∧ within 24 24 = true ∧ within 11 11 = true ∧ within 64 64 = true
      ∧ within 16 16 = true ∧ within 3 3 = true :=
  ⟨rfl, storedImage_good, rfl, by decide⟩

theorem witness_WarmStartKeepsRegisterFaultsAndImage :
    (∃ s : State, s.host.warm = some ⟨.commit, true⟩ ∧ s.store.stored = some storedImage
        ∧ storedImage.good = true ∧ within 7 24 = true ∧ (storedImage.image.track 7).enabled = true)
      ∧ ∀ c, box.host.warm ≠ some ⟨c, true⟩ :=
  ⟨⟨{ storing with host := { warm := some ⟨.commit, true⟩ } }, rfl, rfl, storedImage_good,
    by decide +kernel⟩, nofun⟩

/-! #### Invariants -/

/-- The numbers of a ring, one after another. -/
def consecutive : List Entry → Nat → Bool
  | [], _ => true
  | [e], next => decide ((e.seq + 1) % 65536 = next)
  | e :: f :: es, next => decide ((e.seq + 1) % 65536 = f.seq) && consecutive (f :: es) next

theorem consecutive_sound : ∀ (es : List Entry) (next : Nat), consecutive es next = true →
    Consecutive es next
  | [], _, _ => trivial
  | [e], next, h => of_decide_eq_true (p := (e.seq + 1) % 65536 = next) h
  | _ :: f :: es, next, h => by
    simp only [consecutive, Bool.and_eq_true, decide_eq_true_eq] at h
    exact ⟨h.1, consecutive_sound (f :: es) next h.2⟩

/-- A register that is full, its numbers passing 65 535. -/
def fullRegister (unread : Nat) : Register :=
  { ring := (List.range 256).map fun i => ⟨(65300 + i) % 65536, 0, 0, .reset .supply⟩
    unread, nextSeq := 20, day := 65535, tenths := 863999 }

theorem fullRegister_sound {unread : Nat} (h : unread ≤ 256) : (fullRegister unread).Sound := by
  refine ⟨by simp [fullRegister], by simpa [fullRegister] using h, by simp [fullRegister], ?_,
    by simp [fullRegister], by simp [fullRegister]⟩
  have c : consecutive (fullRegister 0).ring 20 = true := by decide +kernel
  exact consecutive_sound _ _ c

theorem box_register_sound : box.register.Sound := by
  refine ⟨by decide +kernel, by decide +kernel, by decide, ?_, by decide, by decide⟩
  exact consecutive_sound _ _ (by decide +kernel)

theorem witness_RegisterTakesEntriesWithinItsLimits :
    (ticking.register.Sound ∧ ∃ u, step ticking = .next u ∧ (u.register.tenths == 1) = true)
      ∧ (box.register.Sound ∧ box.register.ring.length < 256)
      ∧ ((fullRegister 255).Sound ∧ (fullRegister 255).ring.length = 256
        ∧ (fullRegister 255).unread < 256)
      ∧ ((fullRegister 256).Sound ∧ (fullRegister 256).ring.length = 256
        ∧ (fullRegister 256).unread = 256)
      ∧ (∀ n ∈ box.host.notices, n.key ≠ .register)
      ∧ ∃ before n after, ([⟨.mode, 1⟩, ⟨.register, 2⟩] : List Notice) = before ++ n :: after
        ∧ n.key = .register ∧ ∀ q ∈ before, q.key ≠ .register :=
  ⟨⟨box_register_sound, exists_step (by decide +kernel)⟩, ⟨box_register_sound, by decide +kernel⟩,
    ⟨fullRegister_sound (by decide), by decide +kernel⟩,
    ⟨fullRegister_sound (by decide), by decide +kernel⟩, by decide +kernel,
    [⟨.mode, 1⟩], ⟨.register, 2⟩, [], by decide⟩

theorem witness_NoticeQueueHoldsOneNoticePerKey :
    (ticking.host.Sound ∧ ∃ u, step ticking = .next u ∧ (u.now == 1100) = true)
      ∧ (([⟨.mode, 1⟩, ⟨.lines, 2⟩] : List Notice).map (·.key)).Nodup
      ∧ (∀ n ∈ ([⟨.mode, 1⟩, ⟨.lines, 2⟩] : List Notice), n.key ≠ .register)
      ∧ ∃ n ∈ ([⟨.mode, 1⟩, ⟨.lines, 2⟩] : List Notice), n.key = .lines :=
  ⟨⟨by decide +kernel, exists_step (by decide +kernel)⟩, by decide⟩

/-- Thirty-two records, at the ends of their counts. -/
def fullFaults : Faults :=
  { records := (upTo 32).map fun k =>
      ⟨7, some k, false, if k = 1 then 255 else 1, 0, 0, 0, 0, .confine⟩
    overflowCount := 255 }

theorem witness_FaultTableKeepsItsLimits :
    fullFaults.Sound
      ∧ ∃ u, step { ticking with faults := fullFaults } = .next u ∧ (u.now == 1100) = true :=
  ⟨by decide +kernel, exists_step (by decide +kernel)⟩

theorem witness_RecordsKeepTheirRanges :
    ticking.Whole ∧ (∀ c ∈ ticking.circuits, c.Sound)
      ∧ ∃ u, step ticking = .next u ∧ (u.now == 1100) = true := by
  refine ⟨by decide +kernel, ?_, exists_step (by decide +kernel)⟩
  intro c hc
  have h : c = {} ∨ c = clearTrack := by
    obtain ⟨t, -, rfl⟩ := List.mem_map.mp hc
    cases t.enabled <;> simp
  rcases h with rfl | rfl <;> simp [Circuit.Sound, clearTrack]

/-- T7 OCCUPIED, one good pulse of the pickup count short, with the pulse's conversion ending. -/
def pickingUp : State :=
  { (pulsing (some 500)).modCircuit 7 fun c => { c with
      state := .occupied, g := 3, occupiedSince := some 0 } with
    pending := [.pulseEndConversionComplete 11500 1872] }

theorem witness_ClearIsEnteredOnlyByPickup :
    (pickingUp.circuit 7).state ≠ .clear ∧ turnDue pickingUp = none
      ∧ ∃ u, step pickingUp = .next u ∧ decide ((u.circuit 7).state = .clear) = true :=
  ⟨by decide +kernel, rfl, exists_step (by decide +kernel)⟩

theorem witness_EvaluatorsNeverDisagree :
    ticking.Undisputed ∧ ∃ u, step ticking = .next u ∧ (u.now == 1100) = true :=
  ⟨by decide +kernel, exists_step (by decide +kernel)⟩

/-- The part at the end of its converter test, its links configured or not. -/
def startingUp (st : LinkState) : State :=
  { box with
    mode := none, start := some .converter, faults := {}
    links := [{ state := st }, {}, { state := st }]
    converter := { busy := some (.reference true .startUp), lowResults := [(.startUp, true)] } }

theorem witness_NoSuspendStandsInService :
    (ticking.mode = some .service ∧ suspendStands ticking = false
        ∧ ∃ u, step ticking = .next u ∧ decide (u.mode = some .service) = true)
      ∧ ((startingUp .loopback).Undisputed ∧ (startingUp .loopback).circuits.length = 24
        ∧ (startingUp .loopback).links.length = 3
        ∧ (startingUp .loopback).converter.busy = some (.reference true .startUp)
        ∧ (startingUp .loopback).converter.lowResults = [(.startUp, true)] ∧ 3056 ≤ 3056 ∧ 3088 ≤ 3088
        ∧ (startingUp .loopback).faults.converterActive = false)
      ∧ (∀ k < 4, (startingUp .outOfUse).linkOn k = false ∨ ((startingUp .outOfUse).link k).state ≠ .loopback)
      ∧ ((startingUp .loopback).linkOn 1 = true ∧ ((startingUp .loopback).link 1).state = .loopback)
      ∧ ((startingUp .loopback).linkOn 3 = true ∧ ((startingUp .loopback).link 3).state = .loopback
        ∧ (startingUp .loopback).linkOn 2 = false) :=
  ⟨⟨by decide +kernel, by decide +kernel, exists_step (by decide +kernel)⟩,
    by and_intros <;> decide +kernel, by decide +kernel, by decide +kernel, by decide +kernel⟩

/-- The box with lever 2 free, its coil ON, and the tick waiting. -/
def coilOn : State := ticking.modLever 2 fun l => { l with free := true, coil := true }

theorem witness_CoilsAreOnOnlyWhereAllowed :
    (∀ k, within k 64 = true → CoilAllowed coilOn.blockMode (coilOn.lever k))
      ∧ (coilOn.lever 2).coil = true
      ∧ ∃ u, step coilOn = .next u ∧ (u.now == 1100) = true := by
  refine ⟨?_, by decide +kernel, exists_step (by decide +kernel)⟩
  have h : ∀ k, k < 65 → (coilOn.lever k).coil = true →
      (coilOn.lever k).settled.map Pos.atRest = some (coilOn.lever k).current
        ∧ (coilOn.lever k).free = true := by decide +kernel
  intro k hk hc
  exact .inl (h k (by simp [within] at hk; omega) hc)

/-! #### Encodings -/

/-- A record of every table, as the image under test gives it. -/
theorem witness_TableRecordsSurviveTheirEncoding :
    ([(1, 1), (2, 1), (2, 3), (3, 3), (4, 11), (5, 1), (6, 1), (6, 64), (7, 513), (8, 7), (9, 16),
        (10, 2), (10, 16), (11, 1), (11, 2), (12, 2), (13, 21)] : List (Nat × Nat)).all (fun p =>
      ((parseFields (layout p.1 p.2) (encodeFields (layout p.1 p.2) (image.get p.1 p.2).raw)).bind
        (valueOfRaw p.1 p.2)).isSome) = true := by decide +kernel

theorem witness_HostFramesAreReadAsSent :
    (List.replicate 238 (0xC3 : Byte)).length ≤ 238 ∧ ([] : List Byte).length ≤ 238 := by decide +kernel

/-- A DATA frame of eight items at the ends of their ranges, and a BID. -/
theorem witness_LinkFramesAreHeardAsSent :
    (254 ≤ 255 ∧ (∀ i ∈ List.replicate 6 (Item.stroke 15 true 64 200)
        ++ [Item.codeEnd 0 1 true, .indication .occupied .clear true], i.Sound)
        ∧ countFits .data (List.replicate 6 (Item.stroke 15 true 64 200)
          ++ [Item.codeEnd 0 1 true, .indication .occupied .clear true]).length = true)
      ∧ countFits .bid ([] : List Item).length = true := by
  refine ⟨⟨by decide, ?_, by decide⟩, by decide⟩
  intro i hi
  simp at hi
  rcases hi with rfl | rfl | rfl <;> simp [Item.Sound]

theorem witness_LinkFramesAreHeardAsSent_line :
    ((box.modLink 1 fun l => { l with sending := some .data, flight := some ⟨1, [.stroke 15 true 64 200]⟩ }).link
        1).sending = some .data
      ∧ box.tables.identity = some 7 ∧ (Item.stroke 15 true 64 200).Sound
      ∧ countFits .data [Item.stroke 15 true 64 200].length = true ∧ (box.link 1).sending = none := by
  refine ⟨by decide +kernel, by decide +kernel, by simp [Item.Sound], by decide, by decide +kernel⟩

/-- Receivers that take a BID of five characters as a frame: one that assembles none, one whose frame has ended,
and one that a pause has broken by 1032, though not by 1031. -/
theorem witness_LinkFramesAreHeardAsSent_receiver :
    (box.link 1).assembling = none ∧ frameEnded [1, 9, 0, 8] = true
      ∧ 6 * (1000 + 15) + 25 * ((frameBytes .bid 9 []).length - 1) < 6 * 1032
      ∧ ¬ 6 * (1000 + 15) + 25 * ((frameBytes .bid 9 []).length - 1) < 6 * 1031 := by decide +kernel

/-! #### Commands that read and test -/

theorem witness_NumberedReadsReplyAndChangeNothing :
    box.Open ∧ within 24 24 = true ∧ within 25 24 = false ∧ within 8 24 = true := by decide +kernel

theorem witness_ReadFaultsAndStatusGiveTheirBytes :
    box.Open ∧ within 33 32 = false ∧ within 0 32 = false ∧ within 32 32 = true := by decide +kernel

theorem witness_TestTrackSetsItsFlag :
    (box.Open ∧ 7 ≤ 7 ∧ within 24 24 = true ∧ 3 ≤ 3) ∧ within 25 24 = false
      ∧ ∃ u, exec (.codeLost 2000 7) box = .next u ∧ u.now = 2000 :=
  ⟨by decide +kernel, by decide, exists_next (by decide +kernel)⟩

theorem witness_TestCommandsSetTheirFlag :
    (box.Open ∧ 7 ≤ 7 ∧ within 64 64 = true ∧ 5 ≤ 5) ∧ within 65 64 = false
      ∧ (within 16 16 = true ∧ 4 ≤ 4) ∧ within 17 16 = false
      ∧ (within 3 3 = true ∧ 3 ≤ 3) ∧ within 7 6 = false
      ∧ faultSubject 10 64 = some (some 64) ∧ faultSubject 22 255 = some none
      ∧ faultSubject 10 65 = none := by decide +kernel

/-! #### Track circuits -/

/-- The box with a change of circuit 24. -/
def at24 (f : Circuit → Circuit) : State := box.modCircuit 24 f

theorem witness_RisingEdgeOpensACandidate :
    (box.Undisputed ∧ within 24 24 = true ∧ box.circuits.length = 24)
      ∧ ((at24 fun c => { c with above := true }).circuit 24).above = true
      ∧ ((box.circuit 24).above = false ∧ (box.circuit 24).wiringOpen = false)
      ∧ (((at24 fun c => { c with wiringOpen := true }).circuit 24).above = false
        ∧ ((at24 fun c => { c with wiringOpen := true }).circuit 24).wiringOpen = true) := by
  decide +kernel

/-- The candidate of circuit 24 opened at 1000, without a compare. -/
def open24 : State := at24 fun c => { c with candidate := some 1000 }

theorem witness_FallingEdgeDecidesTheCandidate :
    (open24.Undisputed ∧ within 24 24 = true ∧ open24.circuits.length = 24
        ∧ (box.circuit 24).candidate = none ∧ (open24.circuit 24).candidate = some 1000)
      ∧ max open24.now 1019 < 1000 + 20
      ∧ (1000 + 20 ≤ max open24.now 1020 ∧ max open24.now 2000 ≤ 1000 + 1000
        ∧ (open24.circuit 24).state ≠ .disabled)
      ∧ ((box.circuit 2).state = .disabled ∧ (box.circuit 2).learning = none)
      ∧ (1000 + 1000 ≤ max open24.now 2000 ∧ max open24.now 1999 < 1000 + 1000)
      ∧ ∀ e, (open24.circuit 24).codeLostAt = some e → e < 1000 ∨ max open24.now 1019 < e :=
  ⟨by decide +kernel, by decide +kernel, by decide +kernel, by decide +kernel, by decide +kernel,
    none_of (by decide +kernel)⟩

/-- Circuit 24 in a state, its code-lost compare set for 2000. -/
def losing (st : TrackState) : State := at24 fun c => { c with state := st, codeLostAt := some 2000 }

theorem witness_CodeLostDropsAClearCircuit :
    ((losing .clear).Undisputed ∧ within 24 24 = true ∧ (losing .clear).circuits.length = 24
        ∧ ((losing .clear).circuit 24).codeLostAt = some 2000)
      ∧ (∀ w, ((losing .clear).circuit 24).nextWiring = some w → 2000 < w)
      ∧ max (losing .clear).now 1999 < 2000
      ∧ (((losing .clear).modCircuit 24 fun c => { c with candidate := some 2000 }).circuit 24).candidate
          = some 2000
      ∧ (2000 ≤ max (losing .clear).now 2000
        ∧ ((losing .occupied).circuit 24).state = .occupied
        ∧ ((losing .failed).circuit 24).state = .failed
        ∧ ((losing .clear).circuit 24).state = .clear
        ∧ ((losing .clear).circuit 24).marginActive = false)
      ∧ ∀ r, ((losing .clear).circuit 24).candidate = some r → 2000 < r :=
  ⟨by decide +kernel, none_of (by decide +kernel), by decide +kernel, by decide +kernel,
    by decide +kernel, none_of (by decide +kernel)⟩

/-- Circuit 7 in a state with its running fields, a pulse of a period awaiting its conversion. -/
def pulsed (period : Option Nat) (st : TrackState) (g bad : Nat) : State :=
  (pulsing period).modCircuit 7 fun c => { c with
    state := st, g, bad, occupiedSince := some 0 }

/-- What the clauses on pulses share: conversion under way, no cause, no test, no learning. -/
def pulseReady (s : State) (k : Nat) (p : Pulse) : Prop :=
  s.Undisputed ∧ within k 24 = true ∧ s.circuits.length = 24 ∧ s.converter.busy = some (.pulse k)
    ∧ (s.circuit k).pulse = some p ∧ (s.circuit k).learning = none
    ∧ (s.circuit k).nextWiring = none ∧ (s.circuit k).state ≠ .disabled
    ∧ (s.circuit k).foreignActive = false ∧ (s.circuit k).overActive = false
    ∧ (s.circuit k).marginActive = false ∧ (s.circuit k).confinement = []
    ∧ (s.circuit k).staged = []

/-- The class of a pulse on circuit 7, by the image under test. -/
def class7 (period : Option Nat) : PulseClass :=
  classify period (box.tables.track 7).pnom
    ((box.tables.track 7).neighbours.map fun n => (box.tables.track n).pnom)

theorem witness_PulseEndTakesThePulseByItsClass :
    (pulseReady (pulsed none .clear 0 0) 7 ⟨1500, none⟩ ∧ class7 none = .first
        ∧ levelOf 1830 2400 ≤ (box.tables.track 7).overLevel ∧ (box.tables.track 7).aref = 2400)
      ∧ (pulseReady (pulsed (some 570) .occupied 3 0) 7 ⟨1500, some 570⟩
        ∧ class7 (some 570) = .badPeriod)
      ∧ (pulseReady (pulsed (some 530) .clear 0 0) 7 ⟨1500, some 530⟩ ∧ class7 (some 530) = .good
        ∧ (box.tables.track 7).drop ≤ levelOf 1200 2400
        ∧ (box.tables.track 7).margin ≤ smooth 780 (levelOf 1200 2400)
        ∧ ((pulsed (some 530) .clear 0 0).circuit 7).lavg = some 780)
      ∧ (pulseReady (pulsed (some 438) .occupied 2 0) 7 ⟨1500, some 438⟩ ∧ class7 (some 438) = .good
        ∧ (box.tables.track 7).pickup ≤ levelOf 1800 2400
        ∧ min (2 + 1) 15 < (box.tables.track 7).pickupCount)
      ∧ pulseReady (pulsed (some 562) .failed 0 0) 7 ⟨1500, some 562⟩
      ∧ 0 < 2400 ∧ 4095 * 1000 < 2000 * 2400 := by
  unfold pulseReady; and_intros <;> decide +kernel

theorem witness_PulsesMoveTheCircuitState :
    (pulseReady (pulsed (some 500) .clear 0 0) 7 ⟨1500, some 500⟩ ∧ class7 (some 500) = .good
        ∧ levelOf 1199 2400 < (box.tables.track 7).drop)
      ∧ (pulseReady (pulsed (some 570) .clear 0 1) 7 ⟨1500, some 570⟩
        ∧ class7 (some 570) = .badPeriod)
      ∧ (pulseReady (pulsed (some 500) .occupied 3 0) 7 ⟨1500, some 500⟩
        ∧ (box.tables.track 7).pickup ≤ levelOf 1800 2400
        ∧ (box.tables.track 7).margin ≤ levelOf 1800 2400
        ∧ (box.tables.track 7).pickupCount ≤ min (3 + 1) 15
        ∧ 0 + (box.tables.track 7).minOccupancy * 100 ≤ max (pulsed none .clear 0 0).now 3000)
      ∧ (pulseReady (pulsed (some 584) .occupied 0 0) 7 ⟨1500, some 584⟩
        ∧ class7 (some 584) = .foreign ∧ reactionOf box 2 = .confine
        ∧ box.faults.find 2 (some 7) = none ∧ box.faults.records.length < 32) := by
  unfold pulseReady; and_intros <;> decide +kernel

/-- Circuit 7 with both causes active, their end counts at `n`. -/
def endingCauses (n : Nat) : State :=
  { (pulsed (some 500) .failed 0 0).modCircuit 7 fun c => { c with
      foreignActive := true, overActive := true, foreignEnd := n, overEnd := n, confinement := [2, 3] } with
    faults := { records := [⟨2, some 7, true, 1, 0, 0, 0, 0, .confine⟩,
      ⟨3, some 7, true, 1, 0, 0, 0, 0, .confine⟩] } }

/-- Circuit 7 CLEAR with a smoothed level, its margin cause standing or not. -/
def marginal (active : Bool) (lavg : Nat) : State :=
  { (pulsing (some 500)).modCircuit 7 fun c => { c with marginActive := active, lavg := some lavg } with
    faults := { records := [⟨4, some 7, active, 1, 0, 0, 0, 0, .report⟩] } }

theorem witness_PulsesMoveTheCircuitState_causes :
    (class7 (some 500) = .good ∧ (box.tables.track 7).overLevel < levelOf 3700 2400
        ∧ ((endingCauses 9).circuit 7).overActive = true
        ∧ (pulseReady (pulsed (some 500) .clear 0 0) 7 ⟨1500, some 500⟩ ∧ reactionOf box 3 = .confine
          ∧ box.faults.find 3 (some 7) = none))
      ∧ (levelOf 1830 2400 ≤ (box.tables.track 7).overLevel
        ∧ ∀ n ∈ [0, 8, 9, 10], ((endingCauses n).circuit 7).state = .failed
          ∧ ((endingCauses n).circuit 7).learning = none ∧ (endingCauses n).Undisputed)
      ∧ ((box.tables.track 7).drop ≤ levelOf 1500 2400
        ∧ smooth 650 (levelOf 1500 2400) < (box.tables.track 7).margin
        ∧ reactionOf box 4 = .report ∧ box.faults.find 4 (some 7) = none
        ∧ ((box.circuit 7).marginActive = false))
      ∧ (smooth 681 (levelOf 1500 2400) < (box.tables.track 7).margin + 25
        ∧ (box.tables.track 7).margin + 25 ≤ smooth 682 (levelOf 1500 2400)
        ∧ ((marginal true 682).circuit 7).marginActive = true
        ∧ (marginal true 682).faults.find 4 (some 7) = some ⟨4, some 7, true, 1, 0, 0, 0, 0, .report⟩
        ∧ 4 ∉ ((marginal true 682).circuit 7).confinement) := by
  unfold pulseReady; and_intros <;> decide +kernel

/-- Circuit 7 DISABLED and learning, in EDITING. -/
def learns (l : Learning) : State :=
  { (pulsing (some 500)).modCircuit 7 fun c => { c with state := .disabled, learning := some l } with
    mode := some .editing, store := { box.store with work := some image } }

theorem witness_PulsesMoveTheCircuitState_learning :
    ((learns {}).Undisputed ∧ ((learns {}).circuit 7).pulse = some ⟨1500, some 500⟩
        ∧ ((learns {}).circuit 7).state = .disabled ∧ ((learns {}).circuit 7).learning = some {}
        ∧ (learns {}).converter.busy = some (.pulse 7)
        ∧ ((learns {}).store.work.getD Image.defaults).track 7 = image.track 7)
      ∧ (image.track 7).pnom = 500
      ∧ (inWindow (1500 - 1063) 500 = false ∧ inWindow (1500 - 1062) 500 = true
        ∧ inWindow (1500 - 938) 500 = true ∧ inWindow (1500 - 937) 500 = false)
      ∧ (6 < 7 ∧ 7 ≤ 7) := by and_intros <;> decide +kernel

theorem witness_WiringTestsAndReferencesAreServed :
    (box.Undisputed ∧ within 24 24 = true ∧ box.circuits.length = 24 ∧ 4095 ≤ 4095)
      ∧ ((box.circuit 24).previousRise = none ∧ (box.circuit 24).state ≠ .disabled
        ∧ (box.circuit 24).wiringOpen = false
        ∧ ((at24 fun c => { c with nextWiring := some 2000 }).circuit 24).nextWiring = some 2000)
      ∧ (box.circuit 2).state = .disabled
      ∧ (((at24 fun c => { c with wiringOpen := true, loadEnd := some 2015 }).circuit 24).wiringOpen
          = true)
      ∧ (({ converter := { busy := some (.wiring 24) } } : State).converter.busy = some (.wiring 24)
        ∧ 3899 < 3900 ∧ (box.circuit 24).wiringActive = false)
      ∧ (3900 ≤ 3900
        ∧ ((at24 fun c => { c with wiringActive := true }).circuit 24).wiringActive = true)
      ∧ (3056 ≤ 3056 ∧ 3088 ≤ 3088 ∧ box.faults.converterActive = false) := by decide +kernel

/-- Requests of each kind waiting at an idle converter, a pulse of T24 before one of T1. -/
def contended : Converter :=
  { waiting := [.wiring 24, .reference false .periodic, .pulse 24, .wiring 1, .pulse 1] }

theorem witness_ConverterChoosesByKindThenNumber :
    contended.busy = none ∧ contended.waiting ≠ [] ∧ contended.next.busy = some (.pulse 1)
      ∧ ∀ x ∈ contended.waiting, match x with
        | .pulse k => within k 24 = true
        | .reference .. => True
        | .wiring k => within k 24 = true := by
  refine ⟨rfl, by decide, by decide +kernel, ?_⟩
  intro x hx
  simp [contended] at hx
  rcases hx with rfl | rfl | rfl | rfl | rfl <;> simp [within]

/-! #### Frame bus -/

/-- A poll of a board under way. -/
def polling (b : Nat) : State := { box with polled := some (b, List.replicate 8 false) }

theorem witness_PollsFollowTheCycleAndMakeBoardsMissing :
    (box.Undisputed ∧ box.polled = none)
      ∧ (within 1 3 = true ∧ within 3 3 = true ∧ (box.outb 3).state ≠ none)
      ∧ ((polling 8).Undisputed ∧ within 8 11 = true ∧ (polling 8).boards.length = 11
        ∧ (polling 8).levers.length = 64 ∧ (polling 8).polled = some (8, List.replicate 8 false)
        ∧ ((polling 8).board 8).missing = false ∧ ((polling 8).board 8).misses < 2)
      ∧ (((polling 11).modBoard 11 fun b => { b with missing := true }).board 11).missing = true
      ∧ ((((polling 8).modBoard 8 fun b => { b with misses := 2 }).board 8).misses = 2 ∧ 8 ≤ 8
        ∧ (polling 8).faults.records.length < 32
        ∧ within 64 64 = true ∧ ((polling 8).lever 64).slot.any (boardOfSlot · == 8) = true)
      ∧ ((((polling 11).modBoard 11 fun b => { b with misses := 2 }).board 11).misses = 2 ∧ 11 = 8 + 3
        ∧ ((polling 11).board 11).missing = false ∧ within 3 3 = true
        ∧ (polling 11).instruments.length = 3 ∧ (polling 11).polled = some (11, List.replicate 8 false))
      ∧ 1 ≠ 8 := by and_intros <;> decide +kernel

/-- Lever 64 in transit, with a last reading. -/
def moving64 (r : Reading) : State :=
  (polling 8).modLever 64 fun l => { l with current := .moving, lastReading := some r }

theorem witness_GoodAnswersDecodeTheLevers :
    ((polling 8).Undisputed ∧ within 8 8 = true ∧ within 1 8 = true ∧ (polling 8).boards.length = 11
        ∧ (polling 8).levers.length = 64
        ∧ (List.replicate 8 (⟨true, false, false⟩ : SlotReading)).length = 8
        ∧ (polling 8).polled = some (8, List.replicate 8 false) ∧ ((polling 8).board 8).missing = false
        ∧ leverOfSlot (polling 8) (8 * 8 - 7 + 7) = some 64)
      ∧ (((polling 8).lever 64).atRest = true
        ∧ (readingOf true false).pos = ((polling 8).lever 64).settled)
      ∧ ((readingOf false true).pos ≠ ((polling 8).lever 64).settled ∧ readingOf false true ≠ .both)
      ∧ (((moving64 .reverse).lever 64).atRest = false ∧ (readingOf false true).pos = some .reverse
        ∧ ((moving64 .reverse).lever 64).lastReading = some (readingOf false true))
      ∧ ((moving64 .moving).lever 64).lastReading ≠ some (readingOf false true)
      ∧ readingOf false false = .moving ∧ readingOf true true = .both := by
  and_intros <;> decide +kernel

/-- The commutator of link 3 in transit since 700, with a last reading. -/
def movingCommutator (r : CommReading) : State :=
  { box.modInstrument 3 fun i => { i with current := .moving, lastReading := some r, began := 700 } with
    polled := some (11, List.replicate 8 false) }

theorem witness_InstrumentAnswersDecodeTheCommutator :
    ((polling 11).Undisputed ∧ within 3 3 = true ∧ (polling 11).boards.length = 11
        ∧ (polling 11).instruments.length = 3
        ∧ (polling 11).polled = some (8 + 3, List.replicate 8 false)
        ∧ ((polling 11).board (8 + 3)).missing = false)
      ∧ commReadingOf true true false = .multiple ∧ commReadingOf false false false = .gap
      ∧ commReadingOf true false false = .pos .c
      ∧ (((polling 11).instrument 3).current = .rest .b ∧ CommPos.b ≠ .c)
      ∧ (((movingCommutator (.pos .c)).instrument 3).current = .moving
        ∧ ((movingCommutator (.pos .c)).instrument 3).lastReading = some (.pos .c)
        ∧ ((movingCommutator (.pos .c)).instrument 3).began + 300
          ≤ max (movingCommutator (.pos .c)).now 1000)
      ∧ ((movingCommutator .gap).instrument 3).lastReading ≠ some (.pos .c) := by
  and_intros <;> decide +kernel

/-- A poll of a board that is MISSING, with good answers counted and its record. -/
def missingBoard (b goods : Nat) : State :=
  { (polling b).modBoard b fun x => { x with missing := true, misses := 3, goods } with
    faults := { records := [⟨6, some b, true, 1, 0, 0, 0, 0, .report⟩] } }

/-- A lever and a link with read-back causes. -/
def stuck (on off : Bool) : State :=
  (box.modLever 64 fun l => { l with stuckOnActive := on, stuckOffActive := off }).modInstrument 3 fun i =>
    { i with k1StuckOn := on, stuckOnActive := on, k2StuckOff := off, stuckOffActive := off }

theorem witness_InstrumentAnswersDecodeTheCommutator_more :
    (((movingCommutator (.pos .c)).instrument 3).lastReading = some (.pos .c)
        ∧ ((movingCommutator (.pos .c)).instrument 3).began = 700 ∧ max 999 999 < 700 + 300
        ∧ 700 + 300 ≤ max (movingCommutator (.pos .c)).now 1000)
      ∧ (((polling 11).instrument 3).confinement = [] ∧ (polling 11).inbound.length = 3
        ∧ judgedCommand ((polling 11).board 11) 0 = none ∧ judgedCommand ((polling 11).board 11) 1 = none)
      ∧ (∀ b ∈ [1, 8, 9, 11], ∀ g ∈ [0, 1, 2, 3],
        (missingBoard b g).Undisputed ∧ within b 11 = true ∧ (missingBoard b g).polled.map (·.1) = some b
          ∧ ((missingBoard b g).board b).missing = true ∧ ((missingBoard b g).board b).goods = g
          ∧ ((missingBoard b g).faults.find 6 (some b)).isSome = true)
      ∧ (answerFits 8 (.lever (List.replicate 8 ⟨true, false, false⟩)) = true
        ∧ answerFits 11 (.instrument false true false false false false) = true)
      ∧ (∀ on off, (stuck on off).Undisputed ∧ (stuck on off).levers.length = 64
        ∧ (stuck on off).instruments.length = 3 ∧ within 64 64 = true ∧ within 3 3 = true
        ∧ ((stuck on off).lever 64).stuckOnActive = on ∧ ((stuck on off).instrument 3).stuckOffActive = off
        ∧ ((coilFinding 3 true .agreement (stuck true false)).instrument 3).stuckOnActive = false
        ∧ ((coilFinding 3 true .stuckOn (stuck false false)).instrument 3).stuckOnActive = true) := by
  and_intros <;> decide +kernel

/-! #### Locking -/

/-- A list for a lever moving to REVERSE: an entry met, one unmet, one of the other direction. -/
def someList : CondList :=
  [some ⟨.lever 1 .normal, .toReverse, none⟩, some ⟨.lever 64 .reverse, .both, none⟩,
    some ⟨.track 1, .toNormal, none⟩]

theorem witness_EvaluatorsFindTheFirstUnmetEntry :
    (entryApplies box (some .normal) ⟨.lever 64 .reverse, .both, none⟩ = true
        ∧ entryMet box ⟨.lever 64 .reverse, .both, none⟩ = false)
      ∧ walkX box (some .normal) someList = false ∧ walkY box (some .normal) someList = some 2
      ∧ walkX box (some .normal) (someList.take 1) = true
      ∧ walkY box (some .normal) (someList.take 1) = none := by and_intros <;> decide +kernel

theorem witness_EvaluationDecidesByR55AndR61 :
    (box.Undisputed ∧ within 64 64 = true ∧ within 1 64 = true ∧ box.levers.length = 64
        ∧ box.blockMode ≠ .unconfigured ∧ (box.lever 64).slot ≠ none ∧ (box.lever 1).slot ≠ none)
      ∧ box.blockMode = .service
      ∧ ({ box with mode := some .suspended } : State).blockMode ≠ .service
      ∧ ((box.lever 1).blockLine = some 2 ∧ (box.lever 1).type = .signal
        ∧ (box.lever 1).settled = some .normal) := by and_intros <;> decide +kernel

theorem witness_ReleasesAndAllowancesAreTakenAndWithdrawn :
    (coilOn.Undisputed ∧ within 2 64 = true ∧ coilOn.levers.length = 64
        ∧ coilOn.blockMode ≠ .unconfigured ∧ (coilOn.lever 2).atRest = true
        ∧ (coilOn.lever 2).free = true ∧ (coilOn.lever 2).coil = true ∧ coilOn.blockMode = .service)
      ∧ ((box.lever 64).atRest = true ∧ (box.lever 64).free = false ∧ (box.lever 64).held = none)
      ∧ within 1 64 = true ∧ within 64 64 = true := by and_intros <;> decide +kernel

/-- Lever 2 as a test of a forced movement finds it. -/
def forcing (f : Lever → Lever) : State := box.modLever 2 f

theorem witness_ReleasesAndAllowancesAreTakenAndWithdrawn_forced :
    ((box.lever 1).type = .signal ∧ (box.lever 1).blockLine = some 2 ∧ (box.lever 1).allowance = some false
        ∧ ((box.modLever 1 fun l => { l with allowance := some true }).lever 1).allowance ≠ some false)
      ∧ ((box.lever 2).contactActive = false ∧ Reading.reverse.pos = some .reverse
        ∧ (box.lever 2).settled = some Pos.reverse.opposite ∧ (box.lever 2).forcedActive = false
        ∧ (box.lever 2).atRest = true ∧ (box.lever 2).free = false
        ∧ (coilOn.lever 2).free = true ∧ (coilOn.lever 2).coil = true)
      ∧ (((forcing fun l => { l with current := .moving, departed := true, transitStart := some 0 }).lever
          2).atRest = false
        ∧ (box.lever 2).lastReading ≠ some .reverse ∧ (box.lever 2).held = none
        ∧ ((forcing fun l => { l with held := some .normal }).lever 2).held ≠ none)
      ∧ (((forcing fun l => { l with current := .unknown, lastReading := some .reverse
                                     seenUnknown := true }).lever 2).atRest = false
        ∧ (box.lever 2).departed = false ∧ (box.lever 2).transitActive = false
        ∧ (box.lever 2).seenUnknown = false)
      ∧ (((forcing fun l => { l with current := .moving, lastReading := some .reverse
                                     forcedActive := true }).lever 2).forcedActive = true) := by
  and_intros <;> decide +kernel

/-- The box with eight levers out of use. -/
def eightOut : State :=
  { box with levers := (upTo 64).map fun k =>
      { box.lever k with outOfUse := decide (10 ≤ k ∧ k ≤ 17) } }

theorem witness_AlterationSetTakesAndReturnsLevers :
    (box.Open ∧ box.levers.length = 64 ∧ within 65 64 = false ∧ within 0 64 = false
        ∧ within 64 64 = true)
      ∧ (box.lever 3).type = .spare ∧ (box.lever 64).outOfUse = false
      ∧ (working box = true ∧ (box.lever 64).type ≠ .spare ∧ restsNormal box 64 = true
        ∧ (alterationSet box).length < 8 ∧ box.blockMode ≠ .unconfigured ∧ (box.lever 64).slot ≠ none)
      ∧ (working eightOut = true ∧ (eightOut.lever 64).type ≠ .spare
        ∧ (eightOut.lever 64).outOfUse = false ∧ restsNormal eightOut 64 = true
        ∧ 8 ≤ (alterationSet eightOut).length)
      ∧ (((box.modLever 64 fun l => { l with outOfUse := true }).lever 64).outOfUse = true
        ∧ bringFault { box.tables with conditions := put box.tables.conditions 64 [] } 64 = none)
      ∧ ((bringFault { box.tables with
          conditions := put box.tables.conditions 64 [some ⟨.lever 64 .normal, .both, none⟩] } 64).isSome
        = true)
      ∧ (((box.modLever 64 fun l => { l with current := .moving }).lever 64).outOfUse = false
        ∧ restsNormal (box.modLever 64 fun l => { l with current := .moving }) 64 = false)
      ∧ working { box with mode := some .editing } = false := by and_intros <;> decide +kernel

/-! #### Holds and releases -/

theorem witness_HoldsTakeSettlesAndCircuits :
    (within 16 16 = true ∧ within 1 16 = true ∧ box.holds.length = 16
        ∧ (box.hold 16).state = some .idle ∧ (box.hold 1).state = some .idle)
      ∧ ((box.tables.hold 16).signal = some 1 ∧ (box.tables.hold 16).signal ≠ some 2
        ∧ (box.hold 2).state = none)
      ∧ ∃ became : HoldState → Hold,
          ∀ x, became x = if x = .idle then box.hold 16 else ⟨some x, some box.now⟩ :=
  ⟨by decide +kernel, by decide +kernel, _, fun _ => rfl⟩

/-- The box with hold 16 in a state and its timer, 16, in another. -/
def holding (h : HoldState) (t : Timer) : State :=
  (box.modHold 16 fun _ => ⟨some h, some 0⟩).modTimer 16 fun _ => t

theorem witness_ReleaseTimersAreRequestedAndCancelled :
    (box.Open ∧ box.timers.length = 16 ∧ box.holds.length = 16)
      ∧ within 17 16 = false ∧ within 0 16 = false ∧ within 16 16 = true
      ∧ timerOn box 4 = false ∧ (box.timer 16).state = .idle
      ∧ ownerNeeds box (timerOwner box 16) = false
      ∧ (timerOn box 16 = true ∧ ((holding .held {}).timer 16).state = .idle
        ∧ ownerNeeds (holding .held {}) (timerOwner (holding .held {}) 16) = true
        ∧ timerOwner box 16 = (.hold, 16) ∧ within (timerOwner box 16).2 16 = true)
      ∧ (timerOwner box 2 = (.lever, 2) ∧ ownerNeeds box (.lever, 2) = true)
      ∧ (timerOwner box 3 = (.sequence, 1)
        ∧ ownerNeeds (box.modInb 1 fun i => { i with state := some .occupied, sequence := .wait })
          (.sequence, 1) = true)
      ∧ (((holding .releasing { state := .running, expiry := some 2000 }).timer 16).state ≠ .idle
        ∧ ((holding .releasing { state := .running, expiry := some 2000 }).hold 16).state
          = some .releasing)
      ∧ ((box.modTimer 2 fun _ => { state := .complete, lapse := some 2000 }).timer 2).state ≠ .idle
      := by and_intros <;> decide +kernel

/-- The box with timer 3, of the arrival sequence of line 1, RUNNING to 2000. -/
def arriving : State :=
  (box.modInb 1 fun i => { i with state := some .occupied, sequence := .arriving }).modTimer 3
    fun _ => { state := .running, expiry := some 2000 }

theorem witness_ReleasesExpireAndLapse :
    (box.Undisputed ∧ within 16 16 = true ∧ box.timers.length = 16 ∧ box.holds.length = 16
        ∧ box.inbound.length = 3 ∧ (box.timer 16).state ≠ .running ∧ (box.timer 16).state ≠ .complete)
      ∧ (((holding .releasing { state := .running, expiry := some 2000 }).timer 16).state = .running
        ∧ ((holding .releasing { state := .running, expiry := some 2000 }).timer 16).expiry = some 2000
        ∧ ((holding .releasing { state := .running, expiry := some 2000 }).hold 16).state
          = some .releasing ∧ (timerOwner box 16).1 = .hold ∧ 2000 ≤ max box.now 2000)
      ∧ ((timerOwner arriving 3).1 = .sequence ∧ within (linkOfLine (timerOwner arriving 3).2) 3 = true
        ∧ (arriving.inb (linkOfLine (timerOwner arriving 3).2)).sequence = .arriving
        ∧ (arriving.timer 3).expiry = some 2000 ∧ (arriving.timer 3).state = .running)
      ∧ ((timerOwner box 2).1 = .lever
        ∧ ((box.modTimer 2 fun _ => { state := .running, expiry := some 2000 }).timer 2).state
          = .running)
      ∧ (((box.modTimer 2 fun _ => { state := .complete, lapse := some 2000 }).timer 2).state
          = .complete
        ∧ ((box.modTimer 2 fun _ => { state := .complete, lapse := some 2000 }).timer 2).lapse
          = some 2000 ∧ 2000 ≤ max box.now 2000)
      ∧ max box.now 1999 < 2000 := by and_intros <;> decide +kernel

/-! #### Bell codes -/

theorem witness_SendCodeOpensAHostCode :
    (box.Open ∧ box.bells.length = 3 ∧ within 4 3 = false ∧ within 3 3 = true)
      ∧ ([] : List Nat).length < 1 ∧ 4 < [1, 1, 1, 1, 1].length ∧ (∃ g ∈ [17], g < 1 ∨ 16 < g)
      ∧ (1 ≤ [16, 1, 1, 16].length ∧ [16, 1, 1, 16].length ≤ 4 ∧ ∀ g ∈ [16, 1, 1, 16], 1 ≤ g ∧ g ≤ 16)
      ∧ linkTakesCodes box 2 = false ∧ linkTakesCodes box 3 = true
      ∧ (sendingCode true).bell 1 ≠ {} ∧ ((sendingCode true).bell 1).host ≠ none
      ∧ ((box.bell 3).plunger = none ∧ (box.bell 3).host = none) := by and_intros <;> decide +kernel

/-- The host code on link 1 of the box, before and after its stroke. -/
def hostCode (sent : Bool) : HostCode :=
  { number := 4, pattern := [1], schedule := if sent then [] else [(1000, true)], stroke := 120
    sent := if sent then 1 else 0, endAt := 2500, rules := rulesFor box 1 }

theorem witness_HostCodesAreSentAsScheduled :
    (box.Undisputed ∧ within 1 3 = true ∧ box.bells.length = 3 ∧ box.links.length = 3)
      ∧ (((sendingCode false).bell 1).host = some (hostCode false)
        ∧ (hostCode false).schedule = [(1000, true)] ∧ max box.now 1119 < 1000 + 120
        ∧ 1000 + 120 ≤ max box.now 1120)
      ∧ (((sendingCode true).bell 1).host = some (hostCode true) ∧ (hostCode true).schedule = []
        ∧ max box.now 2499 < 2500 ∧ 2500 ≤ max box.now 2500
        ∧ (matchCode (hostCode true).rules true (hostCode true).pattern).1 ≠ .entering
        ∧ ((sendingCode true).bell 1).answerable = none) := by and_intros <;> decide +kernel

/-- A plunger code on link 3, its last stroke started at 1260, garbled or not. -/
def plungerCode (garbled : Bool) : PlungerCode :=
  { number := some 15, opened := 0, pattern := ⟨[2], 1⟩, counted := 2, previousStart := some 1260, garbled
    relayed := 2, rules := rulesFor box 1 }

/-- The box with a record of link 3's bell. -/
def bell3 (f : Bell → Bell) : State := box.modBell 3 f

theorem witness_CodesEndAtTheirTimes :
    (box.Undisputed ∧ within 3 3 = true ∧ box.bells.length = 3 ∧ box.links.length = 3
        ∧ box.outbound.length = 3)
      ∧ (((bell3 fun b => { b with plunger := some (plungerCode false) }).bell 3).plunger
          = some (plungerCode false)
        ∧ (plungerCode false).previousStart = some 1260
        ∧ max box.now 2759 < 1260 + (box.tables.bell 3).endGap
        ∧ 1260 + (box.tables.bell 3).endGap ≤ max box.now 2760
        ∧ (box.bell 3).strokeTaken = false ∧ (box.bell 3).answerable = none
        ∧ ((plungerCode false).garbled = false
          ∧ (matchCode (plungerCode false).rules true (plungerCode false).pattern.beats).1 = .entering)
        ∧ (plungerCode true).garbled = true)
      ∧ (max box.now 4499 < 1000 + (box.tables.bell 3).endGap + 2000
        ∧ 1000 + (box.tables.bell 3).endGap + 2000 ≤ max box.now 4500
        ∧ ((bell3 fun b => { b with received := some { number := 0, lastItem := 1000, rules := [] } }).bell
          3).received = some { number := 0, lastItem := 1000, rules := [] })
      ∧ (((bell3 fun b => { b with expectation := some ⟨[1], .call, none, 0, 2000⟩ }).bell 3).expectation
          = some ⟨[1], .call, none, 0, 2000⟩ ∧ max box.now 1999 < 2000 ∧ 2000 ≤ max box.now 2000)
      ∧ ((box.bell 3).plunger = none ∧ (box.bell 3).received = none ∧ (box.bell 3).expectation = none)
      := by and_intros <;> decide +kernel

theorem witness_PatternsKeepTheirLimitsAndMatchTheFirstRule :
    ((⟨[16, 1, 1, 16], 4⟩ : Pattern).place true).2 = false
      ∧ ((⟨[16, 1, 1], 3⟩ : Pattern).place true).2 = true
      ∧ ((⟨[16], 1⟩ : Pattern).place false).2 = false
      ∧ (∃ before r after, rulesFor box 1 = before ++ r :: after ∧ r.pattern ≠ [] ∧ r.pattern = [3, 1]
        ∧ r.valid true = true ∧ ∀ q ∈ before, q.pattern ≠ [3, 1] ∨ q.valid true = false)
      ∧ ∀ q ∈ rulesFor box 1, q.pattern = [] ∨ q.pattern ≠ [5] ∨ q.valid true = false := by
  refine ⟨by decide, by decide, by decide, ?_, ?_⟩
  · exact ⟨(box.tables.page 0).take 1, nth (box.tables.page 0) {} 2, (box.tables.page 0).drop 2, rfl,
      by decide +kernel⟩
  · decide +kernel

/-- Link 3 with its plunger, a stroke taken or not, and a plunger code. -/
def plunging (p : Plunger) (taken : Bool) (c : Option PlungerCode) : State :=
  (box.modInstrument 3 fun i => { i with plunger := p }).modBell 3 fun b => { b with
    strokeTaken := taken, plunger := c }

theorem witness_PatternsKeepTheirLimitsAndMatchTheFirstRule_plunger :
    (within 3 3 = true ∧ box.instruments.length = 3 ∧ box.bells.length = 3 ∧ box.links.length = 3)
      ∧ (∀ p ∈ [Plunger.arming, .released, .closed 960], ((plunging p false none).instrument 3).plunger = p)
      ∧ (linkTakesCodes box 3 = true ∧ linkTakesCodes box 2 = false
        ∧ ((plunging .released false none).bell 3).host = none
        ∧ ((plunging .released false none).bell 3).plunger = none)
      ∧ (((plunging .released false (some (plungerCode false))).bell 3).plunger = some (plungerCode false)
        ∧ (plungerCode false).previousStart = some 1260 ∧ box.now < 1260 + (box.tables.bell 3).endGap)
      ∧ (((plunging (.closed 960) true (some (plungerCode false))).bell 3).strokeTaken = true
        ∧ 40 ≤ box.now - 960 ∧ box.now < 960 + (box.tables.bell 3).endGap
        ∧ box.now - 961 < 40 ∧ (plungerCode false).counted ≠ 0
        ∧ ({ plungerCode false with counted := 0 } : PlungerCode).counted = 0
        ∧ 1 ≤ (box.tables.bell 3).groupGap
        ∧ 64 ≤ ({ plungerCode false with counted := 64 } : PlungerCode).counted
        ∧ ({ plungerCode false with counted := 63 } : PlungerCode).counted < 64) := by
  and_intros <;> decide +kernel

/-! #### Lines -/

/-- The inbound line of link 3 in a state, its handle where it was, with a permission. -/
def inbound3 (st : LineState) (x : CommPos) (permission : Coils) : State :=
  box.modInb 3 fun i => { i with state := some st, handle := some x, permission }

theorem witness_CommutatorSettlesMoveTheInboundLine :
    (box.Undisputed ∧ within 3 3 = true ∧ box.inbound.length = 3 ∧ box.links.length = 3)
      ∧ (((inbound3 .blocked .b {}).inb 3).state = some .blocked
        ∧ ((inbound3 .blocked .b {}).inb 3).handle = some .b)
      ∧ (((inbound3 .blocked .c {}).inb 3).handle = some .c ∧ CommPos.b ≠ .c
        ∧ CommPos.c ≠ LineState.blocked.handle ∧ CommPos.b = LineState.blocked.handle
        ∧ CommPos.o ≠ LineState.blocked.handle)
      ∧ (Coils.contains {} (coilsNeeded .b .c) = false
        ∧ Coils.contains ⟨true, true⟩ (coilsNeeded .b .c) = true
        ∧ Coils.contains ⟨true, true⟩ (coilsNeeded .b .o) = true
        ∧ Coils.contains ⟨true, true⟩ (coilsNeeded .c .o) = true
        ∧ Coils.contains ⟨true, true⟩ (coilsNeeded .c .b) = true
        ∧ Coils.contains ⟨true, true⟩ (coilsNeeded .o .b) = true
        ∧ CommPos.b = LineState.blocked.handle ∧ CommPos.c = LineState.clear.handle
        ∧ CommPos.o = LineState.occupied.handle ∧ (box.inb 3).disagreeActive = false)
      ∧ ((box.modInb 3 fun i => { i with state := none }).inb 3).state = none := by
  and_intros <;> decide +kernel

theorem witness_CommutatorSettlesMoveTheInboundLine_coils :
    ((∀ x ∈ [CommPos.b, .c, .o], presented (box.modInstrument 3 fun i => { i with current := .rest x }) 3
          = .rest x)
        ∧ presented (box.modInstrument 3 fun i => { i with current := .moving }) 3 = .moving
        ∧ presented (box.modInstrument 3 fun i => { i with current := .unknown }) 3 = .unknown)
      ∧ (box.blockMode = .service ∧ (box.inb 3).forcedConfinement = []
        ∧ ({ box with mode := some .suspended } : State).blockMode ≠ .service
        ∧ ({ box with mode := some .unconfigured } : State).blockMode = .unconfigured)
      ∧ (box.isSingle 3 = true ∧ box.isSingle 1 = false)
      ∧ (∀ q ∈ [SeqState.idle, .wait, .arriving, .passing, .complete],
        ((box.modInb 1 fun i => { i with sequence := q }).inb 1).sequence = q)
      ∧ ((box.tables.inb 1).arrival = some 7 ∧ (box.tables.inb 1).clearing = none
        ∧ box.timers.length = 16)
      ∧ (({ box with store := { box.store with inForce := some { image with
          inbound := [{ arrival := some 7, clearing := some 8, timer := some 3 }, {}, {}] } } } : State).tables.inb
            1).clearing = some 8 := by
  and_intros <;> decide +kernel

/-- The outbound line of link 3 in a state, with its guard. -/
def outbound3 (st : LineState) (guard : Bool) : State :=
  box.modOutb 3 fun o => { o with state := some st, guard }

theorem witness_FarStatesMoveTheOutboundLine :
    (box.Undisputed ∧ within 3 3 = true ∧ box.outbound.length = 3)
      ∧ ((box.modOutb 3 fun o => { o with state := none }).outb 3).state = none
      ∧ (((outbound3 .blocked false).outb 3).state = some .blocked
        ∧ ((outbound3 .blocked false).outb 3).guard = false
        ∧ excluded (outbound3 .blocked false) 3 = false)
      ∧ ((outbound3 .blocked true).outb 3).guard = true
      ∧ excluded (inbound3 .occupied .o {}) 3 = true
      ∧ ((outbound3 .clear false).outb 3).state = some .clear
      ∧ ((outbound3 .occupied false).outb 3).state = some .occupied := by and_intros <;> decide +kernel

/-- Link 1 with an expectation and a received code open, at the end of a code. -/
def receiving (e : Option Expectation) : State := box.modBell 1 fun b => { b with expectation := e }

theorem witness_FarStatesMoveTheOutboundLine_codes :
    ((box.tables.outb 1).departure = some 1 ∧ within 1 3 = true
        ∧ ((box.modOutb 1 fun o => { o with state := some .clear }).outb 1).state = some .clear
        ∧ (box.outb 1).departureSeen = false)
      ∧ (box.bells.length = 3 ∧ box.inbound.length = 3 ∧ box.levers.length = 64)
      ∧ (((receiving (some ⟨[3, 1], .offer, some 2, 0, 2000⟩)).bell 1).expectation
          = some ⟨[3, 1], .offer, some 2, 0, 2000⟩
        ∧ (box.bell 1).expectation = none)
      ∧ (matchCode (rulesFor box 1) false [3, 1]).1 = .offer
      ∧ (matchCode [{ pattern := [3, 1], meaning := .cancel, validFor := .both }] false [3, 1]).1 = .cancel
      ∧ (matchCode [{ pattern := [6], meaning := .obstruction, validFor := .received }] false [6]).1
        = .obstruction
      ∧ (matchCode (rulesFor box 1) false [1]).1 = .call := by and_intros <;> decide +kernel

theorem witness_ComparesOfLeversAndLinesBeginTheirCauses :
    (box.Undisputed ∧ within 64 64 = true ∧ box.levers.length = 64
        ∧ ((box.modLever 64 fun l => { l with transitAt := some 2000 }).lever 64).transitAt = some 2000
        ∧ 2000 ≤ max box.now 2000 ∧ max box.now 1999 < 2000 ∧ (box.lever 64).transitActive = false
        ∧ reactionOf box 9 = .report ∧ box.faults.find 9 (some 64) = none
        ∧ box.faults.records.length < 32)
      ∧ ((box.inb 3).disagreeSince = none ∧ within 3 3 = true ∧ box.inbound.length = 3
        ∧ (∀ active, ((box.modInb 3 fun i => { i with
            disagreeSince := some 0, disagreeAt := some 2000, disagreeActive := active }).inb 3).disagreeAt
          = some 2000)
        ∧ reactionOf box 19 ≠ .suspend ∧ box.faults.find 19 (some 3) = none)
      ∧ (box.outbound.length = 3
        ∧ ((box.modOutb 3 fun o => { o with overdueAt := some 2000 }).outb 3).overdueAt = some 2000)
      := by and_intros <;> decide +kernel

/-! #### Block links -/

/-- Link 1 of the box in a state. -/
def link1 (st : LinkState) (f : Link → Link := id) : State :=
  box.modLink 1 fun l => f { l with state := st }

/-- A link with an indication due and no retry time. -/
def withWork (l : Link) : Link := { l with indicationDue := true }

theorem witness_LinkFramesAreTakenByState :
    (box.Undisputed ∧ within 1 3 = true ∧ box.links.length = 3 ∧ (box.link 1).staged = []
        ∧ 1 ≤ (cfgOf box 1).turnaround ∧ (cfgOf box 1).farBox = some 9 ∧ (box.link 1).lost = false)
      ∧ ((link1 .outOfUse).link 1).state = .outOfUse ∧ ((link1 .loopback).link 1).state = .loopback
      ∧ (((box.link 1).takeChars (cfgOf box 1) 2000 (frameBytes .bid 9 [])).frameHeld
          = some (frameBytes .bid 9 []).tail
        ∧ ((box.link 1).takeChars (cfgOf box 1) 2000 [0x5A, 0x5A]).frameHeld = none
        ∧ hear (frameBytes .bid 9 []).tail = .whole .bid 9 [] ∧ (box.link 1).state = .idle
        ∧ hasWork box 1 = false)
      ∧ (((link1 .receiving).link 1).state = .receiving ∧ ((link1 .bidding).link 1).state = .bidding
        ∧ hear (frameBytes .data 9 [.codeEnd 0 1 false]).tail = .whole .data 9 [.codeEnd 0 1 false])
      ∧ (hear (frameBytes .go 9 []).tail = .whole .go 9 []
        ∧ ((link1 .bidding fun l => withWork { l with answerAt := some 2000 }).link 1).answerAt ≠ none
        ∧ (buildFlight (link1 .bidding fun l => withWork { l with answerAt := some 2000 }) 1).items ≠ []
        ∧ hasWork (link1 .bidding fun l => { l with answerAt := some 2000 }) 1 = false)
      ∧ (hear (frameBytes .wait 9 []).tail = .whole .wait 9 []
        ∧ ((link1 .bidding fun l => { l with bidAttempts := 7 }).link 1).bidAttempts + 1
          ≤ (cfgOf box 1).bidRetries
        ∧ ¬ ((link1 .bidding fun l => { l with bidAttempts := 8 }).link 1).bidAttempts + 1
          ≤ (cfgOf box 1).bidRetries)
      ∧ (hear (frameBytes .taken 9 []).tail = .whole .taken 9 []
        ∧ ((link1 .awaitTaken fun l => { l with takenAt := some 2000 }).link 1).takenAt ≠ none
        ∧ (false = true ↔ ((link1 .awaitTaken).link 1).queue.drop ((link1 .awaitTaken).link 1).inFlight ≠ []
          ∨ ((link1 .awaitTaken).link 1).indicationDue = true ∧ ((link1 .awaitTaken).inb 1).state ≠ none)
        ∧ (true = true
          ↔ ((link1 .awaitTaken withWork).link 1).queue.drop ((link1 .awaitTaken withWork).link 1).inFlight ≠ []
          ∨ ((link1 .awaitTaken withWork).link 1).indicationDue = true
            ∧ ((link1 .awaitTaken withWork).inb 1).state ≠ none))
      ∧ (hear (frameBytes .reject 9 []).tail = .whole .reject 9 []
        ∧ ((link1 .awaitTaken fun l => { l with dataAttempts := 2 }).link 1).dataAttempts + 1
          ≤ (cfgOf box 1).dataRetries
        ∧ ¬ ((link1 .awaitTaken fun l => { l with dataAttempts := 3 }).link 1).dataAttempts + 1
          ≤ (cfgOf box 1).dataRetries)
      ∧ (((link1 .idle fun l => { l with lost := true }).link 1).lost = true ∧ box.inbound.length = 3)
      ∧ hear [4, 9, 1, 2, 0, 1, 0, 0] = .bad .data := by and_intros <;> decide +kernel

theorem witness_LinkFramesAreTakenByState_stranger :
    ((box.link 1).takeChars (cfgOf box 1) 2000 (frameBytes .data 8 [.codeEnd 0 1 false])).frameHeld
        = some (frameBytes .data 8 [.codeEnd 0 1 false]).tail
      ∧ hear (frameBytes .data 8 [.codeEnd 0 1 false]).tail = .whole .data 8 [.codeEnd 0 1 false]
      ∧ (cfgOf box 1).farBox ≠ some 8
      ∧ (hear (frameBytes .bid 8 []).tail = .whole .bid 8 [] ∧ FrameType.bid ≠ .data) := by
  and_intros <;> decide +kernel

theorem witness_LinkLineEventsMoveTheExchange :
    (box.Undisputed ∧ within 1 3 = true ∧ box.links.length = 3 ∧ (box.link 1).staged = []
        ∧ 1 ≤ (cfgOf box 1).turnaround ∧ hasWork box 1 = false ∧ (box.link 1).state ≠ .outOfUse
        ∧ (box.link 1).state ≠ .loopback ∧ (box.link 1).assembling = none
        ∧ (0x33 : Byte) ≠ startChar ∧ (0x5A : Byte) = startChar)
      ∧ (((link1 .receiving fun l => { l with assembling := some ([1, 9], 1000) }).link 1).assembling
          = some ([1, 9], 1000)
        ∧ stillFrame ([1, 9] ++ [0]) = true ∧ stillFrame ([1, 9] ++ [1]) = false
        ∧ frameEnded [1, 9] = false ∧ frameEnded [1, 9, 0, 8] = true
        ∧ ((link1 .receiving fun l => { l with assembling := some ([1, 9, 0, 8], 1000) }).link 1).assembling
          = some ([1, 9, 0, 8], 1000)
        ∧ max box.now 1015 ≤ 1000 + 15 ∧ 1000 + 15 < max box.now 1016)
      ∧ ((link1 .outOfUse).link 1).state = .outOfUse
      ∧ (∀ f ∈ [FrameType.bid, .go, .wait, .data, .reject],
        ((link1 .bidding fun l => { l with sending := some f }).link 1).sending = some f)
      ∧ (box.link 1).sending = none
      ∧ (quiet ((link1 .idle fun l => { l with heard := some 1000 }).atTime 1009) 1 = false
        ∧ quiet ((link1 .idle fun l => { l with heard := some 1000 }).atTime 1010) 1 = true
        ∧ frameToStart ((link1 .bidding).link 1) = some .bid
        ∧ frameToStart ((link1 .idle fun l => { l with answer := some .go }).link 1) = some .go)
      ∧ (((link1 .bidding fun l => { l with backOffAt := some 2000 }).link 1).backOffAt = some 2000
        ∧ max box.now 1999 < 2000 ∧ 2000 ≤ max box.now 2000
        ∧ quiet ((link1 .bidding fun l => { l with backOffAt := some 2000 }).atTime 2000) 1 = true
        ∧ ((link1 .bidding).link 1).answer = none ∧ ((link1 .bidding).link 1).answerAt = none
        ∧ ((link1 .sending).link 1).state = .sending) := by and_intros <;> decide +kernel

theorem witness_LinkLineEventsMoveTheExchange_crossed :
    (box.link 1).crossedDue = false
      ∧ (((link1 .bidding fun l => { l with sending := some .reject, crossedDue := true }).link 1).sending
          = some .reject
        ∧ ((link1 .bidding fun l => { l with sending := some .reject, crossedDue := true }).link 1).crossedDue
          = true
        ∧ box.faults.find 17 (some 1) = none ∧ box.faults.records.length < 32
        ∧ reactionOf box 17 = .confine ∧ (box.link 1).confinement = []
        ∧ ((link1 .bidding).link 1).state ≠ .outOfUse)
      ∧ frameToStart ((link1 .bidding fun l => { l with answer := some .wait, answerAt := some 2000 }).link 1)
        = some .wait := by and_intros <;> decide +kernel

/-- Link 1 sending a GO that waited when the far end's GO brought it a DATA frame. -/
def yielding : State :=
  link1 .receiving fun l =>
    { l with sending := some .go, bidAttempts := 3, flight := some ⟨0, [.indication .blocked .blocked true]⟩ }

theorem witness_LinkLineEventsMoveTheExchange_go :
    ((link1 .receiving fun l => { l with sending := some .go }).link 1).flight = none
      ∧ (yielding.link 1).sending = some .go ∧ (yielding.link 1).crossedDue = false
      ∧ (yielding.link 1).flight = some ⟨0, [.indication .blocked .blocked true]⟩
      ∧ (yielding.link 1).state = .receiving
      ∧ ∀ q ∈ (yielding.link 1).queue, q.item.isStroke = true → max yielding.now 2000 < q.joined + 5000 := by
  and_intros <;> decide +kernel

/-- R141, R144: the exchange of a link that has sent its GO ends without TAKEN: the frame is dropped, the
indication it carried is due again, and the bid attempts stay. -/
theorem test_go_ends_the_exchange_of_its_own :
    sees (.linkFrameSent 2000 1) yielding
      (fun u => ((u.link 1).flight, (u.link 1).indicationDue, (u.link 1).bidAttempts)) (none, true, 3)
      = true := by decide +kernel

/-- R138: of the characters after the CHECK of a frame, a START begins a frame and any other begins none. -/
theorem test_a_start_after_a_check_begins_a_frame :
    let s := link1 .idle fun l => { l with assembling := some ([1, 9, 0, 8], 1000) }
    sees (.linkCharacterReceived 1004 1 0x5A) s (fun u => (u.link 1).assembling) (some ([], 1004)) = true
      ∧ sees (.linkCharacterReceived 1004 1 0x33) s (fun u => (u.link 1).assembling) none = true
      ∧ ((s.link 1).takeChars (cfgOf s 1) 1025 (frameBytes .wait 9 [])).frameHeld = some [3, 9, 0, 10]
      ∧ ((s.link 1).takeChars (cfgOf s 1) 1004 []).frameHeld = some [1, 9, 0, 8] := by
  and_intros <;> decide +kernel

/-- R138, step 3: a BID of five characters, 25 / 6 ms each, after a START heard at 1000. Ended at 1032 or later, its
own START came more than 15 ms after that one: the stale START is abandoned and the BID is answered GO. Ended at
1031, its START is the TYPE of the frame begun at 1000, which is abandoned. -/
theorem test_a_pause_before_a_frame_abandons_the_one_begun :
    let s := link1 .idle fun l => { l with assembling := some ([], 1000) }
    let seen (t : Time) (a : Option FrameType) :=
      sees (.linkFrameReceived t 1 (frameBytes .bid 9 [])) s
        (fun u => ((u.link 1).answer, (u.link 1).assembling)) (a, none)
    seen 10000 (some .go) = true ∧ seen 1032 (some .go) = true ∧ seen 1031 none = true := by
  and_intros <;> decide +kernel

/-- R141, R147: an exchange whose DATA frame carries an INDICATION, ended by the entry to OUT_OF_USE, leaves the
indication due mark set. -/
theorem test_out_of_use_makes_the_indication_due_again :
    sees (.linkFrameSent 2000 1) (link1 .awaitTaken fun l =>
        { l with sending := some .reject, crossedDue := true
                 flight := some ⟨0, [.indication .blocked .blocked true]⟩ })
      (fun u => ((u.link 1).state, (u.link 1).flight, (u.link 1).indicationDue)) (.outOfUse, none, true)
      = true := by decide +kernel

/-- R128, R132, R154: LINK_LOST of link 1, its outbound line CLEAR and LINE_DISAGREE standing: the Fault
Monitor's two entries stand together. -/
theorem test_link_lost_entries_are_consecutive :
    let s := ((link1 .idle fun l => { l with silenceAt := some 2000 }).modOutb 1 fun o =>
      { o with state := some .clear }).modInb 1 fun i =>
        { i with farView := some .occupied, disagreeSince := some 0, disagreeActive := true }
    sees (.silenceWatchExpiry 2000 1) (s |> countOccurrence 19 (some 1))
      (fun u => (u.register.ring.drop 1).map (·.event))
      [.faultRaised 16 (some 1) .confine 1, .faultCleared 19 (some 1) .report 1 false,
        .clearLost 2 .linkLost] = true := by decide +kernel

/-- R39, R154: a reading that is the first to show a forcing in transit and settles the lever: the holds' entries
come first, and then the Fault Monitor's two, of LEVER_TRANSIT and of LEVER_FORCED, which ends with the
settle. -/
theorem test_a_forcing_found_at_the_settle :
    let s := (((box.modLever 1 fun l => { l with
        settled := some .normal, current := .moving, departed := true, transitStart := some 0
        lastReading := some .reverse, transitActive := true, forcedActive := false, held := none })
      |> countOccurrence 9 (some 1)).modHold 1 fun _ => ⟨some .held, some 0⟩)
    let u := takeReading 1 .reverse s
    (u.register.ring.drop 1).map (·.event)
        = [.hold 1 .held .set, .hold 16 .idle .set, .faultCleared 9 (some 1) .report 1 false,
          .faultRaised 8 (some 1) .suspend 1, .mode (some .service) .suspended]
      ∧ ((u.lever 1).forcedActive, (u.faults.find 8 (some 1)).map (·.active)) = (false, some false) := by
  and_intros <;> decide +kernel

/-- Link 1 sending TAKEN for items. -/
def taking (items : List Item) : State :=
  link1 .receiving fun l => { l with sending := some .taken, toDeliver := items }

/-- A received code of number 15, open since a STROKE of a number. -/
def strokeTaken (n : Nat) : ReceivedCode :=
  { number := 15, pattern := ⟨[1], 1⟩, strokes := 1, next := n + 1, garbled := n != 1, lastItem := 900
    rules := rulesFor box 1 }

theorem witness_TakenItemsAreDelivered :
    ((taking []).Undisputed ∧ within 1 3 = true ∧ (taking []).links.length = 3
        ∧ (taking []).bells.length = 3 ∧ (taking []).instruments.length = 3
        ∧ (taking []).inbound.length = 3 ∧ (taking []).outbound.length = 3
        ∧ ((taking []).link 1).sending = some .taken ∧ ((taking []).link 1).crossedDue = false ∧ ((taking []).link 1).toDeliver = []
        ∧ ((taking []).link 1).state = .receiving ∧ hasWork (taking []) 1 = false
        ∧ ((taking []).link 1).answer = none)
      ∧ (((taking [.stroke 15 true 1 200]).link 1).toDeliver = [.stroke 15 true 1 200]
        ∧ ((taking [.stroke 15 true 1 200]).bell 1).received = none
        ∧ recentlyEnded ((taking [.stroke 15 true 1 200]).atTime 2000) 1 15 = false)
      ∧ ((taking [.indication .blocked .clear true]).link 1).toDeliver = [.indication .blocked .clear true]
      ∧ (((taking [.codeEnd 15 1 false]).link 1).toDeliver = [.codeEnd (strokeTaken 1).number 1 false]
        ∧ (((taking [.codeEnd 15 1 false]).modBell 1 fun b => { b with received := some (strokeTaken 1) }).bell
          1).received = some (strokeTaken 1)
        ∧ (strokeTaken 1).garbled = false ∧ 1 + 1 = (strokeTaken 1).next ∧ 2 + 1 ≠ (strokeTaken 1).next
        ∧ ((taking [.codeEnd 15 1 false]).bell 1).expectation = none)
      ∧ ((strokeTaken 1).number = 15 ∧ 1 < (strokeTaken 1).next ∧ (strokeTaken 1).next ≤ 2
        ∧ (strokeTaken 1).number ≠ 14)
      ∧ ((∃ e, ({ lastEnded := some (15, 500) } : Bell).lastEnded = some (15, e) ∧ box.now < e + 10000)
        ∧ (box.bell 1).received = none ∧ (box.bell 1).lastEnded = none) := by
  refine ⟨?_, ?_, ?_, ?_, ?_, ⟨500, rfl, ?_⟩, ?_⟩ <;> and_intros <;> decide +kernel

/-- R105, R106, R144: a STROKE, a further one in a new group and its CODE END, in one frame and resent after it,
are delivered in frame order: one code 1-1 is received, and what is resent is a duplicate. -/
theorem test_a_frame_of_items_is_delivered_in_order :
    sees (.linkFrameSent 2000 1)
      (taking [.stroke 5 true 1 24, .stroke 5 true 2 24, .codeEnd 5 2 false, .stroke 5 true 1 24, .codeEnd 5 2 false])
      (fun u => ((u.register.ring.drop 1).map (·.event), (u.bell 1).received, (u.bell 1).lastEnded))
      ([.codeReceived 1 [1, 1] (some .unknown) none false], none, some (5, 2000)) = true := by decide +kernel

theorem witness_LinkTimersActAtTheirTimes :
    (box.Undisputed ∧ within 1 3 = true ∧ box.links.length = 3 ∧ box.inbound.length = 3
        ∧ box.outbound.length = 3 ∧ max box.now 1999 < 2000 ∧ 2000 ≤ max box.now 2000)
      ∧ (box.link 1).state ≠ .bidding ∧ (box.link 1).state ≠ .awaitTaken
      ∧ (box.link 1).state ≠ .receiving
      ∧ (∀ n ∈ [7, 8], ((link1 .bidding fun l => { l with answerAt := some 2000, bidAttempts := n }).link
          1).answerAt = some 2000)
      ∧ (7 + 1 ≤ (cfgOf box 1).bidRetries ∧ (cfgOf box 1).bidRetries < 8 + 1)
      ∧ (∀ n ∈ [2, 3], ((link1 .awaitTaken fun l => { l with
          takenAt := some 2000, dataAttempts := n }).link 1).takenAt = some 2000)
      ∧ (2 + 1 ≤ (cfgOf box 1).dataRetries ∧ (cfgOf box 1).dataRetries < 3 + 1)
      ∧ (((link1 .receiving fun l => { l with dataAt := some 2000 }).link 1).dataAt = some 2000
        ∧ hasWork (link1 .receiving fun l => { l with dataAt := some 2000 }) 1 = false
        ∧ (box.link 1).answer = none)
      ∧ (((link1 .idle fun l => withWork { l with retryAt := some 2000 }).link 1).retryAt = some 2000
        ∧ hasWork (link1 .idle fun l => withWork { l with retryAt := some 2000 }) 1 = true)
      ∧ ((link1 .idle fun l => { l with heartbeatAt := some 2000 }).link 1).heartbeatAt = some 2000
      ∧ (∀ lost, ((link1 .idle fun l => { l with silenceAt := some 2000, lost }).link 1).silenceAt
          = some 2000)
      ∧ (reactionOf box 16 ≠ .suspend ∧ box.faults.find 16 (some 1) = none
        ∧ box.faults.records.length < 32)
      ∧ ((box.modOutb 1 fun o => { o with state := some .clear }).outb 1).state = some .clear := by
  and_intros <;> decide +kernel

theorem witness_LoopbackTestsRunSixFrames :
    (box.Open ∧ within 4 3 = false ∧ within 3 3 = true ∧ box.linkOn 2 = false)
      ∧ (box.links.length = 3 ∧ box.linkOn 3 = true ∧ (box.link 3).state = .idle
        ∧ (box.inb 3).state = some .blocked ∧ (box.inb 3).offered = none
        ∧ (box.outb 3).state = some .blocked ∧ (box.outb 3).offered = none ∧ (box.link 3).queue = []
        ∧ codeOpen box 3 = false)
      ∧ ((link1 .bidding).link 1).state ≠ .idle
      ∧ ((looping 0 (some 1020) none).Undisputed
        ∧ ((looping 0 (some 1020) none).link 3).loopback
          = some { purpose := .host .alone, frame := 0, startAt := some 1020 }
        ∧ max box.now 1019 < 1020 ∧ 1020 ≤ max box.now 1020)
      ∧ (((looping 4 none (some 1041)).link 3).loopback
          = some { purpose := .host .alone, frame := 4, startAt := none, sentAt := some 1041 }
        ∧ max box.now 1061 ≤ 1041 + 20 ∧ 4 < 5 ∧ 1041 + 20 < max box.now 1062)
      ∧ (reactionOf box 18 = .confine ∧ box.faults.find 18 (some 3) = none
        ∧ ((looping 4 none (some 1041)).link 3).state = .loopback
        ∧ [] ≠ loopbackFrame (looping 4 none (some 1041)) 4) := by and_intros <;> decide +kernel

theorem witness_LoopbackTestsRunSixFrames_ends :
    (((looping 5 none (some 1041)).link 3).loopback
          = some { purpose := .host .alone, frame := 5, startAt := none, sentAt := some 1041 }
        ∧ ((looping 5 none (some 1041)).link 3).crossedDue = false
        ∧ ((looping 5 none (some 1041)).link 3).answer = none
        ∧ ((looping 5 none (some 1041)).link 3).retryAt = none
        ∧ ((looping 5 none (some 1041)).inb 3).state ≠ none)
      ∧ (occurrence (looping 4 none (some 1041)) 18 (some 3)).reaction = .confine
      ∧ (occurrence ({ looping 4 none (some 1041) with
          store := { box.store with inForce := some { image with
            reactions := List.replicate 21 .suspend } } }) 18 (some 3)).reaction = .suspend
      ∧ ((looping 4 none (some 1041)).link 3).loopback.bind (·.sentAt) = some 1041
      ∧ ((looping 4 (some 1020) none).link 3).loopback.bind (·.sentAt) = none := by
  and_intros <;> decide +kernel

/-! #### The train register and faults -/

theorem witness_RegisterIsReadAdvancedAndTimed :
    (box.Open ∧ box.register.Sound ∧ min 300 box.register.unread = 1
        ∧ box.register.ring[box.register.ring.length - box.register.unread + 1 - 1]?
          = some ⟨0, 0, 0, .reset .supply⟩)
      ∧ min 0 box.register.unread = 0
      ∧ 863999 < 864000 ∧ 863999 ≤ 863999 ∧ 65535 ≤ 65535
      ∧ (((1099 : Nat) : Int) < ({ box with tickAt := 1100 } : State).tickAt
        ∧ ({ box with tickAt := 1100 } : State).tickAt ≤ ((1100 : Nat) : Int)) :=
  ⟨⟨by decide +kernel, box_register_sound, by decide +kernel⟩, by decide⟩

/-- The box with one record, of lever 64. -/
def faulted (active : Bool) : State :=
  { box with faults := { records := [⟨8, some 64, active, 255, 0, 0, 0, 0, .suspend⟩] } }

theorem witness_OccurrencesAreCountedBySourceAndSubject :
    ((faulted true).faults.Sound
        ∧ (faulted true).faults.find 8 (some 64) = some ⟨8, some 64, true, 255, 0, 0, 0, 0, .suspend⟩
        ∧ ((8, some 63) : Nat × Option Nat) ≠ (8, some 64))
      ∧ (box.faults.Sound ∧ box.faults.find 9 (some 64) = none ∧ box.faults.records.length < 32)
      ∧ (fullFaults.Sound ∧ fullFaults.find 9 (some 64) = none ∧ fullFaults.records.length = 32)
      ∧ (occurrence box 9 (some 64)).reaction = .report := by and_intros <;> decide +kernel

/-- Circuit 24 with the conversion of its wiring test ending. -/
def wired (active : Bool) : State :=
  { at24 fun c => { c with wiringOpen := true, wiringActive := active } with
    converter := { busy := some (.wiring 24) } }

/-- The periodic converter test with its high reference ending. -/
def referencing (low active : Bool) : State :=
  { box with
    converter := { busy := some (.reference true .periodic), lowResults := [(.periodic, low)] }
    faults := { converterActive := active } }

theorem witness_OccurrencesAreCountedBySourceAndSubject_tests :
    ((∀ active, (wired active).Undisputed ∧ within 24 24 = true ∧ (wired active).circuits.length = 24
          ∧ (wired active).converter.busy = some (.wiring 24) ∧ (wired active).converter.discard = false
          ∧ ((wired active).circuit 24).wiringActive = active
          ∧ ((wired active).circuit 24).state ≠ .disabled ∧ ((wired active).circuit 24).confinement = []
          ∧ ((wired active).circuit 24).marginActive = false)
        ∧ reactionOf (wired false) 1 = .confine ∧ (wired false).faults.find 1 (some 24) = none
        ∧ (wired false).faults.records.length < 32 ∧ 3900 ≤ 3900 ∧ 3899 < 3900 ∧ 4095 ≤ 4095)
      ∧ (∀ low active, (referencing low active).Undisputed
        ∧ (referencing low active).circuits.length = 24
        ∧ (referencing low active).converter.busy = some (.reference true .periodic)
        ∧ (referencing low active).converter.lowResults = [(.periodic, low)]
        ∧ (referencing low active).faults.converterActive = active
        ∧ reactionOf (referencing low active) 5 ≠ .report
        ∧ (referencing low active).faults.find 5 none = none)
      ∧ (3055 < 3056 ∧ 3056 ≤ 3088 ∧ 3088 < 3089) := by and_intros <;> decide +kernel

theorem witness_FaultsAreClearedAndServiceResumed :
    (box.Open ∧ faultSubject 8 65 = none ∧ faultSubject 23 255 = none ∧ faultSubject 8 64 = some (some 64)
        ∧ faultSubject 22 255 = some none)
      ∧ (8 ≠ 22 ∧ ((faulted true).faults.find 8 (some 64)).map (·.active) = some true
        ∧ ((faulted false).faults.find 8 (some 64)).map (·.active) = some false)
      ∧ (box.faults.overflowCount = 0
        ∧ ({ box with faults := { overflowCount := 255 } } : State).faults.overflowCount ≠ 0)
      ∧ (∀ k, k < 65 → 22 ∉ (box.circuit k).confinement ∧ 22 ∉ (box.lever k).confinement
        ∧ 22 ∉ (box.instrument k).confinement ∧ 22 ∉ (box.inb k).forcedConfinement
        ∧ 22 ∉ (box.link k).confinement)
      ∧ box.mode ≠ some .suspended ∧ suspendStands (faulted false) = true
      ∧ (({ box with mode := some .suspended } : State).mode = some .suspended
        ∧ suspendStands box = false ∧ box.holds.length = 16 ∧ (box.hold 16).state ≠ none) := by
  and_intros <;> decide +kernel

/-- The box with a LATCHED record of a source, its subject confined by it. -/
def confinedBy (c : Nat) (k : Nat) : State :=
  ((((({ box with faults := { records := [⟨c, some k, false, 1, 0, 0, 0, 0, .confine⟩] } } : State).modCircuit
    k fun x => { x with state := .failed, confinement := [c] }).modLever
    k fun x => { x with confinement := [c] }).modInstrument
    k fun x => { x with confinement := [c] }).modInb
    k fun x => { x with forcedConfinement := [c] }).modLink
    k fun x => { x with state := .outOfUse, confinement := [c] }

theorem witness_FaultsAreClearedAndServiceResumed_sources :
    (∀ c ∈ [1, 2, 3, 4], faultSubject c 24 = some (some 24)
        ∧ (confinedBy c 24).faults.find c (some 24) = some ⟨c, some 24, false, 1, 0, 0, 0, 0, .confine⟩
        ∧ ((confinedBy c 24).circuit 24).confinement ≠ []
        ∧ dropSource c ((confinedBy c 24).circuit 24).confinement = []
        ∧ ((confinedBy c 24).circuit 24).state = .failed)
      ∧ (faultSubject 5 255 = some none ∧ ((confinedBy 5 24).circuit 24).confinement = [5]
        ∧ ((confinedBy 5 24).circuit 24).state ≠ .disabled)
      ∧ (∀ c ∈ [7, 8, 9, 10, 12, 20], faultSubject c 64 = some (some 64)
        ∧ ((confinedBy c 64).lever 64).confinement = [c])
      ∧ (∀ c ∈ [11, 13, 14], faultSubject c 3 = some (some 3)
        ∧ ((confinedBy c 3).instrument 3).confinement ≠ []
        ∧ dropSource c ((confinedBy c 3).instrument 3).confinement = []
        ∧ ((confinedBy c 3).board (8 + 3)).missing = false
        ∧ ((confinedBy c 3).instrument 3).current = .rest .b)
      ∧ (faultSubject 15 3 = some (some 3) ∧ ((confinedBy 15 3).inb 3).forcedConfinement = [15])
      ∧ (∀ c ∈ [17, 18], faultSubject c 3 = some (some 3) ∧ ((confinedBy c 3).link 3).confinement ≠ []
        ∧ dropSource c ((confinedBy c 3).link 3).confinement = [] ∧ (confinedBy c 3).linkOn 3 = true)
      ∧ (confinedBy 8 64).Open := by and_intros <;> decide +kernel

/-- The box with its image stored, found by the periodic check not to be what was signed. -/
def mistrusted : State :=
  { box with
    store := { box.store with stored := some ⟨image, 0, true⟩ }
    faults := { box.faults with tableActive := true } }

/-- The box at the last conversion of RUN TEST of the table, its low reference found right or not. -/
def endingTable (w : Waiter) (low : Bool) (host : HostPort) : State :=
  { box with
    converter := { busy := some (.reference true (.table w false)), lowResults := [(.table w false, low)] }
    host }

/-- R169: the three results, with a signature found bad: PASS of the converter at 3088, and FAIL at 3089. -/
theorem test_run_test_table_gives_its_results :
    dataAfter (.referenceConversionComplete 2000 3088) (endingTable .alone true {}) = some [1, 0, 0]
      ∧ dataAfter (.referenceConversionComplete 2000 3089) (endingTable .alone true {}) = some [1, 1, 0] := by
  decide +kernel

theorem witness_SelfTestsAreMadeAtTheirTimes_table :
    ((endingTable .alone true {}).Undisputed
        ∧ (endingTable .alone true {}).converter.busy = some (.reference true (.table .alone false))
        ∧ (endingTable .alone true {}).converter.lowResults = [(.table .alone false, true)]
        ∧ (endingTable .alone true {}).faults.converterActive = !(true && decide (3056 ≤ 3088 ∧ 3088 ≤ 3088)))
      ∧ ((endingTable .alone false {}).converter.lowResults = [(.table .alone false, false)]
        ∧ ({ endingTable .alone false {} with faults := { converterActive := true } } : State
          ).faults.converterActive = !(false && decide (3056 ≤ 3056 ∧ 3056 ≤ 3088)))
      ∧ ∀ b : Batch, ∀ f : OutFrame,
        (endingTable .batch true { executing := some { b with awaited := some ⟨0x50, 0, [0]⟩ }
                                   sending := some f }).host.executing
            = some { b with awaited := some ⟨0x50, 0, [0]⟩ }
          ∧ (endingTable .batch true { executing := some b, sending := some f }).host.sending = some f :=
  ⟨by decide +kernel, by decide +kernel, fun _ _ => ⟨rfl, rfl⟩⟩

theorem witness_SelfTestsAreMadeAtTheirTimes :
    (box.Open ∧ ({ box with mode := some .unconfigured } : State).mode = some .unconfigured)
      ∧ (box.mode ≠ some .unconfigured
        ∧ ({ box with faults := {} } : State).faults.signatureAt = none)
      ∧ (mistrusted.Open ∧ mistrusted.mode ≠ some .unconfigured ∧ mistrusted.faults.signatureAt ≠ none
        ∧ mistrusted.store.jobs = []
        ∧ mistrusted.faults.tableActive = !signaturePasses mistrusted)
      ∧ (box.faults.signatureAt = some 10000 ∧ max box.now 9999 < 10000 ∧ 10000 ≤ max box.now 10000)
      ∧ ({ mistrusted with faults := box.faults } : State).faults.tableActive = false
      ∧ signaturePasses { mistrusted with faults := box.faults } = false
      ∧ (box.faults.find 21 none = none ∧ box.faults.records.length < 32
        ∧ ({ box with mode := some .suspended } : State).mode ≠ some .service)
      ∧ (box.faults.converterAt = some 5000 ∧ max box.now 4999 < 5000 ∧ 5000 ≤ max box.now 5000) := by
  and_intros <;> decide +kernel

/-! #### Host Port -/

theorem witness_HostLineTakesBytesAndSendsFrames :
    box.Undisputed ∧ frameComplete [7] = false ∧ 1000 + 20 < max box.now 1021
      ∧ frameComplete (hostFrame 1 0x10 []).tail = true
      ∧ max box.now 1020 ≤ 1000 + 20 ∧ box.host.receiving = none ∧ box.host.sending = none
      ∧ (∀ f ∈ [⟨.reply, 1, [], true⟩, ⟨.reply, 1, [], false⟩], ({ box with host := {
          sending := some f, warm := some ⟨.commit, false⟩ } } : State).host.sending = some f)
      ∧ (box.host.warm = none ∧ box.host.ready = [] ∧ box.start = none
        ∧ (∀ x ∈ box.timers, x.staged = []) ∧ (∀ x ∈ box.bells, x.staged = [])
        ∧ (∀ x ∈ box.outbound, x.staged = []) ∧ (∀ x ∈ box.links, x.staged = [])) := by
  and_intros <;> decide +kernel

/-- The bytes of READ STATUS with a guard that wants flag 0 true, in a request of TAG 0x41. -/
def guardedRequest : List Byte := hostFrame 0x41 0x10 [0, 1, 0x86, 0x88, 0]

/-- The box with a notice being sent. -/
def sendingNotice : State := { box with host := { sending := some ⟨.notice, 0, [1], false⟩ } }

theorem witness_RequestsAreRefusedQueuedOrRun :
    (sendingNotice.Undisputed ∧ sendingNotice.host.sending = some ⟨.notice, 0, [1], false⟩
        ∧ guardedRequest.foldl (feedByte (max sendingNotice.now 1000)) sendingNotice.host.receiving
          = some (guardedRequest.tail, 1000)
        ∧ frameComplete guardedRequest.tail = true
        ∧ requestOf guardedRequest.tail = some (0x41, [0, 1, 0x86, 0x88, 0]))
      ∧ (sendingNotice.host.warm = none ∧ sendingNotice.start = none
        ∧ sendingNotice.host.executing = none ∧ sendingNotice.host.waiting = none)
      ∧ formRequest 0x41 [0, 0] = .inl ⟨.count, 0⟩ ∧ formRequest 0x41 [0, 9] = .inl ⟨.count, 0⟩
      ∧ formRequest 0x41 [0, 1, 0x86, 0x88, 0] = .inr ⟨0x41, false, [⟨0x86, 0x88, []⟩]⟩
      ∧ (guarded 0x88 = true ∧ guardSense 0x88 = true)
      ∧ ({ sendingNotice with start := some .converter } : State).start ≠ none
      ∧ (∀ b : Batch, ({ sendingNotice with host := { sendingNotice.host with
          executing := some b, waiting := some ⟨1, false, []⟩ } } : State).host.executing ≠ none)
      ∧ ({ sendingNotice with host := { sendingNotice.host with
          warm := some ⟨.commit, false⟩ } } : State).host.warm ≠ none :=
  ⟨by decide +kernel, by decide +kernel, by decide +kernel, by decide +kernel, by decide +kernel,
    by decide +kernel, by decide +kernel, fun _ => nofun, by decide +kernel⟩

/-- The box with a frame being sent and a batch whose command's turn has come. -/
def inTurn (halt skip : Bool) (done : List CmdResult) (rest : List Command) : State :=
  { sendingNotice with
    host := { sendingNotice.host with
      executing := some { tag := 7, halt, count := done.length + rest.length, results := done, rest, skip } } }

theorem witness_RequestsAreRefusedQueuedOrRun_turns :
    ((inTurn true true [] [⟨0x86, 0, []⟩]).Undisputed ∧ (inTurn true true [] [⟨0x86, 0, []⟩]).pending = []
        ∧ (inTurn true true [] [⟨0x86, 0, []⟩]).host.sending = some ⟨.notice, 0, [1], false⟩
        ∧ (inTurn true true [] [⟨0x86, 0, []⟩]).host.warm = none
        ∧ (inTurn true true [] [⟨0x86, 0, []⟩]).host.waiting = none)
      ∧ ((true && [(⟨0x86, .refused, .busy, []⟩ : CmdResult)].any fun r => r.result == .refused) = true)
      ∧ ((false && ([] : List CmdResult).any fun r => r.result == .refused) = false)
      ∧ (guarded 0x88 = true ∧ flag sendingNotice (guardFlag 0x88) ≠ guardSense 0x88)
      ∧ (guarded 0 = false ∧ portCheck 1 [] ⟨0x86, 0, []⟩ = none
        ∧ portCheck 1 [] ⟨0xFF, 0, []⟩ = some .badCode ∧ portCheck 1 [] ⟨0x86, 0, [1]⟩ = some .badParam)
      ∧ ((∃ data, (runCommand .batch 0x86 [] (inTurn false false [] [⟨0x86, 0, []⟩])).2 = .done data)
        ∧ endsBatch 0x86 = none ∧ endsBatch 0x87 = some .warmReset
        ∧ (runCommand .batch 0x87 [] (inTurn false false [] [⟨0x87, 0, []⟩])).2 = .done []
        ∧ (runCommand .batch 0x73 [] (inTurn false false [] [⟨0x73, 0, []⟩])).2 = .refused .state []
        ∧ (runCommand .batch 0x12 [64] (inTurn false false [] [⟨0x12, 0, [64]⟩])).2 = .waits) := by
  refine ⟨by decide +kernel, by decide, by decide, by decide +kernel, by decide +kernel, ⟨_, rfl⟩, ?_⟩
  and_intros <;> decide +kernel

/-! #### Configuration store -/

/-- The box in EDITING on a working copy. -/
def editing (w : Image) : State :=
  { box with mode := some .editing, store := { box.store with work := some w } }

/-- The box with a write under way. -/
def writingBox : State := { box with store := { box.store with jobs := [⟨.takeOut 64, some .alone⟩] } }

theorem witness_EditingIsOpenedCommittedAndAbandoned :
    (box.Open ∧ (editing image).Open ∧ writingBox.Open)
      ∧ (editing image).mode = some .editing
      ∧ (working box = true
        ∧ lineOpen (box.modInb 1 fun i => { i with state := some .clear }) = true)
      ∧ (box.mode ≠ some .editing ∧ signalOff box = false ∧ lineOpen box = false
        ∧ box.store.jobs = [] ∧ writingBox.store.jobs ≠ [] ∧ signalOff writingBox = false
        ∧ lineOpen writingBox = false)
      ∧ (within 25 24 = false ∧ within 24 24 = true)
      ∧ ((editing image).store.work = some image ∧ (image.track 24).enabled = true
        ∧ (image.track 2).enabled = false ∧ (editing image).circuits.length = 24
        ∧ (editing image).store.jobs = [])
      ∧ ((editing image).modCircuit 24 fun c => { c with learning := some {} }).circuits.any
          (·.learning.isSome) = true
      ∧ (∀ c ∈ (editing image).circuits, c.learning = none)
      ∧ ((formFault Image.defaults).isSome = true
        ∧ formFault { Image.defaults with identity := some 254 } = none) := by
  and_intros <;> decide +kernel

theorem witness_ImageWritesStoreAndReply :
    (box.Undisputed ∧ box.faults.checkWaiting = false ∧ box.store.jobs = [])
      ∧ writingBox.store.jobs = [⟨.takeOut 64, some .alone⟩]
      ∧ ({ box with store := { box.store with jobs := [⟨.fields 8 7 [(5, 600)], none⟩] } } : State).store.jobs
        = [⟨.fields 8 7 [(5, 600)], none⟩]
      ∧ ({ box with store := { box.store with jobs := [⟨.whole image, some .alone⟩] } } : State).store.jobs
        = [⟨.whole image, some .alone⟩]
      ∧ (({ box with store := { box.store with jobs := [⟨.bringIn 64 [], some .alone⟩] } } : State).store.jobs
          = [⟨.bringIn 64 [], some .alone⟩] ∧ within 64 64 = true ∧ box.levers.length = 64) := by
  and_intros <;> decide +kernel

/-- The box with a write under way for a command that waits in a batch. -/
def batchWrite (p : Patch) (c : Command) (rest : List Command) : State :=
  { box with
    store := { box.store with jobs := [⟨p, some .batch⟩] }
    host := { sending := some ⟨.notice, 0, [1], false⟩
              executing := some { tag := 7, halt := true, count := 1 + rest.length, awaited := some c, rest } } }

theorem witness_ImageWritesStoreAndReply_more :
    (box.NoneStaged ∧ (Patch.code 3 16 {}).command = 0x81
        ∧ ∃ i : Image, i.codes.length = 4 ∧ (∀ q ∈ i.codes, q.length = 16) ∧ 3 ≤ 3 ∧ within 16 16 = true)
      ∧ (box.store.inForce = some image ∧ image.conditions.length = 64)
      ∧ ((batchWrite (.takeOut 64) ⟨0x12, 0, [64]⟩ [⟨0x86, 0, []⟩]).host.executing.map (·.awaited)
          = some (some ⟨0x12, 0, [64]⟩)
        ∧ (Patch.takeOut 64).command = 0x12
        ∧ (batchWrite (.takeOut 64) ⟨0x12, 0, [64]⟩ []).host.warm = none
        ∧ (batchWrite (.takeOut 64) ⟨0x12, 0, [64]⟩ []).Undisputed)
      ∧ (Patch.whole image).command = 0x83 :=
  ⟨⟨by decide +kernel, by decide, { codes := List.replicate 4 (List.replicate 16 {}) },
    by decide +kernel⟩, by decide +kernel, by and_intros <;> decide +kernel, by decide⟩

theorem witness_TablesAreWrittenAndRead :
    (box.Open ∧ within 14 13 = false ∧ recordOk 13 22 = false ∧ within 13 13 = true
        ∧ recordOk 13 21 = true ∧ recordOk 7 (64 * 256 + 32) = true ∧ recordOk 12 (3 * 256 + 16) = true)
      ∧ (mayWrite box 13 21 = false
        ∧ ({ box with mode := some .unconfigured } : State).mode = some .unconfigured)
      ∧ (mayWrite (editing image) 13 9 = true ∧ parseFields (layout 13 9) [] = none
        ∧ parseFields (layout 13 9) [3] = some [.num 3] ∧ valueOfRaw 13 9 [.num 3] = none
        ∧ (valueOfRaw 13 9 [.num 0]).isSome = true)
      ∧ (committing (editing image) = false
        ∧ committing { editing image with store := { box.store with jobs := [⟨.whole image, none⟩] } }
          = true)
      ∧ (mayWrite (box.modLever 64 fun l => { l with outOfUse := true }) 7 (64 * 256 + 1) = true
        ∧ box.mode ≠ some .editing ∧ box.levers.length = 64 ∧ 64 * 256 / 256 = 64
        ∧ ((parseFields (layout 7 (64 * 256 + 1)) (encodeFields (layout 7 (64 * 256 + 1))
          (image.get 7 513).raw)).bind (valueOfRaw 7 (64 * 256 + 1)))
          = some (.cond (some ⟨.lever 1 .normal, .toReverse, none⟩)))
      ∧ (mayWrite box 12 2 = true ∧ recordOk 12 2 = true
        ∧ ((parseFields (layout 12 2) (encodeFields (layout 12 2) (image.get 12 2).raw)).bind
          (valueOfRaw 12 2))
          = some (.code { pattern := [3, 1], meaning := .offer, cls := some 2, validFor := .both })
        ∧ duplicateOf (box.tables.page 0) 2 [1] = some 1 ∧ duplicateOf (box.tables.page 0) 2 [3, 1] = none)
      ∧ (editing image).store.work = some image
      ∧ (((box.modLever 64 fun l => { l with outOfUse := true }).lever 64).outOfUse = true) := by
  and_intros <;> decide +kernel

theorem witness_StagedValuesJoinTheirOwners :
    (box.Open ∧ working box = true ∧ working (editing image) = false)
      ∧ (within 14 13 = false ∧ recordOk 8 25 = false ∧ recordOk 8 24 = true ∧ recordOk 10 16 = true
        ∧ recordOk 11 6 = true ∧ within 13 (layout 8 24).length = false
        ∧ within 12 (layout 8 24).length = true)
      ∧ stageable 8 3 = false ∧ stagedValue 8 24 5 [1] = none
      ∧ (stageable 8 5 = true ∧ stagedValue 8 24 5 [2, 88] = some 600
        ∧ box.circuits.length = 24
        ∧ ((at24 fun c => { c with state := .occupied }).circuit 24).state ≠ .clear
        ∧ trackTakes (box.tables.track 24) [] 5 550 = true
        ∧ trackTakes (box.tables.track 24) [] 5 950 = true
        ∧ trackTakes (box.tables.track 24) [] 5 549 = false
        ∧ trackTakes (box.tables.track 24) [] 5 951 = false)
      ∧ (stageable 10 4 = true ∧ stagedValue 10 16 4 [2, 88] = some 600 ∧ timerOn box 16 = true
        ∧ ((holding .releasing { state := .running }).timer 16).state ≠ .idle ∧ 10 ≤ 600 ∧ 600 ≤ 600)
      ∧ (stageable 10 5 = true ∧ stagedValue 10 2 5 [1, 44] = some 300 ∧ (timerOwner box 2).1 = .lever
        ∧ 10 ≤ 300 ∧ 300 ≤ 300)
      ∧ (stageable 3 6 = true ∧ stagedValue 3 1 6 [20] = some 20 ∧ box.linkOn 1 = true
        ∧ codeOpen (sendingCode true) 1 = true ∧ bellRange 6 20 = true
        ∧ ((box.tables.bell 1).withStaged (putStaged 6 20 [])).related = true)
      ∧ (stageable 2 5 = true ∧ stagedValue 2 1 5 [50] = some 50 ∧ linkRange 5 50 = true
        ∧ ((link1 .bidding).link 1).state ≠ .idle ∧ ((link1 .bidding).link 1).state ≠ .outOfUse)
      ∧ (stageable 11 2 = true ∧ 6 % 2 = 0 ∧ stagedValue 11 6 2 [1, 44] = some 300
        ∧ box.linkOn (6 / 2) = true
        ∧ ((box.modOutb 3 fun o => { o with overdueAt := some 2000 }).outb (6 / 2)).overdueAt ≠ none)
      := by and_intros <;> decide +kernel

/-- The clauses of values taken at once: nothing pending, each owner at its reload point, and the values of
`witness_StagedValuesJoinTheirOwners` at the ends of their ranges. -/
theorem witness_StagedValuesJoinTheirOwners_at_once :
    (box.Open ∧ working box = true ∧ box.NoneStaged)
      ∧ (box.circuits.length = 24 ∧ (box.circuit 24).state = .clear
        ∧ stagedValue 8 24 5 [3, 182] = some 950 ∧ trackTakes (box.tables.track 24) [] 5 950 = true)
      ∧ (box.timers.length = 16 ∧ timerOn box 16 = true ∧ (box.timer 16).state = .idle
        ∧ stagedValue 10 16 4 [0, 10] = some 10)
      ∧ (timerOn box 2 = true ∧ (box.timer 2).state = .idle ∧ (timerOwner box 2).1 = .lever)
      ∧ (box.bells.length = 3 ∧ box.linkOn 1 = true ∧ codeOpen box 1 = false ∧ bellRange 6 20 = true
        ∧ ((box.tables.bell 1).withStaged [(6, 20)]).related = true)
      ∧ (box.links.length = 3 ∧ (box.link 1).state = .idle ∧ ((link1 .outOfUse).link 1).state = .outOfUse
        ∧ (link1 .outOfUse).NoneStaged ∧ (link1 .outOfUse).Open
        ∧ ∀ s ∈ [box, link1 .outOfUse], (s.link 1).queue = [] ∧ (s.link 1).indicationDue = false
          ∧ (s.link 1).retryAt = none)
      ∧ (stagedValue 2 1 11 [3] = some 3 ∧ linkRange 11 3 = true ∧ 2 * 3 ≤ (cfgOf box 1).silence
        ∧ stagedValue 2 1 12 [4] = some 4 ∧ linkRange 12 4 = true ∧ 2 * (cfgOf box 1).heartbeat ≤ 4)
      ∧ (box.outbound.length = 3 ∧ stagedValue 11 6 2 [0, 10] = some 10 ∧ (box.outb (6 / 2)).overdueAt = none) := by
  and_intros <;> decide +kernel

/-- Every owner of the box with a value pending, at its reload point. -/
def allStaged : State :=
  ((((box.modCircuit 24 fun c => { c with staged := [(5, 600)] }).modTimer 16 fun t =>
    { t with staged := [(4, 600)] }).modBell 3 fun b => { b with staged := [(6, 20)] }).modOutb 3 fun o =>
      { o with staged := [(2, 300)] }).modLink 3 fun l => { l with staged := [(5, 50)] }

/-- The clauses of the reload points: each owner with nothing pending or before its point, and each at it with a
value pending. -/
theorem witness_StagedValuesJoinTheirOwners_reload :
    ((box.circuit 24).staged = [] ∧ (box.timer 16).staged = [] ∧ (box.bell 3).staged = []
        ∧ (box.outb 3).staged = [] ∧ (box.link 3).staged = [])
      ∧ (((holding .releasing { state := .running }).timer 16).state ≠ .idle
        ∧ codeOpen (sendingCode true) 1 = true
        ∧ ((box.modOutb 3 fun o => { o with overdueAt := some 2000 }).outb 3).overdueAt ≠ none
        ∧ ((link1 .bidding).link 1).atReload = false ∧ ((link1 .idle withWork).link 1).atReload = false)
      ∧ (within 24 24 = true ∧ allStaged.circuits.length = 24 ∧ (allStaged.circuit 24).staged ≠ [])
      ∧ (within 16 16 = true ∧ allStaged.timers.length = 16 ∧ (allStaged.timer 16).staged ≠ []
        ∧ (allStaged.timer 16).state = .idle)
      ∧ (within 3 3 = true ∧ allStaged.bells.length = 3 ∧ (allStaged.bell 3).staged ≠ []
        ∧ codeOpen allStaged 3 = false)
      ∧ (allStaged.outbound.length = 3 ∧ (allStaged.outb 3).staged ≠ []
        ∧ (allStaged.outb 3).overdueAt = none)
      ∧ (allStaged.links.length = 3 ∧ (allStaged.link 3).staged ≠ [] ∧ (allStaged.link 3).atReload = true) := by
  and_intros <;> decide +kernel

theorem witness_StagedValuesJoinTheirOwners_refused :
    (((at24 fun c => { c with state := .disabled }).circuit 24).state = .disabled
        ∧ timerOn box 4 = false ∧ (timerOwner box 16).1 ≠ .lever ∧ box.linkOn 2 = false ∧ 4 / 2 = 2
        ∧ 5 % 2 = 1 ∧ within 2 (layout 11 5).length = true)
      ∧ (stagedValue 10 16 4 [0, 9] = some 9 ∧ stagedValue 10 16 4 [2, 89] = some 601
        ∧ stagedValue 10 2 5 [1, 45] = some 301 ∧ timerOn box 2 = true)
      ∧ (bellRange 6 4 = false ∧ bellRange 6 61 = false
        ∧ ((box.tables.bell 1).withStaged (putStaged 3 250 (putStaged 4 100 []))).related = false)
      ∧ (linkRange 5 51 = false ∧ linkRange 5 4 = false
        ∧ (∃ vs, vs = putStaged 11 10 (box.link 1).staged
          ∧ stagedOr vs 12 (cfgOf box 1).silence < 2 * stagedOr vs 11 (cfgOf box 1).heartbeat))
      ∧ (stagedValue 11 6 2 [0, 9] = some 9 ∧ stagedValue 11 6 2 [1, 45] = some 301) := by
  refine ⟨?_, ?_, ?_, ⟨?_, ?_, _, rfl, ?_⟩, ?_⟩ <;> and_intros <;> decide +kernel
end Sys2Proof.Tests
end

section
/-! Evaluators X and Y (R57 to R59). Each walk is tied to a search of `List` by the predicate `entryBars`:
X to `List.any`, Y to `List.findIdx?`. What the obligation says then follows from the library's lemmas
about the two searches. -/

namespace Sys2Proof.Machine

variable {s : State} {p : Option Pos}

/-! ### Entries -/

/-- R52, R53 and R50: an entry bars the lever unless it is UNUSED, does not apply, or is met. -/
theorem entryBars_eq_false_iff {e : Option Cond} :
    entryBars s p e = false ↔ ∀ c, e = some c → entryApplies s p c = true → entryMet s c = true := by
  cases e with
  | none => simp [entryBars]
  | some c => simp [entryBars]

theorem entryBars_of_unmet {c : Cond} (applies : entryApplies s p c = true)
    (unmet : entryMet s c = false) : entryBars s p (some c) = true := by
  simp [entryBars, applies, unmet]

/-! ### Evaluator X -/

theorem walkX_eq_not_any (l : CondList) : walkX s p l = !l.any (entryBars s p) := by
  induction l with
  | nil => rfl
  | cons e es ih =>
    rw [walkX, List.any_cons, ih]
    cases entryBars s p e <;> rfl

theorem walkX_eq_true_iff {l : CondList} :
    walkX s p l = true ↔ ∀ e ∈ l, entryBars s p e = false := by
  simp [walkX_eq_not_any]

theorem walkX_eq_false_of_mem {l : CondList} {e : Option Cond} (mem : e ∈ l)
    (bars : entryBars s p e = true) : walkX s p l = false := by
  rw [walkX_eq_not_any, List.any_of_mem mem bars, Bool.not_true]

/-! ### Evaluator Y -/

/-- The walk over two stretches: the second goes on with the index and the result that the first leaves. -/
theorem walkDown_append (l m : CondList) (i : Nat) (kept : Option Nat) :
    walkDown s p (l ++ m) i kept = walkDown s p m (i - l.length) (walkDown s p l i kept) := by
  induction l generalizing i kept with
  | nil => rfl
  | cons e es ih =>
    rw [List.cons_append, walkDown, walkDown, ih, List.length_cons, Nat.sub_add_eq, Nat.sub_right_comm]

/-- A walk that begins one index higher keeps an index one higher. The bound keeps the count of indices
above 0 to the walk's end. -/
theorem walkDown_succ (l : CondList) (i : Nat) (kept : Option Nat) (bound : l.length ≤ i) :
    walkDown s p l (i + 1) (kept.map (· + 1)) = (walkDown s p l i kept).map (· + 1) := by
  induction l generalizing i kept with
  | nil => rfl
  | cons e es ih =>
    obtain ⟨j, rfl⟩ : ∃ j, i = j + 1 := ⟨i - 1, by simp at bound; omega⟩
    have step := ih j (if entryBars s p e then some (j + 1) else kept) (by simpa using bound)
    rw [apply_ite (Option.map (· + 1))] at step
    exact step

/-- Y passes the first entry last, so that entry decides where it bars; otherwise the walk is that of the
rest, one index higher. -/
theorem walkY_cons (e : Option Cond) (es : CondList) :
    walkY s p (e :: es) = if entryBars s p e then some 1 else (walkY s p es).map (· + 1) := by
  have rest : walkDown s p es.reverse (es.length + 1) none = (walkY s p es).map (· + 1) :=
    walkDown_succ es.reverse es.length none (by simp)
  rw [walkY, List.reverse_cons, walkDown_append, List.length_cons, rest]
  simp [walkDown]

/-- Y finds the first entry that bars, counted from 1. -/
theorem walkY_eq_findIdx? (l : CondList) :
    walkY s p l = (l.findIdx? (entryBars s p)).map (· + 1) := by
  induction l with
  | nil => rfl
  | cons e es ih =>
    rw [walkY_cons, ih, List.findIdx?_cons, apply_ite (Option.map (· + 1)), Option.map_some]

theorem walkY_eq_none_iff {l : CondList} :
    walkY s p l = none ↔ ∀ e ∈ l, entryBars s p e = false := by
  simp [walkY_eq_findIdx?]

theorem walkY_eq_some {l : CondList} {i : Nat} (found : walkY s p l = some i) :
    within i l.length = true ∧ entryBars s p (nth l none i) = true
      ∧ ∀ j, 1 ≤ j → j < i → entryBars s p (nth l none j) = false := by
  rw [walkY_eq_findIdx?, Option.map_eq_some_iff] at found
  obtain ⟨n, found, rfl⟩ := found
  obtain ⟨inside, bars, first⟩ := List.findIdx?_eq_some_iff_getElem.1 found
  refine ⟨(within_iff _ _).2 ⟨by omega, inside⟩, by simpa [inside] using bars, fun j low high => ?_⟩
  obtain ⟨m, rfl⟩ : ∃ m, j = m + 1 := ⟨j - 1, by omega⟩
  have earlier : m < n := by omega
  simpa [earlier.trans inside] using first m earlier

/-! ### Agreement -/

/-- R59: X finds ALL MET, and Y nothing, just where no entry bars. -/
theorem resultsAgree_walks (s : State) (p : Option Pos) (l : CondList) :
    resultsAgree (walkX s p l) (walkY s p l) = true := by
  have both : walkX s p l = true ↔ (walkY s p l).isNone = true := by
    rw [walkX_eq_true_iff, Option.isNone_iff_eq_none, walkY_eq_none_iff]
  rw [resultsAgree, beq_iff_eq, Bool.eq_iff_iff]
  exact both

/-- Settles O32: each walk is a search of the list for an entry that bars, X's by `List.any` and Y's by
`List.findIdx?`. -/
theorem evaluatorsFindTheFirstUnmetEntry : Obligations.EvaluatorsFindTheFirstUnmetEntry := by
  unfold Obligations.EvaluatorsFindTheFirstUnmetEntry
  refine ⟨⟨fun s p l => ?_, fun s p before after c applies unmet => ?_⟩, fun s p l => ?_⟩
  · simp only [walkX_eq_true_iff, entryBars_eq_false_iff]
  · exact walkX_eq_false_of_mem (by simp) (entryBars_of_unmet applies unmet)
  · exact ⟨walkY_eq_none_iff, fun _ => walkY_eq_some, resultsAgree_walks s p l⟩

end Sys2Proof.Machine
end

section
/-! The train register (R151, R153). Its limits are kept by each append and by each change of the clock, so by
every move, and so by every step. -/

namespace Sys2Proof.Machine

/-! ### Invariants of a step -/

/-- What makes a property an invariant of `step`: moves keep it, it holds of the fresh state of either reset
before the start runs (after a warm start where it held before), and taking a row off the queue keeps it. -/
structure StepInvariant (P : State → Prop) : Prop where
  of_moves : ∀ {ks s u}, Moves ks s u → P s → P u
  freshPowerUp : ∀ s stored, P (freshState s stored {} 100 {})
  freshWarmStart : ∀ s stored, P s →
    P (freshState s stored s.register (s.tickAt - s.now) (s.faults.warm (startReactions stored)))
  dequeue : ∀ s rest, P s → P { s with pending := rest }

variable {P : State → Prop} {s u : State}

theorem StepInvariant.keeps_powerUpReset (inv : StepInvariant P) (h : exec .powerUpReset s = .next u) :
    P u := by
  obtain rfl : finish (powerUp s) = u := Host.Outcome.next.inj h
  obtain ⟨f, started, -⟩ := powerUp_moves s
  exact inv.of_moves (Moves.refl (ks := finishKinds)).to_finish (inv.of_moves started (inv.freshPowerUp f _))

theorem StepInvariant.keeps_warmStart (inv : StepInvariant P) (hs : P s)
    (h : exec .warmStart s = .next u) : P u := by
  obtain rfl : warmStartIfDue s = u := Host.Outcome.next.inj h
  unfold warmStartIfDue
  split
  · next cause _ =>
    exact inv.of_moves (Moves.refl (ks := finishKinds)).to_finish
      (inv.of_moves (warmStart_moves cause s) (inv.freshWarmStart s _ hs))
  · exact hs

theorem StepInvariant.keeps_timed (inv : StepInvariant P) {i : Instr} (timed : i.time ≠ none) (hs : P s)
    (h : exec i s = .next u) : P u := by
  obtain ⟨v, hv, moved⟩ := exec_moves i timed s
  cases hv.symm.trans h
  exact inv.of_moves moved hs

theorem StepInvariant.keeps_exec (inv : StepInvariant P) (i : Instr) (hs : P s) (h : exec i s = .next u) :
    P u := by
  cases i with
  | powerUpReset => exact inv.keeps_powerUpReset h
  | warmStart => exact inv.keeps_warmStart hs h
  | _ => exact inv.keeps_timed (by simp [Instr.time]) hs h

theorem StepInvariant.keeps_step (inv : StepInvariant P) (hs : P s) (h : step s = .next u) : P u := by
  unfold step at h
  split at h
  · cases h
    exact inv.of_moves (idle_moves s) hs
  · next i rest _ => exact inv.keeps_exec i (inv.dequeue s rest hs) h

/-! ### Sequence numbers -/

theorem Consecutive.tail {es : List Entry} {next : Nat} (h : Consecutive es next) :
    Consecutive es.tail next := by
  match es, h with
  | [], _ => trivial
  | [_], _ => trivial
  | _ :: _ :: _, ⟨_, rest⟩ => exact rest

theorem Consecutive.append_singleton {es : List Entry} {x : Entry} (h : Consecutive es x.seq) :
    Consecutive (es ++ [x]) ((x.seq + 1) % 65536) := by
  induction es with
  | nil => rfl
  | cons e es ih =>
    cases es with
    | nil => exact ⟨h, rfl⟩
    | cons f es => exact ⟨h.1, ih h.2⟩

/-! ### An append to the register -/

/-- The entry that an append of an event puts in the ring. -/
def Register.entryOf (r : Register) (e : Event) : Entry := ⟨r.nextSeq, r.day, r.tenths, e⟩

variable {r : Register} {e : Event}

theorem Register.append_ring_of_room (room : r.ring.length < 256) :
    (r.append e).ring = r.ring ++ [r.entryOf e] := if_pos room

theorem Register.append_ring_of_full (full : r.ring.length = 256) :
    (r.append e).ring = r.ring.tail ++ [r.entryOf e] := if_neg (Nat.not_lt.2 full.ge)

theorem Register.append_unread_of_lt (some_read : r.unread < 256) :
    (r.append e).unread = r.unread + 1 := Nat.min_eq_left some_read

theorem Register.append_unread_of_all (all_unread : r.unread = 256) : (r.append e).unread = 256 := by
  simp [Register.append, ringSize, all_unread]

theorem Register.Sound.append_unread_of_room (sound : r.Sound) (room : r.ring.length < 256) :
    (r.append e).unread = r.unread + 1 := by
  obtain ⟨-, held, -⟩ := sound
  exact append_unread_of_lt (held.trans_lt room)

theorem Register.Sound.append (sound : r.Sound) (e : Event) : (r.append e).Sound := by
  have one_more_unread := sound.append_unread_of_room (e := e)
  obtain ⟨bounded, held, -, numbered, day, tenths⟩ := sound
  have next_lt : (r.append e).nextSeq < 65536 := Nat.mod_lt _ (by decide)
  obtain room | full := bounded.lt_or_eq
  · refine ⟨?_, ?_, next_lt, ?_, day, tenths⟩ <;> rw [append_ring_of_room room]
    · simpa using room
    · simpa [one_more_unread room] using held
    · exact numbered.append_singleton (x := r.entryOf e)
  · have length : (r.ring.tail ++ [r.entryOf e]).length = 256 := by simp [full]
    refine ⟨?_, ?_, next_lt, ?_, day, tenths⟩ <;> rw [append_ring_of_full full]
    · exact length.le
    · exact (Nat.min_le_right ..).trans length.ge
    · exact numbered.tail.append_singleton (x := r.entryOf e)

theorem Register.Sound.losesUnread_eq (sound : r.Sound) :
    r.losesUnread = decide (r.ring.length = 256 ∧ r.unread = 256) := by
  obtain ⟨bounded, held, -⟩ := sound
  rw [Register.losesUnread, ← Bool.decide_and, decide_eq_decide, ringSize]
  omega

/-! ### The unread entries -/

theorem Register.Sound.length_unreadEntries (sound : r.Sound) : r.unreadEntries.length = r.unread := by
  obtain ⟨-, held, -⟩ := sound
  rw [Register.unreadEntries, List.length_drop]
  omega

theorem Register.unreadEntries_suffix (r : Register) : r.unreadEntries <:+ r.ring :=
  List.drop_suffix _ _

/-- R153: the entry joins the unread ones, whose oldest is lost where the ring is full of them. -/
theorem Register.Sound.unreadEntries_append (sound : r.Sound) :
    (r.append e).unreadEntries
      = (if r.losesUnread then r.unreadEntries.drop 1 else r.unreadEntries) ++ [r.entryOf e] := by
  rw [sound.losesUnread_eq]
  have one_more_unread := sound.append_unread_of_room (e := e)
  obtain ⟨bounded, held, -⟩ := sound
  obtain room | full := bounded.lt_or_eq
  · have kept : r.ring.length + 1 - (r.unread + 1) = r.ring.length - r.unread := by omega
    simp only [unreadEntries, append_ring_of_room room, one_more_unread room]
    simp [kept, room.ne, List.drop_append_of_le_length]
  obtain some_read | all_unread := (held.trans bounded).lt_or_eq
  · have one_older : 256 - r.unread = 255 - r.unread + 1 := by omega
    have inside : 255 - r.unread ≤ r.ring.tail.length := by simp [full]
    simp only [unreadEntries, append_ring_of_full full, append_unread_of_lt some_read]
    simp [full, some_read.ne, List.drop_append_of_le_length inside, one_older]
  · simp only [unreadEntries, append_ring_of_full full, append_unread_of_all all_unread]
    simp [full, all_unread]

/-! ### The REGISTER key -/

theorem addNotice_of_absent {key : Key} {mask : Word32} {ns : List Notice}
    (absent : ∀ n ∈ ns, n.key ≠ key) : addNotice key mask ns = ns ++ [⟨key, mask⟩] := by
  induction ns with
  | nil => rfl
  | cons n ns ih =>
    obtain ⟨other, absent⟩ := List.forall_mem_cons.1 absent
    rw [addNotice, if_neg other, ih absent, List.cons_append]

theorem addNotice_of_first {key : Key} {mask : Word32} {before after : List Notice} {n : Notice}
    (same : n.key = key) (absent : ∀ q ∈ before, q.key ≠ key) :
    addNotice key mask (before ++ n :: after) = before ++ ⟨key, n.mask ||| mask⟩ :: after := by
  induction before with
  | nil => exact if_pos same
  | cons q before ih =>
    obtain ⟨other, absent⟩ := List.forall_mem_cons.1 absent
    rw [List.cons_append, addNotice, if_neg other, ih absent, List.cons_append]

theorem append_eq_raiseKey (e : Event) (s : State) :
    append e s
      = raiseKey .register (maskBit (e.kind - 1) ||| if s.register.losesUnread then maskBit 31 else 0)
          { s with register := s.register.append e } := rfl

theorem raiseKey_notices (key : Key) (mask : Word32) (s : State) :
    (raiseKey key mask s).host.notices = addNotice key mask s.host.notices := rfl

/-! ### Every step keeps the limits -/

theorem Leaves.register_sound {ps : List Part} (h : Leaves ps s u) (sound : s.register.Sound)
    (away : .register ∉ ps := by decide) : u.register.Sound := by
  have same : u.register = s.register := h.2.2.2 .register away
  rwa [same]

theorem restrict_register_sound (m : Mode) (sound : s.register.Sound) :
    (evaluateAll (endReleasesForMode (takeMode m s))).register.Sound :=
  (leaves_evaluateAll _).register_sound <| (leaves_endReleasesForMode _).register_sound <|
    (leaves_takeMode m s).register_sound sound

/-- The kinds of move that touch the register do so by appends, and by changes of the clock that keep the
limits. -/
theorem Moves.register_sound {ks : List Kind} (h : Moves ks s u) (sound : s.register.Sound) :
    u.register.Sound := by
  induction h with
  | refl => exact sound
  | record e _ _ ih => exact (ih sound).append e
  | clock g _ keeps _ ih => exact keeps (ih sound)
  | eval k _ _ ih => exact (leaves_evaluate k _).register_sound (ih sound)
  | relever k g _ _ _ _ noted ih =>
    exact (leaves_evaluate k _).register_sound
      (noted ((leaves_changeLever k g _).register_sound (ih sound)))
  | cause c subject _ _ _ confined ih =>
    have counted := (leaves_countOccurrence c subject _).register_sound (ih sound)
    unfold suspendFor
    split
    · exact restrict_register_sound _ (confined (counted.append _))
    · exact confined (counted.append _)
  | restrict m _ _ _ ih => exact restrict_register_sound m (ih sound)
  | serve m _ _ _ ih =>
    exact (leaves_evaluateAll _).register_sound
      ((leaves_takeMode m _).register_sound ((ih sound).append _))
  | _ => exact ‹_ → _› sound

theorem Register.sound_empty : ({} : Register).Sound := by
  simp [Register.Sound, Consecutive]

theorem registerSound_stepInvariant : StepInvariant (·.register.Sound) where
  of_moves := Moves.register_sound
  freshPowerUp _ _ := Register.sound_empty
  freshWarmStart _ _ := id
  dequeue _ _ := id

/-- Settles O7: the limits by `StepInvariant`, the append by the cases of the ring, and the notice by the
laws of `addNotice`. -/
theorem registerTakesEntriesWithinItsLimits : Obligations.RegisterTakesEntriesWithinItsLimits := by
  unfold Obligations.RegisterTakesEntriesWithinItsLimits
  refine ⟨fun _ _ => registerSound_stepInvariant.keeps_step, fun s u e r x lost sound hr hu hx hlost => ?_⟩
  subst hr hu hx
  rw [← sound.losesUnread_eq] at hlost
  subst hlost
  refine ⟨sound.append e, rfl, rfl, rfl, fun room => ?_, fun full => ?_,
    fun _ => Register.append_unread_of_lt, fun lost => ?_, sound.length_unreadEntries,
    Register.unreadEntries_suffix _, sound.unreadEntries_append, fun m hm => ?_⟩
  · exact ⟨Register.append_ring_of_room room, sound.append_unread_of_room room⟩
  · rw [List.drop_one]
    exact Register.append_ring_of_full full
  · rw [sound.losesUnread_eq, decide_eq_true_eq] at lost
    exact Register.append_unread_of_all lost.2
  · subst hm
    refine ⟨append_eq_raiseKey e s, fun absent => ?_, fun before n after queued same absent => ?_⟩
    · rw [append_eq_raiseKey, raiseKey_notices]
      exact addNotice_of_absent absent
    · rw [append_eq_raiseKey, raiseKey_notices, ← addNotice_of_first same absent, ← queued]

end Sys2Proof.Machine
end

section
/-! READ FAULTS and READ STATUS (R171, R188). A command row whose command only replies or refuses, and ends no
batch, puts its result where it is read and touches nothing else, so each of the two rows is settled by what its
command replies. -/

namespace Sys2Proof.Machine

variable {s : State} {t : Time} {i : Instr} {code : Nat} {command : State → Ran} {ps : List Part}

/-! ### Lengths of fields -/

@[simp] theorem length_be16 (n : Nat) : (be16 n).length = 2 := rfl
@[simp] theorem length_be24 (n : Nat) : (be24 n).length = 3 := rfl
@[simp] theorem length_be32 (w : Word32) : (be32 w).length = 4 := rfl
@[simp] theorem length_fieldBool (b : Bool) : (fieldBool b).length = 1 := rfl
@[simp] theorem length_field1 (o : Option Nat) : (field1 o).length = 1 := by cases o <;> rfl

theorem FaultRecord.length_bytes (r : FaultRecord) : r.bytes.length = 15 := by
  simp [FaultRecord.bytes]

theorem length_of_cmdReadStatus {data : List Byte} (replied : (cmdReadStatus s).2 = .done data) :
    data.length = 16 := by
  obtain rfl := Reply.done.inj replied
  cases s.store.stored <;> simp

/-! ### Command rows that change nothing -/

theorem Takes.imp {P Q : State → Prop} (h : Takes i s ps P) (himp : ∀ u, P u → Q u) : Takes i s ps Q :=
  fun prompt =>
    have ⟨u, next, now, kept, holds⟩ := h prompt
    ⟨u, next, now, kept, himp u holds⟩

/-- The result of a command that makes no warm start due (R179) is all that its row touches. -/
theorem moves_endAlone {q : CmdResult} (goes_on : endsBatch q.code = none) (s : State) :
    Moves [.result] s (endAlone q s) :=
  have warm : (endAlone q s).host.warm = s.host.warm := by simp [endAlone, goes_on]
  Moves.refl.to_modHost _ ⟨.inr ⟨rfl, rfl, warm⟩, .inr rfl, .inr rfl, .inr ⟨rfl, rfl, rfl⟩,
    .inl (by decide), id, id⟩

/-- With host commands taken (R175, R179), the block runs the command, and what it replies is the result. -/
theorem runAlone_of_reply {data : List Byte} (s_open : s.Open) (replies : command s = reply data s) :
    runAlone code command s = endAlone (doneResult code data) s := by
  obtain ⟨started, no_warm, -⟩ := s_open
  simp [runAlone, started, no_warm, replies, reply]

theorem runAlone_of_refuse {r : RefuseReason} (s_open : s.Open) (refuses : command s = refuse r s) :
    runAlone code command s = endAlone (refusedResult code r []) s := by
  obtain ⟨started, no_warm, -⟩ := s_open
  simp [runAlone, started, no_warm, refuses, refuse]

/-- A command row that only gives its result touches the result alone. -/
theorem Takes.of_endAlone {q : CmdResult} (row : exec i s = .next (commandRow t code command s))
    (time : i.time = some t) (undisputed : s.Undisputed)
    (ran : runAlone code command (s.atTime t) = endAlone q (s.atTime t))
    (goes_on : endsBatch q.code = none) :
    Takes i s [.result] fun u => u.host.lastResult = some q := by
  have same_levers : (endAlone q (s.atTime t)).Undisputed := undisputed
  refine Takes.of_row (ks := [.result]) t (f := runAlone code command) row time ?_ ?_ ?_ ?_ <;> rw [ran]
  · exact moves_endAlone goes_on _
  · exact same_levers
  · exact finish_lastResult same_levers
  · rfl

theorem Takes.of_reply {data : List Byte} (row : exec i s = .next (commandRow t code command s))
    (time : i.time = some t) (s_open : s.Open)
    (replies : command (s.atTime t) = reply data (s.atTime t)) (goes_on : endsBatch code = none) :
    Takes i s [.result] fun u => u.Gave code data :=
  have ⟨_, _, undisputed⟩ := s_open
  of_endAlone row time undisputed (runAlone_of_reply s_open replies) goes_on

theorem Takes.of_refuse {r : RefuseReason} (row : exec i s = .next (commandRow t code command s))
    (time : i.time = some t) (s_open : s.Open)
    (refuses : command (s.atTime t) = refuse r (s.atTime t)) (goes_on : endsBatch code = none) :
    Takes i s [.result] fun u => u.Refused code r :=
  have ⟨_, _, undisputed⟩ := s_open
  of_endAlone row time undisputed (runAlone_of_refuse s_open refuses) goes_on

/-! ### The two commands -/

theorem cmdReadFaults_of_outside {first : Nat} (outside : within first 32 = false) (count : Nat)
    (s : State) : cmdReadFaults first count s = refuse .range s := by
  simp [cmdReadFaults, outside]

/-- Settles O19: each row gives what its command replies, and the lengths of the layouts are the sums of
those of their fields. -/
theorem readFaultsAndStatusGiveTheirBytes : Obligations.ReadFaultsAndStatusGiveTheirBytes := by
  unfold Obligations.ReadFaultsAndStatusGiveTheirBytes
  refine ⟨fun s t first count s_open => ⟨fun outside => ?_, fun inside rs hrs => ⟨?_, ?_⟩⟩,
    fun s t s_open => ?_⟩
  · exact .of_refuse rfl rfl s_open (cmdReadFaults_of_outside outside count _) rfl
  · subst hrs
    exact .of_reply rfl rfl s_open (if_neg (by simp [inside])) rfl
  · exact fun r _ => r.length_bytes
  · exact (Takes.of_reply (command := cmdReadStatus) rfl rfl s_open rfl rfl).imp fun u gave =>
      ⟨_, gave, length_of_cmdReadStatus (s := s.atTime t) rfl, rfl⟩

end Sys2Proof.Machine
end

section
/-! What every step keeps (R59, R61, R162, R164, R180 and the numbers of 00_scope.md). Each is a `StepInvariant`:
the kinds of move that touch its records keep it, and a reset gives it. -/

set_option Elab.async false

namespace Sys2Proof.Machine

variable {s u : State} {ks : List Kind}

theorem evaluateAll_keeps {I : State → Prop} (each : ∀ k s, I s → I (evaluate k s)) (h : I s) :
    I (evaluateAll s) := by
  rw [evaluateAll]
  exact forEach_keeps (upTo 64) (fun k _ => each k) s h

/-! ### The notice queue (R180) -/

theorem addNotice_of_present {key : Key} {mask : Word32} {ns : List Notice}
    (one_each : (ns.map (·.key)).Nodup) (present : ∃ n ∈ ns, n.key = key) :
    addNotice key mask ns = ns.map fun n => if n.key = key then ⟨key, n.mask ||| mask⟩ else n := by
  induction ns with
  | nil => simp at present
  | cons n ns ih =>
    obtain ⟨absent, one_each⟩ := List.nodup_cons.1 one_each
    by_cases same : n.key = key
    · have others : ∀ q ∈ ns, q.key ≠ key := fun q mem other =>
        absent (List.mem_map.2 ⟨q, mem, other.trans same.symm⟩)
      have kept : (ns.map fun n => if n.key = key then ⟨key, n.mask ||| mask⟩ else n) = ns :=
        (List.map_congr_left fun q mem => if_neg (others q mem)).trans ns.map_id
      rw [addNotice, if_pos same, List.map_cons, if_pos same, kept]
    · have present : ∃ n ∈ ns, n.key = key := by simpa [same] using present
      rw [addNotice, if_neg same, ih one_each present, List.map_cons, if_neg same]

theorem addNotice_keys (key : Key) (mask : Word32) (ns : List Notice) :
    (addNotice key mask ns).map (·.key)
      = if key ∈ ns.map (·.key) then ns.map (·.key) else ns.map (·.key) ++ [key] := by
  induction ns with
  | nil => rfl
  | cons n ns ih =>
    by_cases same : n.key = key
    · simp [addNotice, same]
    · have other : ¬ key = n.key := fun h => same h.symm
      simp only [addNotice, if_neg same, List.map_cons, ih, List.mem_cons, other, false_or]
      split <;> rfl

theorem addNotice_nodup {key : Key} {mask : Word32} {ns : List Notice}
    (one_each : (ns.map (·.key)).Nodup) : ((addNotice key mask ns).map (·.key)).Nodup := by
  rw [addNotice_keys]
  split
  · exact one_each
  · next absent => simp_all [List.nodup_append]

theorem raiseKey_host_sound (key : Key) (mask : Word32) (sound : s.host.Sound) :
    (raiseKey key mask s).host.Sound := addNotice_nodup sound

theorem append_host_sound (e : Event) (sound : s.host.Sound) : (append e s).host.Sound :=
  raiseKey_host_sound _ _ sound

theorem changeLever_host_sound (k : Nat) (f : Lever → Lever) (sound : s.host.Sound) :
    (changeLever k f s).host.Sound :=
  when_keeps (I := (·.host.Sound)) _ (raiseKey_host_sound _ _) sound

theorem latchRecord_host_sound (c : Nat) (subject : Option Nat) (sound : s.host.Sound) :
    (latchRecord c subject s).host.Sound := by
  unfold latchRecord
  split
  · exact sound
  · exact raiseKey_host_sound _ _ sound

theorem evaluate_host_sound (k : Nat) (sound : s.host.Sound) : (evaluate k s).host.Sound :=
  when_keeps (I := (·.host.Sound)) _ (latchRecord_host_sound _ _) (changeLever_host_sound k _ sound)

theorem evaluateAll_host_sound (sound : s.host.Sound) : (evaluateAll s).host.Sound :=
  evaluateAll_keeps (I := (·.host.Sound)) (fun k _ => evaluate_host_sound k) sound

theorem takeMode_host_sound (m : Mode) (sound : s.host.Sound) : (takeMode m s).host.Sound :=
  raiseKey_host_sound _ _ sound

theorem restrict_host_sound (m : Mode) (sound : s.host.Sound) :
    (evaluateAll (endReleasesForMode (takeMode m s))).host.Sound :=
  evaluateAll_host_sound <|
    forEach_keeps (I := (·.host.Sound)) _ (fun k _ _ => changeLever_host_sound k _) _
      (takeMode_host_sound m sound)

theorem Leaves.host_sound {ps : List Part} (h : Leaves ps s u) (sound : s.host.Sound)
    (away : .transmitter ∉ ps := by decide) : u.host.Sound := by
  have same : u.host.notices = s.host.notices := (h.2.2.2 .transmitter away).2.2
  rwa [HostPort.Sound, same]

/-- Moves raise keys one at a time, or change the Host Port in a way that keeps its limit. -/
theorem Moves.host_sound (h : Moves ks s u) (sound : s.host.Sound) : u.host.Sound := by
  induction h with
  | note key mask _ _ ih => exact raiseKey_host_sound key mask (ih sound)
  | record e _ _ ih => exact append_host_sound e (ih sound)
  | eval k _ _ ih => exact evaluate_host_sound k (ih sound)
  | relever k g _ _ _ _ noted ih =>
    exact evaluate_host_sound k (noted (changeLever_host_sound k g (ih sound)))
  | cause c subject _ _ _ confined ih =>
    have counted := (leaves_countOccurrence c subject _).host_sound (ih sound)
    unfold suspendFor
    split
    · exact restrict_host_sound _ (confined (append_host_sound _ counted))
    · exact confined (append_host_sound _ counted)
  | restrict m _ _ _ ih => exact restrict_host_sound m (ih sound)
  | serve m _ _ _ ih =>
    exact evaluateAll_host_sound (takeMode_host_sound m (append_host_sound _ (ih sound)))
  | host g alters _ ih =>
    obtain ⟨-, -, -, -, -, keeps, -⟩ := alters
    exact keeps (ih sound)
  | refl => exact sound
  | _ => exact ‹_ → _› sound

theorem hostSound_stepInvariant : StepInvariant (·.host.Sound) where
  of_moves := Moves.host_sound
  freshPowerUp _ _ := List.nodup_nil
  freshWarmStart _ _ _ := List.nodup_nil
  dequeue _ _ := id

/-- Settles O8: the queue's keys by `StepInvariant`, and a raise by induction on the queue. -/
theorem noticeQueueHoldsOneNoticePerKey : Obligations.NoticeQueueHoldsOneNoticePerKey := by
  unfold Obligations.NoticeQueueHoldsOneNoticePerKey
  exact ⟨fun _ _ => hostSound_stepInvariant.keeps_step,
    fun _ _ _ one_each => ⟨addNotice_of_absent, addNotice_of_present one_each⟩⟩

/-! ### The fault table (R162, R164) -/

theorem Faults.find_eq_none {f : Faults} {c : Nat} {subject : Option Nat} (absent : f.find c subject = none) :
    (c, subject) ∉ f.records.map fun r => (r.source, r.subject) := by
  rw [Faults.find, List.find?_eq_none] at absent
  intro mem
  obtain ⟨r, held, same⟩ := List.mem_map.1 mem
  obtain ⟨rfl, rfl⟩ := Prod.mk.inj same
  exact absent r held (by simp [FaultRecord.isFor])

theorem countOccurrence_faults_sound (c : Nat) (subject : Option Nat) (sound : s.faults.Sound) :
    (countOccurrence c subject s).faults.Sound := by
  unfold countOccurrence
  split
  · refine (Faults.eases_update s.faults c subject _ ?_ ?_ ?_ ?_).1 sound
    · exact fun _ => rfl
    · exact fun _ => rfl
    · exact fun _ => rfl
    · exact fun r counted => ⟨show 1 ≤ min (r.count + 1) 255 by omega, Nat.min_le_right _ _⟩
  · next absent =>
    obtain ⟨one_each, room, counts, overflow⟩ := sound
    split
    · next fits =>
      refine ⟨?_, by simpa [faultTableSize] using fits, fun r mem => ?_, overflow⟩
      · have := Faults.find_eq_none absent
        simp only [State.modFaults, List.map_append, List.nodup_append]
        exact ⟨one_each, by simp, by simp_all [newRecord]⟩
      · rcases List.mem_append.1 mem with held | joined
        · exact counts r held
        · obtain rfl := List.mem_singleton.1 joined
          simp [newRecord]
    · exact ⟨one_each, room, counts, Nat.min_le_right _ _⟩

theorem latchRecord_eases (c : Nat) (subject : Option Nat) (s : State) :
    s.faults.Eases (latchRecord c subject s).faults := by
  unfold latchRecord
  split
  · exact ⟨id, id⟩
  · exact Faults.eases_update s.faults c subject (fun r => { r with active := false }) (fun _ => rfl)
      (fun _ => rfl) (fun _ => rfl) fun _ => id

theorem Faults.Eases.trans {f g h : Faults} (fg : f.Eases g) (gh : g.Eases h) : f.Eases h :=
  ⟨gh.1 ∘ fg.1, gh.2 ∘ fg.2⟩

theorem Leaves.faults_eq {ps : List Part} (h : Leaves ps s u) (away : .faults ∉ ps := by decide) :
    u.faults = s.faults := h.2.2.2 .faults away

/-- An evaluation touches the fault table only to latch a record. -/
theorem evaluate_eases (k : Nat) (s : State) : s.faults.Eases (evaluate k s).faults := by
  refine when_keeps (I := fun t => s.faults.Eases t.faults) _ (fun h => h.trans (latchRecord_eases _ _ _)) ?_
  rw [(leaves_changeLever k _ s).faults_eq]
  exact ⟨id, id⟩

theorem evaluateAll_eases (s : State) : s.faults.Eases (evaluateAll s).faults :=
  evaluateAll_keeps (I := fun t => s.faults.Eases t.faults) (fun k t h => h.trans (evaluate_eases k t)) ⟨id, id⟩

theorem restrict_eases (m : Mode) (s : State) :
    s.faults.Eases (evaluateAll (endReleasesForMode (takeMode m s))).faults := by
  have same : (endReleasesForMode (takeMode m s)).faults = s.faults :=
    (leaves_endReleasesForMode _).faults_eq.trans (leaves_takeMode m s).faults_eq
  rw [← same]
  exact evaluateAll_eases _

theorem serve_eases (m : Mode) (s : State) : s.faults.Eases (evaluateAll (enterMode m s)).faults := by
  rw [← (leaves_enterMode m s).faults_eq]
  exact evaluateAll_eases _

theorem Moves.faults_sound (h : Moves ks s u) (sound : s.faults.Sound) : u.faults.Sound := by
  induction h with
  | faults g _ eases _ ih => exact eases.1 (ih sound)
  | eval k _ _ ih => exact (evaluate_eases k _).1 (ih sound)
  | relever k g _ _ _ _ noted ih =>
    refine (evaluate_eases k _).1 (noted ?_)
    rw [(leaves_changeLever k g _).faults_eq]
    exact ih sound
  | cause c subject _ _ _ confined ih =>
    have counted := countOccurrence_faults_sound c subject (ih sound)
    unfold suspendFor
    split
    · exact (restrict_eases _ _).1 (confined counted)
    · exact confined counted
  | restrict m _ _ _ ih => exact (restrict_eases m _).1 (ih sound)
  | serve m _ _ _ ih => exact (serve_eases m _).1 (ih sound)
  | refl => exact sound
  | _ => exact ‹_ → _› sound

theorem Faults.Sound.warm {f : Faults} (sound : f.Sound) (reactions : List Reaction) :
    (f.warm reactions).Sound := by
  obtain ⟨one_each, room, counts, overflow⟩ := sound
  have kept : (warmRecords reactions f.records).map (fun r => (r.source, r.subject))
      = (f.records.filter fun r => !(source r.source).selfClearing).map fun r => (r.source, r.subject) := by
    simp [warmRecords, Function.comp_def]
  refine ⟨?_, ?_, fun r mem => ?_, overflow⟩
  · rw [Faults.warm, kept]
    exact (List.filter_sublist.map _).nodup one_each
  · simpa [Faults.warm, warmRecords] using (List.length_filter_le _ _).trans room
  · obtain ⟨q, held, rfl⟩ := List.mem_map.1 mem
    exact counts q (List.mem_of_mem_filter held)

theorem faultsSound_stepInvariant : StepInvariant (·.faults.Sound) where
  of_moves := Moves.faults_sound
  freshPowerUp _ _ := by simp [Faults.Sound, freshState]
  freshWarmStart s _ sound := Faults.Sound.warm sound _
  dequeue _ _ := id

/-- Settles O9: an occurrence is counted in a record of its own or in the overflow record, and every other
change eases the table. -/
theorem faultTableKeepsItsLimits : Obligations.FaultTableKeepsItsLimits := by
  unfold Obligations.FaultTableKeepsItsLimits
  exact fun _ _ => faultsSound_stepInvariant.keeps_step

/-! ### The numbered records (00_scope.md, section 1.1) -/

@[simp] theorem length_mapNumbered {α : Type} (f : Nat → α → α) (n : Nat) (l : List α) :
    (mapNumbered f n l).length = l.length := by
  induction l generalizing n with
  | nil => rfl
  | cons x l ih => simp [mapNumbered, ih]

theorem mem_mapNumbered {α : Type} {f : Nat → α → α} {n : Nat} {l : List α} {y : α}
    (h : y ∈ mapNumbered f n l) : ∃ k, ∃ x ∈ l, y = f k x := by
  induction l generalizing n with
  | nil => cases h
  | cons x l ih =>
    rcases List.mem_cons.1 h with rfl | h
    · exact ⟨n, x, List.mem_cons_self, rfl⟩
    · obtain ⟨k, z, mem, rfl⟩ := ih h
      exact ⟨k, z, List.mem_cons_of_mem _ mem, rfl⟩

/-- The numbers of the records of each kind, and of the flags. -/
def State.sizes (s : State) : List Nat :=
  [s.circuits.length, s.boards.length, s.levers.length, s.instruments.length, s.holds.length, s.timers.length,
    s.bells.length, s.inbound.length, s.outbound.length, s.links.length]

theorem State.whole_iff (s : State) :
    s.Whole ↔ s.sizes = [24, 11, 64, 3, 16, 16, 3, 3, 3, 3] ∧ s.host.flags.length = 8 := by
  simp [sizes, and_assoc]

/-! ### The levers after an evaluation -/

theorem changeLever_levers (k : Nat) (f : Lever → Lever) (s : State) :
    (changeLever k f s).levers = modAt s.levers {} k f := by
  simp only [changeLever, when]
  split <;> rfl

/-- What an evaluation makes of a lever's record (R59, R60, R61). -/
def Lever.evaluated (l : Lever) (m : Mode) (d : Decision) : Lever :=
  let walked := m != .unconfigured && l.slot.isSome
  let ends := walked && d.agree && l.mismatch
  let begins := walked && !d.agree && !l.mismatch
  { l with free := d.free, reason := d.reason, firstUnmet := d.firstUnmet, coil := decidedCoil m l d
           mismatch := (l.mismatch || begins) && !ends, mismatchDue := (l.mismatchDue || begins) && !ends }

theorem latchRecord_levers (c : Nat) (subject : Option Nat) (s : State) :
    (latchRecord c subject s).levers = s.levers := (leaves_latchRecord c subject s).2.2.2 .levers (by decide)

theorem evaluate_levers (k : Nat) (s : State) :
    (evaluate k s).levers
      = modAt s.levers {} k fun l => l.evaluated s.blockMode (decideLever s k) := by
  simp only [evaluate, when]
  split <;> (try rw [latchRecord_levers]) <;> rw [changeLever_levers] <;> rfl

theorem evaluate_lever (k j : Nat) (s : State) :
    (evaluate k s).lever j
      = if j = k ∧ within k s.levers.length = true then (s.lever k).evaluated s.blockMode (decideLever s k)
        else s.lever j := by
  rw [State.lever, evaluate_levers, nth_modAt]
  rfl

theorem changeLever_lever (k j : Nat) (f : Lever → Lever) (s : State) :
    (changeLever k f s).lever j
      = if j = k ∧ within k s.levers.length = true then f (s.lever k) else s.lever j := by
  rw [State.lever, changeLever_levers, nth_modAt]
  rfl

end Sys2Proof.Machine
end

section
/-! What every step keeps, continued: the numbered records with their ranges, the agreement of the evaluators and
the coil commands (R59, R61, section 1.1). -/

set_option Elab.async false

namespace Sys2Proof.Machine

variable {s u : State} {ks : List Kind}

/-! ### The numbers of records -/

/-- The parts that changes of levers, of the mode and of fault records touch: none holds a numbered record but
those of the levers. -/
abbrev leverParts : List Part := [.mode, .levers, .register, .faults, .transmitter]

theorem Leaves.sizes_eq {ps : List Part} (h : Leaves ps s u) (levers : u.levers.length = s.levers.length)
    (sub : ∀ p ∈ ps, p ∈ leverParts := by decide) :
    u.sizes = s.sizes ∧ u.host.flags = s.host.flags := by
  have same := fun p away => (h.mono sub).2.2.2 p away
  have tracks : u.circuits = s.circuits := same .tracks (by decide)
  have boards : u.boards = s.boards := (same .boards (by decide)).1
  have instruments : u.instruments = s.instruments := same .instruments (by decide)
  have holds : u.holds = s.holds := same .holds (by decide)
  have timers : u.timers = s.timers := same .timers (by decide)
  have bells : u.bells = s.bells := same .bells (by decide)
  have inbound : u.inbound = s.inbound := same .inbound (by decide)
  have outbound : u.outbound = s.outbound := same .outbound (by decide)
  have links : u.links = s.links := same .links (by decide)
  have flags : u.host.flags = s.host.flags := (same .batch (by decide)).2.2.1
  simp only [State.sizes, tracks, boards, levers, instruments, holds, timers, bells, inbound, outbound, links,
    flags, and_self]

theorem Leaves.whole {ps : List Part} (h : Leaves ps s u) (whole : s.Whole)
    (levers : u.levers.length = s.levers.length)
    (sub : ∀ p ∈ ps, p ∈ leverParts := by decide) : u.Whole := by
  obtain ⟨sizes, flags⟩ := h.sizes_eq levers sub
  rwa [State.whole_iff, sizes, flags, ← State.whole_iff]

theorem evaluate_length (k : Nat) (s : State) : (evaluate k s).levers.length = s.levers.length := by
  rw [evaluate_levers, length_modAt]

theorem changeLever_length (k : Nat) (f : Lever → Lever) (s : State) :
    (changeLever k f s).levers.length = s.levers.length := by
  rw [changeLever_levers, length_modAt]

theorem evaluateAll_length (s : State) : (evaluateAll s).levers.length = s.levers.length :=
  evaluateAll_keeps (I := fun t => t.levers.length = s.levers.length) (fun k t h => (evaluate_length k t).trans h)
    rfl

theorem restrict_length (m : Mode) (s : State) :
    (evaluateAll (endReleasesForMode (takeMode m s))).levers.length = s.levers.length := by
  refine (evaluateAll_length _).trans ?_
  unfold endReleasesForMode
  exact forEach_keeps (I := fun t => t.levers.length = s.levers.length) _
    (fun k _ t h => (changeLever_length k _ t).trans h) _ rfl

theorem countOccurrence_levers (c : Nat) (subject : Option Nat) (s : State) :
    (countOccurrence c subject s).levers = s.levers :=
  (leaves_countOccurrence c subject s).2.2.2 .levers (by decide)

theorem Moves.whole (h : Moves ks s u) (whole : s.Whole) : u.Whole := by
  induction h with
  | eval k _ _ ih => exact (leaves_evaluate k _).whole (ih whole) (evaluate_length k _)
  | relever k g _ _ _ _ noted ih =>
    exact (leaves_evaluate k _).whole
      (noted ((leaves_changeLever k g _).whole (ih whole) (changeLever_length k g _))) (evaluate_length k _)
  | @cause _ _ s0 _ c subject _ _ _ confined ih =>
    have counted := (leaves_countOccurrence c subject s0).whole (ih whole)
      (congrArg List.length (countOccurrence_levers c subject s0))
    unfold suspendFor
    split
    · exact (leaves_restrict _ _).whole (confined counted) (restrict_length _ _) (by simp [Kind.parts])
    · exact confined counted
  | restrict m _ _ _ ih =>
    exact (leaves_restrict m _).whole (ih whole) (restrict_length m _) (by simp [Kind.parts])
  | serve m _ _ _ ih =>
    exact (leaves_serve m _).whole (ih whole) (evaluateAll_length _) (by simp [Kind.parts])
  | host g alters _ ih =>
    obtain ⟨-, -, -, -, -, -, keeps⟩ := alters
    obtain ⟨sizes, flags⟩ := (State.whole_iff _).1 (ih whole)
    exact (State.whole_iff _).2 ⟨sizes, keeps flags⟩
  | begin i _ _ _ ih => simpa [State.Whole, startBlocks] using ih whole
  | lever | circuits | circuit | fall | clear | board | instrument | hold | timer | bell | inb | outb | link =>
    simpa [State.Whole] using ‹_ → State.Whole _› whole
  | refl => exact whole
  | _ => exact ‹_ → _› whole

/-! ### The ranges of a circuit -/

theorem Circuit.Sound.started {c : Circuit} (sound : c.Sound) (cfg : TrackCfg) : (c.started cfg).Sound := by
  unfold Circuit.started
  split <;> exact sound

theorem Circuit.Sound.cleared {c : Circuit} {level : Nat} (sound : c.Sound) (inside : level ≤ 1999) :
    Circuit.Sound { c with state := .clear, lavg := some level, bad := 0 } := by
  obtain ⟨g, -, foreign, overlevel, last, -⟩ := sound
  exact ⟨g, Nat.zero_le _, foreign, overlevel, last, fun l h => by cases h; exact inside⟩

theorem Leaves.circuits_eq {ps : List Part} (h : Leaves ps s u) (away : .tracks ∉ ps := by decide) :
    u.circuits = s.circuits := h.2.2.2 .tracks away

theorem Moves.circuits_sound (h : Moves ks s u) (sound : ∀ c ∈ s.circuits, c.Sound) :
    ∀ c ∈ u.circuits, c.Sound := by
  induction h with
  | circuit k g _ steady _ _ ih => exact all_modAt (ih sound) steady.1
  | circuits g _ steady _ _ ih =>
    intro c mem
    obtain ⟨d, held, rfl⟩ := List.mem_map.1 mem
    exact (steady d).1 (ih sound d held)
  | fall k g _ falls _ _ ih => exact all_modAt (ih sound) falls.1
  | clear k level _ inside _ _ ih =>
    rw [State.modCircuit_circuits]
    exact all_modAt (ih sound) fun c => c.cleared inside
  | begin i _ _ _ ih =>
    intro c mem
    obtain ⟨k, d, held, rfl⟩ := mem_mapNumbered mem
    exact (ih sound d held).started _
  | eval k _ _ ih => rw [(leaves_evaluate k _).circuits_eq]; exact ih sound
  | relever k g _ _ _ _ noted ih =>
    rw [(leaves_evaluate k _).circuits_eq]
    refine noted ?_
    rw [(leaves_changeLever k g _).circuits_eq]
    exact ih sound
  | cause c subject _ _ _ confined ih =>
    have held := confined (by rw [(leaves_append _ _).circuits_eq,
      (leaves_countOccurrence c subject _).circuits_eq]; exact ih sound)
    unfold suspendFor
    split
    · rw [(leaves_restrict _ _).circuits_eq (by simp [Kind.parts])]; exact held
    · exact held
  | restrict m _ _ _ ih => rw [(leaves_restrict m _).circuits_eq (by simp [Kind.parts])]; exact ih sound
  | serve m _ _ _ ih => rw [(leaves_serve m _).circuits_eq (by simp [Kind.parts])]; exact ih sound
  | refl => exact sound
  | _ => exact ‹_ → _› sound

theorem whole_freshState (stored : Option Stored) (r : Register) (tickAt : Int) (f : Faults) :
    (freshState s stored r tickAt f).Whole := by
  simp [State.Whole, freshState]

theorem circuits_sound_freshState (stored : Option Stored) (r : Register) (tickAt : Int) (f : Faults) :
    ∀ c ∈ (freshState s stored r tickAt f).circuits, c.Sound := by
  intro c mem
  obtain rfl := List.eq_of_mem_replicate mem
  simp [Circuit.Sound]

theorem recordsSound_stepInvariant : StepInvariant fun s => s.Whole ∧ ∀ c ∈ s.circuits, c.Sound where
  of_moves moved := fun ⟨whole, sound⟩ => ⟨moved.whole whole, moved.circuits_sound sound⟩
  freshPowerUp _ _ := ⟨whole_freshState .., circuits_sound_freshState _ _ _ _⟩
  freshWarmStart _ _ _ := ⟨whole_freshState .., circuits_sound_freshState _ _ _ _⟩
  dequeue _ _ := id

/-- Settles O10: no move adds or takes away a record, and each change of a circuit keeps its ranges. -/
theorem recordsKeepTheirRanges : Obligations.RecordsKeepTheirRanges := by
  unfold Obligations.RecordsKeepTheirRanges
  exact fun _ _ whole sound => recordsSound_stepInvariant.keeps_step ⟨whole, sound⟩

/-! ### The agreement of the evaluators (R59) -/

/-- R59: the walks agree, so every decision has them agree. -/
@[simp] theorem decideLever_agree (s : State) (k : Nat) : (decideLever s k).agree = true := by
  simp only [decideLever]
  split
  · rfl
  · split
    · rfl
    · exact resultsAgree_walks ..

theorem Lever.quiet_evaluated (l : Lever) (m : Mode) {d : Decision} (agree : d.agree = true) :
    l.Quiet (l.evaluated m d) := by
  constructor <;> intro h <;> simp [evaluated, agree, h]

/-- A quiet change of one lever leaves none disputed. -/
theorem undisputed_modAt {k : Nat} {f : Lever → Lever} (h : u.levers = modAt s.levers {} k f)
    (quiet : (s.lever k).Quiet (f (s.lever k))) (undisputed : s.Undisputed) : u.Undisputed := by
  rw [State.Undisputed, h]
  exact all_modAt undisputed fun ⟨stands, due⟩ => ⟨quiet.1 stands, quiet.2 due⟩

theorem changeLever_undisputed {k : Nat} {f : Lever → Lever} (quiet : (s.lever k).Quiet (f (s.lever k)))
    (undisputed : s.Undisputed) : (changeLever k f s).Undisputed :=
  undisputed_modAt (changeLever_levers k f s) quiet undisputed

theorem evaluate_undisputed (k : Nat) (undisputed : s.Undisputed) : (evaluate k s).Undisputed :=
  undisputed_modAt (evaluate_levers k s) (Lever.quiet_evaluated _ _ (decideLever_agree s k)) undisputed

theorem evaluateAll_undisputed (undisputed : s.Undisputed) : (evaluateAll s).Undisputed :=
  evaluateAll_keeps (I := State.Undisputed) (fun k _ => evaluate_undisputed k) undisputed

theorem endReleasesForMode_undisputed (undisputed : s.Undisputed) : (endReleasesForMode s).Undisputed :=
  forEach_keeps (I := State.Undisputed) _ (fun _ _ _ => changeLever_undisputed ⟨id, id⟩) _ undisputed

theorem restrict_undisputed (m : Mode) (undisputed : s.Undisputed) :
    (evaluateAll (endReleasesForMode (takeMode m s))).Undisputed :=
  evaluateAll_undisputed (endReleasesForMode_undisputed (s := takeMode m s) undisputed)

/-- No move begins a disagreement of the evaluators. -/
theorem Moves.undisputed (h : Moves ks s u) (undisputed : s.Undisputed) : u.Undisputed := by
  induction h with
  | lever k g _ steady _ ih => exact undisputed_modAt rfl steady.1 (ih undisputed)
  | eval k _ _ ih => exact evaluate_undisputed k (ih undisputed)
  | relever k g _ quiet _ _ noted ih =>
    exact evaluate_undisputed k (noted (changeLever_undisputed quiet (ih undisputed)))
  | cause c subject _ _ _ confined ih =>
    have held := confined (by
      rw [State.Undisputed, (leaves_append _ _).2.2.2 .levers (by decide), countOccurrence_levers]
      exact ih undisputed)
    unfold suspendFor
    split
    · exact restrict_undisputed _ held
    · exact held
  | restrict m _ _ _ ih => exact restrict_undisputed m (ih undisputed)
  | serve m _ _ _ ih => exact evaluateAll_undisputed (ih undisputed)
  | begin i _ _ _ ih =>
    intro l mem
    obtain ⟨k, m, held, rfl⟩ := mem_mapNumbered mem
    exact ih undisputed m held
  | refl => exact undisputed
  | _ => exact ‹_ → _› undisputed

theorem undisputed_freshState (stored : Option Stored) (r : Register) (tickAt : Int) (f : Faults) :
    (freshState s stored r tickAt f).Undisputed := by
  intro l mem
  obtain rfl := List.eq_of_mem_replicate mem
  exact ⟨rfl, rfl⟩

theorem undisputed_stepInvariant : StepInvariant State.Undisputed where
  of_moves := Moves.undisputed
  freshPowerUp _ _ := undisputed_freshState _ _ _ _
  freshWarmStart _ _ _ := undisputed_freshState _ _ _ _
  dequeue _ _ := id

/-- Settles O12: the two walks agree (`resultsAgree_walks`), so no evaluation begins a disagreement. -/
theorem evaluatorsNeverDisagree : Obligations.EvaluatorsNeverDisagree := by
  unfold Obligations.EvaluatorsNeverDisagree
  exact fun _ _ => undisputed_stepInvariant.keeps_step

/-! ### The coil commands (R61) -/

/-- Whether every lever's coil is as R61 allows. -/
structure State.CoilsAllowed (s : State) : Prop where
  of_lever : ∀ k, within k 64 = true → CoilAllowed s.blockMode (s.lever k)

theorem Lever.atRest_iff (l : Lever) : l.atRest = true ↔ l.settled.map Pos.atRest = some l.current := by
  cases h : l.settled <;> simp only [atRest, h, Option.any, Option.map, beq_iff_eq, reduceCtorEq, Option.some.injEq]
  exact eq_comm

theorem coilAllowed_of_command {m : Mode} {l : Lever} (h : l.coil = true → coilCommand m l l.free = true) :
    CoilAllowed m l := by
  intro on
  have command := h on
  cases m with
  | unconfigured => cases command
  | service =>
    simpa [coilCommand, Lever.atRest_iff, Option.isSome_iff_ne_none] using command
  | suspended | editing =>
    simp only [coilCommand, Bool.and_eq_true, Bool.or_eq_true, beq_iff_eq, Lever.atRest_iff] at command
    obtain ⟨type, (⟨rest, settled⟩ | moving)⟩ := command
    · rw [settled] at rest
      exact ⟨type, .inl ⟨(Option.some.inj rest).symm, settled⟩⟩
    · exact ⟨type, .inr moving⟩

theorem coilAllowed_evaluated (l : Lever) (m : Mode) (d : Decision) : CoilAllowed m (l.evaluated m d) :=
  coilAllowed_of_command fun on => (Bool.and_eq_true_iff.1 on).1

theorem Leaves.blockMode_eq {ps : List Part} (h : Leaves ps s u)
    (away : .mode ∉ ps ∧ .store ∉ ps := by decide) : u.blockMode = s.blockMode := by
  have mode : u.mode = s.mode := (h.2.2.2 .mode away.1).1
  have store : u.store = s.store := h.2.2.2 .store away.2
  rw [State.blockMode, State.blockMode, mode, store]

theorem evaluate_blockMode (k : Nat) (s : State) : (evaluate k s).blockMode = s.blockMode :=
  (leaves_evaluate k s).blockMode_eq

/-- What an evaluation leaves of the coils: its own lever's is allowed, and every other is as it was. -/
theorem evaluate_coilAllowed {k j : Nat} (h : j ≠ k → CoilAllowed s.blockMode (s.lever j)) :
    CoilAllowed (evaluate k s).blockMode ((evaluate k s).lever j) := by
  rw [evaluate_blockMode, evaluate_lever]
  split
  · exact coilAllowed_evaluated _ _ _
  · next other =>
    by_cases same : j = k
    · have outside : within j s.levers.length = false := by simpa [same] using other
      rw [State.lever, nth_outside _ _ _ outside]
      nofun
    · exact h same

/-- What the round of one number gives, and every other round keeps, holds after all of them. -/
theorem forEach_establishes {J : State → Prop} {f : Nat → State → State} {j : Nat} {ns : List Nat} (mem : j ∈ ns)
    (own : ∀ t, J (f j t)) (keep : ∀ n t, J t → J (f n t)) (s : State) : J (forEach ns f s) := by
  obtain ⟨before, after, rfl⟩ := List.append_of_mem mem
  have split : forEach (before ++ j :: after) f s = forEach after f (f j (forEach before f s)) := by
    simp [forEach, List.foldl_append]
  rw [split]
  exact forEach_keeps after (fun n _ => keep n) _ (own _)

theorem mem_upTo {j n : Nat} : j ∈ upTo n ↔ within j n = true := by
  rw [upTo, List.mem_range'_1, within_iff]
  omega

theorem evaluateAll_coilsAllowed (s : State) : (evaluateAll s).CoilsAllowed := by
  refine ⟨fun j inside => ?_⟩
  rw [evaluateAll]
  refine forEach_establishes (J := fun t => CoilAllowed t.blockMode (t.lever j)) (mem_upTo.2 inside) ?_ ?_ s
  · exact fun t => evaluate_coilAllowed fun other => absurd rfl other
  · exact fun n t held => evaluate_coilAllowed fun _ => held

theorem State.CoilsAllowed.of_eq (allowed : s.CoilsAllowed) (mode : u.blockMode = s.blockMode)
    (levers : u.levers = s.levers) : u.CoilsAllowed := by
  refine ⟨fun k inside => ?_⟩
  have same : u.lever k = s.lever k := by rw [State.lever, levers, State.lever]
  rw [mode, same]
  exact allowed.of_lever k inside

theorem Leaves.coilsAllowed {ps : List Part} (h : Leaves ps s u) (allowed : s.CoilsAllowed)
    (away : .levers ∉ ps ∧ .mode ∉ ps ∧ .store ∉ ps := by decide) : u.CoilsAllowed :=
  allowed.of_eq (h.blockMode_eq away.2) (h.2.2.2 .levers away.1)

/-- A change of a lever that leaves alone what R61 takes the command from. -/
theorem Lever.Steady.coilAllowed {l m : Lever} {mode : Mode} (steady : l.Steady m)
    (allowed : CoilAllowed mode l) : CoilAllowed mode m := by
  obtain ⟨-, type, settled, current, held, free, coil⟩ := steady
  rwa [CoilAllowed.eq_def, type, settled, current, held, free, coil]

theorem State.CoilsAllowed.modLever {k : Nat} {g : Lever → Lever} (allowed : s.CoilsAllowed)
    (steady : (s.lever k).Steady (g (s.lever k))) : (s.modLever k g).CoilsAllowed := by
  refine ⟨fun j inside => ?_⟩
  have held := allowed.of_lever j inside
  rw [State.lever_modLever]
  split
  · next same =>
    obtain ⟨rfl, -⟩ := same
    exact steady.coilAllowed held
  · exact held

theorem State.CoilsAllowed.evaluate {k : Nat}
    (allowed : ∀ j, within j 64 = true → j ≠ k → CoilAllowed s.blockMode (s.lever j)) :
    (evaluate k s).CoilsAllowed :=
  ⟨fun j inside => evaluate_coilAllowed (allowed j inside)⟩

theorem nth_mapNumbered_add {α : Type} (f : Nat → α → α) (d : α) (l : List α) (n j : Nat) :
    nth (mapNumbered f n l) d (j + 1) = if j < l.length then f (n + j) (nth l d (j + 1)) else d := by
  induction l generalizing n j with
  | nil => rfl
  | cons x l ih =>
    cases j with
    | zero => simp [mapNumbered, nth]
    | succ j =>
      have next := ih (n + 1) j
      simpa [nth, mapNumbered, List.getD, Nat.add_assoc, Nat.add_comm 1] using next

/-- Each numbered record is changed by its number, and the default stands beyond them. -/
theorem nth_mapNumbered {α : Type} (f : Nat → α → α) (d : α) (l : List α) (k : Nat) :
    nth (mapNumbered f 1 l) d k = if within k l.length = true then f k (nth l d k) else d := by
  cases k with
  | zero => simp [within]
  | succ j =>
    rw [nth_mapNumbered_add, Nat.add_comm 1 j]
    simp only [within_iff, Nat.succ_le_iff, Nat.zero_lt_succ, true_and]

/-- In UNCONFIGURED every coil is OFF, and a start of the blocks leaves it so. -/
theorem State.CoilsAllowed.startBlocks {i : Image} (allowed : s.CoilsAllowed) (none_in_force : s.store.inForce = none) :
    (startBlocks i s).CoilsAllowed := by
  have unconfigured : s.blockMode = .unconfigured := by simp [blockMode, none_in_force]
  refine ⟨fun k inside => ?_⟩
  have off : (s.lever k).coil = false := by
    have held := allowed.of_lever k inside
    rw [unconfigured] at held
    exact Bool.eq_false_iff.2 held
  intro on
  rw [lever, Machine.startBlocks, nth_mapNumbered] at on
  split at on
  · exact absurd (off.symm.trans on) (by decide)
  · cases on

/-- The coils stay allowed through every move: it leaves alone what R61 takes the commands from, or evaluates
the levers it touches. -/
theorem Moves.coilsAllowed (h : Moves ks s u) (allowed : s.CoilsAllowed) : u.CoilsAllowed := by
  induction h with
  | lever k g _ steady _ ih => exact (ih allowed).modLever steady
  | eval k _ _ ih => exact .evaluate fun j inside _ => (ih allowed).of_lever j inside
  | @relever _ _ s0 t k g _ _ noted _ _ ih =>
    have mode : t.blockMode = s0.blockMode := by
      rw [State.blockMode, noted.exactly .store, (noted.exactly .mode).1]
      exact (leaves_changeLever k g s0).blockMode_eq
    have levers : t.levers = (changeLever k g s0).levers := noted.exactly .levers
    refine .evaluate fun j inside other => ?_
    rw [mode, State.lever, levers]
    have kept := changeLever_lever k j g s0
    rw [if_neg fun h => other h.1] at kept
    refine Eq.mpr (congrArg (CoilAllowed _) kept) ((ih allowed).of_lever j inside)
  | cause c subject _ _ _ confined ih =>
    have held := confined ((leaves_append _ _).coilsAllowed
      ((leaves_countOccurrence c subject _).coilsAllowed (ih allowed)))
    unfold suspendFor
    split
    · exact evaluateAll_coilsAllowed _
    · exact held
  | restrict => exact evaluateAll_coilsAllowed _
  | serve => exact evaluateAll_coilsAllowed _
  | tables g _ _ ih => exact (ih allowed).of_eq (State.modTables_blockMode _ g) rfl
  | reload a b v _ _ _ ih => exact (ih allowed).of_eq (State.modTables_blockMode _ _) rfl
  | store g _ same _ ih =>
    refine (ih allowed).of_eq ?_ rfl
    rw [State.blockMode, State.modStore_store, same]
    rfl
  | begin i _ none_in_force _ ih => exact (ih allowed).startBlocks none_in_force
  | refl => exact allowed
  | _ =>
    rename_i ih
    exact ⟨(ih allowed).of_lever⟩

theorem coilsAllowed_freshState (stored : Option Stored) (r : Register) (tickAt : Int) (f : Faults) :
    (freshState s stored r tickAt f).CoilsAllowed :=
  ⟨fun k _ => nth_all (p := CoilAllowed (freshState s stored r tickAt f).blockMode)
    (fun l mem => by obtain rfl := List.eq_of_mem_replicate mem; nofun) (by nofun) k⟩

theorem coilsAllowed_stepInvariant : StepInvariant State.CoilsAllowed where
  of_moves := Moves.coilsAllowed
  freshPowerUp _ _ := coilsAllowed_freshState _ _ _ _
  freshWarmStart _ _ _ := coilsAllowed_freshState _ _ _ _
  dequeue _ _ allowed := ⟨allowed.of_lever⟩

/-- Settles O14: a coil is commanded by an evaluation alone, and a change of the mode evaluates every lever. -/
theorem coilsAreOnOnlyWhereAllowed : Obligations.CoilsAreOnOnlyWhereAllowed := by
  unfold Obligations.CoilsAreOnOnlyWhereAllowed
  exact fun _ _ allowed stepped => (coilsAllowed_stepInvariant.keeps_step ⟨allowed⟩ stepped).of_lever

end Sys2Proof.Machine
end

section
/-! How a track circuit enters CLEAR (R11 to R13). One kind of move takes a circuit to CLEAR, and one row alone makes
a move of that kind: the end of the conversion of a pulse, for the circuit of that pulse. -/

set_option Elab.async false

namespace Sys2Proof.Machine

variable {s u : State} {ks : List Kind}

/-! ### Moves that take no circuit to CLEAR -/

/-- Every circuit that is CLEAR was so before. -/
structure NoneCleared (s u : State) : Prop where
  was_clear : ∀ k, (u.circuit k).state = .clear → (s.circuit k).state = .clear

theorem NoneCleared.refl (s : State) : NoneCleared s s := ⟨fun _ => id⟩

theorem NoneCleared.trans {t : State} (h : NoneCleared s t) (g : NoneCleared t u) : NoneCleared s u :=
  ⟨fun k => h.was_clear k ∘ g.was_clear k⟩

theorem NoneCleared.of_eq (h : u.circuits = s.circuits) : NoneCleared s u := by
  refine ⟨fun k => ?_⟩
  rw [State.circuit, h]
  exact id

theorem NoneCleared.modCircuit {k : Nat} {g : Circuit → Circuit}
    (h : (g (s.circuit k)).state = .clear → (s.circuit k).state = .clear) : NoneCleared s (s.modCircuit k g) := by
  refine ⟨fun j => ?_⟩
  rw [State.circuit_modCircuit]
  split
  · next same =>
    obtain ⟨rfl, -⟩ := same
    exact h
  · exact id

theorem nth_map {α : Type} (g : α → α) (d : α) (l : List α) (k : Nat) :
    nth (l.map g) d k = if within k l.length = true then g (nth l d k) else d := by
  cases k with
  | zero => simp [within]
  | succ j =>
    by_cases inside : j < l.length
    · simp [nth, List.getD, within, inside, Nat.succ_le_of_lt inside]
    · simp [nth, List.getD, within, inside]

theorem noneCleared_startBlocks (i : Image) (s : State) : NoneCleared s (startBlocks i s) := by
  refine ⟨fun k => ?_⟩
  rw [State.circuit, startBlocks, nth_mapNumbered]
  split
  · unfold Circuit.started
    split
    · dsimp only
      split <;> nofun
    · exact id
  · nofun

/-- Moves of no kind but `clear` take no circuit to CLEAR. -/
theorem Moves.noneCleared (h : Moves ks s u) (away : .clear ∉ ks) : NoneCleared s u := by
  induction h with
  | refl => exact .refl _
  | clear _ _ clears => exact absurd clears away
  | circuit k g _ steady _ _ ih => exact (ih away).trans (.modCircuit fun h => steady.2.symm.trans h)
  | circuits g _ steady _ _ ih =>
    refine (ih away).trans ⟨fun k h => ?_⟩
    rw [State.circuit, nth_map] at h
    split at h
    · exact (steady _).2.symm.trans h
    · cases h
  | fall k g _ falls _ _ ih => exact (ih away).trans (.modCircuit fun h => absurd h falls.2)
  | begin i _ _ _ ih => exact (ih away).trans (noneCleared_startBlocks i _)
  | eval k _ _ ih => exact (ih away).trans (.of_eq (leaves_evaluate k _).circuits_eq)
  | relever k g _ _ _ _ noted ih =>
    exact (((ih away).trans (.of_eq (leaves_changeLever k g _).circuits_eq)).trans (noted (by decide))).trans
      (.of_eq (leaves_evaluate k _).circuits_eq)
  | cause c subject _ _ _ confined ih =>
    have counted := (((ih away).trans (.of_eq (leaves_countOccurrence c subject _).circuits_eq)).trans
      (.of_eq (leaves_append _ _).circuits_eq)).trans (confined (by decide))
    unfold suspendFor
    split
    · exact counted.trans (.of_eq ((leaves_restrict _ _).circuits_eq (by simp [Kind.parts])))
    · exact counted
  | restrict m _ _ _ ih =>
    exact (ih away).trans (.of_eq ((leaves_restrict m _).circuits_eq (by simp [Kind.parts])))
  | serve m _ _ _ ih => exact (ih away).trans (.of_eq ((leaves_serve m _).circuits_eq (by simp [Kind.parts])))
  | _ =>
    rename_i ih
    exact ⟨(ih away).was_clear⟩

/-! ### Rows that take no circuit to CLEAR -/

/-- The kinds of move of every row but the end of a pulse's conversion, once the running time is the row's. -/
abbrev calmRowKinds : List Kind := .scan :: .board :: .start :: batchKinds

theorem Moves.of_calm_row {t : Time} {f : State → State}
    (effect : Moves calmRowKinds (s.comeTo t) (f (s.comeTo t))) :
    Moves calmRowKinds (s.comeTo t) (finish (f (s.comeTo t))) := effect.to_finish

theorem Moves.of_calm_command {t : Time} (code : Nat) (command : State → Ran)
    (effect : ∀ s, Moves calmRowKinds s (command s).1) :
    Moves calmRowKinds (s.comeTo t) (commandRow t code command s) :=
  Moves.of_calm_row (f := runAlone code command) (Moves.to_runAlone code command (effect _) .refl)

/-- No row but the two resets and the end of a pulse's conversion makes a move of kind `clear`. -/
theorem exec_calm_moves (i : Instr) (timed : i.time ≠ none)
    (other : ∀ t a, i ≠ .pulseEndConversionComplete t a) (s : State) :
    ∃ t u, i.time = some t ∧ exec i s = .next u ∧ Moves calmRowKinds (s.comeTo t) u := by
  cases i with
  | powerUpReset => exact absurd rfl timed
  | warmStart => exact absurd rfl timed
  | hostRequestFrame t bs => exact ⟨t, _, rfl, rfl, .of_calm_row (Moves.refl.to_receiveRequest bs)⟩
  | hostInterbyteTimeout t => exact ⟨t, _, rfl, rfl, .of_calm_row Moves.refl.to_gapPassed⟩
  | hostFrameSent t => exact ⟨t, _, rfl, rfl, .of_calm_row Moves.refl.to_frameLeft⟩
  | readTracks t a b =>
    exact ⟨t, _, rfl, rfl, .of_calm_command _ _ fun s => by
      unfold cmdReadTracks; rw [read_state]; exact .refl⟩
  | testTrack t f a b => exact ⟨t, _, rfl, rfl, .of_calm_command _ _ fun _ => Moves.refl.to_test _ _ _ _⟩
  | learnReference t k => exact ⟨t, _, rfl, rfl, .of_calm_command _ _ fun _ => Moves.refl.to_cmdLearn k⟩
  | readLevers t a b =>
    exact ⟨t, _, rfl, rfl, .of_calm_command _ _ fun s => by
      unfold cmdReadLevers; rw [read_state]; exact .refl⟩
  | testLever t f a b => exact ⟨t, _, rfl, rfl, .of_calm_command _ _ fun _ => Moves.refl.to_test _ _ _ _⟩
  | takeOutOfUse t k => exact ⟨t, _, rfl, rfl, .of_calm_command _ _ fun _ => Moves.refl.to_cmdTakeOut _ k⟩
  | bringIntoUse t k => exact ⟨t, _, rfl, rfl, .of_calm_command _ _ fun _ => Moves.refl.to_cmdBringIn _ k⟩
  | readHolds t a b =>
    exact ⟨t, _, rfl, rfl, .of_calm_command _ _ fun s => by
      unfold cmdReadHolds; rw [read_state]; exact .refl⟩
  | testHold t f a b => exact ⟨t, _, rfl, rfl, .of_calm_command _ _ fun _ => Moves.refl.to_test _ _ _ _⟩
  | readReleases t a b =>
    exact ⟨t, _, rfl, rfl, .of_calm_command _ _ fun s => by
      unfold cmdReadReleases; rw [read_state]; exact .refl⟩
  | requestRelease t k =>
    exact ⟨t, _, rfl, rfl, .of_calm_command _ _ fun _ => Moves.refl.to_cmdRequestRelease k⟩
  | cancelRelease t k =>
    exact ⟨t, _, rfl, rfl, .of_calm_command _ _ fun _ => Moves.refl.to_cmdCancelRelease k⟩
  | sendCode t k g => exact ⟨t, _, rfl, rfl, .of_calm_command _ _ fun _ => Moves.refl.to_cmdSendCode k g⟩
  | readLines t a b =>
    exact ⟨t, _, rfl, rfl, .of_calm_command _ _ fun s => by
      unfold cmdReadLines; rw [read_state]; exact .refl⟩
  | testLine t f a b => exact ⟨t, _, rfl, rfl, .of_calm_command _ _ fun _ => Moves.refl.to_test _ _ _ _⟩
  | runTestLink t k => exact ⟨t, _, rfl, rfl, .of_calm_command _ _ fun _ => Moves.refl.to_cmdTestLink _ k⟩
  | runTestTable t => exact ⟨t, _, rfl, rfl, .of_calm_command _ _ fun _ => Moves.refl.to_cmdTestTable _⟩
  | readRegister t n => exact ⟨t, _, rfl, rfl, .of_calm_command _ _ fun _ => .refl⟩
  | advanceRegister t n =>
    exact ⟨t, _, rfl, rfl, .of_calm_command _ _ fun _ => Moves.refl.to_cmdAdvanceRegister n⟩
  | setClock t d n => exact ⟨t, _, rfl, rfl, .of_calm_command _ _ fun _ => Moves.refl.to_cmdSetClock d n⟩
  | readFaults t a b =>
    exact ⟨t, _, rfl, rfl, .of_calm_command _ _ fun s => by
      unfold cmdReadFaults; dsimp only; split <;> exact .refl⟩
  | testFault t f c n v =>
    exact ⟨t, _, rfl, rfl, .of_calm_command _ _ fun _ => Moves.refl.to_cmdTestFault f c n v⟩
  | clearFault t c n => exact ⟨t, _, rfl, rfl, .of_calm_command _ _ fun _ => Moves.refl.to_cmdClearFault c n⟩
  | resume t => exact ⟨t, _, rfl, rfl, .of_calm_command _ _ fun _ => Moves.refl.to_cmdResume⟩
  | openEdit t => exact ⟨t, _, rfl, rfl, .of_calm_command _ _ fun _ => Moves.refl.to_cmdOpenEdit⟩
  | writeTable t a b f =>
    exact ⟨t, _, rfl, rfl, .of_calm_command _ _ fun _ => Moves.refl.to_cmdWriteTable _ a b f⟩
  | readTable t a b =>
    exact ⟨t, _, rfl, rfl, .of_calm_command _ _ fun s => by rw [cmdReadTable_state]; exact .refl⟩
  | commit t => exact ⟨t, _, rfl, rfl, .of_calm_command _ _ fun _ => Moves.refl.to_cmdCommit _⟩
  | abandonEdit t => exact ⟨t, _, rfl, rfl, .of_calm_command _ _ fun _ => Moves.refl.to_cmdAbandon⟩
  | stage t a b f v => exact ⟨t, _, rfl, rfl, .of_calm_command _ _ fun _ => Moves.refl.to_cmdStage a b f v⟩
  | readStatus t => exact ⟨t, _, rfl, rfl, .of_calm_command _ _ fun _ => .refl⟩
  | warmReset t => exact ⟨t, _, rfl, rfl, .of_calm_command _ _ fun _ => .refl⟩
  | imageWriteComplete t => exact ⟨t, _, rfl, rfl, .of_calm_row Moves.refl.to_writeEnds⟩
  | pulseRisingEdge t k => exact ⟨t, _, rfl, rfl, .of_calm_row (Moves.refl.to_pulseRises k)⟩
  | pulseFallingEdge t k => exact ⟨t, _, rfl, rfl, .of_calm_row (Moves.refl.to_pulseFalls k)⟩
  | candidateTimeout t k => exact ⟨t, _, rfl, rfl, .of_calm_row (Moves.refl.to_candidateTimesOut k)⟩
  | codeLost t k => exact ⟨t, _, rfl, rfl, .of_calm_row (Moves.refl.to_codeLostExpires k)⟩
  | pulseEndConversionComplete t a => exact absurd rfl (other t a)
  | wiringTestDue t k => exact ⟨t, _, rfl, rfl, .of_calm_row (Moves.refl.to_wiringDue k)⟩
  | wiringLoadTimeEnd t k => exact ⟨t, _, rfl, rfl, .of_calm_row (Moves.refl.to_wiringLoaded k)⟩
  | wiringConversionComplete t n =>
    exact ⟨t, _, rfl, rfl, .of_calm_row (Moves.refl.to_wiringConverted (min n fullScale))⟩
  | referenceConversionComplete t n =>
    exact ⟨t, _, rfl, rfl, .of_calm_row (Moves.refl.to_referenceConverted (min n fullScale))⟩
  | pollPosition t => exact ⟨t, _, rfl, rfl, .of_calm_row Moves.refl.to_takePosition⟩
  | goodAnswer t b a => exact ⟨t, _, rfl, rfl, .of_calm_row (Moves.refl.to_answered b a)⟩
  | missedPoll t b => exact ⟨t, _, rfl, rfl, .of_calm_row (Moves.refl.to_missed b)⟩
  | transitCompareExpiry t k => exact ⟨t, _, rfl, rfl, .of_calm_row (Moves.refl.to_transitExpires k)⟩
  | releaseTimerExpiry t k => exact ⟨t, _, rfl, rfl, .of_calm_row (Moves.refl.to_releaseExpires k)⟩
  | releaseLapse t k => exact ⟨t, _, rfl, rfl, .of_calm_row (Moves.refl.to_releaseLapses k)⟩
  | plungerCodeEnd t k => exact ⟨t, _, rfl, rfl, .of_calm_row (Moves.refl.to_endDuePlunger k)⟩
  | hostCodeStrokeEnd t k => exact ⟨t, _, rfl, rfl, .of_calm_row (Moves.refl.to_hostStrokeEnd k)⟩
  | hostCodeEnd t k => exact ⟨t, _, rfl, rfl, .of_calm_row (Moves.refl.to_hostEnd k)⟩
  | receiveTimeout t k => exact ⟨t, _, rfl, rfl, .of_calm_row (Moves.refl.to_receiveTimedOut k)⟩
  | expectationDeadline t k => exact ⟨t, _, rfl, rfl, .of_calm_row (Moves.refl.to_deadlinePassed k)⟩
  | disagreementCompareExpiry t k =>
    exact ⟨t, _, rfl, rfl, .of_calm_row (Moves.refl.to_disagreementExpires k)⟩
  | overdueExpiry t k => exact ⟨t, _, rfl, rfl, .of_calm_row (Moves.refl.to_overdueExpires k)⟩
  | linkFrameReceived t k bs => exact ⟨t, _, rfl, rfl, .of_calm_row (Moves.refl.to_receiveFrame k bs)⟩
  | linkFrameAbandoned t k => exact ⟨t, _, rfl, rfl, .of_calm_row (Moves.refl.to_pauseAbandons k)⟩
  | linkCollision t k => exact ⟨t, _, rfl, rfl, .of_calm_row (Moves.refl.to_collide k)⟩
  | linkFrameSent t k => exact ⟨t, _, rfl, rfl, .of_calm_row (Moves.refl.to_frameSent k)⟩
  | lineQuiet t k => exact ⟨t, _, rfl, rfl, .of_calm_row (Moves.refl.to_startFrame k)⟩
  | backOffEnd t k => exact ⟨t, _, rfl, rfl, .of_calm_row (Moves.refl.to_backOffPasses k)⟩
  | answerTimerExpiry t k => exact ⟨t, _, rfl, rfl, .of_calm_row (Moves.refl.to_answerExpires k)⟩
  | takenTimerExpiry t k => exact ⟨t, _, rfl, rfl, .of_calm_row (Moves.refl.to_takenExpires k)⟩
  | dataTimerExpiry t k => exact ⟨t, _, rfl, rfl, .of_calm_row (Moves.refl.to_dataExpires k)⟩
  | retryTime t k => exact ⟨t, _, rfl, rfl, .of_calm_row (Moves.refl.to_retryComes k)⟩
  | lateStroke t k =>
    exact ⟨t, _, rfl, rfl, .of_calm_row (f := strokesLate k) (Moves.refl.to_modLink k _)⟩
  | heartbeatExpiry t k => exact ⟨t, _, rfl, rfl, .of_calm_row (Moves.refl.to_heartbeatExpires k)⟩
  | silenceWatchExpiry t k => exact ⟨t, _, rfl, rfl, .of_calm_row (Moves.refl.to_silenceExpires k)⟩
  | loopbackFrameTimer t k => exact ⟨t, _, rfl, rfl, .of_calm_row (Moves.refl.to_loopbackSend k)⟩
  | loopbackFrameAssembled t k bs =>
    exact ⟨t, _, rfl, rfl, .of_calm_row (f := fun s => afterLoopback k (loopbackTake k bs s))
      ((Moves.refl.to_loopbackTake k bs).to_afterLoopback k _)⟩
  | loopbackFrameTimeout t k =>
    exact ⟨t, _, rfl, rfl, .of_calm_row (f := fun s => afterLoopback k (loopbackLate k s))
      ((Moves.refl.to_loopbackLate k).to_afterLoopback k _)⟩
  | boxTimeTick t =>
    exact ⟨t, _, rfl, rfl, .of_calm_row Moves.refl.to_takeTick⟩
  | signatureCheckDue t => exact ⟨t, _, rfl, rfl, .of_calm_row Moves.refl.to_signatureDue⟩
  | converterCheckDue t => exact ⟨t, _, rfl, rfl, .of_calm_row Moves.refl.to_converterDue⟩
  | linkCharacterReceived t k c => exact ⟨t, _, rfl, rfl, .of_calm_row (Moves.refl.to_receiveChar k c)⟩
  | hostByteReceived t b => exact ⟨t, _, rfl, rfl, .of_calm_row (Moves.refl.to_receiveByte b)⟩


/-! ### The end counts (R15) -/

theorem modAt_congr {α : Type} {l : List α} {d : α} {k : Nat} {f g : α → α} (h : f (nth l d k) = g (nth l d k)) :
    modAt l d k f = modAt l d k g := congrArg (put l k) h

/-- A circuit with its foreign end count advanced; at 10 an active cause has ended. -/
def Circuit.foreignAdvanced (c : Circuit) : Circuit :=
  { c with foreignActive := c.foreignActive && decide (c.foreignEnd < 9), foreignEnd := min (c.foreignEnd + 1) 10 }

/-- A circuit with its overlevel end count advanced; at 10 an active cause has ended. -/
def Circuit.overAdvanced (c : Circuit) : Circuit :=
  { c with overActive := c.overActive && decide (c.overEnd < 9), overEnd := min (c.overEnd + 1) 10 }

theorem ends_at_ten {active : Bool} {n : Nat} :
    (active && decide (n < 9)) = if active = true ∧ min (n + 1) 10 = 10 then false else active := by
  cases active
  · simp
  · have : min (n + 1) 10 = 10 ↔ ¬ n < 9 := by omega
    by_cases few : n < 9 <;> simp [few, this]

theorem latchRecord_circuits (c : Nat) (subject : Option Nat) (s : State) :
    (latchRecord c subject s).circuits = s.circuits := (leaves_latchRecord c subject s).circuits_eq

theorem advanceForeign_circuits (k : Nat) (s : State) :
    (advanceForeign k s).circuits = modAt s.circuits {} k Circuit.foreignAdvanced := by
  simp only [advanceForeign, endCause_latches 2 _ (by decide)]
  split
  · next ends =>
    rw [latchRecord_circuits, State.modCircuit_circuits]
    refine modAt_congr ?_
    simp_all [Circuit.foreignAdvanced, ends_at_ten, State.circuit]
  · next goes_on =>
    rw [State.modCircuit_circuits]
    refine modAt_congr ?_
    simp_all [Circuit.foreignAdvanced, ends_at_ten, State.circuit]

theorem advanceOver_circuits (k : Nat) (s : State) :
    (advanceOver k s).circuits = modAt s.circuits {} k Circuit.overAdvanced := by
  simp only [advanceOver, endCause_latches 3 _ (by decide)]
  split
  · next ends =>
    rw [latchRecord_circuits, State.modCircuit_circuits]
    refine modAt_congr ?_
    simp_all [Circuit.overAdvanced, ends_at_ten, State.circuit]
  · next goes_on =>
    rw [State.modCircuit_circuits]
    refine modAt_congr ?_
    simp_all [Circuit.overAdvanced, ends_at_ten, State.circuit]

/-! ### The pulse that takes a circuit to CLEAR -/

variable {k j a level : Nat} {p : Pulse} {t : Time}

/-- What R12 and R13 ask of circuit `k` for a pulse of a level to take it to CLEAR. -/
structure PicksUp (s : State) (k level : Nat) : Prop where
  occupied : (s.circuit k).state = .occupied
  reached : (trackCfg s k).pickup ≤ level
  picks : (trackCfg s k).pickupCount ≤ min ((s.circuit k).g + 1) 15
    ∧ (s.circuit k).occupiedSince.getD 0 + (trackCfg s k).minOccupancy * 100 ≤ s.now

/-- Circuit `k` was not CLEAR and is now. -/
structure Cleared (s u : State) (k : Nat) : Prop where
  before : (s.circuit k).state ≠ .clear
  now_clear : (u.circuit k).state = .clear

theorem Cleared.absurd {P : Prop} (h : Cleared s u k) (none_cleared : NoneCleared s u) : P :=
  False.elim (h.before (none_cleared.was_clear k h.now_clear))

theorem Cleared.drop_last {t : State} (h : Cleared s u k) (none_cleared : NoneCleared t u) : Cleared s t k :=
  ⟨h.before, none_cleared.was_clear k h.now_clear⟩

theorem Cleared.drop_first {t : State} (h : Cleared s u k) (none_cleared : NoneCleared s t) : Cleared t u k :=
  ⟨fun was => h.before (none_cleared.was_clear k was), h.now_clear⟩

theorem Cleared.of_enterClear (h : Cleared s (enterClear j level s) k) : k = j := by
  by_contra other
  have rest : Moves [.note, .circuit, .reload, .record, .evaluate, .hold, .timer, .inb, .outb]
      (s.modCircuit j fun c => { c with state := .clear, lavg := some level, bad := 0 }) (enterClear j level s) :=
    (Moves.refl.to_reloadTrack j).to_deliverTrack j _ _
  have kept := (h.drop_last (rest.noneCleared (by decide))).now_clear
  rw [State.circuit_modCircuit_other _ _ _ _ other] at kept
  exact h.before kept

/-- R12, R13: a GOOD pulse takes to CLEAR its own circuit alone, and that only by a pickup. -/
theorem Cleared.of_goodPulse (h : Cleared s (goodPulse j level s) k) : k = j ∧ PicksUp s j level := by
  simp only [goodPulse] at h
  split at h
  · split at h
    · exact h.absurd ((Moves.refl (ks := fallKinds)).to_enterOccupied j |>.noneCleared (by decide))
    · exact h.absurd (.trans (.modCircuit (by exact id))
        ((Moves.refl (ks := raiseKinds)).to_marginTest j |>.noneCleared (by decide)))
  · next occupied =>
    split at h
    · exact h.absurd (.modCircuit id)
    · next reached =>
      split at h
      · next picks =>
        have entered := (h.drop_last ((Moves.refl (ks := raiseKinds)).to_marginTest j |>.noneCleared
          (by decide))).drop_first
            (t := s.modCircuit j fun c => { c with g := min ((s.circuit j).g + 1) 15 }) (.modCircuit id)
        exact ⟨entered.of_enterClear, occupied, Nat.le_of_not_lt reached, picks⟩
      · exact h.absurd (.modCircuit id)
  · exact h.absurd (.refl s)

/-- The state in which the state machine takes a GOOD pulse of amplitude `a` that is no overlevel pulse. -/
def beforeGoodPulse (k a : Nat) (s : State) : State :=
  advanceOver k (advanceForeign k
    (s.modCircuit k fun c => { c with bad := 0, lastL := some (levelOf a (trackCfg s k).aref) }))

theorem moves_beforeGoodPulse (k a : Nat) (s : State) :
    Moves [.note, .circuit, .faults] s (beforeGoodPulse k a s) := by
  unfold beforeGoodPulse
  refine Moves.to_advanceOver k (Moves.to_advanceForeign k (Moves.to_modCircuit k _ .refl ?_))
  have bound := levelOf_le a (trackCfg s k).aref
  refine ⟨fun sound => ?_, rfl⟩
  obtain ⟨g, -, foreign, overlevel, -, smoothed⟩ := sound
  exact ⟨g, Nat.zero_le _, foreign, overlevel, fun l h => Option.some.inj h ▸ bound, smoothed⟩

theorem goodPeriodPulse_of_le (h : levelOf a (trackCfg s k).aref ≤ (trackCfg s k).overLevel) :
    goodPeriodPulse k a s = goodPulse k (levelOf a (trackCfg s k).aref) (beforeGoodPulse k a s) := by
  simp only [goodPeriodPulse, if_neg (Nat.not_lt.2 h)]
  rfl

/-- What the pickup is taken from. -/
theorem PicksUp.congr (h : PicksUp u k level) (store : u.store = s.store) (now : u.now = s.now)
    (same : (u.circuit k).state = (s.circuit k).state ∧ (u.circuit k).g = (s.circuit k).g
      ∧ (u.circuit k).occupiedSince = (s.circuit k).occupiedSince) : PicksUp s k level := by
  obtain ⟨occupied, reached, picks⟩ := h
  obtain ⟨state, g, since⟩ := same
  have cfg : trackCfg u k = trackCfg s k := by rw [trackCfg, State.tables, store, trackCfg, State.tables]
  rw [cfg] at reached picks
  rw [g, since, now] at picks
  exact ⟨state.symm.trans occupied, reached, picks⟩

theorem PicksUp.of_beforeGoodPulse (h : PicksUp (beforeGoodPulse k a s) k level) : PicksUp s k level := by
  have moved := moves_beforeGoodPulse k a s
  have now : (beforeGoodPulse k a s).now = s.now := moved.untouched.2.2.2 (by decide)
  refine h.congr (moved.exactly .store) now ?_
  simp only [beforeGoodPulse, State.circuit, advanceOver_circuits, advanceForeign_circuits, nth_modAt,
    State.modCircuit_circuits, length_modAt, true_and]
  split <;> simp [Circuit.overAdvanced, Circuit.foreignAdvanced]

theorem Cleared.of_goodPeriodPulse (h : Cleared s (goodPeriodPulse j a s) k) :
    k = j ∧ levelOf a (trackCfg s j).aref ≤ (trackCfg s j).overLevel
      ∧ PicksUp s j (levelOf a (trackCfg s j).aref) := by
  by_cases within_range : levelOf a (trackCfg s j).aref ≤ (trackCfg s j).overLevel
  · rw [goodPeriodPulse_of_le within_range] at h
    obtain ⟨own, picks⟩ := (h.drop_first ((moves_beforeGoodPulse j a s).noneCleared (by decide))).of_goodPulse
    exact ⟨own, within_range, picks.of_beforeGoodPulse⟩
  · simp only [goodPeriodPulse, if_pos (Nat.lt_of_not_le within_range)] at h
    exact h.absurd (.trans (.trans (.modCircuit (by exact id))
      ((Moves.refl (ks := fallKinds)).to_advanceForeign j |>.noneCleared (by decide)))
      ((Moves.refl (ks := raiseKinds)).to_overlevelPulse j |>.noneCleared (by decide)))

/-- The circuit of a pulse, with the pulse's period and amplitude taken (section 1.1). -/
def Circuit.measured (p : Pulse) (a : Nat) (c : Circuit) : Circuit := { c with lastP := p.period, lastA := some a }

theorem classifyPulse_eq (k a : Nat) (p : Pulse) (s : State) :
    classifyPulse k a p s
      = match classify p.period (trackCfg s k).pnom ((trackCfg s k).neighbours.map fun n => (trackCfg s n).pnom) with
        | .first => (s.modCircuit k (Circuit.measured p a)).modCircuit k fun c => { c with bad := 0 }
        | .good => goodPeriodPulse k a (s.modCircuit k (Circuit.measured p a))
        | .foreign =>
          foreignPulse k ((s.modCircuit k (Circuit.measured p a)).modCircuit k fun c => { c with bad := 0 })
        | .badPeriod => badPeriodPulse k (s.modCircuit k (Circuit.measured p a)) := rfl

theorem noneCleared_measured (k a : Nat) (p : Pulse) (s : State) :
    NoneCleared s (s.modCircuit k (Circuit.measured p a)) := .modCircuit id

/-- What it takes for the pulse of circuit `k`, of amplitude `a`, to take it to CLEAR (R7, R12, R13). -/
structure ClearingPulse (s : State) (k a : Nat) (p : Pulse) : Prop where
  good : classify p.period (trackCfg s k).pnom ((trackCfg s k).neighbours.map fun n => (trackCfg s n).pnom) = .good
  in_range : levelOf a (trackCfg s k).aref ≤ (trackCfg s k).overLevel
  picks : PicksUp s k (levelOf a (trackCfg s k).aref)

theorem Cleared.of_classifyPulse (h : Cleared s (classifyPulse j a p s) k) : k = j ∧ ClearingPulse s j a p := by
  rw [classifyPulse_eq] at h
  split at h
  · exact h.absurd ((noneCleared_measured j a p s).trans (.modCircuit id))
  · next good =>
    obtain ⟨own, in_range, picks⟩ := (h.drop_first (noneCleared_measured j a p s)).of_goodPeriodPulse
    refine ⟨own, good, in_range, picks.congr rfl rfl ?_⟩
    rw [State.circuit_modCircuit]
    split <;> exact ⟨rfl, rfl, rfl⟩
  · exact h.absurd (((noneCleared_measured j a p s).trans (.modCircuit (by exact id))).trans
      ((Moves.refl (ks := raiseKinds)).to_foreignPulse j |>.noneCleared (by decide)))
  · exact h.absurd ((noneCleared_measured j a p s).trans
      ((Moves.refl (ks := fallKinds)).to_badPeriodPulse j |>.noneCleared (by decide)))

/-! ### The row -/

/-- The state in which a pulse of circuit `k` is taken: the converter has gone on, and the pulse is no longer
awaited. -/
def pulseTaken (k : Nat) (s : State) : State :=
  (s.modConverter Converter.finish).modCircuit k fun c => { c with pulse := none }

theorem pulseConverted_of_pulse (busy : s.converter.busy = some (.pulse k)) (awaited : (s.circuit k).pulse = some p) :
    pulseConverted a s
      = startWiring k (learnPulse k a p
          (when (trackRuns (pulseTaken k s) k) (classifyPulse k a p) (pulseTaken k s))) := by
  simp only [pulseConverted, busy, awaited]
  rfl

theorem pulseConverted_of_none (busy : s.converter.busy = some (.pulse k)) (awaited : (s.circuit k).pulse = none) :
    pulseConverted a s = pulseTaken k s := by
  simp only [pulseConverted, busy, awaited]
  rfl

theorem pulseConverted_of_other (busy : ∀ k, s.converter.busy ≠ some (.pulse k)) : pulseConverted a s = s := by
  unfold pulseConverted
  split
  · next k eq => exact absurd eq (busy k)
  · rfl

theorem noneCleared_pulseTaken (k : Nat) (s : State) : NoneCleared s (pulseTaken k s) :=
  NoneCleared.trans (t := s.modConverter Converter.finish) (.of_eq rfl) (.modCircuit id)

theorem ClearingPulse.of_pulseTaken (h : ClearingPulse (pulseTaken k s) k a p) : ClearingPulse s k a p := by
  obtain ⟨good, in_range, picks⟩ := h
  refine ⟨good, in_range, picks.congr rfl rfl ?_⟩
  rw [pulseTaken, State.circuit_modCircuit]
  split <;> exact ⟨rfl, rfl, rfl⟩

theorem Cleared.of_pulseConverted (h : Cleared s (pulseConverted a s) k) :
    s.converter.busy = some (.pulse k) ∧ ∃ p, (s.circuit k).pulse = some p ∧ ClearingPulse s k a p := by
  by_cases busy : ∃ j, s.converter.busy = some (.pulse j)
  · obtain ⟨j, busy⟩ := busy
    cases awaited : (s.circuit j).pulse with
    | none =>
      rw [pulseConverted_of_none busy awaited] at h
      exact h.absurd (noneCleared_pulseTaken j s)
    | some p =>
      rw [pulseConverted_of_pulse busy awaited] at h
      have h := ((h.drop_last ((Moves.refl (ks := [.circuit])).to_startWiring j |>.noneCleared (by decide))).drop_last
        ((Moves.refl (ks := [.note, .circuit, .store])).to_learnPulse j a p |>.noneCleared (by decide))).drop_first
        (noneCleared_pulseTaken j s)
      cases runs : trackRuns (pulseTaken j s) j with
      | false =>
        rw [runs] at h
        exact h.absurd (.refl _)
      | true =>
        rw [runs] at h
        obtain ⟨rfl, clearing⟩ := h.of_classifyPulse
        exact ⟨busy, p, awaited, clearing.of_pulseTaken⟩
  · rw [pulseConverted_of_other (not_exists.1 busy)] at h
    exact h.absurd (.refl s)

theorem noneCleared_finish (s : State) : NoneCleared s (finish s) :=
  (Moves.refl (ks := finishKinds)).to_finish.noneCleared (by decide)

/-- A start has every circuit DISABLED, and its moves take none to CLEAR. -/
theorem not_clear_of_runStart {stored : Option Stored} {r : Register} {tickAt : Int} {f : Faults}
    (started : Moves runKinds (freshState s stored r tickAt f) u) : ((finish u).circuit k).state ≠ .clear := by
  intro is_clear
  have fresh := (started.noneCleared (by decide)).was_clear k ((noneCleared_finish u).was_clear k is_clear)
  refine absurd fresh (nth_all (p := fun c : Circuit => c.state ≠ .clear) (fun c mem => ?_) (by decide) k)
  obtain rfl := List.eq_of_mem_replicate mem
  decide

/-- No row but the end of a pulse's conversion takes a circuit to CLEAR. -/
theorem Cleared.exec_pulse {i : Instr} (h : Cleared s u k) (next : exec i s = .next u) :
    ∃ t a, i = .pulseEndConversionComplete t a := by
  by_contra other
  have other : ∀ t a, i ≠ .pulseEndConversionComplete t a := fun t a eq => other ⟨t, a, eq⟩
  by_cases timed : i.time = none
  · obtain rfl | rfl := (show Laws.TimedRows.Statement i by
      cases i with
      | powerUpReset => exact Laws.TimedRows.powerUpReset
      | warmStart => exact Laws.TimedRows.warmStart
      | _ => exact Laws.timed rfl).1 timed
    · obtain rfl : finish (powerUp s) = u := Host.Outcome.next.inj next
      obtain ⟨f, started, -⟩ := powerUp_moves s
      exact not_clear_of_runStart started h.now_clear
    · obtain rfl : warmStartIfDue s = u := Host.Outcome.next.inj next
      unfold warmStartIfDue at h
      split at h
      · next cause _ => exact not_clear_of_runStart (warmStart_moves cause s) h.now_clear
      · exact h.absurd (.refl s)
  · obtain ⟨t, v, -, hv, moved⟩ := exec_calm_moves i timed other s
    cases hv.symm.trans next
    have came : Moves (.time :: batchKinds) s (s.comeTo t) := Moves.refl.to_comeTo t
    exact h.absurd ((came.noneCleared (by decide)).trans (moved.noneCleared (by decide)))

theorem finish_pulseConverted_now (t : Time) (a : Nat) (s : State) :
    (finish (pulseConverted a (s.atTime t))).now = max s.now t := by
  have moved : Moves (.converter :: .transmit :: .bell :: pulseKinds) (s.atTime t) (finish (pulseConverted a (s.atTime t))) :=
    (Moves.to_pulseConverted a .refl).to_finish
  exact moved.untouched.2.2.2 (by decide)

/-- What the row does that takes a circuit to CLEAR. -/
theorem Cleared.of_pulse_row (h : Cleared s u k) (prompt : s.Prompt (.pulseEndConversionComplete t a))
    (next : exec (.pulseEndConversionComplete t a) s = .next u) :
    u.now = max s.now t ∧ s.converter.busy = some (.pulse k) ∧ ∃ p, (s.circuit k).pulse = some p
      ∧ ClearingPulse (s.atTime t) k (min a 4095) p := by
  have next : finish (pulseConverted (min a fullScale) (s.comeTo t)) = u := Host.Outcome.next.inj next
  rw [comeTo_of_prompt (prompt.imp_right fun h => h t rfl)] at next
  subst next
  have h : Cleared (s.atTime t) (pulseConverted (min a fullScale) (s.atTime t)) k :=
    (h.drop_first (t := s.atTime t) (.of_eq rfl)).drop_last (noneCleared_finish _)
  exact ⟨finish_pulseConverted_now t _ s, h.of_pulseConverted⟩

/-- Settles O11: the kinds of the moves leave one row, and in its effect one branch of the state machine. -/
theorem clearIsEnteredOnlyByPickup : Obligations.ClearIsEnteredOnlyByPickup := by
  unfold Obligations.ClearIsEnteredOnlyByPickup
  intro s u k prompt stepped is_clear was_not
  unfold step at stepped
  split at stepped
  · cases stepped
    exact Cleared.absurd ⟨was_not, is_clear⟩ ((idle_moves s).noneCleared (by decide))
  · next i rest waiting =>
    have cleared : Cleared { s with pending := rest } u k := ⟨was_not, is_clear⟩
    obtain ⟨t, a, rfl⟩ := cleared.exec_pulse stepped
    obtain ⟨now, busy, p, awaited, good, in_range, occupied, reached, picks⟩ :=
      cleared.of_pulse_row (prompt _ rest waiting) stepped
    refine ⟨occupied, t, a, rest, p, s.tables.track k, levelOf (min a 4095) (s.tables.track k).aref, waiting, busy,
      awaited, rfl, rfl, good, reached, in_range, picks.1, now, ?_⟩
    rw [now]
    exact picks.2

end Sys2Proof.Machine
end

section
/-! The mode and the reactions SUSPEND (R166, R167, R182): SERVICE is entered where none stands, and a cause that
begins with SUSPEND ends it. -/

set_option Elab.async false

namespace Sys2Proof.Machine

variable {s u : State} {ks : List Kind}

/-! ### Rows by their results -/

@[simp] theorem finish_circuit (h : s.Undisputed) (k : Nat) : (finish s).circuit k = s.circuit k := by
  rw [State.circuit, finish_circuits h, State.circuit]
@[simp] theorem finish_board (h : s.Undisputed) (k : Nat) : (finish s).board k = s.board k := by
  rw [State.board, finish_boards h, State.board]
@[simp] theorem finish_lever (h : s.Undisputed) (k : Nat) : (finish s).lever k = s.lever k := by
  rw [State.lever, finish_levers h, State.lever]
@[simp] theorem finish_instrument (h : s.Undisputed) (k : Nat) : (finish s).instrument k = s.instrument k := by
  rw [State.instrument, finish_instruments h, State.instrument]
@[simp] theorem finish_hold (h : s.Undisputed) (k : Nat) : (finish s).hold k = s.hold k := by
  rw [State.hold, finish_holds h, State.hold]
@[simp] theorem finish_inb (h : s.Undisputed) (k : Nat) : (finish s).inb k = s.inb k := by
  rw [State.inb, finish_inbound h, State.inb]

/-- Moves that do not set the running time leave it. -/
theorem Moves.now_eq (h : Moves ks s u) (away : .time ∉ ks := by decide) : u.now = s.now := h.untouched.2.2.2 away

/-- A row whose effect, taken at the row's running time, is the state `v`. -/
theorem Takes.of_result {i : Instr} {ks : List Kind} {ps : List Part} {P : State → Prop} {t : Time} {v : State}
    {f : State → State} (row : exec i s = .next (finish (f (s.comeTo t)))) (time : i.time = some t)
    (undisputed : s.Undisputed) (effect : f (s.atTime t) = v) (moves : Moves ks (s.atTime t) v)
    (holds : v.Undisputed → v.now = max s.now t → P (finish v))
    (parts : ∀ k ∈ ks, ∀ q ∈ k.main, q ∈ ps := by decide)
    (lasting : Kind.stage ∉ ks ∧ .begin ∉ ks ∧ .time ∉ ks := by decide)
    (stored : Part.store ∈ ps ∨ (Kind.store ∉ ks ∧ .tables ∉ ks ∧ .jobs ∉ ks) := by decide)
    (quiet : (∃ p ∈ ps, p.silent = false) ∨ ∀ k ∈ ks, Part.transmitter ∉ k.parts := by decide) :
    Takes i s ps P := by
  have agreed : v.Undisputed := moves.undisputed undisputed
  have now : v.now = max s.now t := moves.now_eq lasting.2.2
  subst effect
  exact Takes.of_row t row time moves agreed (holds agreed now) now parts ⟨lasting.1, lasting.2.1⟩ stored quiet

/-- A row that changes nothing but the running time. -/
theorem Takes.of_idle {i : Instr} {P : State → Prop} {t : Time} {f : State → State}
    (row : exec i s = .next (finish (f (s.comeTo t)))) (time : i.time = some t) (undisputed : s.Undisputed)
    (effect : f (s.atTime t) = s.atTime t) (holds : ∀ u, P u) : Takes i s [] P :=
  Takes.of_result (ks := []) row time undisputed effect .refl fun _ _ => holds _

/-! ### SUSPEND (R166) -/

/-- Whether the mode is SERVICE only where no record and no overflow record holds SUSPEND. -/
structure State.ServiceSafe (s : State) : Prop where
  none_stands : s.mode = some .service → s.faults.suspends = false

theorem Leaves.mode_eq {ps : List Part} (h : Leaves ps s u) (away : .mode ∉ ps := by decide) : u.mode = s.mode :=
  (h.2.2.2 .mode away).1

theorem State.ServiceSafe.of_eases (safe : s.ServiceSafe) (mode : u.mode = s.mode)
    (eases : s.faults.Eases u.faults) : u.ServiceSafe :=
  ⟨fun service => eases.2 (safe.none_stands (mode.symm.trans service))⟩

theorem serviceSafe_of_ne (h : s.mode ≠ some .service) : s.ServiceSafe := ⟨fun service => absurd service h⟩

theorem evaluateAll_mode (s : State) : (evaluateAll s).mode = s.mode := (leaves_evaluateAll s).mode_eq

theorem restrict_mode (m : Mode) (s : State) :
    (evaluateAll (endReleasesForMode (takeMode m s))).mode = some m := by
  rw [evaluateAll_mode, (leaves_endReleasesForMode _).mode_eq]
  rfl

/-- Moves of no kind `mode` leave the mode, and bring no SUSPEND. -/
theorem Moves.mode_and_eases (h : Moves ks s u) (away : .mode ∉ ks) :
    u.mode = s.mode ∧ s.faults.Eases u.faults := by
  induction h with
  | eval k _ _ ih =>
    obtain ⟨mode, eases⟩ := ih away
    exact ⟨(leaves_evaluate k _).mode_eq.trans mode, eases.trans (evaluate_eases k _)⟩
  | @relever _ _ s0 t k g _ _ noted _ _ ih =>
    obtain ⟨mode, eases⟩ := ih away
    have noted_mode : t.mode = s0.mode := (noted.exactly .mode).1.trans (leaves_changeLever k g s0).mode_eq
    have noted_faults : t.faults = s0.faults :=
      Eq.trans (noted.exactly .faults) (leaves_changeLever k g s0).faults_eq
    refine ⟨(leaves_evaluate k _).mode_eq.trans (noted_mode.trans mode), eases.trans ?_⟩
    rw [← noted_faults]
    exact evaluate_eases k t
  | faults g _ g_eases _ ih =>
    obtain ⟨mode, eases⟩ := ih away
    exact ⟨mode, eases.trans g_eases⟩
  | cause c subject mem => exact absurd (mem .mode (by decide)) away
  | restrict m mem => exact absurd mem away
  | serve m mem => exact absurd mem away
  | refl => exact ⟨rfl, id, id⟩
  | _ =>
    rename_i ih
    exact ih away

/-- An occurrence whose reaction is not SUSPEND brings none. -/
theorem countOccurrence_suspends {c : Nat} {subject : Option Nat} (none_stands : s.faults.suspends = false)
    (other : (occurrence s c subject).reaction ≠ .suspend) :
    (countOccurrence c subject s).faults.suspends = false := by
  simp only [occurrence] at other
  simp only [Faults.suspends, Bool.or_eq_false_iff] at none_stands
  unfold countOccurrence
  split
  · refine (Faults.eases_update s.faults c subject _ ?_ ?_ ?_ ?_).2 (by simpa [Faults.suspends] using none_stands)
    · exact fun _ => rfl
    · exact fun _ => rfl
    · exact fun _ => rfl
    · exact fun r counted => ⟨show 1 ≤ min (r.count + 1) 255 by omega, Nat.min_le_right _ _⟩
  · next absent =>
    rw [absent] at other
    split
    · next fits =>
      rw [if_pos fits] at other
      simpa [Faults.suspends, newRecord, none_stands] using other
    · next full =>
      rw [if_neg full] at other
      have lower : higher s.faults.overflowReaction (reactionOf s c) ≠ .suspend := by
        unfold higher
        split
        · exact other
        · next eq =>
          split
          · exact other
          · simpa [eq] using none_stands.2
      simpa [Faults.suspends, none_stands] using lower

theorem State.ServiceSafe.cause {c : Nat} {subject : Option Nat} {t : State} (safe : s.ServiceSafe)
    (confined : Moves calmKinds
      (append (.faultRaised c subject (occurrence s c subject).reaction (occurrence s c subject).count)
        (countOccurrence c subject s)) t) : (suspendFor (occurrence s c subject) t).ServiceSafe := by
  obtain ⟨mode, eases⟩ := confined.mode_and_eases (by decide)
  have mode : t.mode = s.mode :=
    mode.trans ((leaves_append _ _).mode_eq.trans (leaves_countOccurrence c subject s).mode_eq)
  unfold suspendFor
  split
  · exact serviceSafe_of_ne (by rw [restrict_mode]; nofun)
  · next goes_on =>
    refine ⟨fun service => eases.2 ?_⟩
    have other : (occurrence s c subject).reaction ≠ .suspend := fun suspend =>
      goes_on (by simp [suspend, State.inService, service])
    exact countOccurrence_suspends (safe.none_stands (mode.symm.trans service)) other

theorem Moves.serviceSafe (h : Moves ks s u) (safe : s.ServiceSafe) : u.ServiceSafe := by
  induction h with
  | eval k _ _ ih => exact (ih safe).of_eases (leaves_evaluate k _).mode_eq (evaluate_eases k _)
  | relever k g _ _ _ _ noted ih =>
    have changed := (ih safe).of_eases (leaves_changeLever k g _).mode_eq
      ((leaves_changeLever k g _).faults_eq ▸ ⟨id, id⟩)
    exact (noted changed).of_eases (leaves_evaluate k _).mode_eq (evaluate_eases k _)
  | faults g _ eases _ ih => exact (ih safe).of_eases rfl eases
  | cause c subject _ confined _ _ ih => exact (ih safe).cause confined
  | restrict m _ other _ _ => exact serviceSafe_of_ne (by rw [restrict_mode]; simpa using other)
  | @serve _ _ s0 m _ allowed _ _ =>
    refine ⟨fun service => (serve_eases m s0).2 (allowed ?_)⟩
    rw [evaluateAll_mode] at service
    exact Option.some.inj service
  | refl => exact safe
  | _ =>
    rename_i ih
    exact ⟨(ih safe).none_stands⟩

theorem serviceSafe_stepInvariant : StepInvariant State.ServiceSafe where
  of_moves := Moves.serviceSafe
  freshPowerUp _ _ := serviceSafe_of_ne nofun
  freshWarmStart _ _ _ := serviceSafe_of_ne nofun
  dequeue _ _ safe := ⟨safe.none_stands⟩

/-! ### Evaluations on a part with nothing disputed -/

theorem evaluate_faults (k : Nat) (undisputed : s.Undisputed) : (evaluate k s).faults = s.faults := by
  have stands : (s.lever k).mismatch = false :=
    (nth_all (p := fun l : Lever => l.mismatch = false ∧ l.mismatchDue = false) undisputed ⟨rfl, rfl⟩ k).1
  simp only [evaluate, stands, Bool.and_false, when_false]
  exact (leaves_changeLever k _ s).faults_eq

theorem evaluateAll_faults (undisputed : s.Undisputed) : (evaluateAll s).faults = s.faults :=
  (evaluateAll_keeps (I := fun t => t.Undisputed ∧ t.faults = s.faults)
    (fun k _ ⟨agreed, same⟩ => ⟨evaluate_undisputed k agreed, (evaluate_faults k agreed).trans same⟩)
    ⟨undisputed, rfl⟩).2

/-! ### The end of a start (R167, R182) -/

theorem moves_after_evaluateAll (m : Mode) (s : State) :
    Moves [.note, .inb, .link] (evaluateAll (enterMode m { s with start := none })) (endStart m s) :=
  (Moves.refl.to_evalAllCoils).to_when _ fun _ => Moves.refl.to_modeToLinks

theorem endStart_start (m : Mode) (s : State) : (endStart m s).start = none :=
  (((moves_after_evaluateAll m s).exactly .mode).2).trans ((leaves_evaluateAll _).2.2.2 .mode (by decide)).2

theorem endStart_mode (m : Mode) (s : State) : (endStart m s).mode = some m :=
  (((moves_after_evaluateAll m s).exactly .mode).1).trans (evaluateAll_mode _)

theorem endStart_register (m : Mode) (s : State) :
    (endStart m s).register = s.register.append (.mode s.mode m) :=
  Eq.trans ((moves_after_evaluateAll m s).exactly .register) ((leaves_evaluateAll _).2.2.2 .register (by decide))

theorem endStart_circuits (m : Mode) (s : State) : (endStart m s).circuits = s.circuits :=
  Eq.trans ((moves_after_evaluateAll m s).exactly .tracks) (leaves_evaluateAll _).circuits_eq

theorem endStart_faults (m : Mode) (undisputed : s.Undisputed) : (endStart m s).faults = s.faults :=
  Eq.trans ((moves_after_evaluateAll m s).exactly .faults)
    (evaluateAll_faults (s := enterMode m { s with start := none }) undisputed)

/-- R19: the first wiring test of an enabled circuit is a PULL-UP, due one interval later. -/
def Circuit.scheduled (interval : Nat) (now : Time) (c : Circuit) : Circuit :=
  { c with nextWiring := some (now + interval * 1000), wiringKind := .pullUp }

/-- Circuits scheduled one after the other. -/
def scheduleWiring (ns : List Nat) (s : State) : State :=
  forEach ns (fun k s => s.modCircuit k (Circuit.scheduled (trackCfg s k).wiringInterval s.now)) s

theorem scheduleWiring_cons (n : Nat) (ns : List Nat) (s : State) :
    scheduleWiring (n :: ns) s
      = scheduleWiring ns (s.modCircuit n (Circuit.scheduled (trackCfg s n).wiringInterval s.now)) := rfl

theorem moves_scheduleWiring (ns : List Nat) (s : State) : Moves [.circuit] s (scheduleWiring ns s) :=
  Moves.refl.to_forEach ns fun k _ => Moves.refl.to_modCircuit k _

theorem scheduleWiring_circuit {ns : List Nat} (once : ns.Nodup) (k : Nat) (s : State) :
    (scheduleWiring ns s).circuit k
      = if k ∈ ns ∧ within k s.circuits.length = true then
          (s.circuit k).scheduled (trackCfg s k).wiringInterval s.now else s.circuit k := by
  induction ns generalizing s with
  | nil => simp [scheduleWiring]
  | cons n ns ih =>
    obtain ⟨absent, once⟩ := List.nodup_cons.1 once
    rw [scheduleWiring_cons, ih once, State.circuit_modCircuit]
    by_cases same : k = n
    · subst same
      simp [absent]
    · simp only [same, false_and, if_false, List.mem_cons, false_or, State.modCircuit_circuits, length_modAt]
      rfl

theorem testsFinished_eq (s : State) :
    testsFinished s
      = endStart (if suspendStands s = true then .suspended else .service)
          ((scheduleWiring (circuitsOn s) s).modFaults fun f =>
            { f with signatureAt := some (s.now + 10000), converterAt := some (s.now + 5000) }) := by
  have moved := moves_scheduleWiring (circuitsOn s) s
  have faults : (scheduleWiring (circuitsOn s) s).faults = s.faults := moved.exactly .faults
  have now : (scheduleWiring (circuitsOn s) s).now = s.now := moved.now_eq
  rw [suspendStands, ← faults, ← now]
  rfl

theorem circuitsOn_nodup (s : State) : (circuitsOn s).Nodup :=
  (List.nodup_range' (step := 1)).filter _

theorem mem_circuitsOn {k : Nat} : k ∈ circuitsOn s ↔ within k 24 = true ∧ (s.circuit k).state ≠ .disabled := by
  simp [circuitsOn, mem_upTo]

/-- R167, R182: what the end of the start-up tests makes of each record. -/
theorem testsFinished_spec {m : Mode} (undisputed : s.Undisputed) (length : s.circuits.length = 24)
    (mode : m = if suspendStands s = true then .suspended else .service) :
    (testsFinished s).start = none ∧ (testsFinished s).mode = some m
      ∧ (testsFinished s).register = s.register.append (.mode s.mode m)
      ∧ (testsFinished s).faults
        = { s.faults with signatureAt := some (s.now + 10000), converterAt := some (s.now + 5000) }
      ∧ ∀ k, within k 24 = true → (testsFinished s).circuit k = if (s.circuit k).state = .disabled then s.circuit k
          else (s.circuit k).scheduled (s.tables.track k).wiringInterval s.now := by
  subst mode
  have moved := moves_scheduleWiring (circuitsOn s) s
  rw [testsFinished_eq]
  refine ⟨endStart_start .., endStart_mode .., ?_, ?_, fun k inside => ?_⟩
  · rw [endStart_register]
    exact congrArg₂ _ (moved.exactly .register) (congrArg (Event.mode · _) (moved.exactly .mode).1)
  · have faults : (scheduleWiring (circuitsOn s) s).faults = s.faults := moved.exactly .faults
    refine Eq.trans (endStart_faults _ (moved.undisputed undisputed)) ?_
    rw [State.modFaults_faults, faults]
  · rw [State.circuit, endStart_circuits]
    refine (scheduleWiring_circuit (circuitsOn_nodup s) k s).trans ?_
    simp only [mem_circuitsOn, length]
    by_cases off : (s.circuit k).state = .disabled <;> simp [off, inside, trackCfg]

/-! ### The links of a start (R167) -/

/-- Whether a link of a start waits for its loopback test. -/
def State.waitsForTest (s : State) (k : Nat) : Bool := s.linkOn k && (s.link k).state == .loopback

theorem not_waitsForTest {k : Nat} (h : s.linkOn k = false ∨ (s.link k).state ≠ .loopback) :
    s.waitsForTest k = false := by
  rcases h with h | h <;> simp [State.waitsForTest, h]

theorem startLinks_eq_find? (ns : List Nat) (s : State) :
    startLinks ns s
      = match ns.find? s.waitsForTest with
        | none => testsFinished s
        | some k => beginLoopback k .start { s with start := some (.link k) } := by
  induction ns with
  | nil => rfl
  | cons n ns ih =>
    rw [startLinks, List.find?_cons]
    change (if s.waitsForTest n = true then _ else _) = _
    cases s.waitsForTest n
    · exact ih
    · rfl

theorem startLinks_of_none {ns : List Nat}
    (none_waits : ∀ k ∈ ns, s.linkOn k = false ∨ (s.link k).state ≠ .loopback) :
    startLinks ns s = testsFinished s := by
  have absent : ns.find? s.waitsForTest = none :=
    List.find?_eq_none.2 fun k mem => by simp [not_waitsForTest (none_waits k mem)]
  rw [startLinks_eq_find?, absent]

theorem startLinks_of_first {ns : List Nat} {k : Nat} (ascending : ns.Pairwise (· < ·)) (mem : k ∈ ns)
    (on : s.linkOn k = true) (waits : (s.link k).state = .loopback)
    (first : ∀ i ∈ ns, i < k → s.linkOn i = false ∨ (s.link i).state ≠ .loopback) :
    startLinks ns s = beginLoopback k .start { s with start := some (.link k) } := by
  have found : ns.find? s.waitsForTest = some k := by
    obtain ⟨before, after, rfl⟩ := List.append_of_mem mem
    have lower : ∀ i ∈ before, i < k := fun i held =>
      (List.pairwise_append.1 ascending).2.2 i held k List.mem_cons_self
    rw [List.find?_append, List.find?_eq_none.2, Option.none_or, List.find?_cons_of_pos]
    · simp [State.waitsForTest, on, waits]
    · intro i held
      simp [not_waitsForTest (first i (List.mem_append_left _ held) (lower i held))]
  rw [startLinks_eq_find?, found]

theorem upTo_ascending (n : Nat) : (upTo n).Pairwise (· < ·) := List.pairwise_lt_range'

theorem mem_later {i j : Nat} : i ∈ (upTo 3).filter (fun i => decide (j < i)) ↔ within i 3 = true ∧ j < i := by
  simp [mem_upTo]

theorem beginLoopback_link {k : Nat} (inside : within k s.links.length = true) :
    (beginLoopback k .start s).link k
      = { s.link k with
          state := .loopback, retryAt := none, heartbeatAt := none, answer := none, sending := none, toDeliver := []
          assembling := none, loopback := some { purpose := .start, startAt := some (s.now + 20) } } :=
  State.link_modLink_same s k _ inside

/-! ### The converter test of a start -/

theorem evaluatorTest_passes : evaluatorTest = true := by decide +kernel

theorem startAfterConverter_eq (s : State) : startAfterConverter s = startLinks (upTo 3) s := by
  simp [startAfterConverter, testEvaluators, evaluatorTest_passes]

/-- The converter after the high reference of a start, the low one's result taken. -/
def Converter.testEnded (rest : List (ConverterTest × Bool)) (c : Converter) : Converter :=
  { c.finish with lowResults := rest }

theorem Converter.next_lowResults (c : Converter) : c.next.lowResults = c.lowResults := by
  unfold next
  split
  · rfl
  · split <;> rfl

theorem Converter.finish_lowResults (c : Converter) : c.finish.lowResults = c.lowResults := next_lowResults _

variable {test : ConverterTest} {rest : List (ConverterTest × Bool)} {n k : Nat} {t : Time}

/-- R167: a high reference in its range ends a test whose low one passed, and with no cause active nothing but
the converter changes before what follows the test. -/
theorem referenceConverted_of_passed (busy : s.converter.busy = some (.reference true test))
    (low : s.converter.lowResults = (test, true) :: rest) (least : 3056 ≤ n) (most : n ≤ 3088)
    (inactive : s.faults.converterActive = false) :
    referenceConverted n s = afterConverterTest test true (s.modConverter (Converter.testEnded rest)) := by
  have kept : { s.faults with converterActive := false } = s.faults := by rw [← inactive]
  have passes : referencePasses true n = true := by simp [referencePasses, inRange, least, most]
  simp only [referenceConverted, busy, State.modConverter, Converter.finish_lowResults, low, takeLow, passes,
    endConverterCheck, inactive, State.modFaults]
  simp [kept, Converter.testEnded]

theorem min_fullScale (h : n ≤ 4095) : min n fullScale = n := Nat.min_eq_left h

/-- Settles O13: `Moves.serviceSafe` for the modes, `testsFinished_spec` and the search of `startLinks` for the end
of a start. -/
theorem noSuspendStandsInService : Obligations.NoSuspendStandsInService := by
  unfold Obligations.NoSuspendStandsInService
  refine ⟨fun s u safe stepped => (serviceSafe_stepInvariant.keeps_step ⟨safe⟩ stepped).none_stands, ?_, ?_, ?_⟩
  · rintro s u m undisputed length rfl mode
    exact testsFinished_spec undisputed length mode
  · refine fun s j length => ⟨fun none_waits => ?_, fun k inside later on waits first => ?_⟩
    · exact startLinks_of_none fun k mem => none_waits k (mem_later.1 mem).1 (mem_later.1 mem).2
    · have found : startAfterLink j s = beginLoopback k .start { s with start := some (.link k) } := by
        refine startLinks_of_first ((upTo_ascending 3).filter _) (mem_later.2 ⟨inside, later⟩) on waits ?_
        intro i mem lower
        obtain ⟨i_inside, i_later⟩ := mem_later.1 mem
        exact first i i_inside i_later lower
      have link := beginLoopback_link (s := { s with start := some (.link k) }) (k := k) (by rwa [length])
      rw [found]
      exact ⟨rfl, congrArg Link.state link, congrArg Link.loopback link, rfl⟩
  · intro s t n rest undisputed circuits links busy low least most inactive
    have range : min n fullScale = n := min_fullScale (by omega)
    have ended : referenceConverted (min n fullScale) (s.atTime t)
        = startLinks (upTo 3) ((s.atTime t).modConverter (Converter.testEnded rest)) := by
      rw [range, referenceConverted_of_passed (s := s.atTime t) busy low least most inactive]
      exact startAfterConverter_eq _
    refine ⟨fun none_waits => ?_, fun k inside on waits first => ?_⟩
    · have finished : startLinks (upTo 3) ((s.atTime t).modConverter (Converter.testEnded rest))
          = testsFinished ((s.atTime t).modConverter (Converter.testEnded rest)) :=
        startLinks_of_none fun k mem => none_waits k (mem_upTo.1 mem)
      obtain ⟨start, mode, -, faults, -⟩ := testsFinished_spec
        (s := (s.atTime t).modConverter (Converter.testEnded rest)) undisputed circuits rfl
      refine Takes.of_result (ks := .converter :: startKinds) (f := referenceConverted (min n fullScale)) rfl rfl
        undisputed (ended.trans finished) ((Moves.refl.to_modConverter _).to_testsFinished) ?_
      intro agreed _
      rw [finish_start agreed, finish_mode agreed, finish_faults agreed, start, mode, faults]
      exact ⟨rfl, rfl, rfl, rfl⟩
    · have found := startLinks_of_first (s := (s.atTime t).modConverter (Converter.testEnded rest))
        (upTo_ascending 3) (mem_upTo.2 inside) on waits fun i mem => first i (mem_upTo.1 mem)
      refine Takes.of_result (ks := [.converter, .start, .link]) (f := referenceConverted (min n fullScale)) rfl rfl
        undisputed (ended.trans found)
        (Moves.to_beginLoopback k .start (.start _ (by decide) (Moves.refl.to_modConverter _))) ?_
      intro agreed _
      have link := beginLoopback_link (k := k) (by rwa [← links] at inside)
        (s := { (s.atTime t).modConverter (Converter.testEnded rest) with start := some (.link k) })
      refine ⟨finish_start agreed, finish_mode agreed, fun j other => ?_, ?_⟩
      · rw [finish_link agreed]
        exact congrArg Link.kept (State.link_modLink_other _ _ _ _ other)
      · exact (congrArg Link.loopback (finish_link agreed k)).trans (congrArg Link.loopback link)

end Sys2Proof.Machine
end

section
/-! Steps and the reset (R177, R181, R182, log entries 1, 2 and 42). -/

set_option Elab.async false

namespace Sys2Proof.Machine

variable {s u : State} {i : Instr} {t : Time}

/-! ### The queue and the turns before a row -/

theorem idle_of_turnDue_none (h : turnDue s = none) : idle s = s := by simp only [idle, h]

/-- A turn is due only while a batch executes, awaits nothing, and no warm start is due. -/
theorem turnDue_eq_none (h : s.host.executing = none ∨ s.host.warm ≠ none
    ∨ ∃ b, s.host.executing = some b ∧ b.awaited ≠ none) : turnDue s = none := by
  unfold turnDue
  split
  · rfl
  · next no_warm =>
    rcases h with h | h | ⟨b, h, awaited⟩
    · rw [h]; rfl
    · simp [Option.ne_none_iff_isSome.1 h] at no_warm
    · simp [h, Option.filter, Option.isNone_iff_eq_none, awaited]

/-- Every row with a running time is taken at the state that comes to it, and depends on no other. -/
theorem exec_comeTo (time : i.time = some t) (s : State) : exec i s = exec i (s.comeTo t) := by
  cases i with
  | powerUpReset => cases time
  | warmStart => cases time
  | _ =>
    cases time
    conv =>
      lhs
      whnf
    conv =>
      rhs
      whnf
    simp only [commandRow, comeTo_comeTo]

theorem takeTurns_of_turnsLeft_pos {n : Nat} (h : 0 < n) (s : State) : takeTurns n s = takeTurns (n - 1) (idle s) := by
  obtain ⟨m, rfl⟩ : ∃ m, n = m + 1 := ⟨n - 1, by omega⟩
  rfl

theorem turnsLeft_pos (h : turnDue s ≠ none) : 0 < turnsLeft s := by
  have executes : s.host.executing ≠ none := fun none_executes => h (turnDue_eq_none (.inl none_executes))
  obtain ⟨b, executes⟩ := Option.ne_none_iff_exists'.1 executes
  simp only [turnsLeft, executes, Option.map_some, Option.getD_some]
  omega

/-- Settles O1: `step` by its two cases, and a row's state by the cases of `State.comeTo`. -/
theorem stepRunsTheFrontCommand : Obligations.StepRunsTheFrontCommand := by
  unfold Obligations.StepRunsTheFrontCommand
  refine fun s => ⟨fun c rest front => ?_, fun empty => ⟨?_, fun waits => ?_⟩, fun c t time =>
    ⟨exec_comeTo time s, comeTo_of_prompt, fun turn later => ⟨?_, ?_⟩⟩⟩
  · simp only [step, front]
  · simp only [step, empty]
  · simp only [step, empty]
    rw [idle_of_turnDue_none (turnDue_eq_none waits)]
  · rw [State.comeTo, if_pos later]
  · exact takeTurns_of_turnsLeft_pos (turnsLeft_pos turn) s

/-! ### The running time of a row -/

theorem takeTurns_now (n : Nat) (s : State) : (takeTurns n s).now = s.now :=
  Moves.now_eq (ks := batchKinds) (Moves.refl.to_takeTurns n)

theorem comeTo_now (s : State) (t : Time) : (s.comeTo t).now = max s.now t := by
  unfold State.comeTo
  split
  · exact congrArg (max · t) (takeTurns_now _ s)
  · rfl

theorem comeTo_pending (s : State) (t : Time) : (s.comeTo t).pending = s.pending :=
  (Moves.to_comeTo (ks := .time :: batchKinds) t .refl).untouched.2.1

theorem exec_keeps_queue_and_time {ks : List Kind} (time : i.time = some t) (next : exec i s = .next u)
    (moved : Moves ks (s.comeTo t) u) (away : .time ∉ ks := by decide) :
    ∃ u, exec i s = .next u ∧ u.pending = s.pending ∧ ∀ t, i.time = some t → u.now = max s.now t := by
  refine ⟨u, next, moved.untouched.2.1.trans (comeTo_pending s t), fun x hx => ?_⟩
  obtain rfl := Option.some.inj (time.symm.trans hx)
  exact (moved.now_eq away).trans (comeTo_now s t)

theorem finish_keeps_queue (s : State) : (finish s).pending = s.pending :=
  (Moves.to_finish (ks := finishKinds) .refl).untouched.2.1

theorem exec_timeless_keeps_queue (timeless : i.time = none) (s : State) :
    ∃ u, exec i s = .next u ∧ u.pending = s.pending := by
  cases i with
  | powerUpReset =>
    obtain ⟨f, started, pending⟩ := powerUp_moves s
    exact ⟨_, rfl, (finish_keeps_queue _).trans (started.untouched.2.1.trans pending)⟩
  | warmStart =>
    refine ⟨_, rfl, ?_⟩
    unfold warmStartIfDue
    split
    · next cause _ => exact (finish_keeps_queue _).trans (warmStart_moves cause s).untouched.2.1
    · rfl
  | _ => cases timeless

/-- Settles O2: every row is a chain of moves, and no kind of move touches the queue. -/
theorem everyRowAnswersANextState : Obligations.EveryRowAnswersANextState := by
  unfold Obligations.EveryRowAnswersANextState
  intro i s
  by_cases pulse : ∃ t a, i = .pulseEndConversionComplete t a
  · obtain ⟨t, a, rfl⟩ := pulse
    have moved : Moves (.clear :: calmRowKinds) (s.comeTo t) (pulseConverted (min a fullScale) (s.comeTo t)) :=
      Moves.refl.to_pulseConverted _
    exact exec_keeps_queue_and_time (ks := .clear :: calmRowKinds) rfl rfl moved.to_finish
  by_cases timeless : i.time = none
  · obtain ⟨u, next, pending⟩ := exec_timeless_keeps_queue timeless s
    exact ⟨u, next, pending, fun t time => by rw [timeless] at time; cases time⟩
  · obtain ⟨t, u, time, next, moved⟩ := exec_calm_moves i timeless (fun t a eq => pulse ⟨t, a, eq⟩) s
    exact exec_keeps_queue_and_time time next moved

/-! ### The state after reset (R182) -/

theorem coilAllowed_of_off {m : Mode} {l : Lever} (off : l.coil = false) : CoilAllowed m l :=
  fun on => absurd (off.symm.trans on) (by decide)

/-- Settles O4: the records of `State.reset` are those of a new part, and its register has two entries. -/
theorem resetStateKeepsEveryInvariant : Obligations.ResetStateKeepsEveryInvariant := by
  unfold Obligations.ResetStateKeepsEveryInvariant
  refine ⟨?_, by decide, by decide, fun c mem => ?_, by decide, fun l mem => ?_, rfl, by decide, fun l mem => ?_⟩
  · simp [Register.Sound, State.reset, Register.afterReset, Consecutive]
  · obtain rfl := List.eq_of_mem_replicate mem
    simp [Circuit.Sound]
  · obtain rfl := List.eq_of_mem_replicate mem
    exact ⟨rfl, rfl⟩
  · obtain rfl := List.eq_of_mem_replicate mem
    exact coilAllowed_of_off rfl

/-! ### A start with no image -/

/-- Whether the records that the end of a start evaluates are those of a new part, with no image in force. -/
structure State.Blank (s : State) : Prop where
  no_image : s.store.inForce = none
  levers : s.levers = List.replicate 64 {}
  instruments : s.instruments = List.replicate 3 {}
  inbound : s.inbound = List.replicate 3 {}
  links : s.links = List.replicate 3 {}

theorem nth_replicate {α : Type} (n : Nat) (d : α) (k : Nat) : nth (List.replicate n d) d k = d :=
  nth_all (p := (· = d)) (fun _ mem => List.eq_of_mem_replicate mem) rfl k

theorem State.Blank.lever (blank : s.Blank) (k : Nat) : s.lever k = {} := by
  rw [State.lever, blank.levers, nth_replicate]

theorem State.Blank.unconfigured (blank : s.Blank) : s.blockMode = .unconfigured := by
  simp [State.blockMode, blank.no_image]

theorem changeLever_self {k : Nat} {f : Lever → Lever} (h : f (s.lever k) = s.lever k) : changeLever k f s = s := by
  have kept : s.modLever k f = s := by rw [State.modLever, modAt_self s.levers {} k f h]
  simp [changeLever, kept]

/-- In UNCONFIGURED an evaluation leaves the lever of a new part as it is. -/
theorem State.Blank.evaluate (blank : s.Blank) (k : Nat) : evaluate k s = s := by
  have decision : decideLever s k = ⟨false, .mode, none, true⟩ := by simp [decideLever, blank.unconfigured]
  simp only [Machine.evaluate, decision, blank.unconfigured, blank.lever k]
  refine changeLever_self ?_
  rw [blank.lever k]
  rfl

theorem State.Blank.evaluateAll (blank : s.Blank) : evaluateAll s = s := by
  rw [Machine.evaluateAll]
  exact forEach_eq_self _ s fun k _ => blank.evaluate k

theorem State.Blank.evalAllCoils (blank : s.Blank) : evalAllCoils s = s := by
  refine forEach_eq_self _ s fun k _ => ?_
  have instrument : s.instrument k = {} := by rw [State.instrument, blank.instruments, nth_replicate]
  have inb : s.inb k = {} := by rw [State.inb, blank.inbound, nth_replicate]
  have off : coilsFor s k = {} := by
    simp only [coilsFor, inb]
    split <;> rfl
  have kept : s.modInb k (fun i => { i with coils := coilsFor s k }) = s := by
    rw [State.modInb, modAt_self s.inbound {} k _ (by rw [off]; exact congrArg (fun i : Inbound => { i with coils := {} }) inb |>.trans inb.symm)]
  simp [evalCoils, changeInb, kept]

theorem State.Blank.pumpLinks (blank : s.Blank) : forEach (upTo 3) pumpLink s = s := by
  refine forEach_eq_self _ s fun k _ => ?_
  have link : s.link k = {} := by rw [State.link, blank.links, nth_replicate]
  have no_bid : startBidding k s = s := by simp [startBidding, link]
  rw [pumpLink, no_bid, startFrame, link]
  rfl

theorem noneStaged_freshState (stored : Option Stored) (r : Register) (tickAt : Int) (f : Faults) :
    (freshState s stored r tickAt f).NoneStaged := by
  refine ⟨?_, ?_, ?_, ?_, ?_⟩ <;> intro x mem <;> obtain rfl := List.eq_of_mem_replicate mem <;> rfl

theorem endStart_of_blank {m : Mode} (other : m ≠ .service) (blank : (enterMode m { s with start := none }).Blank) :
    endStart m s = enterMode m { s with start := none } := by
  simp only [endStart, blank.evaluateAll, blank.evalAllCoils, beq_eq_false_iff_ne.2 other, when_false]

/-- The state in which the start of a part with no image ends (R182). -/
def startedBlank (s : State) : State :=
  enterMode .unconfigured
    { append (.reset .supply) (freshState s none {} 100 {}) with start := none }

theorem powerUp_of_no_image (no_image : s.store.stored = none) (no_write : s.store.jobs = []) :
    powerUp s = startedBlank s := by
  have stored : s.store.afterCut s.freeCount = none := by simp [Store.afterCut, no_write, no_image]
  simp only [powerUp, stored, no_write]
  exact endStart_of_blank (by decide) ⟨rfl, rfl, rfl, rfl, rfl⟩

/-- The entries and the notices of that start (R159, R180, R182). -/
theorem register_of_blank_start :
    (({} : Register).append (.reset .supply)).append (.mode none .unconfigured) = .afterReset := by decide +kernel

theorem host_of_blank_start {ns : List Notice}
    (raised : ns = addNotice .mode (Mode.bit .unconfigured)
      (addNotice .register (maskBit 15 ||| 0) (addNotice .register (maskBit 16 ||| 0) []))) :
    chooseFrame true { notices := ns } = .afterReset := by
  subst raised
  decide +kernel

/-- Settles O3: the start of a blank part enters UNCONFIGURED, and its blocks have nothing to evaluate. -/
theorem powerUpWithNoImageGivesTheResetState : Obligations.PowerUpWithNoImageGivesTheResetState := by
  unfold Obligations.PowerUpWithNoImageGivesTheResetState
  intro s no_image no_write
  have blank : (startedBlank s).Blank := ⟨rfl, rfl, rfl, rfl, rfl⟩
  have agreed : (startedBlank s).Undisputed := undisputed_freshState (s := s) none {} 100 {}
  have unstaged : (startedBlank s).NoneStaged := noneStaged_freshState (s := s) none {} 100 {}
  have finished : finish (startedBlank s) = kickHost (startedBlank s) := by
    rw [finish_of_noneStaged agreed unstaged, blank.pumpLinks]
  have kicked : kickHost (startedBlank s)
      = { pending := s.pending, freeCount := s.freeCount, mode := some .unconfigured
          register := .afterReset, host := .afterReset } := by
    rw [← register_of_blank_start, ← host_of_blank_start rfl]
    rfl
  refine congrArg Host.Outcome.next ?_
  rw [powerUp_of_no_image no_image no_write, finished, kicked]
  rfl

end Sys2Proof.Machine
end

section
/-! The rows of the track channels (R2 to R6, R19, R20). Each is settled by what its effect is in the case of each
clause, as a change of its own circuit's record. -/

set_option Elab.async false

namespace Sys2Proof.Machine

variable {s u v : State} {k : Nat} {t : Time} {i : Instr} {f : State → State} {g : Circuit → Circuit}

/-! ### A row that changes one circuit -/

/-- Two changes of one record are one. -/
theorem modAt_modAt {α : Type} (l : List α) (d : α) (k : Nat) (f g : α → α) :
    modAt (modAt l d k f) d k g = modAt l d k (g ∘ f) := by
  cases k with
  | zero => rfl
  | succ j =>
    by_cases inside : j < l.length
    · simp [modAt, put, nth, List.getD, inside]
    · simp [modAt, put, List.set_eq_of_length_le (Nat.le_of_not_lt inside)]

theorem modCircuit_modCircuit (s : State) (k : Nat) (f g : Circuit → Circuit) :
    (s.modCircuit k f).modCircuit k g = s.modCircuit k (g ∘ f) := by
  simp only [State.modCircuit, modAt_modAt]

theorem modCircuit_congr {f : Circuit → Circuit} (h : f (s.circuit k) = g (s.circuit k)) :
    s.modCircuit k f = s.modCircuit k g := by
  simp only [State.modCircuit, modAt_congr h]

theorem finish_own_circuit (agreed : v.Undisputed) (changed : v.circuits = modAt s.circuits {} k g)
    (here : within k s.circuits.length = true) : (finish v).circuit k = g (s.circuit k) := by
  rw [finish_circuit agreed, State.circuit, changed, nth_modAt, if_pos ⟨rfl, here⟩]
  rfl

theorem finish_other_circuits (agreed : v.Undisputed) (changed : v.circuits = modAt s.circuits {} k g) :
    OtherCircuits k s (finish v) := by
  intro j other
  rw [finish_circuit agreed, State.circuit, changed, nth_modAt, if_neg fun h => other h.1]
  rfl

/-- A row that changes the record of one circuit. -/
theorem Takes.of_circuit (row : exec i s = .next (finish (f (s.comeTo t)))) (time : i.time = some t)
    (undisputed : s.Undisputed) (here : within k s.circuits.length = true)
    (effect : f (s.atTime t) = (s.atTime t).modCircuit k g)
    (steady : Circuit.Steady (s.circuit k) (g (s.circuit k)) := by exact ⟨id, rfl⟩)
    (stages : (s.circuit k).staged = [] → (g (s.circuit k)).staged = [] := by exact id) :
    Takes i s [.tracks] fun u => u.circuit k = g (s.circuit k) ∧ OtherCircuits k s u :=
  Takes.of_result (ks := [.circuit]) (f := f) row time undisputed effect
    (Moves.refl.to_modCircuit k g steady (.inr stages)) fun agreed _ =>
      ⟨finish_own_circuit (s := s) (g := g) agreed rfl here, finish_other_circuits (s := s) (g := g) agreed rfl⟩

/-- A row that changes the record of one circuit, and the converter. -/
theorem Takes.of_circuit_and_converter {h : Converter → Converter}
    (row : exec i s = .next (finish (f (s.comeTo t)))) (time : i.time = some t) (undisputed : s.Undisputed)
    (here : within k s.circuits.length = true)
    (effect : f (s.atTime t) = ((s.atTime t).modCircuit k g).modConverter h)
    (steady : Circuit.Steady (s.circuit k) (g (s.circuit k)) := by exact ⟨id, rfl⟩)
    (stages : (s.circuit k).staged = [] → (g (s.circuit k)).staged = [] := by exact id) :
    Takes i s [.tracks, .converter] fun u =>
      u.circuit k = g (s.circuit k) ∧ OtherCircuits k s u ∧ u.converter = h s.converter :=
  Takes.of_result (ks := [.circuit, .converter]) (f := f) row time undisputed effect
    (((Moves.refl (ks := [.circuit, .converter]) (s := s.atTime t)).to_modCircuit k g steady (.inr stages)).to_modConverter h) fun agreed _ =>
      ⟨finish_own_circuit (s := s) (g := g) agreed rfl here, finish_other_circuits (s := s) (g := g) agreed rfl,
        finish_converter agreed⟩

theorem inside_of_length (inside : within k 24 = true) (length : s.circuits.length = 24) :
    within k s.circuits.length = true := by rwa [length]

/-! ### Rising edges (R2, R20) -/

theorem pulseRises_of_above (above : (s.circuit k).above = true) : pulseRises k s = s := by
  simp [pulseRises, above]

theorem pulseRises_of_below (inside : within k 24 = true) (below : (s.circuit k).above = false) :
    pulseRises k s
      = abandonWiring k (s.modCircuit k fun c => { c with above := true, candidate := some s.now }) := by
  simp [pulseRises, isCircuit, inside, below]

theorem abandonWiring_of_closed (closed : (s.circuit k).wiringOpen = false) : abandonWiring k s = s := by
  simp [abandonWiring, closed]

theorem abandonWiring_of_open (is_open : (s.circuit k).wiringOpen = true) :
    abandonWiring k s
      = (s.modCircuit k fun c => { c with wiringOpen := false, loadEnd := none }).modConverter
          fun v => v.dropWiring k := by
  simp [abandonWiring, is_open]

/-- A candidate opens while no wiring test is open. -/
theorem pulseRises_of_closed (inside : within k 24 = true) (here : within k s.circuits.length = true)
    (below : (s.circuit k).above = false) (closed : (s.circuit k).wiringOpen = false) :
    pulseRises k s = s.modCircuit k fun c => { c with above := true, candidate := some s.now } := by
  rw [pulseRises_of_below inside below, abandonWiring_of_closed]
  rw [State.circuit_modCircuit_same _ _ _ here]
  exact closed

/-- A candidate that opens while a wiring test is open abandons the test. -/
theorem pulseRises_of_open (inside : within k 24 = true) (here : within k s.circuits.length = true)
    (below : (s.circuit k).above = false) (is_open : (s.circuit k).wiringOpen = true) :
    pulseRises k s
      = (s.modCircuit k fun c =>
          { c with above := true, candidate := some s.now, wiringOpen := false, loadEnd := none }).modConverter
          fun v => v.dropWiring k := by
  rw [pulseRises_of_below inside below, abandonWiring_of_open, modCircuit_modCircuit]
  · rfl
  · rw [State.circuit_modCircuit_same _ _ _ here]
    exact is_open

/-- Settles O22: the branches of `pulseRises` and of `abandonWiring`. -/
theorem risingEdgeOpensACandidate : Obligations.RisingEdgeOpensACandidate := by
  unfold Obligations.RisingEdgeOpensACandidate
  intro s t k undisputed inside length
  have here := inside_of_length inside length
  refine ⟨fun above => ?_, fun below closed => ?_, fun below is_open => ?_⟩
  · exact Takes.of_idle (f := pulseRises k) rfl rfl undisputed (pulseRises_of_above above) fun _ => trivial
  · exact Takes.of_circuit (f := pulseRises k) rfl rfl undisputed here
      (pulseRises_of_closed (s := s.atTime t) inside here below closed)
  · refine (Takes.of_circuit_and_converter (f := pulseRises k) rfl rfl undisputed here
      (pulseRises_of_open (s := s.atTime t) inside here below is_open)).imp ?_
    rintro u ⟨own, others, converter⟩
    refine ⟨own, others, ?_⟩
    rw [converter]
    refine ⟨rfl, rfl, rfl, ?_⟩
    simp only [Converter.dropWiring]
    split <;> simp_all

/-! ### Losses of code (R5, R11) -/

theorem startWiring_of_not_due (not_due : ∀ w, (s.circuit k).nextWiring = some w → s.now < w) :
    startWiring k s = s := by
  refine if_neg fun ⟨_, _, due⟩ => ?_
  obtain ⟨w, next, reached⟩ := (Option.any_eq_true _ _).1 due
  exact absurd (of_decide_eq_true reached) (Nat.not_le.2 (not_due w next))

/-- A circuit's record after a loss of code, but for its state and its good count (R5). -/
def Circuit.lost (c : Circuit) : Circuit :=
  { c with previousRise := none, bad := 0, foreignEnd := 0, overEnd := 0, codeLostAt := none }

theorem takeCodeLost_eq (k : Nat) (s : State) :
    takeCodeLost k s = startWiring k (codeLoss k (s.modCircuit k Circuit.lost)) := rfl

theorem codeLoss_of_clear (clear : (s.circuit k).state = .clear) : codeLoss k s = enterOccupied k s := by
  simp [codeLoss, clear]

theorem codeLoss_of_occupied (occupied : (s.circuit k).state = .occupied) :
    codeLoss k s = s.modCircuit k fun c => { c with g := 0 } := by
  simp [codeLoss, occupied]

theorem codeLoss_of_failed (failed : (s.circuit k).state = .failed) : codeLoss k s = s := by
  simp [codeLoss, failed]

/-- Whether a loss of code waits for the open candidate to prove noise (R5). -/
def lossWaited (s : State) (k : Nat) : Bool :=
  match (s.circuit k).candidate, (s.circuit k).codeLostAt with
  | some r, some t => decide (r ≤ t) && decide (t ≤ s.now)
  | _, _ => false

theorem discardCandidate_eq (k : Nat) (s : State) :
    discardCandidate k s
      = when (lossWaited s k) (takeCodeLost k) (s.modCircuit k fun c => { c with candidate := none }) := rfl

theorem discardCandidate_of_no_loss {r : Time} (candidate : (s.circuit k).candidate = some r)
    (no_loss : ∀ e, (s.circuit k).codeLostAt = some e → e < r ∨ s.now < e) :
    discardCandidate k s = s.modCircuit k fun c => { c with candidate := none } := by
  have waited : lossWaited s k = false := by
    unfold lossWaited
    rw [candidate]
    cases expiry : (s.circuit k).codeLostAt with
    | none => rfl
    | some e =>
      simp only [Bool.and_eq_false_iff, decide_eq_false_iff_not]
      exact (no_loss e expiry).imp Nat.not_le.2 Nat.not_le.2
  rw [discardCandidate_eq, waited]
  rfl

/-! ### Falling edges (R3 to R5) -/

theorem pulseFalls_of_none (candidate : (s.circuit k).candidate = none) :
    pulseFalls k s = s.modCircuit k fun c => { c with above := false } := by
  simp only [pulseFalls, candidate]

theorem pulseFalls_of_some {r : Time} (candidate : (s.circuit k).candidate = some r) :
    pulseFalls k s
      = if s.now < r + 20 ∨ r + 1000 < s.now then
          discardCandidate k (s.modCircuit k fun c => { c with above := false })
        else acceptCandidate k r (s.modCircuit k fun c => { c with above := false }) := by
  simp only [pulseFalls, candidate]
  rfl

theorem pulseFalls_of_short {r : Time} (here : within k s.circuits.length = true)
    (candidate : (s.circuit k).candidate = some r) (short : s.now < r + 20)
    (no_loss : ∀ e, (s.circuit k).codeLostAt = some e → e < r ∨ s.now < e) :
    pulseFalls k s = s.modCircuit k fun c => { c with above := false, candidate := none } := by
  rw [pulseFalls_of_some candidate, if_pos (.inl short), discardCandidate_of_no_loss (r := r),
    modCircuit_modCircuit]
  · rfl
  all_goals rw [State.circuit_modCircuit_same _ _ _ here]
  · exact candidate
  · exact no_loss

/-- A circuit's record after its candidate, which rose at `r`, has been accepted (R3 to R5). -/
def Circuit.accepted (cfg : TrackCfg) (r : Time) (c : Circuit) : Circuit :=
  { c with
    above := false, candidate := none, previousRise := some r
    codeLostAt := if c.state = .disabled then none else some (r + codeLostTime cfg)
    pulse := if c.state = .disabled ∧ c.learning = none then c.pulse
      else some ⟨r, c.previousRise.map (r - ·)⟩ }

/-- An accepted candidate: its conversion is requested where the circuit runs or learns. -/
theorem pulseFalls_of_accepted {r : Time} (here : within k s.circuits.length = true)
    (candidate : (s.circuit k).candidate = some r) (least : r + 20 ≤ s.now) (most : s.now ≤ r + 1000) :
    pulseFalls k s
      = when (!decide ((s.circuit k).state = .disabled ∧ (s.circuit k).learning = none))
          (·.modConverter fun v => v.request (.pulse k))
          (s.modCircuit k (Circuit.accepted (trackCfg s k) r)) := by
  have own := State.circuit_modCircuit_same s k (fun c => { c with above := false }) here
  have wanted : (trackRuns s k || (s.circuit k).learning.isSome)
      = !decide ((s.circuit k).state = .disabled ∧ (s.circuit k).learning = none) := by
    cases l : (s.circuit k).learning <;> by_cases off : (s.circuit k).state = .disabled <;>
      simp [trackRuns, off]
  rw [pulseFalls_of_some candidate, if_neg (not_or.2 ⟨Nat.not_lt.2 least, Nat.not_lt.2 most⟩)]
  simp only [acceptCandidate, modCircuit_modCircuit, trackRuns, own]
  rw [← trackRuns, wanted]
  refine congrArg _ (modCircuit_congr ?_)
  simp only [Function.comp, Circuit.accepted]
  by_cases off : (s.circuit k).state = .disabled <;> cases l : (s.circuit k).learning <;>
    simp [trackRuns, off, trackCfg]
  all_goals rfl

theorem candidateTimesOut_of_early (early : ∀ r, (s.circuit k).candidate = some r → s.now < r + 1000) :
    candidateTimesOut k s = s := by
  refine if_neg fun late => ?_
  obtain ⟨r, candidate, reached⟩ := (Option.any_eq_true _ _).1 late
  exact absurd (of_decide_eq_true reached) (Nat.not_le.2 (early r candidate))

theorem candidateTimesOut_of_late {r : Time} (candidate : (s.circuit k).candidate = some r)
    (late : r + 1000 ≤ s.now) : candidateTimesOut k s = discardCandidate k s := by
  simp [candidateTimesOut, candidate, late]

/-- Settles O23: the branches of `pulseFalls` and of `candidateTimesOut`. -/
theorem fallingEdgeDecidesTheCandidate : Obligations.FallingEdgeDecidesTheCandidate := by
  unfold Obligations.FallingEdgeDecidesTheCandidate
  intro s t k undisputed inside length
  have here := inside_of_length inside length
  refine ⟨fun none_open => ⟨?_, ?_⟩, fun r candidate => ⟨fun short no_loss => ?_, fun least most runs => ?_,
    fun least most off unlearned => ?_, fun late no_loss => ?_, fun early => ?_⟩⟩
  · exact Takes.of_circuit (f := pulseFalls k) rfl rfl undisputed here
      (pulseFalls_of_none (s := s.atTime t) none_open)
  · exact Takes.of_idle (f := candidateTimesOut k) rfl rfl undisputed
      (candidateTimesOut_of_early (s := s.atTime t) fun r held => by cases none_open.symm.trans held) fun _ => trivial
  · exact Takes.of_circuit (f := pulseFalls k) rfl rfl undisputed here
      (pulseFalls_of_short (s := s.atTime t) here candidate short no_loss)
  · have effect := pulseFalls_of_accepted (s := s.atTime t) here candidate least most
    rw [decide_eq_false fun h => runs h.1] at effect
    refine (Takes.of_circuit_and_converter (f := pulseFalls k) (g := Circuit.accepted (trackCfg s k) r)
      (h := (·.request (.pulse k))) rfl rfl undisputed here effect).imp ?_
    rintro u ⟨own, others, converter⟩
    refine ⟨own.trans ?_, others, converter⟩
    simp [Circuit.accepted, runs, codeLostTime, trackCfg]
  · have effect := pulseFalls_of_accepted (s := s.atTime t) here candidate least most
    rw [decide_eq_true ⟨off, unlearned⟩] at effect
    refine (Takes.of_circuit (f := pulseFalls k) (g := Circuit.accepted (trackCfg s k) r) rfl rfl undisputed here
      effect).imp ?_
    rintro u ⟨own, others⟩
    refine ⟨own.trans ?_, others⟩
    simp [Circuit.accepted, off, unlearned]
  · exact Takes.of_circuit (f := candidateTimesOut k) rfl rfl undisputed here
      ((candidateTimesOut_of_late (s := s.atTime t) candidate late).trans
        (discardCandidate_of_no_loss (s := s.atTime t) candidate no_loss))
  · refine Takes.of_idle (f := candidateTimesOut k) rfl rfl undisputed
      (candidateTimesOut_of_early (s := s.atTime t) fun q held => ?_) fun _ => trivial
    cases candidate.symm.trans held
    exact early

end Sys2Proof.Machine
end

section
/-! Losses of code and the ends of pulse conversions (R5, R7 to R17). -/

set_option Elab.async false

namespace Sys2Proof.Machine

variable {s u v w : State} {k a level : Nat} {t : Time} {p : Pulse} {i : Instr} {f : State → State}
  {g : Circuit → Circuit}

/-! ### Losses of code -/

theorem codeLostExpires_of_early {e : Time} (expiry : (s.circuit k).codeLostAt = some e) (early : s.now < e) :
    codeLostExpires k s = s := by
  have not_due : lossDue s k = false := by
    simp only [lossDue, expiry, Option.any_some, decide_eq_false_iff_not]
    exact Nat.not_le.2 early
  simp [codeLostExpires, not_due]

theorem codeLostExpires_of_open {r e : Time} (expiry : (s.circuit k).codeLostAt = some e)
    (candidate : (s.circuit k).candidate = some r) (rose : r ≤ e) : codeLostExpires k s = s := by
  have waits : lossWaits (s.circuit k) = true := by
    simp only [lossWaits, candidate, expiry]
    exact decide_eq_true rose
  simp [codeLostExpires, waits]

theorem codeLostExpires_of_due {e : Time} (expiry : (s.circuit k).codeLostAt = some e) (late : e ≤ s.now)
    (none_open : ∀ r, (s.circuit k).candidate = some r → e < r) : codeLostExpires k s = takeCodeLost k s := by
  have due : lossDue s k = true := by
    simp only [lossDue, expiry, Option.any_some]
    exact decide_eq_true late
  have acts : lossWaits (s.circuit k) = false := by
    unfold lossWaits
    rw [expiry]
    cases candidate : (s.circuit k).candidate with
    | none => rfl
    | some r => exact decide_eq_false (Nat.not_le.2 (none_open r candidate))
  simp [codeLostExpires, due, acts]

/-- No wiring test starts in a state whose circuit `k` was changed by `g`, if none was due before. -/
theorem startWiring_of_changed (here : within k s.circuits.length = true)
    (not_due : ∀ w, (s.circuit k).nextWiring = some w → s.now < w) (changed : v.circuits = modAt s.circuits {} k g)
    (now : v.now = s.now) (schedule : (g (s.circuit k)).nextWiring = (s.circuit k).nextWiring) :
    startWiring k v = v := by
  refine startWiring_of_not_due fun w next => ?_
  have own : v.circuit k = g (s.circuit k) := by
    rw [State.circuit, changed, nth_modAt, if_pos ⟨rfl, here⟩]
    rfl
  rw [now]
  exact not_due w (schedule ▸ own ▸ next)

theorem deliverTrack_circuits (k : Nat) (old new : TrackState) (s : State) :
    (deliverTrack k old new s).circuits = s.circuits :=
  ((Moves.refl (ks := deliverKinds)).to_deliverTrack k old new).exactly .tracks

/-- A circuit that enters OCCUPIED (R11). -/
def Circuit.dropped (now : Time) (c : Circuit) : Circuit :=
  { c with state := .occupied, g := 0, occupiedSince := some now }

/-- A circuit whose standing TRACK_MARGIN cause ends with its change of state (R18, R163). -/
def Circuit.marginEnded (c : Circuit) : Circuit :=
  if c.marginActive then { c with marginActive := false, confinement := dropSource 4 c.confinement } else c

theorem removeSelfClearing_circuits (c : Nat) (subject : Option Nat) (s : State) :
    (removeSelfClearing c subject s).circuits = s.circuits :=
  ((Moves.refl (ks := [.note, .record, .faults])).to_removeSelfClearing c subject).exactly .tracks

theorem endMargin_circuits (k : Nat) (s : State) :
    (endMargin k s).circuits = modAt s.circuits {} k Circuit.marginEnded := by
  unfold endMargin
  split
  · next active =>
    rw [State.modCircuit_circuits, removeSelfClearing_circuits]
    exact modAt_congr (if_pos active).symm
  · next inactive => exact (modAt_self _ _ _ _ (if_neg inactive)).symm

theorem enterOccupied_eq (k : Nat) (s : State) :
    enterOccupied k s
      = deliverTrack k (s.circuit k).state .occupied (endMargin k (s.modCircuit k (Circuit.dropped s.now))) := rfl

theorem enterOccupied_circuits (k : Nat) (s : State) :
    (enterOccupied k s).circuits = modAt s.circuits {} k (Circuit.marginEnded ∘ Circuit.dropped s.now) := by
  rw [enterOccupied_eq, deliverTrack_circuits, endMargin_circuits, State.modCircuit_circuits, modAt_modAt]

theorem enterOccupied_circuits_of_no_margin (no_margin : (s.circuit k).marginActive = false) :
    (enterOccupied k s).circuits = modAt s.circuits {} k (Circuit.dropped s.now) := by
  rw [enterOccupied_circuits]
  refine modAt_congr (if_neg ?_)
  change ¬ (s.circuit k).marginActive = true
  simp [no_margin]

theorem enterOccupied_now (k : Nat) (s : State) : (enterOccupied k s).now = s.now :=
  ((Moves.refl (ks := fallKinds)).to_enterOccupied k).now_eq

/-- R5, R12: in OCCUPIED a loss of code sets g to 0. -/
theorem takeCodeLost_of_occupied (here : within k s.circuits.length = true)
    (occupied : (s.circuit k).state = .occupied) (not_due : ∀ w, (s.circuit k).nextWiring = some w → s.now < w) :
    takeCodeLost k s = s.modCircuit k fun c => { c.lost with g := 0 } := by
  have lost := codeLoss_of_occupied (k := k) (s := s.modCircuit k Circuit.lost)
    (by rw [State.circuit_modCircuit_same _ _ _ here]; exact occupied)
  rw [takeCodeLost_eq, lost, modCircuit_modCircuit]
  exact startWiring_of_changed (s := s) (g := fun c => { c.lost with g := 0 }) here not_due rfl rfl rfl

theorem takeCodeLost_of_failed (here : within k s.circuits.length = true)
    (failed : (s.circuit k).state = .failed) (not_due : ∀ w, (s.circuit k).nextWiring = some w → s.now < w) :
    takeCodeLost k s = s.modCircuit k Circuit.lost := by
  rw [takeCodeLost_eq, codeLoss_of_failed]
  · exact startWiring_of_changed (s := s) (g := Circuit.lost) here not_due rfl rfl rfl
  · rw [State.circuit_modCircuit_same _ _ _ here]
    exact failed

/-- R5, R11: a loss of code drops a CLEAR circuit. -/
theorem takeCodeLost_of_clear (here : within k s.circuits.length = true) (clear : (s.circuit k).state = .clear)
    (no_margin : (s.circuit k).marginActive = false)
    (not_due : ∀ w, (s.circuit k).nextWiring = some w → s.now < w) :
    takeCodeLost k s = enterOccupied k (s.modCircuit k Circuit.lost)
      ∧ (takeCodeLost k s).circuits = modAt s.circuits {} k (Circuit.dropped s.now ∘ Circuit.lost) := by
  have own := State.circuit_modCircuit_same s k Circuit.lost here
  have changed : (enterOccupied k (s.modCircuit k Circuit.lost)).circuits
      = modAt s.circuits {} k (Circuit.dropped s.now ∘ Circuit.lost) := by
    rw [enterOccupied_circuits_of_no_margin (by rw [own]; exact no_margin), State.modCircuit_circuits, modAt_modAt]
    rfl
  have dropped : takeCodeLost k s = enterOccupied k (s.modCircuit k Circuit.lost) := by
    rw [takeCodeLost_eq, codeLoss_of_clear (by rw [own]; exact clear)]
    exact startWiring_of_changed here not_due changed (enterOccupied_now ..) rfl
  exact ⟨dropped, dropped ▸ changed⟩

/-- Settles O24: `codeLostExpires` acts or not, and `takeCodeLost` by the circuit's state. -/
theorem codeLostDropsAClearCircuit : Obligations.CodeLostDropsAClearCircuit := by
  unfold Obligations.CodeLostDropsAClearCircuit
  intro s t k e undisputed inside length expiry not_due
  have here := inside_of_length inside length
  refine ⟨fun early => ?_, fun r candidate rose => ?_, fun late none_open => ?_⟩
  · exact Takes.of_idle (f := codeLostExpires k) rfl rfl undisputed
      (codeLostExpires_of_early (s := s.atTime t) expiry early) fun _ => trivial
  · exact Takes.of_idle (f := codeLostExpires k) rfl rfl undisputed
      (codeLostExpires_of_open (s := s.atTime t) expiry candidate rose) fun _ => trivial
  · have acts := codeLostExpires_of_due (s := s.atTime t) expiry late none_open
    refine ⟨fun occupied => ?_, fun failed => ?_, fun clear no_margin => ?_⟩
    · exact Takes.of_circuit (f := codeLostExpires k) rfl rfl undisputed here
        (acts.trans (takeCodeLost_of_occupied (s := s.atTime t) here occupied not_due))
        ⟨fun ⟨_, _, _, _, rest⟩ => ⟨Nat.zero_le _, Nat.zero_le _, Nat.zero_le _, Nat.zero_le _, rest⟩, rfl⟩
    · exact Takes.of_circuit (f := codeLostExpires k) rfl rfl undisputed here
        (acts.trans (takeCodeLost_of_failed (s := s.atTime t) here failed not_due))
        ⟨fun ⟨g, _, _, _, rest⟩ => ⟨g, Nat.zero_le _, Nat.zero_le _, Nat.zero_le _, rest⟩, rfl⟩
    · obtain ⟨-, changed⟩ := takeCodeLost_of_clear (s := s.atTime t) here clear no_margin not_due
      exact Takes.of_result (ks := fallKinds) (f := codeLostExpires k) rfl rfl undisputed acts
        (Moves.refl.to_takeCodeLost k) fun agreed _ =>
          ⟨finish_own_circuit (s := s) agreed changed here, finish_other_circuits (s := s) agreed changed⟩

/-! ### Pulses that a circuit's record takes by itself (R7 to R17) -/

/-- A circuit with no pulse awaited. -/
def Circuit.withoutPulse (c : Circuit) : Circuit := { c with pulse := none }

theorem pulseTaken_own (here : within k s.circuits.length = true) :
    (pulseTaken k s).circuit k = (s.circuit k).withoutPulse :=
  State.circuit_modCircuit_same (s.modConverter Converter.finish) k _ here

theorem pulseTaken_here (here : within k s.circuits.length = true) :
    within k (pulseTaken k s).circuits.length = true := by
  rwa [pulseTaken, State.modCircuit_circuits, length_modAt]

theorem circuit_of_changed {l : List Circuit} (here : within k l.length = true)
    (changed : v.circuits = modAt l {} k g) : v.circuit k = g (nth l {} k) := by
  rw [State.circuit, changed, nth_modAt, if_pos ⟨rfl, here⟩]

/-- The pulse of a circuit that runs, with nothing learnt from it and no wiring test due, is taken by its class and
no more. -/
theorem pulseConverted_of_changed (here : within k s.circuits.length = true)
    (busy : s.converter.busy = some (.pulse k)) (awaited : (s.circuit k).pulse = some p)
    (unlearned : (s.circuit k).learning = none)
    (not_due : ∀ w, (s.circuit k).nextWiring = some w → s.now < w) (runs : (s.circuit k).state ≠ .disabled)
    (changed : (classifyPulse k a p (pulseTaken k s)).circuits = modAt (pulseTaken k s).circuits {} k g)
    (now : (classifyPulse k a p (pulseTaken k s)).now = s.now)
    (learning : (g (s.circuit k).withoutPulse).learning = (s.circuit k).learning)
    (schedule : (g (s.circuit k).withoutPulse).nextWiring = (s.circuit k).nextWiring) :
    pulseConverted a s = classifyPulse k a p (pulseTaken k s) := by
  have own := pulseTaken_own here
  have runs : trackRuns (pulseTaken k s) k = true := by
    rw [trackRuns, own]
    exact bne_iff_ne.2 runs
  have taken : (classifyPulse k a p (pulseTaken k s)).circuit k = g (s.circuit k).withoutPulse :=
    (circuit_of_changed (pulseTaken_here here) changed).trans (congrArg g own)
  have nothing_learnt : learnPulse k a p (classifyPulse k a p (pulseTaken k s)) = classifyPulse k a p (pulseTaken k s) := by
    rw [unlearned] at learning
    simp only [learnPulse, taken, learning]
  rw [pulseConverted_of_pulse busy awaited, runs, when_true, nothing_learnt]
  refine startWiring_of_not_due fun w next => ?_
  rw [now]
  rw [taken, schedule] at next
  exact not_due w next

/-- A row that ends the conversion of a pulse which its circuit's record takes by itself, with nothing learnt
from it and no wiring test due. -/
theorem Takes.of_pulse (undisputed : s.Undisputed) (here : within k s.circuits.length = true) (range : a ≤ 4095)
    (busy : s.converter.busy = some (.pulse k)) (awaited : (s.circuit k).pulse = some p)
    (unlearned : (s.circuit k).learning = none)
    (not_due : ∀ w, (s.circuit k).nextWiring = some w → max s.now t < w) (runs : (s.circuit k).state ≠ .disabled)
    (taken : classifyPulse k a p (pulseTaken k (s.atTime t)) = (pulseTaken k (s.atTime t)).modCircuit k g)
    (kept : (g (s.circuit k).withoutPulse).learning = (s.circuit k).learning
      ∧ (g (s.circuit k).withoutPulse).nextWiring = (s.circuit k).nextWiring
      ∧ (g (s.circuit k).withoutPulse).staged = (s.circuit k).staged := by exact ⟨rfl, rfl, rfl⟩)
    (steady : Circuit.Steady (s.circuit k) (g (s.circuit k).withoutPulse)) :
    Takes (.pulseEndConversionComplete t a) s [.tracks, .converter] fun u =>
      u.circuit k = g (s.circuit k).withoutPulse ∧ OtherCircuits k s u
        ∧ u.converter = s.converter.finish := by
  obtain ⟨learning, schedule, staged⟩ := kept
  have effect : pulseConverted (min a fullScale) (s.atTime t)
      = ((s.atTime t).modCircuit k (g ∘ Circuit.withoutPulse)).modConverter Converter.finish := by
    rw [min_fullScale range, pulseConverted_of_changed (s := s.atTime t) (g := g) here busy awaited unlearned not_due
      runs (by rw [taken]; rfl) (by rw [taken]; rfl) learning schedule, taken]
    exact modCircuit_modCircuit ((s.atTime t).modConverter Converter.finish) k _ g
  exact Takes.of_circuit_and_converter (f := pulseConverted (min a fullScale)) rfl rfl undisputed here effect steady
    fun none_staged => staged.trans none_staged

/-! ### The classes of pulse -/

theorem classifyPulse_of_first
    (first : classify p.period (trackCfg s k).pnom ((trackCfg s k).neighbours.map fun n => (trackCfg s n).pnom)
      = .first) :
    classifyPulse k a p s = s.modCircuit k fun c => { c with lastP := p.period, lastA := some a, bad := 0 } := by
  rw [classifyPulse_eq, first]
  exact modCircuit_modCircuit ..

theorem period_of_first {period : Option Nat} {pnom : Nat} {neighbours : List Nat}
    (first : classify period pnom neighbours = .first) : period = none := by
  unfold classify at first
  split at first
  · rfl
  · split at first
    · cases first
    · split at first <;> cases first

/-- R9: the first BAD_PERIOD pulse is held. -/
theorem badPeriodPulse_of_first (bad : (s.circuit k).bad ≠ 1) :
    badPeriodPulse k s = s.modCircuit k fun c =>
      { c with bad := 1, foreignEnd := 0, overEnd := 0, g := if c.state = .occupied then 0 else c.g } := by
  simp [badPeriodPulse, bad]

theorem classifyPulse_of_badPeriod (here : within k s.circuits.length = true) (held : (s.circuit k).bad = 0)
    (bad : classify p.period (trackCfg s k).pnom ((trackCfg s k).neighbours.map fun n => (trackCfg s n).pnom)
      = .badPeriod) :
    classifyPulse k a p s = s.modCircuit k fun c =>
      { c with lastP := p.period, lastA := some a, bad := 1, foreignEnd := 0, overEnd := 0
               g := if c.state = .occupied then 0 else c.g } := by
  rw [classifyPulse_eq, bad]
  dsimp only
  rw [badPeriodPulse_of_first, modCircuit_modCircuit]
  · rfl
  · rw [State.circuit_modCircuit_same _ _ _ here]
    simp [Circuit.measured, held]

theorem advanceForeign_of_inactive (inactive : (s.circuit k).foreignActive = false) :
    advanceForeign k s = s.modCircuit k fun c => { c with foreignEnd := min (c.foreignEnd + 1) 10 } := by
  simp only [advanceForeign, inactive]
  exact modCircuit_congr rfl

theorem advanceOver_of_inactive (inactive : (s.circuit k).overActive = false) :
    advanceOver k s = s.modCircuit k fun c => { c with overEnd := min (c.overEnd + 1) 10 } := by
  simp only [advanceOver, inactive]
  exact modCircuit_congr rfl

/-- A circuit's record as a GOOD pulse that is no overlevel pulse leaves it to the state machine, with no cause
active (R7, R10, R15). -/
def Circuit.counted (p : Pulse) (a level : Nat) (c : Circuit) : Circuit :=
  { c with
    lastP := p.period, lastA := some a, lastL := some level, bad := 0
    foreignEnd := min (c.foreignEnd + 1) 10, overEnd := min (c.overEnd + 1) 10 }

theorem classifyPulse_of_good (here : within k s.circuits.length = true)
    (good : classify p.period (trackCfg s k).pnom ((trackCfg s k).neighbours.map fun n => (trackCfg s n).pnom)
      = .good)
    (in_range : levelOf a (trackCfg s k).aref ≤ (trackCfg s k).overLevel)
    (no_foreign : (s.circuit k).foreignActive = false) (no_over : (s.circuit k).overActive = false) :
    classifyPulse k a p s
      = goodPulse k (levelOf a (trackCfg s k).aref)
          (s.modCircuit k (Circuit.counted p a (levelOf a (trackCfg s k).aref))) := by
  rw [classifyPulse_eq, good]
  dsimp only
  rw [goodPeriodPulse_of_le (s := s.modCircuit k (Circuit.measured p a)) in_range, beforeGoodPulse,
    modCircuit_modCircuit, advanceForeign_of_inactive, modCircuit_modCircuit, advanceOver_of_inactive,
    modCircuit_modCircuit]
  · rfl
  all_goals
    rw [State.circuit_modCircuit_same _ _ _ here]
    assumption

/-! ### The state machine on a GOOD pulse -/

theorem marginTest_of_held (inactive : (s.circuit k).marginActive = false)
    (held : ∀ v, (s.circuit k).lavg = some v → (trackCfg s k).margin ≤ v) : marginTest k s = s := by
  simp only [marginTest, inactive]
  split
  · rfl
  · next v smoothed => simp [Nat.not_lt.2 (held v smoothed)]

theorem goodPulse_of_held_clear (here : within k s.circuits.length = true) (clear : (s.circuit k).state = .clear)
    (least : (trackCfg s k).drop ≤ level) (inactive : (s.circuit k).marginActive = false)
    (held : ∀ v, (s.circuit k).lavg = some v → (trackCfg s k).margin ≤ smooth v level) :
    goodPulse k level s = s.modCircuit k fun c => { c with lavg := c.lavg.map (smooth · level) } := by
  have own := State.circuit_modCircuit_same s k (fun c => { c with lavg := c.lavg.map (smooth · level) }) here
  simp only [goodPulse, clear, Nat.not_lt.2 least, if_false]
  refine marginTest_of_held (by rw [own]; exact inactive) fun v smoothed => ?_
  rw [own] at smoothed
  obtain ⟨before, lavg, rfl⟩ := Option.map_eq_some_iff.1 smoothed
  exact held before lavg

/-- The run of a circuit that a GOOD pulse of a level leaves OCCUPIED (R12). -/
def Circuit.runOn (cfg : TrackCfg) (level : Nat) (c : Circuit) : Circuit :=
  { c with g := if cfg.pickup ≤ level then min (c.g + 1) 15 else 0 }

theorem goodPulse_of_held_occupied (occupied : (s.circuit k).state = .occupied)
    (held : (trackCfg s k).pickup ≤ level → min ((s.circuit k).g + 1) 15 < (trackCfg s k).pickupCount
      ∨ s.now < (s.circuit k).occupiedSince.getD 0 + (trackCfg s k).minOccupancy * 100) :
    goodPulse k level s = s.modCircuit k (Circuit.runOn (trackCfg s k) level) := by
  simp only [goodPulse, occupied]
  by_cases reached : (trackCfg s k).pickup ≤ level
  · have fails := not_and_or.2 ((held reached).imp Nat.not_le.2 Nat.not_le.2)
    simp only [if_neg (Nat.not_lt.2 reached)]
    refine (if_neg fails).trans (modCircuit_congr ?_)
    simp only [Circuit.runOn, if_pos reached]
  · simp only [if_pos (Nat.lt_of_not_le reached)]
    refine modCircuit_congr ?_
    simp only [Circuit.runOn, if_neg reached]

theorem goodPulse_of_failed (failed : (s.circuit k).state = .failed) : goodPulse k level s = s := by
  simp only [goodPulse, failed]

/-- The state machine's own change of the record of a circuit, as a GOOD pulse's. -/
theorem classifyPulse_of_good_held {m : Circuit → Circuit} (here : within k s.circuits.length = true)
    (good : classify p.period (trackCfg s k).pnom ((trackCfg s k).neighbours.map fun n => (trackCfg s n).pnom)
      = .good)
    (in_range : levelOf a (trackCfg s k).aref ≤ (trackCfg s k).overLevel)
    (no_foreign : (s.circuit k).foreignActive = false) (no_over : (s.circuit k).overActive = false)
    (machine : ∀ u, u.circuit k = (s.circuit k).counted p a (levelOf a (trackCfg s k).aref) → u.now = s.now →
      trackCfg u k = trackCfg s k → within k u.circuits.length = true →
      goodPulse k (levelOf a (trackCfg s k).aref) u = u.modCircuit k m) :
    classifyPulse k a p s
      = s.modCircuit k (m ∘ Circuit.counted p a (levelOf a (trackCfg s k).aref)) := by
  rw [classifyPulse_of_good here good in_range no_foreign no_over]
  refine (machine (s.modCircuit k (Circuit.counted p a (levelOf a (trackCfg s k).aref))) ?_ rfl rfl ?_).trans
    (modCircuit_modCircuit ..)
  · exact State.circuit_modCircuit_same _ _ _ here
  · rwa [State.modCircuit_circuits, length_modAt]

theorem steady_counted {c : Circuit} (bound : level ≤ 1999) :
    Circuit.Steady c (Circuit.counted p a level c.withoutPulse) :=
  ⟨fun ⟨g, _, _, _, _, smoothed⟩ => ⟨g, Nat.zero_le _, Nat.min_le_right _ _, Nat.min_le_right _ _,
    fun _ h => Option.some.inj h ▸ bound, smoothed⟩, rfl⟩

/-! ### Levels (R10, R17) -/

theorem smooth_eq_tdiv (lavg level : Nat) :
    (smooth lavg level : Int) = lavg + ((level : Int) - lavg).tdiv 8 := by
  unfold smooth
  split
  · rw [Int.tdiv_eq_ediv_of_nonneg (by omega)]
    omega
  · have falls : (level : Int) - lavg = -((lavg : Int) - level) := by omega
    rw [falls, Int.neg_tdiv, Int.tdiv_eq_ediv_of_nonneg (by omega)]
    omega

theorem smooth_between (lavg level : Nat) :
    min lavg level ≤ smooth lavg level ∧ smooth lavg level ≤ max lavg level := by
  unfold smooth
  split <;> omega

theorem levelOf_spec {a aref : Nat} (positive : 0 < aref) (few : a * 1000 < 2000 * aref) :
    aref * levelOf a aref ≤ a * 1000 ∧ a * 1000 < aref * (levelOf a aref + 1) := by
  have below : a * 1000 / aref < 2000 := (Nat.div_lt_iff_lt_mul positive).2 few
  have level : levelOf a aref = a * 1000 / aref := Nat.min_eq_left (Nat.le_of_lt_succ below)
  rw [level]
  exact ⟨Nat.mul_div_le _ _, Nat.lt_mul_div_succ _ positive⟩

/-- Settles O25: `Takes.of_pulse` with the class of the pulse and the branch of the state machine. -/
theorem pulseEndTakesThePulseByItsClass : Obligations.PulseEndTakesThePulseByItsClass := by
  unfold Obligations.PulseEndTakesThePulseByItsClass
  refine ⟨?_, smooth_eq_tdiv, smooth_between, fun a aref positive => ⟨levelOf_le a aref, levelOf_spec positive⟩⟩
  rintro s t k a p cls level c cfg undisputed inside length range rfl rfl busy awaited unlearned not_due runs
    no_foreign no_over no_margin rfl rfl in_range
  have here := inside_of_length inside length
  have own := pulseTaken_own (s := s.atTime t) here
  have there := pulseTaken_here (s := s.atTime t) here
  have bound := levelOf_le a (s.tables.track k).aref
  refine ⟨fun first => ?_, fun bad held => ?_, fun good clear least margin => ?_, fun good occupied held => ?_,
    fun good failed => ?_⟩
  · have taken := classifyPulse_of_first (a := a) (s := pulseTaken k (s.atTime t)) first
    rw [period_of_first first] at taken
    exact Takes.of_pulse undisputed here range busy awaited unlearned not_due runs taken
      (steady := ⟨fun ⟨g, _, rest⟩ => ⟨g, Nat.zero_le _, rest⟩, rfl⟩)
  · have taken := classifyPulse_of_badPeriod (a := a) (s := pulseTaken k (s.atTime t)) there
      (by rw [own]; exact held) bad
    refine Takes.of_pulse undisputed here range busy awaited unlearned not_due runs taken
      (steady := ⟨fun ⟨g, _, _, _, rest⟩ => ⟨?_, Nat.le_refl _, Nat.zero_le _, Nat.zero_le _, rest⟩, rfl⟩)
    dsimp only
    split
    · exact Nat.zero_le _
    · exact g
  · have taken := classifyPulse_of_good_held (a := a) (s := pulseTaken k (s.atTime t)) there good in_range
      (by rw [own]; exact no_foreign) (by rw [own]; exact no_over)
      fun u counted _ cfg inside => goodPulse_of_held_clear inside
        (by rw [counted, own]; exact clear) (by rw [cfg]; exact least) (by rw [counted, own]; exact no_margin)
        (by rw [counted, own, cfg]; exact margin)
    refine Takes.of_pulse undisputed here range busy awaited unlearned not_due runs taken (steady := ?_)
    refine ⟨fun sound => ?_, rfl⟩
    obtain ⟨g, bad, foreign, overlevel, last, smoothed⟩ := (steady_counted (p := p) (a := a) bound).1 sound
    refine ⟨g, bad, foreign, overlevel, last, fun l smoothed_to => ?_⟩
    obtain ⟨v, before, rfl⟩ := Option.map_eq_some_iff.1 smoothed_to
    exact smooth_le v _ (smoothed v before) bound
  · have taken := classifyPulse_of_good_held (a := a) (s := pulseTaken k (s.atTime t))
      (m := Circuit.runOn (s.tables.track k) (levelOf a (s.tables.track k).aref)) there good in_range
      (by rw [own]; exact no_foreign) (by rw [own]; exact no_over) fun u counted now cfg _ => by
        have machine := goodPulse_of_held_occupied (s := u) (level := levelOf a (s.tables.track k).aref)
          (by rw [counted, own]; exact occupied) (by rw [counted, own, cfg, now]; exact held)
        rw [cfg] at machine
        exact machine
    refine Takes.of_pulse undisputed here range busy awaited unlearned not_due runs taken (steady := ?_)
    refine ⟨fun sound => ?_, rfl⟩
    obtain ⟨g, rest⟩ := (steady_counted (p := p) (a := a) bound).1 sound
    refine ⟨?_, rest⟩
    dsimp only [Function.comp, Circuit.runOn]
    split
    · exact Nat.min_le_right _ _
    · exact Nat.zero_le _
  · have taken := classifyPulse_of_good_held (m := id) (a := a) (s := pulseTaken k (s.atTime t)) there good in_range
      (by rw [own]; exact no_foreign) (by rw [own]; exact no_over)
      fun u counted _ _ _ => (goodPulse_of_failed (by rw [counted, own]; exact failed)).trans
        (by rw [State.modCircuit, modAt_self _ _ _ _ rfl])
    exact Takes.of_pulse undisputed here range busy awaited unlearned not_due runs taken
      (steady := steady_counted bound)

end Sys2Proof.Machine
end

section
/-! Wiring tests, reference conversions and the choice of the converter (R6, R19 to R21, R167). -/

set_option Elab.async false

namespace Sys2Proof.Machine

variable {s : State} {k n : Nat} {t : Time} {i : Instr} {f : State → State}

/-! ### The converter's choice (R6) -/

theorem chooseConversion_eq_none {l : List Conversion} (h : chooseConversion l = none) : l = [] := by
  cases l with
  | nil => rfl
  | cons c cs =>
    unfold chooseConversion at h
    split at h
    · cases h
    · split at h <;> cases h

/-- The request chosen is one of those waiting, the rest are left, and none is lower in rank. -/
theorem chooseConversion_spec {l rest : List Conversion} {r : Conversion} (h : chooseConversion l = some (r, rest)) :
    l.Perm (r :: rest) ∧ ∀ x ∈ l, r.rank ≤ x.rank := by
  induction l generalizing r rest with
  | nil => cases h
  | cons c cs ih =>
    unfold chooseConversion at h
    split at h
    · next none_left =>
      cases h
      rw [chooseConversion_eq_none none_left]
      exact ⟨.refl _, fun x held => by rw [List.mem_singleton.1 held]⟩
    · next d ds chosen =>
      obtain ⟨permuted, least⟩ := ih chosen
      split at h
      · next lower =>
        cases h
        refine ⟨.refl _, fun x held => ?_⟩
        rcases List.mem_cons.1 held with rfl | later
        · exact Nat.le_refl _
        · exact Nat.le_trans lower (least x later)
      · next higher =>
        cases h
        refine ⟨(permuted.cons c).trans (.swap ..), fun x held => ?_⟩
        rcases List.mem_cons.1 held with rfl | later
        · exact Nat.le_of_lt (Nat.lt_of_not_le higher)
        · exact least x later

theorem within_le {k n : Nat} (inside : within k n = true) : 1 ≤ k ∧ k ≤ n := by
  simpa [within] using inside

/-- Settles O28: the request chosen is the least in rank, and ranks order the kinds and the circuits. -/
theorem converterChoosesByKindThenNumber : Obligations.ConverterChoosesByKindThenNumber := by
  unfold Obligations.ConverterChoosesByKindThenNumber
  intro c idle some_wait numbered
  cases choice : chooseConversion c.waiting with
  | none => exact absurd (chooseConversion_eq_none choice) some_wait
  | some chosen =>
    obtain ⟨r, rest⟩ := chosen
    have next : c.next = { c with busy := some r, discard := false, waiting := rest } := by
      simp only [Converter.next, idle, choice]
    obtain ⟨permuted, least⟩ := chooseConversion_spec choice
    have mem : r ∈ c.waiting := permuted.mem_iff.2 List.mem_cons_self
    rw [next]
    refine ⟨r, rfl, rfl, mem, permuted.length_eq.symm, permuted, fun x held => ?_⟩
    have lower := least x held
    have r_numbered := numbered r mem
    have x_numbered := numbered x held
    cases r <;> cases x <;> simp only [Conversion.rank] at lower r_numbered x_numbered ⊢
    case reference.pulse => have := within_le x_numbered; omega
    case wiring.pulse => have := within_le x_numbered; omega
    case pulse.pulse => exact lower
    all_goals omega

/-! ### Wiring tests (R19 to R21) -/

theorem startWiring_of_due (runs : (s.circuit k).state ≠ .disabled) (closed : (s.circuit k).wiringOpen = false)
    (due : ∃ w, (s.circuit k).nextWiring = some w ∧ w ≤ s.now) :
    startWiring k s = s.modCircuit k fun c => { c with wiringOpen := true, loadEnd := some (s.now + 15) } := by
  obtain ⟨w, next, reached⟩ := due
  refine if_pos ⟨runs, closed, ?_⟩
  rw [next]
  exact decide_eq_true reached

theorem wiringDue_of_held (held : (s.circuit k).previousRise ≠ none ∨ (s.circuit k).state = .disabled) :
    wiringDue k s = s := by
  rcases held with code | off
  · simp [wiringDue, code]
  · simp [wiringDue, startWiring, off]

theorem wiringLoaded_of_due (is_open : (s.circuit k).wiringOpen = true)
    (ended : ∃ e, (s.circuit k).loadEnd = some e ∧ e ≤ s.now) :
    wiringLoaded k s
      = (s.modCircuit k fun c => { c with loadEnd := none }).modConverter fun v => v.request (.wiring k) := by
  obtain ⟨e, load, reached⟩ := ended
  simp [wiringLoaded, is_open, due, load, reached]

/-- A circuit's record after a wiring test that finds its cause as it stands. -/
def Circuit.retested (now : Time) (interval : Nat) (c : Circuit) : Circuit :=
  { c with wiringOpen := false, wiringKind := c.wiringKind.other, nextWiring := some (now + interval * 1000) }

theorem judgeWiring_of_same (same : wiringFails n = (s.circuit k).wiringActive) :
    judgeWiring k n s = s.modCircuit k (Circuit.retested s.now (trackCfg s k).wiringInterval) := by
  have neither : ∀ b : Bool, (b && !b) = false ∧ (!b && b) = false := by decide
  simp only [judgeWiring, same, (neither _).1, (neither _).2, when_false]
  exact modCircuit_congr rfl

theorem wiringConverted_of_same (busy : s.converter.busy = some (.wiring k)) (kept : s.converter.discard = false)
    (same : wiringFails n = (s.circuit k).wiringActive) :
    wiringConverted n s
      = (s.modCircuit k (Circuit.retested s.now (trackCfg s k).wiringInterval)).modConverter Converter.finish := by
  simp only [wiringConverted, busy, kept]
  exact judgeWiring_of_same (s := s.modConverter Converter.finish) same

theorem wiringConverted_of_discarded (busy : s.converter.busy = some (.wiring k))
    (abandoned : s.converter.discard = true) : wiringConverted n s = s.modConverter Converter.finish := by
  simp only [wiringConverted, busy, abandoned, if_true]

/-! ### References (R167) -/

/-- The converter after the low reference of a test: its result is kept for the high one. -/
def Converter.lowEnded (test : ConverterTest) (n : Nat) (c : Converter) : Converter :=
  { c.finish with lowResults := c.finish.lowResults ++ [(test, decide (1008 ≤ n ∧ n ≤ 1040))] }

theorem referenceConverted_of_low {test : ConverterTest} (busy : s.converter.busy = some (.reference false test)) :
    referenceConverted n s = s.modConverter (Converter.lowEnded test n) := by
  have passed : referencePasses false n = decide (1008 ≤ n ∧ n ≤ 1040) := by simp [referencePasses, inRange]
  simp only [referenceConverted, busy, passed]
  rfl

/-- A row that changes the converter alone. -/
theorem Takes.of_converter {h : Converter → Converter} (row : exec i s = .next (finish (f (s.comeTo t))))
    (time : i.time = some t) (undisputed : s.Undisputed) (effect : f (s.atTime t) = (s.atTime t).modConverter h) :
    Takes i s [.converter] fun u => u.converter = h s.converter :=
  Takes.of_result (ks := [.converter]) (f := f) row time undisputed effect (Moves.refl.to_modConverter h)
    fun agreed _ => finish_converter agreed

/-- Settles O27: the branches of the effects of the rows of wiring tests and references. -/
theorem wiringTestsAndReferencesAreServed : Obligations.WiringTestsAndReferencesAreServed := by
  unfold Obligations.WiringTestsAndReferencesAreServed
  rintro s t k n c undisputed inside length range rfl
  have here := inside_of_length inside length
  have full := min_fullScale range
  refine ⟨fun no_code runs closed due => ?_, fun held => ?_, fun is_open ended => ?_, fun busy kept same => ?_,
    fun busy abandoned => ?_, fun test busy => ?_, fun rest busy least most low inactive => ?_⟩
  · have effect : wiringDue k (s.atTime t)
        = (s.atTime t).modCircuit k fun c => { c with wiringOpen := true, loadEnd := some (max s.now t + 15) } := by
      refine (if_pos (Option.isNone_iff_eq_none.2 no_code)).trans ?_
      exact startWiring_of_due (s := s.atTime t) runs closed due
    exact Takes.of_circuit (f := wiringDue k) rfl rfl undisputed here effect
  · exact Takes.of_idle (f := wiringDue k) rfl rfl undisputed (wiringDue_of_held (s := s.atTime t) held)
      fun _ => trivial
  · exact Takes.of_circuit_and_converter (f := wiringLoaded k) rfl rfl undisputed here
      (wiringLoaded_of_due (s := s.atTime t) is_open ended)
  · have same : wiringFails (min n fullScale) = (s.circuit k).wiringActive := by
      rw [full, wiringFails]
      rcases same with ⟨low, inactive⟩ | ⟨high, active⟩
      · rw [inactive]
        exact decide_eq_false (Nat.not_le.2 low)
      · rw [active]
        exact decide_eq_true high
    exact Takes.of_circuit_and_converter (f := wiringConverted (min n fullScale)) rfl rfl undisputed here
      (wiringConverted_of_same (s := s.atTime t) busy kept same)
  · exact Takes.of_converter (f := wiringConverted (min n fullScale)) rfl rfl undisputed
      (wiringConverted_of_discarded (s := s.atTime t) busy abandoned)
  · have effect := referenceConverted_of_low (s := s.atTime t) (n := n) busy
    exact Takes.of_converter (f := referenceConverted (min n fullScale)) (h := Converter.lowEnded test n) rfl rfl
      undisputed (by rw [full]; exact effect)
  · have effect := referenceConverted_of_passed (s := s.atTime t) busy low least most inactive
    exact Takes.of_converter (f := referenceConverted (min n fullScale)) (h := Converter.testEnded rest) rfl rfl
      undisputed (by rw [full]; exact effect)

end Sys2Proof.Machine
end

section
/-! Causes that begin and end: the fault table, and the confinement of circuits (R14 to R16, R162, R163). -/

set_option Elab.async false

namespace Sys2Proof.Machine

variable {s u : State} {k c : Nat} {subject : Option Nat} {f : Faults} {r : FaultRecord} {ks : List Kind}
  {g : FaultRecord → FaultRecord}

/-! ### Records of the fault table -/

theorem isFor_iff (r : FaultRecord) (c : Nat) (subject : Option Nat) :
    r.isFor c subject = true ↔ r.source = c ∧ r.subject = subject := by
  simp [FaultRecord.isFor]

/-- The record of a source and subject after a change of it. -/
theorem Faults.find_update (keeps : ∀ r, (g r).source = r.source ∧ (g r).subject = r.subject) :
    (f.update c subject g).find c subject = (f.find c subject).map g := by
  have same : (fun q : FaultRecord => q.isFor c subject) ∘ (fun q => if q.isFor c subject then g q else q)
      = fun q => q.isFor c subject := by
    funext q
    simp only [Function.comp]
    split
    · simp only [FaultRecord.isFor, keeps q]
    · rfl
  simp only [Faults.find, Faults.update, List.find?_map, same]
  refine Option.map_congr fun q found => ?_
  simp [List.find?_some found]

/-- Any other record after a change of that of a source and subject. -/
theorem Faults.find_update_other {d : Nat} {o : Option Nat} (other : (d, o) ≠ (c, subject))
    (keeps : ∀ r, (g r).source = r.source ∧ (g r).subject = r.subject) :
    (f.update c subject g).find d o = f.find d o := by
  have same : (fun q : FaultRecord => q.isFor d o) ∘ (fun q => if q.isFor c subject then g q else q)
      = fun q => q.isFor d o := by
    funext q
    simp only [Function.comp]
    split
    · simp only [FaultRecord.isFor, keeps q]
    · rfl
  simp only [Faults.find, Faults.update, List.find?_map, same]
  refine (Option.map_congr fun q found => ?_).trans Option.map_id_apply
  obtain ⟨rfl, rfl⟩ := (isFor_iff q d o).1 (List.find?_some (p := fun q : FaultRecord => q.isFor d o) found)
  refine if_neg fun matches_both => other ?_
  obtain ⟨rfl, rfl⟩ := (isFor_iff q c subject).1 matches_both
  rfl

theorem Faults.update_of_absent (absent : f.find c subject = none) : f.update c subject g = f := by
  have kept : f.records.map (fun q => if q.isFor c subject then g q else q) = f.records :=
    (List.map_congr_left fun q held => if_neg (List.find?_eq_none.1 absent q held)).trans (List.map_id' _)
  rw [Faults.update, kept]

theorem Faults.find_append (absent : f.find c subject = none) (own : r.isFor c subject = true) :
    ({ f with records := f.records ++ [r] } : Faults).find c subject = some r := by
  rw [Faults.find] at absent ⊢
  rw [List.find?_append, absent, Option.none_or]
  simp [own]

theorem Faults.find_append_other {d : Nat} {o : Option Nat} (other : r.isFor d o = false) :
    ({ f with records := f.records ++ [r] } : Faults).find d o = f.find d o := by
  simp [Faults.find, other]

/-- A record that is no longer ACTIVE (R163). -/
def FaultRecord.latched (r : FaultRecord) : FaultRecord := { r with active := false }

/-- R163: the record of an ended cause that does not clear itself is LATCHED. -/
theorem latchRecord_faults (c : Nat) (subject : Option Nat) (s : State) :
    (latchRecord c subject s).faults = s.faults.update c subject FaultRecord.latched := by
  unfold latchRecord
  split
  · next absent => exact (Faults.update_of_absent absent).symm
  · rfl

theorem latchRecord_find (c : Nat) (subject : Option Nat) (s : State) :
    (latchRecord c subject s).faults.find c subject
      = (s.faults.find c subject).map FaultRecord.latched := by
  rw [latchRecord_faults, Faults.find_update (g := FaultRecord.latched) fun _ => ⟨rfl, rfl⟩]

theorem latchRecord_find_other {d : Nat} {o : Option Nat} (other : (d, o) ≠ (c, subject)) :
    (latchRecord c subject s).faults.find d o = s.faults.find d o := by
  rw [latchRecord_faults, Faults.find_update_other (g := FaultRecord.latched) other fun _ => ⟨rfl, rfl⟩]

/-! ### Occurrences -/

theorem countOccurrence_of_absent (absent : s.faults.find c subject = none) (room : s.faults.records.length < 32) :
    countOccurrence c subject s
      = s.modFaults fun f => { f with records := f.records ++ [newRecord s c subject] } := by
  simp only [countOccurrence, absent]
  exact if_pos room

theorem occurrence_of_absent (absent : s.faults.find c subject = none) (room : s.faults.records.length < 32) :
    occurrence s c subject = ⟨reactionOf s c, c, 1⟩ := by
  simp only [occurrence, absent]
  exact if_pos room

theorem newRecord_isFor (s : State) (c : Nat) (subject : Option Nat) : (newRecord s c subject).isFor c subject = true :=
  (isFor_iff _ _ _).2 ⟨rfl, rfl⟩

theorem newRecord_eq {x : Reaction} (reaction : reactionOf s c = x) :
    newRecord s c subject
      = ⟨c, subject, true, 1, s.register.day, s.register.tenths, s.register.day, s.register.tenths, x⟩ := by
  rw [newRecord, reaction]

theorem countOccurrence_eases (other : (occurrence s c subject).reaction ≠ .suspend) :
    s.faults.Eases (countOccurrence c subject s).faults :=
  ⟨countOccurrence_faults_sound c subject, fun none_stands => countOccurrence_suspends none_stands other⟩

theorem countOccurrence_eq_modFaults (c : Nat) (subject : Option Nat) (s : State) :
    ∃ g, countOccurrence c subject s = s.modFaults g := by
  unfold countOccurrence
  split
  · exact ⟨_, rfl⟩
  · split <;> exact ⟨_, rfl⟩

theorem Moves.to_countOccurrence (c : Nat) (subject : Option Nat)
    (other : (occurrence s c subject).reaction ≠ .suspend) {r : State} (h : Moves ks r s)
    (hk : .faults ∈ ks := by decide) : Moves ks r (countOccurrence c subject s) := by
  have eases := countOccurrence_eases other
  obtain ⟨g, eq⟩ := countOccurrence_eq_modFaults c subject s
  rw [eq] at eases ⊢
  exact h.to_modFaults g eases hk

/-! ### Raises -/

/-- The entry and the record that every beginning of a cause makes (R162, R163). -/
def noteOccurrence (c : Nat) (subject : Option Nat) (s : State) : State :=
  let o := occurrence s c subject
  append (.faultRaised c subject o.reaction o.count) (countOccurrence c subject s)

theorem Moves.to_noteOccurrence (c : Nat) (subject : Option Nat)
    (other : (occurrence s c subject).reaction ≠ .suspend) {r : State} (h : Moves ks r s)
    (hk : Kind.sub [.note, .record, .faults] ks = true := by decide) : Moves ks r (noteOccurrence c subject s) :=
  h.andThen hk <| (Moves.refl.to_countOccurrence c subject other).to_append _

theorem noteOccurrence_faults (c : Nat) (subject : Option Nat) (s : State) :
    (noteOccurrence c subject s).faults = (countOccurrence c subject s).faults := rfl

theorem noteOccurrence_register (c : Nat) (subject : Option Nat) (s : State) :
    (noteOccurrence c subject s).register
      = s.register.append (.faultRaised c subject (occurrence s c subject).reaction (occurrence s c subject).count) :=
  congrArg (Register.append · _) ((leaves_countOccurrence c subject s).2.2.2 .register (by decide))

/-- A cause that begins with the reaction REPORT is counted and noted, and nothing else. -/
theorem raise_of_report (report : (occurrence s c subject).reaction = .report) :
    raise c subject s = noteFault (occurrence s c subject).source (noteOccurrence c subject s) := by
  have no_link : linkTaken c subject s = none := by
    cases subject <;> simp [linkTaken, report]
  have none_suspends : ∀ u, suspends (occurrence s c subject) u = false := by simp [suspends, report]
  simp only [raise, beginCause, no_link, none_suspends, report, when_false]
  rw [noteOccurrence, report]
  rfl

/-- A cause that begins with the reaction CONFINE, of a source that takes no link out of use. -/
theorem raise_of_confine (confines : (occurrence s c subject).reaction = .confine) (no_link : c ≠ 17 ∧ c ≠ 18) :
    raise c subject s
      = noteFault (occurrence s c subject).source
          (confine c (occurrence s c subject).source subject (noteOccurrence c subject s)) := by
  have none_taken : linkTaken c subject s = none := by
    cases subject <;> simp [linkTaken, no_link]
  have none_suspends : ∀ u, suspends (occurrence s c subject) u = false := by simp [suspends, confines]
  simp only [raise, beginCause, none_taken, none_suspends, confines, when_false]
  rw [noteOccurrence, confines]
  rfl

theorem Moves.to_raise_of_report (report : (occurrence s c subject).reaction = .report) {r : State}
    (h : Moves ks r s) (hk : Kind.sub [.note, .record, .faults] ks = true := by decide) :
    Moves ks r (raise c subject s) :=
  h.andThen hk <| by
    rw [raise_of_report report]
    exact (Moves.refl.to_noteOccurrence c subject (by simp [report])).to_noteFault _

/-- What a cause with no record begins at REPORT: a record of its own, and its entry (R162, R163). -/
theorem raise_new_report (absent : s.faults.find c subject = none) (room : s.faults.records.length < 32)
    (report : reactionOf s c = .report) :
    (raise c subject s).faults = { s.faults with records := s.faults.records ++
        [⟨c, subject, true, 1, s.register.day, s.register.tenths, s.register.day, s.register.tenths, .report⟩] }
      ∧ (raise c subject s).register = s.register.append (.faultRaised c subject .report 1) := by
  have made := occurrence_of_absent absent room
  rw [report] at made
  rw [raise_of_report (congrArg Occurrence.reaction made)]
  constructor
  · change (countOccurrence c subject s).faults = _
    rw [countOccurrence_of_absent absent room, newRecord_eq report]
    rfl
  · change (noteOccurrence c subject s).register = _
    rw [noteOccurrence_register, made]

theorem Moves.to_raise_new_report (absent : s.faults.find c subject = none) (room : s.faults.records.length < 32)
    (report : reactionOf s c = .report) {r : State} (h : Moves ks r s)
    (hk : Kind.sub [.note, .record, .faults] ks = true := by decide) : Moves ks r (raise c subject s) :=
  h.to_raise_of_report ((congrArg Occurrence.reaction (occurrence_of_absent absent room)).trans report) hk

/-! ### The fault table of a part with nothing disputed -/

/-- Moves that change no fault record themselves leave the table, where nothing is disputed: an evaluation latches
a record only where a disagreement ends. -/
theorem Moves.faults_kept (h : Moves ks s u) (undisputed : s.Undisputed) (away : .faults ∉ ks := by decide) :
    u.faults = s.faults := by
  induction h with
  | eval k _ before ih => exact (evaluate_faults k (before.undisputed undisputed)).trans (ih undisputed away)
  | @relever _ _ s0 t k g _ quiet noted before _ ih =>
    have agreed : t.Undisputed :=
      noted.undisputed (changeLever_undisputed quiet (before.undisputed undisputed))
    exact (evaluate_faults k agreed).trans (Eq.trans (noted.exactly .faults)
      ((leaves_changeLever k g s0).faults_eq.trans (ih undisputed away)))
  | faults g mem => exact absurd mem away
  | cause c subject mem => exact absurd (mem .faults (by decide)) away
  | @restrict _ _ s0 m _ _ before ih =>
    have released : Leaves _ (takeMode m s0) (endReleasesForMode (takeMode m s0)) := leaves_endReleasesForMode _
    have agreed : (endReleasesForMode (takeMode m s0)).Undisputed :=
      endReleasesForMode_undisputed (s := takeMode m s0) (before.undisputed undisputed)
    exact (evaluateAll_faults agreed).trans (released.faults_eq.trans (ih undisputed away))
  | @serve _ _ s0 m _ _ before ih =>
    have agreed : (enterMode m s0).Undisputed := before.undisputed undisputed
    exact (evaluateAll_faults agreed).trans (ih undisputed away)
  | refl => rfl
  | _ =>
    rename_i ih
    exact ih undisputed away

/-! ### Circuits confined (R16) -/

/-- A circuit that enters FAILED (R14). -/
def Circuit.failed (c : Circuit) : Circuit := { c with state := .failed, g := 0 }

/-- A circuit whose confinement set a source other than TRACK_MARGIN enters (R16). -/
def Circuit.confinedBy (c : Nat) (r : Circuit) : Circuit :=
  if r.state = .disabled then r
  else if r.confinement ≠ [] then { r with confinement := addSource c r.confinement }
  else Circuit.marginEnded { r with confinement := [c], state := .failed, g := 0 }

theorem enterFailed_eq (k : Nat) (s : State) :
    enterFailed k s
      = deliverTrack k (s.circuit k).state .failed (endMargin k (s.modCircuit k Circuit.failed)) := rfl

theorem enterFailed_circuits (k : Nat) (s : State) :
    (enterFailed k s).circuits = modAt s.circuits {} k (Circuit.marginEnded ∘ Circuit.failed) := by
  rw [enterFailed_eq, deliverTrack_circuits, endMargin_circuits, State.modCircuit_circuits, modAt_modAt]

/-- Only a numbered circuit is not DISABLED. -/
theorem here_of_runs (runs : (s.circuit k).state ≠ .disabled) : within k s.circuits.length = true := by
  cases k with
  | zero => exact absurd rfl runs
  | succ j =>
    by_cases inside : j < s.circuits.length
    · simp [within, Nat.succ_le_of_lt inside]
    · exact absurd (by simp [State.circuit, nth, List.getD, inside]) runs

theorem mem_addSource (c : Nat) (l : List Nat) : c ∈ addSource c l := by
  induction l with
  | nil => exact List.mem_singleton_self c
  | cons d ds ih =>
    unfold addSource
    split
    · exact List.mem_cons_self
    · split
      · next same => exact same ▸ List.mem_cons_self
      · exact List.mem_cons_of_mem d ih

theorem Circuit.confinement_marginEnded {r : Circuit} (other : c ≠ 4) (held : c ∈ r.confinement) :
    c ∈ r.marginEnded.confinement := by
  unfold marginEnded
  split
  · exact List.mem_filter.2 ⟨held, by simpa using other⟩
  · exact held

theorem confineTrack_circuits (other : c ≠ 4) (k : Nat) (s : State) :
    (confineTrack c k s).circuits = modAt s.circuits {} k (Circuit.confinedBy c) := by
  simp only [confineTrack]
  split
  · next off =>
    refine (modAt_self s.circuits {} k (Circuit.confinedBy c) ?_).symm
    exact if_pos off
  · next runs =>
    split
    · next confined =>
      rw [State.modCircuit_circuits]
      refine modAt_congr (Eq.symm ?_)
      exact (if_neg runs).trans (if_pos confined)
    · next sole =>
      have changed : (enterFailed k (s.modCircuit k fun r => { r with confinement := addSource c r.confinement })).circuits
          = modAt s.circuits {} k (Circuit.confinedBy c) := by
        rw [enterFailed_circuits, State.modCircuit_circuits, modAt_modAt]
        refine modAt_congr (Eq.symm ?_)
        have sole : (s.circuit k).confinement = [] := not_not.1 sole
        refine (if_neg runs).trans ((if_neg (not_not.2 sole)).trans ?_)
        simp only [Function.comp, Circuit.failed]
        rw [← State.circuit, sole]
        rfl
      rw [if_neg, changed]
      rw [circuit_of_changed (here_of_runs runs) changed]
      have sole : (s.circuit k).confinement = [] := not_not.1 sole
      refine List.ne_nil_of_mem (a := c) ?_
      rw [← State.circuit, Circuit.confinedBy, if_neg runs, if_neg (not_not.2 sole)]
      exact Circuit.confinement_marginEnded other List.mem_cons_self

theorem Faults.find_remove_other {d : Nat} {o : Option Nat} (other : (d, o) ≠ (c, subject)) :
    (f.remove c subject).find d o = f.find d o := by
  rw [Faults.find, Faults.remove, List.find?_filter]
  refine List.find?_congr fun q _ => ?_
  by_cases own : q.isFor d o = true
  · obtain ⟨rfl, rfl⟩ := (isFor_iff q d o).1 own
    have kept : q.isFor c subject = false := by
      refine Bool.eq_false_iff.2 fun both => other ?_
      obtain ⟨rfl, rfl⟩ := (isFor_iff q c subject).1 both
      rfl
    simp [own, kept]
  · simp [own]

section
/-! What is read of the fault table is kept by the end of a TRACK_MARGIN cause where that reads no record of it. -/

variable {α : Type} {φ : Faults → α}

theorem removeSelfClearing_keeps (kept : ∀ f : Faults, φ (f.remove c subject) = φ f) :
    φ (removeSelfClearing c subject s).faults = φ s.faults := by
  unfold removeSelfClearing
  split
  · rfl
  · next r found =>
    obtain ⟨source, held⟩ :=
      (isFor_iff r c subject).1 (List.find?_some (p := fun q : FaultRecord => q.isFor c subject) found)
    change φ (s.faults.remove r.source r.subject) = _
    rw [source, held]
    exact kept _

theorem endMargin_keeps (kept : ∀ f : Faults, φ (f.remove 4 (some k)) = φ f) :
    φ (endMargin k s).faults = φ s.faults := by
  unfold endMargin
  split
  · exact removeSelfClearing_keeps kept
  · rfl

theorem deliverTrack_faults (k : Nat) (old new : TrackState) (undisputed : s.Undisputed) :
    (deliverTrack k old new s).faults = s.faults :=
  ((Moves.refl (ks := deliverKinds)).to_deliverTrack k old new).faults_kept undisputed

theorem endMargin_undisputed (k : Nat) (undisputed : s.Undisputed) : (endMargin k s).Undisputed :=
  ((Moves.refl (ks := fallKinds)).to_endMargin k).undisputed undisputed

theorem enterFailed_keeps (undisputed : s.Undisputed) (kept : ∀ f : Faults, φ (f.remove 4 (some k)) = φ f) :
    φ (enterFailed k s).faults = φ s.faults := by
  rw [enterFailed_eq, deliverTrack_faults _ _ _ (endMargin_undisputed (s := s.modCircuit k Circuit.failed) k undisputed)]
  exact endMargin_keeps kept

theorem enterOccupied_keeps (undisputed : s.Undisputed) (kept : ∀ f : Faults, φ (f.remove 4 (some k)) = φ f) :
    φ (enterOccupied k s).faults = φ s.faults := by
  rw [enterOccupied_eq, deliverTrack_faults _ _ _
    (endMargin_undisputed (s := s.modCircuit k (Circuit.dropped s.now)) k undisputed)]
  exact endMargin_keeps kept

theorem confineTrack_keeps (undisputed : s.Undisputed) (kept : ∀ f : Faults, φ (f.remove 4 (some k)) = φ f) :
    φ (confineTrack c k s).faults = φ s.faults := by
  have failed : φ (enterFailed k (s.modCircuit k fun r => { r with confinement := addSource c r.confinement })).faults
      = φ s.faults := enterFailed_keeps undisputed kept
  have agreed : (enterFailed k (s.modCircuit k fun r => { r with confinement := addSource c r.confinement })).Undisputed :=
    ((Moves.refl (ks := fallKinds)).to_enterFailed k).undisputed undisputed
  simp only [confineTrack]
  split
  · rfl
  · split
    · rfl
    · split
      · exact (enterOccupied_keeps agreed kept).trans failed
      · exact failed

end

theorem Circuit.mem_confinedBy {r : Circuit} (other : c ≠ 4) (runs : r.state ≠ .disabled) :
    c ∈ (r.confinedBy c).confinement := by
  rw [confinedBy, if_neg runs]
  split
  · exact mem_addSource c _
  · exact confinement_marginEnded other List.mem_cons_self

theorem Circuit.failed_of_confinedBy {r : Circuit} (runs : r.state ≠ .disabled) (sole : r.confinement = []) :
    (r.confinedBy c).state = .failed := by
  rw [confinedBy, if_neg runs, if_neg (not_not.2 sole), marginEnded]
  split <;> rfl

/-- A circuit confined by one source alone, with no TRACK_MARGIN cause standing. -/
theorem Circuit.confinedBy_of_sole {r : Circuit} (runs : r.state ≠ .disabled) (sole : r.confinement = [])
    (no_margin : r.marginActive = false) :
    r.confinedBy c = { r with confinement := [c], state := .failed, g := 0 } := by
  rw [confinedBy, if_neg runs, if_neg (not_not.2 sole)]
  exact if_neg (by simp [no_margin])

section
/-! A cause of a circuit that begins at CONFINE with a record of its own (R15, R21). -/

variable (code : c = 1 ∨ c = 2 ∨ c = 3) (absent : s.faults.find c (some k) = none)
  (room : s.faults.records.length < 32) (confines : reactionOf s c = .confine)

include code absent room confines

theorem raise_of_track :
    raise c (some k) s = noteFault c (confineTrack c k (noteOccurrence c (some k) s)) := by
  have made := occurrence_of_absent absent room
  rw [raise_of_confine (by rw [made]; exact confines) (by omega), made]
  rcases code with rfl | rfl | rfl <;> rfl

theorem raise_track_circuits :
    (raise c (some k) s).circuits = modAt s.circuits {} k (Circuit.confinedBy c) := by
  rw [raise_of_track code absent room confines]
  refine (confineTrack_circuits (by omega) k _).trans ?_
  rw [noteOccurrence, countOccurrence_of_absent absent room]
  rfl

theorem Moves.to_raise_track {r : State} (h : Moves ks r s)
    (hk : Kind.sub fallKinds ks = true := by decide) : Moves ks r (raise c (some k) s) :=
  h.andThen hk <| by
    rw [raise_of_track code absent room confines]
    refine Moves.to_noteFault c ((Moves.to_noteOccurrence c (some k) ?_ .refl).to_confineTrack c k)
    rw [occurrence_of_absent absent room]
    simp [confines]

theorem raise_track_find (undisputed : s.Undisputed) :
    (raise c (some k) s).faults.find c (some k)
      = some ⟨c, some k, true, 1, s.register.day, s.register.tenths, s.register.day, s.register.tenths, .confine⟩ := by
  have noted : Moves [.note, .record, .faults] s (noteOccurrence c (some k) s) :=
    Moves.to_noteOccurrence c (some k) (by rw [occurrence_of_absent absent room]; simp [confines]) .refl
  rw [raise_of_track code absent room confines]
  refine (confineTrack_keeps (φ := (·.find c (some k))) (noted.undisputed undisputed)
    fun f => Faults.find_remove_other (by simp; omega)).trans ?_
  rw [noteOccurrence_faults, countOccurrence_of_absent absent room]
  rw [← newRecord_eq confines]
  exact Faults.find_append absent (newRecord_isFor ..)

end

end Sys2Proof.Machine
end

section
/-! Pulses that move a circuit's state, begin and end its causes, or are learnt from (R9 to R18, R23). -/

set_option Elab.async false

namespace Sys2Proof.Machine

variable {s u v w : State} {k a level : Nat} {t : Time} {p : Pulse} {g : Circuit → Circuit}

/-! ### The end of a pulse's conversion -/

/-- The conversion of a pulse of circuit `k`, which runs, ends at a row, with nothing learnt from the pulse and no
wiring test due. -/
structure PulseEnds (s : State) (t : Time) (k a : Nat) (p : Pulse) : Prop where
  undisputed : s.Undisputed
  here : within k s.circuits.length = true
  range : a ≤ 4095
  busy : s.converter.busy = some (.pulse k)
  awaited : (s.circuit k).pulse = some p
  unlearned : (s.circuit k).learning = none
  not_due : ∀ w, (s.circuit k).nextWiring = some w → max s.now t < w
  runs : (s.circuit k).state ≠ .disabled

/-- The state in which the pulse of a row is taken by its class. -/
def State.takesPulse (s : State) (t : Time) (k : Nat) : State := pulseTaken k (s.atTime t)

theorem PulseEnds.own (h : PulseEnds s t k a p) : (s.takesPulse t k).circuit k = (s.circuit k).withoutPulse :=
  pulseTaken_own (s := s.atTime t) h.here

theorem PulseEnds.there (h : PulseEnds s t k a p) : within k (s.takesPulse t k).circuits.length = true :=
  pulseTaken_here (s := s.atTime t) h.here

theorem moves_takesPulse (s : State) (t : Time) (k : Nat) :
    Moves [.converter, .circuit] (s.atTime t) (s.takesPulse t k) :=
  (Moves.refl.to_modConverter _).to_modCircuit k _

/-- The row, where the pulse's class changes the record of its own circuit. -/
theorem PulseEnds.takes {ks : List Kind} {ps : List Part} {P : State → Prop} (h : PulseEnds s t k a p)
    (taken : classifyPulse k a p (s.takesPulse t k) = v)
    (changed : v.circuits = modAt (s.takesPulse t k).circuits {} k g)
    (learning : (g (s.circuit k).withoutPulse).learning = (s.circuit k).learning)
    (schedule : (g (s.circuit k).withoutPulse).nextWiring = (s.circuit k).nextWiring)
    (moves : Moves ks (s.takesPulse t k) v)
    (holds : v.Undisputed → (finish v).circuit k = g (s.circuit k).withoutPulse → OtherCircuits k s (finish v) →
      P (finish v))
    (parts : ∀ x ∈ Kind.converter :: .circuit :: ks, ∀ q ∈ x.main, q ∈ ps := by decide)
    (lasting : Kind.stage ∉ Kind.converter :: .circuit :: ks ∧ .begin ∉ Kind.converter :: .circuit :: ks
      ∧ .time ∉ Kind.converter :: .circuit :: ks := by decide)
    (stored : Part.store ∈ ps ∨ (Kind.store ∉ Kind.converter :: .circuit :: ks
      ∧ .tables ∉ Kind.converter :: .circuit :: ks ∧ .jobs ∉ Kind.converter :: .circuit :: ks) := by decide)
    (quiet : (∃ x ∈ ps, x.silent = false) ∨ ∀ x ∈ Kind.converter :: .circuit :: ks, Part.transmitter ∉ x.parts := by
      decide) :
    Takes (.pulseEndConversionComplete t a) s ps P := by
  subst taken
  have all_moves : Moves (Kind.converter :: .circuit :: ks) (s.atTime t) (classifyPulse k a p (s.takesPulse t k)) :=
    ((moves_takesPulse s t k).mono (by simp)).trans (moves.mono (by simp_all))
  have effect : pulseConverted (min a fullScale) (s.atTime t) = classifyPulse k a p (s.takesPulse t k) := by
    rw [min_fullScale h.range]
    exact pulseConverted_of_changed (s := s.atTime t) h.here h.busy h.awaited h.unlearned h.not_due h.runs changed
      (all_moves.now_eq lasting.2.2) learning schedule
  have composed : (classifyPulse k a p (s.takesPulse t k)).circuits
      = modAt s.circuits {} k (g ∘ Circuit.withoutPulse) :=
    changed.trans (modAt_modAt s.circuits {} k Circuit.withoutPulse g)
  exact Takes.of_result (f := pulseConverted (min a fullScale)) rfl rfl h.undisputed effect all_moves
    (fun agreed _ => holds agreed (finish_own_circuit (s := s) agreed composed h.here)
      (finish_other_circuits (s := s) agreed composed)) parts lasting stored quiet

/-! ### CLEAR to OCCUPIED (R9, R11) -/

theorem goodPulse_of_drop (clear : (s.circuit k).state = .clear) (low : level < (trackCfg s k).drop) :
    goodPulse k level s = enterOccupied k s := by
  simp only [goodPulse, clear, if_pos low]

/-- A circuit's record after its second BAD_PERIOD pulse, but for its state (R9, R15). -/
def Circuit.secondBad (p : Pulse) (a : Nat) (c : Circuit) : Circuit :=
  { c with
    lastP := p.period, lastA := some a, bad := 0, foreignEnd := 0, overEnd := 0
    g := if c.state = .occupied then 0 else c.g }

theorem badPeriodPulse_of_second (second : (s.circuit k).bad = 1) :
    badPeriodPulse k s = codeLoss k (s.modCircuit k fun c =>
      { c with bad := 0, foreignEnd := 0, overEnd := 0, g := if c.state = .occupied then 0 else c.g }) := by
  simp [badPeriodPulse, second]

theorem classifyPulse_of_second_bad (here : within k s.circuits.length = true) (clear : (s.circuit k).state = .clear)
    (second : (s.circuit k).bad = 1)
    (bad : classify p.period (trackCfg s k).pnom ((trackCfg s k).neighbours.map fun n => (trackCfg s n).pnom)
      = .badPeriod) :
    classifyPulse k a p s = enterOccupied k (s.modCircuit k (Circuit.secondBad p a)) := by
  rw [classifyPulse_eq, bad]
  dsimp only
  rw [badPeriodPulse_of_second, modCircuit_modCircuit, codeLoss_of_clear]
  · rfl
  · rw [State.circuit_modCircuit_same _ _ _ here]
    exact clear
  · rw [State.circuit_modCircuit_same _ _ _ here]
    exact second

theorem enterOccupied_after {m : Circuit → Circuit} (here : within k s.circuits.length = true)
    (no_margin : (m (s.circuit k)).marginActive = false) :
    (enterOccupied k (s.modCircuit k m)).circuits = modAt s.circuits {} k (Circuit.dropped s.now ∘ m) := by
  rw [enterOccupied_circuits_of_no_margin, State.modCircuit_circuits, modAt_modAt]
  · rfl
  · rw [State.circuit_modCircuit_same _ _ _ here]
    exact no_margin

theorem moves_counted (s : State) (k a level : Nat) (p : Pulse) (bound : level ≤ 1999) :
    Moves [.circuit] s (s.modCircuit k (Circuit.counted p a level)) := by
  refine Moves.refl.to_modCircuit k _ ⟨fun sound => ?_, rfl⟩
  obtain ⟨g, -, -, -, -, smoothed⟩ := sound
  exact ⟨g, Nat.zero_le _, Nat.min_le_right _ _, Nat.min_le_right _ _, fun _ h => Option.some.inj h ▸ bound, smoothed⟩

theorem moves_secondBad (s : State) (k a : Nat) (p : Pulse) :
    Moves [.circuit] s (s.modCircuit k (Circuit.secondBad p a)) := by
  refine Moves.refl.to_modCircuit k _ ⟨fun sound => ?_, rfl⟩
  obtain ⟨g, -, -, -, rest⟩ := sound
  refine ⟨?_, Nat.zero_le _, Nat.zero_le _, Nat.zero_le _, rest⟩
  dsimp only [Circuit.secondBad]
  split
  · exact Nat.zero_le _
  · exact g

/-! ### OCCUPIED to CLEAR (R12, R13) -/

/-- A circuit that enters CLEAR (R13). -/
def Circuit.cleared (level : Nat) (c : Circuit) : Circuit := { c with state := .clear, lavg := some level, bad := 0 }

theorem reloadTrack_of_unstaged (unstaged : (s.circuit k).staged = []) : reloadTrack k s = s := if_pos unstaged

theorem enterClear_of_unstaged (here : within k s.circuits.length = true) (unstaged : (s.circuit k).staged = []) :
    enterClear k level s = deliverTrack k (s.circuit k).state .clear (s.modCircuit k (Circuit.cleared level)) := by
  refine congrArg (deliverTrack k (s.circuit k).state .clear) (reloadTrack_of_unstaged ?_)
  rw [State.circuit_modCircuit_same _ _ _ here]
  exact unstaged

/-- A circuit's run, one pulse longer (R12). -/
def Circuit.run (c : Circuit) : Circuit := { c with g := min (c.g + 1) 15 }

theorem goodPulse_of_pickup (occupied : (s.circuit k).state = .occupied) (reached : (trackCfg s k).pickup ≤ level)
    (counts : (trackCfg s k).pickupCount ≤ min ((s.circuit k).g + 1) 15)
    (passed : (s.circuit k).occupiedSince.getD 0 + (trackCfg s k).minOccupancy * 100 ≤ s.now) :
    goodPulse k level s = marginTest k (enterClear k level (s.modCircuit k Circuit.run)) := by
  simp only [goodPulse, occupied, if_neg (Nat.not_lt.2 reached)]
  refine (if_pos ⟨counts, passed⟩).trans ?_
  exact congrArg (marginTest k) (congrArg (enterClear k level) (modCircuit_congr rfl))

/-- R12, R13: a pickup at a level that is not below the margin level. -/
theorem goodPulse_picks_up (here : within k s.circuits.length = true) (occupied : (s.circuit k).state = .occupied)
    (reached : (trackCfg s k).pickup ≤ level) (margin : (trackCfg s k).margin ≤ level)
    (counts : (trackCfg s k).pickupCount ≤ min ((s.circuit k).g + 1) 15)
    (passed : (s.circuit k).occupiedSince.getD 0 + (trackCfg s k).minOccupancy * 100 ≤ s.now)
    (unstaged : (s.circuit k).staged = []) (no_margin : (s.circuit k).marginActive = false) :
    goodPulse k level s = enterClear k level (s.modCircuit k Circuit.run)
      ∧ (goodPulse k level s).circuits = modAt s.circuits {} k (Circuit.cleared level ∘ Circuit.run) := by
  have delivered : enterClear k level (s.modCircuit k Circuit.run)
      = deliverTrack k _ .clear ((s.modCircuit k Circuit.run).modCircuit k (Circuit.cleared level)) :=
    enterClear_of_unstaged (by rwa [State.modCircuit_circuits, length_modAt])
      (by rw [State.circuit_modCircuit_same _ _ _ here]; exact unstaged)
  have changed : (enterClear k level (s.modCircuit k Circuit.run)).circuits
      = modAt s.circuits {} k (Circuit.cleared level ∘ Circuit.run) := by
    rw [delivered, deliverTrack_circuits, modCircuit_modCircuit, State.modCircuit_circuits]
  have store : (enterClear k level (s.modCircuit k Circuit.run)).store = s.store := by
    rw [delivered]
    exact ((Moves.refl (ks := deliverKinds)).to_deliverTrack k _ _).exactly .store
  have own := circuit_of_changed here changed
  have same : goodPulse k level s = enterClear k level (s.modCircuit k Circuit.run) := by
    rw [goodPulse_of_pickup occupied reached counts passed]
    refine marginTest_of_held (by rw [own]; exact no_margin) fun v smoothed => ?_
    rw [own] at smoothed
    cases smoothed
    rw [trackCfg, State.tables, store]
    exact margin
  exact ⟨same, same ▸ changed⟩

/-! ### Causes of a circuit that begin (R15) -/

theorem foreignPulse_of_first (inactive : (s.circuit k).foreignActive = false) :
    foreignPulse k s = raise 2 (some k)
      (s.modCircuit k fun c => { c with foreignActive := true, foreignEnd := 0, overEnd := 0 }) := by
  simp [foreignPulse, inactive]

theorem overlevelPulse_of_first (inactive : (s.circuit k).overActive = false) :
    overlevelPulse k s = raise 3 (some k) (s.modCircuit k fun c => { c with overActive := true, overEnd := 0 }) := by
  simp [overlevelPulse, inactive]

theorem overlevelPulse_of_active (active : (s.circuit k).overActive = true) :
    overlevelPulse k s = s.modCircuit k fun c => { c with overActive := true, overEnd := 0 } := by
  simp [overlevelPulse, active]

/-- A circuit's record as its FOREIGN pulse leaves it to TRACK_FOREIGN (R7, R9, R15). -/
def Circuit.foreignBegun (p : Pulse) (a : Nat) (c : Circuit) : Circuit :=
  { c with
    lastP := p.period, lastA := some a, bad := 0, foreignActive := true, foreignEnd := 0, overEnd := 0 }

theorem classifyPulse_of_foreign (here : within k s.circuits.length = true)
    (inactive : (s.circuit k).foreignActive = false)
    (foreign : classify p.period (trackCfg s k).pnom ((trackCfg s k).neighbours.map fun n => (trackCfg s n).pnom)
      = .foreign) :
    classifyPulse k a p s = raise 2 (some k) (s.modCircuit k (Circuit.foreignBegun p a)) := by
  rw [classifyPulse_eq, foreign]
  dsimp only
  rw [modCircuit_modCircuit, foreignPulse_of_first, modCircuit_modCircuit]
  · rfl
  · rw [State.circuit_modCircuit_same _ _ _ here]
    exact inactive

theorem moves_foreignBegun (s : State) (k a : Nat) (p : Pulse) :
    Moves [.circuit] s (s.modCircuit k (Circuit.foreignBegun p a)) :=
  Moves.refl.to_modCircuit k _
    ⟨fun ⟨g, _, _, _, rest⟩ => ⟨g, Nat.zero_le _, Nat.zero_le _, Nat.zero_le _, rest⟩, rfl⟩

/-! ### The rows -/

/-- The class of a pulse of circuit `k` (R7, R8). -/
abbrev classOf (s : State) (k : Nat) (p : Pulse) : PulseClass :=
  classify p.period (s.tables.track k).pnom ((s.tables.track k).neighbours.map fun n => (s.tables.track n).pnom)

/-- The level of a pulse of circuit `k` of amplitude `a` (R10). -/
abbrev pulseLevel (s : State) (k a : Nat) : Nat := levelOf a (s.tables.track k).aref

/-- What a circuit's fall and pickup, and a cause that begins at CONFINE, may change. -/
abbrev pulseParts : List Part :=
  [.tracks, .converter, .levers, .faults, .register, .holds, .timers, .inbound, .outbound]

/-- R9, R11: a GOOD pulse below the drop level, or a second BAD_PERIOD pulse, takes CLEAR to OCCUPIED. -/
theorem PulseEnds.falls (h : PulseEnds s t k a p) (in_range : pulseLevel s k a ≤ (s.tables.track k).overLevel)
    (no_foreign : (s.circuit k).foreignActive = false) (no_over : (s.circuit k).overActive = false)
    (no_margin : (s.circuit k).marginActive = false) (clear : (s.circuit k).state = .clear)
    (pulse : (classOf s k p = .good ∧ pulseLevel s k a < (s.tables.track k).drop)
      ∨ (classOf s k p = .badPeriod ∧ (s.circuit k).bad = 1)) :
    Takes (.pulseEndConversionComplete t a) s pulseParts fun u =>
      (u.circuit k).state = .occupied ∧ (u.circuit k).g = 0 ∧ (u.circuit k).bad = 0
        ∧ (u.circuit k).occupiedSince = some (max s.now t) ∧ (u.circuit k).lavg = (s.circuit k).lavg
        ∧ OtherCircuits k s u := by
  rcases pulse with ⟨good, low⟩ | ⟨bad, second⟩
  · have taken := (classifyPulse_of_good (a := a) h.there good in_range (by rw [h.own]; exact no_foreign)
      (by rw [h.own]; exact no_over)).trans
      (goodPulse_of_drop (by rw [State.circuit_modCircuit_same _ _ _ h.there, h.own]; exact clear) low)
    refine h.takes (ks := fallKinds) taken (enterOccupied_after h.there (by rw [h.own]; exact no_margin)) rfl rfl
      (Moves.to_enterOccupied k ((moves_counted _ k a _ p (levelOf_le ..)).mono (by decide))) fun _ own others => ?_
    rw [own]
    exact ⟨rfl, rfl, rfl, rfl, rfl, others⟩
  · have taken := classifyPulse_of_second_bad (a := a) h.there (by rw [h.own]; exact clear)
      (by rw [h.own]; exact second) bad
    refine h.takes (ks := fallKinds) taken (enterOccupied_after h.there (by rw [h.own]; exact no_margin)) rfl rfl
      (Moves.to_enterOccupied k ((moves_secondBad _ k a p).mono (by decide))) fun _ own others => ?_
    rw [own]
    exact ⟨rfl, rfl, rfl, rfl, rfl, others⟩

/-- R12, R13: the pulse that completes the pickup count takes OCCUPIED to CLEAR. -/
theorem PulseEnds.picks_up (h : PulseEnds s t k a p) (unstaged : (s.circuit k).staged = [])
    (in_range : pulseLevel s k a ≤ (s.tables.track k).overLevel) (no_foreign : (s.circuit k).foreignActive = false)
    (no_over : (s.circuit k).overActive = false) (no_margin : (s.circuit k).marginActive = false)
    (occupied : (s.circuit k).state = .occupied) (good : classOf s k p = .good)
    (reached : (s.tables.track k).pickup ≤ pulseLevel s k a) (margin : (s.tables.track k).margin ≤ pulseLevel s k a)
    (counts : (s.tables.track k).pickupCount ≤ min ((s.circuit k).g + 1) 15)
    (passed : (s.circuit k).occupiedSince.getD 0 + (s.tables.track k).minOccupancy * 100 ≤ max s.now t) :
    Takes (.pulseEndConversionComplete t a) s pulseParts fun u =>
      (u.circuit k).state = .clear ∧ (u.circuit k).lavg = some (pulseLevel s k a) ∧ (u.circuit k).bad = 0
        ∧ (u.circuit k).lastL = some (pulseLevel s k a) ∧ OtherCircuits k s u := by
  have bound : pulseLevel s k a ≤ 1999 := levelOf_le ..
  have counted := State.circuit_modCircuit_same (s.takesPulse t k) k (Circuit.counted p a (pulseLevel s k a)) h.there
  rw [h.own] at counted
  obtain ⟨entered, changed⟩ := goodPulse_picks_up (k := k) (level := pulseLevel s k a)
    (s := (s.takesPulse t k).modCircuit k (Circuit.counted p a (pulseLevel s k a)))
    (by rw [State.modCircuit_circuits, length_modAt]; exact h.there) (by rw [counted]; exact occupied) reached margin
    (by rw [counted]; exact counts) (by rw [counted]; exact passed) (by rw [counted]; exact unstaged)
    (by rw [counted]; exact no_margin)
  have taken := classifyPulse_of_good (a := a) h.there good in_range (by rw [h.own]; exact no_foreign)
    (by rw [h.own]; exact no_over)
  rw [State.modCircuit_circuits, modAt_modAt] at changed
  have moved : Moves clearKinds (s.takesPulse t k) (enterClear k (pulseLevel s k a)
      (((s.takesPulse t k).modCircuit k (Circuit.counted p a (pulseLevel s k a))).modCircuit k Circuit.run)) := by
    refine Moves.to_enterClear k _ bound ?_ (Moves.to_modCircuit k _ ((moves_counted _ k a _ p bound).mono (by decide))
      ⟨fun ⟨_, rest⟩ => ⟨Nat.min_le_right _ _, rest⟩, rfl⟩)
    rw [modCircuit_modCircuit, State.circuit_modCircuit_same _ _ _ h.there, h.own]
    exact occupied
  rw [← entered] at moved
  refine h.takes (ks := clearKinds) taken changed rfl rfl moved fun _ own others => ?_
  rw [own]
  exact ⟨rfl, rfl, rfl, rfl, others⟩

/-- R15: a FOREIGN pulse begins TRACK_FOREIGN, which confines the circuit. -/
theorem PulseEnds.begins_foreign (h : PulseEnds s t k a p) (sole : (s.circuit k).confinement = [])
    (no_foreign : (s.circuit k).foreignActive = false) (no_margin : (s.circuit k).marginActive = false)
    (foreign : classOf s k p = .foreign) (confines : reactionOf s 2 = .confine)
    (absent : s.faults.find 2 (some k) = none) (room : s.faults.records.length < 32) :
    Takes (.pulseEndConversionComplete t a) s pulseParts fun u =>
      (u.circuit k).state = .failed ∧ (u.circuit k).g = 0 ∧ (u.circuit k).bad = 0
        ∧ (u.circuit k).foreignActive = true ∧ (u.circuit k).foreignEnd = 0
        ∧ (u.circuit k).confinement = [2] ∧ OtherCircuits k s u
        ∧ u.faults.find 2 (some k)
          = some ⟨2, some k, true, 1, s.register.day, s.register.tenths, s.register.day,
              s.register.tenths, .confine⟩ := by
  have taken := classifyPulse_of_foreign (a := a) h.there (by rw [h.own]; exact no_foreign) foreign
  have changed := raise_track_circuits (s := (s.takesPulse t k).modCircuit k (Circuit.foreignBegun p a)) (k := k)
    (.inr (.inl rfl)) absent room confines
  rw [State.modCircuit_circuits, modAt_modAt] at changed
  have failed := Circuit.confinedBy_of_sole (c := 2) (r := (s.circuit k).withoutPulse.foreignBegun p a) h.runs sole
    no_margin
  refine h.takes (ks := fallKinds) taken changed ?_ ?_
    (Moves.to_raise_track (s := (s.takesPulse t k).modCircuit k (Circuit.foreignBegun p a)) (.inr (.inl rfl)) absent
      room confines ((moves_foreignBegun _ k a p).mono (by decide)))
    fun agreed own others => ?_
  · exact Eq.trans (congrArg Circuit.learning failed) rfl
  · exact Eq.trans (congrArg Circuit.nextWiring failed) rfl
  · rw [own.trans failed]
    refine ⟨rfl, rfl, rfl, rfl, rfl, rfl, others, ?_⟩
    rw [finish_faults agreed]
    exact raise_track_find (s := (s.takesPulse t k).modCircuit k (Circuit.foreignBegun p a)) (.inr (.inl rfl)) absent
      room confines h.undisputed

end Sys2Proof.Machine
end

section
/-! Pulses of causes that stand: overlevel pulses, end counts and the margin test (R15, R18). -/

set_option Elab.async false

namespace Sys2Proof.Machine

variable {s u v w : State} {k a level c : Nat} {t : Time} {p : Pulse} {r : FaultRecord} {subject : Option Nat}

/-! ### Overlevel pulses (R15) -/

/-- A circuit's record as a GOOD pulse leaves it to TRACK_OVERLEVEL, TRACK_FOREIGN not active (R15). -/
def Circuit.overCounted (p : Pulse) (a level : Nat) (c : Circuit) : Circuit :=
  { c with
    lastP := p.period, lastA := some a, lastL := some level, bad := 0, foreignEnd := min (c.foreignEnd + 1) 10 }

theorem classifyPulse_of_over (here : within k s.circuits.length = true)
    (good : classify p.period (trackCfg s k).pnom ((trackCfg s k).neighbours.map fun n => (trackCfg s n).pnom)
      = .good)
    (above : (trackCfg s k).overLevel < levelOf a (trackCfg s k).aref)
    (no_foreign : (s.circuit k).foreignActive = false) :
    classifyPulse k a p s
      = overlevelPulse k (s.modCircuit k (Circuit.overCounted p a (levelOf a (trackCfg s k).aref))) := by
  rw [classifyPulse_eq, good]
  refine (if_pos above).trans (congrArg (overlevelPulse k) ?_)
  rw [modCircuit_modCircuit, advanceForeign_of_inactive, modCircuit_modCircuit]
  · rfl
  · rw [State.circuit_modCircuit_same _ _ _ here]
    exact no_foreign

theorem moves_overCounted (s : State) (k a level : Nat) (p : Pulse) (bound : level ≤ 1999) :
    Moves [.circuit] s (s.modCircuit k (Circuit.overCounted p a level)) := by
  refine Moves.refl.to_modCircuit k _ ⟨fun sound => ?_, rfl⟩
  obtain ⟨g, -, -, overlevel, -, smoothed⟩ := sound
  exact ⟨g, Nat.zero_le _, Nat.min_le_right _ _, overlevel, fun _ h => Option.some.inj h ▸ bound, smoothed⟩

/-- A circuit whose TRACK_OVERLEVEL cause a pulse begins, or goes on with (R15). -/
def Circuit.overBegun (c : Circuit) : Circuit := { c with overActive := true, overEnd := 0 }

theorem steady_overBegun (c : Circuit) : Circuit.Steady c c.overBegun :=
  ⟨fun ⟨g, bad, foreign, _, rest⟩ => ⟨g, bad, foreign, Nat.zero_le _, rest⟩, rfl⟩

theorem classifyPulse_over_again (here : within k s.circuits.length = true)
    (good : classify p.period (trackCfg s k).pnom ((trackCfg s k).neighbours.map fun n => (trackCfg s n).pnom)
      = .good)
    (above : (trackCfg s k).overLevel < levelOf a (trackCfg s k).aref)
    (no_foreign : (s.circuit k).foreignActive = false) (active : (s.circuit k).overActive = true) :
    classifyPulse k a p s
      = s.modCircuit k (Circuit.overBegun ∘ Circuit.overCounted p a (levelOf a (trackCfg s k).aref)) := by
  rw [classifyPulse_of_over here good above no_foreign, overlevelPulse_of_active, modCircuit_modCircuit]
  · rfl
  · rw [State.circuit_modCircuit_same _ _ _ here]
    exact active

theorem classifyPulse_over_first (here : within k s.circuits.length = true)
    (good : classify p.period (trackCfg s k).pnom ((trackCfg s k).neighbours.map fun n => (trackCfg s n).pnom)
      = .good)
    (above : (trackCfg s k).overLevel < levelOf a (trackCfg s k).aref)
    (no_foreign : (s.circuit k).foreignActive = false) (inactive : (s.circuit k).overActive = false) :
    classifyPulse k a p s
      = raise 3 (some k)
          (s.modCircuit k (Circuit.overBegun ∘ Circuit.overCounted p a (levelOf a (trackCfg s k).aref))) := by
  rw [classifyPulse_of_over here good above no_foreign, overlevelPulse_of_first, modCircuit_modCircuit]
  · rfl
  · rw [State.circuit_modCircuit_same _ _ _ here]
    exact inactive

/-! ### End counts (R15) -/

theorem beforeGoodPulse_circuits (k a : Nat) (s : State) :
    (beforeGoodPulse k a s).circuits
      = modAt s.circuits {} k (Circuit.overAdvanced ∘ Circuit.foreignAdvanced ∘ fun c =>
          { c with bad := 0, lastL := some (levelOf a (trackCfg s k).aref) }) := by
  rw [beforeGoodPulse, advanceOver_circuits, advanceForeign_circuits, State.modCircuit_circuits, modAt_modAt,
    modAt_modAt]
  rfl

/-- A record after a pulse that may end its cause. -/
def FaultRecord.after (ends : Bool) (r : FaultRecord) : FaultRecord := { r with active := r.active && !ends }

theorem FaultRecord.after_false : FaultRecord.after false = id := by
  funext r
  simp [after]

theorem FaultRecord.after_true : FaultRecord.after true = FaultRecord.latched := by
  funext r
  simp [after, latched]

theorem nine_iff {n : Nat} : min (n + 1) 10 = 10 ↔ 9 ≤ n := by omega

theorem advanceForeign_find (k : Nat) (s : State) :
    (advanceForeign k s).faults.find 2 (some k) = (s.faults.find 2 (some k)).map
        (FaultRecord.after ((s.circuit k).foreignActive && decide (9 ≤ (s.circuit k).foreignEnd)))
      ∧ (advanceForeign k s).faults.find 3 (some k) = s.faults.find 3 (some k) := by
  simp only [advanceForeign, endCause_latches 2 _ (by decide), nine_iff]
  split
  · next ends =>
    rw [latchRecord_find, latchRecord_find_other (by simp)]
    simp [ends, FaultRecord.after_true]
  · next goes_on =>
    have still : ((s.circuit k).foreignActive && decide (9 ≤ (s.circuit k).foreignEnd)) = false := by
      simpa using goes_on
    simp [still, FaultRecord.after_false]

theorem advanceOver_find (k : Nat) (s : State) :
    (advanceOver k s).faults.find 3 (some k) = (s.faults.find 3 (some k)).map
        (FaultRecord.after ((s.circuit k).overActive && decide (9 ≤ (s.circuit k).overEnd)))
      ∧ (advanceOver k s).faults.find 2 (some k) = s.faults.find 2 (some k) := by
  simp only [advanceOver, endCause_latches 3 _ (by decide), nine_iff]
  split
  · next ends =>
    rw [latchRecord_find, latchRecord_find_other (by simp)]
    simp [ends, FaultRecord.after_true]
  · next goes_on =>
    have still : ((s.circuit k).overActive && decide (9 ≤ (s.circuit k).overEnd)) = false := by
      simpa using goes_on
    simp [still, FaultRecord.after_false]

theorem beforeGoodPulse_find (here : within k s.circuits.length = true) :
    (beforeGoodPulse k a s).faults.find 2 (some k) = (s.faults.find 2 (some k)).map
        (FaultRecord.after ((s.circuit k).foreignActive && decide (9 ≤ (s.circuit k).foreignEnd)))
      ∧ (beforeGoodPulse k a s).faults.find 3 (some k) = (s.faults.find 3 (some k)).map
        (FaultRecord.after ((s.circuit k).overActive && decide (9 ≤ (s.circuit k).overEnd))) := by
  have first := State.circuit_modCircuit_same s k
    (fun c => { c with bad := 0, lastL := some (levelOf a (trackCfg s k).aref) }) here
  have second := circuit_of_changed (by rwa [State.modCircuit_circuits, length_modAt])
    (advanceForeign_circuits k
      (s.modCircuit k fun c => { c with bad := 0, lastL := some (levelOf a (trackCfg s k).aref) }))
  rw [← State.circuit, first] at second
  have foreign := advanceForeign_find k
    (s.modCircuit k fun c => { c with bad := 0, lastL := some (levelOf a (trackCfg s k).aref) })
  have overlevel := advanceOver_find k (advanceForeign k
    (s.modCircuit k fun c => { c with bad := 0, lastL := some (levelOf a (trackCfg s k).aref) }))
  rw [first] at foreign
  rw [second] at overlevel
  exact ⟨overlevel.2.trans foreign.1, overlevel.1.trans (congrArg _ foreign.2)⟩

/-! ### The margin test (R18) -/

/-- A circuit's mark of its TRACK_MARGIN cause (R18). -/
def Circuit.marked (active : Bool) (c : Circuit) : Circuit := { c with marginActive := active }

theorem marginTest_begins {x : Nat} (smoothed : (s.circuit k).lavg = some x)
    (inactive : (s.circuit k).marginActive = false) (clear : (s.circuit k).state = .clear)
    (low : x < (trackCfg s k).margin) :
    marginTest k s = raise 4 (some k) (s.modCircuit k (Circuit.marked true)) := by
  simp only [marginTest, smoothed, inactive, clear, low, true_and, if_true]
  rfl

theorem marginTest_stays {x : Nat} (smoothed : (s.circuit k).lavg = some x)
    (active : (s.circuit k).marginActive = true) (low : x < (trackCfg s k).margin + 25) : marginTest k s = s := by
  simp [marginTest, smoothed, active, Nat.not_le.2 low]

theorem marginTest_ends {x : Nat} (smoothed : (s.circuit k).lavg = some x)
    (active : (s.circuit k).marginActive = true) (high : (trackCfg s k).margin + 25 ≤ x) :
    marginTest k s = endCause 4 (some k) (s.modCircuit k (Circuit.marked false)) := by
  simp only [marginTest, smoothed, active, if_true, if_pos high]
  rfl

theorem clearRecord_of_found {b : Bool} (found : s.faults.find c subject = some r) :
    clearRecord r b s
      = append (.faultCleared c subject r.reaction r.count b) (s.modFaults fun f => f.remove c subject) := by
  obtain ⟨source, held⟩ := (isFor_iff r c subject).1 (List.find?_some (p := fun q : FaultRecord => q.isFor c subject) found)
  rw [clearRecord, source, held]

theorem dropSource_of_absent {l : List Nat} (absent : c ∉ l) : dropSource c l = l :=
  List.filter_eq_self.2 fun _ held => bne_iff_ne.2 fun same => absent (same ▸ held)

/-- A source leaves a confinement set that it is not in. -/
theorem unconfineTrack_of_absent (absent : c ∉ (s.circuit k).confinement) : unconfineTrack c k s = s := by
  have kept : s.modCircuit k (fun r => { r with confinement := dropSource c r.confinement }) = s := by
    rw [State.modCircuit, modAt_self]
    rw [← State.circuit, dropSource_of_absent absent]
  simp only [unconfineTrack, kept]
  exact if_neg fun ⟨some_held, none_left, _⟩ => some_held none_left

theorem endCause_margin (found : s.faults.find 4 (some k) = some r) (absent : 4 ∉ (s.circuit k).confinement) :
    endCause 4 (some k) s
      = noteFault 4 (append (.faultCleared 4 (some k) r.reaction r.count false)
          (s.modFaults fun f => f.remove 4 (some k))) := by
  have clears : (source 4).selfClearing = true := by decide
  simp only [endCause, clears, if_true, found, clearRecord_of_found found]
  exact congrArg (noteFault 4) (unconfineTrack_of_absent absent)

/-! ### The record of the circuit after a GOOD pulse that stands -/

theorem classifyPulse_of_good_failed (here : within k s.circuits.length = true)
    (good : classify p.period (trackCfg s k).pnom ((trackCfg s k).neighbours.map fun n => (trackCfg s n).pnom)
      = .good)
    (in_range : levelOf a (trackCfg s k).aref ≤ (trackCfg s k).overLevel) (failed : (s.circuit k).state = .failed) :
    classifyPulse k a p s = beforeGoodPulse k a (s.modCircuit k (Circuit.measured p a)) := by
  have there : within k (s.modCircuit k (Circuit.measured p a)).circuits.length = true := by
    rwa [State.modCircuit_circuits, length_modAt]
  have own := circuit_of_changed there (beforeGoodPulse_circuits k a (s.modCircuit k (Circuit.measured p a)))
  rw [← State.circuit, State.circuit_modCircuit_same _ _ _ here] at own
  rw [classifyPulse_eq, good]
  refine (goodPeriodPulse_of_le (s := s.modCircuit k (Circuit.measured p a)) in_range).trans ?_
  refine goodPulse_of_failed ?_
  rw [own]
  exact failed

/-- A circuit's smoothed level, moved towards a level (R17). -/
def Circuit.smoothed (level : Nat) (c : Circuit) : Circuit := { c with lavg := c.lavg.map (smooth · level) }

theorem goodPulse_of_clear (clear : (s.circuit k).state = .clear) (least : (trackCfg s k).drop ≤ level) :
    goodPulse k level s = marginTest k (s.modCircuit k (Circuit.smoothed level)) := by
  simp only [goodPulse, clear, if_neg (Nat.not_lt.2 least)]
  rfl

theorem moves_smoothed (s : State) (k level : Nat) (bound : level ≤ 1999) :
    Moves [.circuit] s (s.modCircuit k (Circuit.smoothed level)) := by
  refine Moves.refl.to_modCircuit k _ ⟨fun ⟨g, bad, foreign, overlevel, last, smoothed⟩ => ?_, rfl⟩
  refine ⟨g, bad, foreign, overlevel, last, fun l moved => ?_⟩
  obtain ⟨v, before, rfl⟩ := Option.map_eq_some_iff.1 moved
  exact smooth_le v level (smoothed v before) bound

end Sys2Proof.Machine
end

section
/-! The rows of pulses whose causes stand, and of pulses learnt from (R15, R18, R23). -/

set_option Elab.async false

namespace Sys2Proof.Machine

variable {s u v w : State} {k a level n sum : Nat} {t : Time} {p : Pulse} {l : Learning} {r : FaultRecord}

/-! ### End counts and overlevel pulses -/

section
variable (h : PulseEnds s t k a p) (good : classOf s k p = .good)

include h good

theorem PulseEnds.goes_on_over (above : (s.tables.track k).overLevel < pulseLevel s k a)
    (no_foreign : (s.circuit k).foreignActive = false) (active : (s.circuit k).overActive = true) :
    Takes (.pulseEndConversionComplete t a) s [.tracks, .converter] fun u =>
      u.circuit k = { Circuit.overCounted p a (pulseLevel s k a) (s.circuit k).withoutPulse with overEnd := 0 }
        ∧ OtherCircuits k s u := by
  have taken := classifyPulse_over_again (a := a) h.there good above (by rw [h.own]; exact no_foreign)
    (by rw [h.own]; exact active)
  refine h.takes (ks := [.circuit]) taken rfl rfl rfl ?_ fun _ own others => ⟨own.trans ?_, others⟩
  · rw [← modCircuit_modCircuit]
    exact (moves_overCounted _ k a _ p (levelOf_le ..)).to_modCircuit k _ (steady_overBegun _)
  · simp only [Function.comp, Circuit.overBegun, Circuit.overCounted, Circuit.withoutPulse, active]
    rfl

/-- R15: an overlevel pulse begins TRACK_OVERLEVEL, which confines the circuit. -/
theorem PulseEnds.begins_over (above : (s.tables.track k).overLevel < pulseLevel s k a)
    (no_foreign : (s.circuit k).foreignActive = false) (inactive : (s.circuit k).overActive = false)
    (sole : (s.circuit k).confinement = []) (no_margin : (s.circuit k).marginActive = false)
    (confines : reactionOf s 3 = .confine) (absent : s.faults.find 3 (some k) = none)
    (room : s.faults.records.length < 32) :
    Takes (.pulseEndConversionComplete t a) s pulseParts fun u =>
      u.circuit k = { Circuit.overBegun (Circuit.overCounted p a (pulseLevel s k a) (s.circuit k).withoutPulse) with
          confinement := [3], state := .failed, g := 0 }
        ∧ OtherCircuits k s u
        ∧ u.faults.find 3 (some k)
          = some ⟨3, some k, true, 1, s.register.day, s.register.tenths, s.register.day, s.register.tenths,
              .confine⟩ := by
  have taken := classifyPulse_over_first (a := a) h.there good above (by rw [h.own]; exact no_foreign)
    (by rw [h.own]; exact inactive)
  have changed := raise_track_circuits (k := k)
    (s := (s.takesPulse t k).modCircuit k (Circuit.overBegun ∘ Circuit.overCounted p a (pulseLevel s k a)))
    (.inr (.inr rfl)) absent room confines
  rw [State.modCircuit_circuits, modAt_modAt] at changed
  have failed := Circuit.confinedBy_of_sole (c := 3)
    (r := Circuit.overBegun (Circuit.overCounted p a (pulseLevel s k a) (s.circuit k).withoutPulse)) h.runs sole
    no_margin
  refine h.takes (ks := fallKinds) taken changed ?_ ?_
    (Moves.to_raise_track (.inr (.inr rfl)) (c := 3) (k := k)
      (s := (s.takesPulse t k).modCircuit k (Circuit.overBegun ∘ Circuit.overCounted p a (pulseLevel s k a)))
      absent room confines ?_) fun agreed own others => ⟨own.trans failed, others, ?_⟩
  · exact Eq.trans (congrArg Circuit.learning failed) rfl
  · exact Eq.trans (congrArg Circuit.nextWiring failed) rfl
  · rw [← modCircuit_modCircuit]
    exact ((moves_overCounted _ k a _ p (levelOf_le ..)).mono (by decide)).to_modCircuit k _ (steady_overBegun _)
  · rw [finish_faults agreed]
    exact raise_track_find (k := k)
      (s := (s.takesPulse t k).modCircuit k (Circuit.overBegun ∘ Circuit.overCounted p a (pulseLevel s k a)))
      (.inr (.inr rfl)) absent room confines h.undisputed

/-- R15: a GOOD pulse of a FAILED circuit advances both end counts; the one that comes to 10 ends its cause. -/
theorem PulseEnds.advances (in_range : pulseLevel s k a ≤ (s.tables.track k).overLevel)
    (failed : (s.circuit k).state = .failed) :
    Takes (.pulseEndConversionComplete t a) s [.tracks, .converter, .faults] fun u =>
      u.circuit k = Circuit.overAdvanced (Circuit.foreignAdvanced
          { (s.circuit k).withoutPulse.measured p a with bad := 0, lastL := some (pulseLevel s k a) })
        ∧ OtherCircuits k s u
        ∧ u.faults.find 2 (some k) = (s.faults.find 2 (some k)).map
          (FaultRecord.after ((s.circuit k).foreignActive && decide (9 ≤ (s.circuit k).foreignEnd)))
        ∧ u.faults.find 3 (some k) = (s.faults.find 3 (some k)).map
          (FaultRecord.after ((s.circuit k).overActive && decide (9 ≤ (s.circuit k).overEnd))) := by
  have measured := State.circuit_modCircuit_same (s.takesPulse t k) k (Circuit.measured p a) h.there
  rw [h.own] at measured
  have there : within k ((s.takesPulse t k).modCircuit k (Circuit.measured p a)).circuits.length = true := by
    rw [State.modCircuit_circuits, length_modAt]
    exact h.there
  have taken := classifyPulse_of_good_failed (a := a) h.there good in_range (by rw [h.own]; exact failed)
  have changed := beforeGoodPulse_circuits k a ((s.takesPulse t k).modCircuit k (Circuit.measured p a))
  have found := beforeGoodPulse_find (a := a) there
  rw [State.modCircuit_circuits, modAt_modAt] at changed
  rw [measured] at found
  refine h.takes (ks := [.note, .circuit, .faults]) taken changed rfl rfl
    ((Moves.refl.to_modCircuit k _).trans (moves_beforeGoodPulse k a _)) fun agreed own others => ⟨own, others, ?_⟩
  rw [finish_faults agreed]
  exact found

end

/-! ### The margin test -/

/-- The state in which the margin of a CLEAR circuit is tested at its GOOD pulse. -/
def State.smoothedBy (s : State) (t : Time) (k a : Nat) (p : Pulse) : State :=
  (s.takesPulse t k).modCircuit k (Circuit.smoothed (pulseLevel s k a) ∘ Circuit.counted p a (pulseLevel s k a))

/-- A GOOD pulse of a CLEAR circuit at or above its drop level comes to the margin test (R18). -/
structure PulseTested (s : State) (t : Time) (k a : Nat) (p : Pulse) (x : Nat) : Prop extends
    PulseEnds s t k a p where
  tested : classifyPulse k a p (s.takesPulse t k) = marginTest k (s.smoothedBy t k a p)
  smoothing : Circuit.smoothed (pulseLevel s k a) ((s.circuit k).withoutPulse.counted p a (pulseLevel s k a))
    = { (s.circuit k).withoutPulse.counted p a (pulseLevel s k a) with lavg := some x }
  moved : Moves [.circuit] (s.takesPulse t k) (s.smoothedBy t k a p)

theorem PulseEnds.comes_to_test {v : Nat} (h : PulseEnds s t k a p) (good : classOf s k p = .good)
    (in_range : pulseLevel s k a ≤ (s.tables.track k).overLevel) (least : (s.tables.track k).drop ≤ pulseLevel s k a)
    (clear : (s.circuit k).state = .clear) (no_foreign : (s.circuit k).foreignActive = false)
    (no_over : (s.circuit k).overActive = false) (lavg : (s.circuit k).lavg = some v) :
    PulseTested s t k a p (smooth v (pulseLevel s k a)) := by
  have bound : pulseLevel s k a ≤ 1999 := levelOf_le ..
  have counted := State.circuit_modCircuit_same (s.takesPulse t k) k (Circuit.counted p a (pulseLevel s k a)) h.there
  rw [h.own] at counted
  refine { h with tested := ?_, smoothing := ?_, moved := ?_ }
  · rw [State.smoothedBy, ← modCircuit_modCircuit]
    exact (classifyPulse_of_good (a := a) h.there good in_range (by rw [h.own]; exact no_foreign)
      (by rw [h.own]; exact no_over)).trans (goodPulse_of_clear ((congrArg Circuit.state counted).trans clear) least)
  · simp only [Circuit.smoothed, Circuit.counted, Circuit.withoutPulse, lavg]
    rfl
  · rw [State.smoothedBy, ← modCircuit_modCircuit]
    exact (moves_counted _ k a _ p bound).trans (moves_smoothed _ k _ bound)

theorem PulseTested.record {x : Nat} (h : PulseTested s t k a p x) :
    (s.smoothedBy t k a p).circuit k
      = { (s.circuit k).withoutPulse.counted p a (pulseLevel s k a) with lavg := some x } := by
  rw [State.smoothedBy, State.circuit_modCircuit_same _ _ _ h.there, h.own]
  exact h.smoothing

theorem PulseTested.changed {x : Nat} {active : Bool} (_ : PulseTested s t k a p x)
    (same : v.circuits = ((s.smoothedBy t k a p).modCircuit k (Circuit.marked active)).circuits) :
    v.circuits = modAt (s.takesPulse t k).circuits {} k (Circuit.marked active ∘
      Circuit.smoothed (pulseLevel s k a) ∘ Circuit.counted p a (pulseLevel s k a)) := by
  rw [same, State.modCircuit_circuits, State.smoothedBy, State.modCircuit_circuits, modAt_modAt]

/-- R18: a smoothed level below the margin level begins TRACK_MARGIN. -/
theorem PulseTested.begins {x : Nat} (h : PulseTested s t k a p x) (clear : (s.circuit k).state = .clear)
    (inactive : (s.circuit k).marginActive = false) (low : x < (s.tables.track k).margin)
    (report : reactionOf s 4 = .report) (absent : s.faults.find 4 (some k) = none)
    (room : s.faults.records.length < 32) :
    Takes (.pulseEndConversionComplete t a) s [.tracks, .converter, .faults, .register] fun u =>
      u.circuit k = { (s.circuit k).withoutPulse.counted p a (pulseLevel s k a) with
          lavg := some x, marginActive := true }
        ∧ OtherCircuits k s u
        ∧ u.faults = { s.faults with records := s.faults.records ++ [⟨4, some k, true, 1, s.register.day,
            s.register.tenths, s.register.day, s.register.tenths, .report⟩] }
        ∧ u.register = s.register.append (.faultRaised 4 (some k) .report 1) := by
  have raised := raise_new_report (c := 4) (subject := some k)
    (s := (s.smoothedBy t k a p).modCircuit k (Circuit.marked true)) absent room report
  have raising : Moves [.note, .record, .faults] ((s.smoothedBy t k a p).modCircuit k (Circuit.marked true))
      (raise 4 (some k) ((s.smoothedBy t k a p).modCircuit k (Circuit.marked true))) :=
    Moves.to_raise_new_report (s := (s.smoothedBy t k a p).modCircuit k (Circuit.marked true)) absent room report .refl
  have begins : marginTest k (s.smoothedBy t k a p)
      = raise 4 (some k) ((s.smoothedBy t k a p).modCircuit k (Circuit.marked true)) :=
    marginTest_begins (by rw [h.record]) (by rw [h.record]; exact inactive) (by rw [h.record]; exact clear) low
  have marked : Moves [.note, .record, .circuit, .faults] (s.takesPulse t k)
      ((s.smoothedBy t k a p).modCircuit k (Circuit.marked true)) :=
    (h.moved.mono (by decide)).to_modCircuit k (Circuit.marked true)
  refine h.takes (h.tested.trans begins) (h.changed (raising.exactly .tracks)) rfl rfl
    (marked.trans (raising.mono (by decide))) fun agreed own others => ⟨?_, others, ?_, ?_⟩
  · rw [own]
    exact congrArg (Circuit.marked true) h.smoothing
  · rw [finish_faults agreed]
    exact raised.1
  · rw [finish_register agreed]
    exact raised.2

/-- R18: a standing TRACK_MARGIN cause goes on until its smoothed level is 25 above the margin level. -/
theorem PulseTested.stays {x : Nat} (h : PulseTested s t k a p x) (active : (s.circuit k).marginActive = true)
    (low : x < (s.tables.track k).margin + 25) :
    Takes (.pulseEndConversionComplete t a) s [.tracks, .converter] fun u =>
      u.circuit k = { (s.circuit k).withoutPulse.counted p a (pulseLevel s k a) with lavg := some x }
        ∧ OtherCircuits k s u :=
  h.takes (ks := [.circuit])
    (h.tested.trans (marginTest_stays (by rw [h.record]) (by rw [h.record]; exact active) low)) rfl rfl rfl h.moved
    fun _ own others => ⟨own.trans h.smoothing, others⟩

theorem PulseTested.ends {x : Nat} (h : PulseTested s t k a p x) (active : (s.circuit k).marginActive = true)
    (high : (s.tables.track k).margin + 25 ≤ x) (found : s.faults.find 4 (some k) = some r)
    (absent : 4 ∉ (s.circuit k).confinement) :
    Takes (.pulseEndConversionComplete t a) s [.tracks, .converter, .faults, .register] fun u =>
      u.circuit k = { (s.circuit k).withoutPulse.counted p a (pulseLevel s k a) with
          lavg := some x, marginActive := false }
        ∧ OtherCircuits k s u ∧ u.faults = s.faults.remove 4 (some k)
        ∧ u.register = s.register.append (.faultCleared 4 (some k) r.reaction r.count false) := by
  have own_after : ((s.smoothedBy t k a p).modCircuit k (Circuit.marked false)).circuit k
      = Circuit.marked false { (s.circuit k).withoutPulse.counted p a (pulseLevel s k a) with lavg := some x } := by
    rw [State.circuit_modCircuit_same, h.record]
    rw [State.smoothedBy, State.modCircuit_circuits, length_modAt]
    exact h.there
  have ended := endCause_margin (s := (s.smoothedBy t k a p).modCircuit k (Circuit.marked false)) found
    (by rw [own_after]; exact absent)
  refine h.takes (ks := [.note, .record, .circuit, .faults])
    ((h.tested.trans (marginTest_ends (by rw [h.record]) (by rw [h.record]; exact active) high)).trans ended)
    (h.changed rfl) rfl rfl ?_ fun agreed own others => ⟨?_, others, ?_, ?_⟩
  · exact ((((h.moved.mono (by decide)).to_modCircuit k (Circuit.marked false)).to_modFaults _
      (Faults.eases_remove ..)).to_append _).to_noteFault 4
  · rw [own]
    exact congrArg (Circuit.marked false) h.smoothing
  · rw [finish_faults agreed]
    rfl
  · rw [finish_register agreed]
    rfl

/-! ### Learning (R23) -/

theorem pulseConverted_of_disabled (busy : s.converter.busy = some (.pulse k))
    (awaited : (s.circuit k).pulse = some p) (here : within k s.circuits.length = true)
    (off : (s.circuit k).state = .disabled)
    (still : ((learnPulse k a p (pulseTaken k s)).circuit k).state = .disabled) :
    pulseConverted a s = learnPulse k a p (pulseTaken k s) := by
  have idle : trackRuns (pulseTaken k s) k = false := by
    rw [trackRuns, pulseTaken_own here]
    exact bne_eq_false_iff_eq.2 off
  rw [pulseConverted_of_pulse busy awaited, idle, when_false, startWiring]
  exact if_neg fun runs => runs.1 still

/-- The learning record after a pulse that does not complete it (R23). -/
def Learning.after (l : Learning) (pnom a : Nat) (p : Pulse) : Learning :=
  match l.previous with
  | none => { l with previous := some p.rise }
  | some q => if inWindow (p.rise - q) pnom then ⟨some p.rise, l.samples + 1, l.sum + a⟩ else ⟨some p.rise, 0, 0⟩

/-- The nominal period that circuit `k` is learnt with. -/
abbrev learnsWith (s : State) (k : Nat) : Nat := ((s.store.work.getD Image.defaults).track k).pnom

/-- Whether a pulse completes the learning of a circuit (R23). -/
def Learning.Completes (l : Learning) (pnom : Nat) (p : Pulse) : Prop :=
  ∃ q, l.previous = some q ∧ inWindow (p.rise - q) pnom = true ∧ 7 ≤ l.samples

theorem learnPulse_of_open (learns : (s.circuit k).learning = some l)
    (goes_on : ¬ l.Completes (learnsWith s k) p) :
    learnPulse k a p s = s.modCircuit k fun c => { c with learning := some (l.after (learnsWith s k) a p) } := by
  simp only [learnPulse, learns, Learning.after]
  cases previous : l.previous with
  | none => rfl
  | some q =>
    by_cases fits : inWindow (p.rise - q) (learnsWith s k) = true
    · have few : l.samples + 1 < 8 := by
        by_contra many
        exact goes_on ⟨q, previous, fits, by omega⟩
      simp only [fits, if_true, if_pos few]
    · simp only [fits]
      rfl

theorem learnPulse_of_complete (learns : (s.circuit k).learning = some l) (completes : l.Completes (learnsWith s k) p) :
    learnPulse k a p s = completeLearning k (l.sum + a) s := by
  obtain ⟨q, previous, fits, many⟩ := completes
  simp only [learnPulse, learns, previous, fits, if_true, if_neg (show ¬ l.samples + 1 < 8 by omega)]

/-- A row that a circuit learns from, its learning left open. -/
theorem takes_learnt_open (undisputed : s.Undisputed) (here : within k s.circuits.length = true) (range : a ≤ 4095)
    (busy : s.converter.busy = some (.pulse k)) (awaited : (s.circuit k).pulse = some p)
    (off : (s.circuit k).state = .disabled) (learns : (s.circuit k).learning = some l)
    (goes_on : ¬ l.Completes (learnsWith s k) p) :
    Takes (.pulseEndConversionComplete t a) s [.tracks, .converter] fun u =>
      u.circuit k = { s.circuit k with pulse := none, learning := some (l.after (learnsWith s k) a p) }
        ∧ OtherCircuits k s u := by
  have own := pulseTaken_own (s := s.atTime t) here
  have learnt := learnPulse_of_open (s := pulseTaken k (s.atTime t)) (a := a) (by rw [own]; exact learns) goes_on
  have effect : pulseConverted (min a fullScale) (s.atTime t)
      = ((s.atTime t).modCircuit k ((fun c => { c with learning := some (l.after (learnsWith s k) a p) })
          ∘ Circuit.withoutPulse)).modConverter Converter.finish := by
    rw [min_fullScale range, pulseConverted_of_disabled (s := s.atTime t) busy awaited here off, learnt]
    · exact modCircuit_modCircuit ((s.atTime t).modConverter Converter.finish) k _ _
    · rw [learnt, State.circuit_modCircuit_same _ _ _ (pulseTaken_here (s := s.atTime t) here), own]
      exact off
  refine (Takes.of_circuit_and_converter (f := pulseConverted (min a fullScale)) rfl rfl undisputed here effect).imp ?_
  rintro u ⟨own, others, -⟩
  exact ⟨own, others⟩

/-- The circuit of a completed learning (R23). -/
def Circuit.learnt (v : Nat × Bool) (c : Circuit) : Circuit := { c with learning := none, learnResult := some v }

/-- The store of a completed learning: the working copy takes the value (R23). -/
def Store.learnt (k value : Nat) (st : Store) : Store :=
  { st with work := st.work.map fun i => { i with tracks := modAt i.tracks {} k fun c => { c with aref := value } } }

theorem finish_stored (agreed : v.Undisputed) : (finish v).store.stored = v.store.stored := by
  have kept : (finish v).store.kept = v.store.kept := finish_part agreed .store
  simpa only [Store.kept] using congrArg Store.stored kept

theorem finish_work (agreed : v.Undisputed) : (finish v).store.work = v.store.work := by
  have kept : (finish v).store.kept = v.store.kept := finish_part agreed .store
  simpa only [Store.kept] using congrArg Store.work kept

theorem completeLearning_eq (k sum : Nat) (s : State) :
    completeLearning k sum s
      = noteTrack k ((s.modStore (Store.learnt k (learned sum).1)).modCircuit k (Circuit.learnt (learned sum))) := rfl

theorem takes_learnt_complete (undisputed : s.Undisputed) (here : within k s.circuits.length = true) (range : a ≤ 4095)
    (busy : s.converter.busy = some (.pulse k)) (awaited : (s.circuit k).pulse = some p)
    (off : (s.circuit k).state = .disabled) (learns : (s.circuit k).learning = some l)
    (completes : l.Completes (learnsWith s k) p) :
    Takes (.pulseEndConversionComplete t a) s [.tracks, .converter, .store] fun u =>
      u.circuit k = (s.circuit k).withoutPulse.learnt (learned (l.sum + a)) ∧ OtherCircuits k s u
        ∧ u.store.stored = s.store.stored ∧ u.store.work = (s.store.learnt k (learned (l.sum + a)).1).work := by
  have own := pulseTaken_own (s := s.atTime t) here
  have learnt := (learnPulse_of_complete (s := pulseTaken k (s.atTime t)) (a := a) (by rw [own]; exact learns)
    completes).trans (completeLearning_eq ..)
  have changed : (completeLearning k (l.sum + a) (pulseTaken k (s.atTime t))).circuits
      = modAt s.circuits {} k (Circuit.learnt (learned (l.sum + a)) ∘ Circuit.withoutPulse) := by
    rw [completeLearning_eq]
    exact modAt_modAt s.circuits {} k Circuit.withoutPulse _
  have effect : pulseConverted (min a fullScale) (s.atTime t)
      = completeLearning k (l.sum + a) (pulseTaken k (s.atTime t)) := by
    rw [min_fullScale range, pulseConverted_of_disabled (s := s.atTime t) busy awaited here off, learnt,
      completeLearning_eq]
    rw [learnt, ← completeLearning_eq, circuit_of_changed here changed]
    exact off
  refine Takes.of_result (ks := [.note, .circuit, .converter, .store]) (f := pulseConverted (min a fullScale)) rfl rfl
    undisputed effect ?_ fun agreed _ => ?_
  · exact ((moves_takesPulse s t k).mono (by decide)).to_modStore _ |>.to_modCircuit k _ |>.to_noteTrack k
  · refine ⟨finish_own_circuit (s := s) agreed changed here, finish_other_circuits (s := s) agreed changed, ?_, ?_⟩
    · rw [finish_stored agreed, completeLearning_eq]
      rfl
    · rw [finish_work agreed, completeLearning_eq]
      rfl

/-- Settles O26: one lemma for each clause, by the class of the pulse and what it finds active. -/
theorem pulsesMoveTheCircuitState : Obligations.PulsesMoveTheCircuitState := by
  unfold Obligations.PulsesMoveTheCircuitState
  refine ⟨?_, ?_, ?_⟩
  · rintro s t k a p cls level c cfg undisputed inside length range rfl rfl busy awaited unlearned not_due sole unstaged
      no_foreign no_over no_margin rfl rfl in_range
    have ends : (s.circuit k).state ≠ .disabled → PulseEnds s t k a p := fun runs =>
      ⟨undisputed, inside_of_length inside length, range, busy, awaited, unlearned, not_due, runs⟩
    refine ⟨fun clear pulse => ?_, fun occupied good reached margin counts passed => ?_,
      fun runs foreign confines absent room => ?_⟩
    · exact (ends (by simp [clear])).falls in_range no_foreign no_over no_margin clear pulse
    · exact (ends (by simp [occupied])).picks_up unstaged in_range no_foreign no_over no_margin occupied good reached
        margin counts passed
    · exact (ends (by rcases runs with h | h <;> simp [h])).begins_foreign sole no_foreign no_margin foreign confines
        absent room
  · rintro s t k a p level c good cfg undisputed inside length range rfl rfl busy awaited unlearned not_due runs is_good
      rfl rfl
    have ends : PulseEnds s t k a p :=
      ⟨undisputed, inside_of_length inside length, range, busy, awaited, unlearned, not_due, runs⟩
    refine ⟨fun above no_foreign => ⟨ends.goes_on_over is_good above no_foreign,
      ends.begins_over is_good above no_foreign⟩, ends.advances is_good, ?_⟩
    rintro in_range least clear no_foreign no_over v x next lavg rfl rfl
    have tested := ends.comes_to_test is_good in_range least clear no_foreign no_over lavg
    exact ⟨tested.begins clear, tested.stays, fun _ => tested.ends⟩
  · rintro s t k a p c base l pnom undisputed inside length range rfl busy awaited off learns rfl rfl
    have here := inside_of_length inside length
    have stays_open := takes_learnt_open (t := t) undisputed here range busy awaited off learns
    refine ⟨fun first => ?_, fun q previous => ⟨fun misses => ?_, fun fits few => ?_, ?_⟩⟩
    · have learnt := stays_open fun ⟨q, previous, _⟩ => by cases first.symm.trans previous
      simpa only [Learning.after, first] using learnt
    · have learnt := stays_open fun ⟨q', same, fits, _⟩ => by
        cases previous.symm.trans same
        exact Bool.noConfusion (misses.symm.trans fits)
      simpa only [Learning.after, previous, misses, Bool.false_eq_true, if_false] using learnt
    · have learnt := stays_open fun ⟨_, _, _, many⟩ => by omega
      simpa only [Learning.after, previous, fits, if_true] using learnt
    · rintro fits many v rfl
      exact takes_learnt_complete undisputed here range busy awaited off learns ⟨q, previous, fits, many⟩

end Sys2Proof.Machine
end

section
/-! Occurrences counted, and the causes of wiring tests and converter tests (R162, R164, R166, R21, R167). -/

set_option Elab.async false

namespace Sys2Proof.Machine

variable {s u v : State} {k c n : Nat} {subject : Option Nat} {t : Time} {ks : List Kind} {r : FaultRecord}

/-! ### The counts (R162, R164) -/

theorem countOccurrence_of_found (found : s.faults.find c subject = some r) :
    (countOccurrence c subject s).faults = s.faults.update c subject fun r =>
      { r with count := min (r.count + 1) 255, active := true
               lastDay := s.register.day, lastTenths := s.register.tenths } := by
  simp only [countOccurrence, found]
  rfl

theorem occurrence_of_found (found : s.faults.find c subject = some r) :
    occurrence s c subject = ⟨r.reaction, c, min (r.count + 1) 255⟩ := by
  simp only [occurrence, found]

theorem reaction_of_absent (absent : s.faults.find c subject = none) :
    (occurrence s c subject).reaction = reactionOf s c := by
  simp only [occurrence, absent]
  split <;> rfl

theorem countOccurrence_of_full (absent : s.faults.find c subject = none) (full : s.faults.records.length = 32) :
    (countOccurrence c subject s).faults = { s.faults with
      overflowCount := min (s.faults.overflowCount + 1) 255
      overflowLast := some (c, subject)
      overflowReaction := some (higher s.faults.overflowReaction (reactionOf s c)) } := by
  simp only [countOccurrence, absent]
  exact congrArg State.faults (if_neg (by simp [full, faultTableSize]))

theorem code_higher (a : Option Reaction) (b : Reaction) :
    (higher a b).code = max ((a.map Reaction.code).getD 0) b.code := by
  cases a with
  | none => simp [higher]
  | some a =>
    simp only [higher, Option.map_some, Option.getD_some]
    split <;> omega

/-- An occurrence leaves the records of every other source and subject. -/
theorem countOccurrence_find_other {d : Nat} {o : Option Nat} (other : (d, o) ≠ (c, subject)) :
    (countOccurrence c subject s).faults.find d o = s.faults.find d o := by
  cases found : s.faults.find c subject with
  | some r =>
    rw [countOccurrence_of_found found]
    refine Faults.find_update_other other fun _ => ?_
    exact ⟨rfl, rfl⟩
  | none =>
    simp only [countOccurrence, found]
    split
    · refine Faults.find_append_other (Bool.eq_false_iff.2 fun own => other ?_)
      obtain ⟨rfl, rfl⟩ := (isFor_iff _ d o).1 own
      rfl
    · rfl

/-! ### The mode after a cause begins (R166) -/

theorem takeRestriction_mode (m : Mode) (s : State) : (takeRestriction m s).mode = some m := by
  have moved : Moves [.note, .inb, .link] (evaluateAll (endReleasesForMode (takeMode m s))) (takeRestriction m s) :=
    (Moves.refl.to_forEach _ fun k _ => Moves.refl.to_cutPermission k _).to_when _ fun _ => Moves.refl.to_modeToLinks
  exact ((moved.exactly .mode).1).trans (restrict_mode m s)

/-- A cause counted, its subject confined where the reaction asks for it (R162, R163). -/
def confineOccurrence (c : Nat) (subject : Option Nat) (s : State) : State :=
  let o := occurrence s c subject
  noteFault o.source (when (o.reaction != .report) (confine c o.source subject) (noteOccurrence c subject s))

/-- A cause that begins, up to the change of the mode: the entry of that change, and the lines of a link taken out
of use. -/
def tellOccurrence (c : Nat) (subject : Option Nat) (s : State) : State :=
  let w := confineOccurrence c subject s
  (match linkTaken c subject s with
    | some k => lineLost k .outOfUse
    | none => id) (when (suspends (occurrence s c subject) w) (append (.mode w.mode .suspended)) w)

theorem raise_eq (c : Nat) (subject : Option Nat) (s : State) :
    raise c subject s = when (suspends (occurrence s c subject) (tellOccurrence c subject s)) (takeRestriction .suspended)
      (tellOccurrence c subject s) := rfl

theorem moves_confineOccurrence (c : Nat) (subject : Option Nat) (s : State) :
    Moves calmKinds (noteOccurrence c subject s) (confineOccurrence c subject s) :=
  (Moves.refl.to_when _ fun _ => Moves.refl.to_confine ..).to_noteFault _

theorem moves_tellOccurrence (c : Nat) (subject : Option Nat) (s : State) :
    Moves calmKinds (noteOccurrence c subject s) (tellOccurrence c subject s) := by
  have told : Moves calmKinds (noteOccurrence c subject s)
      (when (suspends (occurrence s c subject) (confineOccurrence c subject s))
        (append (.mode (confineOccurrence c subject s).mode .suspended)) (confineOccurrence c subject s)) :=
    (moves_confineOccurrence c subject s).to_when _ fun _ => Moves.refl.to_append _
  unfold tellOccurrence
  cases linkTaken c subject s with
  | none => exact told
  | some k => exact told.to_lineLost k _

theorem raise_mode (c : Nat) (subject : Option Nat) (s : State) :
    (raise c subject s).mode = if (occurrence s c subject).reaction = .suspend ∧ s.mode = some .service then
      some .suspended else s.mode := by
  have counted : (noteOccurrence c subject s).mode = s.mode :=
    (leaves_countOccurrence c subject s).mode_eq
  have mode : (tellOccurrence c subject s).mode = s.mode :=
    ((moves_tellOccurrence c subject s).exactly .mode).1.trans counted
  have suspending : suspends (occurrence s c subject) (tellOccurrence c subject s) = true
      ↔ (occurrence s c subject).reaction = .suspend ∧ s.mode = some .service := by
    simp [suspends, State.inService, mode]
  rw [raise_eq]
  by_cases acts : suspends (occurrence s c subject) (tellOccurrence c subject s) = true
  · rw [acts, when_true, takeRestriction_mode, if_pos (suspending.1 acts)]
  · rw [Bool.not_eq_true] at acts
    rw [acts, when_false, mode, if_neg fun h => Bool.false_ne_true (acts.symm.trans (suspending.2 h))]

/-! ### Wiring tests that begin and end their cause (R21) -/

/-- A circuit's record after a wiring test's result. -/
def Circuit.tested (now : Time) (interval n : Nat) (c : Circuit) : Circuit :=
  { c with
    wiringOpen := false, wiringKind := c.wiringKind.other, wiringActive := decide (3900 ≤ n)
    nextWiring := some (now + interval * 1000) }

theorem wiringConverted_of_kept (busy : s.converter.busy = some (.wiring k)) (kept : s.converter.discard = false) :
    wiringConverted n s = judgeWiring k n (s.modConverter Converter.finish) := by
  simp only [wiringConverted, busy, kept]
  rfl

theorem judgeWiring_eq (k n : Nat) (s : State) :
    judgeWiring k n s
      = when (!wiringFails n && (s.circuit k).wiringActive) (endCause 1 (some k))
          (when (wiringFails n && !(s.circuit k).wiringActive) (raise 1 (some k))
            (s.modCircuit k (Circuit.tested s.now (trackCfg s k).wiringInterval n))) := rfl

theorem judgeWiring_begins (high : 3900 ≤ n) (inactive : (s.circuit k).wiringActive = false) :
    judgeWiring k n s
      = raise 1 (some k) (s.modCircuit k (Circuit.tested s.now (trackCfg s k).wiringInterval n)) := by
  have fails : wiringFails n = true := decide_eq_true high
  rw [judgeWiring_eq, inactive, fails]
  rfl

theorem judgeWiring_ends (low : n < 3900) (active : (s.circuit k).wiringActive = true) :
    judgeWiring k n s
      = latchRecord 1 (some k) (s.modCircuit k (Circuit.tested s.now (trackCfg s k).wiringInterval n)) := by
  have passes : wiringFails n = false := decide_eq_false (Nat.not_le.2 low)
  rw [judgeWiring_eq, active, passes, endCause_latches 1 _ (by decide)]
  rfl

/-! ### The converter test (R167) -/

/-- A converter test that ends its cause, or finds it as it stands. -/
theorem takeLow_head (test : ConverterTest) (low : Bool) (rest : List (ConverterTest × Bool)) :
    takeLow test ((test, low) :: rest) = (low, rest) := by
  simp [takeLow]

theorem referenceConverted_of_high {test : ConverterTest} {low : Bool} {rest : List (ConverterTest × Bool)}
    (busy : s.converter.busy = some (.reference true test)) (first : s.converter.lowResults = (test, low) :: rest) :
    referenceConverted n s
      = afterConverterTest test (low && decide (3056 ≤ n ∧ n ≤ 3088))
          (endConverterCheck (low && decide (3056 ≤ n ∧ n ≤ 3088)) (s.modConverter (Converter.testEnded rest))) := by
  have passed : referencePasses true n = decide (3056 ≤ n ∧ n ≤ 3088) := by simp [referencePasses, inRange]
  have taken : takeLow test s.converter.finish.lowResults = (low, rest) := by
    rw [Converter.finish_lowResults, first, takeLow_head]
  simp only [referenceConverted, busy, passed, State.modConverter, taken]
  rfl

/-- The mark of an active CONVERTER cause (R167). -/
def Faults.markConverter (active : Bool) (f : Faults) : Faults := { f with converterActive := active }

theorem endConverterCheck_begins (inactive : s.faults.converterActive = false) :
    endConverterCheck false s = raise 5 none (s.modFaults (Faults.markConverter true)) := by
  simp only [endConverterCheck, inactive]
  rfl

theorem endConverterCheck_ends (active : s.faults.converterActive = true) :
    endConverterCheck true s = latchRecord 5 none (s.modFaults (Faults.markConverter false)) := by
  simp only [endConverterCheck, active, endCause_latches 5 _ (by decide)]
  rfl

/-! ### A cause that confines many circuits -/

/-- Circuits changed one after the other, each by the same change of its own record. -/
theorem forEach_circuits {f : Nat → State → State} {g : Circuit → Circuit} {ns : List Nat} (once : ns.Nodup)
    (each : ∀ n s, (f n s).circuits = modAt s.circuits {} n g) (k : Nat) (s : State) :
    (forEach ns f s).circuit k
      = if k ∈ ns ∧ within k s.circuits.length = true then g (s.circuit k) else s.circuit k := by
  induction ns generalizing s with
  | nil => simp
  | cons n ns ih =>
    obtain ⟨absent, once⟩ := List.nodup_cons.1 once
    rw [forEach_cons, ih once, each, length_modAt, State.circuit, each, nth_modAt]
    by_cases same : k = n
    · subst same
      simp [absent, State.circuit]
    · simp [same, State.circuit]

theorem forEach_confineTrack_keeps {α : Type} {φ : Faults → α} {ns : List Nat} (undisputed : s.Undisputed)
    (kept : ∀ (f : Faults) (k : Nat), φ (f.remove 4 (some k)) = φ f) :
    φ (forEach ns (confineTrack c) s).faults = φ s.faults :=
  (forEach_keeps (I := fun t => t.Undisputed ∧ φ t.faults = φ s.faults) ns
    (fun n _ _ ⟨agreed, same⟩ => ⟨((Moves.refl (ks := fallKinds)).to_confineTrack c n).undisputed agreed,
      (confineTrack_keeps agreed (kept · n)).trans same⟩) s ⟨undisputed, rfl⟩).2

/-- Where no link is taken out of use, what follows the confinement is the change of the mode. -/
theorem moves_after_confinement (no_link : linkTaken c subject s = none) :
    Moves modeKinds (confineOccurrence c subject s) (raise c subject s) := by
  rw [raise_eq, tellOccurrence, no_link]
  exact (Moves.refl.to_when _ fun _ => Moves.refl.to_append _).to_when _
    fun _ => Moves.refl.to_takeRestriction _ (by decide)

section
variable (absent : s.faults.find 5 none = none) (room : s.faults.records.length < 32)
  (confines : reactionOf s 5 ≠ .report)

include absent room confines

theorem confineOccurrence_converter :
    confineOccurrence 5 none s = noteFault 5 (forEach (circuitsOn s) (confineTrack 5) (noteOccurrence 5 none s)) := by
  have made := occurrence_of_absent absent room
  have noted : circuitsOn (noteOccurrence 5 none s) = circuitsOn s := by
    rw [noteOccurrence, countOccurrence_of_absent absent room]
    rfl
  rw [confineOccurrence, made, ← noted, bne_iff_ne.2 confines]
  rfl

theorem raise_converter_circuit (k : Nat) (runs : (s.circuit k).state ≠ .disabled) (inside : within k 24 = true) :
    (raise 5 none s).circuit k = (s.circuit k).confinedBy 5 := by
  have noted : (noteOccurrence 5 none s).circuits = s.circuits := by
    rw [noteOccurrence, countOccurrence_of_absent absent room]
    rfl
  have after : (raise 5 none s).circuits = (confineOccurrence 5 none s).circuits :=
    (moves_after_confinement rfl).exactly .tracks
  have confined := forEach_circuits (circuitsOn_nodup s) (fun n t => confineTrack_circuits (c := 5) (by decide) n t) k
    (noteOccurrence 5 none s)
  rw [State.circuit, after, confineOccurrence_converter absent room confines]
  refine confined.trans ?_
  rw [noted, State.circuit, noted, if_pos ⟨mem_circuitsOn.2 ⟨inside, runs⟩, here_of_runs runs⟩]
  rfl

theorem raise_converter_faults {α : Type} {φ : Faults → α} (undisputed : s.Undisputed)
    (kept : ∀ (f : Faults) (k : Nat), φ (f.remove 4 (some k)) = φ f) :
    φ (raise 5 none s).faults
      = φ { s.faults with records := s.faults.records ++ [newRecord s 5 none] } := by
  have noted : (noteOccurrence 5 none s).Undisputed := by
    rw [noteOccurrence, countOccurrence_of_absent absent room]
    exact undisputed
  have agreed : (confineOccurrence 5 none s).Undisputed := (moves_confineOccurrence 5 none s).undisputed noted
  rw [(moves_after_confinement rfl).faults_kept agreed, confineOccurrence_converter absent room confines]
  refine (forEach_confineTrack_keeps noted kept).trans ?_
  rw [noteOccurrence_faults, countOccurrence_of_absent absent room]
  rfl

theorem raise_converter_instruments : (raise 5 none s).instruments = s.instruments := by
  have after : (raise 5 none s).instruments = (confineOccurrence 5 none s).instruments :=
    (moves_after_confinement rfl).exactly .instruments
  have confined : (forEach (circuitsOn s) (confineTrack 5) (noteOccurrence 5 none s)).instruments
      = (noteOccurrence 5 none s).instruments :=
    ((Moves.refl (ks := fallKinds)).to_forEach (circuitsOn s)
      fun k _ => Moves.refl.to_confineTrack 5 k).exactly .instruments
  rw [after, confineOccurrence_converter absent room confines]
  refine confined.trans ?_
  rw [noteOccurrence, countOccurrence_of_absent absent room]
  rfl

end

/-- A row that leaves one more part the same. -/
theorem Takes.narrow {i : Instr} {ps : List Part} {P : State → Prop} (q : Part) (silent : q.silent = true)
    (other : q ≠ .store) (h : Takes i s (q :: ps) fun u => q.same s u ∧ P u) : Takes i s ps P := by
  intro prompt
  obtain ⟨u, next, now, ⟨⟨pending, count, parts⟩, unstaged⟩, same, holds⟩ := h prompt
  refine ⟨u, next, now, ⟨⟨pending, count, fun x away => ?_⟩, fun none_staged => ?_⟩, holds⟩
  · by_cases own : x = q
    · exact own ▸ same
    · exact parts x (by simp [own, away])
  · obtain ⟨stored, quiet⟩ := unstaged none_staged
    refine ⟨fun away => stored (by simp [away, other.symm]), fun all_silent => quiet fun x mem => ?_⟩
    rcases List.mem_cons.1 mem with rfl | mem
    · exact silent
    · exact all_silent x mem

/-! ### The rows -/

/-- R21: a wiring test that fails begins TRACK_WIRING, which confines the circuit. -/
theorem takes_wiring_begins (undisputed : s.Undisputed) (here : within k s.circuits.length = true) (range : n ≤ 4095)
    (busy : s.converter.busy = some (.wiring k)) (kept : s.converter.discard = false) (high : 3900 ≤ n)
    (inactive : (s.circuit k).wiringActive = false) (runs : (s.circuit k).state ≠ .disabled)
    (sole : (s.circuit k).confinement = []) (no_margin : (s.circuit k).marginActive = false)
    (confines : reactionOf s 1 = .confine) (absent : s.faults.find 1 (some k) = none)
    (room : s.faults.records.length < 32) :
    Takes (.wiringConversionComplete t n) s
      [.tracks, .converter, .levers, .faults, .register, .holds, .timers, .inbound, .outbound] fun u =>
        u.circuit k = { (s.circuit k).tested (max s.now t) (s.tables.track k).wiringInterval n with
            confinement := [1], state := .failed, g := 0 }
          ∧ OtherCircuits k s u
          ∧ u.faults.find 1 (some k) = some ⟨1, some k, true, 1, s.register.day, s.register.tenths,
              s.register.day, s.register.tenths, .confine⟩ := by
  have effect : wiringConverted (min n fullScale) (s.atTime t) = raise 1 (some k)
      (((s.atTime t).modConverter Converter.finish).modCircuit k
        (Circuit.tested (max s.now t) (s.tables.track k).wiringInterval n)) := by
    rw [min_fullScale range, wiringConverted_of_kept (s := s.atTime t) busy kept]
    exact judgeWiring_begins (s := (s.atTime t).modConverter Converter.finish) high inactive
  have changed := raise_track_circuits (k := k) (s := ((s.atTime t).modConverter Converter.finish).modCircuit k
    (Circuit.tested (max s.now t) (s.tables.track k).wiringInterval n)) (.inl rfl) absent room confines
  rw [State.modCircuit_circuits, modAt_modAt] at changed
  have failed := Circuit.confinedBy_of_sole (c := 1)
    (r := (s.circuit k).tested (max s.now t) (s.tables.track k).wiringInterval n) runs sole no_margin
  refine Takes.of_result (ks := .converter :: fallKinds) (f := wiringConverted (min n fullScale)) rfl rfl undisputed
    effect ?_ fun agreed _ => ⟨(finish_own_circuit (s := s) agreed changed here).trans failed,
      finish_other_circuits (s := s) agreed changed, ?_⟩
  · exact Moves.to_raise_track (k := k) (s := ((s.atTime t).modConverter Converter.finish).modCircuit k
      (Circuit.tested (max s.now t) (s.tables.track k).wiringInterval n)) (.inl rfl) absent room confines
      ((Moves.refl.to_modConverter _).to_modCircuit k _)
  · rw [finish_faults agreed]
    exact raise_track_find (k := k) (s := ((s.atTime t).modConverter Converter.finish).modCircuit k
      (Circuit.tested (max s.now t) (s.tables.track k).wiringInterval n)) (.inl rfl) absent room confines undisputed

/-- R21: a wiring test that passes ends TRACK_WIRING. -/
theorem takes_wiring_ends (undisputed : s.Undisputed) (here : within k s.circuits.length = true) (range : n ≤ 4095)
    (busy : s.converter.busy = some (.wiring k)) (kept : s.converter.discard = false) (low : n < 3900)
    (active : (s.circuit k).wiringActive = true) :
    Takes (.wiringConversionComplete t n) s [.tracks, .converter, .faults] fun u =>
      u.circuit k = (s.circuit k).tested (max s.now t) (s.tables.track k).wiringInterval n
        ∧ OtherCircuits k s u
        ∧ u.faults.find 1 (some k) = (s.faults.find 1 (some k)).map FaultRecord.latched := by
  have effect : wiringConverted (min n fullScale) (s.atTime t) = latchRecord 1 (some k)
      (((s.atTime t).modConverter Converter.finish).modCircuit k
        (Circuit.tested (max s.now t) (s.tables.track k).wiringInterval n)) := by
    rw [min_fullScale range, wiringConverted_of_kept (s := s.atTime t) busy kept]
    exact judgeWiring_ends (s := (s.atTime t).modConverter Converter.finish) low active
  have changed := latchRecord_circuits 1 (some k) (((s.atTime t).modConverter Converter.finish).modCircuit k
    (Circuit.tested (max s.now t) (s.tables.track k).wiringInterval n))
  refine Takes.of_result (ks := [.note, .circuit, .converter, .faults]) (f := wiringConverted (min n fullScale)) rfl
    rfl undisputed effect
    (((Moves.refl.to_modConverter _).to_modCircuit k _).to_latchRecord 1 (some k)) fun agreed _ =>
      ⟨finish_own_circuit (s := s) agreed changed here, finish_other_circuits (s := s) agreed changed, ?_⟩
  rw [finish_faults agreed]
  exact latchRecord_find ..

/-- R167: a converter test that fails begins CONVERTER, which confines every enabled circuit. -/
theorem takes_converter_begins {rest : List (ConverterTest × Bool)} {low : Bool} (undisputed : s.Undisputed)
    (range : n ≤ 4095) (busy : s.converter.busy = some (.reference true .periodic))
    (first : s.converter.lowResults = (.periodic, low) :: rest) (fails : low = false ∨ n < 3056 ∨ 3088 < n)
    (inactive : s.faults.converterActive = false) (confines : reactionOf s 5 ≠ .report)
    (absent : s.faults.find 5 none = none) (room : s.faults.records.length < 32) :
    Takes (.referenceConversionComplete t n) s
      [.tracks, .converter, .levers, .faults, .register, .holds, .timers, .inbound, .outbound, .mode, .links] fun u =>
        u.faults.converterActive = true
          ∧ u.faults.find 5 none = some ⟨5, none, true, 1, s.register.day, s.register.tenths, s.register.day,
              s.register.tenths, reactionOf s 5⟩
          ∧ ∀ k, within k 24 = true → (s.circuit k).state ≠ .disabled →
            5 ∈ (u.circuit k).confinement
              ∧ ((s.circuit k).confinement = [] → (u.circuit k).state = .failed) := by
  have failed : (low && decide (3056 ≤ n ∧ n ≤ 3088)) = false := by
    rcases fails with rfl | outside
    · rfl
    · rw [decide_eq_false (by omega), Bool.and_false]
  have effect : referenceConverted (min n fullScale) (s.atTime t) = raise 5 none
      (((s.atTime t).modConverter (Converter.testEnded rest)).modFaults (Faults.markConverter true)) := by
    rw [min_fullScale range, referenceConverted_of_high (s := s.atTime t) busy first, failed]
    exact endConverterCheck_begins (s := (s.atTime t).modConverter (Converter.testEnded rest)) inactive
  have keeps := fun {α : Type} {φ : Faults → α} => raise_converter_faults (φ := φ)
    (s := ((s.atTime t).modConverter (Converter.testEnded rest)).modFaults (Faults.markConverter true)) absent room
    confines undisputed
  refine Takes.narrow .instruments rfl (by decide) ?_
  refine Takes.of_result (ks := .converter :: raiseKinds) (f := referenceConverted (min n fullScale)) rfl rfl
    undisputed effect (((Moves.refl.to_modConverter _).to_modFaults _).to_raise _ _) fun agreed _ => ⟨?_, ?_, ?_, ?_⟩
  · exact (finish_instruments agreed).trans (raise_converter_instruments
      (s := ((s.atTime t).modConverter (Converter.testEnded rest)).modFaults (Faults.markConverter true)) absent room
      confines)
  · rw [finish_faults agreed]
    exact keeps (φ := Faults.converterActive) fun _ _ => rfl
  · rw [finish_faults agreed]
    refine (keeps (φ := (·.find 5 none)) fun f k => Faults.find_remove_other (by simp)).trans ?_
    exact Faults.find_append absent (newRecord_isFor ..)
  · intro k inside runs
    have confined := raise_converter_circuit
      (s := ((s.atTime t).modConverter (Converter.testEnded rest)).modFaults (Faults.markConverter true)) absent room
      confines k runs inside
    rw [finish_circuit agreed, confined]
    exact ⟨Circuit.mem_confinedBy (by decide) runs, Circuit.failed_of_confinedBy runs⟩

/-- R167: a converter test that passes ends CONVERTER. -/
theorem takes_converter_ends {rest : List (ConverterTest × Bool)} (undisputed : s.Undisputed) (range : n ≤ 4095)
    (busy : s.converter.busy = some (.reference true .periodic))
    (first : s.converter.lowResults = (.periodic, true) :: rest) (least : 3056 ≤ n) (most : n ≤ 3088)
    (active : s.faults.converterActive = true) :
    Takes (.referenceConversionComplete t n) s [.converter, .faults] fun u =>
      u.faults.converterActive = false
        ∧ u.faults.find 5 none = (s.faults.find 5 none).map FaultRecord.latched := by
  have effect : referenceConverted (min n fullScale) (s.atTime t) = latchRecord 5 none
      (((s.atTime t).modConverter (Converter.testEnded rest)).modFaults (Faults.markConverter false)) := by
    rw [min_fullScale range, referenceConverted_of_high (s := s.atTime t) busy first,
      decide_eq_true (And.intro least most)]
    exact endConverterCheck_ends (s := (s.atTime t).modConverter (Converter.testEnded rest)) active
  refine Takes.of_result (ks := [.note, .converter, .faults]) (f := referenceConverted (min n fullScale)) rfl rfl
    undisputed effect (((Moves.refl.to_modConverter _).to_modFaults _).to_latchRecord 5 none) fun agreed _ => ?_
  rw [finish_faults agreed]
  refine ⟨?_, latchRecord_find ..⟩
  rw [latchRecord_faults]
  rfl

/-- Settles O52: the counts by the case of `countOccurrence`, and a lemma for each test that begins or ends its
cause. -/
theorem occurrencesAreCountedBySourceAndSubject : Obligations.OccurrencesAreCountedBySourceAndSubject := by
  unfold Obligations.OccurrencesAreCountedBySourceAndSubject
  refine ⟨?_, ?_, ?_⟩
  · rintro s u c subject f g rfl - rfl rfl
    refine ⟨fun r found => ⟨?_, ?_, congrArg Occurrence.reaction (occurrence_of_found found)⟩,
      fun d other away => countOccurrence_find_other away, reaction_of_absent, fun absent room => ?_,
      fun absent full => ?_, fun report => ⟨?_, ?_⟩, raise_mode c subject s, latchRecord_find c subject s⟩
    · rw [countOccurrence_of_found found, Faults.find_update, found]
      · rfl
      · exact fun _ => ⟨rfl, rfl⟩
    · rw [countOccurrence_of_found found]
      exact List.length_map _
    · rw [countOccurrence_of_absent absent room]
      rfl
    · rw [countOccurrence_of_full absent full]
      exact ⟨rfl, rfl, rfl, _, rfl, code_higher _ _⟩
    · rw [raise_of_report report]
      rfl
    · rw [raise_of_report report]
      refine (noteOccurrence_register c subject s).trans ?_
      rw [report]
  · rintro s t k n c w undisputed inside length range rfl busy kept rfl
    have here := inside_of_length inside length
    exact ⟨takes_wiring_begins undisputed here range busy kept, takes_wiring_ends undisputed here range busy kept⟩
  · rintro s t n low rest undisputed length range busy first
    refine ⟨takes_converter_begins undisputed range busy first, ?_⟩
    rintro rfl
    exact takes_converter_ends undisputed range busy first

end Sys2Proof.Machine
end

section
/-! The READ commands over numbered records and the TEST commands (R27, R28, R76, R77, R94, R95, R135, R172). -/

set_option Elab.async false

namespace Sys2Proof.Machine

variable {s u v : State} {k n f wanted : Nat} {t : Time} {i : Instr} {ks : List Kind} {ps : List Part}
  {P : State → Prop} {code : Nat} {command : State → Ran}

/-! ### A command that is done -/

/-- With host commands taken, the block runs the command, and what it makes of the state gets its result. -/
theorem runAlone_of_done {data : List Byte} (s_open : s.Open) (ran : command s = (v, .done data)) :
    runAlone code command s = endAlone (doneResult code data) v := by
  obtain ⟨started, no_warm, -⟩ := s_open
  simp [runAlone, started, no_warm, ran]

/-- A command row whose command is DONE at once. -/
theorem Takes.of_done {data : List Byte} (row : exec i s = .next (commandRow t code command s))
    (time : i.time = some t) (s_open : s.Open) (ran : command (s.atTime t) = (v, .done data))
    (moves : Moves ks (s.atTime t) v) (goes_on : endsBatch code = none)
    (holds : (endAlone (doneResult code data) v).Undisputed → v.now = max s.now t →
      (finish (endAlone (doneResult code data) v)).Gave code data → P (finish (endAlone (doneResult code data) v)))
    (parts : ∀ x ∈ Kind.result :: ks, ∀ q ∈ x.main, q ∈ ps := by decide)
    (lasting : Kind.stage ∉ Kind.result :: ks ∧ .begin ∉ Kind.result :: ks ∧ .time ∉ Kind.result :: ks := by decide)
    (stored : Part.store ∈ ps ∨ (Kind.store ∉ Kind.result :: ks ∧ .tables ∉ Kind.result :: ks
      ∧ .jobs ∉ Kind.result :: ks) := by decide)
    (quiet : (∃ p ∈ ps, p.silent = false) ∨ ∀ x ∈ Kind.result :: ks, Part.transmitter ∉ x.parts := by decide) :
    Takes i s ps P := by
  have undisputed : s.Undisputed := s_open.2.2
  have all_moves : Moves (.result :: ks) (s.atTime t) (endAlone (doneResult code data) v) :=
    (moves.mono fun _ => List.mem_cons_of_mem _).trans ((moves_endAlone goes_on v).mono (by simp))
  refine Takes.of_result (f := runAlone code command) row time undisputed (runAlone_of_done (s := s.atTime t) s_open ran)
    all_moves (fun agreed now => holds agreed now (finish_lastResult agreed)) parts lasting stored quiet

/-! ### Reads -/

theorem Takes.of_read {first count most last : Nat} {record : State → Nat → List Byte}
    (row : exec i s = .next (commandRow t code (read first count most last record) s)) (time : i.time = some t)
    (s_open : s.Open) (goes_on : endsBatch code = none) :
    Takes i s [.result] fun u =>
      if within first last then u.Gave code ((readNumbers first count most last).flatMap (record (s.atTime t)))
      else u.Refused code .range := by
  by_cases inside : within first last = true
  · simp only [inside, if_true]
    exact .of_reply row time s_open (if_pos inside) goes_on
  · simp only [inside]
    exact .of_refuse row time s_open (if_neg inside) goes_on

theorem readNumbers_eq_map (first count most last : Nat) :
    readNumbers first count most last
      = (List.range (min (min (max count 1) most) (last + 1 - first))).map (first + ·) := by
  rw [readNumbers, List.range'_eq_map_range]

/-- Settles O18: `Takes.of_read` for each of the five commands. -/
theorem numberedReadsReplyAndChangeNothing : Obligations.NumberedReadsReplyAndChangeNothing := by
  unfold Obligations.NumberedReadsReplyAndChangeNothing
  intro s t first count s_open
  exact ⟨.of_read rfl rfl s_open rfl, .of_read rfl rfl s_open rfl, .of_read rfl rfl s_open rfl,
    .of_read rfl rfl s_open rfl, .of_read rfl rfl s_open rfl, fun most last _ _ => readNumbers_eq_map ..⟩

/-! ### Tests -/

theorem test_of_fit {ok value : Bool} {data : List Byte} (flag : f ≤ 7) (fits : ok = true) :
    test ok f value data s = (setFlag f value s, .done data) := by
  simp [test, flag, fits]

theorem test_of_unfit {ok value : Bool} {data : List Byte} (unfit : 7 < f ∨ ok = false) :
    test ok f value data s = refuse .range s := by
  refine if_neg fun fits => ?_
  obtain ⟨flag, fits⟩ := Bool.and_eq_true_iff.1 fits
  rcases unfit with high | fails
  · exact Nat.not_le.2 high (of_decide_eq_true flag)
  · exact Bool.noConfusion (fits.symm.trans fails)

/-- A TEST command row whose operands fit. -/
theorem Takes.of_test {ok value : Bool} {data : List Byte} (row : exec i s = .next (commandRow t code command s))
    (time : i.time = some t) (s_open : s.Open) (tests : command (s.atTime t) = test ok f value data (s.atTime t))
    (flag : f ≤ 7) (fits : ok = true) (goes_on : endsBatch code = none) :
    Takes i s [.batch, .result] fun u => u.SetsFlag s f value ∧ u.Gave code data := by
  refine Takes.of_done (ks := [.flags]) row time s_open (tests.trans (test_of_fit flag fits)) (Moves.refl.to_setFlag ..) goes_on
    fun agreed _ gave => ⟨⟨?_, ?_, ?_, ?_⟩, gave⟩
  · exact finish_flags agreed
  · exact finish_executing agreed
  · exact finish_waiting agreed
  · rw [finish_warm agreed]
    simp only [endAlone, doneResult, if_true, goes_on]
    rfl

theorem Takes.of_test_unfit {ok value : Bool} {data : List Byte}
    (row : exec i s = .next (commandRow t code command s)) (time : i.time = some t) (s_open : s.Open)
    (tests : command (s.atTime t) = test ok f value data (s.atTime t)) (unfit : 7 < f ∨ ok = false)
    (goes_on : endsBatch code = none) : Takes i s [.result] fun u => u.Refused code .range :=
  .of_refuse row time s_open (tests.trans (test_of_unfit unfit)) goes_on

/-! ### What leaves the flags -/

theorem Leaves.flags_eq {ps : List Part} (h : Leaves ps s u) (away : .batch ∉ ps := by decide) :
    u.host.flags = s.host.flags := (h.2.2.2 .batch away).2.2.1

/-- Moves of no kind `flags` leave the flags. -/
theorem Moves.flags_eq (h : Moves ks s u) (away : .flags ∉ ks := by decide) : u.host.flags = s.host.flags := by
  induction h with
  | eval k _ _ ih => exact (leaves_evaluate k _).flags_eq.trans (ih away)
  | relever k g _ _ _ _ noted ih =>
    exact (leaves_evaluate k _).flags_eq.trans ((noted (by decide)).trans
      ((leaves_changeLever k g _).flags_eq.trans (ih away)))
  | cause c subject mem _ _ confined ih =>
    have counted := (confined (by decide)).trans ((leaves_append _ _).flags_eq.trans
      ((leaves_countOccurrence c subject _).flags_eq.trans (ih away)))
    unfold suspendFor
    split
    · exact ((leaves_restrict _ _).flags_eq (by simp [Kind.parts])).trans counted
    · exact counted
  | restrict m _ _ _ ih => exact ((leaves_restrict m _).flags_eq (by simp [Kind.parts])).trans (ih away)
  | serve m _ _ _ ih => exact ((leaves_serve m _).flags_eq (by simp [Kind.parts])).trans (ih away)
  | host g alters _ ih => exact (alters.2.1.resolve_left away).trans (ih away)
  | refl => rfl
  | _ =>
    rename_i ih
    exact ih away

/-- The kinds of move of the rows of circuits and of CLEAR FAULT, with the end of their steps. -/
abbrev flaglessKinds : List Kind := .converter :: .batch :: .result :: .bell :: .transmit :: pulseKinds

theorem flags_of_row {f : State → State} (row : exec i s = .next (finish (f (s.comeTo t)))) (time : i.time = some t)
    (prompt : s.Prompt i) (next : exec i s = .next u)
    (moves : Moves flaglessKinds (s.atTime t) (f (s.atTime t))) : u.host.flags = s.host.flags := by
  obtain rfl : finish (f (s.comeTo t)) = u := Host.Outcome.next.inj (row.symm.trans next)
  rw [comeTo_of_prompt (prompt.imp_right fun early => early t time)]
  exact moves.to_finish.flags_eq

theorem resumeBatch_of_idle {q : CmdResult} (idle : s.host.executing = none) : resumeBatch q s = s := by
  simp only [resumeBatch, idle]

theorem afterConverterTest_flags {test : ConverterTest} {passed : Bool} (idle : s.host.executing = none) :
    (finish (afterConverterTest test passed s)).host.flags = s.host.flags := by
  have finished : ∀ v, (finish v).host.flags = v.host.flags := fun v =>
    (Moves.refl (ks := finishKinds)).to_finish.flags_eq
  rw [finished]
  cases test with
  | startUp => exact ((Moves.refl (ks := onKinds)).to_startAfterConverter).flags_eq
  | periodic => rfl
  | table w signature =>
    have passes : testEvaluators s = s := by simp [testEvaluators, evaluatorTest_passes]
    simp only [afterConverterTest, passes]
    cases w with
    | batch => exact congrArg (·.host.flags) (resumeBatch_of_idle idle)
    | alone => exact ((Moves.refl (ks := [.batch, .result])).to_endAlone _).flags_eq

/-- Settles O20: the command as `test`, and the rows by the kinds of their moves. -/
theorem testTrackSetsItsFlag : Obligations.TestTrackSetsItsFlag := by
  unfold Obligations.TestTrackSetsItsFlag
  refine ⟨fun s t f k wanted s_open => ⟨fun flag inside fits => ?_, fun unfit => ?_⟩,
    fun s u t k a i mem prompt next => ?_, fun s u t a idle next => ?_⟩
  · exact Takes.of_test (command := cmdTestTrack f k wanted) rfl rfl s_open rfl flag
      (Bool.and_eq_true_iff.2 ⟨inside, decide_eq_true fits⟩) rfl
  · refine Takes.of_test_unfit (command := cmdTestTrack f k wanted) rfl rfl s_open rfl (unfit.imp_right fun out => ?_)
      rfl
    rcases out with outside | high
    · rw [outside, Bool.false_and]
    · rw [decide_eq_false (Nat.not_le.2 high), Bool.and_false]
  · simp only [List.mem_cons, List.not_mem_nil, or_false] at mem
    rcases mem with rfl | rfl | rfl | rfl | rfl | rfl | rfl | rfl | rfl
    · exact flags_of_row rfl rfl prompt next (Moves.refl.to_pulseRises k)
    · exact flags_of_row rfl rfl prompt next (Moves.refl.to_pulseFalls k)
    · exact flags_of_row rfl rfl prompt next (Moves.refl.to_candidateTimesOut k)
    · exact flags_of_row rfl rfl prompt next (Moves.refl.to_codeLostExpires k)
    · exact flags_of_row rfl rfl prompt next (Moves.refl.to_pulseConverted _)
    · exact flags_of_row rfl rfl prompt next (Moves.refl.to_wiringDue k)
    · exact flags_of_row rfl rfl prompt next (Moves.refl.to_wiringLoaded k)
    · exact flags_of_row rfl rfl prompt next (Moves.refl.to_wiringConverted _)
    · exact flags_of_row rfl rfl prompt next
        (Moves.to_runAlone _ (cmdClearFault k a) (Moves.refl.to_cmdClearFault k a) .refl)
  · obtain rfl : finish (referenceConverted (min a fullScale) (s.comeTo t)) = u := Host.Outcome.next.inj next
    rw [comeTo_of_prompt (.inl (by simp [turnDue, idle]))]
    simp only [referenceConverted]
    split
    · next high test _ =>
      split
      · have checked := fun passed rest => (((Moves.refl (ks := .converter :: raiseKinds) (s := s.atTime t)).to_modConverter
          Converter.finish).to_modConverter rest).to_endConverterCheck passed
        refine (afterConverterTest_flags ?_).trans (checked _ _).flags_eq
        exact ((checked _ _).exactly .batch).1.trans idle
      · exact (((Moves.refl (ks := .converter :: finishKinds)).to_modConverter _).to_modConverter _).to_finish.flags_eq
    · exact (Moves.refl (ks := finishKinds)).to_finish.flags_eq

/-! ### The other TEST commands -/

theorem lineState_inbound (inside : within k 3 = true) (s : State) : lineState s (2 * k - 1) = (s.inb k).state := by
  have odd : (2 * k - 1) % 2 = 1 := by have := within_le inside; omega
  have half : (2 * k - 1 + 1) / 2 = k := by have := within_le inside; omega
  rw [lineState, if_pos odd, half]

theorem lineState_outbound (k : Nat) (s : State) : lineState s (2 * k) = (s.outb k).state := by
  rw [lineState, if_neg (by omega), Nat.mul_div_cancel_left k (by decide)]

/-- The arrival sequence that TEST LINE reads: that of an inbound line of a configured link (R136). -/
def sequenceRead (s : State) (line : Nat) : Option SeqState :=
  if line % 2 = 1 ∧ s.linkOn (linkOfLine line) = true then some (s.inb (linkOfLine line)).sequence else none

theorem cmdTestLine_eq (f line wanted : Nat) (s : State) :
    cmdTestLine f line wanted s
      = test (within line 6 && decide (wanted ≤ 3)) f
          (if wanted = 3 then sequenceRead s line == some .complete
            else (lineState s line).map LineState.code == some wanted)
          (field1 ((lineState s line).map LineState.code) ++ field1 ((sequenceRead s line).map SeqState.code)) s := rfl

theorem sequenceRead_inbound (inside : within k 3 = true) (s : State) :
    sequenceRead s (2 * k - 1) = if s.linkOn k = true then some (s.inb k).sequence else none := by
  have odd : (2 * k - 1) % 2 = 1 := by have := within_le inside; omega
  have half : linkOfLine (2 * k - 1) = k := by have := within_le inside; simp only [linkOfLine]; omega
  simp only [sequenceRead, odd, half, true_and]

theorem sequenceRead_outbound (k : Nat) (s : State) : sequenceRead s (2 * k) = none :=
  if_neg fun h => by omega

/-- Whether a record found, ACTIVE or not, is as TEST FAULT wants it. -/
def faultMatches (wanted : Nat) (found : Option Bool) : Bool :=
  match wanted with
  | 0 => found.isNone
  | 1 => found.isSome
  | 2 => found == some true
  | _ => found == some false

theorem cmdTestFault_eq {c : Nat} {subject : Option Nat} (named : faultSubject c n = some subject) (f wanted : Nat) (s : State) :
    cmdTestFault f c n wanted s
      = test (decide (wanted ≤ 3)) f (faultMatches wanted (faultFound s.faults c subject))
          (field1 ((faultFound s.faults c subject).map fun a => if a then 0 else 1)) s := by
  simp only [cmdTestFault, named]
  rfl

/-- Settles O21: each command as `test`. -/
theorem testCommandsSetTheirFlag : Obligations.TestCommandsSetTheirFlag := by
  unfold Obligations.TestCommandsSetTheirFlag
  intro s t f n wanted s_open
  have fits : ∀ {p q : Bool}, p = true → q = true → (p && q) = true := fun h g => Bool.and_eq_true_iff.2 ⟨h, g⟩
  have fails : ∀ {p : Bool} {m : Nat}, p = false ∨ m < wanted → (p && decide (wanted ≤ m)) = false := by
    rintro p m (rfl | high)
    · rfl
    · rw [decide_eq_false (Nat.not_le.2 high), Bool.and_false]
  refine ⟨fun flag inside low => ?_, fun unfit => ?_, fun flag inside low => ?_, fun unfit => ?_,
    fun k inside flag low => ⟨?_, ?_⟩, fun unfit => ?_, fun c => ⟨fun flag low subject named => ?_, fun unfit => ?_⟩⟩
  · exact Takes.of_test (command := cmdTestLever f n wanted) rfl rfl s_open rfl flag (fits inside (decide_eq_true low)) rfl
  · exact Takes.of_test_unfit (command := cmdTestLever f n wanted) rfl rfl s_open rfl (unfit.imp_right fails) rfl
  · exact Takes.of_test (command := cmdTestHold f n wanted) rfl rfl s_open rfl flag (fits inside (decide_eq_true low)) rfl
  · exact Takes.of_test_unfit (command := cmdTestHold f n wanted) rfl rfl s_open rfl (unfit.imp_right fails) rfl
  · have line : within (2 * k - 1) 6 = true := by
      have := within_le inside
      simp only [within, Bool.and_eq_true_iff, decide_eq_true_eq]
      omega
    have tested := Takes.of_test (i := .testLine t f (2 * k - 1) wanted) (code := 0x41) rfl rfl s_open
      (cmdTestLine_eq f (2 * k - 1) wanted (s.atTime t)) flag (fits line (decide_eq_true low)) rfl
    rw [sequenceRead_inbound inside, lineState_inbound inside] at tested
    refine tested.imp fun u ⟨sets, gave⟩ => ⟨?_, ?_⟩
    · by_cases third : wanted = 3
      · subst third
        cases on : s.linkOn k <;> simpa [on] using sets
      · simpa [third] using sets
    · cases on : s.linkOn k <;> simpa [on, field1] using gave
  · have line : within (2 * k) 6 = true := by
      have := within_le inside
      simp only [within, Bool.and_eq_true_iff, decide_eq_true_eq]
      omega
    have tested := Takes.of_test (i := .testLine t f (2 * k) wanted) (code := 0x41) rfl rfl s_open
      (cmdTestLine_eq f (2 * k) wanted (s.atTime t)) flag (fits line (decide_eq_true low)) rfl
    rw [sequenceRead_outbound, lineState_outbound] at tested
    refine tested.imp fun u ⟨sets, gave⟩ => ⟨?_, gave⟩
    by_cases third : wanted = 3
    · simpa [third] using sets
    · have other : (wanted != 3) = true := bne_iff_ne.2 third
      simpa [third, other] using sets
  · exact Takes.of_test_unfit (command := cmdTestLine f n wanted) rfl rfl s_open rfl (unfit.imp_right fails) rfl
  · refine (Takes.of_test (i := .testFault t f c n wanted) (code := 0x71) rfl rfl s_open
      (cmdTestFault_eq named f wanted (s.atTime t)) flag (decide_eq_true low) rfl).imp
        fun u ⟨sets, gave⟩ => ⟨sets, ?_⟩
    cases found : faultFound s.faults c subject with
    | none => simpa [found, field1] using gave
    | some a => cases a <;> simpa [found, field1, byte] using gave
  · cases named : faultSubject c n with
    | none => exact .of_refuse rfl rfl s_open (by simp only [cmdTestFault, named]) rfl
    | some subject =>
      have unfit : 7 < f ∨ decide (wanted ≤ 3) = false := by
        rcases unfit with high | high | none_named
        · exact .inl high
        · exact .inr (decide_eq_false (Nat.not_le.2 high))
        · cases named.symm.trans none_named
      exact Takes.of_test_unfit (i := .testFault t f c n wanted) (code := 0x71) rfl rfl s_open
        (cmdTestFault_eq named f wanted (s.atTime t)) unfit rfl

end Sys2Proof.Machine
end

section
/-! The train register and box time (R157 to R161), and the release timers (R86 to R91). -/

set_option Elab.async false

namespace Sys2Proof.Machine

variable {s u v : State} {k n m day tenths : Nat} {t : Time} {i : Instr} {r : Register}

/-! ### The train register -/

@[simp] theorem finish_tickAt (h : s.Undisputed) : (finish s).tickAt = s.tickAt := finish_part h .boxTime

theorem length_codeBytes (p : List Nat) (m : Option Meaning) (c : Option Nat) (marks : Nat) :
    (codeBytes p m c marks).length = (patternBytes p).length + 3 := by
  simp only [codeBytes, List.length_append, length_field1, List.length_singleton]

/-- The event of an entry has at most 8 bytes of its own (R155). -/
theorem Event.length_details_le (e : Event) : e.details.length ≤ 8 := by
  cases e <;> simp [Event.details, length_codeBytes, length_field1, be16, be24, patternBytes]

theorem Entry.length_bytes (e : Entry) : e.bytes.length = 16 := by
  have := e.event.length_details_le
  simp only [Entry.bytes, List.length_append, List.length_replicate, be16, be24, List.length_cons, List.length_nil]
  omega

/-- The newest of the oldest `m` unread entries. -/
theorem getLast?_take_unreadEntries (held : r.unread ≤ r.ring.length) (some_read : 1 ≤ m) (unread : m ≤ r.unread) :
    (r.unreadEntries.take m).getLast? = r.ring[r.ring.length - r.unread + m - 1]? := by
  have before : m - 1 < m := by omega
  have length : (r.unreadEntries.take m).length = m := by
    simp only [Register.unreadEntries, List.length_take, List.length_drop]
    omega
  rw [List.getLast?_eq_getElem?, length, List.getElem?_take_of_lt before, Register.unreadEntries, List.getElem?_drop]
  congr 1
  omega

theorem takeTick_of_early (early : ¬ s.tickAt ≤ s.now) : takeTick s = s := if_neg early

theorem takeTick_of_due (due : s.tickAt ≤ s.now) :
    takeTick s = { s.modRegister Register.tick with tickAt := s.tickAt + 100 } := if_pos due

theorem cmdAdvanceRegister_eq (n : Nat) (s : State) :
    cmdAdvanceRegister n s
      = (s.modRegister fun r => { r with unread := r.unread - min n r.unread },
          .done (be16 (min n s.register.unread)
            ++ be16 ((((s.register.unreadEntries.take (min n s.register.unread)).getLast?).map (·.seq)).getD 0)
            ++ be16 (s.register.unread - min n s.register.unread))) := rfl

/-- The part with its box time set (R158). -/
def State.withClock (day tenths : Nat) (s : State) : State :=
  append (.clockSet s.register.day s.register.tenths)
    { s.modRegister fun r => { r with day := day % 65536, tenths := tenths } with tickAt := s.now + 100 }

theorem cmdSetClock_of_fit (low : tenths ≤ 863999) (s : State) :
    cmdSetClock day tenths s = (s.withClock day tenths, .done []) := if_neg (Nat.not_lt.2 low)

theorem Register.tick_eq (r : Register) :
    r.tick = if r.tenths < 863999 then { r with tenths := r.tenths + 1 }
      else { r with tenths := 0, day := (r.day + 1) % 65536 } := rfl

/-- Settles O51: READ REGISTER replies from the register, ADVANCE REGISTER moves the unread count alone, and
SET CLOCK and the tick move box time. -/
theorem registerIsReadAdvancedAndTimed : Obligations.RegisterIsReadAdvancedAndTimed := by
  unfold Obligations.RegisterIsReadAdvancedAndTimed
  intro s t n m day tenths r register
  subst register
  refine ⟨fun s_open es taken => ⟨?_, Entry.length_bytes⟩, fun s_open sound count => ?_, fun s_open high => ?_,
    fun s_open low days => ?_, fun undisputed early => ?_, fun undisputed due => ?_⟩
  · subst taken
    exact .of_reply rfl rfl s_open rfl rfl
  · subst count
    refine .of_done rfl rfl s_open (cmdAdvanceRegister_eq n (s.atTime t))
      ((Moves.refl (ks := [.clock])).to_cmdAdvanceRegister n) rfl fun agreed _ gave => ⟨?_, fun none_read => ?_,
        fun e some_read newest => ?_⟩
    · exact finish_register agreed
    · simpa only [State.atTime_register, none_read, List.take_zero, List.getLast?_nil, Option.map_none,
        Option.getD_none, Nat.sub_zero] using gave
    · simpa only [State.atTime_register, getLast?_take_unreadEntries sound.2.1 some_read (Nat.min_le_right _ _), newest,
        Option.map_some, Option.getD_some] using gave
  · exact .of_refuse rfl rfl s_open (if_pos high) rfl
  · refine .of_done rfl rfl s_open (cmdSetClock_of_fit low _)
      (ks := [.note, .clock, .record, .tick])
      (by simpa only [cmdSetClock_of_fit low] using (Moves.refl (s := s.atTime t)).to_cmdSetClock day tenths) rfl
      fun agreed now gave => ⟨?_, ?_, gave⟩
    · refine (finish_register agreed).trans ?_
      have same : day % 65536 = day := Nat.mod_eq_of_lt (by omega)
      exact congrArg (fun d => Register.append { s.register with day := d, tenths := tenths } _) same
    · refine (finish_tickAt agreed).trans ?_
      rfl
  · exact .of_idle rfl rfl undisputed (takeTick_of_early (Int.not_le.2 early)) fun _ => trivial
  · refine .of_result (ks := [.clock, .tick]) rfl rfl undisputed (takeTick_of_due (s := s.atTime t) due)
      (by simpa only [takeTick_of_due (s := s.atTime t) due] using (Moves.refl (s := s.atTime t)).to_takeTick)
      fun agreed _ => ⟨finish_tickAt agreed, ?_⟩
    exact (finish_register agreed).trans (Register.tick_eq _)

end Sys2Proof.Machine
end

section
/-! The records of a part through a row, the route holds (R80 to R85) and the release timers (R86 to R91). -/

set_option Elab.async false

namespace Sys2Proof.Machine

variable {s u v : State} {j k n r d : Nat} {t : Time} {i : Instr} {ks : List Kind} {ps : List Part} {P : State → Prop}

/-! ### One record changed -/

section
variable {g : Hold → Hold}

theorem finish_own_hold (agreed : v.Undisputed) (changed : v.holds = modAt s.holds {} k g)
    (here : within k s.holds.length = true) : (finish v).hold k = g (s.hold k) := by
  rw [finish_hold agreed, State.hold, changed, nth_modAt, if_pos ⟨rfl, here⟩]
  rfl

theorem finish_other_holds (agreed : v.Undisputed) (changed : v.holds = modAt s.holds {} k g) :
    OtherHolds k s (finish v) := by
  intro j other
  rw [finish_hold agreed, State.hold, changed, nth_modAt, if_neg fun h => other h.1]
  rfl

end

section
variable {g : Timer → Timer}

theorem finish_own_timer (agreed : v.Undisputed) (changed : v.timers = modAt s.timers {} k g)
    (here : within k s.timers.length = true) : ((finish v).timer k).kept = (g (s.timer k)).kept := by
  rw [finish_timer agreed, State.timer, changed, nth_modAt, if_pos ⟨rfl, here⟩]
  rfl

theorem finish_other_timers (agreed : v.Undisputed) (changed : v.timers = modAt s.timers {} k g) :
    OtherTimers k s (finish v) := by
  intro j other
  rw [finish_timer agreed, State.timer, changed, nth_modAt, if_neg fun h => other h.1]
  rfl

end

section
variable {g : Inbound → Inbound}

theorem finish_own_inb (agreed : v.Undisputed) (changed : v.inbound = modAt s.inbound {} k g)
    (here : within k s.inbound.length = true) : (finish v).inb k = g (s.inb k) := by
  rw [finish_inb agreed, State.inb, changed, nth_modAt, if_pos ⟨rfl, here⟩]
  rfl

theorem finish_other_inbound (agreed : v.Undisputed) (changed : v.inbound = modAt s.inbound {} k g) :
    OtherInbound k s (finish v) := by
  intro j other
  rw [finish_inb agreed, State.inb, changed, nth_modAt, if_neg fun h => other h.1]
  rfl

end

section
variable {g : Outbound → Outbound}

theorem finish_own_outb (agreed : v.Undisputed) (changed : v.outbound = modAt s.outbound {} k g)
    (here : within k s.outbound.length = true) : ((finish v).outb k).kept = (g (s.outb k)).kept := by
  rw [finish_outb agreed, State.outb, changed, nth_modAt, if_pos ⟨rfl, here⟩]
  rfl

theorem finish_other_outbound (agreed : v.Undisputed) (changed : v.outbound = modAt s.outbound {} k g) :
    OtherOutbound k s (finish v) := by
  intro j other
  rw [finish_outb agreed, State.outb, changed, nth_modAt, if_neg fun h => other h.1]
  rfl

end

section
variable {g : Bell → Bell}

theorem finish_own_bell (agreed : v.Undisputed) (changed : v.bells = modAt s.bells {} k g)
    (here : within k s.bells.length = true) : ((finish v).bell k).kept = (g (s.bell k)).kept := by
  rw [finish_bell agreed, State.bell, changed, nth_modAt, if_pos ⟨rfl, here⟩]
  rfl

theorem finish_other_bells (agreed : v.Undisputed) (changed : v.bells = modAt s.bells {} k g) :
    OtherBells k s (finish v) := by
  intro j other
  rw [finish_bell agreed, State.bell, changed, nth_modAt, if_neg fun h => other h.1]
  rfl

end

section
variable {g : Lever → Lever}

theorem finish_own_lever (agreed : v.Undisputed) (changed : v.levers = modAt s.levers {} k g)
    (here : within k s.levers.length = true) : (finish v).lever k = g (s.lever k) := by
  rw [finish_lever agreed, State.lever, changed, nth_modAt, if_pos ⟨rfl, here⟩]
  rfl

theorem finish_other_levers (agreed : v.Undisputed) (changed : v.levers = modAt s.levers {} k g) :
    OtherLevers k s (finish v) := by
  intro j other
  rw [finish_lever agreed, State.lever, changed, nth_modAt, if_neg fun h => other h.1]
  rfl

end

theorem here_of_within (m : Nat) {l : List α} (inside : within k m = true) (length : l.length = m) :
    within k l.length = true := by rwa [length]

/-! ### Rows that evaluate levers with no cause raised -/

/-- A row that leaves one more part the same, another of its parts being told to the host. -/
theorem Takes.narrow_told (q : Part) (other : q ≠ .store) (told : ∃ p ∈ ps, p.silent = false)
    (h : Takes i s (q :: ps) fun u => q.same s u ∧ P u) : Takes i s ps P := by
  intro prompt
  obtain ⟨u, next, now, ⟨⟨pending, count, parts⟩, unstaged⟩, same, holds⟩ := h prompt
  refine ⟨u, next, now, ⟨⟨pending, count, fun x away => ?_⟩, fun none_staged => ⟨fun away => ?_, fun all_silent => ?_⟩⟩,
    holds⟩
  · by_cases own : x = q
    · exact own ▸ same
    · exact parts x (by simp [own, away])
  · exact (unstaged none_staged).1 (by simp [away, other.symm])
  · obtain ⟨p, mem, loud⟩ := told
    exact absurd (all_silent p mem) (by simp [loud])

/-- A row whose moves change no fault record leaves the table. -/
theorem Takes.of_calm {f : State → State} (row : exec i s = .next (finish (f (s.comeTo t)))) (time : i.time = some t)
    (undisputed : s.Undisputed) (effect : f (s.atTime t) = v) (moves : Moves ks (s.atTime t) v)
    (holds : v.Undisputed → v.now = max s.now t → P (finish v))
    (calm : .faults ∉ ks := by decide)
    (parts : ∀ k ∈ ks, ∀ q ∈ k.main, q ∈ Part.faults :: ps := by decide)
    (lasting : Kind.stage ∉ ks ∧ .begin ∉ ks ∧ .time ∉ ks := by decide)
    (stored : Part.store ∈ Part.faults :: ps ∨ (Kind.store ∉ ks ∧ .tables ∉ ks ∧ .jobs ∉ ks) := by decide)
    (told : ∃ p ∈ ps, p.silent = false := by decide) : Takes i s ps P :=
  Takes.narrow_told .faults (by decide) told <| .of_result row time undisputed effect moves
    (fun agreed now => ⟨(finish_faults agreed).trans (moves.faults_kept undisputed calm), holds agreed now⟩)
    parts lasting stored (.inl (told.imp fun _ => .imp_left (List.mem_cons_of_mem _)))

/-- A command row, DONE at once, whose moves change no fault record leaves the table. -/
theorem Takes.of_done_calm {data : List Byte} {code : Nat} {command : State → Ran}
    (row : exec i s = .next (commandRow t code command s)) (time : i.time = some t) (s_open : s.Open)
    (ran : command (s.atTime t) = (v, .done data)) (moves : Moves ks (s.atTime t) v) (goes_on : endsBatch code = none)
    (holds : (endAlone (doneResult code data) v).Undisputed → v.now = max s.now t →
      (finish (endAlone (doneResult code data) v)).Gave code data → P (finish (endAlone (doneResult code data) v)))
    (calm : .faults ∉ ks := by decide)
    (parts : ∀ x ∈ Kind.result :: ks, ∀ q ∈ x.main, q ∈ Part.faults :: ps := by decide)
    (lasting : Kind.stage ∉ Kind.result :: ks ∧ .begin ∉ Kind.result :: ks ∧ .time ∉ Kind.result :: ks := by decide)
    (stored : Part.store ∈ Part.faults :: ps ∨ (Kind.store ∉ Kind.result :: ks ∧ .tables ∉ Kind.result :: ks
      ∧ .jobs ∉ Kind.result :: ks) := by decide)
    (told : ∃ p ∈ ps, p.silent = false := by decide) : Takes i s ps P :=
  Takes.narrow_told .faults (by decide) told <| .of_done row time s_open ran moves goes_on
    (fun agreed now gave =>
      ⟨(finish_faults agreed).trans (moves.faults_kept s_open.2.2 calm), holds agreed now gave⟩)
    parts lasting stored (.inl (told.imp fun _ => .imp_left (List.mem_cons_of_mem _)))

/-! ### The route holds -/

/-- The hold in a state that it enters at a time. -/
def Hold.movedTo (new : HoldState) (now : Time) (_ : Hold) : Hold := ⟨some new, some now⟩

theorem setHold_of_change {old new : HoldState} (held : (s.hold k).state = some old) (other : old ≠ new) :
    setHold k new s = noteHold k (append (.hold k old new) (s.modHold k (Hold.movedTo new s.now))) := by
  simp only [setHold, held, if_neg other]
  rfl

/-- What a hold is after it has been told to take a state. -/
def Hold.taken (new : HoldState) (now : Time) (h : Hold) : Hold :=
  match h.state with
  | none => h
  | some old => if old = new then h else ⟨some new, some now⟩

/-- A number outside the list names the default record, which is not configured. -/
theorem within_of_hold {st : HoldState} (held : (s.hold k).state = some st) : within k s.holds.length = true := by
  by_contra outside
  rw [State.hold, nth_outside _ _ _ (Bool.not_eq_true _ ▸ outside)] at held
  cases held

theorem setHold_hold_same (k : Nat) (new : HoldState) (s : State) :
    (setHold k new s).hold k = (s.hold k).taken new s.now := by
  unfold Hold.taken
  cases held : (s.hold k).state with
  | none => simp only [setHold, held]
  | some old =>
    by_cases same : old = new
    · simp only [setHold, held, same, if_true]
    · rw [setHold_of_change held same]
      exact (s.hold_modHold_same k (Hold.movedTo new s.now) (within_of_hold held)).trans (if_neg same).symm

theorem setHold_hold_other (new : HoldState) (s : State) (other : k ≠ n) : (setHold n new s).hold k = s.hold k := by
  unfold setHold
  split
  · rfl
  · split
    · rfl
    · exact s.hold_modHold_other n k (Hold.movedTo new s.now) other

theorem setHold_now (n : Nat) (new : HoldState) (s : State) : (setHold n new s).now = s.now := by
  unfold setHold
  split
  · rfl
  · split <;> rfl

/-- Rounds over different numbers, of which one alone changes what is observed. -/
theorem forEach_observed {α : Type} {f : Nat → State → State} (view : State → α) (change : α → α)
    (own : ∀ u, view (f k u) = change (view u)) (others : ∀ n ≠ k, ∀ u, view (f n u) = view u) (ns : List Nat)
    (nodup : ns.Nodup) : ∀ s, view (forEach ns f s) = if k ∈ ns then change (view s) else view s := by
  induction ns with
  | nil => exact fun s => rfl
  | cons n ns ih =>
    intro s
    obtain ⟨fresh, rest⟩ := List.nodup_cons.1 nodup
    rw [forEach_cons, ih rest]
    by_cases same : n = k
    · subst same
      simp [fresh, own]
    · simp [others n same, Ne.symm same]

end Sys2Proof.Machine
end

section
/-! The route holds (R80 to R85) and the release timers (R86 to R91). -/

set_option Elab.async false

namespace Sys2Proof.Machine

variable {s u v : State} {j k n r d lever c : Nat} {t : Time} {i : Instr} {ks : List Kind} {ps : List Part} {P : State → Prop}

/-! ### The holds that one event moves -/

theorem upTo_nodup (n : Nat) : (upTo n).Nodup := List.nodup_range'

theorem mem_holdsOn (inside : within k 16 = true) : k ∈ holdsOn s ↔ (s.hold k).state.isSome = true := by
  simp [holdsOn, mem_upTo, inside]

/-- A hold and the running time. -/
def State.holdView (k : Nat) (s : State) : Hold × Time := (s.hold k, s.now)

theorem Moves.holdView_eq (h : Moves ks s u) (k : Nat)
    (away : .hold ∉ ks ∧ .begin ∉ ks ∧ .time ∉ ks := by decide) : u.holdView k = s.holdView k := by
  have holds : u.holds = s.holds := h.exactly .holds fun x mem => by
    cases x <;> simp [Kind.parts] <;> simp [mem] at away
  have now : u.now = s.now := h.now_eq away.2.2
  rw [State.holdView, State.hold, holds, now, State.holdView, State.hold]

/-- What one event makes of a hold that it is told to move, or not. -/
def Hold.moved (dest : Option HoldState) (now : Time) (h : Hold) : Hold := dest.elim h fun new => h.taken new now

/-- A hold after one event has moved the holds: `dest` is where each goes, if it is one of those named. -/
theorem moveHolds_hold (dest : Nat → Option HoldState) {ns : List Nat} (nodup : ns.Nodup) (k : Nat) (s : State) :
    (moveHolds dest ns s).hold k = if k ∈ ns then (s.hold k).moved (dest k) s.now else s.hold k := by
  have cancelled : Moves [.note, .record, .timer] s
      (forEach ((ns.filter fun k => (dest k).isSome).filterMap (runningTimer s)) (cancelTimer .owner) s) :=
    Moves.refl.to_forEach _ fun r _ => Moves.refl.to_cancelTimer _ r
  have evaluated : ∀ u, Moves [.evaluate] u (forEach (ns.filter fun k => (dest k).isSome)
      (fun k => evaluateHoldAndTimer k (runningTimer s k)) u) := fun _ =>
    Moves.refl.to_forEach _ fun k _ => Moves.refl.to_evaluateHoldAndTimer k _
  have own : ∀ u : State, State.holdView k ((match dest k with | none => id | some new => setHold k new) u)
      = ((u.holdView k).1.moved (dest k) (u.holdView k).2, (u.holdView k).2) := by
    intro u
    cases dest k with
    | none => rfl
    | some new => exact Prod.ext (setHold_hold_same k new u) (setHold_now k new u)
  have others : ∀ n ≠ k, ∀ u : State,
      State.holdView k ((match dest n with | none => id | some new => setHold n new) u) = u.holdView k := by
    intro n other u
    cases dest n with
    | none => rfl
    | some new => exact Prod.ext (setHold_hold_other new u other.symm) (setHold_now n new u)
  have view := ((evaluated _).holdView_eq k).trans
    ((forEach_observed (State.holdView k) (fun p => (p.1.moved (dest k) p.2, p.2)) own others
      (ns.filter fun k => (dest k).isSome) (nodup.filter _) _).trans
      (by rw [cancelled.holdView_eq k]))
  refine (congrArg Prod.fst view).trans ?_
  cases goes : dest k with
  | none => simp [List.mem_filter, goes, Hold.moved, State.holdView]
  | some new =>
    simp [List.mem_filter, goes, Hold.moved, State.holdView]
    split <;> rfl

theorem holdsOn_nodup (s : State) : (holdsOn s).Nodup := (upTo_nodup 16).filter _

theorem holdsTakeSettle_hold (lever : Nat) (pos : Pos) (inside : within k 16 = true) (s : State) :
    (holdsTakeSettle lever pos s).hold k
      = if (s.hold k).state.isSome = true ∧ (s.tables.hold k).signal = some lever
        then (s.hold k).moved (holdAtSettle s pos k) s.now else s.hold k := by
  have moved := moveHolds_hold (holdAtSettle s pos)
    ((holdsOn_nodup s).filter fun k => (s.tables.hold k).signal == some lever) k s
  refine moved.trans ?_
  simp only [List.mem_filter, mem_holdsOn inside, beq_iff_eq]

theorem holdsTakeCircuit_hold (c : Nat) (old new : TrackState) (inside : within k 16 = true) (s : State) :
    (holdsTakeCircuit c old new s).hold k
      = if (s.hold k).state.isSome = true then (s.hold k).moved (holdAtCircuit s c old new k) s.now else s.hold k := by
  have moved := moveHolds_hold (holdAtCircuit s c old new) (holdsOn_nodup s) k s
  refine moved.trans ?_
  simp only [mem_holdsOn inside]

/-- A hold told to go to a state, or left in its own. -/
theorem Hold.moved_eq {h : Hold} {st x : HoldState} {dest : Option HoldState} (held : h.state = some st)
    (goes : dest.getD st = x) (now : Time) : h.moved dest now = if x = st then h else ⟨some x, some now⟩ := by
  subst goes
  cases dest with
  | none => simp [Hold.moved]
  | some new => simp [Hold.moved, Hold.taken, held, eq_comm]

theorem getD_ite {α : Type} {p : Prop} [Decidable p] (a b : Option α) (d : α) :
    (if p then a else b).getD d = if p then a.getD d else b.getD d := by
  split <;> rfl

theorem holdAtSettle_normal {st : HoldState} (held : (s.hold k).state = some st) :
    (holdAtSettle s .normal k).getD st
      = if st = .set then (if s.allClear (s.tables.hold k).approach then .idle else .held) else st := by
  cases st with
  | set =>
    simp only [holdAtSettle, held, approachClear, Option.getD_some, if_true]
    rfl
  | _ => simp [holdAtSettle, held]

/-- Settles O36: each event moves a hold as its own rule says, and every other hold by the same rule apart. -/
theorem holdsTakeSettlesAndCircuits : Obligations.HoldsTakeSettlesAndCircuits := by
  unfold Obligations.HoldsTakeSettlesAndCircuits
  intro s k lever c old new inside length
  refine ⟨fun off => ⟨fun pos => ?_, ?_⟩, fun foreign pos => ?_, fun st became held are => ⟨fun signal => ⟨?_, ?_⟩, ?_⟩⟩
  · rw [holdsTakeSettle_hold lever pos inside, off]
    rfl
  · rw [holdsTakeCircuit_hold c old new inside, off]
    rfl
  · rw [holdsTakeSettle_hold lever pos inside, if_neg fun h => foreign h.2]
  · rw [holdsTakeSettle_hold lever .reverse inside, if_pos ⟨by simp [held], signal⟩, are]
    exact Hold.moved_eq held (by cases st <;> simp [holdAtSettle, held]) s.now
  · rw [holdsTakeSettle_hold lever .normal inside, if_pos ⟨by simp [held], signal⟩, are]
    exact Hold.moved_eq held (holdAtSettle_normal held) s.now
  · rw [holdsTakeCircuit_hold c old new inside, if_pos (by simp [held]), are]
    refine Hold.moved_eq held ?_ s.now
    cases st <;> simp [holdAtCircuit, held, approachClear, getD_ite, and_assoc]

/-! ### The release timers -/

/-- A timer started (R87). -/
def Timer.started (now : Time) (d : Nat) (t : Timer) : Timer :=
  { t with state := .running, expiry := some (now + d * 1000) }

/-- The part with timer `r` started for an owner. -/
def State.timerStarted (o : OwnerKind × Nat) (r : Nat) (s : State) : State :=
  noteRelease r (append (.releaseStarted r o (s.tables.timer r).duration)
    (s.modTimer r (Timer.started s.now (s.tables.timer r).duration)))

theorem cmdRequestRelease_of_needed (inside : within r 16 = true) (configured : timerOn s r = true)
    (is_idle : (s.timer r).state = .idle) {o : OwnerKind × Nat} (owner : o = timerOwner s r)
    (needed : ownerNeeds s o = true) :
    cmdRequestRelease r s
      = (evaluateRelease r (ownerRequested o (s.timerStarted o r)),
          .done (be16 (s.tables.timer r).duration)) := by
  subst owner
  simp only [cmdRequestRelease, inside, configured, is_idle, needed]
  rfl

theorem cmdRequestRelease_unneeded (inside : within r 16 = true)
    (no_need : timerOn s r = false ∨ (s.timer r).state ≠ .idle ∨ ownerNeeds s (timerOwner s r) = false) :
    cmdRequestRelease r s = refuse .state s := by
  unfold cmdRequestRelease
  rcases no_need with off | busy | unneeded
  · simp [inside, off]
  · simp [inside, busy]
  · simp [inside, unneeded]

theorem cmdCancelRelease_of_active (inside : within r 16 = true) (configured : timerOn s r = true)
    (active : (s.timer r).state ≠ .idle) {o : OwnerKind × Nat} (owner : o = timerOwner s r) :
    cmdCancelRelease r s
      = (evaluateRelease r (ownerCancelled o (cancelTimer .host r s)), .done []) := by
  subst owner
  simp only [cmdCancelRelease, inside, configured, if_neg active]
  rfl

theorem cmdCancelRelease_inactive (inside : within r 16 = true)
    (inactive : timerOn s r = false ∨ (s.timer r).state = .idle) : cmdCancelRelease r s = refuse .state s := by
  unfold cmdCancelRelease
  rcases inactive with off | is_idle
  · simp [inside, off]
  · simp [inside, is_idle]

/-- A hold told to change its state, and the evaluations that follow. -/
theorem Moves.after_setHold {old new : HoldState} (h : Moves ks (setHold n new s) u)
    (held : (s.hold n).state = some old) (other : old ≠ new)
    (away : (∀ x ∈ ks, Part.holds ∉ x.parts) ∧ ∀ x ∈ ks, Part.register ∉ x.parts := by decide) :
    u.holds = modAt s.holds {} n (Hold.movedTo new s.now) ∧ u.register = s.register.append (.hold n old new) := by
  have holds : u.holds = (setHold n new s).holds := h.exactly .holds away.1
  have register : u.register = (setHold n new s).register := h.exactly .register away.2
  rw [setHold_of_change held other] at holds register
  exact ⟨holds, register⟩

theorem Moves.after_evaluation (h : Moves [.evaluate] s u) : u.holds = s.holds ∧ u.register = s.register :=
  ⟨h.exactly .holds, h.exactly .register⟩

theorem cancelTimer_kept (cause : CancelCause) (r : Nat) (s : State) :
    (cancelTimer cause r s).holds = s.holds ∧ (cancelTimer cause r s).now = s.now
      ∧ (cancelTimer cause r s).timers = modAt s.timers {} r Timer.toIdle
      ∧ (cancelTimer cause r s).register = s.register.append (.releaseCancelled r (timerOwner s r) cause) :=
  ⟨rfl, rfl, rfl, rfl⟩

theorem ownerRequested_moves (r : Nat) {o : OwnerKind × Nat} (no_hold : o.1 ≠ .hold) (s : State) :
    Moves [.evaluate] s (evaluateRelease r (ownerRequested o s)) := by
  obtain ⟨kind, n⟩ := o
  cases kind with
  | hold => exact absurd rfl no_hold
  | sequence => exact Moves.refl.to_evaluateRelease r
  | lever => exact (Moves.refl.to_evaluate n).to_evaluateRelease r

theorem ownerCancelled_moves (r : Nat) {o : OwnerKind × Nat} (no_hold : o.1 ≠ .hold) (s : State) :
    Moves [.evaluate] s (evaluateRelease r (ownerCancelled o s)) := by
  obtain ⟨kind, n⟩ := o
  cases kind with
  | hold => exact absurd rfl no_hold
  | sequence => exact Moves.refl.to_evaluateRelease r
  | lever => exact (Moves.refl.to_evaluate n).to_evaluateRelease r

theorem ownerRequested_timers (r : Nat) (o : OwnerKind × Nat) (s : State) :
    (evaluateRelease r (ownerRequested o s)).timers = s.timers := by
  have moves : Moves [.note, .record, .evaluate, .hold] s (evaluateRelease r (ownerRequested o s)) :=
    (Moves.refl.to_ownerRequested o).to_evaluateRelease r
  exact moves.exactly .timers

theorem ownerCancelled_timers (r : Nat) (o : OwnerKind × Nat) (s : State) :
    (evaluateRelease r (ownerCancelled o s)).timers = s.timers := by
  have moves : Moves [.note, .record, .evaluate, .hold] s (evaluateRelease r (ownerCancelled o s)) :=
    (Moves.refl.to_ownerCancelled o).to_evaluateRelease r
  exact moves.exactly .timers

/-- A request of a timer that its owner needs (R87). -/
theorem takes_requestRelease {o : OwnerKind × Nat} (s_open : s.Open) (timers : s.timers.length = 16)
    (holds : s.holds.length = 16) (owner : o = timerOwner s r) (inside : within r 16 = true)
    (configured : timerOn s r = true) (is_idle : (s.timer r).state = .idle) (needed : ownerNeeds s o = true) :
    Takes (.requestRelease t r) s [.timers, .holds, .register, .levers, .result] fun u =>
      (u.timer r).kept = (Timer.started (max s.now t) (s.tables.timer r).duration (s.timer r)).kept ∧ OtherTimers r s u
        ∧ u.Gave 0x23 (be16 (s.tables.timer r).duration)
        ∧ (o.1 = .hold →
          (within o.2 16 = true → u.hold o.2 = ⟨some .releasing, some (max s.now t)⟩) ∧ OtherHolds o.2 s u
            ∧ u.register = (s.register.append (.releaseStarted r o (s.tables.timer r).duration)).append
                (.hold o.2 .held .releasing))
        ∧ (o.1 ≠ .hold → u.holds = s.holds
            ∧ u.register = s.register.append (.releaseStarted r o (s.tables.timer r).duration)) := by
  have requested := cmdRequestRelease_of_needed (s := s.atTime t) inside configured is_idle (o := o) owner needed
  have moves := (Moves.refl (ks := holdKinds) (s := s.atTime t)).to_cmdRequestRelease r
  rw [requested] at moves
  refine .of_done_calm rfl rfl s_open requested moves rfl fun agreed now gave => ?_
  have timed := ownerRequested_timers r o ((s.atTime t).timerStarted o r)
  refine ⟨finish_own_timer (s := s) (g := Timer.started (max s.now t) (s.tables.timer r).duration) agreed timed
      (here_of_within 16 inside timers),
    finish_other_timers (s := s) (g := Timer.started (max s.now t) (s.tables.timer r).duration) agreed timed, gave,
    fun is_hold => ?_, fun no_hold => ?_⟩
  · obtain ⟨kind, n⟩ := o
    obtain rfl : kind = .hold := is_hold
    have held : (s.hold n).state = some .held := eq_of_beq needed
    have taken := (((Moves.refl (ks := [.evaluate])).to_evaluateHold n).to_evaluateRelease r).after_setHold
      (s := (s.atTime t).timerStarted (.hold, n) r) held (new := .releasing) (by decide)
    have own := fun here => finish_own_hold (s := s) (g := Hold.movedTo .releasing (max s.now t)) agreed taken.1 here
    exact ⟨fun place => own (here_of_within 16 place holds),
      finish_other_holds (s := s) (g := Hold.movedTo .releasing (max s.now t)) agreed taken.1,
      (finish_register agreed).trans (taken.2.trans rfl)⟩
  · have taken := (ownerRequested_moves r no_hold ((s.atTime t).timerStarted o r)).after_evaluation
    exact ⟨(finish_holds agreed).trans taken.1, (finish_register agreed).trans taken.2⟩

/-- A cancellation of a timer that runs or is complete (R91). -/
theorem takes_cancelRelease {o : OwnerKind × Nat} (s_open : s.Open) (timers : s.timers.length = 16)
    (holds : s.holds.length = 16) (owner : o = timerOwner s r) (inside : within r 16 = true)
    (configured : timerOn s r = true) (active : (s.timer r).state ≠ .idle) :
    Takes (.cancelRelease t r) s [.timers, .holds, .register, .levers, .result] fun u =>
      (u.timer r).state = .idle ∧ (u.timer r).expiry = none ∧ (u.timer r).lapse = none
        ∧ OtherTimers r s u ∧ u.Gave 0x24 []
        ∧ (o.1 = .hold → within o.2 16 = true → (s.hold o.2).state = some .releasing →
            ∀ new, new = (if s.allClear (s.tables.hold o.2).approach then HoldState.idle else .held) →
              (u.hold o.2).state = some new ∧ OtherHolds o.2 s u
                ∧ u.register = (s.register.append (.releaseCancelled r o .host)).append (.hold o.2 .releasing new))
        ∧ (o.1 ≠ .hold →
            u.holds = s.holds ∧ u.register = s.register.append (.releaseCancelled r o .host)) := by
  have cancelled := cmdCancelRelease_of_active (s := s.atTime t) inside configured active (o := o) owner
  have moves := (Moves.refl (ks := holdKinds) (s := s.atTime t)).to_cmdCancelRelease r
  rw [cancelled] at moves
  refine .of_done_calm rfl rfl s_open cancelled moves rfl fun agreed now gave => ?_
  have timed := ownerCancelled_timers r o (cancelTimer .host r (s.atTime t))
  have own := finish_own_timer (s := s) (g := Timer.toIdle) agreed timed (here_of_within 16 inside timers)
  refine ⟨congrArg Timer.state own, congrArg Timer.expiry own, congrArg Timer.lapse own,
    finish_other_timers (s := s) (g := Timer.toIdle) agreed timed, gave, ?_⟩
  obtain ⟨kind, n⟩ := o
  obtain ⟨same_holds, same_now, -, told⟩ := cancelTimer_kept .host r (s.atTime t)
  rw [show timerOwner (s.atTime t) r = (kind, n) from owner.symm] at told
  refine ⟨fun is_hold place releasing new goes => ?_, fun no_hold => ?_⟩
  · obtain rfl : kind = .hold := is_hold
    have other : HoldState.releasing ≠ new := by
      rw [goes]
      split <;> decide
    have there : ownerCancelled (.hold, n) (cancelTimer .host r (s.atTime t))
        = evaluateHold n (setHold n new (cancelTimer .host r (s.atTime t))) := by
      rw [goes]
      rfl
    rw [there] at agreed ⊢
    have taken := (((Moves.refl (ks := [.evaluate])).to_evaluateHold n).to_evaluateRelease r).after_setHold
      (s := cancelTimer .host r (s.atTime t)) releasing other
    rw [same_holds, same_now, told] at taken
    have own := finish_own_hold (s := s) (g := Hold.movedTo new (max s.now t)) agreed taken.1
      (here_of_within 16 place holds)
    exact ⟨congrArg Hold.state own,
      finish_other_holds (s := s) (g := Hold.movedTo new (max s.now t)) agreed taken.1,
      (finish_register agreed).trans taken.2⟩
  · have taken := (ownerCancelled_moves r no_hold (cancelTimer .host r (s.atTime t))).after_evaluation
    rw [same_holds, told] at taken
    exact ⟨(finish_holds agreed).trans taken.1, (finish_register agreed).trans taken.2⟩

/-- Settles O37: a request and a cancellation move the timer, and the hold that owns it, and no other. -/
theorem releaseTimersAreRequestedAndCancelled : Obligations.ReleaseTimersAreRequestedAndCancelled := by
  unfold Obligations.ReleaseTimersAreRequestedAndCancelled
  intro s t r o d s_open timers holds owner duration
  subst duration
  refine ⟨fun outside => ?_, fun inside unneeded => ?_, fun inside configured is_idle needed => ?_, fun outside => ?_,
    fun inside inactive => ?_, fun inside configured active => ?_⟩
  · exact .of_refuse rfl rfl s_open (if_pos (by simp [outside])) rfl
  · exact .of_refuse rfl rfl s_open (cmdRequestRelease_unneeded (s := s.atTime t) inside (owner ▸ unneeded)) rfl
  · refine (takes_requestRelease s_open timers holds owner inside configured is_idle needed).imp
      fun u ⟨own, others, gave, of_hold, of_other⟩ => ⟨own, others, gave, ?_⟩
    obtain ⟨kind, n⟩ := o
    cases kind with
    | hold => exact of_hold rfl
    | sequence => exact of_other (by simp)
    | lever => exact of_other (by simp)
  · exact .of_refuse rfl rfl s_open (if_pos (by simp [outside])) rfl
  · exact .of_refuse rfl rfl s_open (cmdCancelRelease_inactive (s := s.atTime t) inside inactive) rfl
  · exact takes_cancelRelease s_open timers holds owner inside configured active

end Sys2Proof.Machine
end

section
/-! The expiry and the lapse of a release timer (R84, R88, R90, R119). -/

set_option Elab.async false

namespace Sys2Proof.Machine

variable {s u v : State} {j k n r d lever c : Nat} {t : Time} {i : Instr} {ks : List Kind} {ps : List Part} {P : State → Prop}
  {e : Time}

/-- A timer whose lever's release is complete, to lapse at a time (R88). -/
def Timer.lapsing (at_ : Time) (t : Timer) : Timer := { t with state := .complete, expiry := none, lapse := some at_ }

theorem releaseExpires_of_early (early : (s.timer r).state ≠ .running ∨ ∀ x, (s.timer r).expiry = some x → s.now < x) :
    releaseExpires r s = s := by
  cases expiry : (s.timer r).expiry with
  | none => simp only [releaseExpires, expiry]
  | some e =>
    simp only [releaseExpires, expiry]
    refine if_neg fun ⟨running, passed⟩ => ?_
    rcases early with other | early
    · exact other running
    · exact Nat.not_lt.2 passed (early e expiry)

theorem releaseLapses_of_early (early : (s.timer r).state ≠ .complete ∨ ∀ x, (s.timer r).lapse = some x → s.now < x) :
    releaseLapses r s = s := by
  refine if_neg fun ⟨complete, passed⟩ => ?_
  obtain ⟨x, lapse, passed⟩ := (Option.any_eq_true _ _).1 passed
  rcases early with other | early
  · exact other complete
  · exact Nat.not_lt.2 (of_decide_eq_true passed) (early x lapse)

/-- What the owner of an expired timer makes of the part, by the owner's kind. -/
def ownerExpires (o : OwnerKind × Nat) (r : Nat) (e : Time) (s : State) : State :=
  match o.1 with
  | .hold => evaluateHoldAndTimer o.2 (some r) (setHold o.2 .idle (s.modTimer r Timer.toIdle))
  | .sequence => evaluateRelease r (sequenceReleased (linkOfLine o.2) (s.modTimer r Timer.toIdle))
  | .lever => evaluateRelease r (evaluate o.2
      (s.modTimer r (Timer.lapsing (e + (s.tables.timer r).validity.getD defaultValidity * 1000))))

theorem ownerTakesExpiry_eq {o : OwnerKind × Nat} (owner : o = timerOwner s r) :
    ownerTakesExpiry r e s = ownerExpires o r e s := by
  subst owner
  unfold ownerTakesExpiry ownerExpires
  rfl

theorem releaseExpires_of_due {o : OwnerKind × Nat} (owner : o = timerOwner s r) (running : (s.timer r).state = .running)
    (expiry : (s.timer r).expiry = some e) (passed : e ≤ s.now) :
    releaseExpires r s = noteRelease r (ownerExpires o r e (append (.releaseComplete r o) s)) := by
  rw [← ownerTakesExpiry_eq (s := append (.releaseComplete r o) s) owner, owner]
  simp only [releaseExpires, expiry, running]
  exact if_pos ⟨trivial, passed⟩

theorem releaseLapses_of_due {o : OwnerKind × Nat} (owner : o = timerOwner s r) (complete : (s.timer r).state = .complete)
    (lapse : (s.timer r).lapse = some e) (passed : e ≤ s.now) :
    releaseLapses r s = evaluateRelease r (evaluate o.2 (cancelTimer .lapsed r s)) := by
  subst owner
  refine if_pos ⟨complete, ?_⟩
  simp only [due, lapse, Option.any_some, passed, decide_true]

/-! ### Inbound lines -/

@[simp] theorem changeInb_inbound (k : Nat) (g : Inbound → Inbound) (s : State) :
    (changeInb k g s).inbound = modAt s.inbound {} k g :=
  when_keeps (I := fun u => u.inbound = modAt s.inbound {} k g) _ id rfl

/-- An inbound line with its coils commanded (R121). -/
def Inbound.withCoils (c : Coils) (i : Inbound) : Inbound := { i with coils := c }

theorem evalCoils_inbound (k : Nat) (s : State) :
    (evalCoils k s).inbound = modAt s.inbound {} k (Inbound.withCoils (coilsFor s k)) := changeInb_inbound ..

/-- An inbound line whose arrival sequence has been completed by its timer (R119). -/
def Inbound.completed (i : Inbound) : Inbound := { i with sequence := .complete, released := true }

theorem sequenceReleased_of_waiting
    (waits : (s.inb k).sequence = .wait ∨ (s.inb k).sequence = .arriving ∨ (s.inb k).sequence = .passing) :
    sequenceReleased k s = evalCoils k (changeInb k Inbound.completed s) := by
  unfold sequenceReleased
  rcases waits with at_wait | at_arriving | at_passing
  · rw [at_wait]; rfl
  · rw [at_arriving]; rfl
  · rw [at_passing]; rfl

theorem sequenceReleased_inbound
    (waits : (s.inb k).sequence = .wait ∨ (s.inb k).sequence = .arriving ∨ (s.inb k).sequence = .passing) :
    ∃ c, (sequenceReleased k s).inbound = modAt s.inbound {} k fun i => (i.completed).withCoils c := by
  refine ⟨coilsFor (changeInb k Inbound.completed s) k, ?_⟩
  rw [sequenceReleased_of_waiting waits, evalCoils_inbound, changeInb_inbound, modAt_modAt]
  rfl

/-- Settles O38: before its time a timer is left alone; at its time it is taken by its owner's kind. -/
theorem releasesExpireAndLapse : Obligations.ReleasesExpireAndLapse := by
  unfold Obligations.ReleasesExpireAndLapse
  intro s t r o e undisputed inside timers holds inbound owner
  refine ⟨fun early => ?_, fun early => ?_, fun running expiry passed => ⟨fun is_hold place releasing => ?_,
    fun is_sequence place waits => ?_, fun is_lever => ?_⟩, fun complete lapse passed => ?_⟩
  · exact .of_idle rfl rfl undisputed (releaseExpires_of_early (s := s.atTime t) early) fun _ => trivial
  · exact .of_idle rfl rfl undisputed (releaseLapses_of_early (s := s.atTime t) early) fun _ => trivial
  · have expired := releaseExpires_of_due (s := s.atTime t) owner running expiry passed
    obtain ⟨kind, n⟩ := o
    obtain rfl : kind = .hold := is_hold
    have moves : Moves holdKinds (s.atTime t) _ :=
      (((((Moves.refl.to_append (.releaseComplete r (.hold, n))).to_modTimer r Timer.toIdle).to_setHold n
        .idle).to_evaluateHoldAndTimer n (some r)).to_noteRelease r)
    refine .of_calm rfl rfl undisputed expired moves fun agreed now => ?_
    have timed : Moves [.note, .record, .hold, .evaluate]
        ((append (.releaseComplete r (.hold, n)) (s.atTime t)).modTimer r Timer.toIdle) _ :=
      (((Moves.refl.to_setHold n .idle).to_evaluateHoldAndTimer n (some r)).to_noteRelease r)
    have changed := timed.exactly .timers
    have own := finish_own_timer (s := s) (g := Timer.toIdle) agreed changed (here_of_within 16 inside timers)
    have taken := (((Moves.refl (ks := [.note, .evaluate])).to_evaluateHoldAndTimer n (some r)).to_noteRelease r).after_setHold
      (s := (append (.releaseComplete r (.hold, n)) (s.atTime t)).modTimer r Timer.toIdle) releasing (new := .idle) (by decide)
    exact ⟨congrArg Timer.state own, congrArg Timer.expiry own, finish_other_timers (s := s) (g := Timer.toIdle) agreed changed,
      finish_own_hold (s := s) (g := Hold.movedTo .idle (max s.now t)) agreed taken.1 (here_of_within 16 place holds),
      finish_other_holds (s := s) (g := Hold.movedTo .idle (max s.now t)) agreed taken.1, (finish_register agreed).trans taken.2⟩
  · have expired := releaseExpires_of_due (s := s.atTime t) owner running expiry passed
    obtain ⟨kind, n⟩ := o
    obtain rfl : kind = .sequence := is_sequence
    have moves : Moves [.note, .record, .evaluate, .timer, .inb] (s.atTime t) _ :=
      ((((Moves.refl.to_append (.releaseComplete r (.sequence, n))).to_modTimer r Timer.toIdle).to_sequenceReleased
        (linkOfLine n)).to_evaluateRelease r).to_noteRelease r
    refine .of_calm rfl rfl undisputed expired moves fun agreed now => ?_
    have timed : Moves [.note, .inb, .evaluate]
        ((append (.releaseComplete r (.sequence, n)) (s.atTime t)).modTimer r Timer.toIdle) _ :=
      ((Moves.refl.to_sequenceReleased (linkOfLine n)).to_evaluateRelease r).to_noteRelease r
    have changed := timed.exactly .timers
    have own := finish_own_timer (s := s) (g := Timer.toIdle) agreed changed (here_of_within 16 inside timers)
    obtain ⟨c, released⟩ := sequenceReleased_inbound
      (s := (append (.releaseComplete r (.sequence, n)) (s.atTime t)).modTimer r Timer.toIdle) waits
    have after : Moves [.note, .evaluate] (sequenceReleased (linkOfLine n)
        ((append (.releaseComplete r (.sequence, n)) (s.atTime t)).modTimer r Timer.toIdle)) _ :=
      (Moves.refl.to_evaluateRelease r).to_noteRelease r
    have lines := Eq.trans (after.exactly .inbound) released
    have line := finish_own_inb (s := s) agreed lines (here_of_within 3 place inbound)
    exact ⟨congrArg Timer.state own, congrArg Timer.expiry own, finish_other_timers (s := s) (g := Timer.toIdle) agreed changed,
      congrArg Inbound.sequence line, congrArg Inbound.released line, finish_other_inbound (s := s) agreed lines,
      (finish_register agreed).trans (Eq.trans (timed.exactly .register) rfl)⟩
  · have expired := releaseExpires_of_due (s := s.atTime t) owner running expiry passed
    obtain ⟨kind, n⟩ := o
    obtain rfl : kind = .lever := is_lever
    have moves : Moves [.note, .record, .evaluate, .timer] (s.atTime t) _ :=
      ((((Moves.refl.to_append (.releaseComplete r (.lever, n))).to_modTimer r
        (Timer.lapsing (e + (s.tables.timer r).validity.getD 60 * 1000))).to_evaluate n).to_evaluateRelease r).to_noteRelease r
    refine .of_calm rfl rfl undisputed expired moves fun agreed now => ?_
    have timed : Moves [.note, .evaluate] ((append (.releaseComplete r (.lever, n)) (s.atTime t)).modTimer r
        (Timer.lapsing (e + (s.tables.timer r).validity.getD 60 * 1000))) _ :=
      ((Moves.refl.to_evaluate n).to_evaluateRelease r).to_noteRelease r
    have changed := timed.exactly .timers
    have own := finish_own_timer (s := s) (g := Timer.lapsing _) agreed changed (here_of_within 16 inside timers)
    exact ⟨congrArg Timer.state own, congrArg Timer.expiry own, congrArg Timer.lapse own,
      finish_other_timers (s := s) (g := Timer.lapsing _) agreed changed,
      (finish_register agreed).trans (Eq.trans (timed.exactly .register) rfl)⟩
  · have lapsed := releaseLapses_of_due (s := s.atTime t) owner complete lapse passed
    have moves : Moves [.note, .record, .evaluate, .timer] (s.atTime t) _ :=
      ((Moves.refl.to_cancelTimer .lapsed r).to_evaluate o.2).to_evaluateRelease r
    refine .of_calm rfl rfl undisputed lapsed moves fun agreed now => ?_
    have after : Moves [.evaluate] (cancelTimer .lapsed r (s.atTime t)) _ :=
      (Moves.refl.to_evaluate o.2).to_evaluateRelease r
    obtain ⟨-, -, timed, told⟩ := cancelTimer_kept .lapsed r (s.atTime t)
    rw [show timerOwner (s.atTime t) r = o from owner.symm] at told
    have changed := Eq.trans (after.exactly .timers) timed
    have own := finish_own_timer (s := s) (g := Timer.toIdle) agreed changed (here_of_within 16 inside timers)
    exact ⟨congrArg Timer.state own, congrArg Timer.lapse own, finish_other_timers (s := s) (g := Timer.toIdle) agreed changed,
      (finish_register agreed).trans (Eq.trans (after.exactly .register) told)⟩

end Sys2Proof.Machine
end

section
/-! The bell codes that are sent, and the times at which codes end (R100, R103 to R106, R108, R109, R111). -/

set_option Elab.async false

namespace Sys2Proof.Machine

variable {s u v : State} {j k n : Nat} {t : Time} {i : Instr} {ks : List Kind} {ps : List Part} {P : State → Prop}
  {groups : List Nat}

/-! ### Records that a row changes, but for what the end of a step may stage or start -/

section
variable {g : Link → Link}

theorem finish_own_link (agreed : v.Undisputed) (changed : v.links = modAt s.links {} k g)
    (here : within k s.links.length = true) : ((finish v).link k).kept = (g (s.link k)).kept := by
  rw [finish_link agreed, State.link, changed, nth_modAt, if_pos ⟨rfl, here⟩]
  rfl

theorem finish_other_links (agreed : v.Undisputed) (changed : v.links = modAt s.links {} k g) :
    OtherLinks k s (finish v) := by
  intro j other
  rw [finish_link agreed, State.link, changed, nth_modAt, if_neg fun h => other h.1]
  rfl

end

section
variable {g : Bell → Bell}

theorem finish_own_kept_bell (agreed : v.Undisputed)
    (changed : v.bells.map Bell.kept = (modAt s.bells {} k g).map Bell.kept)
    (here : within k s.bells.length = true) : ((finish v).bell k).kept = (g (s.bell k)).kept := by
  rw [finish_bell agreed, State.bell, nth_of_map ({} : Bell) changed, nth_modAt, if_pos ⟨rfl, here⟩]
  rfl

theorem finish_other_kept_bells (agreed : v.Undisputed)
    (changed : v.bells.map Bell.kept = (modAt s.bells {} k g).map Bell.kept) : OtherBells k s (finish v) := by
  intro j other
  rw [finish_bell agreed, State.bell, nth_of_map ({} : Bell) changed, nth_modAt, if_neg fun h => other h.1]
  rfl

end

/-! ### The schedule of a host code (R104) -/

theorem groupStarts_eq (start step n : Nat) :
    groupStarts start step n = (List.range n).map fun i => (start + (i + 1) * step, false) := by
  induction n generalizing start with
  | zero => rfl
  | succ n ih =>
    rw [groupStarts, ih, List.range_succ_eq_map, List.map_cons, List.map_map]
    simp [Nat.add_mul, Nat.add_assoc, Nat.add_comm step]

/-- The starts of one group, all one in-group gap apart. -/
theorem group_eq (c : BellCfg) (g : Nat) (start : Time) (some_beat : 1 ≤ g) :
    (start, true) :: groupStarts start c.inGroup (g - 1)
      = (List.range g).map fun i => (start + i * c.inGroup, i == 0) := by
  obtain ⟨m, rfl⟩ : ∃ m, g = m + 1 := ⟨g - 1, by omega⟩
  rw [groupStarts_eq, List.range_succ_eq_map, List.map_cons, List.map_map]
  simp

theorem scheduleOf_cons (c : BellCfg) (g : Nat) (gs : List Nat) (start : Time) (some_beat : 1 ≤ g) :
    scheduleOf c (g :: gs) start = (List.range g).map (fun i => (start + i * c.inGroup, i == 0))
      ++ scheduleOf c gs (start + (g - 1) * c.inGroup + c.betweenGroup) := by
  rw [scheduleOf, group_eq c g start some_beat]

theorem length_scheduleOf (c : BellCfg) (gs : List Nat) (beats : ∀ x ∈ gs, 1 ≤ x) (start : Time) :
    (scheduleOf c gs start).length = gs.sum := by
  induction gs generalizing start with
  | nil => rfl
  | cons g gs ih =>
    rw [scheduleOf_cons c g gs start (beats g List.mem_cons_self), List.length_append, List.length_map,
      List.length_range, ih (fun x mem => beats x (List.mem_cons_of_mem _ mem)), List.sum_cons]

/-! ### SEND CODE -/

theorem cmdSendCode_unfit
    (unfit : within k 3 = false ∨ groups.length < 1 ∨ 4 < groups.length ∨ ∃ g ∈ groups, g < 1 ∨ 16 < g) :
    cmdSendCode k groups s = refuse .range s := by
  refine if_pos ?_
  rcases unfit with outside | none | many | ⟨g, mem, bad⟩
  · simp [outside]
  · simp [inRange, Nat.not_le.2 none]
  · simp [inRange, Nat.not_le.2 many]
  · simp only [Bool.or_eq_true, Bool.not_eq_true', List.all_eq_false]
    exact .inr ⟨g, mem, by simp only [inRange]; simp; omega⟩

theorem codeFits (inside : within k 3 = true) (some_group : 1 ≤ groups.length) (four : groups.length ≤ 4)
    (beats : ∀ g ∈ groups, 1 ≤ g ∧ g ≤ 16) :
    (!within k 3 || !inRange groups.length 1 4 || !groups.all (inRange · 1 16)) = false := by
  have all : groups.all (inRange · 1 16) = true := List.all_eq_true.2 fun g mem => by simp [inRange, beats g mem]
  simp [inside, inRange, some_group, four] at all ⊢
  exact all

theorem cmdSendCode_of_fit (fit : (!within k 3 || !inRange groups.length 1 4 || !groups.all (inRange · 1 16)) = false) :
    cmdSendCode k groups s
      = if !linkTakesCodes s k then refuse .state s
        else if (s.bell k).plunger.isSome || (s.bell k).host.isSome then refuse .busy s
        else reply [byte (s.bell k).nextCode] (openHostCode k groups s) := by
  rw [cmdSendCode, if_neg (by simp [fit])]

/-- The bell record of a link with a host code opened. -/
def Bell.hostOpened (groups : List Nat) (c : BellCfg) (rules : List CodeRule) (now : Time) (b : Bell) : Bell :=
  { b with
    host := some { number := b.nextCode, pattern := groups, schedule := scheduleOf c groups now
                   stroke := c.sendStroke, endAt := lastStart (scheduleOf c groups now) + c.endGap
                   rules := rules }
    nextCode := (b.nextCode + 1) % 16 }

/-- Settles O39: SEND CODE refuses in the order of R103, and opens the code with its schedule. -/
theorem sendCodeOpensAHostCode : Obligations.SendCodeOpensAHostCode := by
  unfold Obligations.SendCodeOpensAHostCode
  refine ⟨fun s t k groups s_open length => ⟨fun unfit => ?_, fun inside some_group four beats => ?_⟩,
    fun c g gs start some_beat beats => ⟨?_, ?_, ?_⟩⟩
  · exact .of_refuse rfl rfl s_open (cmdSendCode_unfit unfit) rfl
  · have fits := cmdSendCode_of_fit (s := s.atTime t) (codeFits inside some_group four beats)
    refine ⟨fun no_code => ?_, fun takes code => ?_, fun takes no_plunger no_host => ?_⟩
    · have off : (!linkTakesCodes (s.atTime t) k) = true := congrArg (! ·) no_code
      exact .of_refuse rfl rfl s_open (fits.trans (if_pos off)) rfl
    · have on : ¬ (!linkTakesCodes (s.atTime t) k) = true := by rw [show linkTakesCodes (s.atTime t) k = true from takes]; decide
      have busy : ((s.bell k).plunger.isSome || (s.bell k).host.isSome) = true := by
        simpa [Option.isSome_iff_ne_none] using code
      exact .of_refuse rfl rfl s_open (fits.trans ((if_neg on).trans (if_pos busy))) rfl
    · have on : ¬ (!linkTakesCodes (s.atTime t) k) = true := by rw [show linkTakesCodes (s.atTime t) k = true from takes]; decide
      have free : ¬ ((s.bell k).plunger.isSome || (s.bell k).host.isSome) = true := by simp [no_plunger, no_host]
      refine .of_done (ks := [.bell]) rfl rfl s_open (fits.trans ((if_neg on).trans (if_neg free)))
        (Moves.refl.to_openHostCode k groups) rfl fun agreed now gave => ?_
      have own := finish_own_bell (s := s) (g := Bell.hostOpened groups (s.tables.bell k)
        (s.tables.page k ++ s.tables.page 0) (max s.now t)) agreed rfl (here_of_within 3 inside length)
      exact ⟨gave, finish_other_bells (s := s) (g := Bell.hostOpened groups (s.tables.bell k)
          (s.tables.page k ++ s.tables.page 0) (max s.now t)) agreed rfl,
        congrArg Bell.nextCode own, (congrArg Bell.plunger own).trans no_plunger, (congrArg Bell.received own).trans rfl,
        (congrArg Bell.expectation own).trans rfl, _, congrArg Bell.host own, rfl, rfl, rfl, rfl, rfl, rfl, rfl⟩
  · rw [length_scheduleOf c (g :: gs) (List.forall_mem_cons.2 ⟨some_beat, beats⟩), List.sum_cons]
  · rw [scheduleOf_cons c g gs start some_beat, List.take_left' (by simp)]
  · rw [scheduleOf_cons c g gs start some_beat, List.drop_left' (by simp)]

/-! ### The end of a sent code -/

/-- The bell record of a link whose sent code leaves an expectation, or none (R109). -/
def Bell.expecting (e : Option Expectation) (b : Bell) : Bell := { b with answerable := none, expectation := e }

/-- The expectation that a sent code leaves where it answers none (R109). -/
def expectationOf (pattern : List Nat) (garbled : Bool) (m : Meaning × Option Nat) (now : Time) (reply : Nat) :
    Option Expectation :=
  if garbled || m.1 == .test then none else some ⟨pattern, m.1, m.2, now, now + reply * 1000⟩

/-- An outbound line for which ENTERING has been sent (R130). -/
def Outbound.entered (o : Outbound) : Outbound := { o with entering := true, overdueAt := none }

@[simp] theorem changeOutb_outbound (k : Nat) (g : Outbound → Outbound) (s : State) :
    (changeOutb k g s).outbound = modAt s.outbound {} k g :=
  when_keeps (I := fun u => u.outbound = modAt s.outbound {} k g) _ id rfl

theorem when_enteringSent_outbound (b : Bool) (k : Nat) (s : State) :
    (when b (enteringSent k) s).outbound = modAt s.outbound {} k (if b then Outbound.entered else id) := by
  cases b with
  | false => exact (modAt_self _ _ _ _ rfl).symm
  | true => exact changeOutb_outbound k _ s

theorem expectAfter_of_unanswered (p : List Nat) (garbled : Bool) (m : Meaning × Option Nat)
    (unanswered : (s.bell k).answerable = none) :
    expectAfter k p garbled m s
      = s.modBell k (Bell.expecting (expectationOf p garbled m s.now (s.tables.bell k).reply)) := by
  simp only [expectAfter, unanswered, Option.any_none]
  rfl

/-- What the end of a sent code leaves, where the code answers none. -/
theorem endSent_effect (p : List Nat) (garbled byHost : Bool) (rules : List CodeRule)
    (unanswered : (s.bell k).answerable = none) {m : Meaning × Option Nat} (matched : m = matchCode rules true p) :
    (endSent k p garbled byHost rules s).bells
        = modAt s.bells {} k (Bell.expecting (expectationOf p garbled m s.now (s.tables.bell k).reply))
      ∧ (endSent k p garbled byHost rules s).outbound
        = modAt s.outbound {} k (if !garbled && m.1 == .entering then Outbound.entered else id)
      ∧ (endSent k p garbled byHost rules s).register
        = s.register.append (.codeSent k p (if garbled then none else some m.1) (if garbled then none else m.2) garbled
            byHost) := by
  subst matched
  generalize ev : Event.codeSent k p (if garbled then none else some (matchCode rules true p).1)
    (if garbled then none else (matchCode rules true p).2) garbled byHost = e
  generalize entering : (!garbled && (matchCode rules true p).1 == .entering) = b
  have marks : Moves [.note, .outb] (append e s) (when b (enteringSent k) (append e s)) :=
    Moves.refl.to_when _ fun _ => Moves.refl.to_enteringSent k
  have bells : (when b (enteringSent k) (append e s)).bells = s.bells := marks.exactly .bells
  have store : (when b (enteringSent k) (append e s)).store = s.store := marks.exactly .store
  have now : (when b (enteringSent k) (append e s)).now = s.now := marks.now_eq
  have register : (when b (enteringSent k) (append e s)).register = s.register.append e := marks.exactly .register
  have ended : endSent k p garbled byHost rules s
      = noteCode k (expectAfter k p garbled (matchCode rules true p) (when b (enteringSent k) (append e s))) := by
    rw [← entering, ← ev]
    rfl
  have free : ((when b (enteringSent k) (append e s)).bell k).answerable = none := by rwa [State.bell, bells]
  rw [ended, expectAfter_of_unanswered p garbled _ free, now, State.tables, store]
  refine ⟨?_, ?_, register⟩
  · exact congrArg (modAt · {} k _) bells
  · exact when_enteringSent_outbound b k _

theorem moves_endSent_of_no_entering (p : List Nat) {garbled : Bool} (byHost : Bool) {rules : List CodeRule}
    (other : (!garbled && (matchCode rules true p).1 == .entering) = false) (s : State) :
    Moves [.note, .record, .bell] s (endSent k p garbled byHost rules s) := by
  unfold endSent
  simp only [other]
  exact ((Moves.refl.to_append _).to_expectAfter k _ _ _).to_noteCode k

end Sys2Proof.Machine
end

section
/-! The times at which codes end (R100, R104, R106, R108, R109, R111). -/

set_option Elab.async false

namespace Sys2Proof.Machine

variable {s u v : State} {j k n : Nat} {t : Time} {i : Instr} {ks : List Kind} {ps : List Part} {P : State → Prop}
  {h : HostCode} {c : PlungerCode} {start : Time} {new_group : Bool} {rest : List (Time × Bool)}

/-! ### Host codes -/

def Bell.withHost (h : Option HostCode) (b : Bell) : Bell := { b with host := h }

theorem hostStrokeEnd_of_early (host : (s.bell k).host = some h) (schedule : h.schedule = (start, new_group) :: rest)
    (early : s.now < start + h.stroke) : hostStrokeEnd k s = s := by
  simp only [hostStrokeEnd, host, schedule]
  exact if_neg (Nat.not_le.2 early)

theorem hostStrokeEnd_of_due (host : (s.bell k).host = some h) (schedule : h.schedule = (start, new_group) :: rest)
    (passed : start + h.stroke ≤ s.now) :
    hostStrokeEnd k s = handItem k (.stroke h.number new_group (h.sent + 1) (h.stroke / 5))
      (s.modBell k (Bell.withHost (some { h with schedule := rest, sent := h.sent + 1 }))) := by
  simp only [hostStrokeEnd, host, schedule]
  exact if_pos passed

theorem hostEnd_of_early (host : (s.bell k).host = some h) (early : h.schedule ≠ [] ∨ s.now < h.endAt) :
    hostEnd k s = s := by
  simp only [hostEnd, host]
  refine if_neg fun ⟨sent, passed⟩ => ?_
  rcases early with strokes | early
  · exact strokes sent
  · exact Nat.not_le.2 early passed

theorem hostEnd_of_due (host : (s.bell k).host = some h) (sent : h.schedule = []) (passed : h.endAt ≤ s.now) :
    hostEnd k s = endSent k h.pattern false true h.rules
      (handItem k (.codeEnd h.number h.sent false) (s.modBell k (Bell.withHost none))) := by
  simp only [hostEnd, host]
  exact if_pos ⟨sent, passed⟩

/-- What the end of a sent code leaves, handed on as an item, where the code answers none. -/
theorem endSent_after (g : Bell → Bell) (item : Item) (p : List Nat) (garbled byHost : Bool) (rules : List CodeRule)
    (free : (g (s.bell k)).answerable = none) (here : within k s.bells.length = true) {m : Meaning × Option Nat}
    (matched : m = matchCode rules true p) (ended : v = endSent k p garbled byHost rules (handItem k item (s.modBell k g))) :
    v.bells = modAt s.bells {} k (Bell.expecting (expectationOf p garbled m s.now (s.tables.bell k).reply) ∘ g)
      ∧ v.links = modAt s.links {} k (fun l => l.handOver s.now item)
      ∧ v.outbound = modAt s.outbound {} k (if !garbled && m.1 == .entering then Outbound.entered else id)
      ∧ v.register = s.register.append (.codeSent k p (if garbled then none else some m.1)
          (if garbled then none else m.2) garbled byHost) := by
  have answerable : ((handItem k item (s.modBell k g)).bell k).answerable = none :=
    (congrArg Bell.answerable (s.bell_modBell_same k g here)).trans free
  obtain ⟨bells, outbound, register⟩ := endSent_effect p garbled byHost rules answerable matched
  have moves : Moves [.note, .record, .bell, .outb] (handItem k item (s.modBell k g)) v := by
    rw [ended]
    exact Moves.refl.to_endSent k p garbled byHost rules
  rw [ended]
  refine ⟨bells.trans (modAt_modAt ..), ?_, outbound, register⟩
  rw [← ended]
  exact moves.exactly .links

/-- Settles O40: a stroke's end and the code's end each wait for their time, and hand on their item. -/
theorem hostCodesAreSentAsScheduled : Obligations.HostCodesAreSentAsScheduled := by
  unfold Obligations.HostCodesAreSentAsScheduled
  intro s t k h undisputed inside bells links host
  have bell_here := here_of_within 3 inside bells
  have link_here := here_of_within 3 inside links
  refine ⟨fun start new_group rest schedule => ⟨fun early => ?_, fun passed => ?_, ?_⟩,
    fun sent => ⟨fun early => ?_, fun passed other no_answer => ?_⟩⟩
  · exact .of_idle rfl rfl undisputed (hostStrokeEnd_of_early (s := s.atTime t) host schedule early) fun _ => trivial
  · have ended := hostStrokeEnd_of_due (s := s.atTime t) host schedule passed
    have moves := (Moves.refl (ks := [.bell, .link]) (s := s.atTime t)).to_hostStrokeEnd k
    rw [ended] at moves
    refine .of_result rfl rfl undisputed ended moves fun agreed now => ?_
    have own := finish_own_bell (s := s) (g := Bell.withHost _) agreed rfl bell_here
    exact ⟨(congrArg Bell.host own).trans rfl, finish_other_bells (s := s) (g := Bell.withHost _) agreed rfl,
      finish_other_links (s := s) (g := fun l => l.handOver (max s.now t) _) agreed rfl,
      finish_own_link (s := s) (g := fun l => l.handOver (max s.now t) _) agreed rfl link_here⟩
  · exact .of_idle rfl rfl undisputed (hostEnd_of_early (s := s.atTime t) host (.inl (by simp [schedule]))) fun _ => trivial
  · exact .of_idle rfl rfl undisputed (hostEnd_of_early (s := s.atTime t) host (.inr early)) fun _ => trivial
  · have ended := hostEnd_of_due (s := s.atTime t) host sent passed
    have quiet : (!false && (matchCode h.rules true h.pattern).1 == .entering) = false := by simpa using other
    have moves : Moves [.note, .record, .bell, .link] (s.atTime t) _ :=
      ((Moves.refl.to_modBell k (Bell.withHost none)).to_handItem k (.codeEnd h.number h.sent false)).trans
        ((moves_endSent_of_no_entering (k := k) h.pattern true quiet _).mono (by decide))
    refine .of_result rfl rfl undisputed ended moves fun agreed now => ?_
    obtain ⟨bell, link, -, told⟩ := endSent_after (s := s.atTime t) (Bell.withHost none) _ h.pattern false true h.rules
      no_answer bell_here rfl rfl
    have own := finish_own_bell (s := s) agreed bell bell_here
    exact ⟨congrArg Bell.host own, finish_other_bells (s := s) agreed bell, finish_other_links (s := s) agreed link,
      finish_own_link (s := s) agreed link link_here, (finish_register agreed).trans told,
      (congrArg Bell.expectation own).trans (by simp [Bell.expecting, expectationOf, Bell.kept])⟩

/-! ### Plunger codes, received codes and expectations -/

def Bell.withPlunger (c : Option PlungerCode) (b : Bell) : Bell := { b with plunger := c }

/-- The bell record of a link whose received code has closed (R106). -/
def Bell.receivedEnded (number : Nat) (now : Time) (b : Bell) : Bell :=
  { b with received := none, lastEnded := some (number, now) }

def Bell.unexpecting (b : Bell) : Bell := { b with expectation := none }

/-- A bell timing reload point changes no bell record but for what was staged. -/
theorem reloadBell_bells (k : Nat) (s : State) : (reloadBell k s).bells.map Bell.kept = s.bells.map Bell.kept := by
  simp only [reloadBell]
  split
  · rfl
  · exact map_modAt s.bells {} k (fun b => { b with staged := [] }) Bell.kept rfl

theorem moves_reloadBell (k : Nat) (s : State) : Moves [.note, .reload, .bell] s (reloadBell k s) :=
  Moves.refl.to_reloadBell k

theorem endDuePlunger_of_early {e : Time} (open_code : (s.bell k).plunger = some c) (begun : c.previousStart = some e)
    (early : s.now < e + (s.tables.bell k).endGap ∨ (s.bell k).strokeTaken = true) : endDuePlunger k s = s := by
  simp only [endDuePlunger, open_code]
  refine if_neg ?_
  rcases early with early | taken
  · simp [plungerEnd, begun, bellCfg, early]
  · simp [taken]

theorem endDuePlunger_of_due {e : Time} (open_code : (s.bell k).plunger = some c) (begun : c.previousStart = some e)
    (passed : e + (s.tables.bell k).endGap ≤ s.now) (free : (s.bell k).strokeTaken = false) :
    endDuePlunger k s = endPlunger k c s := by
  simp only [endDuePlunger, open_code]
  exact if_pos (by simp [plungerEnd, begun, bellCfg, passed, free])

theorem endDuePlunger_of_none (none_open : (s.bell k).plunger = none) : endDuePlunger k s = s := by
  simp only [endDuePlunger, none_open]

theorem receiveTimedOut_of_early {c : ReceivedCode} (open_code : (s.bell k).received = some c)
    (early : s.now < c.lastItem + (s.tables.bell k).endGap + 2000) : receiveTimedOut k s = s := by
  simp only [receiveTimedOut, open_code]
  exact if_neg (Nat.not_le.2 early)

/-- A received code that ends GARBLED is recorded, and leaves the expectation (R106, R110). -/
theorem closeReceived_of_garbled (n : Nat) (p : List Nat) (rules : List CodeRule) (s : State) :
    closeReceived k n p true rules s
      = noteCode k (append (.codeReceived k p none none true) (s.modBell k (Bell.receivedEnded n s.now))) := by
  simp only [closeReceived]
  split <;> rfl

theorem receiveTimedOut_of_due {c : ReceivedCode} (open_code : (s.bell k).received = some c)
    (passed : c.lastItem + (s.tables.bell k).endGap + 2000 ≤ s.now) :
    receiveTimedOut k s = reloadBell k (noteCode k (append (.codeReceived k c.pattern.beats none none true)
      (s.modBell k (Bell.receivedEnded c.number s.now)))) := by
  rw [← closeReceived_of_garbled c.number c.pattern.beats c.rules]
  simp only [receiveTimedOut, open_code]
  exact if_pos passed

theorem receiveTimedOut_of_none (none_open : (s.bell k).received = none) : receiveTimedOut k s = s := by
  simp only [receiveTimedOut, none_open]

theorem deadlinePassed_of_early {e : Expectation} (expects : (s.bell k).expectation = some e) (early : s.now < e.deadline) :
    deadlinePassed k s = s := by
  simp only [deadlinePassed, expects]
  exact if_neg (Nat.not_le.2 early)

theorem deadlinePassed_of_due {e : Expectation} (expects : (s.bell k).expectation = some e) (passed : e.deadline ≤ s.now) :
    deadlinePassed k s
      = noteCode k (append (.codeUnanswered k e.pattern e.meaning e.cls) (s.modBell k Bell.unexpecting)) := by
  simp only [deadlinePassed, expects]
  exact if_pos passed

theorem deadlinePassed_of_none (none_open : (s.bell k).expectation = none) : deadlinePassed k s = s := by
  simp only [deadlinePassed, none_open]

/-- Settles O41: each code and expectation waits for its time, and ends by its own rule. -/
theorem codesEndAtTheirTimes : Obligations.CodesEndAtTheirTimes := by
  unfold Obligations.CodesEndAtTheirTimes
  intro s t k undisputed inside bells links
  have bell_here := here_of_within 3 inside bells
  have link_here := here_of_within 3 inside links
  refine ⟨fun c e open_code begun => ⟨fun early => ?_, fun passed free no_answer m matched => ⟨fun quiet => ?_, ?_⟩⟩,
    fun c open_code => ⟨fun early => ?_, fun passed => ?_⟩, fun e expects => ⟨fun early => ?_, fun passed => ?_⟩,
    fun none_open => ?_, fun none_open => ?_, fun none_open => ?_⟩
  · exact .of_idle rfl rfl undisputed (endDuePlunger_of_early (s := s.atTime t) open_code begun early) fun _ => trivial
  · have ended := endDuePlunger_of_due (s := s.atTime t) open_code begun passed free
    have other : (!c.garbled && (matchCode c.rules true c.pattern.beats).1 == .entering) = false := by
      rcases quiet with garbled | other
      · simp [garbled]
      · simp [matched ▸ other]
    have moves : Moves [.note, .record, .bell, .link, .reload] (s.atTime t) (endPlunger k c (s.atTime t)) :=
      (((Moves.refl.to_modBell k (Bell.withPlunger none)).to_handItem k (.codeEnd (c.number.getD 0) c.relayed c.garbled)).trans
        ((moves_endSent_of_no_entering (k := k) c.pattern.beats false other _).mono (by decide))).to_reloadBell k
    exact .of_result rfl rfl undisputed ended moves fun _ _ => trivial
  · have ended := endDuePlunger_of_due (s := s.atTime t) open_code begun passed free
    refine .of_result rfl rfl undisputed ended (Moves.refl.to_endPlunger k c (ks := sentKinds)) fun agreed now => ?_
    obtain ⟨bell, link, line, told⟩ := endSent_after (s := s.atTime t) (Bell.withPlunger none)
      (.codeEnd (c.number.getD 0) c.relayed c.garbled) c.pattern.beats c.garbled false c.rules no_answer bell_here matched rfl
    have reload := moves_reloadBell k (endSent k c.pattern.beats c.garbled false c.rules
      (handItem k (.codeEnd (c.number.getD 0) c.relayed c.garbled) ((s.atTime t).modBell k (Bell.withPlunger none))))
    have bell := (reloadBell_bells k _).trans (congrArg (List.map Bell.kept) bell)
    have link := Eq.trans (reload.exactly .links) link
    have line := Eq.trans (reload.exactly .outbound) line
    have told := Eq.trans (reload.exactly .register) told
    have own := finish_own_kept_bell (s := s) agreed bell bell_here
    refine ⟨congrArg Bell.plunger own, (congrArg Bell.expectation own).trans ?_, finish_other_kept_bells (s := s) agreed bell,
      finish_other_links (s := s) agreed link, finish_other_outbound (s := s) agreed line,
      finish_own_link (s := s) agreed link link_here, fun whole entering length => ?_, (finish_register agreed).trans told⟩
    · simp [Bell.expecting, expectationOf, Bell.kept]
    · have own := finish_own_outb (s := s) agreed line (here_of_within 3 inside length)
      simp only [whole, entering] at own
      exact ⟨congrArg Outbound.entering own, congrArg Outbound.overdueAt own⟩
  · exact .of_idle rfl rfl undisputed (receiveTimedOut_of_early (s := s.atTime t) open_code early) fun _ => trivial
  · have ended := receiveTimedOut_of_due (s := s.atTime t) open_code passed
    have moves : Moves [.note, .record, .bell, .reload] (s.atTime t) _ :=
      (((Moves.refl.to_modBell k (Bell.receivedEnded c.number (max s.now t))).to_append
        (.codeReceived k c.pattern.beats none none true)).to_noteCode k).to_reloadBell k
    refine .of_result rfl rfl undisputed ended moves fun agreed now => ?_
    have bell := reloadBell_bells k (noteCode k (append (.codeReceived k c.pattern.beats none none true)
      ((s.atTime t).modBell k (Bell.receivedEnded c.number (max s.now t)))))
    have own := finish_own_kept_bell (s := s) (g := Bell.receivedEnded c.number (max s.now t)) agreed bell bell_here
    exact ⟨congrArg Bell.received own, congrArg Bell.lastEnded own, (congrArg Bell.expectation own).trans rfl,
      finish_other_kept_bells (s := s) (g := Bell.receivedEnded c.number (max s.now t)) agreed bell,
      (finish_register agreed).trans (Eq.trans ((moves_reloadBell k _).exactly .register) rfl)⟩
  · exact .of_idle rfl rfl undisputed (deadlinePassed_of_early (s := s.atTime t) expects early) fun _ => trivial
  · have ended := deadlinePassed_of_due (s := s.atTime t) expects passed
    have moves := (Moves.refl (ks := [.note, .record, .bell]) (s := s.atTime t)).to_deadlinePassed k
    rw [ended] at moves
    refine .of_result rfl rfl undisputed ended moves fun agreed now => ?_
    exact ⟨finish_own_bell (s := s) (g := Bell.unexpecting) agreed rfl bell_here,
      finish_other_bells (s := s) (g := Bell.unexpecting) agreed rfl, finish_register agreed⟩
  · exact .of_idle rfl rfl undisputed (endDuePlunger_of_none (s := s.atTime t) none_open) fun _ => trivial
  · exact .of_idle rfl rfl undisputed (receiveTimedOut_of_none (s := s.atTime t) none_open) fun _ => trivial
  · exact .of_idle rfl rfl undisputed (deadlinePassed_of_none (s := s.atTime t) none_open) fun _ => trivial

end Sys2Proof.Machine
end

section
/-! Rows told by what they leave alone, and the compares of levers and lines (R35, R130, R132). -/

set_option Elab.async false

namespace Sys2Proof.Machine

variable {s u v : State} {c j k n : Nat} {t : Time} {i : Instr} {ks : List Kind} {ps : List Part} {P : State → Prop}
  {f : State → State} {subject : Option Nat}

/-- Moves that are not of the store's own kind, and start no blocks, are not of the store. -/
theorem store_not_main (lasting : .begin ∉ ks) (stored : Kind.store ∉ ks) : Part.store ∉ ks.flatMap Kind.main := by
  intro mem
  obtain ⟨x, held, main⟩ := List.mem_flatMap.1 mem
  cases x <;> simp [Kind.main, Kind.parts] at main
  · exact stored held
  · exact lasting held

/-- A row by what its effect leaves alone, where its moves say more than it does. -/
theorem Takes.of_leaves (row : exec i s = .next (finish (f (s.comeTo t)))) (time : i.time = some t)
    (undisputed : s.Undisputed) (effect : f (s.atTime t) = v) (moves : Moves ks (s.atTime t) v)
    (left : Leaves (.transmitter :: ps) (s.atTime t) v) (holds : v.Undisputed → v.now = max s.now t → P (finish v))
    (lasting : Kind.stage ∉ ks ∧ .begin ∉ ks ∧ .time ∉ ks := by decide)
    (stored : Kind.store ∉ ks ∧ .tables ∉ ks ∧ .jobs ∉ ks := by decide)
    (told : ∃ p ∈ ps, p.silent = false := by decide) : Takes i s ps P := by
  intro prompt
  have same : ∀ agreed : v.Undisputed, ∀ q, q ∉ ps → q.same s (finish v) := by
    intro agreed q away
    by_cases transmits : q = .transmitter
    · subst transmits; trivial
    · exact Part.same_trans (Part.same_trans (by cases q <;> simp [Part.same])
        (Part.same_of_exactly (left.2.2.2 q (by simp [away, transmits])))) (finish_part agreed q)
  obtain ⟨u, next, now, ⟨⟨pending, count, parts⟩, unstaged⟩, rest, holds⟩ :=
    Takes.of_result (ps := ks.flatMap Kind.main ++ ps) (P := fun u => (∀ q, q ∉ ps → q.same s u) ∧ P u)
      row time undisputed effect moves (fun agreed now => ⟨same agreed, holds agreed now⟩)
      (fun x held q main => List.mem_append_left _ (List.mem_flatMap.2 ⟨x, held, main⟩)) lasting (.inr stored)
      (.inl (told.imp fun _ => .imp_left (List.mem_append_right _))) prompt
  refine ⟨u, next, now, ⟨⟨pending, count, rest⟩, fun none_staged => ⟨fun away => ?_, fun all_silent => ?_⟩⟩, holds⟩
  · exact (unstaged none_staged).1 fun mem =>
      (List.mem_append.1 mem).elim (store_not_main lasting.2.1 stored.1) away
  · obtain ⟨p, mem, loud⟩ := told
    exact absurd (all_silent p mem) (by simp [loud])

theorem leaves_modInb (k : Nat) (g : Inbound → Inbound) (s : State) : Leaves [.inbound] s (s.modInb k g) :=
  ⟨rfl, rfl, rfl, fun p away => by cases p <;> simp [Part.exactly] at away ⊢⟩

/-! ### A cause that confines nothing (R132) -/

/-- A cause that confines nothing, where it does not suspend the part, is counted and noted, and nothing else. -/
theorem raise_of_unconfined (no_link : c ≠ 17 ∧ c ≠ 18) (confines : ∀ as u, confine c as subject u = u)
    (calm : (occurrence s c subject).reaction ≠ .suspend ∨ s.mode ≠ some .service) :
    raise c subject s = noteFault (occurrence s c subject).source (noteOccurrence c subject s) := by
  have no_link : linkTaken c subject s = none := by cases subject <;> simp [linkTaken, no_link]
  have mode : (noteOccurrence c subject s).mode = s.mode := (leaves_countOccurrence c subject s).mode_eq
  have none_suspends : suspends (occurrence s c subject)
      (noteFault (occurrence s c subject).source (noteOccurrence c subject s)) = false := by
    rcases calm with other | other
    · simp [suspends, other]
    · have off : (noteFault (occurrence s c subject).source (noteOccurrence c subject s)).mode ≠ some .service :=
        fun on => other (mode.symm.trans on)
      simp [suspends, State.inService, off]
  have told : tellOccurrence c subject s = noteFault (occurrence s c subject).source (noteOccurrence c subject s) := by
    have confined : confineOccurrence c subject s
        = noteFault (occurrence s c subject).source (noteOccurrence c subject s) := by
      refine congrArg (noteFault _) ?_
      cases (occurrence s c subject).reaction != .report with
      | false => rfl
      | true => exact confines _ _
    simp only [tellOccurrence, no_link, confined, none_suspends]
    rfl
  rw [raise_eq, told, none_suspends, when_false]

theorem raise_line_disagree (calm : (occurrence s 19 subject).reaction ≠ .suspend ∨ s.mode ≠ some .service) :
    raise 19 subject s = noteFault (occurrence s 19 subject).source (noteOccurrence 19 subject s) :=
  raise_of_unconfined (by decide) (fun _ _ => by cases subject <;> rfl) calm

theorem leaves_noteOccurrence (c : Nat) (subject : Option Nat) (s : State) :
    Leaves [.faults, .register, .transmitter] s (noteOccurrence c subject s) :=
  ((leaves_countOccurrence c subject s).mono (by simp)).trans ((leaves_append _ _).mono (by simp))

/-- A new record of a source and subject, and its entry (R162, R163). -/
theorem noteOccurrence_new (absent : s.faults.find c subject = none) (room : s.faults.records.length < 32) {x : Reaction}
    (reaction : reactionOf s c = x) :
    (noteOccurrence c subject s).faults = { s.faults with records := s.faults.records ++
        [⟨c, subject, true, 1, s.register.day, s.register.tenths, s.register.day, s.register.tenths, x⟩] }
      ∧ (noteOccurrence c subject s).register = s.register.append (.faultRaised c subject x 1) := by
  have made := occurrence_of_absent absent room
  rw [reaction] at made
  constructor
  · rw [noteOccurrence_faults, countOccurrence_of_absent absent room, newRecord_eq reaction]
    rfl
  · rw [noteOccurrence_register, made]

/-! ### The compares -/

/-- A lever whose transit compare has expired (R35). -/
def Lever.overtaken (l : Lever) : Lever := { l with transitAt := none, transitActive := true }

def Inbound.disagreed (i : Inbound) : Inbound := { i with disagreeAt := none, disagreeActive := true }

def Outbound.unwatched (o : Outbound) : Outbound := { o with overdueAt := none }

theorem due_eq_false {at_ : Option Time} (early : ∀ e, at_ = some e → s.now < e) : due s at_ = false := by
  cases at_ with
  | none => rfl
  | some e => simpa [due] using early e rfl

theorem due_eq_true {at_ : Option Time} {e : Time} (set : at_ = some e) (passed : e ≤ s.now) : due s at_ = true := by
  simp [due, set, passed]

theorem transitExpires_of_early (early : ∀ e, (s.lever k).transitAt = some e → s.now < e) : transitExpires k s = s :=
  if_neg (by simp [due_eq_false early])

theorem overdueExpires_of_early (early : ∀ e, (s.outb k).overdueAt = some e → s.now < e) : overdueExpires k s = s :=
  if_neg (by simp [due_eq_false early])

theorem disagreementExpires_of_early
    (early : (s.inb k).disagreeSince = none ∨ ∀ e, (s.inb k).disagreeAt = some e → s.now < e) :
    disagreementExpires k s = s := by
  refine if_neg ?_
  rcases early with none_stands | early
  · simp [none_stands]
  · simp [due_eq_false early]

theorem transitExpires_of_due {e : Time} (set : (s.lever k).transitAt = some e) (passed : e ≤ s.now)
    (inactive : (s.lever k).transitActive = false) :
    transitExpires k s = raise 9 (some k) (s.modLever k Lever.overtaken) := by
  rw [transitExpires, if_pos (due_eq_true set passed), inactive]
  rfl

theorem disagreementExpires_of_due {e : Time} (stands : (s.inb k).disagreeSince ≠ none)
    (set : (s.inb k).disagreeAt = some e) (passed : e ≤ s.now) :
    disagreementExpires k s
      = when (!(s.inb k).disagreeActive) (raise 19 (some k)) (s.modInb k Inbound.disagreed) := by
  refine if_pos ?_
  simp [due_eq_true set passed, Option.isSome_iff_ne_none, stands]

theorem overdueExpires_of_due {e : Time} (set : (s.outb k).overdueAt = some e) (passed : e ≤ s.now) :
    overdueExpires k s
      = noteLine (2 * k) (append (.overdue (2 * k) (s.tables.outb k).overdue) (s.modOutb k Outbound.unwatched)) :=
  if_pos (due_eq_true set passed)

/-- Settles O45: each compare waits for its time, and begins or stops only what is its own. -/
theorem comparesOfLeversAndLinesBeginTheirCauses : Obligations.ComparesOfLeversAndLinesBeginTheirCauses := by
  unfold Obligations.ComparesOfLeversAndLinesBeginTheirCauses
  intro s t k undisputed
  refine ⟨fun early => ?_, fun e inside length set passed inactive report absent room => ?_, fun early => ?_,
    fun e inside length stands set passed => ⟨fun active => ?_, fun inactive calm absent room => ?_⟩, fun early => ?_,
    fun e inside length set passed => ?_⟩
  · exact .of_idle rfl rfl undisputed (transitExpires_of_early (s := s.atTime t) early) fun _ => trivial
  · have moves : Moves [.lever, .note, .record, .faults] (s.atTime t) (raise 9 (some k) ((s.atTime t).modLever k Lever.overtaken)) :=
      Moves.to_raise_new_report (s := (s.atTime t).modLever k Lever.overtaken) absent room report
        (Moves.refl.to_modLever k Lever.overtaken)
    refine .of_result rfl rfl undisputed (transitExpires_of_due (s := s.atTime t) set passed inactive) moves fun agreed now => ?_
    have after : Moves [.note, .record, .faults] ((s.atTime t).modLever k Lever.overtaken) _ :=
      Moves.to_raise_new_report (s := (s.atTime t).modLever k Lever.overtaken) (c := 9) (subject := some k) absent room report
        .refl
    have levers := after.exactly .levers
    have raised := raise_new_report (s := (s.atTime t).modLever k Lever.overtaken) (c := 9) (subject := some k) absent room report
    exact ⟨finish_own_lever (s := s) (g := Lever.overtaken) agreed levers (here_of_within 64 inside length),
      finish_other_levers (s := s) (g := Lever.overtaken) agreed levers, (finish_faults agreed).trans raised.1,
      (finish_register agreed).trans raised.2⟩
  · exact .of_idle rfl rfl undisputed (disagreementExpires_of_early (s := s.atTime t) early) fun _ => trivial
  · have due := disagreementExpires_of_due (s := s.atTime t) stands set passed
    rw [show ((s.atTime t).inb k).disagreeActive = true from active] at due
    refine .of_result (ks := [.inb]) rfl rfl undisputed due (Moves.refl.to_modInb k Inbound.disagreed) fun agreed now => ?_
    refine ⟨(finish_own_inb (s := s) (g := Inbound.disagreed) agreed rfl (here_of_within 3 inside length)).trans ?_,
      finish_other_inbound (s := s) (g := Inbound.disagreed) agreed rfl⟩
    rw [Inbound.disagreed, ← active]
  · have due := disagreementExpires_of_due (s := s.atTime t) stands set passed
    rw [show ((s.atTime t).inb k).disagreeActive = false from inactive] at due
    have counted : occurrence ((s.atTime t).modInb k Inbound.disagreed) 19 (some k) = ⟨reactionOf s 19, 19, 1⟩ :=
      occurrence_of_absent absent room
    have raised := raise_line_disagree (s := (s.atTime t).modInb k Inbound.disagreed) (subject := some k)
      (by rw [counted]; exact calm)
    have effect := due.trans ((when_true (raise 19 (some k)) _).trans raised)
    have moves : Moves (.inb :: raiseKinds) (s.atTime t) _ :=
      (Moves.refl.to_modInb k Inbound.disagreed).to_raise 19 (some k)
    rw [raised] at moves
    have noted := (leaves_noteOccurrence 19 (some k) ((s.atTime t).modInb k Inbound.disagreed)).trans
      ((leaves_raiseKey .faults (maskBit ((occurrence ((s.atTime t).modInb k Inbound.disagreed) 19 (some k)).source - 1)) _).mono
        (by simp))
    have inbound : (noteFault _ (noteOccurrence 19 (some k) ((s.atTime t).modInb k Inbound.disagreed))).inbound
        = modAt s.inbound {} k Inbound.disagreed := noted.2.2.2 .inbound (by decide)
    have new := noteOccurrence_new (s := (s.atTime t).modInb k Inbound.disagreed) absent room (x := reactionOf s 19) rfl
    refine .of_leaves rfl rfl undisputed effect moves
      (((leaves_modInb k Inbound.disagreed _).mono (by simp)).trans (noted.mono (by simp))) fun agreed now => ?_
    exact ⟨finish_own_inb (s := s) (g := Inbound.disagreed) agreed inbound (here_of_within 3 inside length),
      finish_other_inbound (s := s) (g := Inbound.disagreed) agreed inbound, (finish_faults agreed).trans new.1,
      (finish_register agreed).trans new.2⟩
  · exact .of_idle rfl rfl undisputed (overdueExpires_of_early (s := s.atTime t) early) fun _ => trivial
  · have moves := (Moves.refl (ks := [.note, .record, .outb]) (s := s.atTime t)).to_overdueExpires k
    rw [overdueExpires_of_due (s := s.atTime t) set passed] at moves
    refine .of_result rfl rfl undisputed (overdueExpires_of_due (s := s.atTime t) set passed) moves fun agreed now => ?_
    exact ⟨finish_own_outb (s := s) (g := Outbound.unwatched) agreed rfl (here_of_within 3 inside length),
      finish_other_outbound (s := s) (g := Outbound.unwatched) agreed rfl, finish_register agreed⟩

end Sys2Proof.Machine
end

section
/-! The free decision and the coil command (R55, R61). -/

set_option Elab.async false

namespace Sys2Proof.Machine

variable {s u : State} {j k : Nat} {l : Lever}

/-- R55, step 9: the block line of a SIGNAL lever that would leave NORMAL lets it go. -/
theorem decideSteps_line (bars_none : resultsAgree x y = true) (met : x = true) (used : l.type ≠ .spare) (in_use : l.outOfUse = false)
    (known : l.current ≠ .unknown ∧ l.confinement = [] ∧ l.settled ≠ none) (still : l.current ≠ .moving)
    (other : ¬ (l.type = .signal ∧ l.settled = some .reverse)) :
    (decideSteps s l x y).1 = true ↔ ∀ line, l.blockLine = some line → l.type = .signal → l.settled = some .normal →
      lineState s line = some .clear ∧ l.allowance ≠ some false := by
  obtain ⟨seen, free, settled⟩ := known
  have place : ¬ (l.current = .unknown ∨ l.confinement ≠ [] ∨ l.settled = none) := by simp [seen, free, settled]
  unfold decideSteps
  rw [if_neg other, if_neg used, if_neg (by simp [in_use]), if_neg place, if_neg still, if_neg (by simp [bars_none]),
    if_neg (by simp [met])]
  cases l.blockLine with
  | none => simp
  | some line =>
    by_cases leaving : l.type = .signal ∧ l.settled = some .normal
    · by_cases clear : lineState s line = some .clear
      · by_cases absent : l.allowance = some false
        · simp [leaving, clear, absent]
        · simp [leaving, clear, absent]
      · simp [leaving, clear]
    · simp only [if_neg leaving, true_iff]
      rintro _ - signal normal
      exact absurd ⟨signal, normal⟩ leaving

/-- R55 for a lever whose walks agree. -/
theorem decideSteps_free (agree : resultsAgree x y = true) :
    (decideSteps s l x y).1 = true ↔
      (l.type = .signal ∧ l.settled = some .reverse)
        ∨ (l.type ≠ .spare ∧ l.outOfUse = false ∧ l.current ≠ .unknown ∧ l.confinement = [] ∧ l.settled ≠ none
          ∧ l.current ≠ .moving ∧ x = true
          ∧ ∀ line, l.blockLine = some line → l.type = .signal → l.settled = some .normal →
              lineState s line = some .clear ∧ l.allowance ≠ some false) := by
  by_cases back : l.type = .signal ∧ l.settled = some .reverse
  · simp [decideSteps, back]
  by_cases spare : l.type = .spare
  · simp [decideSteps, spare]
  by_cases out : l.outOfUse = true
  · simp [decideSteps, back, spare, out]
  by_cases place : l.current = .unknown ∨ l.confinement ≠ [] ∨ l.settled = none
  · have not_free : (decideSteps s l x y).1 = false := by
      unfold decideSteps
      rw [if_neg back, if_neg spare, if_neg out, if_pos place]
    simp only [not_free, Bool.false_eq_true, back, false_or, false_iff]
    rintro ⟨-, -, seen, free, settled, -⟩
    rcases place with unseen | confined | unsettled
    · exact seen unseen
    · exact confined free
    · exact settled unsettled
  have known : l.current ≠ .unknown ∧ l.confinement = [] ∧ l.settled ≠ none := by
    simpa only [not_or, not_not, ne_eq] using place
  by_cases moves : l.current = .moving
  · have not_free : (decideSteps s l x y).1 = false := by
      unfold decideSteps
      rw [if_neg back, if_neg spare, if_neg out, if_neg place, if_pos moves]
    simp [not_free, back, moves]
  cases x with
  | false => 
    have not_free : (decideSteps s l false y).1 = false := by
      unfold decideSteps
      rw [if_neg back, if_neg spare, if_neg out, if_neg place, if_neg moves, if_neg (by simp [agree])]
      rfl
    simp [not_free, back]
  | true =>
    rw [Bool.not_eq_true] at out
    rw [decideSteps_line agree rfl spare out known moves back]
    simp [back, spare, out, known, moves]

/-- R61 outside SERVICE: only a SIGNAL lever that goes back to NORMAL. -/
theorem coilCommand_of_restricted {m : Mode} (other : m ≠ .service) (configured : m ≠ .unconfigured) (free : Bool) :
    coilCommand m l free = true ↔ l.type = .signal
      ∧ ((l.current = .reverse ∧ l.settled = some .reverse) ∨ (l.current = .moving ∧ l.held = some .reverse)) := by
  have rest : l.atRest = true ∧ l.settled = some .reverse ↔ l.current = .reverse ∧ l.settled = some .reverse := by
    refine and_congr_left fun settled => ?_
    rw [Lever.atRest_iff, settled]
    simp [Pos.atRest, eq_comm]
  cases m with
  | service => exact absurd rfl other
  | unconfigured => exact absurd rfl configured
  | suspended | editing =>
    simp only [coilCommand, Bool.and_eq_true, Bool.or_eq_true, beq_iff_eq, rest]

/-- Settles O33: the decision by R55, the coil by R61, and nothing else. -/
theorem evaluationDecidesByR55AndR61 : Obligations.EvaluationDecidesByR55AndR61 := by
  unfold Obligations.EvaluationDecidesByR55AndR61
  intro s k l m undisputed inside length configured lever slot evaluated
  have here := here_of_within 64 inside length
  rw [evaluate_lever, if_pos ⟨rfl, here⟩, ← lever] at evaluated
  have walked : decideLever s k
      = ⟨(decideSteps s l (walkX s l.settled (listOf s k)) (walkY s l.settled (listOf s k))).1,
          (decideSteps s l (walkX s l.settled (listOf s k)) (walkY s l.settled (listOf s k))).2,
          walkY s l.settled (listOf s k), resultsAgree (walkX s l.settled (listOf s k)) (walkY s l.settled (listOf s k))⟩ := by
    subst lever
    simp only [decideLever, if_neg configured]
    exact if_neg (by simpa using slot)
  have free : m.free = (decideSteps s l (walkX s l.settled (listOf s k)) (walkY s l.settled (listOf s k))).1 := by
    rw [evaluated, walked]
    rfl
  have coil : m.coil = coilCommand s.blockMode l m.free := by
    rw [evaluated]
    simp [Lever.evaluated, decidedCoil]
  have agreed : l.mismatch = false ∧ l.mismatchDue = false := by
    rw [lever]
    exact nth_all undisputed ⟨rfl, rfl⟩ k
  refine ⟨?_, ?_, fun service => ?_, fun other => ?_, ?_, fun j other => ?_⟩
  · rw [free, decideSteps_free (resultsAgree_walks ..), walkX_eq_true_iff]
  · rw [evaluated, walked]
    rfl
  · rw [coil, service]
    simp [coilCommand, Option.isSome_iff_ne_none]
  · rw [coil, coilCommand_of_restricted other configured]
  · rw [evaluated]
    simp [Lever.evaluated, agreed]
  · rw [evaluate_lever, if_neg fun h => other h.1]

end Sys2Proof.Machine
end

section
/-! Patterns, their matching, and the strokes of the plunger (R98 to R102, R107, R108). -/

set_option Elab.async false

namespace Sys2Proof.Machine

variable {s u v : State} {j k n : Nat} {p : Pattern} {c : PlungerCode} {start : Time}

/-! ### Patterns -/

/-- The limits of a pattern in which a stroke has been placed (R101). -/
structure Pattern.Sound (p : Pattern) : Prop where
  begun : 1 ≤ p.groups
  counted : p.beats.length = min p.groups 4
  ranged : ∀ n ∈ p.beats, 1 ≤ n ∧ n ≤ 16

theorem Pattern.Sound.open (sound : p.Sound) : p.open.1.Sound := by
  obtain ⟨begun, counted, ranged⟩ := sound
  unfold Pattern.open
  split
  · refine ⟨Nat.le_add_left .., ?_, ?_⟩
    · simp only [List.length_append, counted, List.length_singleton]
      omega
    · exact List.forall_mem_append.2 ⟨ranged, by simp⟩
  · exact ⟨Nat.le_add_left .., by simp only [counted]; omega, ranged⟩

theorem Pattern.Sound.beat (sound : p.Sound) : p.beat.1.Sound := by
  obtain ⟨begun, counted, ranged⟩ := sound
  unfold Pattern.beat
  split
  · split
    · next low => exact ⟨begun, by rw [length_modAt, counted], all_modAt ranged fun ⟨one, _⟩ => ⟨by omega, low⟩⟩
    · exact ⟨begun, counted, ranged⟩
  · exact ⟨begun, counted, ranged⟩

theorem Pattern.groups_place (p : Pattern) (g : Bool) : (p.place g).1.groups = p.groups + if g then 1 else 0 := by
  cases g with
  | true => simp only [Pattern.place, Pattern.open, if_true]; split <;> rfl
  | false => simp only [Pattern.place, Pattern.beat, Bool.false_eq_true, if_false]; split <;> [split <;> rfl; rfl]

theorem Pattern.Sound.place (sound : p.Sound) (g : Bool) : (p.place g).1.Sound := by
  cases g with
  | true => exact sound.open
  | false => exact sound.beat

theorem Pattern.Sound.foldl_place (marks : List Bool) :
    ∀ {p : Pattern}, p.Sound → (marks.foldl (fun p g => (p.place g).1) p).Sound
      ∧ (marks.foldl (fun p g => (p.place g).1) p).groups = p.groups + (marks.filter id).length := by
  induction marks with
  | nil => exact fun sound => ⟨sound, rfl⟩
  | cons g marks ih =>
    intro p sound
    obtain ⟨kept, groups⟩ := ih (sound.place g)
    refine ⟨kept, groups.trans ?_⟩
    rw [p.groups_place]
    cases g with
    | true => simp only [if_true, List.filter_cons, id, List.length_cons]; omega
    | false => simp

theorem Pattern.place_keeps_beats (p : Pattern) (g : Bool) (beyond : (p.place g).2 = false) :
    (p.place g).1.beats = p.beats := by
  cases g with
  | true =>
    simp only [Pattern.place, Pattern.open, if_true] at beyond ⊢
    split at beyond
    · cases beyond
    · next full => rw [if_neg full]
  | false =>
    simp only [Pattern.place, Pattern.beat, Bool.false_eq_true, if_false] at beyond ⊢
    split at beyond
    · next few =>
      split at beyond
      · cases beyond
      · next full => rw [if_pos few, if_neg full]
    · next many => rw [if_neg many]

theorem Pattern.open_fits : p.open.2 = true ↔ p.groups < 4 := by
  unfold Pattern.open
  split <;> simp_all

theorem Pattern.beat_fits : p.beat.2 = true ↔ p.groups ≤ 4 ∧ nth p.beats 0 p.groups < 16 := by
  unfold Pattern.beat
  split
  · split <;> simp_all
  · simp_all

/-! ### Matching -/

/-- Whether a used rule has a pattern and is valid for its direction (R108). -/
def CodeRule.fits (sent : Bool) (pattern : List Nat) (r : CodeRule) : Bool :=
  r.pattern != [] && r.pattern == pattern && r.valid sent

theorem matchCode_of_first {rules before after : List CodeRule} {r : CodeRule} {sent : Bool} {pattern : List Nat}
    (split : rules = before ++ r :: after) (fits : r.fits sent pattern = true)
    (earlier : ∀ q ∈ before, q.fits sent pattern = false) : matchCode rules sent pattern = (r.meaning, r.cls) := by
  have found : rules.find? (CodeRule.fits sent pattern) = some r := by
    rw [split, List.find?_append, List.find?_eq_none.2 (by simpa using earlier), List.find?_cons, fits]
    rfl
  simp only [matchCode]
  rw [show (rules.find? fun r => r.pattern != [] && r.pattern == pattern && r.valid sent) = some r from found]

theorem matchCode_of_none {rules : List CodeRule} {sent : Bool} {pattern : List Nat}
    (none_fits : ∀ q ∈ rules, q.fits sent pattern = false) : matchCode rules sent pattern = (.unknown, none) := by
  have found : rules.find? (CodeRule.fits sent pattern) = none := List.find?_eq_none.2 (by simpa using none_fits)
  simp only [matchCode]
  rw [show (rules.find? fun r => r.pattern != [] && r.pattern == pattern && r.valid sent) = none from found]

/-! ### Strokes (R98, R99) -/

/-- A code that no held stroke keeps open, and whose end has not come, is left open (R100). -/
theorem endDuePlunger_of_waiting (open_code : (s.bell k).plunger = some c)
    (waits : ∀ e, c.previousStart = some e → s.now < e + (s.tables.bell k).endGap) : endDuePlunger k s = s := by
  simp only [endDuePlunger, open_code]
  refine if_neg ?_
  cases begun : c.previousStart with
  | none => simp [plungerEnd, begun]
  | some e => simp [plungerEnd, begun, bellCfg, waits e begun]

def Bell.stroking (b : Bell) : Bell := { b with strokeTaken := true }

def Bell.opened (now : Time) (rules : List CodeRule) (b : Bell) : Bell :=
  { b with strokeTaken := true, plunger := some { opened := now, rules := rules } }

theorem strokeStart_of_discarded (none_open : (s.bell k).plunger = none)
    (discarded : (s.bell k).host ≠ none ∨ linkTakesCodes s k = false) : strokeStart k s = s := by
  simp only [strokeStart, endDuePlunger_of_none none_open, none_open]
  rcases discarded with sending | off
  · rw [if_pos (by simpa [Option.isSome_iff_ne_none] using sending)]
  · rw [if_neg (by simp [off] : ¬ linkTakesCodes s k = true), ite_self]

theorem strokeStart_of_opening (none_open : (s.bell k).plunger = none) (no_host : (s.bell k).host = none)
    (takes : linkTakesCodes s k = true) : strokeStart k s = s.modBell k (Bell.opened s.now (rulesFor s k)) := by
  simp only [strokeStart, endDuePlunger_of_none none_open, none_open, no_host, takes]
  rfl

theorem strokeStart_of_open (open_code : (s.bell k).plunger = some c) (no_host : (s.bell k).host = none)
    (waits : ∀ e, c.previousStart = some e → s.now < e + (s.tables.bell k).endGap) :
    strokeStart k s = s.modBell k Bell.stroking := by
  simp only [strokeStart, endDuePlunger_of_waiting open_code waits, open_code, no_host]
  rfl

/-- A code after a stroke of a duration that is not broken (R99). -/
def PlungerCode.lengthened (d : Nat) (c : PlungerCode) : PlungerCode :=
  { c with garbled := c.garbled || decide (1000 < d) }

def Bell.strokeOver (c : PlungerCode) (b : Bell) : Bell := { b with strokeTaken := false, plunger := some c }

/-- The code that a stroke has ended closes where it has no counted stroke, or ends where that is due (R98, R100). -/
def closeStroke (k : Nat) (s : State) : State :=
  match (s.bell k).plunger with
  | none => s
  | some c => if c.counted = 0 then s.modBell k (Bell.withPlunger none) else endDuePlunger k s

theorem strokeEnd_of_taken (taken : (s.bell k).strokeTaken = true) (open_code : (s.bell k).plunger = some c) :
    strokeEnd k start false s
      = closeStroke k (when (decide (40 ≤ s.now - start)) (countStroke k (c.lengthened (s.now - start)) start (s.now - start))
          (s.modBell k (Bell.strokeOver (c.lengthened (s.now - start))))) := by
  simp only [strokeEnd, taken, open_code, Bool.or_false]
  rfl

theorem strokeEnd_of_untaken (untaken : (s.bell k).strokeTaken = false ∨ (s.bell k).plunger = none) :
    strokeEnd k start false s = s := by
  rcases untaken with untaken | none_open
  · simp only [strokeEnd, untaken]
  · cases taken : (s.bell k).strokeTaken <;> simp only [strokeEnd, none_open, taken]

theorem PlungerCode.lengthened_of_short (short : ¬ 40 ≤ n) : c.lengthened n = c := by
  have brief : ¬ 1000 < n := by omega
  simp [lengthened, brief]

theorem closeStroke_of_counted (open_code : (s.bell k).plunger = some c) (counted : c.counted ≠ 0)
    (waits : ∀ e, c.previousStart = some e → s.now < e + (s.tables.bell k).endGap) : closeStroke k s = s := by
  simp only [closeStroke, open_code, if_neg counted]
  exact endDuePlunger_of_waiting open_code waits

theorem closeStroke_of_uncounted (open_code : (s.bell k).plunger = some c) (uncounted : c.counted = 0) :
    closeStroke k s = s.modBell k (Bell.withPlunger none) := by
  simp only [closeStroke, open_code, if_pos uncounted]

/-- The bell record of a link whose plunger code has counted a stroke (R99). -/
def Bell.counting (c : PlungerCode) (start : Time) (groupGap : Nat) (b : Bell) : Bell :=
  { b with
    plunger := some { (c.count start groupGap b.nextCode).1 with
      relayed := c.relayed + if decide ((c.count start groupGap b.nextCode).1.counted ≤ 64) then 1 else 0 }
    nextCode := if c.number.isNone then (b.nextCode + 1) % 16 else b.nextCode }

/-- The STROKE item of a counted stroke (R102). -/
def strokeItem (c : PlungerCode) (start : Time) (d groupGap next : Nat) : Item :=
  .stroke (c.number.getD next) (c.previousStart.all fun e => decide (groupGap ≤ start - e)) (c.counted + 1)
    (min d 1000 / 5)

theorem countStroke_eq (k : Nat) (c : PlungerCode) (start : Time) (d : Nat) (s : State) :
    countStroke k c start d s
      = when (decide (c.counted + 1 ≤ 64))
          (handItem k (strokeItem c start d (s.tables.bell k).groupGap (s.bell k).nextCode))
          (s.modBell k (Bell.counting c start (s.tables.bell k).groupGap)) :=
  congrArg (fun l => when (decide (c.counted + 1 ≤ 64))
    (handItem k (strokeItem c start d (s.tables.bell k).groupGap (s.bell k).nextCode)) { s with bells := l })
    (modAt_congr rfl)

theorem modBell_modBell (s : State) (k : Nat) (f g : Bell → Bell) :
    (s.modBell k f).modBell k g = s.modBell k (g ∘ f) := by
  simp only [State.modBell, modAt_modAt]

theorem when_handItem_kept (b : Bool) (k : Nat) (item : Item) (s : State) :
    (when b (handItem k item) s).bell k = s.bell k ∧ (when b (handItem k item) s).now = s.now
      ∧ (when b (handItem k item) s).store = s.store := by
  cases b <;> exact ⟨rfl, rfl, rfl⟩

/-! ### The plunger (R47, R98) -/

def Instrument.withPlunger (p : Plunger) (i : Instrument) : Instrument := { i with plunger := p }

theorem takePlunger_of_closing (open_now : (s.instrument k).plunger = .released) :
    takePlunger k true s = strokeStart k (s.modInstrument k (Instrument.withPlunger (.closed s.now))) := by
  simp only [takePlunger, open_now]
  rfl

theorem takePlunger_of_opening (closed : (s.instrument k).plunger = .closed start) :
    takePlunger k false s = strokeEnd k start false (s.modInstrument k (Instrument.withPlunger .released)) := by
  simp only [takePlunger, closed]
  rfl

theorem plunger_of_moves {ks : List Kind} {q : Plunger} (h : Moves ks (s.modInstrument k (Instrument.withPlunger q)) u)
    (here : within k s.instruments.length = true) (away : ∀ x ∈ ks, Part.instruments ∉ x.parts := by decide) :
    (u.instrument k).plunger = q := by
  have same : u.instruments = _ := h.exactly .instruments away
  rw [State.instrument, same]
  exact congrArg Instrument.plunger (s.instrument_modInstrument_same k (Instrument.withPlunger q) here)

theorem other_bells_of_modBell {g : Bell → Bell} (same : u.bells = modAt s.bells {} k g) : OtherBells k s u := by
  intro j other
  rw [State.bell, same, nth_modAt, if_neg fun h => other h.1]
  rfl

theorem own_bell_of_modBell {g : Bell → Bell} (same : u.bells = modAt s.bells {} k g)
    (here : within k s.bells.length = true) : u.bell k = g (s.bell k) := by
  rw [State.bell, same, nth_modAt, if_pos ⟨rfl, here⟩]
  rfl

theorem closeStroke_of_started (open_code : (u.bell k).plunger = some c) (counted : c.counted ≠ 0)
    (begun : c.previousStart = some start) (now : u.now = s.now) (store : u.store = s.store)
    (waits : s.now < start + (s.tables.bell k).endGap) : closeStroke k u = u := by
  refine closeStroke_of_counted open_code counted fun e started => ?_
  obtain rfl : start = e := Option.some.inj (begun.symm.trans started)
  rw [State.tables, store, now]
  exact waits

/-- A counted stroke leaves its code open, where the end of the code has not come. -/
theorem strokeEnd_of_counted (taken : (s.bell k).strokeTaken = true) (open_code : (s.bell k).plunger = some c)
    (long : 40 ≤ s.now - start) (waits : s.now < start + (s.tables.bell k).endGap) (here : within k s.bells.length = true) :
    strokeEnd k start false s
      = when (decide (c.counted + 1 ≤ 64))
          (handItem k (strokeItem c start (s.now - start) (s.tables.bell k).groupGap (s.bell k).nextCode))
          (s.modBell k (Bell.counting (c.lengthened (s.now - start)) start (s.tables.bell k).groupGap
            ∘ Bell.strokeOver (c.lengthened (s.now - start)))) := by
  have counted := countStroke_eq k (c.lengthened (s.now - start)) start (s.now - start)
    (s.modBell k (Bell.strokeOver (c.lengthened (s.now - start))))
  have number : ((s.modBell k (Bell.strokeOver (c.lengthened (s.now - start)))).bell k).nextCode = (s.bell k).nextCode :=
    (congrArg Bell.nextCode (s.bell_modBell_same k (Bell.strokeOver (c.lengthened (s.now - start))) here)).trans rfl
  rw [modBell_modBell, number] at counted
  rw [strokeEnd_of_taken taken open_code, decide_eq_true long, when_true]
  refine (congrArg (closeStroke k) counted).trans ?_
  have record := s.bell_modBell_same k (Bell.counting (c.lengthened (s.now - start)) start (s.tables.bell k).groupGap
    ∘ Bell.strokeOver (c.lengthened (s.now - start))) here
  obtain ⟨bell, now, store⟩ := when_handItem_kept (decide (c.counted + 1 ≤ 64)) k
    (strokeItem (c.lengthened (s.now - start)) start (s.now - start) (s.tables.bell k).groupGap (s.bell k).nextCode)
    (s.modBell k (Bell.counting (c.lengthened (s.now - start)) start (s.tables.bell k).groupGap
      ∘ Bell.strokeOver (c.lengthened (s.now - start))))
  exact closeStroke_of_started ((congrArg Bell.plunger (bell.trans record)).trans rfl) (Nat.succ_ne_zero _) rfl now store waits

/-- A stroke too short is not counted: it leaves its code, which closes where it has counted none. -/
theorem strokeEnd_of_short (taken : (s.bell k).strokeTaken = true) (open_code : (s.bell k).plunger = some c)
    (short : s.now - start < 40) :
    strokeEnd k start false s = closeStroke k (s.modBell k (Bell.strokeOver c)) := by
  rw [strokeEnd_of_taken taken open_code, decide_eq_false (Nat.not_le.2 short), when_false,
    PlungerCode.lengthened_of_short (Nat.not_le.2 short)]

theorem when_handItem_lists (b : Bool) (k : Nat) (item : Item) (s : State) :
    (when b (handItem k item) s).bells = s.bells ∧ (b = false → (when b (handItem k item) s).links = s.links) := by
  cases b <;> exact ⟨rfl, by simp⟩

/-- A stroke starts a new group where the one before it started a group gap or more before. -/
theorem newGroup_eq (previous : Option Time) (start : Time) {gap : Nat} (some_gap : 1 ≤ gap) :
    (previous.all fun e => decide (gap ≤ start - e)) = previous.all fun e => decide (e + gap ≤ start) := by
  cases previous with
  | none => rfl
  | some e => exact decide_eq_decide.2 (by omega)

theorem Bell.counting_strokeOver (c : PlungerCode) (d gap : Nat) (start : Time) (b : Bell) :
    Bell.counting (c.lengthened d) start gap (Bell.strokeOver (c.lengthened d) b)
      = { b with
          strokeTaken := false
          nextCode := if c.number = none then (b.nextCode + 1) % 16 else b.nextCode
          plunger := some { c with
            number := some (c.number.getD b.nextCode)
            pattern := (c.pattern.place (c.previousStart.all fun e => decide (gap ≤ start - e))).1
            counted := c.counted + 1
            previousStart := some start
            garbled := c.garbled || decide (1000 < d)
              || !(c.pattern.place (c.previousStart.all fun e => decide (gap ≤ start - e))).2
            relayed := if c.counted < 64 then c.relayed + 1 else c.relayed } } := by
  simp only [Bell.counting, PlungerCode.count, Bell.strokeOver, PlungerCode.lengthened, Option.isNone_iff_eq_none,
    decide_eq_true_eq, Nat.succ_le_iff]
  split <;> rfl

/-- Settles O42: the pattern keeps its limits stroke by stroke, the first rule that fits is found, and each change of
the plunger starts or ends a stroke. -/
theorem patternsKeepTheirLimitsAndMatchTheFirstRule : Obligations.PatternsKeepTheirLimitsAndMatchTheFirstRule := by
  unfold Obligations.PatternsKeepTheirLimitsAndMatchTheFirstRule
  refine ⟨fun marks p placed => ?_, fun p g => ⟨p.place_keeps_beats g, Pattern.open_fits, Pattern.beat_fits⟩,
    fun s k sent pattern => ⟨rfl, fun before r after split used own valid earlier => ?_, fun none_fits => ?_,
      fun s u k closed b inside instruments bells links bell taken => ?_⟩⟩
  · have first : (({} : Pattern).place true).1.Sound := ⟨by decide, by decide, by decide⟩
    obtain ⟨sound, groups⟩ := first.foldl_place marks
    rw [List.foldl_cons] at placed
    rw [← placed] at sound groups
    have length := sound.counted
    have begun := sound.begun
    exact ⟨by omega, by omega, sound.ranged, groups, length⟩
  · have some_beats : pattern ≠ [] := own ▸ used
    refine matchCode_of_first split (by simp [CodeRule.fits, some_beats, own, valid]) fun q mem => ?_
    rcases earlier q mem with other | other <;> simp [CodeRule.fits, other]
  · refine matchCode_of_none fun q mem => ?_
    rcases none_fits q mem with other | other | other <;> simp [CodeRule.fits, other]
  · have here := here_of_within 3 inside instruments
    have bell_here := here_of_within 3 inside bells
    subst bell taken
    refine ⟨fun arming closed => ?_, fun released opened => ?_, fun start held closed => ?_, fun arming opened => ?_,
      fun released closes => ?_, fun start d held opens duration => ?_⟩
    · subst closed
      simp only [takePlunger, arming]
    · subst opened
      simp only [takePlunger, released]
    · subst closed
      simp only [takePlunger, held]
    · subst opened
      have effect : takePlunger k false s = s.modInstrument k (Instrument.withPlunger .released) := by
        simp only [takePlunger, arming]
        rfl
      rw [effect]
      exact ⟨plunger_of_moves (ks := []) .refl here, rfl, rfl⟩
    · subst closes
      rw [takePlunger_of_closing released]
      refine ⟨plunger_of_moves (ks := sentKinds) (Moves.refl.to_strokeStart k) here, fun none_open discarded => ?_,
        fun none_open no_host takes => ?_, fun c open_code no_host waits => ?_⟩
      · have effect := strokeStart_of_discarded (s := s.modInstrument k (Instrument.withPlunger (.closed s.now))) none_open discarded
        rw [effect]
        exact ⟨rfl, rfl⟩
      · have effect := strokeStart_of_opening (s := s.modInstrument k (Instrument.withPlunger (.closed s.now))) none_open no_host takes
        rw [effect]
        exact ⟨other_bells_of_modBell (s := s) (g := Bell.opened s.now (rulesFor s k)) rfl, rfl,
          own_bell_of_modBell (s := s) (g := Bell.opened s.now (rulesFor s k)) rfl bell_here⟩
      · have effect := strokeStart_of_open (s := s.modInstrument k (Instrument.withPlunger (.closed s.now))) open_code no_host waits
        rw [effect]
        exact ⟨other_bells_of_modBell (s := s) (g := Bell.stroking) rfl, rfl,
          own_bell_of_modBell (s := s) (g := Bell.stroking) rfl bell_here⟩
    · subst opens duration
      rw [takePlunger_of_opening held]
      refine ⟨plunger_of_moves (ks := sentKinds) (Moves.refl.to_strokeEnd k start false) here, fun untaken => ?_,
        fun c stroke open_code => ⟨fun short uncounted => ?_, fun short counted waits => ?_, ?_⟩⟩
      · have effect := strokeEnd_of_untaken (s := s.modInstrument k (Instrument.withPlunger .released)) (start := start) untaken
        rw [effect]
        exact ⟨rfl, rfl⟩
      · have effect := (strokeEnd_of_short (s := s.modInstrument k (Instrument.withPlunger .released)) stroke open_code short).trans
          (closeStroke_of_uncounted (c := c) ((congrArg Bell.plunger (State.bell_modBell_same _ k (Bell.strokeOver c) bell_here)).trans rfl) uncounted)
        rw [effect, modBell_modBell]
        exact ⟨other_bells_of_modBell (s := s) (g := Bell.withPlunger none ∘ Bell.strokeOver c) rfl, rfl,
          own_bell_of_modBell (s := s) (g := Bell.withPlunger none ∘ Bell.strokeOver c) rfl bell_here⟩
      · have effect := (strokeEnd_of_short (s := s.modInstrument k (Instrument.withPlunger .released)) stroke open_code short).trans
          (closeStroke_of_counted (c := c) ((congrArg Bell.plunger (State.bell_modBell_same _ k (Bell.strokeOver c) bell_here)).trans rfl) counted waits)
        rw [effect]
        refine ⟨other_bells_of_modBell (s := s) (g := Bell.strokeOver c) rfl, rfl,
          (own_bell_of_modBell (s := s) (g := Bell.strokeOver c) rfl bell_here).trans ?_⟩
        rw [Bell.strokeOver, ← open_code]
      · intro long waits number newGroup p is_number is_new placed gap
        have effect := strokeEnd_of_counted (s := s.modInstrument k (Instrument.withPlunger .released)) stroke open_code
          long waits bell_here
        have same := newGroup_eq c.previousStart start gap
        rw [effect]
        refine ⟨other_bells_of_modBell (s := s) ((when_handItem_lists ..).1), ?_, fun many => ?_, fun few => ?_⟩
        · rw [(when_handItem_kept ..).1]
          refine (State.bell_modBell_same _ k _ bell_here).trans ?_
          rw [placed, is_new, is_number, ← same]
          exact Bell.counting_strokeOver ..
        · rw [decide_eq_false (by omega)]
          rfl
        · rw [decide_eq_true (by omega), when_true, is_number, is_new, ← same]
          exact ⟨State.link_modLink_same _ k _ (here_of_within 3 inside links),
            fun j other => State.link_modLink_other _ k j _ other⟩

end Sys2Proof.Machine
end

section
/-! The rows of commands that are refused with data, that wait for a write, or that end in a warm start, and the
commands of an editing session (R183, R185, R186). -/

set_option Elab.async false

namespace Sys2Proof.Machine

variable {s u v : State} {k n : Nat} {t : Time} {i : Instr} {ks : List Kind} {ps : List Part} {P : State → Prop}
  {code : Nat} {command : State → Ran}

/-! ### Command rows -/

/-- A refused command, with its data: it gives its result, and touches nothing else. -/
theorem Takes.of_refused {r : RefuseReason} {data : List Byte} (row : exec i s = .next (commandRow t code command s))
    (time : i.time = some t) (s_open : s.Open) (refuses : command (s.atTime t) = (s.atTime t, .refused r data)) :
    Takes i s [.result] fun u => u.host.lastResult = some (refusedResult code r data) := by
  obtain ⟨started, no_warm, undisputed⟩ := s_open
  have ran : runAlone code command (s.atTime t) = endAlone (refusedResult code r data) (s.atTime t) := by
    simp [runAlone, started, no_warm, refuses]
  have gives : Moves [.result] (s.atTime t) (endAlone (refusedResult code r data) (s.atTime t)) :=
    Moves.refl.to_modHost _ ⟨.inr ⟨rfl, rfl, rfl⟩, .inr rfl, .inr rfl, .inr ⟨rfl, rfl, rfl⟩, .inl (by decide), id, id⟩
  exact .of_result (f := runAlone code command) row time undisputed ran gives fun agreed _ => finish_lastResult agreed

theorem Takes.of_plain_refusal {r : RefuseReason} (row : exec i s = .next (commandRow t code command s))
    (time : i.time = some t) (s_open : s.Open) (refuses : command (s.atTime t) = refuse r (s.atTime t)) :
    Takes i s [.result] fun u => u.Refused code r := .of_refused row time s_open refuses

/-- The Host Port while a command row waits for the end of a write. -/
def HostPort.unanswered (h : HostPort) : HostPort := { h with lastResult := none }

/-- A command row whose command waits for the end of a write. -/
theorem Takes.of_waits (row : exec i s = .next (commandRow t code command s)) (time : i.time = some t)
    (s_open : s.Open) (ran : command (s.atTime t) = (v, .waits)) (moves : Moves ks (s.atTime t) v)
    (holds : (v.modHost HostPort.unanswered).Undisputed → v.now = max s.now t → P (finish (v.modHost HostPort.unanswered)))
    (parts : ∀ x ∈ Kind.result :: ks, ∀ q ∈ x.main, q ∈ ps := by decide)
    (lasting : Kind.stage ∉ Kind.result :: ks ∧ .begin ∉ Kind.result :: ks ∧ .time ∉ Kind.result :: ks := by decide)
    (stored : Part.store ∈ ps ∨ (Kind.store ∉ Kind.result :: ks ∧ .tables ∉ Kind.result :: ks
      ∧ .jobs ∉ Kind.result :: ks) := by decide)
    (quiet : (∃ p ∈ ps, p.silent = false) ∨ ∀ x ∈ Kind.result :: ks, Part.transmitter ∉ x.parts := by decide) :
    Takes i s ps P := by
  obtain ⟨started, no_warm, undisputed⟩ := s_open
  have waits : runAlone code command (s.atTime t) = v.modHost HostPort.unanswered := by
    simp [runAlone, started, no_warm, ran]
    rfl
  have all_moves : Moves (.result :: ks) (s.atTime t) (v.modHost HostPort.unanswered) :=
    (moves.mono fun _ => List.mem_cons_of_mem _).to_modHost _
      ⟨.inr ⟨rfl, rfl, rfl⟩, .inr rfl, .inr rfl, .inr ⟨rfl, rfl, rfl⟩, .inl List.mem_cons_self, id, id⟩
  exact .of_result (f := runAlone code command) row time undisputed waits all_moves
    (fun agreed _ => holds agreed (moves.now_eq fun mem => lasting.2.2 (List.mem_cons_of_mem _ mem))) parts lasting stored quiet

/-- A command row whose command, DONE at once, ends in a warm start (R179). -/
theorem Takes.of_ending {data : List Byte} {cause : ResetCause} (row : exec i s = .next (commandRow t code command s))
    (time : i.time = some t) (s_open : s.Open) (ran : command (s.atTime t) = (v, .done data))
    (moves : Moves ks (s.atTime t) v) (ends : endsBatch code = some cause) (same : v.host = s.host)
    (holds : (endAlone (doneResult code data) v).Undisputed →
      (finish (endAlone (doneResult code data) v)).Gave code data →
      (finish (endAlone (doneResult code data) v)).host.warm = some ⟨cause, true⟩ →
      (finish (endAlone (doneResult code data) v)).host.executing = s.host.executing →
      (finish (endAlone (doneResult code data) v)).host.waiting = s.host.waiting →
      (finish (endAlone (doneResult code data) v)).host.flags = s.host.flags →
      P (finish (endAlone (doneResult code data) v)))
    (parts : ∀ x ∈ Kind.result :: .batch :: ks, ∀ q ∈ x.main, q ∈ ps := by decide)
    (lasting : Kind.stage ∉ Kind.result :: .batch :: ks ∧ .begin ∉ Kind.result :: .batch :: ks
      ∧ .time ∉ Kind.result :: .batch :: ks := by decide)
    (stored : Part.store ∈ ps ∨ (Kind.store ∉ Kind.result :: .batch :: ks ∧ .tables ∉ Kind.result :: .batch :: ks
      ∧ .jobs ∉ Kind.result :: .batch :: ks) := by decide)
    (quiet : (∃ p ∈ ps, p.silent = false) ∨ ∀ x ∈ Kind.result :: .batch :: ks, Part.transmitter ∉ x.parts := by decide) :
    Takes i s ps P := by
  have undisputed : s.Undisputed := s_open.2.2
  have all_moves : Moves (.result :: .batch :: ks) (s.atTime t) (endAlone (doneResult code data) v) :=
    (moves.mono fun _ mem => List.mem_cons_of_mem _ (List.mem_cons_of_mem _ mem)).trans
      (((Moves.refl (ks := [.batch, .result])).to_endAlone _).mono (by simp))
  refine .of_result (f := runAlone code command) row time undisputed (runAlone_of_done (s := s.atTime t) s_open ran) all_moves
    (fun agreed _ => holds agreed (finish_lastResult agreed) ?_ ?_ ?_ ?_) parts lasting stored quiet
  · rw [finish_warm agreed]
    simp [endAlone, doneResult, ends]
  · rw [finish_executing agreed]
    exact (congrArg HostPort.executing same : v.host.executing = s.host.executing)
  · rw [finish_waiting agreed]
    exact (congrArg HostPort.waiting same : v.host.waiting = s.host.waiting)
  · rw [finish_flags agreed]
    exact (congrArg HostPort.flags same : v.host.flags = s.host.flags)

/-! ### The queue of writes -/

/-- Whether the writes waiting in a state are still first in the queue of another. -/
structure JobsGrow (s u : State) : Prop where
  queued : ∃ more, u.store.jobs = s.store.jobs ++ more

theorem JobsGrow.of_jobs {more : List Job} (h : JobsGrow s u) (jobs : v.store.jobs = u.store.jobs ++ more) :
    JobsGrow s v := by
  obtain ⟨before, first⟩ := h
  exact ⟨⟨before ++ more, by rw [jobs, first, List.append_assoc]⟩⟩

theorem JobsGrow.of_leaves {ps : List Part} (h : JobsGrow s u) (left : Leaves ps u v) (away : .store ∉ ps) :
    JobsGrow s v :=
  h.of_jobs (more := []) (by rw [show v.store = u.store from left.2.2.2 .store away, List.append_nil])

theorem JobsGrow.trans (h : JobsGrow s u) (g : JobsGrow u v) : JobsGrow s v :=
  g.queued.elim fun _ more => h.of_jobs more

/-- Writes join the tail of the queue; none leaves it but by the end of a write, or a start. -/
theorem Moves.jobs_grow (h : Moves ks s u) (away : .store ∉ ks ∧ .begin ∉ ks := by decide) : JobsGrow s u := by
  induction h with
  | refl => exact ⟨[], (List.append_nil _).symm⟩
  | eval k _ _ ih => exact (ih away).of_leaves (leaves_evaluate k _) (by decide)
  | relever k g _ _ _ _ noted ih =>
    exact (((ih away).of_leaves (leaves_changeLever k g _) (by decide)).trans (noted (by decide))).of_leaves
      (leaves_evaluate k _) (by decide)
  | cause c subject _ _ _ confined ih =>
    have counted := (((ih away).of_leaves (leaves_countOccurrence c subject _) (by decide)).of_leaves
      (leaves_append _ _) (by decide)).trans (confined (by decide))
    unfold suspendFor
    split
    · exact counted.of_leaves (leaves_restrict _ _) (by simp [Kind.parts])
    · exact counted
  | restrict m _ _ _ ih => exact (ih away).of_leaves (leaves_restrict m _) (by simp [Kind.parts])
  | serve m _ _ _ ih => exact (ih away).of_leaves (leaves_serve m _) (by simp [Kind.parts])
  | jobs p w _ _ ih => exact (ih away).of_jobs rfl
  | reload table record vs _ _ _ ih => exact (ih away).of_jobs rfl
  | tables g _ _ ih => exact (ih away).of_jobs (List.append_nil _).symm
  | store g mem => exact absurd mem away.1
  | begin i mem => exact absurd mem away.2
  | _ => rename_i ih; exact ⟨(ih away).queued⟩

theorem finish_jobs (v : State) : JobsGrow v (finish v) :=
  (Moves.refl (ks := finishKinds)).to_finish.jobs_grow

/-! ### The commands of an editing session -/

theorem takeRestriction_register (m : Mode) (s : State) : (takeRestriction m s).register = s.register := by
  have moved : Moves [.note, .inb, .link] (evaluateAll (endReleasesForMode (takeMode m s))) (takeRestriction m s) :=
    (Moves.refl.to_forEach _ fun k _ => Moves.refl.to_cutPermission k _).to_when _ fun _ => Moves.refl.to_modeToLinks
  have evaluated : (evaluateAll (endReleasesForMode (takeMode m s))).register = (endReleasesForMode (takeMode m s)).register :=
    (leaves_evaluateAll _).2.2.2 .register (by decide)
  have released : (endReleasesForMode (takeMode m s)).register = (takeMode m s).register :=
    (leaves_endReleasesForMode _).2.2.2 .register (by decide)
  have taken : (takeMode m s).register = s.register := (leaves_takeMode m s).2.2.2 .register (by decide)
  exact Eq.trans (moved.exactly .register) (evaluated.trans (released.trans taken))

theorem restrictMode_effect (m : Mode) (s : State) :
    (restrictMode m s).mode = some m ∧ (restrictMode m s).register = s.register.append (.mode s.mode m) :=
  ⟨takeRestriction_mode m _, takeRestriction_register m _⟩

/-- The store of an editing session opened, or ended. -/
def Store.withWork (w : Option Image) (st : Store) : Store := { st with work := w }

def Circuit.unlearning (c : Circuit) : Circuit := { c with learning := none }

def Circuit.beginLearning (c : Circuit) : Circuit := { c with learning := some {}, learnResult := none }

theorem cmdOpenEdit_barred (barred : s.mode = some .editing
    ∨ (working s = true ∧ (signalOff s = true ∨ lineOpen s = true))) : cmdOpenEdit s = refuse .state s := by
  unfold cmdOpenEdit
  by_cases editing : s.mode = some .editing
  · rw [if_pos editing]
  · obtain ⟨works, off | opened⟩ := barred.resolve_left editing
    · rw [if_neg editing, if_pos (by simp [works, off])]
    · rw [if_neg editing, if_pos (by simp [works, opened] : (working s && lineOpen s) = true), ite_self]

theorem cmdOpenEdit_of_free (other : s.mode ≠ some .editing)
    (free : working s = false ∨ (signalOff s = false ∧ lineOpen s = false)) :
    cmdOpenEdit s = if writing s then refuse .busy s
      else reply [] (restrictMode .editing (s.modStore (Store.withWork (some (s.store.inForce.getD Image.defaults))))) := by
  have no_signal : ¬ (working s && signalOff s) = true := by rcases free with idle | ⟨off, -⟩ <;> simp [*]
  have no_line : ¬ (working s && lineOpen s) = true := by rcases free with idle | ⟨-, off⟩ <;> simp [*]
  rw [cmdOpenEdit, if_neg other, if_neg no_signal, if_neg no_line]
  rfl

theorem writing_iff : writing s = true ↔ s.store.jobs ≠ [] := by simp [writing]

theorem learning_ne_zero : learning s ≠ 0 ↔ ∃ c ∈ s.circuits, c.learning ≠ none := by
  simp only [learning, ne_eq, List.length_eq_zero_iff, List.filter_eq_nil_iff, not_forall, Option.isSome_iff_ne_none, not_not,
    exists_prop]

/-- What COMMIT of a working copy needs before its form is checked (R185). -/
structure CommitReady (s : State) (w : Image) : Prop where
  editing : s.mode = some .editing
  none_learns : ∀ c ∈ s.circuits, c.learning = none
  no_job : s.store.jobs = []
  work : s.store.work = some w

theorem CommitReady.passes {w : Image} (h : CommitReady s w) :
    ¬ s.mode ≠ some .editing ∧ ¬ learning s ≠ 0 ∧ ¬ writing s = true := by
  refine ⟨not_not.2 h.editing, fun learns => ?_, fun busy => writing_iff.1 busy h.no_job⟩
  obtain ⟨c, mem, learning⟩ := learning_ne_zero.1 learns
  exact learning (h.none_learns c mem)

theorem cmdCommit_of_fault {w : Image} {f : FormFault} (h : CommitReady s w) (fault : formFault w = some f) (waiter : Waiter) :
    cmdCommit waiter s = (s, .refused .tableForm f.bytes) := by
  obtain ⟨editing, idle, free⟩ := h.passes
  simp only [cmdCommit, if_neg editing, if_neg idle, if_neg free, h.work, Option.getD_some, fault]

theorem cmdCommit_of_formed {w : Image} (h : CommitReady s w) (formed : formFault w = none) (waiter : Waiter) :
    cmdCommit waiter s = (queueJob (.whole w) (some waiter) s, .waits) := by
  obtain ⟨editing, idle, free⟩ := h.passes
  simp only [cmdCommit, if_neg editing, if_neg idle, if_neg free, h.work, Option.getD_some, formed]

theorem cmdLearn_of_disabled {w : Image} (inside : within k 24 = true) (work : s.store.work = some w)
    (off : (w.track k).enabled = false) : cmdLearn k s = refuse .state s := by
  unfold cmdLearn
  rw [if_neg (by simp [inside]), work]
  simp [off]

theorem cmdLearn_of_enabled {w : Image} (inside : within k 24 = true) (editing : s.mode = some .editing)
    (work : s.store.work = some w) (enabled : (w.track k).enabled = true) :
    cmdLearn k s = (s.modCircuit k Circuit.beginLearning, .done []) := by
  unfold cmdLearn
  rw [if_neg (by simp [inside]), if_neg (not_not.2 editing), work, if_neg (by simp [enabled])]
  rfl

/-- Settles O57: each command with its refusals in order, and what it changes. -/
theorem editingIsOpenedCommittedAndAbandoned : Obligations.EditingIsOpenedCommittedAndAbandoned := by
  unfold Obligations.EditingIsOpenedCommittedAndAbandoned
  intro s t k s_open
  refine ⟨fun barred => ?_, fun other free => ⟨fun busy => ?_, fun no_job => ?_⟩, fun outside => ?_, fun inside other => ?_,
    fun w work inside => ⟨fun off => ?_, fun length editing enabled => ?_⟩, fun other => ⟨?_, ?_⟩,
    fun editing busy => ⟨?_, ?_⟩,
    fun editing no_job => ⟨?_, fun c mem learns => ?_, fun none_learns w work => ⟨fun f fault => ?_, fun formed => ?_⟩⟩, ?_⟩
  · exact .of_plain_refusal rfl rfl s_open (cmdOpenEdit_barred (s := s.atTime t) barred)
  · exact .of_plain_refusal rfl rfl s_open
      ((cmdOpenEdit_of_free (s := s.atTime t) other free).trans (if_pos (writing_iff.2 busy)))
  · have opened := (cmdOpenEdit_of_free (s := s.atTime t) other free).trans
      (if_neg fun h => writing_iff.1 h no_job)
    have moves : Moves (.store :: modeKinds) (s.atTime t) _ :=
      (Moves.refl.to_modStore (Store.withWork (some (s.store.inForce.getD Image.defaults)))).to_restrictMode .editing (by decide)
    refine .of_done_calm rfl rfl s_open opened moves rfl fun agreed now gave => ?_
    have after : Moves modeKinds ((s.atTime t).modStore (Store.withWork (some (s.store.inForce.getD Image.defaults)))) _ :=
      Moves.refl.to_restrictMode .editing (by decide)
    have effect := restrictMode_effect .editing
      ((s.atTime t).modStore (Store.withWork (some (s.store.inForce.getD Image.defaults))))
    have store := after.exactly .store
    exact ⟨(finish_mode agreed).trans effect.1, gave, (finish_work agreed).trans (congrArg Store.work store),
      (finish_stored agreed).trans ((congrArg Store.stored store).trans rfl), (finish_register agreed).trans effect.2⟩
  · exact .of_plain_refusal rfl rfl s_open (if_pos (by simp [outside]))
  · exact .of_plain_refusal rfl rfl s_open ((if_neg (by simp [inside])).trans (if_pos other))
  · exact .of_plain_refusal rfl rfl s_open (cmdLearn_of_disabled (s := s.atTime t) inside work off)
  · refine .of_done (ks := [.circuit]) rfl rfl s_open (cmdLearn_of_enabled (s := s.atTime t) inside editing work enabled)
      (Moves.refl.to_modCircuit k Circuit.beginLearning) rfl fun agreed now gave => ?_
    exact ⟨finish_own_circuit (s := s) (g := Circuit.beginLearning) agreed rfl (here_of_within 24 inside length),
      finish_other_circuits (s := s) (g := Circuit.beginLearning) agreed rfl, gave⟩
  · exact .of_plain_refusal rfl rfl s_open (if_pos other)
  · exact .of_plain_refusal rfl rfl s_open (if_pos other)
  · exact .of_plain_refusal rfl rfl s_open ((if_neg (not_not.2 editing)).trans (if_pos (writing_iff.2 busy)))
  · refine .of_plain_refusal rfl rfl s_open ((if_neg (not_not.2 editing)).trans ?_)
    rw [if_pos (writing_iff.2 busy : writing (s.atTime t) = true), ite_self]
  · have free : ¬ writing (s.atTime t) = true := fun h => writing_iff.1 h no_job
    refine .of_ending (ks := [.circuit, .store]) rfl rfl s_open
      ((if_neg (not_not.2 editing)).trans (if_neg free)) ?_ rfl rfl fun agreed gave warm executing waiting flags => ?_
    · exact (Moves.circuits Circuit.unlearning (by decide) (fun _ => ⟨id, rfl⟩) (fun _ => id) .refl).to_modStore (Store.withWork none)
    · exact ⟨gave, finish_work agreed, finish_stored agreed, finish_circuits agreed, warm, executing, waiting, flags⟩
  · exact .of_plain_refusal rfl rfl s_open ((if_neg (not_not.2 editing)).trans (if_pos (learning_ne_zero.2 ⟨c, mem, learns⟩)))
  · exact .of_refused rfl rfl s_open (cmdCommit_of_fault (s := s.atTime t) ⟨editing, none_learns, no_job, work⟩ fault .alone)
  · have waits := cmdCommit_of_formed (s := s.atTime t) ⟨editing, none_learns, no_job, work⟩ formed .alone
    refine .of_waits (ks := [.jobs]) rfl rfl s_open waits (Moves.refl.to_queueJob _ _) fun agreed now => ?_
    obtain ⟨more, queued⟩ := finish_jobs ((queueJob (.whole w) (some .alone) (s.atTime t)).modHost HostPort.unanswered)
    refine ⟨finish_lastResult agreed, (finish_work agreed).trans work, finish_stored agreed, more, queued.trans ?_⟩
    rw [show ((queueJob (.whole w) (some .alone) (s.atTime t)).modHost HostPort.unanswered).store.jobs
      = s.store.jobs ++ [⟨.whole w, some .alone⟩] from rfl, no_job]
    rfl
  · exact .of_ending (ks := []) rfl rfl s_open rfl .refl rfl rfl fun _ gave warm executing waiting flags =>
      ⟨gave, warm, executing, waiting, flags⟩

end Sys2Proof.Machine
end

section
/-! The alteration set (R71, R73). -/

set_option Elab.async false

namespace Sys2Proof.Machine

variable {s u v : State} {j k n : Nat} {t : Time} {i : Instr} {ks : List Kind} {ps : List Part} {P : State → Prop}
  {code : Nat} {command : State → Ran}

/-- A command row that waits for a write, whose moves change no fault record, leaves the table. -/
theorem Takes.of_waits_calm (row : exec i s = .next (commandRow t code command s)) (time : i.time = some t)
    (s_open : s.Open) (ran : command (s.atTime t) = (v, .waits)) (moves : Moves ks (s.atTime t) v)
    (holds : (v.modHost HostPort.unanswered).Undisputed → v.now = max s.now t → P (finish (v.modHost HostPort.unanswered)))
    (calm : .faults ∉ ks := by decide)
    (parts : ∀ x ∈ Kind.result :: ks, ∀ q ∈ x.main, q ∈ Part.faults :: ps := by decide)
    (lasting : Kind.stage ∉ Kind.result :: ks ∧ .begin ∉ Kind.result :: ks ∧ .time ∉ Kind.result :: ks := by decide)
    (stored : Part.store ∈ Part.faults :: ps ∨ (Kind.store ∉ Kind.result :: ks ∧ .tables ∉ Kind.result :: ks
      ∧ .jobs ∉ Kind.result :: ks) := by decide)
    (told : ∃ p ∈ ps, p.silent = false := by decide) : Takes i s ps P :=
  Takes.narrow_told .faults (by decide) told <| .of_waits row time s_open ran moves
    (fun agreed now => ⟨(finish_faults agreed).trans (moves.faults_kept s_open.2.2 calm), holds agreed now⟩)
    parts lasting stored (.inl (told.imp fun _ => .imp_left (List.mem_cons_of_mem _)))

/-! ### What evaluations leave of a lever -/

/-- A lever but for what an evaluation decides (R55, R59, R61). -/
def Lever.undecided (l : Lever) : Lever :=
  { l with free := false, reason := .none, firstUnmet := none, coil := false, mismatch := false, mismatchDue := false }

theorem evaluate_undecided (n j : Nat) (s : State) : ((evaluate n s).lever j).undecided = (s.lever j).undecided := by
  rw [evaluate_lever]
  split
  · next own => rw [own.1]; rfl
  · rfl

theorem forEach_evaluate_undecided (ns : List Nat) (j : Nat) (s : State) :
    ((forEach ns evaluate s).lever j).undecided = (s.lever j).undecided :=
  forEach_keeps (I := fun u => (u.lever j).undecided = (s.lever j).undecided) ns
    (fun n _ u kept => (evaluate_undecided n j u).trans kept) s rfl

/-- R55, step 4: a lever out of use, settled NORMAL, is not free. -/
theorem decideLever_of_out (out : (s.lever k).outOfUse = true) (normal : (s.lever k).settled = some .normal) :
    (decideLever s k).free = false := by
  have not_free : ∀ x y, (decideSteps s (s.lever k) x y).1 = false := by
    intro x y
    unfold decideSteps
    rw [if_neg (by simp [normal])]
    by_cases spare : (s.lever k).type = .spare
    · rw [if_pos spare]
    · rw [if_neg spare, if_pos out]
  simp only [decideLever]
  split
  · rfl
  · split <;> exact not_free _ _

theorem evaluate_not_free (n : Nat) (out : (s.lever k).outOfUse = true) (normal : (s.lever k).settled = some .normal)
    (here : within k s.levers.length = true) (not_free : n = k ∨ (s.lever k).free = false) :
    ((evaluate n s).lever k).free = false := by
  rw [evaluate_lever]
  by_cases own : k = n
  · subst own
    rw [if_pos ⟨rfl, here⟩]
    exact decideLever_of_out out normal
  · rw [if_neg fun h => own h.1]
    exact not_free.resolve_left fun h => own h.symm

/-- A lever out of use stays unfree through evaluations. -/
theorem forEach_evaluate_not_free (ns : List Nat) (out : (s.lever k).outOfUse = true)
    (normal : (s.lever k).settled = some .normal) (here : within k s.levers.length = true)
    (not_free : (s.lever k).free = false) : ((forEach ns evaluate s).lever k).free = false := by
  have all := forEach_keeps (f := evaluate)
    (I := fun u => (u.lever k).undecided = (s.lever k).undecided ∧ u.levers.length = s.levers.length ∧ (u.lever k).free = false)
    ns (fun n _ u ⟨kept, length, unfree⟩ =>
      ⟨(evaluate_undecided n k u).trans kept, (evaluate_length n u).trans length,
        evaluate_not_free n ((congrArg Lever.outOfUse kept).trans out) ((congrArg Lever.settled kept).trans normal)
          (by rwa [length]) (.inr unfree)⟩) s ⟨rfl, rfl, not_free⟩
  exact all.2.2

/-! ### TAKE OUT OF USE and BRING INTO USE -/

/-- A lever taken out of use, with its list as its copy (R71). -/
def Lever.takenOut (copy : CondList) (l : Lever) : Lever :=
  { l with outOfUse := true, copy := copy, allowance := l.allowance.map fun _ => false }

/-- The part with lever `k` out of use and the write of its membership due, before it is evaluated. -/
def State.takenOut (w : Waiter) (k : Nat) (s : State) : State :=
  queueJob (.takeOut k) (some w) ((changeLever k (Lever.takenOut (s.tables.conds k)) s).modTables fun i => i.setAltered k true)

theorem cmdTakeOut_barred (inside : within k 64 = true)
    (barred : working s = false ∨ (s.lever k).type = .spare ∨ (s.lever k).outOfUse = true ∨ restsNormal s k = false)
    (w : Waiter) : cmdTakeOut w k s = refuse .state s := by
  simp only [cmdTakeOut]
  rw [if_neg (by simp [inside])]
  by_cases works : working s = true
  · rw [if_neg (by simp [works])]
    by_cases used : ((s.lever k).type == .spare || (s.lever k).outOfUse) = true
    · rw [if_pos used]
    · rw [if_neg used]
      simp only [Bool.or_eq_true, beq_iff_eq, not_or] at used
      have unrest : restsNormal s k = false := by simpa [works, used.1, used.2] using barred
      rw [if_pos (by simp [unrest])]
  · rw [if_pos (by simpa using works)]

theorem cmdTakeOut_of_fit (inside : within k 64 = true) (works : working s = true) (used : (s.lever k).type ≠ .spare)
    (in_use : (s.lever k).outOfUse = false) (rests : restsNormal s k = true) (w : Waiter) :
    cmdTakeOut w k s = if 8 ≤ (alterationSet s).length then refuse .tableFull s
      else (evaluateNamingLever k (evaluate k (s.takenOut w k)), .waits) := by
  simp only [cmdTakeOut]
  rw [if_neg (by simp [inside]), if_neg (by simp [works]), if_neg (by simp [used, in_use]), if_neg (by simp [rests])]
  rfl

theorem cmdBringIn_barred (inside : within k 64 = true)
    (barred : working s = false ∨ (s.lever k).outOfUse = false ∨ restsNormal s k = false) (w : Waiter) :
    cmdBringIn w k s = refuse .state s := by
  simp only [cmdBringIn]
  rw [if_neg (by simp [inside])]
  by_cases works : working s = true
  · rw [if_neg (by simp [works])]
    by_cases out : (s.lever k).outOfUse = true
    · have unrest : restsNormal s k = false := by simpa [works, out] using barred
      rw [if_neg (by simp [out]), if_pos (by simp [unrest])]
    · rw [if_pos (by simpa using out)]
  · rw [if_pos (by simpa using works)]

/-- The tables with the copy of lever `k` for its list, as BRING INTO USE checks them (R73). -/
def bringTables (s : State) (k : Nat) : Image :=
  { s.tables with conditions := put s.tables.conditions k (s.lever k).copy }

theorem cmdBringIn_of_fault (inside : within k 64 = true) (works : working s = true) (out : (s.lever k).outOfUse = true)
    (rests : restsNormal s k = true) {f : FormFault} (fault : bringFault (bringTables s k) k = some f) (w : Waiter) :
    cmdBringIn w k s = (s, .refused .tableForm f.bytes) := by
  simp only [bringTables] at fault
  simp only [cmdBringIn, fault]
  rw [if_neg (by simp [inside]), if_neg (by simp [works]), if_neg (by simp [out]), if_neg (by simp [rests])]

theorem cmdBringIn_of_formed (inside : within k 64 = true) (works : working s = true) (out : (s.lever k).outOfUse = true)
    (rests : restsNormal s k = true) (formed : bringFault (bringTables s k) k = none) (w : Waiter) :
    cmdBringIn w k s = (queueJob (.bringIn k (s.lever k).copy) (some w) s, .waits) := by
  simp only [bringTables] at formed
  simp only [cmdBringIn, formed]
  rw [if_neg (by simp [inside]), if_neg (by simp [works]), if_neg (by simp [out]), if_neg (by simp [rests])]

theorem takenOut_lever (w : Waiter) (k j : Nat) (s : State) :
    (s.takenOut w k).lever j
      = if j = k ∧ within k s.levers.length = true then (s.lever k).takenOut (s.tables.conds k) else s.lever j :=
  changeLever_lever k j _ s

theorem takenOut_length (w : Waiter) (k : Nat) (s : State) : (s.takenOut w k).levers.length = s.levers.length :=
  changeLever_length k _ s

theorem takenOut_store (w : Waiter) (k : Nat) (s : State) :
    (s.takenOut w k).store.jobs = s.store.jobs ++ [⟨.takeOut k, some w⟩] ∧ (s.takenOut w k).store.stored = s.store.stored := by
  have same : (changeLever k (Lever.takenOut (s.tables.conds k)) s).store = s.store :=
    (leaves_changeLever k _ s).2.2.2 .store (by decide)
  have stored : (s.takenOut w k).store.stored = (changeLever k (Lever.takenOut (s.tables.conds k)) s).store.stored := rfl
  exact ⟨congrArg (·.jobs ++ _) same, stored.trans (congrArg Store.stored same)⟩

/-- Settles O35: each command with its refusals in order; a lever taken out keeps its place through the evaluations. -/
theorem alterationSetTakesAndReturnsLevers : Obligations.AlterationSetTakesAndReturnsLevers := by
  unfold Obligations.AlterationSetTakesAndReturnsLevers
  intro s t k s_open length
  refine ⟨fun outside => ⟨?_, ?_⟩, fun inside => ⟨fun barred => ?_, fun barred => ?_,
    fun works used in_use rests full => ?_, fun works used in_use rests room => ?_, fun f works out rests fault => ?_,
    fun works out rests formed => ?_⟩⟩
  · exact .of_plain_refusal rfl rfl s_open (if_pos (by simp [outside]))
  · exact .of_plain_refusal rfl rfl s_open (if_pos (by simp [outside]))
  · exact .of_plain_refusal rfl rfl s_open (cmdTakeOut_barred (s := s.atTime t) inside barred .alone)
  · exact .of_plain_refusal rfl rfl s_open (cmdBringIn_barred (s := s.atTime t) inside barred .alone)
  · exact .of_plain_refusal rfl rfl s_open
      ((cmdTakeOut_of_fit (s := s.atTime t) inside works used in_use rests .alone).trans (if_pos full))
  · have waits := (cmdTakeOut_of_fit (s := s.atTime t) inside works used in_use rests .alone).trans (if_neg (Nat.not_le.2 room))
    have moves := (Moves.refl (ks := [.note, .lever, .evaluate, .tables, .jobs]) (s := s.atTime t)).to_cmdTakeOut .alone k
    rw [waits] at moves
    refine .of_waits_calm rfl rfl s_open waits moves fun agreed now => ?_
    have here := here_of_within 64 inside length
    obtain ⟨at_normal, settled⟩ : (s.lever k).current = .normal ∧ (s.lever k).settled = some .normal := by
      simpa [restsNormal] using rests
    have own : ((s.atTime t).takenOut .alone k).lever k = (s.lever k).takenOut (s.tables.conds k) :=
      (takenOut_lever .alone k k (s.atTime t)).trans (if_pos ⟨rfl, here⟩)
    have kept : ∀ j, ((evaluateNamingLever k (evaluate k ((s.atTime t).takenOut .alone k))).lever j).undecided
        = (((s.atTime t).takenOut .alone k).lever j).undecided := fun j =>
      (forEach_evaluate_undecided _ j _).trans (evaluate_undecided k j _)
    have lever : ∀ j, (finish ((evaluateNamingLever k (evaluate k ((s.atTime t).takenOut .alone k))).modHost
        HostPort.unanswered)).lever j = (evaluateNamingLever k (evaluate k ((s.atTime t).takenOut .alone k))).lever j :=
      fun j => finish_lever agreed j
    have same := ((congrArg Lever.undecided (lever k)).trans (kept k)).trans (congrArg Lever.undecided own)
    have placed : within k ((s.atTime t).takenOut .alone k).levers.length = true := by
      rw [takenOut_length]
      exact here
    have evaluated := (evaluate_undecided k k ((s.atTime t).takenOut .alone k)).trans (congrArg Lever.undecided own)
    have out : ((evaluate k ((s.atTime t).takenOut .alone k)).lever k).outOfUse = true :=
      Eq.trans rfl (congrArg Lever.outOfUse evaluated)
    have normal : ((evaluate k ((s.atTime t).takenOut .alone k)).lever k).settled = some .normal :=
      (congrArg Lever.settled evaluated).trans settled
    have unfree : ((evaluateNamingLever k (evaluate k ((s.atTime t).takenOut .alone k))).lever k).free = false :=
      forEach_evaluate_not_free _ out normal (by rw [evaluate_length]; exact placed)
        (evaluate_not_free k ((congrArg Lever.outOfUse own).trans rfl) ((congrArg Lever.settled own).trans settled) placed (.inl rfl))
    have others : ∀ j, (s.lever j).outOfUse = true → (((s.atTime t).takenOut .alone k).lever j).outOfUse = true := by
      intro j was_out
      rw [takenOut_lever]
      split
      · rfl
      · exact was_out
    have store : (evaluateNamingLever k (evaluate k ((s.atTime t).takenOut .alone k))).store
        = ((s.atTime t).takenOut .alone k).store :=
      (((Moves.refl (ks := [.evaluate])).to_evaluate k).to_evaluateNamingLever k).exactly .store
    obtain ⟨jobs, stored⟩ := takenOut_store .alone k (s.atTime t)
    obtain ⟨more, queued⟩ := finish_jobs
      ((evaluateNamingLever k (evaluate k ((s.atTime t).takenOut .alone k))).modHost HostPort.unanswered)
    refine ⟨(congrArg Lever.outOfUse same).trans rfl, (congrArg Lever.copy same).trans rfl, (congrArg Lever.allowance same).trans rfl,
      (congrArg Lever.current same).trans rfl, (congrArg Lever.settled same).trans rfl,
      fun _ _ => (congrArg Lever.free (lever k)).trans unfree, fun j was_out => ?_, ⟨more, ?_⟩,
      (finish_stored agreed).trans ((congrArg Store.stored store).trans stored), finish_lastResult agreed⟩
    · exact (congrArg Lever.outOfUse (lever j)).trans ((congrArg Lever.outOfUse (kept j)).trans (others j was_out))
    · exact queued.trans ((congrArg (·.jobs ++ more) store).trans ((congrArg (· ++ more) jobs).trans (List.append_assoc _ _ _)))
  · exact .of_refused rfl rfl s_open (cmdBringIn_of_fault (s := s.atTime t) inside works out rests fault .alone)
  · have waits := cmdBringIn_of_formed (s := s.atTime t) inside works out rests formed .alone
    refine .of_waits (ks := [.jobs]) rfl rfl s_open waits (Moves.refl.to_queueJob _ _) fun agreed now => ?_
    obtain ⟨more, queued⟩ := finish_jobs ((queueJob (.bringIn k ((s.atTime t).lever k).copy) (some .alone) (s.atTime t)).modHost
      HostPort.unanswered)
    have jobs : ((queueJob (.bringIn k ((s.atTime t).lever k).copy) (some .alone) (s.atTime t)).modHost HostPort.unanswered).store.jobs
        = s.store.jobs ++ [⟨.bringIn k (s.lever k).copy, some .alone⟩] := rfl
    exact ⟨⟨more, queued.trans (by rw [jobs, List.append_assoc]; rfl)⟩, finish_stored agreed, finish_lastResult agreed⟩

end Sys2Proof.Machine
end

section
/-! WRITE TABLE and READ TABLE (R184). -/

set_option Elab.async false

namespace Sys2Proof.Machine

variable {s u v : State} {j k n : Nat} {t : Time} {i : Instr} {table record : Nat} {bytes : List Byte} {raw : List Raw}

/-! ### WRITE TABLE -/

theorem mayWrite_of_unconfigured (mode : s.mode = some .unconfigured) : mayWrite s table record = false := by
  simp [mayWrite, working, mode]

theorem cmdWriteTable_of_none (absent : within table 13 = false ∨ recordOk table record = false) (w : Waiter) :
    cmdWriteTable w table record bytes s = refuse .range s :=
  if_pos (by simpa using absent)

theorem cmdWriteTable_of_protected (inside : within table 13 = true) (numbered : recordOk table record = true)
    (barred : mayWrite s table record = false) (w : Waiter) :
    cmdWriteTable w table record bytes s = refuse .protectedField s := by
  unfold cmdWriteTable
  rw [if_neg (by simp [inside, numbered]), if_pos (by simp [barred])]

/-- A WRITE TABLE of a record that there is and that the mode lets it write (R184). -/
structure Writable (s : State) (table record : Nat) : Prop where
  inside : within table 13 = true
  numbered : recordOk table record = true
  permitted : mayWrite s table record = true

theorem Writable.passes (h : Writable s table record) :
    ¬ (!within table 13 || !recordOk table record) = true ∧ ¬ (!mayWrite s table record) = true := by
  simp [h.inside, h.numbered, h.permitted]

theorem cmdWriteTable_of_unparsed (h : Writable s table record) (unparsed : parseFields (layout table record) bytes = none)
    (w : Waiter) : cmdWriteTable w table record bytes s = refuse .badParam s := by
  simp only [cmdWriteTable, if_neg h.passes.1, if_neg h.passes.2, unparsed]

theorem cmdWriteTable_of_unvalued (h : Writable s table record) (parsed : parseFields (layout table record) bytes = some raw)
    (unvalued : valueOfRaw table record raw = none) (w : Waiter) :
    cmdWriteTable w table record bytes s = refuse .range s := by
  simp only [cmdWriteTable, if_neg h.passes.1, if_neg h.passes.2, parsed, unvalued]

theorem cmdWriteTable_of_value {x : Value} (h : Writable s table record)
    (parsed : parseFields (layout table record) bytes = some raw) (valued : valueOfRaw table record raw = some x) (w : Waiter) :
    cmdWriteTable w table record bytes s = writeValue w record x s := by
  simp only [cmdWriteTable, if_neg h.passes.1, if_neg h.passes.2, parsed, valued]

/-- Only a record of the locking table is a condition. -/
theorem locking_of_cond {c : Option Cond} (valued : valueOfRaw table record raw = some (.cond c)) : table = 7 := by
  unfold valueOfRaw at valued
  split at valued
  case h_1 => split at valued <;> simp at valued
  case h_4 => split at valued <;> simp at valued
  case h_7 => rfl
  case h_11 => split at valued <;> simp at valued
  all_goals simp at valued

def Lever.withCopy (list : CondList) (l : Lever) : Lever := { l with copy := list }

def Lever.writing (index : Nat) (c : Option Cond) (l : Lever) : Lever := l.withCopy (writeCond l.copy index c)

theorem writeCopy_lever (record j : Nat) (c : Option Cond) (s : State) (here : within (record / 256) s.levers.length = true) :
    ((writeCopy record c s).lever (record / 256)).copy = writeCond (s.lever (record / 256)).copy (record % 256) c
      ∧ (j ≠ record / 256 → (writeCopy record c s).lever j = s.lever j) := by
  have changed := changeLever_lever (record / 256) (record / 256) (Lever.writing (record % 256) c) s
  have own := evaluate_undecided (record / 256) (record / 256)
    (changeLever (record / 256) (Lever.writing (record % 256) c) s)
  rw [changed, if_pos ⟨rfl, here⟩] at own
  refine ⟨(congrArg Lever.copy own).trans rfl, fun other => ?_⟩
  have kept := (changeLever_lever (record / 256) j (Lever.writing (record % 256) c) s).trans (if_neg fun h => other h.1)
  exact (evaluate_lever (record / 256) j _).trans ((if_neg fun h => other h.1).trans kept)

def Store.writing (record : Nat) (x : Value) (st : Store) : Store := { st with work := st.work.map fun i => i.set record x }

theorem writeValue_of_editing {x : Value} (editing : s.mode = some .editing) (w : Waiter) :
    writeValue w record x s
      = if committing s then refuse .busy s else reply [] (s.modStore (Store.writing record x)) :=
  if_pos editing

theorem writeValue_of_repeated {r : CodeRule} (other : s.mode ≠ some .editing)
    (repeated : duplicateOf (s.tables.page (record / 256)) (record % 256) r.pattern = some j) (w : Waiter) :
    writeValue w record (.code r) s
      = (s, .refused .tableForm (12 :: (be16 (record / 256 * 256 + j) ++ [255]))) := by
  simp only [writeValue, if_neg other, repeated]
  rfl

theorem writeValue_of_fresh {r : CodeRule} (other : s.mode ≠ some .editing)
    (fresh : duplicateOf (s.tables.page (record / 256)) (record % 256) r.pattern = none) (w : Waiter) :
    writeValue w record (.code r) s = (queueJob (.code (record / 256) (record % 256) r) (some w) s, .waits) := by
  simp only [writeValue, if_neg other, fresh]

/-! ### READ TABLE -/

theorem cmdReadTable_of_none (configured : s.mode ≠ some .unconfigured)
    (absent : within table 13 = false ∨ recordOk table record = false) : cmdReadTable table record s = refuse .range s :=
  (if_neg configured).trans (if_pos (by simpa using absent))

theorem cmdReadTable_of_editing {w : Image} (inside : within table 13 = true) (numbered : recordOk table record = true)
    (editing : s.mode = some .editing) (work : s.store.work = some w) :
    cmdReadTable table record s = reply (w.recordBytes table record) s := by
  unfold cmdReadTable
  rw [if_neg (by simp [editing]), if_neg (by simp [inside, numbered]), if_pos editing, work]
  rfl

theorem cmdReadTable_of_copy (inside : within 7 13 = true) (numbered : recordOk 7 record = true)
    (configured : s.mode ≠ some .unconfigured) (other : s.mode ≠ some .editing)
    (out : (s.lever (record / 256)).outOfUse = true) :
    cmdReadTable 7 record s
      = reply (encodeFields (layout 7 record) (condRaw (nth (s.lever (record / 256)).copy none (record % 256)))) s := by
  unfold cmdReadTable
  rw [if_neg configured, if_neg (by simp [inside, numbered]), if_neg other, if_pos ⟨rfl, out⟩]

theorem cmdReadTable_of_force (inside : within table 13 = true) (numbered : recordOk table record = true)
    (configured : s.mode ≠ some .unconfigured) (other : s.mode ≠ some .editing)
    (plain : table ≠ 7 ∨ (s.lever (record / 256)).outOfUse = false) :
    cmdReadTable table record s = reply (s.tables.recordBytes table record) s := by
  unfold cmdReadTable
  rw [if_neg configured, if_neg (by simp [inside, numbered]), if_neg other,
    if_neg fun h => plain.elim (· h.1) fun used => Bool.false_ne_true (used.symm.trans h.2)]

/-- The clauses of O59 about READ TABLE. -/
theorem takes_readTable (s : State) (t : Time) (table record : Nat) (s_open : s.Open) (inside : within table 13 = true)
    (numbered : recordOk table record = true) :
    (∀ w, s.mode = some .editing → s.store.work = some w →
        Takes (.readTable t table record) s [.result] fun u =>
          u.Gave 0x82 (encodeFields (layout table record) (w.get table record).raw))
      ∧ (s.mode ≠ some .unconfigured → s.mode ≠ some .editing →
        (table = 7 → (s.lever (record / 256)).outOfUse = true →
            Takes (.readTable t table record) s [.result] fun u =>
              u.Gave 0x82 (encodeFields (layout 7 record)
                (condRaw (nth (s.lever (record / 256)).copy none (record % 256)))))
          ∧ (table ≠ 7 ∨ (s.lever (record / 256)).outOfUse = false →
            Takes (.readTable t table record) s [.result] fun u =>
              u.Gave 0x82 (encodeFields (layout table record) (s.tables.get table record).raw))) := by
  refine ⟨fun w editing work => ?_, fun configured other => ⟨fun locking out => ?_, fun plain => ?_⟩⟩
  · exact .of_reply rfl rfl s_open (cmdReadTable_of_editing (s := s.atTime t) inside numbered editing work) rfl
  · subst locking
    exact .of_reply rfl rfl s_open (cmdReadTable_of_copy (s := s.atTime t) inside numbered configured other out) rfl
  · exact .of_reply rfl rfl s_open (cmdReadTable_of_force (s := s.atTime t) inside numbered configured other plain) rfl

/-! ### The obligation -/

/-- The clauses of O59 about the write of a value that has passed the checks. -/
theorem takes_writeTable_of_value {x : Value} (s : State) (t : Time) (s_open : s.Open) (inside : within table 13 = true)
    (numbered : recordOk table record = true) (writable : mayWrite s table record = true)
    (parsed : parseFields (layout table record) bytes = some raw) (valued : valueOfRaw table record raw = some x) :
    (s.mode = some .editing → committing s = true →
        Takes (.writeTable t table record bytes) s [.result] fun u => u.Refused 0x81 .busy)
      ∧ (s.mode = some .editing → committing s = false →
        Takes (.writeTable t table record bytes) s [.store, .result] fun u =>
          u.Gave 0x81 [] ∧ u.store.stored = s.store.stored ∧ u.store.work = s.store.work.map (·.set record x))
      ∧ (∀ c, s.mode ≠ some .editing → x = .cond c → s.levers.length = 64 →
        Takes (.writeTable t table record bytes) s [.levers, .result] fun u =>
          u.Gave 0x81 []
            ∧ (u.lever (record / 256)).copy = writeCond (s.lever (record / 256)).copy (record % 256) c
            ∧ OtherLevers (record / 256) s u)
      ∧ (∀ r, s.mode ≠ some .editing → x = .code r →
        (∀ j, duplicateOf (s.tables.page (record / 256)) (record % 256) r.pattern = some j →
            Takes (.writeTable t table record bytes) s [.result] fun u =>
              u.host.lastResult = some (refusedResult 0x81 .tableForm
                (12 :: (be16 (record / 256 * 256 + j) ++ [255]))))
          ∧ (duplicateOf (s.tables.page (record / 256)) (record % 256) r.pattern = none →
            Takes (.writeTable t table record bytes) s [.store, .result] fun u =>
              u.host.lastResult = none ∧ u.store.stored = s.store.stored
                ∧ ∃ more, u.store.jobs
                  = s.store.jobs ++ ⟨.code (record / 256) (record % 256) r, some .alone⟩ :: more)) := by
  have ran := cmdWriteTable_of_value (s := s.atTime t) ⟨inside, numbered, writable⟩ parsed valued .alone
  refine ⟨fun editing busy => ?_, fun editing free => ?_, fun c other cond length => ?_,
    fun r other code => ⟨fun j repeated => ?_, fun fresh => ?_⟩⟩
  · exact .of_plain_refusal rfl rfl s_open
      (ran.trans ((writeValue_of_editing (s := s.atTime t) editing .alone).trans (if_pos busy)))
  · have free' : ¬ committing (s.atTime t) = true := fun h => Bool.false_ne_true (free.symm.trans h)
    refine .of_done (ks := [.store]) rfl rfl s_open
      (ran.trans ((writeValue_of_editing (s := s.atTime t) editing .alone).trans (if_neg free')))
      (Moves.refl.to_modStore (Store.writing record x)) rfl fun agreed now gave => ?_
    exact ⟨gave, finish_stored agreed, finish_work agreed⟩
  · subst cond
    have locking := locking_of_cond valued
    subst locking
    have numbered' : within (record / 256) 64 = true := by
      simp only [recordOk, Bool.and_eq_true] at numbered
      exact numbered.1
    have written : writeValue .alone record (.cond c) (s.atTime t) = reply [] (writeCopy record c (s.atTime t)) := if_neg other
    refine .of_done_calm (ks := [.lever, .evaluate]) rfl rfl s_open (ran.trans written)
      (Moves.refl.to_writeCopy record c) rfl fun agreed now gave => ?_
    have levers := fun j => writeCopy_lever record j c (s.atTime t) (here_of_within 64 numbered' length)
    exact ⟨gave, (congrArg Lever.copy (finish_lever agreed (record / 256))).trans (levers 0).1,
      fun j elsewhere => (finish_lever agreed j).trans ((levers j).2 elsewhere)⟩
  · subst code
    exact .of_refused rfl rfl s_open (ran.trans (writeValue_of_repeated (s := s.atTime t) other repeated .alone))
  · subst code
    have waits := ran.trans (writeValue_of_fresh (s := s.atTime t) other fresh .alone)
    refine .of_waits (ks := [.jobs]) rfl rfl s_open waits (Moves.refl.to_queueJob _ _) fun agreed now => ?_
    obtain ⟨more, queued⟩ := finish_jobs
      ((queueJob (.code (record / 256) (record % 256) r) (some .alone) (s.atTime t)).modHost HostPort.unanswered)
    have jobs : ((queueJob (.code (record / 256) (record % 256) r) (some .alone) (s.atTime t)).modHost
        HostPort.unanswered).store.jobs = s.store.jobs ++ [⟨.code (record / 256) (record % 256) r, some .alone⟩] := rfl
    exact ⟨finish_lastResult agreed, finish_stored agreed, more, queued.trans (by rw [jobs, List.append_assoc]; rfl)⟩

/-- Settles O59: each command by what it finds, in the order of its refusals. -/
theorem tablesAreWrittenAndRead : Obligations.TablesAreWrittenAndRead := by
  unfold Obligations.TablesAreWrittenAndRead
  intro s t table record bytes s_open
  refine ⟨fun absent => ?_, fun inside numbered => ⟨fun barred => ?_, mayWrite_of_unconfigured,
    fun writable => ⟨fun unparsed => ?_, fun raw parsed => ⟨fun unvalued => ?_,
      fun x valued => takes_writeTable_of_value s t s_open inside numbered writable parsed valued⟩⟩⟩,
    fun mode => ?_, fun configured absent => ?_, takes_readTable s t table record s_open⟩
  · exact .of_plain_refusal rfl rfl s_open (cmdWriteTable_of_none absent .alone)
  · exact .of_plain_refusal rfl rfl s_open (cmdWriteTable_of_protected (s := s.atTime t) inside numbered barred .alone)
  · exact .of_plain_refusal rfl rfl s_open
      (cmdWriteTable_of_unparsed (s := s.atTime t) ⟨inside, numbered, writable⟩ unparsed .alone)
  · exact .of_plain_refusal rfl rfl s_open
      (cmdWriteTable_of_unvalued (s := s.atTime t) ⟨inside, numbered, writable⟩ parsed unvalued .alone)
  · exact .of_plain_refusal rfl rfl s_open (if_pos mode)
  · exact .of_plain_refusal rfl rfl s_open (cmdReadTable_of_none (s := s.atTime t) configured absent)

end Sys2Proof.Machine
end

section
/-! Staged values and the reload points of their owners (R187 with R24, R92, R112, R131, R149). -/

set_option Elab.async false

namespace Sys2Proof.Machine

variable {s u v : State} {j k n field value : Nat} {t : Time} {i : Instr} {ks : List Kind} {ps : List Part} {P : State → Prop}

/-! ### A value that goes pending, and a record with none -/

def Circuit.staging (field value : Nat) (c : Circuit) : Circuit := { c with staged := putStaged field value c.staged }
def Timer.staging (field value : Nat) (r : Timer) : Timer := { r with staged := putStaged field value r.staged }
def Bell.staging (field value : Nat) (b : Bell) : Bell := { b with staged := putStaged field value b.staged }
def Outbound.staging (field value : Nat) (o : Outbound) : Outbound := { o with staged := putStaged field value o.staged }
def Link.staging (field value : Nat) (l : Link) : Link := { l with staged := putStaged field value l.staged }

def Circuit.unstaged (c : Circuit) : Circuit := { c with staged := [] }
def Timer.unstaged (r : Timer) : Timer := { r with staged := [] }
def Bell.unstaged (b : Bell) : Bell := { b with staged := [] }
def Outbound.unstaged (o : Outbound) : Outbound := { o with staged := [] }
def Link.unstaged (l : Link) : Link := { l with staged := [] }

/-- A record changed, and then cleared of what that change made pending, is as it was. -/
theorem modAt_undone {α : Type} {l : List α} {d : α} {f g : α → α} (undone : g (f (nth l d k)) = nth l d k) :
    modAt (modAt l d k f) d k g = l := by
  rw [modAt_modAt]
  exact modAt_self l d k _ undone

/-! ### Before the reload point -/

theorem reloadTrack_of_none (none_pending : (s.circuit k).staged = []) : reloadTrack k s = s := if_pos none_pending

theorem reloadTimer_of_still (still : (s.timer k).staged = [] ∨ (s.timer k).state ≠ .idle) : reloadTimer k s = s :=
  if_pos still

theorem reloadBell_of_still (still : (s.bell k).staged = [] ∨ codeOpen s k = true) : reloadBell k s = s := if_pos still

theorem reloadLine_of_still (still : (s.outb k).staged = [] ∨ (s.outb k).overdueAt ≠ none) : reloadLine k s = s :=
  if_pos (still.imp_right Option.isSome_iff_ne_none.2)

theorem reloadLink_of_still (still : (s.link k).staged = [] ∨ (s.link k).atReload = false) : reloadLink k s = s :=
  if_pos still

/-! ### At the reload point -/

theorem reloadTrack_of_due (pending : (s.circuit k).staged ≠ []) :
    reloadTrack k s = noteTrack k ((applyStaged 8 k (s.circuit k).staged s).modCircuit k Circuit.unstaged) := if_neg pending

theorem reloadTimer_of_due (pending : (s.timer k).staged ≠ []) (idle : (s.timer k).state = .idle) :
    reloadTimer k s = noteRelease k ((applyStaged 10 k (s.timer k).staged s).modTimer k Timer.unstaged) :=
  if_neg fun still => still.elim pending (absurd idle)

theorem reloadBell_of_due (pending : (s.bell k).staged ≠ []) (closed : codeOpen s k = false) :
    reloadBell k s = noteCode k ((applyStaged 3 k (s.bell k).staged s).modBell k Bell.unstaged) :=
  if_neg fun still => still.elim pending fun opened => Bool.false_ne_true (closed.symm.trans opened)

theorem reloadLine_of_due (pending : (s.outb k).staged ≠ []) (idle : (s.outb k).overdueAt = none) :
    reloadLine k s = noteLine (2 * k) ((applyStaged 11 (2 * k) (s.outb k).staged s).modOutb k Outbound.unstaged) :=
  if_neg fun still => still.elim pending (by simp [idle])

theorem reloadLink_of_due (pending : (s.link k).staged ≠ []) (due : (s.link k).atReload = true) :
    reloadLink k s = noteLine (2 * k) (noteLine (2 * k - 1)
      ((applyStaged 2 k (s.link k).staged s).modLink k Link.unstaged)) :=
  if_neg fun still => still.elim pending fun off => Bool.false_ne_true (off.symm.trans due)

/-- The clauses of O60 about the reload points by themselves. -/
theorem reload_points (s : State) (k : Nat) :
    ((s.circuit k).staged = [] → reloadTrack k s = s)
      ∧ ((s.timer k).staged = [] ∨ (s.timer k).state ≠ .idle → reloadTimer k s = s)
      ∧ ((s.bell k).staged = [] ∨ codeOpen s k = true → reloadBell k s = s)
      ∧ ((s.outb k).staged = [] ∨ (s.outb k).overdueAt ≠ none → reloadLine k s = s)
      ∧ ((s.link k).staged = [] ∨ (s.link k).atReload = false → reloadLink k s = s)
      ∧ ((s.circuit k).staged ≠ [] → within k 24 = true → s.circuits.length = 24 →
        Applied 8 k (s.circuit k).staged s (reloadTrack k s) ∧ OtherCircuits k s (reloadTrack k s)
          ∧ (reloadTrack k s).circuit k = { s.circuit k with staged := [] })
      ∧ ((s.timer k).staged ≠ [] → (s.timer k).state = .idle → within k 16 = true → s.timers.length = 16 →
        Applied 10 k (s.timer k).staged s (reloadTimer k s)
          ∧ (reloadTimer k s).timer k = { s.timer k with staged := [] })
      ∧ ((s.bell k).staged ≠ [] → codeOpen s k = false → within k 3 = true → s.bells.length = 3 →
        Applied 3 k (s.bell k).staged s (reloadBell k s)
          ∧ (reloadBell k s).bell k = { s.bell k with staged := [] })
      ∧ ((s.outb k).staged ≠ [] → (s.outb k).overdueAt = none → within k 3 = true → s.outbound.length = 3 →
        Applied 11 (2 * k) (s.outb k).staged s (reloadLine k s)
          ∧ (reloadLine k s).outb k = { s.outb k with staged := [] })
      ∧ ((s.link k).staged ≠ [] → (s.link k).atReload = true → within k 3 = true → s.links.length = 3 →
        Applied 2 k (s.link k).staged s (reloadLink k s)
          ∧ (reloadLink k s).link k = { s.link k with staged := [] }) := by
  refine ⟨reloadTrack_of_none, reloadTimer_of_still, reloadBell_of_still, reloadLine_of_still, reloadLink_of_still,
    fun pending inside length => ?_, fun pending idle inside length => ?_, fun pending closed inside length => ?_,
    fun pending idle inside length => ?_, fun pending due inside length => ?_⟩
  · rw [reloadTrack_of_due pending]
    exact ⟨⟨rfl, rfl⟩, fun j other => State.circuit_modCircuit_other (applyStaged 8 k (s.circuit k).staged s) _ _ _ other,
      State.circuit_modCircuit_same (applyStaged 8 k (s.circuit k).staged s) _ _ (here_of_within 24 inside length)⟩
  · rw [reloadTimer_of_due pending idle]
    exact ⟨⟨rfl, rfl⟩,
      State.timer_modTimer_same (applyStaged 10 k (s.timer k).staged s) _ _ (here_of_within 16 inside length)⟩
  · rw [reloadBell_of_due pending closed]
    exact ⟨⟨rfl, rfl⟩, State.bell_modBell_same (applyStaged 3 k (s.bell k).staged s) _ _ (here_of_within 3 inside length)⟩
  · rw [reloadLine_of_due pending idle]
    exact ⟨⟨rfl, rfl⟩,
      State.outb_modOutb_same (applyStaged 11 (2 * k) (s.outb k).staged s) _ _ (here_of_within 3 inside length)⟩
  · rw [reloadLink_of_due pending due]
    exact ⟨⟨rfl, rfl⟩, State.link_modLink_same (applyStaged 2 k (s.link k).staged s) _ _ (here_of_within 3 inside length)⟩

/-! ### The end of a step, with values pending -/

/-- What the reloads, the links and the transmitter keep, the end of a step with no disagreement keeps. -/
theorem finish_keeps {I : State → Prop} (agreed : v.Undisputed) (timer : ∀ j u, I u → I (reloadTimer j u))
    (bell : ∀ j u, I u → I (reloadBell j u)) (line : ∀ j u, I u → I (reloadLine j u))
    (link : ∀ j u, I u → I (reloadLink j u)) (pump : ∀ j u, I u → I (pumpLink j u))
    (host : ∀ g u, I u → I (u.modHost g)) (holds : I v) : I (finish v) := by
  simp only [finish, settleMismatches_of_undisputed 64 agreed]
  refine host _ _ (forEach_keeps _ (fun j _ => pump j) _ ?_)
  exact forEach_keeps _ (fun j _ => link j) _ (forEach_keeps _ (fun j _ => line j) _
    (forEach_keeps _ (fun j _ => bell j) _ (forEach_keeps _ (fun j _ => timer j) _ holds)))

/-- A timer that runs keeps what is pending for it. -/
theorem finish_timer_running (agreed : v.Undisputed) (runs : (v.timer k).state ≠ .idle) :
    (finish v).timer k = v.timer k := by
  have other {u w : State} {ks : List Kind} (moves : Moves ks u w) (away : ∀ x ∈ ks, Part.timers ∉ x.parts := by decide)
      (same : u.timer k = v.timer k) : w.timer k = v.timer k :=
    (congrArg (fun l : List Timer => nth l {} k) (moves.exactly .timers away)).trans same
  refine finish_keeps (I := fun u => u.timer k = v.timer k) agreed (fun j u same => ?_)
    (fun j u => other (Moves.refl.to_reloadBell (ks := [.note, .reload, .bell]) j))
    (fun j u => other (Moves.refl.to_reloadLine (ks := [.note, .reload, .outb]) j))
    (fun j u => other (Moves.refl.to_reloadLink (ks := [.note, .reload, .link]) j))
    (fun j u => other (Moves.refl.to_pumpLink (ks := [.link]) j)) (fun _ _ same => same) rfl
  by_cases still : (u.timer j).staged = [] ∨ (u.timer j).state ≠ .idle
  · rw [reloadTimer_of_still still]
    exact same
  · rw [not_or, not_not] at still
    rw [reloadTimer_of_due still.1 still.2]
    have elsewhere : k ≠ j := fun own => runs (by rw [← same, own]; exact still.2)
    exact (State.timer_modTimer_other (applyStaged 10 j (u.timer j).staged u) _ _ _ elsewhere).trans same

/-- A link's bell with a code open keeps what is pending for it. -/
theorem finish_bell_open (agreed : v.Undisputed) (opened : codeOpen v k = true) : (finish v).bell k = v.bell k := by
  have other {u w : State} {ks : List Kind} (moves : Moves ks u w) (away : ∀ x ∈ ks, Part.bells ∉ x.parts := by decide)
      (same : u.bell k = v.bell k) : w.bell k = v.bell k :=
    (congrArg (fun l : List Bell => nth l {} k) (moves.exactly .bells away)).trans same
  refine finish_keeps (I := fun u => u.bell k = v.bell k) agreed
    (fun j u => other (Moves.refl.to_reloadTimer (ks := [.note, .reload, .timer]) j)) (fun j u same => ?_)
    (fun j u => other (Moves.refl.to_reloadLine (ks := [.note, .reload, .outb]) j))
    (fun j u => other (Moves.refl.to_reloadLink (ks := [.note, .reload, .link]) j))
    (fun j u => other (Moves.refl.to_pumpLink (ks := [.link]) j)) (fun _ _ same => same) rfl
  by_cases still : (u.bell j).staged = [] ∨ codeOpen u j = true
  · rw [reloadBell_of_still still]
    exact same
  · rw [not_or, Bool.not_eq_true] at still
    rw [reloadBell_of_due still.1 still.2]
    have elsewhere : k ≠ j := fun own => by
      have open_too : codeOpen u k = true := by
        simp only [codeOpen] at opened ⊢
        rwa [same]
      exact Bool.false_ne_true (still.2.symm.trans (own ▸ open_too))
    exact (State.bell_modBell_other (applyStaged 3 j (u.bell j).staged u) _ _ _ elsewhere).trans same

/-- An outbound line with an overdue expiry set keeps what is pending for it. -/
theorem finish_outb_watched (agreed : v.Undisputed) (watched : (v.outb k).overdueAt ≠ none) :
    (finish v).outb k = v.outb k := by
  have other {u w : State} {ks : List Kind} (moves : Moves ks u w) (away : ∀ x ∈ ks, Part.outbound ∉ x.parts := by decide)
      (same : u.outb k = v.outb k) : w.outb k = v.outb k :=
    (congrArg (fun l : List Outbound => nth l {} k) (moves.exactly .outbound away)).trans same
  refine finish_keeps (I := fun u => u.outb k = v.outb k) agreed
    (fun j u => other (Moves.refl.to_reloadTimer (ks := [.note, .reload, .timer]) j))
    (fun j u => other (Moves.refl.to_reloadBell (ks := [.note, .reload, .bell]) j)) (fun j u same => ?_)
    (fun j u => other (Moves.refl.to_reloadLink (ks := [.note, .reload, .link]) j))
    (fun j u => other (Moves.refl.to_pumpLink (ks := [.link]) j)) (fun _ _ same => same) rfl
  by_cases still : (u.outb j).staged = [] ∨ (u.outb j).overdueAt ≠ none
  · rw [reloadLine_of_still still]
    exact same
  · rw [not_or, not_not] at still
    rw [reloadLine_of_due still.1 still.2]
    have elsewhere : k ≠ j := fun own => watched (by rw [← same, own]; exact still.2)
    exact (State.outb_modOutb_other (applyStaged 11 (2 * j) (u.outb j).staged u) _ _ _ elsewhere).trans same

/-- Starting a frame, or bidding, leaves what is pending for a link, and no link comes to a state of its reload point. -/
structure LinkStill (k : Nat) (s u : State) : Prop where
  staged : (u.link k).staged = (s.link k).staged
  engaged : (u.link k).state ≠ .idle ∧ (u.link k).state ≠ .outOfUse

theorem LinkStill.modLink {g : Link → Link} (still : LinkStill k s u) (staged : (g (u.link j)).staged = (u.link j).staged)
    (engaged : (u.link j).state ≠ .idle ∧ (u.link j).state ≠ .outOfUse →
      (g (u.link j)).state ≠ .idle ∧ (g (u.link j)).state ≠ .outOfUse) : LinkStill k s (u.modLink j g) := by
  by_cases own : k = j ∧ within j u.links.length = true
  · obtain ⟨rfl, here⟩ := own
    have link : (u.modLink k g).link k = g (u.link k) := State.link_modLink_same _ _ _ here
    exact ⟨(congrArg Link.staged link).trans (staged.trans still.staged), by rw [link]; exact engaged still.engaged⟩
  · have link : (u.modLink j g).link k = u.link k := by rw [State.link_modLink, if_neg own]
    exact ⟨(congrArg Link.staged link).trans still.staged, by rw [link]; exact still.engaged⟩

theorem LinkStill.pumpLink (still : LinkStill k s u) : LinkStill k s (pumpLink j u) := by
  have bidding : LinkStill k s (startBidding j u) := by
    simp only [startBidding]
    split
    · next idle => exact still.modLink rfl fun engaged => absurd idle.1 engaged.1
    · exact still
  simp only [Machine.pumpLink, startFrame]
  split
  · exact bidding
  · split
    · next frame _ _ =>
      refine bidding.modLink rfl fun engaged => ?_
      by_cases go : frame = .go
      · simp [go]
      · simpa [go] using engaged
    · exact bidding

/-- A link that is neither IDLE nor OUT_OF_USE keeps what is pending for it. -/
theorem finish_link_engaged (agreed : v.Undisputed) (engaged : (v.link k).state ≠ .idle ∧ (v.link k).state ≠ .outOfUse) :
    ((finish v).link k).staged = (v.link k).staged := by
  have other {u w : State} {ks : List Kind} (moves : Moves ks u w) (away : ∀ x ∈ ks, Part.links ∉ x.parts := by decide)
      (still : LinkStill k v u) : LinkStill k v w := by
    have same : w.link k = u.link k := congrArg (fun l : List Link => nth l {} k) (moves.exactly .links away)
    exact ⟨(congrArg Link.staged same).trans still.staged, by rw [same]; exact still.engaged⟩
  refine (finish_keeps (I := LinkStill k v) agreed
    (fun j u => other (Moves.refl.to_reloadTimer (ks := [.note, .reload, .timer]) j))
    (fun j u => other (Moves.refl.to_reloadBell (ks := [.note, .reload, .bell]) j))
    (fun j u => other (Moves.refl.to_reloadLine (ks := [.note, .reload, .outb]) j)) (fun j u still => ?_)
    (fun j u still => still.pumpLink) (fun _ _ still => ⟨still.staged, still.engaged⟩) ⟨rfl, engaged⟩).staged
  by_cases idle : (u.link j).staged = [] ∨ (u.link j).atReload = false
  · rw [reloadLink_of_still idle]
    exact still
  · rw [not_or, Bool.not_eq_false] at idle
    rw [reloadLink_of_due idle.1 idle.2]
    have elsewhere : k ≠ j := fun own => by
      have due := idle.2
      rw [← own] at due
      simp [Link.atReload, still.engaged.1, still.engaged.2] at due
    have same := State.link_modLink_other (applyStaged 2 j (u.link j).staged u) _ _ Link.unstaged elsewhere
    exact ⟨(congrArg Link.staged same).trans still.staged, (congrArg Link.state same).trans rfl ▸ still.engaged⟩

end Sys2Proof.Machine
end

section
/-! STAGE (R187): its refusals, a value that goes pending, and one that joins its owner at once. -/

set_option Elab.async false

namespace Sys2Proof.Machine

variable {s u v w : State} {table j k n field x : Nat} {value : List Byte} {t : Time} {i : Instr} {ks : List Kind}
  {ps : List Part} {P : State → Prop}

/-! ### Steps at which no owner stands at its reload point with a value pending -/

/-- Whether no owner whose reload point the end of a step looks at stands there with a value pending. -/
structure State.Still (s : State) : Prop where
  timer : ∀ j, (s.timer j).staged = [] ∨ (s.timer j).state ≠ .idle
  bell : ∀ j, (s.bell j).staged = [] ∨ codeOpen s j = true
  line : ∀ j, (s.outb j).staged = [] ∨ (s.outb j).overdueAt ≠ none
  link : ∀ j, (s.link j).staged = [] ∨ (s.link j).atReload = false

theorem State.NoneStaged.still (none_staged : s.NoneStaged) : s.Still :=
  ⟨fun j => .inl (none_staged.timer j), fun j => .inl (none_staged.bell j), fun j => .inl (none_staged.outb j),
    fun j => .inl (none_staged.link j)⟩

theorem State.Still.modTimer {g : Timer → Timer} (still : s.Still)
    (own : (g (s.timer k)).staged = [] ∨ (g (s.timer k)).state ≠ .idle) : (s.modTimer k g).Still := by
  refine ⟨fun j => ?_, still.bell, still.line, still.link⟩
  rw [State.timer_modTimer]
  split
  · exact own
  · exact still.timer j

theorem State.Still.modBell {g : Bell → Bell} (still : s.Still)
    (own : ((g (s.bell k)).plunger.isSome || (g (s.bell k)).host.isSome || (g (s.bell k)).received.isSome) = true) :
    (s.modBell k g).Still := by
  refine ⟨still.timer, fun j => ?_, still.line, still.link⟩
  have bell := still.bell j
  simp only [codeOpen, State.bell_modBell] at bell ⊢
  split
  · exact .inr own
  · exact bell

theorem State.Still.modOutb {g : Outbound → Outbound} (still : s.Still)
    (own : (g (s.outb k)).staged = [] ∨ (g (s.outb k)).overdueAt ≠ none) : (s.modOutb k g).Still := by
  refine ⟨still.timer, still.bell, fun j => ?_, still.link⟩
  rw [State.outb_modOutb]
  split
  · exact own
  · exact still.line j

theorem State.Still.modLink {g : Link → Link} (still : s.Still)
    (own : (g (s.link k)).staged = [] ∨ (g (s.link k)).atReload = false) : (s.modLink k g).Still := by
  refine ⟨still.timer, still.bell, still.line, fun j => ?_⟩
  rw [State.link_modLink]
  split
  · exact own
  · exact still.link j

theorem reloadAll_of_still (still : s.Still) : reloadAll s = s := by
  have timers : forEach (upTo 16) reloadTimer s = s := forEach_id _ s fun j => reloadTimer_of_still (still.timer j)
  have bells : forEach (upTo 3) reloadBell s = s := forEach_id _ s fun j => reloadBell_of_still (still.bell j)
  have lines : forEach (upTo 3) reloadLine s = s := forEach_id _ s fun j => reloadLine_of_still (still.line j)
  have links : forEach (upTo 3) reloadLink s = s := forEach_id _ s fun j => reloadLink_of_still (still.link j)
  simp only [reloadAll, timers, bells, lines, links]

/-- The end of a step with no owner at its reload point leaves the store, and the Host Port but for the frame chosen. -/
theorem finish_of_still (agreed : s.Undisputed) (still : s.Still) :
    (finish s).store = s.store ∧ (finish s).host = chooseFrame s.start.isNone s.host := by
  have moved : Moves [.link] s (forEach (upTo 3) pumpLink s) :=
    Moves.refl.to_forEach _ fun k _ => Moves.refl.to_pumpLink k
  have host : (forEach (upTo 3) pumpLink s).host = s.host :=
    forEach_keeps (I := fun u => u.host = s.host) _
      (fun k _ u same => ((startFrame_host k _).trans (startBidding_host k u)).trans same) s rfl
  have ended : finish s = kickHost (forEach (upTo 3) pumpLink s) := by
    simp only [finish, settleMismatches_of_undisputed 64 agreed, reloadAll_of_still still]
  rw [ended]
  generalize forEach (upTo 3) pumpLink s = pumped at moved host
  refine ⟨moved.exactly .store, ?_⟩
  rw [← host, ← (moved.exactly .mode).2]
  rfl

/-- A command row, DONE at once, that may make a value pending: what it leaves of the store and of the transmitter
while nothing was pending is to be shown. -/
theorem Takes.of_staging {code : Nat} {command : State → Ran} (row : exec i s = .next (commandRow t code command s))
    (time : i.time = some t) (s_open : s.Open) (ran : command (s.atTime t) = (v, .done []))
    (moves : Moves ks (s.atTime t) v) (goes_on : endsBatch code = none)
    (holds : (endAlone (doneResult code []) v).Undisputed → v.now = max s.now t →
      (finish (endAlone (doneResult code []) v)).Gave code [] → P (finish (endAlone (doneResult code []) v)))
    (unstaged : s.NoneStaged → (endAlone (doneResult code []) v).Undisputed →
      (.store ∉ ps → (finish (endAlone (doneResult code []) v)).store = s.store)
        ∧ ((∀ p ∈ ps, p.silent = true) → HostQuiet s (finish (endAlone (doneResult code []) v))))
    (parts : ∀ y ∈ Kind.result :: ks, ∀ q ∈ y.main, q ∈ ps := by decide)
    (timeless : Kind.time ∉ Kind.result :: ks := by decide) : Takes i s ps P := by
  have all_moves : Moves (.result :: ks) (s.atTime t) (endAlone (doneResult code []) v) :=
    (moves.mono fun _ => List.mem_cons_of_mem _).trans ((moves_endAlone goes_on v).mono (by simp))
  have effect : runAlone code command (s.atTime t) = endAlone (doneResult code []) v :=
    runAlone_of_done (s := s.atTime t) s_open ran
  have agreed : (endAlone (doneResult code []) v).Undisputed := all_moves.undisputed s_open.2.2
  have now : (endAlone (doneResult code []) v).now = max s.now t := all_moves.now_eq timeless
  intro prompt
  have next : exec i s = .next (finish (endAlone (doneResult code []) v)) := by
    rw [row, commandRow, comeTo_of_prompt (prompt.imp_right fun early => early t time), effect]
  refine ⟨_, next, fun y at_time => ?_, ⟨?_, fun none_staged => unstaged none_staged agreed⟩,
    holds agreed now (finish_lastResult agreed)⟩
  · rw [time] at at_time
    cases at_time
    exact (finish_now agreed).trans now
  · exact ((keptParts_atTime ps s t).trans (all_moves.keptParts parts)).trans ((finish_slight agreed).1.mono (by simp))

/-- STAGE of a value that goes pending: nothing else happens at the end of the step. -/
theorem Takes.of_pending {command : State → Ran} (row : exec i s = .next (commandRow t 0x85 command s)) (time : i.time = some t)
    (s_open : s.Open) (ran : command (s.atTime t) = (v, .done [])) (moves : Moves ks (s.atTime t) v)
    (still : s.NoneStaged → v.Still)
    (holds : (endAlone (doneResult 0x85 []) v).Undisputed → v.now = max s.now t →
      (finish (endAlone (doneResult 0x85 []) v)).Gave 0x85 [] → P (finish (endAlone (doneResult 0x85 []) v)))
    (parts : ∀ y ∈ Kind.result :: ks, ∀ q ∈ y.main, q ∈ ps := by decide)
    (timeless : Kind.time ∉ Kind.result :: ks := by decide)
    (apart : (∀ y ∈ ks, Part.store ∉ y.parts) ∧ ∀ y ∈ Kind.result :: ks, Part.transmitter ∉ y.parts := by decide) :
    Takes i s ps P := by
  refine .of_staging row time s_open ran moves rfl holds (fun none_staged agreed => ?_) parts timeless
  have all_moves : Moves (.result :: ks) (s.atTime t) (endAlone (doneResult 0x85 []) v) :=
    (moves.mono fun _ => List.mem_cons_of_mem _).trans ((moves_endAlone rfl v).mono (by simp))
  obtain ⟨timer, bell, line, link⟩ := still none_staged
  have ended := finish_of_still agreed ⟨timer, bell, line, link⟩
  have store : v.store = s.store := moves.exactly .store apart.1
  refine ⟨fun _ => ended.1.trans store, fun _ => ?_⟩
  obtain ⟨sending, ready, notices⟩ := all_moves.exactly .transmitter apart.2
  have sending : (endAlone (doneResult 0x85 []) v).host.sending = s.host.sending := sending
  have ready : (endAlone (doneResult 0x85 []) v).host.ready = s.host.ready := ready
  have notices : (endAlone (doneResult 0x85 []) v).host.notices = s.host.notices := notices
  simp only [HostQuiet, ended.2, finish_start agreed]
  rw [← sending, ← ready, ← notices, chooseFrame_with]
  exact ⟨rfl, rfl, rfl⟩

/-- STAGE of a value that joins its owner's record at once: `u` is the part with the value in force. -/
theorem Takes.of_applied {record : Nat} {vs : List (Nat × Nat)} {command : State → Ran}
    (row : exec i s = .next (commandRow t 0x85 command s)) (time : i.time = some t)
    (s_open : s.Open) (ran : command (s.atTime t) = (v, .done [])) (moves : Moves ks (s.atTime t) v)
    (applied : Applied table record vs s u) (none_staged : u.NoneStaged) (after : Moves raiseKinds u v)
    (holds : (endAlone (doneResult 0x85 []) v).Undisputed → (finish (endAlone (doneResult 0x85 []) v)).Gave 0x85 [] →
      (finish (endAlone (doneResult 0x85 []) v)).NoneStaged →
      Applied table record vs s (finish (endAlone (doneResult 0x85 []) v)) → P (finish (endAlone (doneResult 0x85 []) v)))
    (parts : ∀ y ∈ Kind.result :: ks, ∀ q ∈ y.main, q ∈ ps := by decide)
    (timeless : Kind.time ∉ Kind.result :: ks := by decide)
    (told : Part.store ∈ ps ∧ ∃ p ∈ ps, p.silent = false := by decide) : Takes i s ps P := by
  have unstaged : (endAlone (doneResult 0x85 []) v).NoneStaged := (after.unstaged (by decide) (by decide) none_staged).1
  refine .of_staging row time s_open ran moves rfl (fun agreed now gave => ?_)
    (fun _ agreed => ⟨fun away => absurd told.1 away, fun all_silent => ?_⟩) parts timeless
  · have ended := finish_unstaged agreed unstaged
    have store : (finish (endAlone (doneResult 0x85 []) v)).store = u.store :=
      ended.1.trans (after.exactly .store)
    have last : (finish (endAlone (doneResult 0x85 []) v)).NoneStaged :=
      ((Moves.refl (ks := finishKinds)).to_finish.unstaged (by decide) (by decide) unstaged).1
    exact holds agreed gave last
      ⟨(congrArg Store.inForce store).trans applied.1, (congrArg Store.jobs store).trans applied.2⟩
  · obtain ⟨p, mem, loud⟩ := told.2
    exact absurd (all_silent p mem) (by simp [loud])

/-! ### The checks of STAGE -/

theorem cmdStage_of_idle (idle : working s = false) : cmdStage table k field value s = refuse .state s :=
  if_pos (by simp [idle])

theorem cmdStage_of_none (works : working s = true)
    (absent : within table 13 = false ∨ recordOk table k = false ∨ within field (layout table k).length = false) :
    cmdStage table k field value s = refuse .range s :=
  (if_neg (by simp [works])).trans (if_pos (by simpa [or_assoc] using absent))

/-- A STAGE of a field that there is. -/
structure NamesField (s : State) (table k field : Nat) : Prop where
  works : working s = true
  inside : within table 13 = true
  numbered : recordOk table k = true
  fielded : within field (layout table k).length = true

theorem NamesField.passes (h : NamesField s table k field) :
    ¬ (!working s) = true ∧ ¬ (!within table 13 || !recordOk table k || !within field (layout table k).length) = true := by
  simp [h.works, h.inside, h.numbered, h.fielded]

theorem cmdStage_of_protected (h : NamesField s table k field) (barred : stageable table field = false) (value : List Byte) :
    cmdStage table k field value s = refuse .protectedField s :=
  (if_neg h.passes.1).trans ((if_neg h.passes.2).trans (if_pos (by simp [barred])))

theorem cmdStage_of_inbound (h : NamesField s 11 k field) (stages : stageable 11 field = true) (odd : k % 2 = 1)
    (value : List Byte) : cmdStage 11 k field value s = refuse .state s :=
  (if_neg h.passes.1).trans ((if_neg h.passes.2).trans ((if_neg (by simp [stages])).trans (if_pos ⟨rfl, odd⟩)))

theorem not_inbound (outward : table ≠ 11 ∨ k % 2 = 0) : ¬ (table = 11 ∧ k % 2 = 1) := by omega

theorem cmdStage_of_unvalued (h : NamesField s table k field) (stages : stageable table field = true)
    (outward : table ≠ 11 ∨ k % 2 = 0) (unvalued : stagedValue table k field value = none) :
    cmdStage table k field value s = refuse .badParam s := by
  have stages : ¬ (!stageable table field) = true := by simp [stages]
  simp only [cmdStage, if_neg h.passes.1, if_neg h.passes.2, if_neg stages, if_neg (not_inbound outward), unvalued]

/-- A STAGE that comes to its owner. -/
structure ReachesOwner (s : State) (table k field x : Nat) (value : List Byte) : Prop extends NamesField s table k field where
  stages : stageable table field = true
  outward : table ≠ 11 ∨ k % 2 = 0
  valued : stagedValue table k field value = some x

/-- What the owner of a table's records makes of a value (R187). -/
def ownerStages (table k field x : Nat) (s : State) : Ran :=
  match table with
  | 2 => stageLink k field x s
  | 3 => stageBell k field x s
  | 8 => stageTrack k field x s
  | 10 => stageTimer k field x s
  | _ => stageLine k field x s

theorem ReachesOwner.ran (h : ReachesOwner s table k field x value) :
    cmdStage table k field value s = ownerStages table k field x s := by
  have stages : ¬ (!stageable table field) = true := by simp [h.stages]
  have outward := not_inbound h.outward
  have valued := h.valued
  unfold cmdStage
  rw [if_neg h.passes.1, if_neg h.passes.2, if_neg stages, if_neg outward, valued]
  rfl

end Sys2Proof.Machine
end

section
/-! STAGE by owner (R24, R92, R112, R131, R149). -/

set_option Elab.async false

namespace Sys2Proof.Machine

variable {s u v w : State} {table j k n field x : Nat} {value : List Byte} {t : Time} {i : Instr} {ks : List Kind}
  {ps : List Part} {P : State → Prop}

theorem inRange_iff {n lo hi : Nat} : inRange n lo hi = true ↔ lo ≤ n ∧ n ≤ hi := by simp [inRange]

theorem inRange_of_outside {n lo hi : Nat} (outside : n < lo ∨ hi < n) : inRange n lo hi = false := by
  rw [Bool.eq_false_iff, ne_eq, inRange_iff]
  omega

/-! ### What each owner makes of a value -/

theorem stageTrack_of_live (live : (s.circuit k).state ≠ .disabled)
    (takes : trackTakes (s.tables.track k) (s.circuit k).staged field x = true) :
    stageTrack k field x s
      = reply [] (if (s.circuit k).state = .clear then marginTest k (reloadTrack k (s.modCircuit k (Circuit.staging field x)))
          else s.modCircuit k (Circuit.staging field x)) :=
  (if_neg live).trans (if_neg (by simp [trackCfg, takes]))

theorem stageTrack_of_unfit (live : (s.circuit k).state ≠ .disabled)
    (unfit : trackTakes (s.tables.track k) (s.circuit k).staged field x = false) : stageTrack k field x s = refuse .range s :=
  (if_neg live).trans (if_pos (by simp [trackCfg, unfit]))

theorem stageTimer_of_barred (barred : timerOn s k = false ∨ (field = 5 ∧ (timerOwner s k).1 ≠ .lever)) :
    stageTimer k field x s = refuse .state s := by
  unfold stageTimer
  by_cases on : timerOn s k = true
  · obtain ⟨validity, owner⟩ := barred.resolve_left (by simp [on])
    rw [if_neg (by simp [on]), if_pos (by simp [validity, owner])]
  · rw [if_pos (by simpa using on)]

theorem stageTimer_of_owned (on : timerOn s k = true) (owned : field = 5 → (timerOwner s k).1 = .lever) :
    stageTimer k field x s
      = if !(if field = 4 then inRange x 10 600 else inRange x 10 300) then refuse .range s
        else reply [] (reloadTimer k (s.modTimer k (Timer.staging field x))) :=
  (if_neg (by simp [on])).trans (if_neg (by simpa using owned))

theorem stageBell_of_on (on : s.linkOn k = true) :
    stageBell k field x s
      = if !bellRange field x || !((s.tables.bell k).withStaged (putStaged field x (s.bell k).staged)).related then
          refuse .range s
        else reply [] (reloadBell k (s.modBell k (Bell.staging field x))) :=
  if_neg (by simp [on])

theorem stageLine_of_on (on : s.linkOn n = true) :
    stageLine (2 * n) field x s
      = if !inRange x 10 300 then refuse .range s
        else reply [] (reloadLine n (s.modOutb n (Outbound.staging field x))) := by
  have line : linkOfLine (2 * n) = n := by simp only [linkOfLine]; omega
  unfold stageLine
  rw [line, if_neg (by simp [on])]
  rfl

theorem stageLink_of_on (on : s.linkOn k = true) :
    stageLink k field x s
      = if !linkRange field x || ((field == 11 || field == 12)
            && !decide (2 * stagedOr (putStaged field x (s.link k).staged) 11 (cfgOf s k).heartbeat
              ≤ stagedOr (putStaged field x (s.link k).staged) 12 (cfgOf s k).silence)) then refuse .range s
        else reply [] (reloadLink k (s.modLink k (Link.staging field x))) :=
  if_neg (by simp [on])

/-! ### Refusals of the owners -/

theorem ownerStages_barred (outward : table ≠ 11 ∨ k % 2 = 0)
    (barred : (table = 8 ∧ (s.circuit k).state = .disabled)
      ∨ (table = 10 ∧ (timerOn s k = false ∨ (field = 5 ∧ (timerOwner s k).1 ≠ .lever)))
      ∨ ((table = 2 ∨ table = 3) ∧ s.linkOn k = false) ∨ (table = 11 ∧ s.linkOn (k / 2) = false)) :
    ownerStages table k field x s = refuse .state s := by
  rcases barred with ⟨rfl, disabled⟩ | ⟨rfl, barred⟩ | ⟨rfl | rfl, off⟩ | ⟨rfl, off⟩
  · exact if_pos disabled
  · exact stageTimer_of_barred barred
  · exact if_pos (by simp [off])
  · exact if_pos (by simp [off])
  · have line : linkOfLine k = k / 2 := by simp only [linkOfLine]; omega
    exact if_pos (.inr (by rw [line, off]))

/-- What makes a value out of its range, or against a relation with the record's other fields. -/
def Unfit (s : State) (table k field x : Nat) : Prop :=
  (table = 8 ∧ (s.circuit k).state ≠ .disabled
      ∧ trackTakes (s.tables.track k) (s.circuit k).staged field x = false)
    ∨ (table = 10 ∧ timerOn s k = true
      ∧ ((field = 4 ∧ (x < 10 ∨ 600 < x)) ∨ (field = 5 ∧ (timerOwner s k).1 = .lever ∧ (x < 10 ∨ 300 < x))))
    ∨ (table = 3 ∧ s.linkOn k = true ∧ (bellRange field x = false
      ∨ ((s.tables.bell k).withStaged (putStaged field x (s.bell k).staged)).related = false))
    ∨ (table = 2 ∧ s.linkOn k = true ∧ (linkRange field x = false
      ∨ ((field = 11 ∨ field = 12) ∧ ∃ vs, vs = putStaged field x (s.link k).staged
        ∧ stagedOr vs 12 (cfgOf s k).silence < 2 * stagedOr vs 11 (cfgOf s k).heartbeat)))
    ∨ (table = 11 ∧ s.linkOn (k / 2) = true ∧ (x < 10 ∨ 300 < x))

theorem ownerStages_unfit (outward : table ≠ 11 ∨ k % 2 = 0) (unfit : Unfit s table k field x) :
    ownerStages table k field x s = refuse .range s := by
  rcases unfit with ⟨rfl, live, unfit⟩ | ⟨rfl, on, ⟨rfl, outside⟩ | ⟨rfl, owner, outside⟩⟩ | ⟨rfl, on, unfit⟩
    | ⟨rfl, on, out | ⟨timing, vs, rfl, apart⟩⟩ | ⟨rfl, on, outside⟩
  · exact stageTrack_of_unfit live unfit
  · exact (stageTimer_of_owned on (by simp)).trans (if_pos (by simp [inRange_of_outside outside]))
  · exact (stageTimer_of_owned on fun _ => owner).trans (if_pos (by simp [inRange_of_outside outside]))
  · exact (stageBell_of_on on).trans (if_pos (by simpa using unfit))
  · exact (stageLink_of_on on).trans (if_pos (by simp [out]))
  · exact (stageLink_of_on on).trans (if_pos (by simp [timing, apart]))
  · obtain ⟨n, rfl⟩ : ∃ n, k = 2 * n := ⟨k / 2, by omega⟩
    rw [Nat.mul_div_cancel_left n Nat.two_pos] at on
    exact (stageLine_of_on on).trans (if_pos (by simp [inRange_of_outside outside]))

/-! ### A value that goes pending -/

theorem ReachesOwner.atTime (h : ReachesOwner s table k field x value) (t : Time) :
    cmdStage table k field value (s.atTime t) = ownerStages table k field x (s.atTime t) :=
  ReachesOwner.ran (s := s.atTime t) ⟨⟨h.works, h.inside, h.numbered, h.fielded⟩, h.stages, h.outward, h.valued⟩

theorem takes_pending_track (h : ReachesOwner s 8 k field x value) (s_open : s.Open) (length : s.circuits.length = 24)
    (live : (s.circuit k).state ≠ .disabled) (other : (s.circuit k).state ≠ .clear)
    (takes : trackTakes (s.tables.track k) (s.circuit k).staged field x = true) :
    Takes (.stage t 8 k field value) s [.tracks, .result] fun u =>
      u.Gave 0x85 [] ∧ OtherCircuits k s u ∧ u.circuit k = (s.circuit k).staging field x := by
  have ran : cmdStage 8 k field value (s.atTime t) = reply [] ((s.atTime t).modCircuit k (Circuit.staging field x)) :=
    (h.atTime t).trans ((stageTrack_of_live (s := s.atTime t) live takes).trans (congrArg _ (if_neg other)))
  have moves : Moves [.circuit, .stage] (s.atTime t) ((s.atTime t).modCircuit k (Circuit.staging field x)) :=
    Moves.refl.to_modCircuit k _
  exact .of_pending rfl rfl s_open ran moves
    (fun none_staged => ⟨none_staged.still.timer, none_staged.still.bell, none_staged.still.line, none_staged.still.link⟩)
    fun agreed _ gave => ⟨gave, finish_other_circuits (s := s) (g := Circuit.staging field x) agreed rfl,
      finish_own_circuit (s := s) (g := Circuit.staging field x) agreed rfl (here_of_within 24 h.numbered length)⟩

/-- What R92 asks of a value of a releases record. -/
structure TimerFits (s : State) (k field x : Nat) : Prop where
  on : timerOn s k = true
  owned : (timerOwner s k).1 = .lever ∨ field = 4
  duration : field = 4 → 10 ≤ x ∧ x ≤ 600
  validity : field = 5 → 10 ≤ x ∧ x ≤ 300

theorem stageTimer_of_fit (stages : stageable 10 field = true) (fits : TimerFits s k field x) :
    stageTimer k field x s = reply [] (reloadTimer k (s.modTimer k (Timer.staging field x))) := by
  have named : field = 4 ∨ field = 5 := by simpa [stageable] using stages
  have owned : field = 5 → (timerOwner s k).1 = .lever := fun five => fits.owned.resolve_right (by omega)
  rw [stageTimer_of_owned fits.on owned]
  refine if_neg ?_
  rcases named with rfl | rfl
  · simp [inRange_iff.2 (fits.duration rfl)]
  · simp [inRange_iff.2 (fits.validity rfl)]

theorem takes_pending_timer (h : ReachesOwner s 10 k field x value) (s_open : s.Open) (length : s.timers.length = 16)
    (fits : TimerFits s k field x) (runs : (s.timer k).state ≠ .idle) :
    Takes (.stage t 10 k field value) s [.timers, .result] fun u =>
      u.Gave 0x85 [] ∧ OtherTimers k s u ∧ u.timer k = (s.timer k).staging field x := by
  have here : within k s.timers.length = true := here_of_within 16 h.numbered length
  have own : ((s.atTime t).modTimer k (Timer.staging field x)).timer k = (s.timer k).staging field x :=
    State.timer_modTimer_same (s.atTime t) k _ here
  have still : reloadTimer k ((s.atTime t).modTimer k (Timer.staging field x))
      = (s.atTime t).modTimer k (Timer.staging field x) := reloadTimer_of_still (.inr (by rw [own]; exact runs))
  have ran : cmdStage 10 k field value (s.atTime t) = reply [] ((s.atTime t).modTimer k (Timer.staging field x)) :=
    (h.atTime t).trans ((stageTimer_of_fit (s := s.atTime t) h.stages
      ⟨fits.on, fits.owned, fits.duration, fits.validity⟩).trans (congrArg _ still))
  have moves : Moves [.timer, .stage] (s.atTime t) ((s.atTime t).modTimer k (Timer.staging field x)) :=
    Moves.refl.to_modTimer k _
  have quiet (none_staged : s.NoneStaged) : (s.modTimer k (Timer.staging field x)).Still := none_staged.still.modTimer (.inr runs)
  refine .of_pending rfl rfl s_open ran moves (fun none_staged => ?_) fun agreed _ gave => ⟨gave, ?_, ?_⟩
  · exact ⟨(quiet none_staged).timer, (quiet none_staged).bell, (quiet none_staged).line, (quiet none_staged).link⟩
  · exact finish_other_timers (s := s) (g := Timer.staging field x) agreed rfl
  · refine Eq.trans (finish_timer_running agreed ?_) own
    exact fun idle => runs ((congrArg Timer.state own).symm.trans idle)

theorem stageBell_of_fit (on : s.linkOn k = true) (ranged : bellRange field x = true)
    (related : ((s.tables.bell k).withStaged (putStaged field x (s.bell k).staged)).related = true) :
    stageBell k field x s = reply [] (reloadBell k (s.modBell k (Bell.staging field x))) :=
  (stageBell_of_on on).trans (if_neg (by simp [ranged, related]))

theorem takes_pending_bell (h : ReachesOwner s 3 k field x value) (s_open : s.Open) (length : s.bells.length = 3)
    (on : s.linkOn k = true) (opened : codeOpen s k = true) (ranged : bellRange field x = true)
    (related : ((s.tables.bell k).withStaged (putStaged field x (s.bell k).staged)).related = true) :
    Takes (.stage t 3 k field value) s [.bells, .result] fun u =>
      u.Gave 0x85 [] ∧ OtherBells k s u ∧ u.bell k = (s.bell k).staging field x := by
  have here : within k s.bells.length = true := here_of_within 3 h.numbered length
  have own : ((s.atTime t).modBell k (Bell.staging field x)).bell k = (s.bell k).staging field x :=
    State.bell_modBell_same (s.atTime t) k _ here
  have open_after : codeOpen ((s.atTime t).modBell k (Bell.staging field x)) k = true := by
    simp only [codeOpen, own]
    exact opened
  have still : reloadBell k ((s.atTime t).modBell k (Bell.staging field x))
      = (s.atTime t).modBell k (Bell.staging field x) := reloadBell_of_still (.inr open_after)
  have ran : cmdStage 3 k field value (s.atTime t) = reply [] ((s.atTime t).modBell k (Bell.staging field x)) :=
    (h.atTime t).trans ((stageBell_of_fit (s := s.atTime t) on ranged related).trans (congrArg _ still))
  have moves : Moves [.bell, .stage] (s.atTime t) ((s.atTime t).modBell k (Bell.staging field x)) :=
    Moves.refl.to_modBell k _
  have quiet (none_staged : s.NoneStaged) : (s.modBell k (Bell.staging field x)).Still := none_staged.still.modBell opened
  refine .of_pending rfl rfl s_open ran moves (fun none_staged => ?_) fun agreed _ gave => ⟨gave, ?_, ?_⟩
  · exact ⟨(quiet none_staged).timer, (quiet none_staged).bell, (quiet none_staged).line, (quiet none_staged).link⟩
  · exact finish_other_bells (s := s) (g := Bell.staging field x) agreed rfl
  · exact Eq.trans (finish_bell_open agreed open_after) own

theorem stageLine_of_fit (on : s.linkOn n = true) (low : 10 ≤ x) (high : x ≤ 300) :
    stageLine (2 * n) field x s = reply [] (reloadLine n (s.modOutb n (Outbound.staging field x))) :=
  (stageLine_of_on on).trans (if_neg (by simp [inRange_iff.2 ⟨low, high⟩]))

theorem line_within (numbered : recordOk 11 (2 * n) = true) : within n 3 = true := by
  have := (within_iff (2 * n) 6).1 numbered
  exact (within_iff n 3).2 (by omega)

theorem takes_pending_line (h : ReachesOwner s 11 (2 * n) field x value) (s_open : s.Open) (length : s.outbound.length = 3)
    (on : s.linkOn n = true) (low : 10 ≤ x) (high : x ≤ 300) (watched : (s.outb n).overdueAt ≠ none) :
    Takes (.stage t 11 (2 * n) field value) s [.outbound, .result] fun u =>
      u.Gave 0x85 [] ∧ OtherOutbound n s u ∧ u.outb n = (s.outb n).staging field x := by
  have here : within n s.outbound.length = true := here_of_within 3 (line_within h.numbered) length
  have own : ((s.atTime t).modOutb n (Outbound.staging field x)).outb n = (s.outb n).staging field x :=
    State.outb_modOutb_same (s.atTime t) n _ here
  have still : reloadLine n ((s.atTime t).modOutb n (Outbound.staging field x))
      = (s.atTime t).modOutb n (Outbound.staging field x) := reloadLine_of_still (.inr (by rw [own]; exact watched))
  have ran : cmdStage 11 (2 * n) field value (s.atTime t) = reply [] ((s.atTime t).modOutb n (Outbound.staging field x)) :=
    (h.atTime t).trans ((stageLine_of_fit (s := s.atTime t) on low high).trans (congrArg _ still))
  have moves : Moves [.outb, .stage] (s.atTime t) ((s.atTime t).modOutb n (Outbound.staging field x)) :=
    Moves.refl.to_modOutb n _
  have quiet (none_staged : s.NoneStaged) : (s.modOutb n (Outbound.staging field x)).Still :=
    none_staged.still.modOutb (.inr watched)
  refine .of_pending rfl rfl s_open ran moves (fun none_staged => ?_) fun agreed _ gave => ⟨gave, ?_, ?_⟩
  · exact ⟨(quiet none_staged).timer, (quiet none_staged).bell, (quiet none_staged).line, (quiet none_staged).link⟩
  · exact finish_other_outbound (s := s) (g := Outbound.staging field x) agreed rfl
  · refine Eq.trans (finish_outb_watched agreed ?_) own
    exact fun idle => watched ((congrArg Outbound.overdueAt own).symm.trans idle)

/-- What R149 asks of a value of a links record: its range, and the two times of the heartbeat. -/
structure LinkFits (s : State) (k field x : Nat) : Prop where
  on : s.linkOn k = true
  ranged : linkRange field x = true
  related : field = 11 ∨ field = 12 →
    2 * stagedOr (putStaged field x (s.link k).staged) 11 (cfgOf s k).heartbeat
      ≤ stagedOr (putStaged field x (s.link k).staged) 12 (cfgOf s k).silence

theorem stageLink_of_fit (fits : LinkFits s k field x) :
    stageLink k field x s = reply [] (reloadLink k (s.modLink k (Link.staging field x))) := by
  rw [stageLink_of_on fits.on]
  refine if_neg ?_
  by_cases timing : field = 11 ∨ field = 12
  · simp [fits.ranged, fits.related timing]
  · simp [fits.ranged, timing]

theorem takes_pending_link (h : ReachesOwner s 2 k field x value) (s_open : s.Open) (length : s.links.length = 3)
    (fits : LinkFits s k field x) (engaged : (s.link k).state ≠ .idle ∧ (s.link k).state ≠ .outOfUse) :
    Takes (.stage t 2 k field value) s [.links, .result] fun u =>
      u.Gave 0x85 [] ∧ OtherLinks k s u ∧ (u.link k).staged = putStaged field x (s.link k).staged := by
  have here : within k s.links.length = true := here_of_within 3 h.numbered length
  have own : ((s.atTime t).modLink k (Link.staging field x)).link k = (s.link k).staging field x :=
    State.link_modLink_same (s.atTime t) k _ here
  have apart : ((s.link k).staging field x).atReload = false := by
    simp [Link.atReload, Link.staging, engaged.1, engaged.2]
  have still : reloadLink k ((s.atTime t).modLink k (Link.staging field x))
      = (s.atTime t).modLink k (Link.staging field x) := reloadLink_of_still (.inr (by rw [own]; exact apart))
  have ran : cmdStage 2 k field value (s.atTime t) = reply [] ((s.atTime t).modLink k (Link.staging field x)) :=
    (h.atTime t).trans ((stageLink_of_fit (s := s.atTime t) ⟨fits.on, fits.ranged, fits.related⟩).trans (congrArg _ still))
  have moves : Moves [.link, .stage] (s.atTime t) ((s.atTime t).modLink k (Link.staging field x)) :=
    Moves.refl.to_modLink k _
  have quiet (none_staged : s.NoneStaged) : (s.modLink k (Link.staging field x)).Still := none_staged.still.modLink (.inr apart)
  refine .of_pending rfl rfl s_open ran moves (fun none_staged => ?_) fun agreed _ gave => ⟨gave, ?_, ?_⟩
  · exact ⟨(quiet none_staged).timer, (quiet none_staged).bell, (quiet none_staged).line, (quiet none_staged).link⟩
  · exact finish_other_links (s := s) (g := Link.staging field x) agreed rfl
  · refine Eq.trans (finish_link_engaged agreed ?_) (congrArg Link.staged own)
    exact ⟨fun idle => engaged.1 ((congrArg Link.state own).symm.trans idle),
      fun out => engaged.2 ((congrArg Link.state own).symm.trans out)⟩

end Sys2Proof.Machine
end

section
/-! STAGE at a reload point, and the obligation on staged values (R187). -/

set_option Elab.async false

namespace Sys2Proof.Machine

variable {s u v w : State} {table j k n field x : Nat} {value : List Byte} {t : Time} {i : Instr} {ks : List Kind}
  {ps : List Part} {P : State → Prop}

/-! ### A value that joins its owner at once -/

theorem putStaged_of_nil {l : List (Nat × Nat)} (none_pending : l = []) : putStaged field x l = [(field, x)] := by
  subst none_pending
  rfl

theorem reload_staged_timer (none_pending : (s.timer k).staged = []) (idle : (s.timer k).state = .idle)
    (here : within k s.timers.length = true) :
    Applied 10 k [(field, x)] s (reloadTimer k (s.modTimer k (Timer.staging field x)))
      ∧ (reloadTimer k (s.modTimer k (Timer.staging field x))).timers = s.timers := by
  have own : (s.modTimer k (Timer.staging field x)).timer k = (s.timer k).staging field x := State.timer_modTimer_same s k _ here
  have staged : ((s.modTimer k (Timer.staging field x)).timer k).staged = [(field, x)] :=
    (congrArg Timer.staged own).trans (putStaged_of_nil none_pending)
  rw [reloadTimer_of_due (by simp [staged]) ((congrArg Timer.state own).trans idle), staged]
  refine ⟨⟨rfl, rfl⟩, modAt_undone ?_⟩
  exact congrArg (fun l => { s.timer k with staged := l }) none_pending.symm

theorem reload_staged_bell (none_pending : (s.bell k).staged = []) (closed : codeOpen s k = false)
    (here : within k s.bells.length = true) :
    Applied 3 k [(field, x)] s (reloadBell k (s.modBell k (Bell.staging field x)))
      ∧ (reloadBell k (s.modBell k (Bell.staging field x))).bells = s.bells := by
  have own : (s.modBell k (Bell.staging field x)).bell k = (s.bell k).staging field x := State.bell_modBell_same s k _ here
  have staged : ((s.modBell k (Bell.staging field x)).bell k).staged = [(field, x)] :=
    (congrArg Bell.staged own).trans (putStaged_of_nil none_pending)
  have closed_after : codeOpen (s.modBell k (Bell.staging field x)) k = false := by
    simp only [codeOpen, own]
    exact closed
  rw [reloadBell_of_due (by simp [staged]) closed_after, staged]
  refine ⟨⟨rfl, rfl⟩, modAt_undone ?_⟩
  exact congrArg (fun l => { s.bell k with staged := l }) none_pending.symm

theorem reload_staged_line (none_pending : (s.outb n).staged = []) (idle : (s.outb n).overdueAt = none)
    (here : within n s.outbound.length = true) :
    Applied 11 (2 * n) [(field, x)] s (reloadLine n (s.modOutb n (Outbound.staging field x)))
      ∧ (reloadLine n (s.modOutb n (Outbound.staging field x))).outbound = s.outbound := by
  have own : (s.modOutb n (Outbound.staging field x)).outb n = (s.outb n).staging field x := State.outb_modOutb_same s n _ here
  have staged : ((s.modOutb n (Outbound.staging field x)).outb n).staged = [(field, x)] :=
    (congrArg Outbound.staged own).trans (putStaged_of_nil none_pending)
  rw [reloadLine_of_due (by simp [staged]) ((congrArg Outbound.overdueAt own).trans idle), staged]
  refine ⟨⟨rfl, rfl⟩, modAt_undone ?_⟩
  exact congrArg (fun l => { s.outb n with staged := l }) none_pending.symm

theorem reload_staged_link (none_pending : (s.link k).staged = []) (due : (s.link k).atReload = true)
    (here : within k s.links.length = true) :
    Applied 2 k [(field, x)] s (reloadLink k (s.modLink k (Link.staging field x)))
      ∧ (reloadLink k (s.modLink k (Link.staging field x))).links = s.links := by
  have own : (s.modLink k (Link.staging field x)).link k = (s.link k).staging field x := State.link_modLink_same s k _ here
  have staged : ((s.modLink k (Link.staging field x)).link k).staged = [(field, x)] :=
    (congrArg Link.staged own).trans (putStaged_of_nil none_pending)
  rw [reloadLink_of_due (by simp [staged]) ((congrArg Link.atReload own).trans due), staged]
  refine ⟨⟨rfl, rfl⟩, modAt_undone ?_⟩
  exact congrArg (fun l => { s.link k with staged := l }) none_pending.symm

theorem reload_staged_track (none_pending : (s.circuit k).staged = []) (here : within k s.circuits.length = true) :
    Applied 8 k [(field, x)] s (reloadTrack k (s.modCircuit k (Circuit.staging field x)))
      ∧ (reloadTrack k (s.modCircuit k (Circuit.staging field x))).circuits = s.circuits := by
  have own : (s.modCircuit k (Circuit.staging field x)).circuit k = (s.circuit k).staging field x :=
    State.circuit_modCircuit_same s k _ here
  have staged : ((s.modCircuit k (Circuit.staging field x)).circuit k).staged = [(field, x)] :=
    (congrArg Circuit.staged own).trans (putStaged_of_nil none_pending)
  rw [reloadTrack_of_due (by simp [staged]), staged]
  refine ⟨⟨rfl, rfl⟩, modAt_undone ?_⟩
  exact congrArg (fun l => { s.circuit k with staged := l }) none_pending.symm

theorem takes_applied_timer (h : ReachesOwner s 10 k field x value) (s_open : s.Open) (length : s.timers.length = 16)
    (fits : TimerFits s k field x) (none_staged : s.NoneStaged) (idle : (s.timer k).state = .idle) :
    Takes (.stage t 10 k field value) s [.store, .result, .transmitter] fun u =>
      u.Gave 0x85 [] ∧ u.NoneStaged ∧ Applied 10 k [(field, x)] s u := by
  have ran := (h.atTime t).trans
    (stageTimer_of_fit (s := s.atTime t) h.stages ⟨fits.on, fits.owned, fits.duration, fits.validity⟩)
  have moves := ((Moves.refl (ks := [.note, .timer, .stage, .reload]) (s := s.atTime t)).to_modTimer k
    (Timer.staging field x)).to_reloadTimer k
  obtain ⟨applied, timers⟩ := reload_staged_timer (s := s.atTime t) (field := field) (x := x) (none_staged.timer k) idle
    (here_of_within 16 h.numbered length)
  have unstaged : (reloadTimer k ((s.atTime t).modTimer k (Timer.staging field x))).NoneStaged := by
    refine ⟨?_, by rw [timers]; exact none_staged.2.1, ?_, ?_, ?_⟩
    · rw [moves.exactly .tracks]; exact none_staged.1
    · rw [moves.exactly .bells]; exact none_staged.2.2.1
    · rw [moves.exactly .outbound]; exact none_staged.2.2.2.1
    · rw [moves.exactly .links]; exact none_staged.2.2.2.2
  exact .narrow_told .timers (by decide) ⟨.transmitter, by decide, rfl⟩ <|
    .of_applied rfl rfl s_open ran moves applied unstaged .refl fun agreed gave last applied =>
      ⟨Part.same_trans (congrArg (List.map Timer.kept) timers) (finish_part agreed .timers), gave, last, applied⟩

theorem takes_applied_bell (h : ReachesOwner s 3 k field x value) (s_open : s.Open) (length : s.bells.length = 3)
    (on : s.linkOn k = true) (closed : codeOpen s k = false) (ranged : bellRange field x = true)
    (related : ((s.tables.bell k).withStaged [(field, x)]).related = true) (none_staged : s.NoneStaged) :
    Takes (.stage t 3 k field value) s [.store, .result, .transmitter] fun u =>
      u.Gave 0x85 [] ∧ u.NoneStaged ∧ Applied 3 k [(field, x)] s u := by
  rw [← putStaged_of_nil (none_staged.bell k)] at related
  have ran := (h.atTime t).trans (stageBell_of_fit (s := s.atTime t) on ranged related)
  have moves := ((Moves.refl (ks := [.note, .bell, .stage, .reload]) (s := s.atTime t)).to_modBell k
    (Bell.staging field x)).to_reloadBell k
  obtain ⟨applied, bells⟩ := reload_staged_bell (s := s.atTime t) (field := field) (x := x) (none_staged.bell k) closed
    (here_of_within 3 h.numbered length)
  have unstaged : (reloadBell k ((s.atTime t).modBell k (Bell.staging field x))).NoneStaged := by
    refine ⟨?_, ?_, by rw [bells]; exact none_staged.2.2.1, ?_, ?_⟩
    · rw [moves.exactly .tracks]; exact none_staged.1
    · rw [moves.exactly .timers]; exact none_staged.2.1
    · rw [moves.exactly .outbound]; exact none_staged.2.2.2.1
    · rw [moves.exactly .links]; exact none_staged.2.2.2.2
  exact .narrow_told .bells (by decide) ⟨.transmitter, by decide, rfl⟩ <|
    .of_applied rfl rfl s_open ran moves applied unstaged .refl fun agreed gave last applied =>
      ⟨Part.same_trans (congrArg (List.map Bell.kept) bells) (finish_part agreed .bells), gave, last, applied⟩

theorem takes_applied_line (h : ReachesOwner s 11 (2 * n) field x value) (s_open : s.Open) (length : s.outbound.length = 3)
    (on : s.linkOn n = true) (low : 10 ≤ x) (high : x ≤ 300) (none_staged : s.NoneStaged)
    (idle : (s.outb n).overdueAt = none) :
    Takes (.stage t 11 (2 * n) field value) s [.store, .result, .transmitter] fun u =>
      u.Gave 0x85 [] ∧ u.NoneStaged ∧ Applied 11 (2 * n) [(field, x)] s u := by
  have ran := (h.atTime t).trans (stageLine_of_fit (s := s.atTime t) on low high)
  have moves := ((Moves.refl (ks := [.note, .outb, .stage, .reload]) (s := s.atTime t)).to_modOutb n
    (Outbound.staging field x)).to_reloadLine n
  obtain ⟨applied, lines⟩ := reload_staged_line (s := s.atTime t) (field := field) (x := x) (none_staged.outb n) idle
    (here_of_within 3 (line_within h.numbered) length)
  have unstaged : (reloadLine n ((s.atTime t).modOutb n (Outbound.staging field x))).NoneStaged := by
    refine ⟨?_, ?_, ?_, by rw [lines]; exact none_staged.2.2.2.1, ?_⟩
    · rw [moves.exactly .tracks]; exact none_staged.1
    · rw [moves.exactly .timers]; exact none_staged.2.1
    · rw [moves.exactly .bells]; exact none_staged.2.2.1
    · rw [moves.exactly .links]; exact none_staged.2.2.2.2
  exact .narrow_told .outbound (by decide) ⟨.transmitter, by decide, rfl⟩ <|
    .of_applied rfl rfl s_open ran moves applied unstaged .refl fun agreed gave last applied =>
      ⟨Part.same_trans (congrArg (List.map Outbound.kept) lines) (finish_part agreed .outbound), gave, last, applied⟩

theorem takes_applied_link (h : ReachesOwner s 2 k field x value) (s_open : s.Open) (length : s.links.length = 3)
    (fits : LinkFits s k field x) (none_staged : s.NoneStaged) (due : (s.link k).atReload = true) :
    Takes (.stage t 2 k field value) s [.store, .result, .transmitter] fun u =>
      u.Gave 0x85 [] ∧ u.NoneStaged ∧ Applied 2 k [(field, x)] s u := by
  have ran := (h.atTime t).trans (stageLink_of_fit (s := s.atTime t) ⟨fits.on, fits.ranged, fits.related⟩)
  have moves := ((Moves.refl (ks := [.note, .link, .stage, .reload]) (s := s.atTime t)).to_modLink k
    (Link.staging field x)).to_reloadLink k
  obtain ⟨applied, links⟩ := reload_staged_link (s := s.atTime t) (field := field) (x := x) (none_staged.link k) due
    (here_of_within 3 h.numbered length)
  have unstaged : (reloadLink k ((s.atTime t).modLink k (Link.staging field x))).NoneStaged := by
    refine ⟨?_, ?_, ?_, ?_, by rw [links]; exact none_staged.2.2.2.2⟩
    · rw [moves.exactly .tracks]; exact none_staged.1
    · rw [moves.exactly .timers]; exact none_staged.2.1
    · rw [moves.exactly .bells]; exact none_staged.2.2.1
    · rw [moves.exactly .outbound]; exact none_staged.2.2.2.1
  exact .narrow_told .links (by decide) ⟨.transmitter, by decide, rfl⟩ <|
    .of_applied rfl rfl s_open ran moves applied unstaged .refl fun agreed gave last applied =>
      ⟨Part.same_trans (congrArg (List.map Link.kept) links) (finish_part agreed .links), gave, last, applied⟩

/-! ### The margin test after a level comes into force -/

/-- A cause of a track circuit touches no instrument, whatever its reaction. -/
theorem raise_margin_instruments (k : Nat) (s : State) : (raise 4 (some k) s).instruments = s.instruments := by
  have counted : (noteOccurrence 4 (some k) s).instruments = s.instruments :=
    Eq.trans ((leaves_append _ _).2.2.2 .instruments (by decide)) ((leaves_countOccurrence 4 (some k) s).2.2.2 .instruments (by decide))
  have confined : Moves fallKinds (noteOccurrence 4 (some k) s) (confineOccurrence 4 (some k) s) :=
    (Moves.refl.to_when _ fun _ => Moves.refl.to_confineTrack _ k).to_noteFault _
  have told : Moves fallKinds (noteOccurrence 4 (some k) s) (tellOccurrence 4 (some k) s) :=
    confined.to_when _ fun _ => Moves.refl.to_append _
  have suspended : Moves modeKinds (tellOccurrence 4 (some k) s) (raise 4 (some k) s) :=
    Moves.refl.to_when _ fun _ => Moves.refl.to_takeRestriction .suspended (by decide)
  exact Eq.trans (suspended.exactly .instruments) (Eq.trans (told.exactly .instruments) counted)

theorem endCause_margin_instruments (k : Nat) (s : State) : (endCause 4 (some k) s).instruments = s.instruments := by
  have moves : Moves fallKinds s (endCause 4 (some k) s) := by
    unfold endCause
    split
    · split
      · exact .refl
      · exact ((Moves.refl.to_clearRecord _ _).to_unconfineTrack 4 k).to_noteFault 4
    · exact Moves.refl.to_latchRecord ..
  exact moves.exactly .instruments

theorem marginTest_instruments (k : Nat) (s : State) : (marginTest k s).instruments = s.instruments := by
  simp only [marginTest]
  split
  · rfl
  · split
    · split
      · exact endCause_margin_instruments k _
      · rfl
    · split
      · exact raise_margin_instruments k _
      · rfl

theorem takes_applied_track (h : ReachesOwner s 8 k field x value) (s_open : s.Open) (length : s.circuits.length = 24)
    (clear : (s.circuit k).state = .clear) (takes : trackTakes (s.tables.track k) [] field x = true)
    (none_staged : s.NoneStaged) :
    Takes (.stage t 8 k field value) s
      [.tracks, .store, .levers, .faults, .register, .holds, .timers, .inbound, .outbound, .mode, .links, .result] fun u =>
      u.Gave 0x85 [] ∧ (u.circuit k).staged = [] ∧ Applied 8 k [(field, x)] s u := by
  rw [← none_staged.circuit k] at takes
  have ran := (h.atTime t).trans ((stageTrack_of_live (s := s.atTime t) (by simp [clear]) takes).trans
    (congrArg _ (if_pos clear)))
  have reloaded := ((Moves.refl (ks := [.note, .circuit, .stage, .reload]) (s := s.atTime t)).to_modCircuit k
    (Circuit.staging field x)).to_reloadTrack k
  have margin : Moves raiseKinds _ (marginTest k (reloadTrack k ((s.atTime t).modCircuit k (Circuit.staging field x)))) :=
    Moves.refl.to_marginTest k
  have moves : Moves (.stage :: .reload :: raiseKinds) (s.atTime t) _ :=
    (reloaded.mono (by decide)).trans (margin.mono (by simp))
  obtain ⟨applied, circuits⟩ := reload_staged_track (s := s.atTime t) (field := field) (x := x) (none_staged.circuit k)
    (here_of_within 24 h.numbered length)
  have unstaged : (reloadTrack k ((s.atTime t).modCircuit k (Circuit.staging field x))).NoneStaged := by
    refine ⟨by rw [circuits]; exact none_staged.1, ?_, ?_, ?_, ?_⟩
    · rw [reloaded.exactly .timers]; exact none_staged.2.1
    · rw [reloaded.exactly .bells]; exact none_staged.2.2.1
    · rw [reloaded.exactly .outbound]; exact none_staged.2.2.2.1
    · rw [reloaded.exactly .links]; exact none_staged.2.2.2.2
  refine .narrow_told .instruments (by decide) ⟨.tracks, by decide, rfl⟩ <|
    .of_applied rfl rfl s_open ran moves applied unstaged margin fun agreed gave last applied =>
      ⟨?_, gave, last.circuit k, applied⟩
  exact (finish_instruments agreed).trans (Eq.trans (marginTest_instruments k _) (reloaded.exactly .instruments))

/-! ### The obligation -/

/-- The clauses of O60 about a value whose owner stands before its reload point. -/
theorem takes_pending (s : State) (t : Time) (h : ReachesOwner s table k field x value) (s_open : s.Open) :
    (table = 8 → s.circuits.length = 24 → (s.circuit k).state ≠ .disabled → (s.circuit k).state ≠ .clear →
      (trackTakes (s.tables.track k) (s.circuit k).staged field x = false →
          Takes (.stage t table k field value) s [.result] fun u => u.Refused 0x85 .range)
        ∧ (trackTakes (s.tables.track k) (s.circuit k).staged field x = true →
          Takes (.stage t table k field value) s [.tracks, .result] fun u =>
            u.Gave 0x85 [] ∧ OtherCircuits k s u
              ∧ u.circuit k = { s.circuit k with
                staged := (s.circuit k).staged.filter (·.1 != field) ++ [(field, x)] }))
    ∧ (table = 10 → s.timers.length = 16 → timerOn s k = true →
      (s.timer k).state ≠ .idle → (timerOwner s k).1 = .lever ∨ field = 4 →
      (field = 4 → 10 ≤ x ∧ x ≤ 600) → (field = 5 → 10 ≤ x ∧ x ≤ 300) →
      Takes (.stage t table k field value) s [.timers, .result] fun u =>
        u.Gave 0x85 [] ∧ OtherTimers k s u
          ∧ u.timer k = { s.timer k with staged := (s.timer k).staged.filter (·.1 != field) ++ [(field, x)] })
    ∧ (table = 3 → s.bells.length = 3 → s.linkOn k = true → codeOpen s k = true → bellRange field x = true →
      ((s.tables.bell k).withStaged (putStaged field x (s.bell k).staged)).related = true →
      Takes (.stage t table k field value) s [.bells, .result] fun u =>
        u.Gave 0x85 [] ∧ OtherBells k s u
          ∧ u.bell k = { s.bell k with staged := (s.bell k).staged.filter (·.1 != field) ++ [(field, x)] })
    ∧ (table = 2 → s.links.length = 3 → s.linkOn k = true → linkRange field x = true →
      (field = 11 ∨ field = 12 → ∀ vs, vs = putStaged field x (s.link k).staged →
        2 * stagedOr vs 11 (cfgOf s k).heartbeat ≤ stagedOr vs 12 (cfgOf s k).silence) →
      (s.link k).state ≠ .idle → (s.link k).state ≠ .outOfUse →
      Takes (.stage t table k field value) s [.links, .result] fun u =>
        u.Gave 0x85 [] ∧ OtherLinks k s u
          ∧ (u.link k).staged = (s.link k).staged.filter (·.1 != field) ++ [(field, x)])
    ∧ (table = 11 → s.outbound.length = 3 → s.linkOn (k / 2) = true →
      10 ≤ x → x ≤ 300 → (s.outb (k / 2)).overdueAt ≠ none →
      Takes (.stage t table k field value) s [.outbound, .result] fun u =>
        u.Gave 0x85 [] ∧ OtherOutbound (k / 2) s u
          ∧ u.outb (k / 2) = { s.outb (k / 2) with
            staged := (s.outb (k / 2)).staged.filter (·.1 != field) ++ [(field, x)] }) := by
  refine ⟨?_, ?_, ?_, ?_, ?_⟩
  · rintro rfl length live other
    refine ⟨fun unfit => ?_, takes_pending_track h s_open length live other⟩
    exact .of_plain_refusal rfl rfl s_open ((h.atTime t).trans (stageTrack_of_unfit (s := s.atTime t) live unfit))
  · rintro rfl length on runs owned duration validity
    exact takes_pending_timer h s_open length ⟨on, owned, duration, validity⟩ runs
  · rintro rfl length on opened ranged related
    exact takes_pending_bell h s_open length on opened ranged related
  · rintro rfl length on ranged related engaged used
    exact takes_pending_link h s_open length ⟨on, ranged, fun timing => related timing _ rfl⟩ ⟨engaged, used⟩
  · rintro rfl length on low high watched
    obtain ⟨n, rfl⟩ : ∃ n, k = 2 * n := ⟨k / 2, by have := h.outward; omega⟩
    rw [Nat.mul_div_cancel_left n Nat.two_pos] at *
    exact takes_pending_line h s_open length on low high watched

theorem atReload_of_idle (state : (s.link k).state = .idle ∨ (s.link k).state = .outOfUse) (empty : (s.link k).queue = [])
    (told : (s.link k).indicationDue = false) (rested : (s.link k).retryAt = none) : (s.link k).atReload = true := by
  simp [Link.atReload, state, empty, told, rested]

/-- A time of the heartbeat staged by itself is compared with the other time in force (R137). -/
theorem linkFits_of_alone (on : s.linkOn k = true) (ranged : linkRange field x = true) (none_pending : (s.link k).staged = [])
    (heartbeat : field = 11 → 2 * x ≤ (cfgOf s k).silence) (silence : field = 12 → 2 * (cfgOf s k).heartbeat ≤ x) :
    LinkFits s k field x := by
  refine ⟨on, ranged, fun timing => ?_⟩
  rw [putStaged_of_nil none_pending]
  rcases timing with rfl | rfl
  · exact heartbeat rfl
  · exact silence rfl

/-- The clauses of O60 about a value whose owner stands at its reload point. -/
theorem takes_applied (s : State) (t : Time) (h : ReachesOwner s table k field x value) (s_open : s.Open)
    (none_staged : s.NoneStaged) :
    (table = 8 → s.circuits.length = 24 → (s.circuit k).state = .clear →
        trackTakes (s.tables.track k) [] field x = true →
        Takes (.stage t table k field value) s
          [.tracks, .store, .levers, .faults, .register, .holds, .timers, .inbound, .outbound, .mode, .links, .result] fun u =>
          u.Gave 0x85 [] ∧ (u.circuit k).staged = [] ∧ Applied 8 k [(field, x)] s u)
      ∧ (table = 10 → s.timers.length = 16 → timerOn s k = true →
        (s.timer k).state = .idle → (timerOwner s k).1 = .lever ∨ field = 4 →
        (field = 4 → 10 ≤ x ∧ x ≤ 600) → (field = 5 → 10 ≤ x ∧ x ≤ 300) →
        Takes (.stage t table k field value) s [.store, .result, .transmitter] fun u =>
          u.Gave 0x85 [] ∧ u.NoneStaged ∧ Applied 10 k [(field, x)] s u)
      ∧ (table = 3 → s.bells.length = 3 → s.linkOn k = true → codeOpen s k = false → bellRange field x = true →
        ((s.tables.bell k).withStaged [(field, x)]).related = true →
        Takes (.stage t table k field value) s [.store, .result, .transmitter] fun u =>
          u.Gave 0x85 [] ∧ u.NoneStaged ∧ Applied 3 k [(field, x)] s u)
      ∧ (table = 2 → s.links.length = 3 → s.linkOn k = true → linkRange field x = true →
        (field = 11 → 2 * x ≤ (cfgOf s k).silence) → (field = 12 → 2 * (cfgOf s k).heartbeat ≤ x) →
        (s.link k).state = .idle ∨ (s.link k).state = .outOfUse →
        (s.link k).queue = [] → (s.link k).indicationDue = false → (s.link k).retryAt = none →
        Takes (.stage t table k field value) s [.store, .result, .transmitter] fun u =>
          u.Gave 0x85 [] ∧ u.NoneStaged ∧ Applied 2 k [(field, x)] s u)
      ∧ (table = 11 → s.outbound.length = 3 → s.linkOn (k / 2) = true →
        10 ≤ x → x ≤ 300 → (s.outb (k / 2)).overdueAt = none →
        Takes (.stage t table k field value) s [.store, .result, .transmitter] fun u =>
          u.Gave 0x85 [] ∧ u.NoneStaged ∧ Applied 11 k [(field, x)] s u) := by
  refine ⟨?_, ?_, ?_, ?_, ?_⟩
  · rintro rfl length clear takes
    exact takes_applied_track h s_open length clear takes none_staged
  · rintro rfl length on idle owned duration validity
    exact takes_applied_timer h s_open length ⟨on, owned, duration, validity⟩ none_staged idle
  · rintro rfl length on closed ranged related
    exact takes_applied_bell h s_open length on closed ranged related none_staged
  · rintro rfl length on ranged heartbeat silence state empty told rested
    exact takes_applied_link h s_open length (linkFits_of_alone on ranged (none_staged.link k) heartbeat silence) none_staged
      (atReload_of_idle state empty told rested)
  · rintro rfl length on low high idle
    obtain ⟨n, rfl⟩ : ∃ n, k = 2 * n := ⟨k / 2, by have := h.outward; omega⟩
    rw [Nat.mul_div_cancel_left n Nat.two_pos] at *
    exact takes_applied_line h s_open length on low high none_staged idle

/-- Settles O60: the checks of STAGE in order, what each owner refuses, and a value taken before and at its reload
point; the reload points by themselves are `reload_points`. -/
theorem stagedValuesJoinTheirOwners : Obligations.StagedValuesJoinTheirOwners := by
  unfold Obligations.StagedValuesJoinTheirOwners
  refine ⟨fun s t table k field x value s_open => ⟨fun idle => ?_, fun works => ⟨fun absent => ?_,
    fun inside numbered fielded => ⟨fun barred => ?_, fun stages inbound odd => ?_, fun stages outward unvalued => ?_,
      fun stages outward valued => ?_⟩⟩⟩, reload_points⟩
  · exact .of_plain_refusal rfl rfl s_open (cmdStage_of_idle (s := s.atTime t) idle)
  · exact .of_plain_refusal rfl rfl s_open (cmdStage_of_none (s := s.atTime t) works absent)
  · exact .of_plain_refusal rfl rfl s_open
      (cmdStage_of_protected (s := s.atTime t) ⟨works, inside, numbered, fielded⟩ barred value)
  · subst inbound
    exact .of_plain_refusal rfl rfl s_open
      (cmdStage_of_inbound (s := s.atTime t) ⟨works, inside, numbered, fielded⟩ stages odd value)
  · exact .of_plain_refusal rfl rfl s_open
      (cmdStage_of_unvalued (s := s.atTime t) ⟨works, inside, numbered, fielded⟩ stages outward unvalued)
  · have h : ReachesOwner s table k field x value := ⟨⟨works, inside, numbered, fielded⟩, stages, outward, valued⟩
    obtain ⟨track, timer, bell, link, line⟩ := takes_pending s t h s_open
    refine ⟨fun barred => ?_, fun unfit => ?_, track, timer, bell, link, line, takes_applied s t h s_open⟩
    · exact .of_plain_refusal rfl rfl s_open ((h.atTime t).trans (ownerStages_barred (s := s.atTime t) outward barred))
    · exact .of_plain_refusal rfl rfl s_open ((h.atTime t).trans (ownerStages_unfit (s := s.atTime t) outward unfit))

end Sys2Proof.Machine
end

section
/-! Host frames as they are received (R173). -/

set_option Elab.async false

namespace Sys2Proof.Machine

variable {now : Time} {tag kind : Byte} {payload l rest : List Byte}

/-- The bytes of a host frame from LENGTH on. -/
theorem hostFrame_tail (tag kind : Byte) (payload : List Byte) :
    (hostFrame tag kind payload).tail = frameBody tag kind payload ++ checkBytes (frameBody tag kind payload) := rfl

theorem length_hostFrame_tail (tag kind : Byte) (payload : List Byte) :
    (hostFrame tag kind payload).tail.length = payload.length + 5 := by
  simp [hostFrame_tail, frameBody, checkBytes]

theorem toNat_lengthByte (short : payload.length ≤ 238) : (byte (payload.length + 2)).toNat = payload.length + 2 := by
  simp only [byte, BitVec.toNat_ofNat]
  omega

/-- A beginning of a frame is complete just where it is the whole of it. -/
theorem frameComplete_of_beginning (short : payload.length ≤ 238) (begun : l ++ rest = (hostFrame tag kind payload).tail) :
    frameComplete l = true ↔ rest = [] := by
  have total : l.length + rest.length = payload.length + 5 := by
    rw [← length_hostFrame_tail tag kind payload, ← begun, List.length_append]
  cases l with
  | nil => simp [frameComplete, ← List.length_eq_zero_iff] at total ⊢; omega
  | cons n more =>
    have first : n = byte (payload.length + 2) := by
      have heads := congrArg (List.head? ·) begun
      simpa [hostFrame_tail, frameBody] using heads
    subst first
    simp only [frameComplete, toNat_lengthByte short, beq_iff_eq, ← List.length_eq_zero_iff, List.length_cons] at total ⊢
    omega

theorem frameChecks_hostFrame (tag kind : Byte) (payload : List Byte) : frameChecks (hostFrame tag kind payload).tail = true := by
  have checks : (checkBytes (frameBody tag kind payload)).length = 2 := rfl
  simp [frameChecks, hostFrame_tail, checks]

/-- The receiver keeps the bytes of a frame, from LENGTH on, as long as they come without a gap. -/
theorem foldl_feedByte (short : payload.length ≤ 238) (begun : l ++ rest = (hostFrame tag kind payload).tail) :
    rest.foldl (feedByte now) (some (l, now)) = some ((hostFrame tag kind payload).tail, now) := by
  induction rest generalizing l with
  | nil => simpa using begun
  | cons b rest ih =>
    have more : (l ++ [b]) ++ rest = (hostFrame tag kind payload).tail := by simpa using begun
    have unfinished : frameComplete l = false := by
      rw [Bool.eq_false_iff, ne_eq, frameComplete_of_beginning short begun]
      simp
    have lengthed : badLength ((l ++ [b]).headD 0).toNat = false := by
      have head : (l ++ [b]).headD 0 = byte (payload.length + 2) := by
        have heads := congrArg (List.headD · 0) more
        cases l <;> simpa [hostFrame_tail, frameBody] using heads
      rw [head, toNat_lengthByte short]
      simp [badLength]
      omega
    have kept : ¬ (frameComplete (l ++ [b]) && !frameChecks (l ++ [b])) = true := by
      intro spoilt
      obtain ⟨whole, wrong⟩ := (Bool.and_eq_true _ _).mp spoilt
      obtain rfl := (frameComplete_of_beginning short more).1 whole
      rw [List.append_nil] at more
      rw [more, frameChecks_hostFrame] at wrong
      exact Bool.false_ne_true wrong
    have fed : feedByte now (some (l, now)) b = some (l ++ [b], now) := by
      simp only [feedByte, unfinished, Bool.false_or]
      rw [if_neg (by simp), keepFrame, if_neg (Bool.eq_false_iff.1 lengthed), if_neg kept]
    rw [List.foldl_cons, fed]
    exact ih more

theorem requestOf_hostFrame (short : payload.length ≤ 238) :
    requestOf (hostFrame tag requestKind payload).tail = some (tag, payload) := by
  have whole : frameComplete (hostFrame tag requestKind payload).tail = true :=
    (frameComplete_of_beginning short (List.append_nil _)).2 rfl
  have checks := frameChecks_hostFrame tag requestKind payload
  have taken : requestOf (hostFrame tag requestKind payload).tail
      = some (tag, (payload ++ checkBytes (frameBody tag requestKind payload)).take ((byte (payload.length + 2)).toNat - 2)) :=
    if_pos (by rw [whole, checks]; rfl)
  rw [taken, toNat_lengthByte short]
  simp

/-- Settles O16, by induction on the bytes still to come. -/
theorem hostFramesAreReadAsSent : Obligations.HostFramesAreReadAsSent := by
  unfold Obligations.HostFramesAreReadAsSent
  intro now tag kind payload short
  refine ⟨?_, (frameComplete_of_beginning short (List.append_nil _)).2 rfl, fun n early => ?_, requestOf_hostFrame short⟩
  · exact foldl_feedByte (l := []) short rfl
  · have split : ((hostFrame tag kind payload).take (n + 1)).tail ++ (hostFrame tag kind payload).tail.drop n
        = (hostFrame tag kind payload).tail := List.take_append_drop n (hostFrame tag kind payload).tail
    rw [Bool.eq_false_iff, ne_eq, frameComplete_of_beginning short split, List.drop_eq_nil_iff]
    have total : (hostFrame tag kind payload).length = (hostFrame tag kind payload).tail.length + 1 := rfl
    omega

end Sys2Proof.Machine
end

section
/-! The host line: bytes, gaps, and frames sent (R173, R174, R180). -/

set_option Elab.async false

namespace Sys2Proof.Machine

variable {s u v : State} {k : Nat} {t : Time} {f : OutFrame}

/-! ### The transmitter at the end of a step -/

/-- Whether the Host Port of a state is that of another but for the notices. -/
structure Notifies (s u : State) : Prop where
  host : u.host = { s.host with notices := u.host.notices }
  start : u.start = s.start

theorem Notifies.refl (s : State) : Notifies s s := ⟨rfl, rfl⟩

theorem Notifies.trans (h : Notifies s u) (g : Notifies u v) : Notifies s v :=
  ⟨g.host.trans (by rw [h.host]), g.start.trans h.start⟩

theorem notifies_reloadTimer (k : Nat) (s : State) : Notifies s (reloadTimer k s) := by
  simp only [reloadTimer]
  split
  · exact .refl s
  · exact ⟨rfl, rfl⟩

theorem notifies_reloadBell (k : Nat) (s : State) : Notifies s (reloadBell k s) := by
  simp only [reloadBell]
  split
  · exact .refl s
  · exact ⟨rfl, rfl⟩

theorem notifies_reloadLine (k : Nat) (s : State) : Notifies s (reloadLine k s) := by
  simp only [reloadLine]
  split
  · exact .refl s
  · exact ⟨rfl, rfl⟩

theorem notifies_reloadLink (k : Nat) (s : State) : Notifies s (reloadLink k s) := by
  simp only [reloadLink]
  split
  · exact .refl s
  · exact ⟨rfl, rfl⟩

theorem notifies_pumpLink (k : Nat) (s : State) : Notifies s (pumpLink k s) := by
  have host : (pumpLink k s).host = s.host := (startFrame_host k _).trans (startBidding_host k s)
  have moved : Moves [.link] s (pumpLink k s) := Moves.refl.to_pumpLink k
  exact ⟨by rw [host], (moved.exactly .mode).2⟩

theorem Notifies.forEach {f : Nat → State → State} (each : ∀ n s, Notifies s (f n s)) (ns : List Nat) (s : State) :
    Notifies s (forEach ns f s) :=
  forEach_keeps (I := Notifies s) ns (fun n _ _ so_far => so_far.trans (each n _)) s (.refl s)

def HostPort.withNotices (ns : List Notice) (h : HostPort) : HostPort := { h with notices := ns }

/-- At the end of a step reload points may raise notices; then the transmitter chooses. -/
theorem finish_host (agreed : v.Undisputed) :
    ∃ notices, (finish v).host = chooseFrame v.start.isNone (v.host.withNotices notices) := by
  have reloaded : Notifies v (reloadAll v) :=
    (((Notifies.forEach notifies_reloadTimer _ v).trans (.forEach notifies_reloadBell _ _)).trans
      (.forEach notifies_reloadLine _ _)).trans (.forEach notifies_reloadLink _ _)
  have ended : finish v = kickHost (forEach (upTo 3) pumpLink (reloadAll v)) := by
    simp only [finish, settleMismatches_of_undisputed 64 agreed]
  have pumped := reloaded.trans (.forEach notifies_pumpLink (upTo 3) _)
  rw [ended]
  generalize forEach (upTo 3) pumpLink (reloadAll v) = w at pumped
  exact ⟨w.host.notices, by rw [HostPort.withNotices, ← pumped.host, ← pumped.start]; rfl⟩

/-! ### Frames sent -/

/-- The Host Port when the last byte of a frame has been sent (R174). -/
def HostPort.frameOut (h : HostPort) : HostPort := { h with sending := none }

/-- The same after the reply of a batch that ends in a warm start (R179). -/
def HostPort.replyOut (w : WarmDue) (h : HostPort) : HostPort := { h with sending := none, warm := some ⟨w.cause, true⟩ }

theorem frameLeft_of_none (idle : s.host.sending = none) : frameLeft s = s := by simp only [frameLeft, idle]

theorem frameLeft_of_frame (sending : s.host.sending = some f) (more : f.final = false) :
    frameLeft s = s.modHost HostPort.frameOut := by
  simp only [frameLeft, sending, more]
  rfl

theorem frameLeft_of_final {w : WarmDue} (sending : s.host.sending = some f) (final : f.final = true)
    (warm : s.host.warm = some w) : frameLeft s = s.modHost (HostPort.replyOut w) := by
  simp only [frameLeft, sending, final, if_true, State.modHost, warm]
  rfl

theorem chooseFrame_of_ready {h : HostPort} {g : OutFrame} {rest : List OutFrame} (started : Bool) (idle : h.sending = none)
    (ready : h.ready = g :: rest) (no_warm : h.warm = none) :
    chooseFrame started h = { h with sending := some g, ready := rest } := by
  have on : ¬ warmStarting h = true := by simp [warmStarting, no_warm]
  simp only [chooseFrame, idle, ready, if_neg on]

theorem chooseFrame_of_notice {h : HostPort} {q : Notice} {rest : List Notice} (idle : h.sending = none)
    (ready : h.ready = []) (notices : h.notices = q :: rest) (no_warm : h.warm = none) :
    chooseFrame true h = { h with sending := some q.frame, notices := rest } := by
  have on : ¬ (warmStarting h || !true) = true := by simp [warmStarting, no_warm]
  simp only [chooseFrame, idle, ready, notices, if_neg on]

/-- Once the final reply is out, no frame is chosen (R179). -/
theorem chooseFrame_of_warm {h : HostPort} (started : Bool) (warm : warmStarting h = true) : chooseFrame started h = h := by
  unfold chooseFrame
  split
  · rfl
  · exact if_pos warm
  · exact if_pos (by simp [warm])
  · rfl

/-- The Host Port with the bytes of a broken frame discarded (R173). -/
def HostPort.hunting (h : HostPort) : HostPort := { h with receiving := none }

theorem gapPassed_of_broken {bytes : List Byte} {last : Time} (receiving : s.host.receiving = some (bytes, last))
    (partly : frameComplete bytes = false) (passed : last + 20 < s.now) : gapPassed s = s.modHost HostPort.hunting := by
  simp only [gapPassed, receiving]
  exact if_pos (by simp [partly, passed])

theorem gapPassed_of_kept {bytes : List Byte} {last : Time} (receiving : s.host.receiving = some (bytes, last))
    (kept : frameComplete bytes = true ∨ s.now ≤ last + 20) : gapPassed s = s := by
  simp only [gapPassed, receiving]
  exact if_neg (by rcases kept with whole | early <;> simp [*])

theorem gapPassed_of_none (hunting : s.host.receiving = none) : gapPassed s = s := by simp only [gapPassed, hunting]

/-! ### The obligation -/

/-- The clauses of O55 about a frame that has been sent. -/
theorem takes_frameSent (undisputed : s.Undisputed) (sending : s.host.sending = some f) :
    (f.final = true → ∀ w, s.host.warm = some w →
        Takes (.hostFrameSent t) s [.batch, .transmitter] fun u =>
          u.host.warm = some ⟨w.cause, true⟩ ∧ u.host.executing = s.host.executing
            ∧ u.host.waiting = s.host.waiting ∧ u.host.flags = s.host.flags
            ∧ u.host.sending = none ∧ u.host.ready = s.host.ready)
      ∧ (f.final = false → s.host.warm = none →
        (∀ g rest, s.host.ready = g :: rest →
            Takes (.hostFrameSent t) s [.transmitter] fun u =>
              u.host.sending = some g ∧ u.host.ready = rest)
          ∧ (s.host.ready = [] → s.start = none →
            (∀ x ∈ s.timers, x.staged = []) → (∀ x ∈ s.bells, x.staged = []) →
            (∀ x ∈ s.outbound, x.staged = []) → (∀ x ∈ s.links, x.staged = []) →
            ∀ q rest, s.host.notices = q :: rest →
              Takes (.hostFrameSent t) s [.transmitter] fun u =>
                u.host.sending = some ⟨.notice, 0, byte q.key.code :: be32 q.mask, false⟩
                  ∧ u.host.notices = rest)) := by
  refine ⟨fun final w warm => ?_, fun more no_warm => ⟨fun g rest ready => ?_,
    fun ready started timers bells lines links q rest notices => ?_⟩⟩
  · have moves := (Moves.refl (ks := [.batch, .transmit]) (s := s.atTime t)).to_frameLeft
    rw [frameLeft_of_final (s := s.atTime t) sending final warm] at moves
    refine .of_result rfl rfl undisputed (frameLeft_of_final (s := s.atTime t) sending final warm) moves fun agreed _ => ?_
    obtain ⟨notices, host⟩ := finish_host agreed
    rw [host.trans (chooseFrame_of_warm (h := (s.host.replyOut w).withNotices notices) _ rfl)]
    exact ⟨rfl, rfl, rfl, rfl, rfl, rfl⟩
  all_goals
    have moves : Moves [.transmit] (s.atTime t) ((s.atTime t).modHost HostPort.frameOut) :=
      Moves.refl.to_modHost _ ⟨.inr ⟨rfl, rfl, rfl⟩, .inr rfl, .inr rfl, .inl (by decide), .inr rfl, id, id⟩
    have effect := frameLeft_of_frame (s := s.atTime t) sending more
  · refine .of_result rfl rfl undisputed effect moves fun agreed _ => ?_
    obtain ⟨notices, host⟩ := finish_host agreed
    rw [host.trans (chooseFrame_of_ready (h := (s.host.frameOut).withNotices notices) _ rfl ready no_warm)]
    exact ⟨rfl, rfl⟩
  · refine .of_result rfl rfl undisputed effect moves fun agreed _ => ?_
    have still : ((s.atTime t).modHost HostPort.frameOut).Still :=
      ⟨fun j => .inl (nth_all timers rfl j), fun j => .inl (nth_all bells rfl j), fun j => .inl (nth_all lines rfl j),
        fun j => .inl (nth_all links rfl j)⟩
    have started : ((s.atTime t).modHost HostPort.frameOut).start.isNone = true := Option.isNone_iff_eq_none.2 started
    have chosen := (finish_of_still agreed still).2
    rw [started] at chosen
    rw [chosen.trans (chooseFrame_of_notice (h := s.host.frameOut) rfl ready notices no_warm)]
    exact ⟨rfl, rfl⟩

/-- Settles O55: each row by what the Host Port holds; what the transmitter does next is `finish_host`. -/
theorem hostLineTakesBytesAndSendsFrames : Obligations.HostLineTakesBytesAndSendsFrames := by
  unfold Obligations.HostLineTakesBytesAndSendsFrames
  rintro s t b n undisputed rfl
  refine ⟨?_, fun bytes last receiving => ⟨fun partly passed => ?_, fun kept => ?_⟩, fun hunting => ?_, fun idle => ?_,
    fun f sending => takes_frameSent undisputed sending⟩
  · exact .of_result (ks := [.receiver]) rfl rfl undisputed rfl (Moves.refl.to_receiveByte b) fun agreed _ => finish_receiving agreed
  · have moves := (Moves.refl (ks := [.receiver]) (s := s.atTime t)).to_gapPassed
    have broken := gapPassed_of_broken (s := s.atTime t) receiving partly passed
    rw [broken] at moves
    exact .of_result rfl rfl undisputed broken moves fun agreed _ => finish_receiving agreed
  · exact .of_idle rfl rfl undisputed (gapPassed_of_kept (s := s.atTime t) receiving kept) fun _ => trivial
  · exact .of_idle rfl rfl undisputed (gapPassed_of_none (s := s.atTime t) hunting) fun _ => trivial
  · exact .of_idle rfl rfl undisputed (frameLeft_of_none (s := s.atTime t) idle) fun _ => trivial

end Sys2Proof.Machine
end

section
/-! Results that a batch is given, and what becomes of the places (R175, R177). -/

set_option Elab.async false

namespace Sys2Proof.Machine

variable {s u v : State} {k : Nat} {t : Time} {f : OutFrame} {b : Batch} {c : Command} {r : CmdResult} {skip : Bool}
  {later : List Command}

/-- The batch with one more result, and the turn of its next command come. -/
def Batch.given (b : Batch) (r : CmdResult) (skip : Bool) : Batch :=
  { b with results := b.results ++ [r], awaited := none, skip := skip }

/-- The batch of a request as it begins. -/
def Request.batch (r : Request) : Batch := { tag := r.tag, halt := r.halt, count := r.commands.length, rest := r.commands }

def HostPort.executes (b : Batch) (h : HostPort) : HostPort := { h with executing := some b }

/-- The Host Port when a batch has ended with its last command: its reply is ready, and the request that waited has
begun. -/
def HostPort.batchEnded (tag : Byte) (rs : List CmdResult) (h : HostPort) : HostPort :=
  { h with
    ready := h.ready ++ [⟨.reply, tag, replyPayload rs, false⟩]
    executing := h.waiting.map Request.batch, waiting := none
    flags := if h.waiting.isSome then clearFlags else h.flags }

theorem advanceQueue_giveResult_of_more (more : b.rest ≠ []) :
    advanceQueue (giveResult b r skip s) = s.modHost (HostPort.executes (b.given r skip)) := by
  have given : giveResult b r skip s = s.modHost (HostPort.executes (b.given r skip)) := if_neg more
  rw [given]
  rfl

theorem advanceQueue_giveResult_of_last (last : b.rest = []) (no_warm : s.host.warm = none) :
    advanceQueue (giveResult b r skip s) = s.modHost (HostPort.batchEnded b.tag (b.results ++ [r])) := by
  have given : giveResult b r skip s = endBatch b.tag (b.results ++ [r]) none s := if_pos last
  rw [given]
  cases waiting : s.host.waiting with
  | none => simp [advanceQueue, endBatch, readyFrame, State.modHost, HostPort.batchEnded, waiting]
  | some q =>
    simp [advanceQueue, endBatch, readyFrame, beginBatch, State.modHost, HostPort.batchEnded, waiting, no_warm, Request.batch]

/-- With a frame on the line the end of a step adds nothing to the frames ready. -/
theorem finish_of_sending (agreed : v.Undisputed) (sending : v.host.sending = some f) :
    (finish v).host.ready = v.host.ready ∧ (finish v).host.sending = some f := by
  obtain ⟨notices, host⟩ := finish_host agreed
  have kept : chooseFrame v.start.isNone (v.host.withNotices notices) = v.host.withNotices notices := by
    simp only [chooseFrame, HostPort.withNotices, sending]
  rw [host, kept]
  exact ⟨rfl, sending⟩

/-- A batch that is given a result, at the end of a step: `v` is the part as the command leaves it. -/
theorem finish_gives (agreed : (advanceQueue (giveResult { b with rest := later } r skip v)).Undisputed)
    (no_warm : v.host.warm = none) (waiting : v.host.waiting = s.host.waiting) (ready : v.host.ready = s.host.ready)
    (sending : v.host.sending = some f) :
    GivenResult b later r skip s (finish (advanceQueue (giveResult { b with rest := later } r skip v))) := by
  refine ⟨fun more => ?_, fun last => ?_⟩
  · have given := advanceQueue_giveResult_of_more (b := { b with rest := later }) (r := r) (skip := skip) (s := v) more
    rw [given] at agreed ⊢
    exact ⟨(finish_waiting agreed).trans waiting, finish_executing agreed⟩
  · have given := advanceQueue_giveResult_of_last (b := { b with rest := later }) (r := r) (skip := skip) last no_warm
    rw [given] at agreed ⊢
    refine ⟨finish_waiting agreed, (finish_executing agreed).trans ?_, fun held => (finish_flags agreed).trans ?_,
      (finish_of_sending agreed sending).1.trans (congrArg (· ++ _) ready)⟩
    · exact congrArg (Option.map Request.batch) waiting
    · rw [← waiting] at held
      exact if_pos (Option.isSome_iff_ne_none.2 held)

theorem moves_given_of_more (more : b.rest ≠ []) : Moves [.batch] s (advanceQueue (giveResult b r skip s)) := by
  rw [advanceQueue_giveResult_of_more more]
  exact Moves.refl.to_modHost _ ⟨.inl (by decide), .inr rfl, .inr rfl, .inr ⟨rfl, rfl, rfl⟩, .inr rfl, id, id⟩

theorem moves_given : Moves [.batch, .flags, .transmit] s (advanceQueue (giveResult b r skip s)) :=
  (Moves.refl.to_giveResult b r skip).to_advanceQueue

/-- A command that has waited, and whose result ends no batch, gives it to its batch (R177). -/
theorem resumeBatch_of_awaited (executing : s.host.executing = some b) (awaited : b.awaited = some c)
    (goes_on : r.result = .done → endsBatch c.code = none) :
    resumeBatch r s = advanceQueue (giveResult b { r with code := c.code } false s) := by
  have no_cause : (if r.result = .done then endsBatch c.code else none) = none := by
    split
    · next done => exact goes_on done
    · rfl
  simp only [resumeBatch, executing, awaited, no_cause]

/-- A row at whose end the command that a batch waits for has its result. -/
theorem resumes_row {i : Instr} {ks : List Kind} {ps : List Part} {P : State → Prop} {g : State → State} (f : OutFrame)
    (row : exec i s = .next (finish (g (s.comeTo t)))) (undisputed : s.Undisputed) (executing : s.host.executing = some b)
    (awaited : b.awaited = some c) (sending : s.host.sending = some f)
    (goes_on : r.result = .done → endsBatch c.code = none) (effect : g (s.atTime t) = resumeBatch r v)
    (moves : Moves ks (s.atTime t) v) (told : Notifies (s.atTime t) v)
    (holds : (advanceQueue (giveResult b { r with code := c.code } false v)).Undisputed →
      P (finish (advanceQueue (giveResult b { r with code := c.code } false v))))
    (lasting : Kind.stage ∉ ks ∧ .begin ∉ ks ∧ .time ∉ ks := by decide)
    (parts : ∀ x ∈ Kind.batch :: ks, ∀ q ∈ x.main, q ∈ ps := by decide)
    (stored : Part.store ∈ ps ∨ (Kind.store ∉ ks ∧ .tables ∉ ks ∧ .jobs ∉ ks) := by decide)
    (quiet : (∃ p ∈ ps, p.silent = false) ∨ ∀ x ∈ Kind.batch :: ks, Part.transmitter ∉ x.parts := by decide) :
    ∃ u, exec i s = .next u ∧ u.now = max s.now t
      ∧ (s.host.warm = none → GivenResult b b.rest { r with code := c.code } false s u)
      ∧ (b.rest ≠ [] → KeptBut ps s u) ∧ P u := by
  have executing' : v.host.executing = some b := by rw [told.host]; exact executing
  have result : g (s.atTime t) = advanceQueue (giveResult b { r with code := c.code } false v) :=
    effect.trans (resumeBatch_of_awaited executing' awaited goes_on)
  have all_moves : Moves (.batch :: .flags :: .transmit :: ks) (s.atTime t)
      (advanceQueue (giveResult b { r with code := c.code } false v)) :=
    (moves.mono (by simp +contextual)).trans (moves_given.mono (by simp))
  have agreed := all_moves.undisputed (s := s.atTime t) undisputed
  have now : (advanceQueue (giveResult b { r with code := c.code } false v)).now = max s.now t :=
    all_moves.now_eq (by simp [lasting.2.2])
  have next : exec i s = .next (finish (advanceQueue (giveResult b { r with code := c.code } false v))) := by
    have unturned : turnDue s = none := by
      unfold turnDue
      split
      · rfl
      · simp [executing, awaited]
    rw [row, comeTo_of_prompt (.inl unturned), result]
  refine ⟨_, next, (finish_now agreed).trans now, fun no_warm => ?_, fun more => ?_, holds agreed⟩
  · refine finish_gives (b := b) (later := b.rest) (f := f) agreed ?_ ?_ ?_ ?_
    · rw [told.host]; exact no_warm
    · rw [told.host]; rfl
    · rw [told.host]; rfl
    · rw [told.host]; exact sending
  · have quiet_moves : Moves (.batch :: ks) (s.atTime t) (g (s.atTime t)) := by
      rw [result]
      exact (moves.mono fun _ => List.mem_cons_of_mem _).trans ((moves_given_of_more more).mono (by simp))
    have kept := quiet_moves.keptBut (ps := ps) t (by rw [result]; exact agreed) parts
      ⟨by simp [lasting.1], by simp [lasting.2.1]⟩ (stored.imp_right fun ⟨a, b, c⟩ => by simp [a, b, c]) quiet
    rwa [result] at kept

end Sys2Proof.Machine
end

section
/-! The self-tests: RUN TEST of the table, the signature check and the converter check (R167, R168, R169). -/

set_option Elab.async false

namespace Sys2Proof.Machine

variable {s u v : State} {n : Nat} {t e : Time} {f : OutFrame} {b : Batch} {c : Command} {low passed signature : Bool}
  {rest : List (ConverterTest × Bool)} {w : Waiter}

/-! ### The signature check -/

def Faults.markTable (active : Bool) (f : Faults) : Faults := { f with tableActive := active }
def Faults.deferCheck (f : Faults) : Faults := { f with checkWaiting := true }
def Faults.checkedAt (at_ : Time) (f : Faults) : Faults := { f with checkWaiting := false, signatureAt := some at_ }
def Faults.converterDueAt (at_ : Time) (f : Faults) : Faults := { f with converterAt := some at_ }

/-- A check that finds what stands changes nothing (R168). -/
theorem checkSignature_of_settled (settled : s.faults.tableActive = !signaturePasses s) : checkSignature s = s := by
  have kept : ∀ a, a = s.faults.tableActive → s.modFaults (Faults.markTable a) = s := by
    rintro a rfl
    rfl
  cases passes : signaturePasses s with
  | true =>
    rw [passes] at settled
    simp only [checkSignature, passes, settled, Bool.not_true, when_false, if_true]
    exact kept false settled.symm
  | false =>
    rw [passes] at settled
    simp only [checkSignature, passes, settled, Bool.not_false, Bool.not_true, when_false]
    exact kept true settled.symm

theorem checkSignature_of_failed (inactive : s.faults.tableActive = false) (fails : signaturePasses s = false) :
    checkSignature s = raise 21 none (s.modFaults (Faults.markTable true)) := by
  simp only [checkSignature, fails, inactive]
  rfl

theorem signatureDue_of_early (early : ∀ e, s.faults.signatureAt = some e → s.now < e) : signatureDue s = s :=
  if_neg (by simp [due_eq_false early])

theorem signatureDue_of_due (set : s.faults.signatureAt = some e) (passed : e ≤ s.now) :
    signatureDue s = if writing s then s.modFaults Faults.deferCheck else periodicSignature s :=
  if_pos (due_eq_true set passed)

theorem periodicSignature_eq (s : State) :
    periodicSignature s = (checkSignature s).modFaults (Faults.checkedAt (s.now + 10000)) := rfl

/-! ### The converter check -/

theorem converterDue_of_early (early : ∀ e, s.faults.converterAt = some e → s.now < e) : converterDue s = s := by
  cases set : s.faults.converterAt with
  | none => simp only [converterDue, set]
  | some e =>
    simp only [converterDue, set]
    exact if_neg (Nat.not_le.2 (early e set))

theorem converterDue_of_due (set : s.faults.converterAt = some e) (passed : e ≤ s.now) :
    converterDue s = requestReferences .periodic (s.modFaults (Faults.converterDueAt (e + 5000))) := by
  simp only [converterDue, set]
  exact if_pos passed

/-! ### The end of the converter test of RUN TEST -/

theorem endConverterCheck_of_settled (settled : s.faults.converterActive = !passed) : endConverterCheck passed s = s := by
  have kept : s.modFaults (Faults.markConverter (!passed)) = s := by rw [← settled]; rfl
  have same : endConverterCheck passed s = s.modFaults (Faults.markConverter (!passed)) := by
    cases passed <;> simp only [endConverterCheck, settled] <;> rfl
  exact same.trans kept

/-- The data of RUN TEST of the table: the signature, the converter, and the evaluators, which always pass. -/
def tableData (signature passed : Bool) : List Byte := [if signature then 0 else 1, if passed then 0 else 1, 0]

theorem afterConverterTest_of_table (s : State) :
    afterConverterTest (.table w signature) passed s = endWait w (doneResult 0x50 (tableData signature passed)) s := by
  have evaluated : testEvaluators s = s := by simp [testEvaluators, evaluatorTest_passes]
  simp only [afterConverterTest, evaluated, evaluatorTest_passes]
  rfl

/-- R167: what the high reference of a table test ends in. -/
theorem referenceConverted_of_table (busy : s.converter.busy = some (.reference true (.table w signature)))
    (first : s.converter.lowResults = (.table w signature, low) :: rest) (range : n ≤ 4095)
    (result : passed = (low && decide (3056 ≤ n ∧ n ≤ 3088))) :
    referenceConverted (min n fullScale) s
      = endWait w (doneResult 0x50 (tableData signature passed))
          (endConverterCheck passed (s.modConverter (Converter.testEnded rest))) := by
  rw [min_fullScale range, referenceConverted_of_high busy first, ← result, afterConverterTest_of_table]

/-- The causes of a converter test touch no instrument, and leave the mark of the cause (R167). -/
theorem raise_converter_keeps (undisputed : s.Undisputed) :
    (raise 5 none s).instruments = s.instruments
      ∧ (raise 5 none s).faults.converterActive = s.faults.converterActive := by
  have left := leaves_noteOccurrence 5 none s
  have counted : (noteOccurrence 5 none s).faults.converterActive = s.faults.converterActive := by
    rw [noteOccurrence_faults]
    unfold countOccurrence
    split
    · rfl
    · split <;> rfl
  have noted : (noteOccurrence 5 none s).Undisputed := by
    unfold State.Undisputed
    rw [show (noteOccurrence 5 none s).levers = s.levers from left.2.2.2 .levers (by decide)]
    exact undisputed
  have confined : confineOccurrence 5 none s = noteFault (occurrence s 5 none).source
      (when ((occurrence s 5 none).reaction != .report)
        (fun x => forEach (circuitsOn x) (confineTrack (occurrence s 5 none).source) x) (noteOccurrence 5 none s)) := rfl
  have moves : Moves fallKinds (noteOccurrence 5 none s) (confineOccurrence 5 none s) := by
    rw [confined]
    exact (Moves.refl.to_when _ fun _ => Moves.refl.to_forEach _ fun k _ => Moves.refl.to_confineTrack _ k).to_noteFault _
  have active : (confineOccurrence 5 none s).faults.converterActive = (noteOccurrence 5 none s).faults.converterActive := by
    rw [confined]
    cases (occurrence s 5 none).reaction != .report with
    | false => rfl
    | true => exact forEach_confineTrack_keeps (φ := Faults.converterActive) noted fun _ _ => rfl
  have agreed : (confineOccurrence 5 none s).Undisputed := moves.undisputed noted
  have after := moves_after_confinement (c := 5) (subject := none) (s := s) rfl
  refine ⟨Eq.trans (after.exactly .instruments) (Eq.trans (moves.exactly .instruments) (left.2.2.2 .instruments (by decide))), ?_⟩
  rw [after.faults_kept agreed]
  exact active.trans counted

theorem endConverterCheck_keeps (undisputed : s.Undisputed) (passed : Bool) :
    (endConverterCheck passed s).instruments = s.instruments
      ∧ (endConverterCheck passed s).faults.converterActive = !passed := by
  cases active : s.faults.converterActive with
  | true =>
    cases passed with
    | true =>
      rw [endConverterCheck_ends active, latchRecord_faults]
      exact ⟨(Moves.refl.to_latchRecord (ks := [.note, .faults]) 5 none).exactly .instruments, rfl⟩
    | false =>
      rw [endConverterCheck_of_settled active]
      exact ⟨rfl, active⟩
  | false =>
    cases passed with
    | true =>
      rw [endConverterCheck_of_settled active]
      exact ⟨rfl, active⟩
    | false =>
      rw [endConverterCheck_begins active]
      obtain ⟨instruments, mark⟩ := raise_converter_keeps (s := s.modFaults (Faults.markConverter true)) undisputed
      exact ⟨instruments, mark⟩

/-! ### The rows -/

/-- The clauses of O54 about RUN TEST of the table, asked for. -/
theorem takes_runTestTable (s : State) (t : Time) (s_open : s.Open) :
    (s.mode = some .unconfigured → Takes (.runTestTable t) s [.result] fun u => u.Refused 0x50 .state)
      ∧ (s.mode ≠ some .unconfigured → s.faults.signatureAt = none ∨ s.store.jobs ≠ [] →
        Takes (.runTestTable t) s [.result] fun u => u.Refused 0x50 .busy)
      ∧ (s.mode ≠ some .unconfigured → s.faults.signatureAt ≠ none → s.store.jobs = [] →
        s.faults.tableActive = !signaturePasses s →
        ∀ test, test = ConverterTest.table .alone (signaturePasses s) →
        Takes (.runTestTable t) s [.converter, .result] fun u =>
          u.host.lastResult = none
            ∧ u.converter = (s.converter.request (.reference false test)).request (.reference true test)) := by
  refine ⟨fun mode => ?_, fun mode busy => ?_, fun mode scheduled no_job settled test named => ?_⟩
  · exact .of_plain_refusal rfl rfl s_open (if_pos mode)
  · refine .of_plain_refusal rfl rfl s_open ((if_neg mode).trans (if_pos ?_))
    rcases busy with none_scheduled | job
    · simp [none_scheduled]
    · simp [show writing (s.atTime t) = true from writing_iff.2 job]
  · subst named
    have free : ¬ ((s.atTime t).faults.signatureAt.isNone || writing (s.atTime t)) = true := by
      have idle : ¬ writing (s.atTime t) = true := fun busy => writing_iff.1 busy no_job
      simp [scheduled, idle]
    have waits : cmdTestTable .alone (s.atTime t)
        = (requestReferences (.table .alone (signaturePasses s)) (s.atTime t), .waits) := by
      have checked := checkSignature_of_settled (s := s.atTime t) settled
      refine (if_neg mode).trans ((if_neg free).trans ?_)
      rw [checked]
      rfl
    exact .of_waits (ks := [.converter]) rfl rfl s_open waits (Moves.refl.to_modConverter _) fun agreed _ =>
      ⟨finish_lastResult agreed, finish_converter agreed⟩

/-- The clauses of O54 about the conversion that ends RUN TEST of the table. -/
theorem takes_tableTest {data : List Byte} (s : State) (t : Time) (undisputed : s.Undisputed) (range : n ≤ 4095)
    (busy : s.converter.busy = some (.reference true (.table w signature)))
    (first : s.converter.lowResults = (.table w signature, low) :: rest)
    (result : passed = (low && decide (3056 ≤ n ∧ n ≤ 3088))) (told : data = tableData signature passed) :
    (w = .alone →
        Takes (.referenceConversionComplete t n) s
          [.tracks, .converter, .levers, .faults, .register, .holds, .timers, .inbound, .outbound,
            .mode, .links, .result] fun u =>
          u.Gave 0x50 data ∧ u.faults.converterActive = !passed)
      ∧ (w = .alone → s.faults.converterActive = !passed →
        Takes (.referenceConversionComplete t n) s [.converter, .result] fun u =>
          u.Gave 0x50 data ∧ u.converter = { s.converter.finish with lowResults := rest })
      ∧ (∀ b c f, w = .batch → s.faults.converterActive = !passed → s.host.warm = none →
        s.host.executing = some b → b.awaited = some c → c.code = 0x50 → s.host.sending = some f →
        ∃ u, exec (.referenceConversionComplete t n) s = .next u ∧ u.now = max s.now t
          ∧ GivenResult b b.rest (doneResult 0x50 data) false s u
          ∧ (b.rest ≠ [] → KeptBut [.converter, .batch] s u)) := by
  subst told
  have ended := referenceConverted_of_table (s := s.atTime t) busy first range result
  refine ⟨?_, ?_, ?_⟩
  · rintro rfl
    obtain ⟨instruments, active⟩ := endConverterCheck_keeps (s := (s.atTime t).modConverter (Converter.testEnded rest))
      undisputed passed
    have moves : Moves (.result :: .converter :: raiseKinds) (s.atTime t) _ :=
      (((Moves.refl (ks := .converter :: raiseKinds)).to_modConverter (Converter.testEnded rest)).to_endConverterCheck
        passed).mono (by simp) |>.trans ((moves_endAlone (q := doneResult 0x50 (tableData signature passed)) rfl _).mono (by simp))
    refine Takes.narrow .instruments rfl (by decide) <| .of_result (f := referenceConverted (min n fullScale)) rfl rfl undisputed
      ended moves fun agreed _ => ⟨(finish_instruments agreed).trans instruments, finish_lastResult agreed, ?_⟩
    rw [finish_faults agreed]
    exact active
  · rintro rfl settled
    have kept := endConverterCheck_of_settled (s := (s.atTime t).modConverter (Converter.testEnded rest)) settled
    rw [kept] at ended
    have moves : Moves [.converter, .result] (s.atTime t) _ :=
      ((Moves.refl (ks := [.converter])).to_modConverter (Converter.testEnded rest)).mono (by simp)
        |>.trans ((moves_endAlone (q := doneResult 0x50 (tableData signature passed)) rfl _).mono (by simp))
    exact .of_result (f := referenceConverted (min n fullScale)) rfl rfl undisputed ended moves fun agreed _ =>
      ⟨finish_lastResult agreed, finish_converter agreed⟩
  · rintro b c f rfl settled no_warm executing awaited code sending
    have kept := endConverterCheck_of_settled (s := (s.atTime t).modConverter (Converter.testEnded rest)) settled
    rw [kept] at ended
    obtain ⟨u, next, now, given, same, -⟩ := resumes_row (i := .referenceConversionComplete t n) (P := fun _ => True) (g := referenceConverted (min n fullScale))
      (v := (s.atTime t).modConverter (Converter.testEnded rest)) (ks := [.converter]) (ps := [.converter, .batch]) f rfl undisputed
      executing awaited sending (fun _ => by rw [code]; rfl) ended (Moves.refl.to_modConverter _) ⟨rfl, rfl⟩ fun _ => trivial
    have named : { doneResult 0x50 (tableData signature passed) with code := c.code }
        = doneResult 0x50 (tableData signature passed) := by rw [code]; rfl
    exact ⟨u, next, now, named ▸ given no_warm, same⟩

/-- The clauses of O54 about a signature check that is due. -/
theorem takes_signatureCheck (s : State) (t : Time) (undisputed : s.Undisputed) (set : s.faults.signatureAt = some e)
    (passed : e ≤ max s.now t) :
    (s.store.jobs ≠ [] →
        Takes (.signatureCheckDue t) s [.faults] fun u => u.faults = { s.faults with checkWaiting := true })
      ∧ (s.store.jobs = [] → s.faults.tableActive = !signaturePasses s →
        Takes (.signatureCheckDue t) s [.faults] fun u =>
          u.faults = { s.faults with checkWaiting := false, signatureAt := some (max s.now t + 10000) })
      ∧ (s.store.jobs = [] → s.faults.tableActive = false → signaturePasses s = false →
        s.faults.find 21 none = none → s.faults.records.length < 32 →
        reactionOf s 21 ≠ .suspend ∨ s.mode ≠ some .service →
        Takes (.signatureCheckDue t) s [.faults, .register] fun u =>
          u.faults.tableActive = true ∧ u.faults.signatureAt = some (max s.now t + 10000)
            ∧ u.faults.records = s.faults.records ++ [⟨21, none, true, 1, s.register.day,
                s.register.tenths, s.register.day, s.register.tenths, reactionOf s 21⟩]
            ∧ u.register = s.register.append (.faultRaised 21 none (reactionOf s 21) 1)) := by
  have due := signatureDue_of_due (s := s.atTime t) set passed
  refine ⟨fun job => ?_, fun no_job settled => ?_, fun no_job inactive fails absent room calm => ?_⟩
  · exact .of_result (ks := [.faults]) rfl rfl undisputed
      (due.trans (if_pos (writing_iff.2 job : writing (s.atTime t) = true)))
      (Moves.refl.to_modFaults Faults.deferCheck) fun agreed _ => finish_faults agreed
  all_goals have idle : ¬ writing (s.atTime t) = true := fun busy => writing_iff.1 busy no_job
  · have effect := due.trans ((if_neg idle).trans (periodicSignature_eq (s.atTime t)))
    rw [checkSignature_of_settled (s := s.atTime t) settled] at effect
    exact .of_result (ks := [.faults]) rfl rfl undisputed effect
      (Moves.refl.to_modFaults (Faults.checkedAt (max s.now t + 10000))) fun agreed _ => finish_faults agreed
  · have made := occurrence_of_absent (s := (s.atTime t).modFaults (Faults.markTable true)) (c := 21) (subject := none)
      absent room
    have raised := raise_of_unconfined (s := (s.atTime t).modFaults (Faults.markTable true)) (c := 21) (subject := none)
      (by decide) (fun _ _ => rfl) (calm.imp_left fun other same => other ((congrArg Occurrence.reaction made).symm.trans same))
    obtain ⟨faults, register⟩ := noteOccurrence_new (s := (s.atTime t).modFaults (Faults.markTable true)) (c := 21)
      (subject := none) absent room (rfl : reactionOf ((s.atTime t).modFaults (Faults.markTable true)) 21 = _)
    have effect := due.trans ((if_neg idle).trans (periodicSignature_eq (s.atTime t)))
    have moves : Moves raiseKinds (s.atTime t) _ :=
      ((Moves.refl (s := s.atTime t)).to_checkSignature.to_modFaults (Faults.checkedAt (max s.now t + 10000)))
    have checked := (checkSignature_of_failed (s := s.atTime t) inactive fails).trans raised
    rw [checked] at effect moves
    refine .of_leaves rfl rfl undisputed effect moves ?_ fun agreed _ => ?_
    · exact ((((leaves_modFaults _ _).mono (by simp)).trans ((leaves_noteOccurrence 21 none _).mono (by simp))).trans
        ((leaves_raiseKey _ _ _).mono (by simp))).trans ((leaves_modFaults _ _).mono (by simp))
    · rw [finish_faults agreed, finish_register agreed]
      exact ⟨(congrArg Faults.tableActive faults).trans rfl, rfl, (congrArg Faults.records faults).trans rfl,
        Eq.trans rfl (register.trans rfl)⟩

/-- Settles O54: the command, the conversion that ends it, and the two periodic checks. -/
theorem selfTestsAreMadeAtTheirTimes : Obligations.SelfTestsAreMadeAtTheirTimes := by
  unfold Obligations.SelfTestsAreMadeAtTheirTimes
  rintro s t n rfl
  refine ⟨fun s_open => (takes_runTestTable s t s_open).1, fun s_open => (takes_runTestTable s t s_open).2.1,
    fun s_open => (takes_runTestTable s t s_open).2.2,
    fun w signature low passed rest v data undisputed range busy first result told =>
      takes_tableTest s t undisputed range busy first result told,
    fun undisputed early => ?_, fun e undisputed set passed => takes_signatureCheck s t undisputed set passed,
    fun undisputed early => ?_, fun e undisputed set passed => ?_⟩
  · exact .of_idle rfl rfl undisputed (signatureDue_of_early (s := s.atTime t) early) fun _ => trivial
  · exact .of_idle rfl rfl undisputed (converterDue_of_early (s := s.atTime t) early) fun _ => trivial
  · exact .of_result (ks := [.faults, .converter]) rfl rfl undisputed (converterDue_of_due (s := s.atTime t) set passed)
      ((Moves.refl.to_modFaults (Faults.converterDueAt (e + 5000))).to_modConverter _) fun agreed _ =>
      ⟨finish_faults agreed, finish_converter agreed⟩

end Sys2Proof.Machine
end

section
/-! The inbound line: its coils, its settles and its arrival sequence (R116, R119 to R124). -/

set_option Elab.async false

namespace Sys2Proof.Machine

variable {s u v : State} {c j k n : Nat} {x y : CommPos} {st new : LineState} {ks : List Kind} {g : Inbound → Inbound}

/-! ### Single records changed -/

/-- One record of a list changed, as it is read. -/
theorem inb_of_modAt (changed : u.inbound = modAt s.inbound {} k g) (here : within k s.inbound.length = true) :
    u.inb k = g (s.inb k) := by
  rw [State.inb, changed, nth_modAt, if_pos ⟨rfl, here⟩]
  rfl

theorem otherInbound_of_modAt (changed : u.inbound = modAt s.inbound {} k g) : OtherInbound k s u := by
  intro j other
  rw [State.inb, changed, nth_modAt, if_neg fun h => other h.1]
  rfl

theorem OtherInbound.trans (h : OtherInbound k s u) (i : OtherInbound k u v) : OtherInbound k s v :=
  fun j other => (i j other).trans (h j other)

/-! ### Coils (R116, R121, R122) -/

theorem evalCoils_inb (here : within k s.inbound.length = true) :
    (evalCoils k s).inb k = (s.inb k).withCoils (coilsFor s k) := inb_of_modAt (evalCoils_inbound k s) here

theorem evalCoils_other (k : Nat) (s : State) : OtherInbound k s (evalCoils k s) := otherInbound_of_modAt (evalCoils_inbound k s)

theorem moves_evalCoils (k : Nat) (s : State) : Moves [.note, .inb] s (evalCoils k s) := Moves.refl.to_evalCoils k

theorem evalCoils_register (k : Nat) (s : State) : (evalCoils k s).register = s.register := (moves_evalCoils k s).exactly .register

theorem evalCoils_faults (k : Nat) (s : State) : (evalCoils k s).faults = s.faults := (moves_evalCoils k s).exactly .faults

theorem evalCoils_link (k j : Nat) (s : State) : (evalCoils k s).link j = s.link j :=
  congrArg (fun l : List Link => nth l {} j) ((moves_evalCoils k s).exactly .links)

theorem evalCoils_length (k : Nat) (s : State) : (evalCoils k s).inbound.length = s.inbound.length := by
  rw [evalCoils_inbound, length_modAt]

theorem coilsFor_of_unknown (unknown : presented s k = .unknown) : coilsFor s k = ⟨false, false⟩ := by
  simp only [coilsFor, unknown]

theorem coilsFor_of_moving (moving : presented s k = .moving) : coilsFor s k = (s.inb k).permission := by
  simp only [coilsFor, moving]

theorem coilsFor_of_rest (rests : presented s k = .rest x) (state : (s.inb k).state = some st) :
    coilsFor s k = if s.blockMode = .unconfigured then ⟨false, false⟩
      else if x ≠ st.handle then coilsNeeded x st.handle
      else if (s.inb k).forcedConfinement ≠ [] then ⟨x == .c, false⟩
      else coilsAt s k s.blockMode x := by
  simp only [coilsFor, rests, state]

/-- R122: out of SERVICE and UNCONFIGURED only K1 at C and K2 at B. -/
theorem coilsAt_of_outside (configured : s.blockMode ≠ .unconfigured) (outside : s.blockMode ≠ .service) (x : CommPos) :
    coilsAt s k s.blockMode x
      = match x with
        | .c => ⟨true, false⟩
        | .b => ⟨false, !singleBarred s k⟩
        | .o => ⟨false, false⟩ := by
  cases mode : s.blockMode with
  | service => exact absurd mode outside
  | unconfigured => exact absurd mode configured
  | _ => cases x <;> rfl

theorem singleBarred_iff : singleBarred s k = false ↔ s.isSingle k = false ∨ (s.outb k).state = some .blocked := by
  cases single : s.isSingle k <;> simp [singleBarred, single]

theorem homeNormal_iff : homeNormal s k = true
    ↔ ∀ h, (s.tables.inb k).home = some h → (s.lever h).current = .normal ∧ (s.lever h).settled = some .normal := by
  cases home : (s.tables.inb k).home with
  | none => simp [homeNormal, home]
  | some h => simp [homeNormal, home]

theorem acceptanceControl_iff : acceptanceControl s k = true
    ↔ (s.inb k).offered ≠ none ∧ (∀ j ∈ (s.tables.inb k).clearingPoint, (s.circuit j).state = .clear)
      ∧ (∀ h, (s.tables.inb k).home = some h → (s.lever h).current = .normal ∧ (s.lever h).settled = some .normal)
      ∧ (s.link k).lost = false ∧ (s.link k).state ≠ .outOfUse
      ∧ (s.isSingle k = false ∨ (s.outb k).state = some .blocked) := by
  rw [← homeNormal_iff, ← singleBarred_iff]
  simp [acceptanceControl, State.allClear, Option.isSome_iff_ne_none, and_assoc]

/-- What the clauses of O43 say of coils evaluated at rest, in a line state. -/
theorem coils_at_rest {coils : Coils} (rests : presented s k = .rest x) (state : (s.inb k).state = some st)
    (told : coils = coilsFor s k) :
    (s.blockMode = .unconfigured → coils = ⟨false, false⟩)
      ∧ (s.blockMode ≠ .unconfigured → x ≠ st.handle → coils = coilsNeeded x st.handle)
      ∧ (s.blockMode ≠ .unconfigured → x = st.handle →
        ((s.inb k).forcedConfinement ≠ [] → coils = ⟨decide (st = .clear), false⟩)
          ∧ ((s.inb k).forcedConfinement = [] →
            ((s.blockMode = .service →
                (st = .clear → coils = ⟨true, true⟩)
                  ∧ (st = .occupied → coils = ⟨false, decide ((s.inb k).sequence = .complete)⟩)
                  ∧ (st = .blocked →
                    (coils.k1 = true ↔ (s.inb k).offered ≠ none
                      ∧ (∀ j ∈ (s.tables.inb k).clearingPoint, (s.circuit j).state = .clear)
                      ∧ (∀ h, (s.tables.inb k).home = some h →
                        (s.lever h).current = .normal ∧ (s.lever h).settled = some .normal)
                      ∧ (s.link k).lost = false ∧ (s.link k).state ≠ .outOfUse
                      ∧ (s.isSingle k = false ∨ (s.outb k).state = some .blocked))
                    ∧ (coils.k2 = true ↔ s.isSingle k = false ∨ (s.outb k).state = some .blocked)))
              ∧ (s.blockMode ≠ .service →
                (st = .clear → coils = ⟨true, false⟩)
                  ∧ (st = .occupied → coils = ⟨false, false⟩)
                  ∧ (st = .blocked → coils.k1 = false
                    ∧ (coils.k2 = true ↔ s.isSingle k = false ∨ (s.outb k).state = some .blocked)))))) := by
  rw [coilsFor_of_rest rests state] at told
  refine ⟨fun mode => told.trans (if_pos mode), fun mode apart => told.trans ((if_neg mode).trans (if_pos apart)),
    fun mode stands => ?_⟩
  have told := told.trans ((if_neg mode).trans (if_neg (not_not.2 stands)))
  refine ⟨fun confined => ?_, fun free => ⟨fun service => ?_, fun outside => ?_⟩⟩
  · rw [told, if_pos confined, stands]
    cases st <;> rfl
  · have told := told.trans (if_neg (not_not.2 free))
    rw [service, stands] at told
    refine ⟨?_, ?_, ?_⟩
    · rintro rfl
      exact told
    · rintro rfl
      rw [told]
      rfl
    · rintro rfl
      rw [told, ← acceptanceControl_iff, ← singleBarred_iff]
      exact ⟨Iff.rfl, by simp [LineState.handle, coilsAt]⟩
  · have told := told.trans (if_neg (not_not.2 free))
    rw [coilsAt_of_outside mode outside, stands] at told
    refine ⟨?_, ?_, ?_⟩
    · rintro rfl
      exact told
    · rintro rfl
      exact told
    · rintro rfl
      rw [told, ← singleBarred_iff]
      exact ⟨rfl, by simp [LineState.handle]⟩

/-! ### Departures (R116) -/

def Inbound.departed (i : Inbound) : Inbound := { i with permission := i.coils }

theorem changeInb_inb (here : within k s.inbound.length = true) : (changeInb k g s).inb k = g (s.inb k) :=
  inb_of_modAt (changeInb_inbound k g s) here

theorem changeInb_length (k : Nat) (g : Inbound → Inbound) (s : State) : (changeInb k g s).inbound.length = s.inbound.length := by
  rw [changeInb_inbound, length_modAt]

theorem moves_changeInb (k : Nat) (g : Inbound → Inbound) (s : State) : Moves [.note, .inb] s (changeInb k g s) :=
  Moves.refl.to_changeInb k g

theorem presented_of_moves (moves : Moves ks s u) (away : ∀ a ∈ ks, Part.instruments ∉ a.parts ∧ Part.boards ∉ a.parts := by decide)
    (k : Nat) : presented u k = presented s k := by
  have instrument : u.instrument k = s.instrument k :=
    congrArg (fun l : List Instrument => nth l {} k) (moves.exactly .instruments fun a mem => (away a mem).1)
  have board : u.board (8 + k) = s.board (8 + k) :=
    congrArg (fun l : List Board => nth l {} (8 + k)) (moves.exactly .boards fun a mem => (away a mem).2).1
  unfold presented
  rw [instrument, board]

theorem takeDeparture_eq (k : Nat) (s : State) : takeDeparture k s = evalCoils k (changeInb k Inbound.departed s) := rfl

theorem departure_spec (here : within k s.inbound.length = true) :
    ((takeDeparture k s).inb k).permission = (s.inb k).coils ∧ OtherInbound k s (takeDeparture k s)
      ∧ (takeDeparture k s).inb k
        = { s.inb k with permission := (s.inb k).coils, coils := ((takeDeparture k s).inb k).coils }
      ∧ (presented s k = .moving → ((takeDeparture k s).inb k).coils = (s.inb k).coils) := by
  have changed : (changeInb k Inbound.departed s).inb k = (s.inb k).departed := changeInb_inb here
  have own : (takeDeparture k s).inb k = ((s.inb k).departed).withCoils (coilsFor (changeInb k Inbound.departed s) k) := by
    rw [takeDeparture_eq, evalCoils_inb (by rwa [changeInb_length]), changed]
  refine ⟨by rw [own]; rfl,
    (otherInbound_of_modAt (changeInb_inbound k Inbound.departed s)).trans (evalCoils_other k _), by rw [own]; rfl,
    fun moving => ?_⟩
  have moving := (presented_of_moves (moves_changeInb k Inbound.departed s) (by decide) k).trans moving
  rw [own, coilsFor_of_moving moving, changed]
  rfl

end Sys2Proof.Machine
end

section
/-! Settles of a commutator (R116, R119, R120, R134). -/

set_option Elab.async false

namespace Sys2Proof.Machine

variable {s u v : State} {c j k n : Nat} {x y : CommPos} {st new : LineState} {ks : List Kind} {g : Inbound → Inbound} {now : Time}

/-! ### Changes of the inbound record -/

def Inbound.handled (y : CommPos) (i : Inbound) : Inbound := { i with handle := some y, permission := {} }

/-- The record after a move, at a time (R119). -/
def Inbound.movedAt (new : LineState) (now : Time) (i : Inbound) : Inbound := { i.moveTo new with lastChange := some now }

def Inbound.unforced (i : Inbound) : Inbound := { i with forcedActive := false }
def Inbound.forced (i : Inbound) : Inbound := { i with forcedActive := true }

def Inbound.agreeing (i : Inbound) : Inbound := { i with disagreeSince := none, disagreeAt := none, disagreeActive := false }

def Inbound.differing (now : Time) (heartbeat : Nat) (i : Inbound) : Inbound :=
  { i with disagreeSince := some now, disagreeAt := some (now + 2 * heartbeat * 1000) }

/-- The record after a comparison with the far view (R132). -/
def Inbound.crossed (now : Time) (heartbeat : Nat) (i : Inbound) : Inbound :=
  if i.farView = none ∨ i.state = none ∨ i.farView = i.state then i.agreeing
  else if i.disagreeSince.isSome then i
  else i.differing now heartbeat

/-- A comparison changes what it times alone. -/
theorem Inbound.crossed_eq (now : Time) (heartbeat : Nat) (i : Inbound) :
    ∃ since at_ active, i.crossed now heartbeat
      = { i with disagreeSince := since, disagreeAt := at_, disagreeActive := active } := by
  unfold crossed
  split
  · exact ⟨_, _, _, rfl⟩
  · split
    · exact ⟨_, _, _, rfl⟩
    · exact ⟨_, _, _, rfl⟩

theorem moves_crossCheck (k : Nat) (s : State) : Moves [.note, .record, .inb, .faults] s (crossCheck k s) :=
  Moves.refl.to_crossCheck k

theorem crossCheck_inbound (k : Nat) (s : State) :
    (crossCheck k s).inbound = modAt s.inbound {} k (Inbound.crossed s.now (s.tables.link k).heartbeat) := by
  by_cases agrees : (s.inb k).farView = none ∨ (s.inb k).state = none ∨ (s.inb k).farView = (s.inb k).state
  · have cleared (b : Bool) (w : State) : (when b (removeSelfClearing 19 (some k)) w).inbound = w.inbound :=
      ((Moves.refl (ks := [.note, .record, .faults])).to_when b fun _ => Moves.refl.to_removeSelfClearing 19 (some k)).exactly .inbound
    have same : (s.inb k).crossed s.now (s.tables.link k).heartbeat = (s.inb k).agreeing := if_pos agrees
    have checked : (crossCheck k s).inbound = modAt s.inbound {} k Inbound.agreeing := by
      simp only [crossCheck]
      rw [if_pos agrees]
      exact cleared _ _
    exact checked.trans (modAt_congr same.symm)
  · by_cases timed : (s.inb k).disagreeSince.isSome = true
    · have same : (s.inb k).crossed s.now (s.tables.link k).heartbeat = s.inb k := (if_neg agrees).trans (if_pos timed)
      have checked : crossCheck k s = s := (if_neg agrees).trans (if_pos timed)
      exact (congrArg State.inbound checked).trans (modAt_self s.inbound {} k _ same).symm
    · have same : (s.inb k).crossed s.now (s.tables.link k).heartbeat
          = (s.inb k).differing s.now (s.tables.link k).heartbeat := (if_neg agrees).trans (if_neg timed)
      have checked : crossCheck k s = s.modInb k (Inbound.differing s.now (s.tables.link k).heartbeat) :=
        (if_neg agrees).trans (if_neg timed)
      exact (congrArg State.inbound checked).trans (modAt_congr same.symm)

/-- With no disagreement standing, a comparison makes no entry (R132). -/
theorem crossCheck_register (none_stands : (s.inb k).disagreeActive = false) : (crossCheck k s).register = s.register := by
  simp only [crossCheck, none_stands, when_false]
  split
  · rfl
  · split
    · rfl
    · rfl

/-- The record as `setInbound` leaves it: the line state taken, the far view compared, the coils evaluated. -/
theorem setInbound_inbound (k : Nat) (new : LineState) (s : State) :
    ∃ coils heartbeat, (setInbound k new s).inbound
      = modAt s.inbound {} k fun i => ((i.movedAt new s.now).crossed s.now heartbeat).withCoils coils := by
  have later (w : State) (line : Nat) (e : Event) (g : Link → Link) :
      ((evaluateLine line (append e w)).modLink k g).inbound = w.inbound :=
    (((Moves.refl (ks := [.note, .record, .evaluate])).to_append e).to_evaluateLine line).exactly .inbound
  simp only [setInbound]
  rw [evalCoils_inbound, later, crossCheck_inbound, changeInb_inbound, modAt_modAt, modAt_modAt]
  have now : (changeInb k (fun i => { i.moveTo new with lastChange := some s.now }) s).now = s.now :=
    (moves_changeInb k _ s).now_eq
  rw [now]
  exact ⟨_, _, rfl⟩

theorem moves_setInbound (k : Nat) (new : LineState) (s : State) :
    Moves [.note, .record, .evaluate, .inb, .link, .faults] s (setInbound k new s) := Moves.refl.to_setInbound k new

/-- A link with an indication due (R142). -/
def Link.owing (l : Link) : Link := { l with indicationDue := true }

/-- The part between the comparison and the entry of a line's new state (R119). -/
def comparedInbound (k : Nat) (new : LineState) (s : State) : State :=
  crossCheck k (changeInb k (Inbound.movedAt new s.now) s)

theorem setInbound_eq (k : Nat) (new : LineState) (s : State) :
    setInbound k new s
      = evalCoils k ((evaluateLine (2 * k - 1) (append
          (.lineState (2 * k - 1) (s.inb k).state new ((comparedInbound k new s).inb k).accepted)
          (comparedInbound k new s))).modLink k Link.owing) := rfl

theorem comparedInbound_inb (here : within k s.inbound.length = true) :
    ∃ heartbeat, (comparedInbound k new s).inb k = ((s.inb k).movedAt new s.now).crossed s.now heartbeat := by
  have now : (changeInb k (Inbound.movedAt new s.now) s).now = s.now := (moves_changeInb k _ s).now_eq
  have changed : (changeInb k (Inbound.movedAt new s.now) s).inb k = (s.inb k).movedAt new s.now := changeInb_inb here
  refine ⟨((changeInb k (Inbound.movedAt new s.now) s).tables.link k).heartbeat, ?_⟩
  rw [comparedInbound, inb_of_modAt (crossCheck_inbound k _) (by rwa [changeInb_length]), changed, now]

/-- The entry of a line's new state (R119). -/
theorem setInbound_register (here : within k s.inbound.length = true) (none_stands : (s.inb k).disagreeActive = false)
    (kept : ((s.inb k).moveTo new).disagreeActive = (s.inb k).disagreeActive) :
    (setInbound k new s).register
      = s.register.append (.lineState (2 * k - 1) (s.inb k).state new ((s.inb k).moveTo new).accepted) := by
  have later (w : State) : (evalCoils k ((evaluateLine (2 * k - 1) w).modLink k Link.owing)).register = w.register :=
    ((((Moves.refl (ks := [.evaluate, .link, .note, .inb])).to_evaluateLine _).to_modLink k Link.owing).to_evalCoils
      k).exactly .register
  have changed : (changeInb k (Inbound.movedAt new s.now) s).inb k = (s.inb k).movedAt new s.now := changeInb_inb here
  have compared : (comparedInbound k new s).register = s.register :=
    (crossCheck_register (by rw [changed]; exact kept.trans none_stands)).trans ((moves_changeInb k _ s).exactly .register)
  obtain ⟨heartbeat, own⟩ := comparedInbound_inb (new := new) here
  obtain ⟨since, at_, active, crossed⟩ := ((s.inb k).movedAt new s.now).crossed_eq s.now heartbeat
  have accepted : ((comparedInbound k new s).inb k).accepted = ((s.inb k).moveTo new).accepted := by
    rw [own, crossed]
    rfl
  rw [setInbound_eq, later, accepted, ← compared]
  rfl

/-- A new state of the line makes an indication due (R119, R142). -/
theorem setInbound_owes (links : within k s.links.length = true) : ((setInbound k new s).link k).indicationDue = true := by
  have moved (w : State) (e : Event) : (evaluateLine (2 * k - 1) (append e w)).links = w.links :=
    (((Moves.refl (ks := [.note, .record, .evaluate])).to_append e).to_evaluateLine _).exactly .links
  have before : (comparedInbound k new s).links = s.links :=
    Eq.trans ((moves_crossCheck k _).exactly .links) ((moves_changeInb k _ s).exactly .links)
  rw [setInbound_eq, evalCoils_link, State.link_modLink_same]
  · rfl
  · rwa [moved, before]

/-! ### The four judgements (R116) -/

theorem takeSettle_first (state : (s.inb k).state = none) :
    takeSettle k y s = evalCoils k (setInbound k y.line (s.modInb k (Inbound.handled y))) := by
  simp only [takeSettle, state]
  rfl

section
variable (state : (s.inb k).state = some st)
include state

theorem takeSettle_noMove (judged : judge ((s.inb k).handle.getD y) y st.handle (s.inb k).permission = .noMove) :
    takeSettle k y s = evalCoils k (s.modInb k (Inbound.handled y)) := by
  simp only [takeSettle, state, judged]
  rfl

theorem takeSettle_restored (judged : judge ((s.inb k).handle.getD y) y st.handle (s.inb k).permission = .restored) :
    takeSettle k y s = evalCoils k (endForced k (s.modInb k (Inbound.handled y))) := by
  simp only [takeSettle, state, judged]
  rfl

theorem takeSettle_permitted (judged : judge ((s.inb k).handle.getD y) y st.handle (s.inb k).permission = .permitted) :
    takeSettle k y s = evalCoils k (setInbound k y.line (s.modInb k (Inbound.handled y))) := by
  simp only [takeSettle, state, judged]
  rfl

theorem takeSettle_forced (judged : judge ((s.inb k).handle.getD y) y st.handle (s.inb k).permission = .forced) :
    takeSettle k y s = evalCoils k (beginForced k (s.modInb k (Inbound.handled y))) := by
  simp only [takeSettle, state, judged]
  rfl

end

theorem endForced_inbound (k : Nat) (s : State) : (endForced k s).inbound = modAt s.inbound {} k Inbound.unforced := by
  unfold endForced
  split
  · exact (Moves.refl.to_latchRecord (ks := [.note, .faults]) 15 (some k)).exactly .inbound
  · next inactive =>
    refine (modAt_self s.inbound {} k _ ?_).symm
    have inactive : (s.inb k).forcedActive = false := by simpa using inactive
    exact (congrArg (fun a => { s.inb k with forcedActive := a }) inactive.symm).trans rfl

theorem endForced_register (k : Nat) (s : State) : (endForced k s).register = s.register :=
  ((Moves.refl (ks := [.note, .inb, .faults])).to_endForced k).exactly .register

/-! ### A forced settle (R120) -/

/-- What a confinement, and a restriction of the mode, leave of a record whose permission held is none. -/
structure Inbound.SameMove (i j : Inbound) : Prop where
  state : j.state = i.state
  handle : j.handle = i.handle
  active : j.forcedActive = i.forcedActive
  permission : i.permission = ⟨false, false⟩ → j.permission = ⟨false, false⟩

theorem Inbound.SameMove.refl (i : Inbound) : i.SameMove i := ⟨rfl, rfl, rfl, id⟩

theorem Inbound.SameMove.trans {i j l : Inbound} (h : i.SameMove j) (m : j.SameMove l) : i.SameMove l :=
  ⟨m.state.trans h.state, m.handle.trans h.handle, m.active.trans h.active, fun none => m.permission (h.permission none)⟩

theorem sameMove_of_modAt (changed : u.inbound = modAt s.inbound {} n g) (same : ∀ i, Inbound.SameMove i (g i)) (k : Nat) :
    (s.inb k).SameMove (u.inb k) := by
  rw [State.inb, State.inb, changed, nth_modAt]
  split
  · next own => rw [own.1]; exact same _
  · exact .refl _

def Inbound.cut (c : Coils) (i : Inbound) : Inbound := { i with permission := i.permission.both c }

theorem sameMove_evalCoils (n : Nat) (s : State) (k : Nat) : (s.inb k).SameMove ((evalCoils n s).inb k) :=
  sameMove_of_modAt (g := Inbound.withCoils (coilsFor s n)) (evalCoils_inbound n s) (fun _ => ⟨rfl, rfl, rfl, id⟩) k

theorem sameMove_cutPermission (n : Nat) (c : Coils) (s : State) (k : Nat) : (s.inb k).SameMove ((cutPermission n c s).inb k) := by
  have cut : (s.inb k).SameMove ((changeInb n (Inbound.cut c) s).inb k) := by
    refine sameMove_of_modAt (g := Inbound.cut c) (changeInb_inbound n _ s) (fun i => ⟨rfl, rfl, rfl, fun none => ?_⟩) k
    simp [Inbound.cut, none, Coils.both]
  exact cut.trans (sameMove_evalCoils n _ k)

def Inbound.confinedBy (c : Nat) (i : Inbound) : Inbound := { i with forcedConfinement := addSource c i.forcedConfinement }

theorem sameMove_confineForced (c n : Nat) (s : State) (k : Nat) : (s.inb k).SameMove ((confineForced c n s).inb k) := by
  simp only [confineForced]
  have added : (s.inb k).SameMove ((s.modInb n (Inbound.confinedBy c)).inb k) :=
    sameMove_of_modAt (g := Inbound.confinedBy c) rfl (fun _ => ⟨rfl, rfl, rfl, id⟩) k
  split
  · exact added
  · exact added.trans (sameMove_cutPermission ..)

theorem sameMove_takeRestriction (m : Mode) (s : State) (k : Nat) : (s.inb k).SameMove ((takeRestriction m s).inb k) := by
  have restricted : (evaluateAll (endReleasesForMode (takeMode m s))).inb k = s.inb k :=
    congrArg (fun l : List Inbound => nth l {} k) ((leaves_restrict m s).2.2.2 .inbound (by decide))
  have told (b : Bool) (w : State) : (when b modeToLinks w).inb k = w.inb k :=
    congrArg (fun l : List Inbound => nth l {} k)
      (((Moves.refl (ks := [.link])).to_when b fun _ => Moves.refl.to_modeToLinks).exactly .inbound)
  have cut : ∀ ns w, (s.inb k).SameMove (w.inb k) →
      (s.inb k).SameMove ((forEach ns (fun n v => cutPermission n (keptByMode v n) v) w).inb k) := fun ns =>
    forEach_keeps (I := fun v => (s.inb k).SameMove (v.inb k)) ns
      fun n _ v same => same.trans (sameMove_cutPermission n _ v k)
  have same : (s.inb k).SameMove ((evaluateAll (endReleasesForMode (takeMode m s))).inb k) := by
    rw [restricted]
    exact .refl _
  have restriction : (takeRestriction m s).inb k
      = (forEach (upTo 3) (fun n v => cutPermission n (keptByMode v n) v)
        (evaluateAll (endReleasesForMode (takeMode m s)))).inb k := told _ _
  rw [restriction]
  exact cut _ _ same

theorem sameMove_raise_forced (n : Nat) (s : State) (k : Nat) : (s.inb k).SameMove ((raise 15 (some n) s).inb k) := by
  have noted : (noteOccurrence 15 (some n) s).inb k = s.inb k :=
    congrArg (fun l : List Inbound => nth l {} k) ((leaves_noteOccurrence 15 (some n) s).2.2.2 .inbound (by decide))
  have confined : (s.inb k).SameMove ((tellOccurrence 15 (some n) s).inb k) := by
    have told : (tellOccurrence 15 (some n) s).inb k
        = (when ((occurrence s 15 (some n)).reaction != .report)
            (confineForced (occurrence s 15 (some n)).source n) (noteOccurrence 15 (some n) s)).inb k :=
      congrArg (fun l : List Inbound => nth l {} k)
        (((Moves.refl (ks := [.note, .record])).to_noteFault _ |>.to_when _ fun _ => Moves.refl.to_append _).exactly .inbound)
    rw [told]
    cases (occurrence s 15 (some n)).reaction != .report with
    | false => exact noted.symm ▸ .refl _
    | true => exact noted ▸ sameMove_confineForced _ n (noteOccurrence 15 (some n) s) k
  rw [raise_eq]
  cases suspends (occurrence s 15 (some n)) (tellOccurrence 15 (some n) s) with
  | false => exact confined
  | true => exact confined.trans (sameMove_takeRestriction ..)

theorem beginForced_inb (here : within k s.inbound.length = true) :
    ((s.inb k).forced).SameMove ((beginForced k s).inb k) := by
  unfold beginForced
  split
  · next active =>
    have same : (s.inb k).forced = s.inb k := (congrArg (fun a => { s.inb k with forcedActive := a }) active.symm).trans rfl
    exact same ▸ .refl _
  · have marked : (s.modInb k Inbound.forced).inb k = (s.inb k).forced := State.inb_modInb_same s k _ here
    exact marked ▸ sameMove_raise_forced k (s.modInb k Inbound.forced) k

end Sys2Proof.Machine
end

section
/-! What a settle makes of the inbound record, and the arrival sequence (R116, R119, R120, R124). -/

set_option Elab.async false

namespace Sys2Proof.Machine

variable {s u v : State} {c j k n : Nat} {x y : CommPos} {st new : LineState} {old next : TrackState}

theorem Inbound.moveTo_eq (i : Inbound) (new : LineState) :
    ∃ state offered accepted sequence released, i.moveTo new
      = { i with state := state, offered := offered, accepted := accepted, sequence := sequence, released := released } := by
  unfold moveTo
  split
  · split <;> exact ⟨_, _, _, _, _, rfl⟩
  · split <;> exact ⟨_, _, _, _, _, rfl⟩

theorem Inbound.moveTo_state {i : Inbound} (other : i.state ≠ some new) : (i.moveTo new).state = some new := by
  unfold moveTo
  cases state : i.state with
  | none => cases new <;> rfl
  | some old => cases old <;> cases new <;> first | rfl | exact absurd state other

/-- The record that a permitted move, or a first settle, leaves but for what the comparison times and the coils. -/
theorem takeSettle_moves (here : within k s.inbound.length = true)
    (moves : takeSettle k y s = evalCoils k (setInbound k y.line (s.modInb k (Inbound.handled y)))) :
    (∃ since at_ active coils, (takeSettle k y s).inb k
        = { ((s.inb k).handled y).moveTo y.line with
            lastChange := some s.now, disagreeSince := since, disagreeAt := at_, disagreeActive := active, coils := coils })
      ∧ OtherInbound k s (takeSettle k y s) := by
  have handled : (s.modInb k (Inbound.handled y)).inb k = (s.inb k).handled y := State.inb_modInb_same s k _ here
  obtain ⟨coils, heartbeat, inbound⟩ := setInbound_inbound k y.line (s.modInb k (Inbound.handled y))
  have length : (s.modInb k (Inbound.handled y)).inbound.length = s.inbound.length := length_modAt ..
  have set := inb_of_modAt inbound (by rwa [length])
  have set_length : (setInbound k y.line (s.modInb k (Inbound.handled y))).inbound.length = s.inbound.length := by
    rw [inbound, length_modAt, length]
  rw [handled] at set
  refine ⟨?_, ?_⟩
  · obtain ⟨since, at_, active, crossed⟩ := (((s.inb k).handled y).movedAt y.line s.now).crossed_eq s.now heartbeat
    refine ⟨since, at_, active, coilsFor (setInbound k y.line (s.modInb k (Inbound.handled y))) k, ?_⟩
    rw [moves, evalCoils_inb (by rwa [set_length]), set]
    exact (congrArg (fun i : Inbound => (i.withCoils coils).withCoils
      (coilsFor (setInbound k y.line (s.modInb k (Inbound.handled y))) k)) crossed).trans rfl
  · rw [moves]
    exact ((otherInbound_of_modAt (rfl : (s.modInb k (Inbound.handled y)).inbound = _)).trans
      (otherInbound_of_modAt inbound)).trans (evalCoils_other k _)

/-- The entry, and the indication due, of a permitted move or a first settle. -/
theorem takeSettle_tells (here : within k s.inbound.length = true)
    (moves : takeSettle k y s = evalCoils k (setInbound k y.line (s.modInb k (Inbound.handled y)))) :
    ((s.inb k).disagreeActive = false → (takeSettle k y s).register = s.register.append
        (.lineState (2 * k - 1) (s.inb k).state y.line (((s.inb k).handled y).moveTo y.line).accepted))
      ∧ (within k s.links.length = true → ((takeSettle k y s).link k).indicationDue = true) := by
  have handled : (s.modInb k (Inbound.handled y)).inb k = (s.inb k).handled y := State.inb_modInb_same s k _ here
  refine ⟨fun none_stands => ?_, fun links => ?_⟩
  · obtain ⟨_, _, _, _, _, kept⟩ := ((s.inb k).handled y).moveTo_eq y.line
    have told := setInbound_register (s := s.modInb k (Inbound.handled y)) (k := k) (new := y.line)
      (by rwa [State.modInb_inbound, length_modAt]) (by rw [handled]; exact none_stands) (by rw [handled, kept])
    rw [moves, evalCoils_register, told, handled]
    rfl
  · rw [moves, evalCoils_link]
    exact setInbound_owes (s := s.modInb k (Inbound.handled y)) links

/-- Every settle leaves its position, and no permission held (R116). -/
theorem takeSettle_inb (here : within k s.inbound.length = true) (y : CommPos) :
    ((takeSettle k y s).inb k).permission = ⟨false, false⟩ ∧ ((takeSettle k y s).inb k).handle = some y := by
  have of_moves (moves : takeSettle k y s = evalCoils k (setInbound k y.line (s.modInb k (Inbound.handled y)))) :
      ((takeSettle k y s).inb k).permission = ⟨false, false⟩ ∧ ((takeSettle k y s).inb k).handle = some y := by
    obtain ⟨⟨since, at_, active, coils, own⟩, -⟩ := takeSettle_moves here moves
    obtain ⟨_, _, _, _, _, kept⟩ := ((s.inb k).handled y).moveTo_eq y.line
    rw [own, kept]
    exact ⟨rfl, rfl⟩
  have handled : (s.modInb k (Inbound.handled y)).inb k = (s.inb k).handled y := State.inb_modInb_same s k _ here
  have of_same (w : State) (permission : (w.inb k).permission = ⟨false, false⟩) (handle : (w.inb k).handle = some y) :
      ((evalCoils k w).inb k).permission = ⟨false, false⟩ ∧ ((evalCoils k w).inb k).handle = some y :=
    ⟨(sameMove_evalCoils k w k).permission permission, (sameMove_evalCoils k w k).handle.trans handle⟩
  cases state : (s.inb k).state with
  | none => exact of_moves (takeSettle_first state)
  | some st =>
    cases judged : judge ((s.inb k).handle.getD y) y st.handle (s.inb k).permission with
    | noMove =>
      rw [takeSettle_noMove state judged]
      exact of_same _ (by rw [handled]; rfl) (by rw [handled]; rfl)
    | restored =>
      have ended := inb_of_modAt (endForced_inbound k (s.modInb k (Inbound.handled y)))
        (by rwa [State.modInb_inbound, length_modAt])
      rw [takeSettle_restored state judged]
      exact of_same _ (by rw [ended, handled]; rfl) (by rw [ended, handled]; rfl)
    | permitted => exact of_moves (takeSettle_permitted state judged)
    | forced =>
      have begun := beginForced_inb (s := s.modInb k (Inbound.handled y)) (k := k) (by rwa [State.modInb_inbound, length_modAt])
      rw [handled] at begun
      rw [takeSettle_forced state judged]
      exact of_same _ (begun.permission rfl) begun.handle

end Sys2Proof.Machine
end

section
/-! The arrival sequence (R124), and the judgements of a settle (R116). -/

set_option Elab.async false

namespace Sys2Proof.Machine

variable {s u v : State} {c j k n r : Nat} {x y : CommPos} {st new : LineState} {old next : TrackState} {permission : Coils}
  {i : Inbound} {cfg : InboundCfg}

/-! ### The judgement of a settle (R116) -/

theorem judge_of_back (back : y = x) : judge x y st.handle permission = .noMove := if_pos back

theorem judge_of_correspondence (away : y ≠ x) (left : x ≠ st.handle) (stands : y = st.handle) :
    judge x y st.handle permission = .restored := (if_neg away).trans (if_pos ⟨left, stands⟩)

theorem judge_of_apart (away : y ≠ x) (left : x ≠ st.handle) (apart : y ≠ st.handle) :
    judge x y st.handle permission = .forced :=
  (if_neg away).trans ((if_neg fun both => apart both.2).trans (if_neg fun both => left both.1))

theorem judge_of_unpermitted (away : y ≠ x) (stood : x = st.handle) (lacks : permission.contains (coilsNeeded x y) = false) :
    judge x y st.handle permission = .forced :=
  (if_neg away).trans ((if_neg fun both => both.1 stood).trans
    (if_neg fun both => Bool.false_ne_true (lacks.symm.trans both.2)))

theorem judge_of_permitted (away : y ≠ x) (stood : x = st.handle) (holds : permission.contains (coilsNeeded x y) = true) :
    judge x y st.handle permission = .permitted :=
  (if_neg away).trans ((if_neg fun both => both.1 stood).trans (if_pos ⟨stood, holds⟩))

/-! ### The arrival sequence (R124) -/

def Inbound.sequenced (q : SeqState) (i : Inbound) : Inbound := { i with sequence := q }

/-- The proof of arrival cancels the sequence timer that runs (R90). -/
def arrivalProved (timer : Option Nat) (s : State) : State := timer.elim s fun r => evaluateRelease r (cancelTimer .owner r s)

theorem sequenceCircuit_of_still (still : (s.inb k).sequenceAfter (s.tables.inb k) c old next = (s.inb k).sequence) :
    sequenceCircuit c old next k s = s := if_pos still

theorem sequenceCircuit_of_moved (moved : (s.inb k).sequenceAfter (s.tables.inb k) c old next ≠ (s.inb k).sequence) :
    sequenceCircuit c old next k s
      = evalCoils k (arrivalProved
          (if (s.inb k).sequenceAfter (s.tables.inb k) c old next = .complete then sequenceTimer s k else none)
          (changeInb k (Inbound.sequenced ((s.inb k).sequenceAfter (s.tables.inb k) c old next)) s)) := by
  refine (if_neg moved).trans ?_
  cases (if (s.inb k).sequenceAfter (s.tables.inb k) c old next = .complete then sequenceTimer s k else none) <;> rfl

theorem moves_arrivalProved (timer : Option Nat) (s : State) :
    Moves [.note, .record, .evaluate, .timer] s (arrivalProved timer s) := by
  cases timer with
  | none => exact .refl
  | some r => exact (Moves.refl.to_cancelTimer _ r).to_evaluateRelease r

/-- The sequence moves; of the record nothing else does but its coils. -/
theorem sequenceCircuit_spec (here : within k s.inbound.length = true) :
    OtherInbound k s (sequenceCircuit c old next k s)
      ∧ ∃ coils, (sequenceCircuit c old next k s).inb k
        = ((s.inb k).sequenced ((s.inb k).sequenceAfter (s.tables.inb k) c old next)).withCoils coils := by
  by_cases still : (s.inb k).sequenceAfter (s.tables.inb k) c old next = (s.inb k).sequence
  · rw [sequenceCircuit_of_still still, still]
    exact ⟨fun _ _ => rfl, (s.inb k).coils, rfl⟩
  · have inbound := (moves_arrivalProved
      (if (s.inb k).sequenceAfter (s.tables.inb k) c old next = .complete then sequenceTimer s k else none)
      (changeInb k (Inbound.sequenced ((s.inb k).sequenceAfter (s.tables.inb k) c old next)) s)).exactly .inbound
    have changed := inbound.trans (changeInb_inbound k _ s)
    rw [sequenceCircuit_of_moved still]
    exact ⟨(otherInbound_of_modAt changed).trans (evalCoils_other k _), _,
      (evalCoils_inb (by rw [changed, length_modAt]; exact here)).trans
        (congrArg (Inbound.withCoils _) (inb_of_modAt changed here))⟩

/-- The timer that the proof of arrival cancels. -/
theorem sequenceCircuit_cancels (timers : within r s.timers.length = true) (timer : (s.tables.inb k).timer = some r)
    (running : (s.timer r).state = .running) (passing : (s.inb k).sequence = .passing)
    (completes : (s.inb k).sequenceAfter (s.tables.inb k) c old next = .complete) :
    ((sequenceCircuit c old next k s).timer r).state = .idle ∧ ((sequenceCircuit c old next k s).timer r).expiry = none
      ∧ (sequenceCircuit c old next k s).register = s.register.append (.releaseCancelled r (timerOwner s r) .owner) := by
  have named : sequenceTimer s k = some r := by simp [sequenceTimer, timer, running]
  have moved : (s.inb k).sequenceAfter (s.tables.inb k) c old next ≠ (s.inb k).sequence := by
    rw [completes, passing]
    decide
  have proved : sequenceCircuit c old next k s
      = evalCoils k (evaluateRelease r (cancelTimer .owner r (changeInb k (Inbound.sequenced .complete) s))) := by
    rw [sequenceCircuit_of_moved moved, completes, if_pos rfl, named]
    rfl
  have later (w : State) : Moves [.evaluate, .note, .inb] w (evalCoils k (evaluateRelease r w)) :=
    (Moves.refl.to_evaluateRelease r).to_evalCoils k
  have start : Moves [.note, .inb] s (changeInb k (Inbound.sequenced .complete) s) := moves_changeInb k _ s
  have timers' : (changeInb k (Inbound.sequenced .complete) s).timers = s.timers := start.exactly .timers
  have store : (changeInb k (Inbound.sequenced .complete) s).store = s.store := start.exactly .store
  have kept := cancelTimer_kept .owner r (changeInb k (Inbound.sequenced .complete) s)
  have own : (sequenceCircuit c old next k s).timer r = (s.timer r).toIdle := by
    have all : (sequenceCircuit c old next k s).timers = modAt s.timers {} r Timer.toIdle := by
      rw [proved, (later _).exactly .timers, kept.2.2.1, timers']
    rw [State.timer, all, nth_modAt, if_pos ⟨rfl, timers⟩]
    rfl
  refine ⟨by rw [own]; rfl, by rw [own]; rfl, ?_⟩
  rw [proved, (later _).exactly .register, kept.2.2.2, start.exactly .register, timerOwner, timerOwner, State.tables,
    State.tables, store]

section
variable (sequence : i.sequence = .wait)
include sequence

theorem sequenceAfter_of_wait : i.sequenceAfter cfg c old next
    = if cfg.arrival = some c ∧ old = .clear ∧ next = .occupied then
        (if cfg.clearing = none then .passing else .arriving) else .wait := by
  simp [Inbound.sequenceAfter, sequence]

end

section
variable (sequence : i.sequence = .arriving)
include sequence

theorem sequenceAfter_of_arriving : i.sequenceAfter cfg c old next
    = if cfg.clearing = some c ∧ old = .clear ∧ next = .occupied then .passing
      else if cfg.arrival = some c ∧ next = .clear then .wait else .arriving := by
  simp [Inbound.sequenceAfter, sequence]

end

theorem sequenceAfter_of_passing (sequence : i.sequence = .passing) : i.sequenceAfter cfg c old next
    = if cfg.arrival = some c ∧ next = .clear then .complete else .passing := by
  simp [Inbound.sequenceAfter, sequence]

theorem sequenceAfter_of_ended (ended : i.sequence = .idle ∨ i.sequence = .complete) :
    i.sequenceAfter cfg c old next = i.sequence := by
  rcases ended with h | h <;> simp [Inbound.sequenceAfter, h]

/-- The sequence after a change of a circuit, as O43's clauses read it. -/
theorem sequence_clauses (here : within k s.inbound.length = true) (timers : s.timers.length = 16) :
    OtherInbound k s (sequenceCircuit c old next k s)
      ∧ (sequenceCircuit c old next k s).inb k
        = { s.inb k with sequence := ((sequenceCircuit c old next k s).inb k).sequence,
                         coils := ((sequenceCircuit c old next k s).inb k).coils }
      ∧ ((s.inb k).sequence = .wait → ((sequenceCircuit c old next k s).inb k).sequence
          = if (s.tables.inb k).arrival = some c ∧ old = .clear ∧ next = .occupied then
              (if (s.tables.inb k).clearing = none then .passing else .arriving) else .wait)
      ∧ ((s.inb k).sequence = .arriving →
        ((s.tables.inb k).clearing = some c → old = .clear → next = .occupied →
            ((sequenceCircuit c old next k s).inb k).sequence = .passing)
          ∧ ((s.tables.inb k).arrival = some c → old = .occupied → next = .clear →
            ((sequenceCircuit c old next k s).inb k).sequence = .wait)
          ∧ ((s.tables.inb k).clearing ≠ some c ∨ old ≠ .clear ∨ next ≠ .occupied →
            (s.tables.inb k).arrival ≠ some c ∨ next ≠ .clear →
            ((sequenceCircuit c old next k s).inb k).sequence = .arriving))
      ∧ ((s.inb k).sequence = .passing →
        ((s.tables.inb k).arrival = some c → old = .occupied → next = .clear →
            ((sequenceCircuit c old next k s).inb k).sequence = .complete
              ∧ ∀ r, (s.tables.inb k).timer = some r → within r 16 = true → (s.timer r).state = .running →
                ((sequenceCircuit c old next k s).timer r).state = .idle
                  ∧ ((sequenceCircuit c old next k s).timer r).expiry = none
                  ∧ (sequenceCircuit c old next k s).register
                    = s.register.append (.releaseCancelled r (timerOwner s r) .owner))
          ∧ ((s.tables.inb k).arrival ≠ some c ∨ next ≠ .clear →
            ((sequenceCircuit c old next k s).inb k).sequence = .passing))
      ∧ ((s.inb k).sequence = .idle ∨ (s.inb k).sequence = .complete → sequenceCircuit c old next k s = s) := by
  obtain ⟨others, coils, own⟩ := sequenceCircuit_spec (c := c) (old := old) (next := next) here
  have after : ((sequenceCircuit c old next k s).inb k).sequence = (s.inb k).sequenceAfter (s.tables.inb k) c old next := by
    rw [own]
    rfl
  refine ⟨others, by rw [own]; rfl, fun waits => after.trans (sequenceAfter_of_wait waits), fun arriving => ?_,
    fun passing => ?_, fun ended => sequenceCircuit_of_still (sequenceAfter_of_ended ended)⟩
  · rw [after, sequenceAfter_of_arriving arriving]
    refine ⟨fun clearing was enters => if_pos ⟨clearing, was, enters⟩, fun arrival was clears => ?_,
      fun not_clearing not_arrival => ?_⟩
    · rw [if_neg (by rw [was]; simp), if_pos ⟨arrival, clears⟩]
    · rw [if_neg (by simp only [not_and_or]; exact not_clearing), if_neg (by simp only [not_and_or]; exact not_arrival)]
  · refine ⟨fun arrival _ clears => ?_, fun not_arrival => ?_⟩
    · have completes : (s.inb k).sequenceAfter (s.tables.inb k) c old next = .complete :=
        (sequenceAfter_of_passing passing).trans (if_pos ⟨arrival, clears⟩)
      exact ⟨after.trans completes, fun r timer inside running =>
        sequenceCircuit_cancels (by rwa [timers]) timer running passing completes⟩
    · rw [after, sequenceAfter_of_passing passing, if_neg (by simp only [not_and_or]; exact not_arrival)]

end Sys2Proof.Machine
end

section
/-! O43: the settles, departures, coils and arrival sequence of an inbound line. -/

set_option Elab.async false

namespace Sys2Proof.Machine

variable {s u v : State} {c j k n r : Nat} {x y : CommPos} {st new : LineState} {old next : TrackState} {permission : Coils}
  {i : Inbound} {cfg : InboundCfg}

/-! ### What R119 makes of the classes and the sequence -/

/-- The class that a move from BLOCKED to CLEAR accepts (R119). -/
def Inbound.grants (i : Inbound) : Accepted := i.offered.elim .unspecified .cls

/-- The table of R119, as O43's clauses read it. -/
theorem moveTo_table (i : Inbound) (st : LineState) (y : CommPos) (state : i.state = some st) :
    (st = .blocked → y = .c → (i.moveTo y.line).offered = none ∧ (i.moveTo y.line).sequence = i.sequence
        ∧ (i.moveTo y.line).accepted = some i.grants)
      ∧ (st = .blocked → y = .o → (i.moveTo y.line).offered = none ∧ (i.moveTo y.line).sequence = .wait
        ∧ (i.moveTo y.line).accepted = i.accepted)
      ∧ (st = .clear → y = .o → (i.moveTo y.line).sequence = .wait ∧ (i.moveTo y.line).accepted = i.accepted)
      ∧ (st = .clear → y = .b → (i.moveTo y.line).offered = none ∧ (i.moveTo y.line).accepted = none
        ∧ (i.moveTo y.line).sequence = i.sequence)
      ∧ (st = .occupied → y = .b → (i.moveTo y.line).offered = none ∧ (i.moveTo y.line).accepted = none
        ∧ (i.moveTo y.line).sequence = .idle ∧ (i.moveTo y.line).released = false) := by
  refine ⟨?_, ?_, ?_, ?_, ?_⟩
  · rintro rfl rfl
    cases offered : i.offered <;> simp [Inbound.moveTo, state, CommPos.line, Inbound.grants, offered]
  all_goals
    rintro rfl rfl
    simp [Inbound.moveTo, state, CommPos.line]

theorem CommPos.line_ne (moves : y ≠ st.handle) : some st ≠ some y.line := by
  cases st <;> cases y <;> simp_all [CommPos.line, LineState.handle]

/-! ### The settles that leave the line state -/

/-- A settle that moves nothing leaves the line as it is (R116). -/
theorem settle_back (here : within k s.inbound.length = true) (state : (s.inb k).state = some st)
    (handle : (s.inb k).handle = some x) (back : y = x) :
    ((takeSettle k y s).inb k).state = some st ∧ ((takeSettle k y s).inb k).sequence = (s.inb k).sequence
      ∧ (takeSettle k y s).register = s.register ∧ (takeSettle k y s).faults = s.faults
      ∧ OtherInbound k s (takeSettle k y s) := by
  have judged : judge ((s.inb k).handle.getD y) y st.handle (s.inb k).permission = .noMove := by
    rw [handle]
    exact judge_of_back back
  have changed : (s.modInb k (Inbound.handled y)).inbound = modAt s.inbound {} k (Inbound.handled y) := rfl
  have own : (takeSettle k y s).inb k
      = ((s.inb k).handled y).withCoils (coilsFor (s.modInb k (Inbound.handled y)) k) := by
    rw [takeSettle_noMove state judged, evalCoils_inb (by rwa [changed, length_modAt]), inb_of_modAt changed here]
  rw [own, takeSettle_noMove state judged]
  exact ⟨state, rfl, evalCoils_register k _, evalCoils_faults k _, (otherInbound_of_modAt changed).trans (evalCoils_other k _)⟩

/-- A settle back in correspondence ends COMMUTATOR_FORCED (R120). -/
theorem settle_restored (here : within k s.inbound.length = true) (state : (s.inb k).state = some st)
    (handle : (s.inb k).handle = some x) (away : y ≠ x) (left : x ≠ st.handle) (stands : y = st.handle) :
    ((takeSettle k y s).inb k).state = some st ∧ ((takeSettle k y s).inb k).forcedActive = false
      ∧ (takeSettle k y s).register = s.register ∧ OtherInbound k s (takeSettle k y s) := by
  have judged : judge ((s.inb k).handle.getD y) y st.handle (s.inb k).permission = .restored := by
    rw [handle]
    exact judge_of_correspondence away left stands
  have changed : (endForced k (s.modInb k (Inbound.handled y))).inbound
      = modAt s.inbound {} k fun i => (i.handled y).unforced := by
    rw [endForced_inbound, State.modInb_inbound, modAt_modAt]
    rfl
  have own : (takeSettle k y s).inb k = ((s.inb k).handled y).unforced.withCoils
      (coilsFor (endForced k (s.modInb k (Inbound.handled y))) k) := by
    rw [takeSettle_restored state judged, evalCoils_inb (by rwa [changed, length_modAt]), inb_of_modAt changed here]
  rw [own, takeSettle_restored state judged, evalCoils_register, endForced_register]
  exact ⟨state, rfl, rfl, (otherInbound_of_modAt changed).trans (evalCoils_other k _)⟩

/-- Any other settle out of the record's position forces the commutator (R120). -/
theorem settle_forced (here : within k s.inbound.length = true) (state : (s.inb k).state = some st)
    (judged : judge ((s.inb k).handle.getD y) y st.handle (s.inb k).permission = .forced) :
    ((takeSettle k y s).inb k).state = some st ∧ ((takeSettle k y s).inb k).forcedActive = true := by
  have begun := beginForced_inb (s := s.modInb k (Inbound.handled y)) (k := k) (by rwa [State.modInb_inbound, length_modAt])
  have handled : (s.modInb k (Inbound.handled y)).inb k = (s.inb k).handled y := State.inb_modInb_same s k _ here
  rw [handled] at begun
  have same := begun.trans (sameMove_evalCoils k _ k)
  rw [takeSettle_forced state judged]
  exact ⟨same.state.trans state, same.active⟩

/-! ### The settles that move the line -/

/-- A permitted move (R119). -/
theorem settle_permitted (here : within k s.inbound.length = true) (links : within k s.links.length = true)
    (state : (s.inb k).state = some st) (handle : (s.inb k).handle = some x) (away : y ≠ x) (stood : x = st.handle)
    (holds : (s.inb k).permission.contains (coilsNeeded x y) = true) :
    (∃ since at_ active coils, (takeSettle k y s).inb k
        = { ((s.inb k).handled y).moveTo y.line with
            lastChange := some s.now, disagreeSince := since, disagreeAt := at_, disagreeActive := active, coils := coils })
      ∧ (((s.inb k).handled y).moveTo y.line).state = some y.line
      ∧ ((takeSettle k y s).link k).indicationDue = true ∧ OtherInbound k s (takeSettle k y s)
      ∧ ((s.inb k).disagreeActive = false → (takeSettle k y s).register = s.register.append
          (.lineState (2 * k - 1) (some st) y.line (((s.inb k).handled y).moveTo y.line).accepted)) := by
  have judged : judge ((s.inb k).handle.getD y) y st.handle (s.inb k).permission = .permitted := by
    rw [handle]
    exact judge_of_permitted away stood holds
  have moves := takeSettle_permitted state judged
  obtain ⟨told, owes⟩ := takeSettle_tells here moves
  obtain ⟨own, others⟩ := takeSettle_moves here moves
  have apart : (s.inb k).state ≠ some y.line := by
    rw [state]
    exact CommPos.line_ne (stood ▸ away)
  exact ⟨own, Inbound.moveTo_state (i := (s.inb k).handled y) apart, owes links, others, fun none_stands => by
    rw [told none_stands, state]⟩

/-- The first settle after a reset (R134). -/
theorem settle_first (here : within k s.inbound.length = true) (state : (s.inb k).state = none) :
    (∃ since at_ active coils, (takeSettle k y s).inb k
        = { ((s.inb k).handled y).moveTo y.line with
            lastChange := some s.now, disagreeSince := since, disagreeAt := at_, disagreeActive := active, coils := coils })
      ∧ (((s.inb k).handled y).moveTo y.line).state = some y.line ∧ OtherInbound k s (takeSettle k y s)
      ∧ (y = .o → (((s.inb k).handled y).moveTo y.line).sequence = .wait)
      ∧ ((s.inb k).disagreeActive = false → (takeSettle k y s).register = s.register.append
          (.lineState (2 * k - 1) none y.line (((s.inb k).handled y).moveTo y.line).accepted)) := by
  have moves := takeSettle_first (y := y) state
  obtain ⟨own, others⟩ := takeSettle_moves here moves
  have blank : ((s.inb k).handled y).state = none := state
  refine ⟨own, Inbound.moveTo_state (by rw [blank]; exact nofun), others, ?_, fun none_stands => ?_⟩
  · rintro rfl
    simp [Inbound.moveTo, blank, CommPos.line]
  · rw [(takeSettle_tells here moves).1 none_stands, state]

/-- Settles O43: settles and departures of a commutator, its coils, and the arrival sequence. -/
theorem commutatorSettlesMoveTheInboundLine : Obligations.CommutatorSettlesMoveTheInboundLine := by
  unfold Obligations.CommutatorSettlesMoveTheInboundLine
  refine ⟨?_, ?_, ?_, ?_⟩
  · rintro s _ k x y st _ _ - inside inbound links rfl rfl rfl
    have here : within k s.inbound.length = true := by rwa [inbound]
    have links : within k s.links.length = true := by rwa [links]
    obtain ⟨permission, handled⟩ := takeSettle_inb here y
    refine ⟨permission, handled, fun state handle => ⟨settle_back here state handle, settle_restored here state handle,
      fun away left apart => ?_, fun away stood lacks => ?_, fun away stood holds => ?_⟩, fun state => ?_⟩
    · exact settle_forced here state (by rw [handle]; exact judge_of_apart away left apart)
    · exact settle_forced here state (by rw [handle]; exact judge_of_unpermitted away stood lacks)
    · obtain ⟨⟨since, at_, active, coils, own⟩, moved, owes, others, told⟩ :=
        settle_permitted here links state handle away stood holds
      have active : (((s.inb k).handled y).moveTo y.line).forcedActive = (s.inb k).forcedActive := by
        obtain ⟨_, _, _, _, _, kept⟩ := ((s.inb k).handled y).moveTo_eq y.line
        rw [kept]
        rfl
      have table := moveTo_table ((s.inb k).handled y) st y state
      rw [own]
      refine ⟨moved, rfl, active, owes, others, told, fun was settles => ?_, table.2⟩
      obtain ⟨offered, sequence, accepted⟩ := table.1 was settles
      refine ⟨offered, sequence, accepted.trans ?_⟩
      cases offer : (s.inb k).offered <;> exact congrArg some (congrArg (Option.elim · _ _) offer)
    · obtain ⟨⟨since, at_, active, coils, own⟩, moved, others, waits, told⟩ := settle_first (y := y) here state
      rw [own]
      exact ⟨moved, rfl, others, waits, told⟩
  · rintro s _ k inside inbound rfl
    exact departure_spec (by rwa [inbound])
  · rintro s _ k _ inside inbound rfl rfl
    have here : within k s.inbound.length = true := by rwa [inbound]
    have coils : ((evalCoils k s).inb k).coils = coilsFor s k := by
      rw [evalCoils_inb here]
      rfl
    rw [coils]
    exact ⟨evalCoils_inb here, evalCoils_other k s, coilsFor_of_unknown, coilsFor_of_moving,
      fun x st rests state => coils_at_rest rests state rfl⟩
  · rintro s _ k c old next _ _ _ inside inbound timers rfl rfl rfl rfl
    exact sequence_clauses (by rwa [inbound]) timers

end Sys2Proof.Machine
end

section
/-! What letting a subject go leaves of the fault table, and of the register (R163, R165). -/

set_option Elab.async false

namespace Sys2Proof.Machine

variable {s u v : State} {c d j k n : Nat} {o q subject : Option Nat} {f : Faults} {ks : List Kind} {y : CommPos}
  {new : LineState}

/-! ### A record that is not held comes back by its own cause alone -/

theorem remove_absent (absent : f.find d o = none) : (f.remove c q).find d o = none := by
  rw [Faults.find, List.find?_eq_none] at absent ⊢
  exact fun r mem => absent r (List.mem_of_mem_filter mem)

theorem remove_self (f : Faults) (c : Nat) (q : Option Nat) : (f.remove c q).find c q = none := by
  rw [Faults.find, List.find?_eq_none]
  intro r mem
  have other := (List.mem_filter.1 mem).2
  simpa using other

theorem removeSelfClearing_absent (absent : s.faults.find d o = none) :
    (removeSelfClearing c q s).faults.find d o = none := by
  unfold removeSelfClearing
  split
  · exact absent
  · exact remove_absent (f := s.faults) absent

theorem latchRecord_absent (absent : s.faults.find d o = none) : (latchRecord c q s).faults.find d o = none := by
  by_cases own : (d, o) = (c, q)
  · obtain ⟨rfl, rfl⟩ := Prod.mk.inj own
    rw [latchRecord_find, absent]
    rfl
  · rw [latchRecord_find_other own, absent]

theorem enterOccupied_absent (undisputed : s.Undisputed) (absent : s.faults.find d o = none) :
    (enterOccupied k s).faults.find d o = none := by
  rw [enterOccupied_eq, deliverTrack_faults _ _ _
    (endMargin_undisputed (s := s.modCircuit k (Circuit.dropped s.now)) k undisputed)]
  unfold endMargin
  split
  · exact removeSelfClearing_absent (s := s.modCircuit k (Circuit.dropped s.now)) absent
  · exact absent

theorem unconfineTrack_absent (undisputed : s.Undisputed) (absent : s.faults.find d o = none) :
    (unconfineTrack c k s).faults.find d o = none := by
  simp only [unconfineTrack]
  split
  · exact enterOccupied_absent (s := s.modCircuit k fun r => { r with confinement := dropSource c r.confinement })
      undisputed absent
  · exact absent

theorem unconfineLever_faults (undisputed : s.Undisputed) : (unconfineLever c k s).faults = s.faults :=
  (Moves.refl.to_unconfineLever (ks := [.note, .lever, .evaluate]) c k).faults_kept undisputed

theorem setInbound_absent (undisputed : s.Undisputed) (absent : s.faults.find d o = none) :
    (setInbound k new s).faults.find d o = none := by
  have changed : (changeInb k (Inbound.movedAt new s.now) s).faults = s.faults := (moves_changeInb k _ s).exactly .faults
  have compared : (comparedInbound k new s).faults.find d o = none := by
    rw [← changed] at absent
    unfold comparedInbound crossCheck
    dsimp only
    split
    · cases ((changeInb k (Inbound.movedAt new s.now) s).inb k).disagreeActive with
      | false => exact absent
      | true => exact removeSelfClearing_absent absent
    · split
      · exact absent
      · exact absent
  have agreed : (comparedInbound k new s).Undisputed :=
    ((moves_changeInb k _ s).mono (by decide) |>.trans (moves_crossCheck k _)).undisputed undisputed
  have later : Moves [.record, .evaluate, .link, .note, .inb] (comparedInbound k new s) (setInbound k new s) := by
    rw [setInbound_eq]
    exact (((Moves.refl.to_append _).to_evaluateLine _).to_modLink k Link.owing).to_evalCoils k
  rw [later.faults_kept agreed]
  exact compared

/-- COMMUTATOR_FORCED touches no record but its own (R162). -/
theorem raise_forced_absent (undisputed : s.Undisputed) (other : d ≠ 15) (absent : s.faults.find d o = none) :
    (raise 15 (some k) s).faults.find d o = none := by
  have noted : (noteOccurrence 15 (some k) s).faults.find d o = none := by
    rw [noteOccurrence_faults, countOccurrence_find_other (by simp [other]), absent]
  have agreed : (noteOccurrence 15 (some k) s).Undisputed := by
    have same : (noteOccurrence 15 (some k) s).levers = s.levers :=
      (leaves_noteOccurrence 15 (some k) s).2.2.2 .levers (by decide)
    rw [State.Undisputed, same]
    exact undisputed
  have later : Moves (.link :: .inb :: modeKinds) (noteOccurrence 15 (some k) s) (raise 15 (some k) s) := by
    have confined : Moves [.note, .inb] (noteOccurrence 15 (some k) s)
        (when ((occurrence s 15 (some k)).reaction != .report)
          (confine 15 (occurrence s 15 (some k)).source (some k)) (noteOccurrence 15 (some k) s)) :=
      Moves.refl.to_when _ fun _ => Moves.refl.to_confineForced _ k
    have told := (confined.to_noteFault (occurrence s 15 (some k)).source).mono (ls := .link :: .inb :: modeKinds) (by decide)
    exact told.trans ((moves_after_confinement (s := s) rfl).mono (by simp))
  rw [later.faults_kept agreed (by decide)]
  exact noted

theorem takeSettle_absent (undisputed : s.Undisputed) (other : d ≠ 15) (absent : s.faults.find d o = none) :
    (takeSettle k y s).faults.find d o = none := by
  have of_settled (w : State) (absent : w.faults.find d o = none) : (evalCoils k w).faults.find d o = none := by
    rw [evalCoils_faults]
    exact absent
  have of_moves (moves : takeSettle k y s = evalCoils k (setInbound k y.line (s.modInb k (Inbound.handled y)))) :
      (takeSettle k y s).faults.find d o = none := by
    rw [moves]
    exact of_settled _ (setInbound_absent (s := s.modInb k (Inbound.handled y)) undisputed absent)
  cases state : (s.inb k).state with
  | none => exact of_moves (takeSettle_first state)
  | some st =>
    cases judged : judge ((s.inb k).handle.getD y) y st.handle (s.inb k).permission with
    | noMove =>
      rw [takeSettle_noMove state judged]
      exact of_settled _ absent
    | restored =>
      rw [takeSettle_restored state judged]
      refine of_settled _ ?_
      unfold endForced
      split
      · exact latchRecord_absent (s := (s.modInb k (Inbound.handled y)).modInb k Inbound.unforced) absent
      · exact absent
    | permitted => exact of_moves (takeSettle_permitted state judged)
    | forced =>
      rw [takeSettle_forced state judged]
      refine of_settled _ ?_
      unfold beginForced
      split
      · exact absent
      · exact raise_forced_absent (s := (s.modInb k (Inbound.handled y)).modInb k Inbound.forced) undisputed other absent

theorem unconfineCommutator_absent (undisputed : s.Undisputed) (other : d ≠ 15) (absent : s.faults.find d o = none) :
    (unconfineCommutator c k s).faults.find d o = none := by
  simp only [unconfineCommutator]
  split
  · split
    · exact takeSettle_absent (s := s.modInstrument k fun i => { i with confinement := dropSource c i.confinement })
        undisputed other absent
    · rw [evalCoils_faults]
      exact absent
  · exact absent

theorem unconfineForced_faults (c k : Nat) (s : State) : (unconfineForced c k s).faults = s.faults :=
  (Moves.refl.to_unconfineForced (ks := [.note, .inb]) c k).exactly .faults

theorem unconfineLink_faults (c k : Nat) (s : State) : (unconfineLink c k s).faults = s.faults :=
  (Moves.refl.to_unconfineLink (ks := [.note, .inb, .link]) c k).exactly .faults

/-- A subject let go brings back no record, but COMMUTATOR_FORCED's own. -/
theorem unconfine_absent (undisputed : s.Undisputed) (own : d ≠ 15 ∨ c = 15) (absent : s.faults.find d o = none) :
    (unconfine c c subject s).faults.find d o = none := by
  have tracks (ns : List Nat) : (forEach ns (unconfineTrack c) s).faults.find d o = none :=
    (forEach_keeps (I := fun v => v.Undisputed ∧ v.faults.find d o = none) ns
      (fun n _ _ ⟨agreed, absent⟩ => ⟨((Moves.refl (ks := fallKinds)).to_unconfineTrack c n).undisputed agreed,
        unconfineTrack_absent agreed absent⟩) s ⟨undisputed, absent⟩).2
  have levers (ns : List Nat) : (forEach ns (unconfineLever c) s).faults.find d o = none := by
    rw [((Moves.refl (ks := [.note, .lever, .evaluate])).to_forEach ns
      fun n _ => Moves.refl.to_unconfineLever c n).faults_kept undisputed]
    exact absent
  unfold unconfine
  split
  · split
    · exact tracks _
    · exact absent
  · split
    all_goals first
      | exact unconfineTrack_absent undisputed absent
      | exact (congrArg (Faults.find · d o) (unconfineLever_faults undisputed)).trans absent
      | exact unconfineCommutator_absent undisputed (own.resolve_right (by decide)) absent
      | exact (congrArg (Faults.find · d o) (unconfineForced_faults ..)).trans absent
      | exact (congrArg (Faults.find · d o) (unconfineLink_faults ..)).trans absent
      | exact absent
      | skip
    split
    · exact levers _
    · exact unconfineCommutator_absent undisputed (own.resolve_right (by decide)) absent

/-! ### The register grows by entries (R151) -/

/-- The register of the second state is that of the first with more entries. -/
def Grows (s u : State) : Prop := ∃ es, u.register = List.foldl Register.append s.register es

theorem Grows.trans {w : State} (h : Grows s u) (i : Grows u w) : Grows s w := by
  obtain ⟨es, first⟩ := h
  obtain ⟨fs, second⟩ := i
  exact ⟨es ++ fs, by rw [List.foldl_append, ← first, second]⟩

theorem Grows.same (h : Grows s u) {w : State} (same : w.register = u.register) : Grows s w := by
  obtain ⟨es, first⟩ := h
  exact ⟨es, same.trans first⟩

theorem Grows.append (h : Grows s u) (e : Event) : Grows s (append e u) := h.trans ⟨[e], rfl⟩

theorem restrict_register (m : Mode) (s : State) :
    (evaluateAll (endReleasesForMode (takeMode m s))).register = s.register :=
  Eq.trans ((leaves_evaluateAll _).2.2.2 .register (by decide))
    ((leaves_endReleasesForMode (takeMode m s)).2.2.2 .register (by decide))

/-- Moves that neither set the clock nor begin afresh make entries, and nothing else, in the register. -/
theorem Moves.grows (h : Moves ks s u) (away : .clock ∉ ks ∧ .begin ∉ ks := by decide) : Grows s u := by
  induction h with
  | refl => exact ⟨[], rfl⟩
  | record e _ _ ih => exact (ih away).append e
  | eval k _ _ ih => exact (ih away).same ((leaves_evaluate k _).2.2.2 .register (by decide))
  | relever k g _ _ noted _ _ ih =>
    exact (ih away).same (Eq.trans ((leaves_evaluate k _).2.2.2 .register (by decide)) (Eq.trans (noted.exactly .register)
      ((leaves_changeLever k g _).2.2.2 .register (by decide))))
  | @cause _ _ s0 t c subject _ _ _ inner ih =>
    have counted : Grows _ (noteOccurrence c subject s0) :=
      ((ih away).same ((leaves_countOccurrence c subject s0).2.2.2 .register (by decide))).append _
    refine (counted.trans (inner (by decide))).same ?_
    unfold suspendFor
    split
    · exact restrict_register .suspended t
    · rfl
  | @restrict _ _ s0 m _ _ _ ih => exact (ih away).same (restrict_register m s0)
  | @serve _ _ s0 m _ _ _ ih =>
    exact ((ih away).append (.mode s0.mode m)).same ((leaves_evaluateAll (enterMode m s0)).2.2.2 .register (by decide))
  | clock g mem => exact absurd mem away.1
  | begin i mem => exact absurd mem away.2
  | _ =>
    rename_i ih
    exact ih away

end Sys2Proof.Machine
end

section
/-! Subjects let go: circuits, levers, commutators, inbound lines and links (R163, R165). -/

set_option Elab.async false

namespace Sys2Proof.Machine

variable {s u v : State} {c d j k n : Nat} {now : Time} {p : CommPos} {x : CommCurrent}

/-! ### Circuits -/

def Circuit.letGo (c : Nat) (r : Circuit) : Circuit := { r with confinement := dropSource c r.confinement }

/-- A circuit that a source lets go, at a time (R16). -/
def Circuit.released (c : Nat) (now : Time) (r : Circuit) : Circuit :=
  if r.confinement ≠ [] ∧ dropSource c r.confinement = [] ∧ r.state = .failed then
    (Circuit.dropped now (r.letGo c)).marginEnded
  else r.letGo c

theorem Circuit.released_confinement (c : Nat) (now : Time) (r : Circuit) :
    (r.released c now).confinement = dropSource c r.confinement := by
  unfold released
  split
  · next empties =>
    unfold marginEnded
    split
    · exact (congrArg (dropSource 4) empties.2.1).trans empties.2.1.symm
    · rfl
  · rfl

theorem Circuit.released_state_of_free {r : Circuit} (was : r.confinement ≠ []) (empties : dropSource c r.confinement = [])
    (failed : r.state = .failed) :
    (r.released c now).state = .occupied ∧ (r.released c now).occupiedSince = some now := by
  rw [released, if_pos ⟨was, empties, failed⟩, marginEnded]
  split
  · exact ⟨rfl, rfl⟩
  · exact ⟨rfl, rfl⟩

theorem Circuit.released_state_of_held {r : Circuit} (held : dropSource c r.confinement ≠ [] ∨ r.state ≠ .failed) :
    (r.released c now).state = r.state := by
  rw [released, if_neg fun frees => held.elim (· frees.2.1) (· frees.2.2)]
  rfl

theorem unconfineTrack_circuits (c k : Nat) (s : State) :
    (unconfineTrack c k s).circuits = modAt s.circuits {} k (Circuit.released c s.now) := by
  have letGo : (s.modCircuit k (Circuit.letGo c)).circuits = modAt s.circuits {} k (Circuit.letGo c) := rfl
  by_cases here : within k s.circuits.length = true
  · have own : (s.modCircuit k (Circuit.letGo c)).circuit k = (s.circuit k).letGo c := State.circuit_modCircuit_same s k _ here
    by_cases frees : (s.circuit k).confinement ≠ [] ∧ dropSource c (s.circuit k).confinement = [] ∧ (s.circuit k).state = .failed
    · have enters : unconfineTrack c k s = enterOccupied k (s.modCircuit k (Circuit.letGo c)) :=
        if_pos ⟨frees.1, (congrArg Circuit.confinement own).trans frees.2.1, frees.2.2⟩
      rw [enters, enterOccupied_circuits, letGo, modAt_modAt]
      exact modAt_congr (if_pos frees).symm
    · have stays : unconfineTrack c k s = s.modCircuit k (Circuit.letGo c) :=
        if_neg fun ⟨was, empties, failed⟩ => frees ⟨was, (congrArg Circuit.confinement own).symm.trans empties, failed⟩
      rw [stays, letGo]
      exact modAt_congr (if_neg frees).symm
  · have blank : s.circuit k = {} := nth_outside _ _ _ (by simpa using here)
    have stays : unconfineTrack c k s = s.modCircuit k (Circuit.letGo c) :=
      if_neg fun ⟨was, _⟩ => was (congrArg Circuit.confinement blank)
    rw [stays, letGo]
    refine modAt_congr ?_
    have read : nth s.circuits {} k = {} := blank
    rw [read]
    rfl

theorem unconfineTrack_circuit (c k : Nat) (s : State) :
    (unconfineTrack c k s).circuit k = (s.circuit k).released c s.now := by
  rw [State.circuit, unconfineTrack_circuits, nth_modAt]
  split
  · rfl
  · next outside =>
    have blank : s.circuit k = {} := nth_outside _ _ _ (by simpa using outside)
    have read : nth s.circuits {} k = {} := blank
    rw [read, blank]
    rfl

theorem unconfineTrack_other (other : k ≠ n) : (unconfineTrack c n s).circuit k = s.circuit k := by
  rw [State.circuit, unconfineTrack_circuits, nth_modAt, if_neg fun own => other own.1]
  rfl

theorem unconfineTrack_now (c k : Nat) (s : State) : (unconfineTrack c k s).now = s.now :=
  ((Moves.refl (ks := fallKinds)).to_unconfineTrack c k).now_eq

/-- Every enabled circuit let go by one source (R163). -/
theorem forEach_unconfineTrack_circuit (mem : k ∈ circuitsOn s) :
    (forEach (circuitsOn s) (unconfineTrack c) s).circuit k = (s.circuit k).released c s.now := by
  have all := forEach_observed (k := k) (f := unconfineTrack c) (fun u => (u.circuit k, u.now))
    (fun r => (r.1.released c r.2, r.2)) (fun u => Prod.ext (unconfineTrack_circuit c k u) (unconfineTrack_now c k u))
    (fun n other u => Prod.ext (unconfineTrack_other (Ne.symm other)) (unconfineTrack_now c n u)) (circuitsOn s)
    (circuitsOn_nodup s) s
  rw [if_pos mem] at all
  exact congrArg Prod.fst all

/-! ### Levers -/

def Lever.letGo (c : Nat) (l : Lever) : Lever := { l with confinement := dropSource c l.confinement }

theorem unconfineLever_of_other (kept : dropSource c (s.lever k).confinement = (s.lever k).confinement) :
    unconfineLever c k s = s := if_pos kept

theorem unconfineLever_spec (here : within k s.levers.length = true) :
    OtherLevers k s (unconfineLever c k s)
      ∧ ((unconfineLever c k s).lever k).confinement = dropSource c (s.lever k).confinement := by
  by_cases kept : dropSource c (s.lever k).confinement = (s.lever k).confinement
  · rw [unconfineLever_of_other kept]
    exact ⟨fun _ _ => rfl, kept.symm⟩
  · have changed : unconfineLever c k s
        = if dropSource c (s.lever k).confinement = [] then
            evaluate k (noteLever k (s.modLever k fun l => { l with confinement := dropSource c (s.lever k).confinement }))
          else noteLever k (s.modLever k fun l => { l with confinement := dropSource c (s.lever k).confinement }) :=
      if_neg kept
    have own := State.lever_modLever_same s k (fun l => { l with confinement := dropSource c (s.lever k).confinement }) here
    have others (j : Nat) (other : j ≠ k) := State.lever_modLever_other s k j
      (fun l => { l with confinement := dropSource c (s.lever k).confinement }) other
    rw [changed]
    split
    · refine ⟨fun j other => ?_, ?_⟩
      · rw [evaluate_lever, if_neg fun same => other same.1]
        exact others j other
      · rw [evaluate_lever]
        split
        · exact congrArg Lever.confinement own
        · exact congrArg Lever.confinement own
    · exact ⟨others, congrArg Lever.confinement own⟩

end Sys2Proof.Machine
end

section
/-! Commutators, lines and links let go (R43, R120, R147, R163, R165). -/

set_option Elab.async false

namespace Sys2Proof.Machine

variable {s u v : State} {c d j k n : Nat} {y p : CommPos}

/-! ### Commutators -/

/-- COMMUTATOR_FORCED touches no instrument, whatever its reaction. -/
theorem raise_forced_instruments (k : Nat) (s : State) : (raise 15 (some k) s).instruments = s.instruments := by
  have counted : (noteOccurrence 15 (some k) s).instruments = s.instruments :=
    (leaves_noteOccurrence 15 (some k) s).2.2.2 .instruments (by decide)
  have confined : Moves [.note, .inb] (noteOccurrence 15 (some k) s) (confineOccurrence 15 (some k) s) :=
    (Moves.refl.to_when _ fun _ => Moves.refl.to_confineForced _ k).to_noteFault _
  have later : Moves modeKinds (confineOccurrence 15 (some k) s) (raise 15 (some k) s) := moves_after_confinement rfl
  exact Eq.trans (later.exactly .instruments) (Eq.trans (confined.exactly .instruments) counted)

theorem beginForced_instruments (k : Nat) (s : State) : (beginForced k s).instruments = s.instruments := by
  unfold beginForced
  split
  · rfl
  · exact raise_forced_instruments k (s.modInb k Inbound.forced)

theorem takeSettle_instruments (k : Nat) (y : CommPos) (s : State) : (takeSettle k y s).instruments = s.instruments := by
  have of_settled (w : State) (same : w.instruments = s.instruments) : (evalCoils k w).instruments = s.instruments :=
    Eq.trans ((moves_evalCoils k w).exactly .instruments) same
  have of_moves (moves : takeSettle k y s = evalCoils k (setInbound k y.line (s.modInb k (Inbound.handled y)))) :
      (takeSettle k y s).instruments = s.instruments := by
    rw [moves]
    exact of_settled _ ((moves_setInbound k y.line (s.modInb k (Inbound.handled y))).exactly .instruments)
  cases state : (s.inb k).state with
  | none => exact of_moves (takeSettle_first state)
  | some st =>
    cases judged : judge ((s.inb k).handle.getD y) y st.handle (s.inb k).permission with
    | noMove =>
      rw [takeSettle_noMove state judged]
      exact of_settled _ rfl
    | restored =>
      have ended : Moves [.note, .inb, .faults] (s.modInb k (Inbound.handled y))
          (endForced k (s.modInb k (Inbound.handled y))) := Moves.refl.to_endForced k
      rw [takeSettle_restored state judged]
      exact of_settled _ (ended.exactly .instruments)
    | permitted => exact of_moves (takeSettle_permitted state judged)
    | forced =>
      rw [takeSettle_forced state judged]
      exact of_settled _ (beginForced_instruments k (s.modInb k (Inbound.handled y)))

def Instrument.letGo (c : Nat) (i : Instrument) : Instrument := { i with confinement := dropSource c i.confinement }

theorem unconfineCommutator_of_free (was : (s.instrument k).confinement ≠ [])
    (empties : ((s.modInstrument k (Instrument.letGo c)).instrument k).confinement = [])
    (rests : presented (s.modInstrument k (Instrument.letGo c)) k = .rest p) :
    unconfineCommutator c k s = takeSettle k p (s.modInstrument k (Instrument.letGo c)) := by
  have frees : unconfineCommutator c k s = _ := if_pos ⟨was, empties⟩
  have rests' : presented (s.modInstrument k fun i => { i with confinement := dropSource c i.confinement }) k = .rest p := rests
  rw [frees, rests']
  rfl

theorem unconfineCommutator_instruments (c k : Nat) (s : State) :
    (unconfineCommutator c k s).instruments = modAt s.instruments {} k (Instrument.letGo c) := by
  simp only [unconfineCommutator]
  split
  · split
    · exact takeSettle_instruments ..
    · exact (moves_evalCoils k _).exactly .instruments
  · rfl

/-- A commutator let go by its last source, at rest, is settled anew (R43). -/
theorem unconfineCommutator_handle (here : within k s.instruments.length = true) (lines : within k s.inbound.length = true)
    (was : (s.instrument k).confinement ≠ []) (empties : dropSource c (s.instrument k).confinement = [])
    (answers : (s.board (8 + k)).missing = false) (rests : (s.instrument k).current = .rest p) :
    ((unconfineCommutator c k s).inb k).handle = some p := by
  have own : (s.modInstrument k (Instrument.letGo c)).instrument k = (s.instrument k).letGo c :=
    State.instrument_modInstrument_same s k _ here
  have shown : presented (s.modInstrument k (Instrument.letGo c)) k = .rest p := by
    have free : ((s.modInstrument k (Instrument.letGo c)).instrument k).confinement = [] :=
      (congrArg Instrument.confinement own).trans empties
    have board : ((s.modInstrument k (Instrument.letGo c)).board (8 + k)).missing = false := answers
    exact (if_neg fun barred => barred.elim (· free) fun missing => Bool.false_ne_true (board.symm.trans missing)).trans ((congrArg Instrument.current own).trans rests)
  rw [unconfineCommutator_of_free was ((congrArg Instrument.confinement own).trans empties) shown]
  exact (takeSettle_inb (s := s.modInstrument k (Instrument.letGo c)) lines p).2

/-! ### Inbound lines -/

def Inbound.letGo (c : Nat) (i : Inbound) : Inbound := { i with forcedConfinement := dropSource c i.forcedConfinement }

theorem unconfineForced_inb (here : within k s.inbound.length = true) :
    ((unconfineForced c k s).inb k).forcedConfinement = dropSource c (s.inb k).forcedConfinement := by
  have own : (s.modInb k (Inbound.letGo c)).inb k = (s.inb k).letGo c := State.inb_modInb_same s k _ here
  have evaluated := evalCoils_inb (s := s.modInb k (Inbound.letGo c)) (k := k) (by rwa [State.modInb_inbound, length_modAt])
  exact (congrArg Inbound.forcedConfinement evaluated).trans (congrArg Inbound.forcedConfinement own)

/-! ### Links -/

def Link.letGo (c : Nat) (l : Link) : Link := { l with confinement := dropSource c l.confinement }

theorem unconfineLink_of_free (here : within k s.links.length = true) (was : (s.link k).confinement ≠ [])
    (empties : dropSource c (s.link k).confinement = []) (on : s.linkOn k = true) :
    unconfineLink c k s = enterIdle k (s.modLink k (Link.letGo c)) := by
  have own : (s.modLink k (Link.letGo c)).link k = (s.link k).letGo c := State.link_modLink_same s k _ here
  exact if_pos ⟨was, (congrArg Link.confinement own).trans empties, on⟩

theorem enterIdle_link (here : within k s.links.length = true) :
    ((enterIdle k s).link k).state = .idle ∧ ((enterIdle k s).link k).confinement = (s.link k).confinement
      ∧ ((enterIdle k s).link k).silenceAt = some (s.now + (cfgOf s k).silence * 1000) := by
  have own : (enterIdle k s).link k = _ := (evalCoils_link k k _).trans (State.link_modLink_same s k _ here)
  rw [own]
  exact ⟨rfl, rfl, rfl⟩

theorem unconfineLink_confinement (here : within k s.links.length = true) :
    ((unconfineLink c k s).link k).confinement = dropSource c (s.link k).confinement := by
  have own : (s.modLink k (Link.letGo c)).link k = (s.link k).letGo c := State.link_modLink_same s k _ here
  have here' : within k (s.modLink k (Link.letGo c)).links.length = true := by rwa [State.modLink_links, length_modAt]
  simp only [unconfineLink]
  split
  · exact (enterIdle_link here').2.1.trans (congrArg Link.confinement own)
  · exact congrArg Link.confinement own

/-- A configured link let go by its last source goes into use (R147). -/
theorem unconfineLink_used (here : within k s.links.length = true) (was : (s.link k).confinement ≠ [])
    (empties : dropSource c (s.link k).confinement = []) (on : s.linkOn k = true) :
    ((unconfineLink c k s).link k).state = .idle
      ∧ ((unconfineLink c k s).link k).silenceAt = some (s.now + (cfgOf s k).silence * 1000) := by
  have idle := enterIdle_link (s := s.modLink k (Link.letGo c)) (k := k) (by rwa [State.modLink_links, length_modAt])
  rw [unconfineLink_of_free here was empties on]
  exact ⟨idle.1, idle.2.2⟩

/-! ### The end of a step takes no link out of use -/

theorem startBidding_used (used : (u.link k).state ≠ .outOfUse) (j : Nat) :
    ((startBidding j u).link k).state ≠ .outOfUse := by
  simp only [startBidding]
  split
  · rw [State.link_modLink]
    split
    · exact nofun
    · exact used
  · exact used

theorem pumpLink_used (used : (u.link k).state ≠ .outOfUse) (j : Nat) : ((pumpLink j u).link k).state ≠ .outOfUse := by
  have bids := startBidding_used used j
  simp only [pumpLink, startFrame]
  split
  · exact bids
  · split
    · next frame _ _ =>
      rw [State.link_modLink]
      split
      · next own =>
        obtain ⟨rfl, -⟩ := own
        by_cases go : frame = .go
        · simp [go]
        · simpa [go] using bids
      · exact bids
    · exact bids

theorem finish_link_used (agreed : v.Undisputed) (used : (v.link k).state ≠ .outOfUse) :
    ((finish v).link k).state ≠ .outOfUse := by
  have other {u w : State} {ks : List Kind} (moves : Moves ks u w) (away : ∀ x ∈ ks, Part.links ∉ x.parts := by decide)
      (used : (u.link k).state ≠ .outOfUse) : (w.link k).state ≠ .outOfUse := by
    have same : w.link k = u.link k := congrArg (fun l : List Link => nth l {} k) (moves.exactly .links away)
    rw [same]
    exact used
  refine finish_keeps (I := fun u => (u.link k).state ≠ .outOfUse) agreed
    (fun j u => other (Moves.refl.to_reloadTimer (ks := [.note, .reload, .timer]) j))
    (fun j u => other (Moves.refl.to_reloadBell (ks := [.note, .reload, .bell]) j))
    (fun j u => other (Moves.refl.to_reloadLine (ks := [.note, .reload, .outb]) j)) (fun j u used => ?_)
    (fun j u used => pumpLink_used used j) (fun _ _ used => used) used
  by_cases still : (u.link j).staged = [] ∨ (u.link j).atReload = false
  · rw [reloadLink_of_still still]
    exact used
  · rw [not_or, Bool.not_eq_false] at still
    have same : ((reloadLink j u).link k).state = (u.link k).state := by
      have read := State.link_modLink (applyStaged 2 j (u.link j).staged u) j k Link.unstaged
      rw [reloadLink_of_due still.1 still.2]
      refine (congrArg Link.state read).trans ?_
      split
      · next own => rw [own.1]; rfl
      · rfl
    rw [same]
    exact used

end Sys2Proof.Machine
end

section
/-! O53: CLEAR FAULT and RESUME (R165, R166). -/

set_option Elab.async false

namespace Sys2Proof.Machine

variable {s u v : State} {c d j k n : Nat} {y p : CommPos} {t : Time} {r : FaultRecord} {subject : Option Nat}

/-! ### The command -/

/-- The state after CLEAR FAULT of a record, before its reply (R165). -/
def recordCleared (r : FaultRecord) (s : State) : State :=
  noteFault r.source (unconfine r.source r.source r.subject (clearRecord r true s))

section
variable (named : faultSubject c n = some subject)
include named

theorem cmdClearFault_of_missing (other : c ≠ 22) (missing : ∀ r, s.faults.find c subject = some r → r.active = true) :
    cmdClearFault c n s = refuse .state s := by
  cases found : s.faults.find c subject with
  | none => simp [cmdClearFault, named, other, found]
  | some r => simp [cmdClearFault, named, other, found, missing r found]

theorem cmdClearFault_of_found (other : c ≠ 22) (found : s.faults.find c subject = some r) (latched : r.active = false) :
    cmdClearFault c n s = (recordCleared r s, .done []) := by
  obtain ⟨rfl, rfl⟩ := (isFor_iff r c subject).1 (List.find?_some (p := fun q : FaultRecord => q.isFor c subject) found)
  simp [cmdClearFault, named, other, found, latched, recordCleared, reply]

theorem cmdClearFault_of_overflow (own : c = 22) : cmdClearFault c n s = clearOverflow s := by
  subst own
  simp [cmdClearFault, named]

end

theorem within_of_number {m : Nat} (told : (if within n m then some (some n) else none) = some (some k)) :
    within k m = true := by
  split at told
  · next inside =>
    rw [← Option.some.inj (Option.some.inj told)]
    exact inside
  · cases told

/-- The subject of a fault record is one of its source's (R165). -/
theorem faultSubject_circuit (own : c = 1 ∨ c = 2 ∨ c = 3 ∨ c = 4) (named : faultSubject c n = some (some k)) :
    within k 24 = true := by
  rcases own with rfl | rfl | rfl | rfl <;> exact within_of_number named

theorem faultSubject_lever (own : c = 7 ∨ c = 8 ∨ c = 9 ∨ c = 10 ∨ c = 12 ∨ c = 20)
    (named : faultSubject c n = some (some k)) : within k 64 = true := by
  rcases own with rfl | rfl | rfl | rfl | rfl | rfl
  case inr.inr.inr.inr.inr =>
    have told : (if n = 255 then some none else if within n 64 then some (some n) else none) = some (some k) := named
    split at told
    · cases told
    · exact within_of_number told
  all_goals exact within_of_number named

theorem faultSubject_link (own : c = 11 ∨ c = 13 ∨ c = 14 ∨ c = 15 ∨ c = 17 ∨ c = 18)
    (named : faultSubject c n = some (some k)) : within k 3 = true := by
  rcases own with rfl | rfl | rfl | rfl | rfl | rfl <;> exact within_of_number named

theorem faultSubject_converter (named : faultSubject 5 n = some subject) : subject = none := by
  have told : (if n = 255 then some none else none) = some subject := named
  split at told
  · exact (Option.some.inj told).symm
  · cases told

/-! ### What the record's subject is let go by -/

theorem unconfine_circuit (own : c = 1 ∨ c = 2 ∨ c = 3 ∨ c = 4) : unconfine c c (some k) s = unconfineTrack c k s := by
  rcases own with rfl | rfl | rfl | rfl <;> rfl

theorem unconfine_lever (own : c = 7 ∨ c = 8 ∨ c = 9 ∨ c = 10 ∨ c = 12 ∨ c = 20) :
    unconfine c c (some k) s = unconfineLever c k s := by
  rcases own with rfl | rfl | rfl | rfl | rfl | rfl <;> rfl

theorem unconfine_commutator (own : c = 11 ∨ c = 13 ∨ c = 14) : unconfine c c (some k) s = unconfineCommutator c k s := by
  rcases own with rfl | rfl | rfl <;> rfl

theorem unconfine_link (own : c = 17 ∨ c = 18) : unconfine c c (some k) s = unconfineLink c k s := by
  rcases own with rfl | rfl <;> rfl

/-- LINK_LOST, LINE_DISAGREE, TABLE_CHECK and an EVAL_MISMATCH of no lever hold no subject (R161). -/
theorem unconfine_nothing (own : c = 16 ∨ c = 19 ∨ c = 21 ∨ (c = 20 ∧ subject = none)) : unconfine c c subject s = s := by
  rcases own with rfl | rfl | rfl | ⟨rfl, rfl⟩
  · cases subject <;> rfl
  · cases subject <;> rfl
  · cases subject <;> rfl
  · rfl

/-! ### The clauses of a record cleared -/

theorem moves_recordCleared (r : FaultRecord) (s : State) : Moves raiseKinds s (recordCleared r s) :=
  ((Moves.refl.to_clearRecord r true).to_unconfine _ _ _).to_noteFault _

/-- The record is gone, and its entry by HOST is the first of the step. -/
theorem recordCleared_spec (undisputed : s.Undisputed) (r : FaultRecord) :
    (recordCleared r s).faults.find r.source r.subject = none
      ∧ ∃ es, (recordCleared r s).register = List.foldl Register.append
        (s.register.append (.faultCleared r.source r.subject r.reaction r.count true)) es := by
  refine ⟨unconfine_absent (s := clearRecord r true s) undisputed ?_ (remove_self s.faults r.source r.subject), ?_⟩
  · by_cases forced : r.source = 15
    · exact .inr forced
    · exact .inl forced
  · exact (((Moves.refl (ks := raiseKinds) (s := clearRecord r true s)).to_unconfine r.source r.source
      r.subject).to_noteFault r.source).grows

theorem recordCleared_alone (own : r.source = 16 ∨ r.source = 19 ∨ r.source = 21 ∨ (r.source = 20 ∧ r.subject = none)) :
    recordCleared r s = noteFault r.source (clearRecord r true s) :=
  congrArg (noteFault r.source) (unconfine_nothing own)

end Sys2Proof.Machine
end

section
/-! O53: CLEAR FAULT of the overflow record, RESUME, and the clauses put together (R165, R166). -/

set_option Elab.async false

namespace Sys2Proof.Machine

variable {s u : State} {c k : Nat}

/-! ### The overflow record -/

theorem unconfineLever_of_absent (absent : c ∉ (s.lever k).confinement) : unconfineLever c k s = s :=
  unconfineLever_of_other (dropSource_of_absent absent)

theorem unconfineCommutator_of_absent (absent : c ∉ (s.instrument k).confinement) : unconfineCommutator c k s = s := by
  have kept : s.modInstrument k (fun i => { i with confinement := dropSource c i.confinement }) = s := by
    rw [State.modInstrument, modAt_self]
    rw [← State.instrument, dropSource_of_absent absent]
  simp only [unconfineCommutator, kept]
  exact if_neg fun ⟨some_held, none_left⟩ => some_held none_left

theorem unconfineLink_of_absent (absent : c ∉ (s.link k).confinement) : unconfineLink c k s = s := by
  have kept : s.modLink k (fun l => { l with confinement := dropSource c l.confinement }) = s := by
    rw [State.modLink, modAt_self]
    rw [← State.link, dropSource_of_absent absent]
  simp only [unconfineLink, kept]
  exact if_neg fun ⟨some_held, none_left, _⟩ => some_held none_left

theorem forEach_same {f : Nat → State → State} {ns : List Nat} (same : ∀ n ∈ ns, f n s = s) : forEach ns f s = s := by
  induction ns with
  | nil => rfl
  | cons n ns ih =>
    rw [forEach_cons, same n List.mem_cons_self]
    exact ih fun m mem => same m (List.mem_cons_of_mem _ mem)

/-- OVERFLOW holds no subject but, it may be, inbound lines: letting go evaluates their coils (R120, R165). -/
theorem moves_unconfineOverflow (tracks : ∀ k, within k 24 = true → 22 ∉ (s.circuit k).confinement)
    (levers : ∀ k, within k 64 = true → 22 ∉ (s.lever k).confinement)
    (instruments : ∀ k, within k 3 = true → 22 ∉ (s.instrument k).confinement)
    (links : ∀ k, within k 3 = true → 22 ∉ (s.link k).confinement) : Moves [.note, .inb] s (unconfineOverflow s) := by
  have forced : Moves [.note, .inb] s (forEach (upTo 3) (unconfineForced 22) s) :=
    Moves.refl.to_forEach _ fun k _ => Moves.refl.to_unconfineForced 22 k
  have same : unconfineOverflow s = forEach (upTo 3) (unconfineForced 22) s := by
    rw [unconfineOverflow, forEach_same fun k mem => unconfineTrack_of_absent (tracks k (mem_upTo.1 mem)),
      forEach_same fun k mem => unconfineLever_of_absent (levers k (mem_upTo.1 mem)),
      forEach_same fun k mem => unconfineCommutator_of_absent (instruments k (mem_upTo.1 mem))]
    refine forEach_same fun k mem => unconfineLink_of_absent ?_
    rw [State.link, forced.exactly .links]
    exact links k (mem_upTo.1 mem)
  rw [same]
  exact forced

/-- The fault table with its overflow record empty (R164). -/
def Faults.drained (f : Faults) : Faults := { f with overflowCount := 0, overflowLast := none, overflowReaction := none }

def overflowCleared (s : State) : State :=
  append (.faultCleared 22 none (s.faults.overflowReaction.getD .report) s.faults.overflowCount true)
    (s.modFaults Faults.drained)

theorem clearOverflow_of_held (held : s.faults.overflowCount ≠ 0) :
    clearOverflow s = (noteFault 22 (unconfineOverflow (overflowCleared s)), .done []) := if_neg held

/-! ### RESUME (R62, R85, R117, R166) -/

theorem evaluateAll_current (s : State) (k : Nat) : ((evaluateAll s).lever k).current = (s.lever k).current :=
  evaluateAll_keeps (I := fun v => (v.lever k).current = (s.lever k).current) (fun n v same => by
    rw [evaluate_lever]
    split
    · next own => exact own.1 ▸ same
    · exact same) rfl

theorem holdAtResume_congr (tables : u.tables = s.tables) (circuits : u.circuits = s.circuits)
    (current : ∀ k, (u.lever k).current = (s.lever k).current) (k : Nat) : holdAtResume u k = holdAtResume s k := by
  have approach : approachClear u k = approachClear s k := by
    simp only [approachClear, State.allClear, State.circuit, tables, circuits]
  unfold holdAtResume
  rw [tables, approach]
  split
  · rw [current]
  · rfl

/-- The state at which the holds are taken at RESUME. -/
def served (s : State) : State := evaluateAll (enterMode .service s)

theorem resumeService_eq (s : State) : resumeService s = modeToLinks (evalAllCoils (holdsResume (served s))) := rfl

theorem holdsResume_served (held : (s.hold k).state ≠ none) (inside : within k 16 = true) :
    ((holdsResume (served s)).hold k).state = some (holdAtResume s k) := by
  have leaves : Leaves _ (enterMode .service s) (served s) := leaves_evaluateAll _
  have holds : (served s).hold k = s.hold k :=
    congrArg (fun l : List Hold => nth l {} k) (leaves.2.2.2 .holds (by decide))
  have same : holdAtResume (served s) k = holdAtResume s k := by
    refine holdAtResume_congr ?_ (leaves.2.2.2 .tracks (by decide)) (evaluateAll_current _) k
    have store : (served s).store = s.store := leaves.2.2.2 .store (by decide)
    rw [State.tables, store]
    rfl
  have mem : k ∈ holdsOn (served s) := by
    rw [holdsOn, List.mem_filter, holds]
    exact ⟨mem_upTo.2 inside, Option.isSome_iff_ne_none.2 held⟩
  have moved := moveHolds_hold (fun k => some (holdAtResume (served s) k)) (holdsOn_nodup (served s)) k (served s)
  rw [if_pos mem, holds, same] at moved
  obtain ⟨old, was⟩ := Option.ne_none_iff_exists'.1 held
  refine (congrArg Hold.state moved).trans ?_
  simp only [Hold.moved, Option.elim_some, Hold.taken, was]
  split
  · next stays => rw [was, stays]
  · rfl

theorem resumeService_holds (s : State) : (resumeService s).holds = (holdsResume (served s)).holds :=
  (((Moves.refl (ks := [.note, .inb, .link])).to_evalAllCoils).to_modeToLinks).exactly .holds

theorem resumeService_mode (s : State) : (resumeService s).mode = some .service := by
  have later : Moves [.note, .record, .timer, .hold, .evaluate, .inb, .link] (served s) (resumeService s) :=
    ((Moves.refl.to_holdsResume).to_evalAllCoils).to_modeToLinks
  exact (later.exactly .mode).1.trans (evaluateAll_mode _)

/-- RESUME keeps the permissions held (R117). -/
theorem resumeService_permission (s : State) (k : Nat) : ((resumeService s).inb k).permission = (s.inb k).permission := by
  have before : (holdsResume (served s)).inb k = s.inb k := by
    have moves : Moves [.note, .record, .timer, .hold, .evaluate] (served s) (holdsResume (served s)) :=
      Moves.refl.to_holdsResume
    have served : (served s).inbound = s.inbound := (leaves_evaluateAll (enterMode .service s)).2.2.2 .inbound (by decide)
    exact congrArg (fun l : List Inbound => nth l {} k) (Eq.trans (moves.exactly .inbound) served)
  have coils : ((evalAllCoils (holdsResume (served s))).inb k).permission = ((holdsResume (served s)).inb k).permission := by
    refine forEach_keeps (I := fun v => (v.inb k).permission = ((holdsResume (served s)).inb k).permission) _
      (fun n _ v same => ?_) _ rfl
    rw [State.inb, evalCoils_inbound, nth_modAt]
    split
    · next own => exact own.1 ▸ same
    · exact same
  have links : (modeToLinks (evalAllCoils (holdsResume (served s)))).inb k = (evalAllCoils (holdsResume (served s))).inb k :=
    congrArg (fun l : List Inbound => nth l {} k) ((Moves.refl (ks := [.link])).to_modeToLinks.exactly .inbound)
  rw [resumeService_eq, links, coils, before]

end Sys2Proof.Machine
end

section
/-! O53: the clauses of CLEAR FAULT and RESUME put together (R165, R166). -/

set_option Elab.async false

namespace Sys2Proof.Machine

variable {s v : State} {c k n : Nat} {t : Time} {r : FaultRecord} {subject : Option Nat}

theorem endAlone_faults (r : CmdResult) (s : State) : (endAlone r s).faults = s.faults := rfl
theorem endAlone_register (r : CmdResult) (s : State) : (endAlone r s).register = s.register := rfl
theorem endAlone_mode (r : CmdResult) (s : State) : (endAlone r s).mode = s.mode := rfl
theorem endAlone_holds (r : CmdResult) (s : State) : (endAlone r s).holds = s.holds := rfl
theorem endAlone_inbound (r : CmdResult) (s : State) : (endAlone r s).inbound = s.inbound := rfl

/-! ### The subjects, read at the end of the step

`b` is the state with the record gone; `v` is the state at the reply. -/

section
variable (agreed : v.Undisputed)
include agreed

theorem cleared_circuit (own : c = 1 ∨ c = 2 ∨ c = 3 ∨ c = 4) (named : faultSubject c n = some (some k))
    (length : s.circuits.length = 24) (circuits : v.circuits = (unconfine c c (some k) s).circuits) :
    OtherCircuits k s (finish v)
      ∧ ((finish v).circuit k).confinement = dropSource c (s.circuit k).confinement
      ∧ ((s.circuit k).confinement ≠ [] → dropSource c (s.circuit k).confinement = [] → (s.circuit k).state = .failed →
        ((finish v).circuit k).state = .occupied ∧ ((finish v).circuit k).occupiedSince = some s.now)
      ∧ (dropSource c (s.circuit k).confinement ≠ [] ∨ (s.circuit k).state ≠ .failed →
        ((finish v).circuit k).state = (s.circuit k).state) := by
  have changed : v.circuits = modAt s.circuits {} k (Circuit.released c s.now) := by
    rw [circuits, unconfine_circuit own, unconfineTrack_circuits]
  rw [finish_own_circuit (s := s) agreed changed (here_of_within 24 (faultSubject_circuit own named) length)]
  exact ⟨finish_other_circuits (s := s) agreed changed, Circuit.released_confinement .., Circuit.released_state_of_free,
    Circuit.released_state_of_held⟩

theorem cleared_converter (circuits : v.circuits = (forEach (circuitsOn s) (unconfineTrack 5) s).circuits)
    (inside : within k 24 = true) (enabled : (s.circuit k).state ≠ .disabled) :
    ((finish v).circuit k).confinement = dropSource 5 (s.circuit k).confinement
      ∧ ((s.circuit k).confinement ≠ [] → dropSource 5 (s.circuit k).confinement = [] → (s.circuit k).state = .failed →
        ((finish v).circuit k).state = .occupied) := by
  have own : (finish v).circuit k = (s.circuit k).released 5 s.now := by
    rw [State.circuit, finish_circuits agreed, circuits]
    exact forEach_unconfineTrack_circuit (mem_circuitsOn.2 ⟨inside, enabled⟩)
  rw [own]
  exact ⟨Circuit.released_confinement .., fun was empties failed => (Circuit.released_state_of_free was empties failed).1⟩

theorem cleared_lever (own : c = 7 ∨ c = 8 ∨ c = 9 ∨ c = 10 ∨ c = 12 ∨ c = 20) (named : faultSubject c n = some (some k))
    (length : s.levers.length = 64) (levers : v.levers = (unconfine c c (some k) s).levers) :
    OtherLevers k s (finish v) ∧ ((finish v).lever k).confinement = dropSource c (s.lever k).confinement := by
  have same (j : Nat) : (finish v).lever j = (unconfineLever c k s).lever j := by
    rw [State.lever, finish_levers agreed, levers, unconfine_lever own]
    rfl
  obtain ⟨others, confinement⟩ := unconfineLever_spec (c := c) (here_of_within 64 (faultSubject_lever own named) length)
  exact ⟨fun j other => (same j).trans (others j other), (congrArg Lever.confinement (same k)).trans confinement⟩

theorem cleared_commutator (own : c = 11 ∨ c = 13 ∨ c = 14) (named : faultSubject c n = some (some k))
    (length : s.instruments.length = 3) (instruments : v.instruments = (unconfine c c (some k) s).instruments)
    (inbound : v.inbound = (unconfine c c (some k) s).inbound) :
    ((finish v).instrument k).confinement = dropSource c (s.instrument k).confinement
      ∧ ∀ p, (s.instrument k).confinement ≠ [] → dropSource c (s.instrument k).confinement = [] →
        (s.board (8 + k)).missing = false → (s.instrument k).current = .rest p → s.inbound.length = 3 →
        ((finish v).inb k).handle = some p := by
  have inside : within k 3 = true := faultSubject_link (by tauto) named
  rw [unconfine_commutator own] at instruments inbound
  refine ⟨?_, fun p was empties answers rests lines => ?_⟩
  · rw [State.instrument, finish_instruments agreed, instruments, unconfineCommutator_instruments, nth_modAt,
      if_pos ⟨rfl, here_of_within 3 inside length⟩]
    rfl
  · rw [State.inb, finish_inbound agreed, inbound]
    exact unconfineCommutator_handle (here_of_within 3 inside length) (here_of_within 3 inside lines) was empties answers rests

theorem cleared_forced (own : c = 15) (named : faultSubject c n = some (some k)) (length : s.inbound.length = 3)
    (inbound : v.inbound = (unconfine c c (some k) s).inbound) :
    ((finish v).inb k).forcedConfinement = dropSource 15 (s.inb k).forcedConfinement := by
  subst own
  rw [State.inb, finish_inbound agreed, inbound]
  exact unconfineForced_inb (here_of_within 3 (faultSubject_link (by tauto) named) length)

theorem cleared_link (own : c = 17 ∨ c = 18) (named : faultSubject c n = some (some k)) (length : s.links.length = 3)
    (links : v.links = (unconfine c c (some k) s).links) :
    ((finish v).link k).confinement = dropSource c (s.link k).confinement
      ∧ ((s.link k).confinement ≠ [] → dropSource c (s.link k).confinement = [] → s.linkOn k = true →
        ((finish v).link k).state ≠ .outOfUse
          ∧ ((finish v).link k).silenceAt = some (s.now + (cfgOf s k).silence * 1000)) := by
  have here := here_of_within 3 (faultSubject_link (by tauto) named) length
  have same : v.link k = (unconfineLink c k s).link k := by
    rw [State.link, links, unconfine_link own]
    rfl
  have kept : ((finish v).link k).kept = ((unconfineLink c k s).link k).kept :=
    (finish_link agreed k).trans (congrArg Link.kept same)
  refine ⟨(congrArg Link.confinement kept).trans (unconfineLink_confinement here), fun was empties on => ?_⟩
  obtain ⟨idle, silence⟩ := unconfineLink_used here was empties on
  refine ⟨finish_link_used agreed ?_, (congrArg Link.silenceAt kept).trans silence⟩
  rw [same, idle]
  exact nofun

end

theorem takes_recordCleared (s_open : s.Open) (named : faultSubject c n = some subject) (other : c ≠ 22)
    (found : s.faults.find c subject = some r) (latched : r.active = false) :
    Takes (.clearFault t c n) s
      [.faults, .register, .mode, .tracks, .levers, .instruments, .holds, .timers, .inbound, .outbound, .links, .result]
      fun u =>
      u.faults.find c subject = none ∧ u.Gave 0x72 []
        ∧ (∃ es, u.register = List.foldl Register.append (s.register.append
            (.faultCleared c subject r.reaction r.count true)) es)
        ∧ (c = 16 ∨ c = 19 ∨ c = 21 ∨ (c = 20 ∧ subject = none) →
          u.faults = { s.faults with
              records := s.faults.records.filter fun q => !(q.source == c && q.subject == subject) }
            ∧ u.register = s.register.append (.faultCleared c subject r.reaction r.count true))
        ∧ (∀ k, subject = some k → c = 1 ∨ c = 2 ∨ c = 3 ∨ c = 4 → s.circuits.length = 24 →
          OtherCircuits k s u
            ∧ (u.circuit k).confinement = dropSource c (s.circuit k).confinement
            ∧ ((s.circuit k).confinement ≠ [] → dropSource c (s.circuit k).confinement = [] →
              (s.circuit k).state = .failed →
              (u.circuit k).state = .occupied ∧ (u.circuit k).occupiedSince = some (max s.now t))
            ∧ (dropSource c (s.circuit k).confinement ≠ [] ∨ (s.circuit k).state ≠ .failed →
              (u.circuit k).state = (s.circuit k).state))
        ∧ (c = 5 → s.circuits.length = 24 → ∀ k, within k 24 = true → (s.circuit k).state ≠ .disabled →
          (u.circuit k).confinement = dropSource 5 (s.circuit k).confinement
            ∧ ((s.circuit k).confinement ≠ [] → dropSource 5 (s.circuit k).confinement = [] →
              (s.circuit k).state = .failed → (u.circuit k).state = .occupied))
        ∧ (∀ k, subject = some k → c = 7 ∨ c = 8 ∨ c = 9 ∨ c = 10 ∨ c = 12 ∨ c = 20 → s.levers.length = 64 →
          OtherLevers k s u ∧ (u.lever k).confinement = dropSource c (s.lever k).confinement)
        ∧ (∀ k, subject = some k → c = 11 ∨ c = 13 ∨ c = 14 → s.instruments.length = 3 →
          (u.instrument k).confinement = dropSource c (s.instrument k).confinement
            ∧ ∀ p, (s.instrument k).confinement ≠ [] → dropSource c (s.instrument k).confinement = [] →
              (s.board (8 + k)).missing = false → (s.instrument k).current = .rest p →
              s.inbound.length = 3 → (u.inb k).handle = some p)
        ∧ (∀ k, subject = some k → c = 15 → s.inbound.length = 3 →
          (u.inb k).forcedConfinement = dropSource 15 (s.inb k).forcedConfinement)
        ∧ (∀ k, subject = some k → c = 17 ∨ c = 18 → s.links.length = 3 →
          (u.link k).confinement = dropSource c (s.link k).confinement
            ∧ ((s.link k).confinement ≠ [] → dropSource c (s.link k).confinement = [] → s.linkOn k = true →
              (u.link k).state ≠ .outOfUse
                ∧ (u.link k).silenceAt = some (max s.now t + (cfgOf s k).silence * 1000))) := by
  refine .of_done rfl rfl s_open (cmdClearFault_of_found (s := s.atTime t) named other found latched)
    (moves_recordCleared r (s.atTime t)) rfl fun agreed _ gave => ?_
  obtain ⟨rfl, rfl⟩ := (isFor_iff r c subject).1 (List.find?_some (p := fun q : FaultRecord => q.isFor c subject) found)
  obtain ⟨gone, es, entries⟩ := recordCleared_spec (s := s.atTime t) s_open.2.2 r
  refine ⟨(congrArg (Faults.find · r.source r.subject) (finish_faults agreed)).trans gone, gave,
    ⟨es, (finish_register agreed).trans entries⟩, fun own => ?_,
    fun k subject own length => ?_, fun own length k inside enabled => ?_, fun k subject own length => ?_,
    fun k subject own length => ?_, fun k subject own length => ?_, fun k subject own length => ?_⟩
  · have alone := recordCleared_alone (s := s.atTime t) own
    exact ⟨(finish_faults agreed).trans (congrArg State.faults alone),
      (finish_register agreed).trans (congrArg State.register alone)⟩
  · exact cleared_circuit (s := clearRecord r true (s.atTime t)) agreed own (subject ▸ named) length
      (congrArg (fun o => (unconfine r.source r.source o (clearRecord r true (s.atTime t))).circuits) subject)
  · have none_named : r.subject = none := faultSubject_converter (own ▸ named)
    refine cleared_converter (s := clearRecord r true (s.atTime t)) agreed ?_ inside enabled
    refine Eq.trans (b := (unconfine r.source r.source r.subject (clearRecord r true (s.atTime t))).circuits) rfl ?_
    rw [own, none_named]
    rfl
  · exact cleared_lever (s := clearRecord r true (s.atTime t)) agreed own (subject ▸ named) length
      (congrArg (fun o => (unconfine r.source r.source o (clearRecord r true (s.atTime t))).levers) subject)
  · exact cleared_commutator (s := clearRecord r true (s.atTime t)) agreed own (subject ▸ named) length
      (congrArg (fun o => (unconfine r.source r.source o (clearRecord r true (s.atTime t))).instruments) subject)
      (congrArg (fun o => (unconfine r.source r.source o (clearRecord r true (s.atTime t))).inbound) subject)
  · exact cleared_forced (s := clearRecord r true (s.atTime t)) agreed own (subject ▸ named) length
      (congrArg (fun o => (unconfine r.source r.source o (clearRecord r true (s.atTime t))).inbound) subject)
  · exact cleared_link (s := clearRecord r true (s.atTime t)) agreed own (subject ▸ named) length
      (congrArg (fun o => (unconfine r.source r.source o (clearRecord r true (s.atTime t))).links) subject)

theorem takes_overflowCleared (s_open : s.Open) (named : faultSubject c n = some subject) (own : c = 22)
    (held : s.faults.overflowCount ≠ 0) (tracks : ∀ k, within k 24 = true → 22 ∉ (s.circuit k).confinement)
    (levers : ∀ k, within k 64 = true → 22 ∉ (s.lever k).confinement)
    (others : ∀ k, within k 3 = true → 22 ∉ (s.instrument k).confinement
      ∧ 22 ∉ (s.inb k).forcedConfinement ∧ 22 ∉ (s.link k).confinement) :
    Takes (.clearFault t c n) s [.faults, .register, .inbound, .result] fun u =>
      u.faults = { s.faults with overflowCount := 0, overflowLast := none, overflowReaction := none }
        ∧ u.register = s.register.append
          (.faultCleared 22 none (s.faults.overflowReaction.getD .report) s.faults.overflowCount true)
        ∧ u.Gave 0x72 [] := by
  have ran := (cmdClearFault_of_overflow (s := s.atTime t) named own).trans (clearOverflow_of_held (s := s.atTime t) held)
  have later : Moves [.note, .inb] (overflowCleared (s.atTime t))
      (noteFault 22 (unconfineOverflow (overflowCleared (s.atTime t)))) :=
    (moves_unconfineOverflow (s := overflowCleared (s.atTime t)) tracks levers (fun k inside => (others k inside).1)
      fun k inside => (others k inside).2.2).to_noteFault 22
  have first : Moves [.faults, .record] (s.atTime t) (overflowCleared (s.atTime t)) :=
    (Moves.refl.to_modFaults Faults.drained (Faults.eases_clearOverflow _)).to_append _
  have moves : Moves [.faults, .record, .note, .inb] (s.atTime t) _ :=
    (first.mono (by decide)).trans (later.mono (by decide))
  exact .of_done rfl rfl s_open ran moves rfl fun agreed _ gave =>
    ⟨by rw [finish_faults agreed, endAlone_faults, later.exactly .faults]; rfl,
      by rw [finish_register agreed, endAlone_register, later.exactly .register]; rfl, gave⟩

theorem takes_resumed (s_open : s.Open) (suspended : s.mode = some .suspended) (free : suspendStands s = false) :
    Takes (.resume t) s [.mode, .levers, .holds, .timers, .register, .inbound, .links, .result] fun u =>
      u.mode = some .service ∧ u.Gave 0x73 []
        ∧ (∀ k, within k 16 = true → (s.hold k).state ≠ none → (u.hold k).state = some (holdAtResume s k))
        ∧ ∀ k, within k 3 = true → (u.inb k).permission = (s.inb k).permission := by
  have ran : cmdResume (s.atTime t) = (resumeService (s.atTime t), .done []) :=
    if_neg (by
      rw [Bool.or_eq_true, decide_eq_true_iff]
      exact fun either => either.elim (· suspended) fun stands => Bool.false_ne_true (free.symm.trans stands))
  refine .of_done_calm (ks := resumeKinds) rfl rfl s_open ran (Moves.to_resumeService free .refl) rfl
    fun agreed _ gave => ⟨by rw [finish_mode agreed, endAlone_mode, resumeService_mode], gave, fun k inside held => ?_,
      fun k _ => ?_⟩
  · rw [State.hold, finish_holds agreed, endAlone_holds, resumeService_holds]
    exact holdsResume_served (s := s.atTime t) held inside
  · rw [State.inb, finish_inbound agreed, endAlone_inbound]
    exact resumeService_permission (s.atTime t) k

theorem cmdResume_of_refused (refused : s.mode ≠ some .suspended ∨ suspendStands s = true) :
    cmdResume s = refuse .state s :=
  if_pos (by
    rw [Bool.or_eq_true, decide_eq_true_iff]
    exact refused)

/-- Settles O53: CLEAR FAULT and RESUME, with every refusal. -/
theorem faultsAreClearedAndServiceResumed : Obligations.FaultsAreClearedAndServiceResumed := by
  unfold Obligations.FaultsAreClearedAndServiceResumed
  intro s t c n s_open
  refine ⟨fun no_subject => ?_, fun subject named => ⟨fun other missing => ?_, fun own empty => ?_,
    fun r other found latched => takes_recordCleared s_open named other found latched,
    takes_overflowCleared s_open named⟩, fun refused => ?_,
    fun suspended free _ => takes_resumed s_open suspended free⟩
  · exact .of_refuse rfl rfl s_open (by simp only [cmdClearFault, no_subject]) rfl
  · exact .of_refuse rfl rfl s_open (cmdClearFault_of_missing (s := s.atTime t) named other missing) rfl
  · exact .of_refuse rfl rfl s_open ((cmdClearFault_of_overflow (s := s.atTime t) named own).trans (if_pos empty)) rfl
  · exact .of_refuse rfl rfl s_open (cmdResume_of_refused (s := s.atTime t) refused) rfl

end Sys2Proof.Machine
end

section
/-! What evaluations, confinements and the causes of levers, commutators and boards leave of the levers (R59, R62,
R161, R166), and what such a cause changes at all. -/

set_option Elab.async false

namespace Sys2Proof.Machine

variable {s u v w : State} {c d j k n b : Nat} {ks : List Kind} {ps : List Part} {l m : Lever} {g : Lever → Lever}
  {subject : Option Nat} {f : Nat → State → State}

/-! ### Levers that keep what their contacts have told -/

/-- A lever but for what an evaluation decides, its confinement, and the release held. -/
def Lever.core (l : Lever) : Lever :=
  { l with free := false, reason := .mode, firstUnmet := none, coil := false, mismatch := false, mismatchDue := false,
           held := none, confinement := [] }

/-- A lever that has been evaluated, confined or let go: a release held may have ended. -/
structure Lever.Calm (l m : Lever) : Prop where
  core : m.core = l.core
  held : m.held = l.held ∨ m.held = none

theorem Lever.Calm.refl (l : Lever) : l.Calm l := ⟨rfl, .inl rfl⟩

theorem Lever.Calm.trans {o : Lever} (h : l.Calm m) (i : m.Calm o) : l.Calm o :=
  ⟨i.core.trans h.core, i.held.elim (fun same => h.held.imp same.trans same.trans) .inr⟩

/-- What is read of a lever's core is read of the lever. -/
theorem Lever.Calm.current (h : l.Calm m) : m.current = l.current := congrArg (·.current) h.core
theorem Lever.Calm.settled (h : l.Calm m) : m.settled = l.settled := congrArg (·.settled) h.core
theorem Lever.Calm.slot (h : l.Calm m) : m.slot = l.slot := congrArg (·.slot) h.core
theorem Lever.Calm.forcedActive (h : l.Calm m) : m.forcedActive = l.forcedActive := congrArg (·.forcedActive) h.core
theorem Lever.Calm.allowance (h : l.Calm m) : m.allowance = l.allowance := congrArg (·.allowance) h.core

/-- Every lever is calm from one state to the other. -/
def CalmLevers (s u : State) : Prop := ∀ k, (s.lever k).Calm (u.lever k)

theorem CalmLevers.trans (h : CalmLevers s u) (i : CalmLevers u v) : CalmLevers s v := fun k => (h k).trans (i k)

theorem calm_of_same (same : u.levers = s.levers) : CalmLevers s u := fun k => by
  rw [State.lever, State.lever, same]
  exact .refl _

theorem CalmLevers.refl (s : State) : CalmLevers s s := calm_of_same rfl

theorem calm_of_modAt (changed : u.levers = modAt s.levers {} k g) (calm : ∀ l : Lever, l.Calm (g l)) : CalmLevers s u := by
  intro j
  rw [State.lever, State.lever, changed, nth_modAt]
  split
  · next own => rw [own.1]; exact calm _
  · exact .refl _

/-- Moves that touch no lever. -/
theorem Moves.calm (moves : Moves ks s u) (away : ∀ x ∈ ks, Part.levers ∉ x.parts := by decide) : CalmLevers s u :=
  calm_of_same (moves.exactly .levers away)

theorem calm_forEach (ns : List Nat) (each : ∀ n w, CalmLevers w (f n w)) (s : State) : CalmLevers s (forEach ns f s) :=
  forEach_keeps (I := CalmLevers s) ns (fun n _ w calm => calm.trans (each n w)) s (.refl s)

theorem calm_when (b : Bool) (f : State → State) (calm : CalmLevers s (f s)) : CalmLevers s (when b f s) := by
  cases b with
  | false => exact .refl s
  | true => exact calm

theorem calm_evaluate (k : Nat) (s : State) : CalmLevers s (evaluate k s) :=
  calm_of_modAt (evaluate_levers k s) fun _ => ⟨rfl, .inl rfl⟩

theorem calm_evaluateNaming (p : Subject → Bool) (s : State) : CalmLevers s (evaluateNaming p s) :=
  calm_forEach _ calm_evaluate s

theorem calm_evaluateNamingLever (k : Nat) (s : State) : CalmLevers s (evaluateNamingLever k s) :=
  calm_forEach _ calm_evaluate s

theorem calm_evaluateAll (s : State) : CalmLevers s (evaluateAll s) := calm_forEach _ calm_evaluate s

theorem calm_changeLever (k : Nat) (calm : ∀ l : Lever, l.Calm (g l)) (s : State) : CalmLevers s (changeLever k g s) :=
  calm_of_modAt (changeLever_levers k g s) calm

def Lever.unheld (l : Lever) : Lever := { l with held := none }

theorem Lever.calm_unheld (l : Lever) : l.Calm l.unheld := ⟨rfl, .inr rfl⟩

theorem calm_endRelease (k : Nat) (s : State) : CalmLevers s (endRelease k s) :=
  (calm_changeLever k Lever.calm_unheld s).trans (calm_evaluate k _)

theorem calm_linesTakeLever (k : Nat) (s : State) : CalmLevers s (linesTakeLever k s) :=
  (Moves.refl.to_linesTakeLever (ks := [.note, .inb]) k).calm

/-- What an event of a lever's readings does: no reading changes, and no release (R41). -/
theorem calm_leverEvent (k : Nat) (s : State) : CalmLevers s (leverEvent k s) :=
  ((calm_evaluate k s).trans (calm_evaluateNamingLever k _)).trans (calm_linesTakeLever k _)

theorem calm_confineLever (c k : Nat) (s : State) : CalmLevers s (confineLever c k s) := by
  have changed (set : List Nat) : CalmLevers s (noteLever k (s.modLever k fun l => { l with confinement := set })) :=
    calm_of_modAt (g := fun l => { l with confinement := set }) rfl fun _ => ⟨rfl, .inl rfl⟩
  simp only [confineLever]
  split
  · exact .refl s
  · split
    · exact changed _
    · split
      · exact (changed _).trans (calm_evaluate k _)
      · exact (changed _).trans (calm_endRelease k _)

theorem calm_unconfineLever (c k : Nat) (s : State) : CalmLevers s (unconfineLever c k s) := by
  have changed (set : List Nat) : CalmLevers s (noteLever k (s.modLever k fun l => { l with confinement := set })) :=
    calm_of_modAt (g := fun l => { l with confinement := set }) rfl fun _ => ⟨rfl, .inl rfl⟩
  simp only [unconfineLever]
  split
  · exact .refl s
  · split
    · exact (changed _).trans (calm_evaluate k _)
    · exact changed _

theorem calm_takeRestriction (m : Mode) (s : State) : CalmLevers s (takeRestriction m s) := by
  have released : CalmLevers s (endReleasesForMode (takeMode m s)) :=
    (calm_of_same (u := takeMode m s) rfl).trans
      (calm_forEach _ (fun k w => calm_changeLever k Lever.calm_unheld w) _)
  have later : Moves [.note, .inb, .link] (evaluateAll (endReleasesForMode (takeMode m s))) (takeRestriction m s) :=
    (Moves.refl.to_forEach _ fun k _ => Moves.refl.to_cutPermission k _).to_when _ fun _ => Moves.refl.to_modeToLinks
  exact (released.trans (calm_evaluateAll _)).trans later.calm

/-! ### Causes that take no link out of use -/

/-- A cause but for its confinement: the record and its entry before it, the notice and the mode after it (R162). -/
theorem moves_raise (no_link : c ≠ 17 ∧ c ≠ 18) (confines : ∀ as w, Moves ks w (confine c as subject w)) :
    Moves (ks ++ modeKinds) (noteOccurrence c subject s) (raise c subject s) := by
  have confined : Moves ks (noteOccurrence c subject s) (when ((occurrence s c subject).reaction != .report)
      (confine c (occurrence s c subject).source subject) (noteOccurrence c subject s)) :=
    Moves.refl.to_when _ fun _ => confines _ _
  have told := (confined.mono (ls := ks ++ modeKinds) (by simp +contextual)).trans
    ((Moves.refl.to_noteFault (ks := modeKinds) (occurrence s c subject).source).mono (by simp +contextual))
  refine told.trans ((moves_after_confinement ?_).mono (by simp +contextual))
  cases subject <;> simp [linkTaken, no_link]

theorem noteOccurrence_undisputed (undisputed : s.Undisputed) : (noteOccurrence c subject s).Undisputed := by
  have same : (noteOccurrence c subject s).levers = s.levers := (leaves_noteOccurrence c subject s).2.2.2 .levers (by decide)
  rw [State.Undisputed, same]
  exact undisputed

/-- The fault table after a cause has begun. -/
theorem raise_faults (undisputed : s.Undisputed) (no_link : c ≠ 17 ∧ c ≠ 18)
    (confines : ∀ as w, Moves ks w (confine c as subject w)) (away : .faults ∉ ks) :
    (raise c subject s).faults = (countOccurrence c subject s).faults := by
  rw [(moves_raise no_link confines).faults_kept (noteOccurrence_undisputed undisputed) (by simp [away]), noteOccurrence_faults]

theorem calm_raise (no_link : c ≠ 17 ∧ c ≠ 18) (confines : ∀ as w, CalmLevers w (confine c as subject w)) (s : State) :
    CalmLevers s (raise c subject s) := by
  have no_link : linkTaken c subject s = none := by cases subject <;> simp [linkTaken, no_link]
  have noted : CalmLevers s (noteOccurrence c subject s) :=
    calm_of_same ((leaves_noteOccurrence c subject s).2.2.2 .levers (by decide))
  have confined := noted.trans (calm_when ((occurrence s c subject).reaction != .report) _
    (confines (occurrence s c subject).source (noteOccurrence c subject s)))
  have told : CalmLevers s (tellOccurrence c subject s) := by
    simp only [tellOccurrence, no_link]
    exact confined.trans (((Moves.refl (ks := [.note, .record])).to_noteFault _).to_when _ fun _ => Moves.refl.to_append _).calm
  rw [raise_eq]
  exact told.trans (calm_when _ _ (calm_takeRestriction .suspended _))

/-! ### The causes of levers, commutators and boards -/

/-- The codes of the causes that confine levers (R36, R38, R39). -/
abbrev OfLever (c : Nat) : Prop := c = 7 ∨ c = 8 ∨ c = 9 ∨ c = 10 ∨ c = 12 ∨ c = 20

/-- The codes of the causes that confine commutators (R38, R43). -/
abbrev OfCommutator (c : Nat) : Prop := c = 11 ∨ c = 13 ∨ c = 14

theorem confine_lever (own : OfLever c) (as : Nat) (s : State) : confine c as (some k) s = confineLever as k s := by
  rcases own with rfl | rfl | rfl | rfl | rfl | rfl <;> rfl

theorem confine_commutator (own : OfCommutator c) (as : Nat) (s : State) :
    confine c as (some k) s = confineCommutator as k s := by
  rcases own with rfl | rfl | rfl <;> rfl

theorem OfLever.no_link (own : OfLever c) : c ≠ 17 ∧ c ≠ 18 := by omega
theorem OfCommutator.no_link (own : OfCommutator c) : c ≠ 17 ∧ c ≠ 18 := by omega

theorem moves_confine_lever (own : OfLever c) (as : Nat) (w : State) :
    Moves [.note, .lever, .evaluate] w (confine c as (some k) w) := by
  rw [confine_lever own]
  exact Moves.refl.to_confineLever as k

theorem moves_confine_commutator (own : OfCommutator c) (as : Nat) (w : State) :
    Moves [.note, .inb, .instrument] w (confine c as (some k) w) := by
  rw [confine_commutator own]
  exact Moves.refl.to_confineCommutator as k

theorem calm_raise_lever (own : OfLever c) (k : Nat) (s : State) : CalmLevers s (raise c (some k) s) :=
  calm_raise own.no_link (fun as w => by rw [confine_lever own]; exact calm_confineLever as k w) s

theorem raise_lever_faults (own : OfLever c) (undisputed : s.Undisputed) :
    (raise c (some k) s).faults = (countOccurrence c (some k) s).faults :=
  raise_faults undisputed own.no_link (moves_confine_lever own) (by decide)

theorem raise_commutator_faults (own : OfCommutator c) (undisputed : s.Undisputed) :
    (raise c (some k) s).faults = (countOccurrence c (some k) s).faults :=
  raise_faults undisputed own.no_link (moves_confine_commutator own) (by decide)

theorem calm_endCause_lever (own : OfLever c) (k : Nat) (s : State) : CalmLevers s (endCause c (some k) s) := by
  unfold endCause
  split
  · split
    · exact .refl s
    · next r _ =>
      have cleared : CalmLevers s (clearRecord r false s) := calm_of_same rfl
      rw [unconfine_lever own]
      exact (cleared.trans (calm_unconfineLever c k _)).trans (Moves.refl.to_noteFault (ks := [.note]) c).calm
  · exact calm_of_same (latchRecord_levers ..)

/-! ### The instruments -/

/-- An instrument but for its confinement. -/
def Instrument.core (i : Instrument) : Instrument := { i with confinement := [] }

theorem confineCommutator_instruments (c k : Nat) (s : State) :
    (confineCommutator c k s).instruments
      = modAt s.instruments {} k fun i => { i with confinement := addSource c i.confinement } := by
  simp only [confineCommutator]
  split
  · exact (Moves.refl.to_commutatorUnknown (ks := [.note, .inb]) k).exactly .instruments
  · rfl

/-- A cause that confines a commutator, where its reaction asks for that, touches no other instrument. -/
theorem raise_instrument (no_link : linkTaken c subject s = none)
    (confines : ∀ as w, confine c as subject w = confineCommutator as k w) (j : Nat) :
    ((raise c subject s).instrument j).core = (s.instrument j).core
      ∧ (j ≠ k → (raise c subject s).instrument j = s.instrument j) := by
  have noted : (noteOccurrence c subject s).instruments = s.instruments :=
    (leaves_noteOccurrence c subject s).2.2.2 .instruments (by decide)
  have later : (raise c subject s).instruments = (confineOccurrence c subject s).instruments :=
    (moves_after_confinement no_link).exactly .instruments
  have confined : (confineOccurrence c subject s).instruments
      = (when ((occurrence s c subject).reaction != .report) (confineCommutator (occurrence s c subject).source k)
        (noteOccurrence c subject s)).instruments := by
    simp only [confineOccurrence]
    cases (occurrence s c subject).reaction != .report with
    | false => rfl
    | true =>
      rw [when_true, when_true, confines]
      rfl
  rw [State.instrument, State.instrument, later, confined]
  cases (occurrence s c subject).reaction != .report with
  | false =>
    rw [when_false, noted]
    exact ⟨rfl, fun _ => rfl⟩
  | true =>
    rw [when_true, confineCommutator_instruments, noted, nth_modAt]
    split
    · next own =>
      rw [own.1]
      exact ⟨rfl, fun other => absurd rfl other⟩
    · exact ⟨rfl, fun _ => rfl⟩

theorem raise_commutator_instrument (own : OfCommutator c) (k j : Nat) (s : State) :
    ((raise c (some k) s).instrument j).core = (s.instrument j).core
      ∧ (j ≠ k → (raise c (some k) s).instrument j = s.instrument j) :=
  raise_instrument (by simp [linkTaken, own.no_link]) (confine_commutator own) j

end Sys2Proof.Machine
end

section
/-! Missed polls (R31, R32), and rows told by what they leave alone, with staged values that reload. -/

set_option Elab.async false

namespace Sys2Proof.Machine

variable {s u v w : State} {c d j k n b : Nat} {ks : List Kind} {ps qs : List Part} {l m : Lever} {t : Time} {i : Instr}
  {P : State → Prop} {f : State → State} {o : List Bool} {subject : Option Nat}

/-! ### Rows told by what they leave alone -/

/-- Moves leave every part that none of their kinds touches. -/
theorem Moves.leaves (h : Moves ks s u) (parts : ∀ x ∈ ks, ∀ q ∈ x.parts, q ∈ qs := by decide)
    (away : .time ∉ ks := by decide) : Leaves qs s u :=
  ⟨h.untouched.2.1, h.untouched.2.2.1, h.now_eq away, fun p out => h.untouched.1 p fun x held mem => out (parts x held p mem)⟩

/-- A row by what its effect leaves alone, where its moves say more than it does, but for staged values that come to
their reload point. -/
theorem Takes.of_parts (row : exec i s = .next (finish (f (s.comeTo t)))) (time : i.time = some t)
    (undisputed : s.Undisputed) (effect : f (s.atTime t) = v) (moves : Moves ks (s.atTime t) v)
    (left : Leaves (.store :: .transmitter :: ps) (s.atTime t) v) (holds : v.Undisputed → v.now = max s.now t → P (finish v))
    (lasting : Kind.stage ∉ ks ∧ .begin ∉ ks ∧ .time ∉ ks := by decide)
    (stored : Kind.store ∉ ks ∧ .tables ∉ ks ∧ .jobs ∉ ks := by decide)
    (told : ∃ p ∈ ps, p.silent = false := by decide) : Takes i s ps P := by
  intro prompt
  have same : ∀ agreed : v.Undisputed, ∀ q, q ≠ .store → q ∉ ps → q.same s (finish v) := by
    intro agreed q stores away
    by_cases transmits : q = .transmitter
    · subst transmits; trivial
    · exact Part.same_trans (Part.same_trans (by cases q <;> simp [Part.same])
        (Part.same_of_exactly (left.2.2.2 q (by simp [away, transmits, stores])))) (finish_part agreed q)
  obtain ⟨u, next, now, ⟨⟨pending, count, parts⟩, unstaged⟩, rest, holds⟩ :=
    Takes.of_result (ps := ks.flatMap Kind.main ++ ps) (P := fun u => (∀ q, q ≠ .store → q ∉ ps → q.same s u) ∧ P u)
      row time undisputed effect moves (fun agreed now => ⟨same agreed, holds agreed now⟩)
      (fun x held q main => List.mem_append_left _ (List.mem_flatMap.2 ⟨x, held, main⟩)) lasting (.inr stored)
      (.inl (told.imp fun _ => .imp_left (List.mem_append_right _))) prompt
  have not_main := store_not_main lasting.2.1 stored.1
  refine ⟨u, next, now, ⟨⟨pending, count, fun q away => ?_⟩, fun none_staged => ⟨fun away => ?_, fun all_silent => ?_⟩⟩, holds⟩
  · by_cases stores : q = .store
    · exact parts q fun mem => (List.mem_append.1 mem).elim (stores ▸ not_main) away
    · exact rest q stores away
  · exact (unstaged none_staged).1 fun mem => (List.mem_append.1 mem).elim not_main away
  · obtain ⟨p, mem, loud⟩ := told
    exact absurd (all_silent p mem) (by simp [loud])

/-- What a cause that takes no link out of use leaves alone. -/
theorem leaves_raise (no_link : c ≠ 17 ∧ c ≠ 18) (confines : ∀ as w, Moves ks w (confine c as subject w))
    (parts : ∀ x ∈ ks ++ modeKinds, ∀ q ∈ x.parts, q ∈ qs) (table : Part.faults ∈ qs ∧ .register ∈ qs ∧ .transmitter ∈ qs)
    (away : .time ∉ ks) (s : State) : Leaves qs s (raise c subject s) :=
  ((leaves_noteOccurrence c subject s).mono (by simp [table])).trans
    ((moves_raise no_link confines).leaves parts (by simp [away]))

/-! ### Polls -/

/-- A board whose poll has ended (R38). -/
def Board.polled (o : List Bool) (good : Bool) (r : Board) : Board := { r with before := r.last, last := some ⟨o, good⟩ }

def Board.missedOnce (r : Board) : Board := { r with misses := r.misses + 1 }
def Board.silent (r : Board) : Board := { r with goods := 0 }
def Board.lost (r : Board) : Board := { r with misses := 3, missing := true, goods := 0 }

theorem endPoll_eq (b : Nat) (o : List Bool) (good : Bool) (s : State) :
    endPoll b o good s = { s with polled := none }.modBoard b (Board.polled o good) := rfl

theorem moves_endPoll (b : Nat) (o : List Bool) (good : Bool) (s : State) : Moves [.board, .scan] s (endPoll b o good s) :=
  Moves.refl.to_endPoll b o good

section
variable {g : Board → Board} {good : Bool}

/-- A board's record after its poll, the rest of the step having left the boards alone. -/
theorem endPoll_board (here : within b s.boards.length = true) (boards : v.boards = modAt s.boards {} b g) :
    (endPoll b o good v).board b = (g (s.board b)).polled o good := by
  rw [endPoll_eq, State.board, State.modBoard_boards]
  change nth (modAt v.boards {} b _) {} b = _
  rw [boards, modAt_modAt, nth_modAt, if_pos ⟨rfl, here⟩]
  rfl

theorem endPoll_other (boards : v.boards = modAt s.boards {} b g) (other : j ≠ b) :
    (endPoll b o good v).board j = s.board j := by
  rw [endPoll_eq, State.board, State.modBoard_boards]
  change nth (modAt v.boards {} b _) {} j = _
  rw [boards, modAt_modAt, nth_modAt, if_neg fun own => other own.1]
  rfl

end

/-! ### A missed poll (R32) -/

theorem missed_of_other (polled : s.polled = some (b, o)) (other : j ≠ b) : missed j s = s := by
  simp [missed, polled, other]

theorem missed_of_own (polled : s.polled = some (b, o)) : missed b s = takeMiss b o s := by
  simp [missed, polled]

theorem takeMiss_of_missing (missing : (s.board b).missing = true) :
    takeMiss b o s = endPoll b o false (s.modBoard b Board.silent) := by
  simp only [takeMiss, missing, if_true]
  rfl

theorem takeMiss_of_counted (present : (s.board b).missing = false) (few : (s.board b).misses < 2) :
    takeMiss b o s = endPoll b o false (s.modBoard b Board.missedOnce) := by
  have counts : (s.board b).misses + 1 < 3 := by omega
  simp only [takeMiss, present, Bool.false_eq_true, if_false, counts, if_true]
  rfl

theorem takeMiss_of_third (present : (s.board b).missing = false) (third : (s.board b).misses = 2) :
    takeMiss b o s = endPoll b o false (raise 6 (some b) (loseBoard b (s.modBoard b Board.lost))) := by
  simp only [takeMiss, present, Bool.false_eq_true, if_false, third, Nat.lt_irrefl]
  rfl

end Sys2Proof.Machine
end

section
/-! O29: polls, lamps, and a board that goes MISSING (R30 to R32, R46). -/

set_option Elab.async false

namespace Sys2Proof.Machine

variable {s u v w : State} {c d j k n b : Nat} {l m : Lever} {t : Time} {o : List Bool} {subject : Option Nat}

/-! ### Levers that become UNKNOWN (R32, R36) -/

def Lever.lost (l : Lever) : Lever := { l with current := .unknown, seenUnknown := true, held := none }

def Lever.unread (l : Lever) : Lever := { l with lastReading := none, run := 0 }

/-- A lever that, whatever was lost, keeps its settled position and becomes UNKNOWN at most. -/
structure Lever.Fades (l m : Lever) : Prop where
  settled : m.settled = l.settled
  current : l.current = .unknown → m.current = .unknown

theorem Lever.Fades.trans {p : Lever} (h : l.Fades m) (i : m.Fades p) : l.Fades p :=
  ⟨i.settled.trans h.settled, fun unknown => i.current (h.current unknown)⟩

theorem Lever.Calm.fades (h : l.Calm m) : l.Fades m := ⟨h.settled, h.current.trans⟩

theorem fades_of_modAt {g : Lever → Lever} (changed : u.levers = modAt s.levers {} k g) (fades : ∀ l : Lever, l.Fades (g l))
    (j : Nat) : (s.lever j).Fades (u.lever j) := by
  rw [State.lever, State.lever, changed, nth_modAt]
  split
  · next own => rw [own.1]; exact fades _
  · exact ⟨rfl, id⟩

theorem leverUnknown_of_known (known : (s.lever k).current ≠ .unknown) :
    leverUnknown k s = leverEvent k (noteLever k (changeLever k Lever.lost s)) := if_neg known

theorem leverUnknown_fades (k j : Nat) (s : State) : (s.lever j).Fades ((leverUnknown k s).lever j) := by
  by_cases unknown : (s.lever k).current = .unknown
  · rw [leverUnknown, if_pos unknown]
    exact ⟨rfl, id⟩
  · have lost : (s.lever j).Fades ((noteLever k (changeLever k Lever.lost s)).lever j) :=
      fades_of_modAt (changeLever_levers k Lever.lost s) (fun _ => ⟨rfl, fun _ => rfl⟩) j
    rw [leverUnknown_of_known unknown]
    exact lost.trans (calm_leverEvent k _ j).fades

/-- The lever itself is UNKNOWN. -/
theorem leverUnknown_current (k : Nat) (s : State) : ((leverUnknown k s).lever k).current = .unknown := by
  by_cases unknown : (s.lever k).current = .unknown
  · rw [leverUnknown, if_pos unknown]
    exact unknown
  · have lost : ((noteLever k (changeLever k Lever.lost s)).lever k).current = .unknown := by
      refine (congrArg (·.current) (changeLever_lever k k Lever.lost s)).trans ?_
      split
      · rfl
      · next outside =>
        have blank : s.lever k = {} := nth_outside _ _ _ (by simpa using outside)
        rw [blank]
    rw [leverUnknown_of_known unknown]
    exact (calm_leverEvent k _ k).current.trans lost

/-- One lever of a board that is lost (R32). -/
def leverLost (k : Nat) (s : State) : State := (leverUnknown k s).modLever k Lever.unread

theorem leverLost_fades (k j : Nat) (s : State) : (s.lever j).Fades ((leverLost k s).lever j) :=
  (leverUnknown_fades k j s).trans (fades_of_modAt (g := Lever.unread) rfl (fun _ => ⟨rfl, id⟩) j)

theorem leverLost_current (k : Nat) (s : State) : ((leverLost k s).lever k).current = .unknown :=
  (fades_of_modAt (s := leverUnknown k s) (g := Lever.unread) rfl (fun _ => ⟨rfl, id⟩) k).current (leverUnknown_current k s)

theorem loseBoard_of_levers (low : b ≤ 8) : loseBoard b s = forEach (leversOfBoard s b) leverLost s := if_pos low

theorem mem_leversOfBoard (inside : within k 64 = true) (mapped : (s.lever k).slot.any (boardOfSlot · == b) = true) :
    k ∈ leversOfBoard s b := List.mem_filter.2 ⟨mem_upTo.2 inside, mapped⟩

/-- Every lever of a lever board that is lost becomes UNKNOWN, its settled position kept (R32). -/
theorem loseBoard_lever (low : b ≤ 8) (inside : within k 64 = true)
    (mapped : (s.lever k).slot.any (boardOfSlot · == b) = true) :
    ((loseBoard b s).lever k).current = .unknown ∧ ((loseBoard b s).lever k).settled = (s.lever k).settled := by
  rw [loseBoard_of_levers low]
  exact ⟨forEach_establishes (J := fun v => (v.lever k).current = .unknown) (mem_leversOfBoard inside mapped)
      (leverLost_current k) (fun n v => (leverLost_fades n k v).current) s,
    forEach_keeps (I := fun v => (v.lever k).settled = (s.lever k).settled) _
      (fun n _ v same => (leverLost_fades n k v).settled.trans same) s rfl⟩

theorem moves_loseBoard_levers (low : b ≤ 8) (s : State) : Moves [.note, .evaluate, .inb, .lever] s (loseBoard b s) := by
  rw [loseBoard_of_levers low]
  exact Moves.refl.to_forEach _ fun k _ => (Moves.refl.to_leverUnknown k).to_modLever k _

/-! ### BOARD_MISSING (R32, R161) -/

theorem confine_levers_of_board (low : b ≤ 8) (as : Nat) (w : State) :
    confine 6 as (some b) w = forEach (leversOfBoard w b) (confineLever as) w := if_pos low

theorem confine_commutator_of_board (as : Nat) (inside : within k 3 = true) (w : State) :
    confine 6 as (some (8 + k)) w = confineCommutator as k w := by
  have high : ¬ 8 + k ≤ 8 := by have := within_le inside; omega
  have board : 8 + k - 8 = k := by omega
  exact (if_neg high).trans (congrArg (confineCommutator as · w) board)

theorem moves_confine_levers_of_board (low : b ≤ 8) (as : Nat) (w : State) :
    Moves [.note, .lever, .evaluate] w (confine 6 as (some b) w) := by
  rw [confine_levers_of_board low]
  exact Moves.refl.to_forEach _ fun k _ => Moves.refl.to_confineLever as k

theorem moves_confine_commutator_of_board (inside : within k 3 = true) (as : Nat) (w : State) :
    Moves [.note, .inb, .instrument] w (confine 6 as (some (8 + k)) w) := by
  rw [confine_commutator_of_board as inside]
  exact Moves.refl.to_confineCommutator as k

theorem calm_raise_levers_of_board (low : b ≤ 8) (s : State) : CalmLevers s (raise 6 (some b) s) :=
  calm_raise (by decide) (fun as w => by
    rw [confine_levers_of_board low]
    exact calm_forEach _ (calm_confineLever as) w) s

/-- A cause that is counted has its record where the table has room (R162). -/
theorem countOccurrence_held (room : s.faults.records.length < 32) :
    ((countOccurrence c subject s).faults.find c subject).isSome = true := by
  cases found : s.faults.find c subject with
  | some r =>
    rw [countOccurrence_of_found found]
    rw [Faults.find_update, found]
    · rfl
    · exact fun _ => ⟨rfl, rfl⟩
  | none =>
    rw [countOccurrence_of_absent found room]
    change ((s.faults.records ++ [newRecord s c subject]).find? fun r => r.isFor c subject).isSome = true
    rw [List.find?_isSome]
    exact ⟨newRecord s c subject, by simp, (isFor_iff _ _ _).2 ⟨rfl, rfl⟩⟩

/-! ### Commutators and plungers that are lost -/

/-- The instrument of a board that is lost (R32, R44). -/
def Instrument.lost (i : Instrument) : Instrument := { i with current := .unknown, lastReading := none, plunger := .arming }

theorem plungerLost_eq (k : Nat) (s : State) :
    ∃ f : State → State, plungerLost k s = f (s.modInstrument k fun i => { i with plunger := .arming })
      ∧ ∀ w, Moves sentKinds w (f w) := by
  cases plunger : (s.instrument k).plunger with
  | closed start => exact ⟨strokeEnd k start true, by simp only [plungerLost, plunger], fun _ => Moves.refl.to_strokeEnd k _ _⟩
  | arming => exact ⟨id, by simp only [plungerLost, plunger], fun _ => .refl⟩
  | released => exact ⟨id, by simp only [plungerLost, plunger], fun _ => .refl⟩

theorem plungerLost_instruments (k : Nat) (s : State) :
    (plungerLost k s).instruments = modAt s.instruments {} k fun i => { i with plunger := .arming } := by
  obtain ⟨f, eq, moves⟩ := plungerLost_eq k s
  rw [eq, (moves _).exactly .instruments]
  rfl

theorem commUnknown_instruments (k : Nat) (s : State) :
    (commUnknown k s).instruments = modAt s.instruments {} k fun i => { i with current := .unknown } :=
  (Moves.refl.to_commutatorUnknown (ks := [.note, .inb]) k).exactly .instruments

theorem loseBoard_of_instrument (inside : within k 3 = true) :
    loseBoard (8 + k) s = plungerLost k ((commUnknown k s).modInstrument k fun i => { i with lastReading := none }) := by
  have high : ¬ 8 + k ≤ 8 := by have := within_le inside; omega
  have board : 8 + k - 8 = k := by omega
  simp only [loseBoard, if_neg high, board]

theorem loseBoard_instruments (inside : within k 3 = true) :
    (loseBoard (8 + k) s).instruments = modAt s.instruments {} k Instrument.lost := by
  rw [loseBoard_of_instrument inside, plungerLost_instruments, State.modInstrument_instruments, commUnknown_instruments,
    modAt_modAt, modAt_modAt]
  rfl

theorem moves_loseBoard_instrument (inside : within k 3 = true) (s : State) :
    Moves (.instrument :: .inb :: sentKinds) s (loseBoard (8 + k) s) := by
  rw [loseBoard_of_instrument inside]
  exact ((Moves.refl.to_commUnknown k).to_modInstrument k _).to_plungerLost k

/-- BOARD_MISSING confines its commutator, where its reaction asks for that, and touches no other instrument. -/
theorem raise_board_instrument (inside : within k 3 = true) (j : Nat) (s : State) :
    ((raise 6 (some (8 + k)) s).instrument j).core = (s.instrument j).core
      ∧ (j ≠ k → (raise 6 (some (8 + k)) s).instrument j = s.instrument j) :=
  raise_instrument (by simp [linkTaken]) (fun as w => confine_commutator_of_board as inside w) j

end Sys2Proof.Machine
end

section
/-! O29: polls follow the cycle and make boards MISSING (R30 to R32, R46). -/

set_option Elab.async false

namespace Sys2Proof.Machine

variable {s u v w : State} {k b : Nat} {t : Time} {o : List Bool}

/-! ### The cycle and the lamps (R30, R46) -/

theorem boardAt_cycle (n : Nat) :
    [boardAt (5 * n), boardAt (5 * n + 1), boardAt (5 * n + 2), boardAt (5 * n + 3), boardAt (5 * n + 4)]
      = [9, 10, 11, 2 * (n % 4) + 1, 2 * (n % 4) + 2] := by
  have position (i : Nat) (small : i < 5) : (5 * n + i) % 5 = i ∧ (5 * n + i) / 5 = n := by omega
  have first := position 0 (by decide)
  rw [Nat.add_zero] at first
  simp only [boardAt, first, position 1 (by decide), position 2 (by decide), position 3 (by decide),
    position 4 (by decide)]

theorem one_line_lamp (inside : within k 3 = true) (on : (s.outb k).state ≠ none) :
    (((outputsOf s (8 + k)).drop 3).take 3).count true = 1 := by
  have high : ¬ 8 + k ≤ 8 := by have := within_le inside; omega
  have board : 8 + k - 8 = k := by omega
  obtain ⟨st, state⟩ := Option.ne_none_iff_exists'.1 on
  simp only [outputsOf, if_neg high, board, state]
  cases st <;> rfl

theorem takes_position (undisputed : s.Undisputed) (idle : s.polled = none) :
    Takes (.pollPosition t) s [.boards] fun u =>
      u.scan = s.scan + 1 ∧ u.boards = s.boards
        ∧ u.polled = if (s.board (boardAt s.scan)).configured then
            some (boardAt s.scan, outputsOf (s.atTime t) (boardAt s.scan)) else none := by
  have taken : takePosition (s.atTime t)
      = { s.atTime t with
          scan := s.scan + 1
          polled := if (s.board (boardAt s.scan)).configured then
            some (boardAt s.scan, outputsOf (s.atTime t) (boardAt s.scan)) else none } := by
    have idle : (s.atTime t).polled = none := idle
    simp only [takePosition, idle]
    rfl
  exact .of_result rfl rfl undisputed taken (Moves.scan (ks := [.scan]) _ _ (by decide) .refl) fun agreed _ =>
    ⟨finish_scan agreed, finish_boards agreed, finish_polled agreed⟩

/-! ### Missed polls (R32) -/

section
variable (undisputed : s.Undisputed) (here : within b s.boards.length = true) (polled : s.polled = some (b, o))
include undisputed here polled

/-- A missed poll that only changes the board's counts. -/
theorem takes_miss {g : Board → Board} (effect : takeMiss b o (s.atTime t) = endPoll b o false ((s.atTime t).modBoard b g)) :
    Takes (.missedPoll t b) s [.boards] fun u =>
      u.polled = none ∧ u.scan = s.scan ∧ u.board b = (g (s.board b)).polled o false
        ∧ ∀ j, j ≠ b → u.board j = s.board j := by
  have moves : Moves [.board, .scan] (s.atTime t) (endPoll b o false ((s.atTime t).modBoard b g)) :=
    (Moves.refl.to_modBoard b g).to_endPoll b o false
  exact .of_result rfl rfl undisputed ((missed_of_own (s := s.atTime t) polled).trans effect) moves fun agreed _ =>
    ⟨finish_polled agreed, finish_scan agreed,
      (finish_board agreed b).trans (endPoll_board (v := (s.atTime t).modBoard b g) here rfl),
      fun j other => (finish_board agreed j).trans (endPoll_other (v := (s.atTime t).modBoard b g) rfl other)⟩

variable (present : (s.board b).missing = false) (third : (s.board b).misses = 2)
include present third

omit undisputed here in
/-- The effect of the third miss. -/
theorem third_miss : missed b (s.atTime t)
    = endPoll b o false (raise 6 (some b) (loseBoard b ((s.atTime t).modBoard b Board.lost))) :=
  (missed_of_own (s := s.atTime t) polled).trans (takeMiss_of_third (s := s.atTime t) present third)

omit undisputed polled present third in
/-- The boards after the third miss. -/
theorem third_miss_boards {v : State} (agreed : (endPoll b o false v).Undisputed)
    (boards : v.boards = modAt s.boards {} b Board.lost) :
    (finish (endPoll b o false v)).polled = none ∧ ((finish (endPoll b o false v)).board b).missing = true
      ∧ ((finish (endPoll b o false v)).board b).misses = 3 ∧ ((finish (endPoll b o false v)).board b).goods = 0
      ∧ ∀ j, j ≠ b → (finish (endPoll b o false v)).board j = s.board j := by
  have own := (finish_board agreed b).trans (endPoll_board here boards)
  exact ⟨finish_polled agreed, congrArg Board.missing own, congrArg Board.misses own, congrArg Board.goods own,
    fun j other => (finish_board agreed j).trans (endPoll_other boards other)⟩

theorem takes_third_miss_of_levers (low : b ≤ 8) :
    Takes (.missedPoll t b) s [.boards, .levers, .faults, .register, .mode, .inbound, .links] fun u =>
      u.polled = none ∧ (u.board b).missing = true ∧ (u.board b).misses = 3 ∧ (u.board b).goods = 0
        ∧ (∀ j, j ≠ b → u.board j = s.board j)
        ∧ (s.faults.records.length < 32 → (u.faults.find 6 (some b)).isSome = true)
        ∧ ∀ k, within k 64 = true → (s.lever k).slot.any (boardOfSlot · == b) = true →
            (u.lever k).current = .unknown ∧ (u.lever k).settled = (s.lever k).settled := by
  have lost := moves_loseBoard_levers low ((s.atTime t).modBoard b Board.lost)
  have agreed : (loseBoard b ((s.atTime t).modBoard b Board.lost)).Undisputed := lost.undisputed undisputed
  have raised := raise_faults (subject := some b) agreed (by decide) (moves_confine_levers_of_board low) (by decide)
  have leaves := leaves_raise (c := 6) (subject := some b)
    (qs := [.store, .transmitter, .boards, .levers, .faults, .register, .mode, .inbound, .links]) (by decide)
    (moves_confine_levers_of_board low) (by decide) (by decide) (by decide)
    (loseBoard b ((s.atTime t).modBoard b Board.lost))
  have boards : (raise 6 (some b) (loseBoard b ((s.atTime t).modBoard b Board.lost))).boards
      = modAt s.boards {} b Board.lost := by
    have same := Eq.trans ((moves_raise (s := loseBoard b ((s.atTime t).modBoard b Board.lost)) (c := 6)
      (subject := some b) (by decide) (moves_confine_levers_of_board low)).exactly .boards).1
      ((leaves_noteOccurrence 6 (some b) _).2.2.2 .boards (by decide)).1
    exact same.trans (lost.exactly .boards).1
  have moves : Moves pollKinds (s.atTime t)
      (endPoll b o false (raise 6 (some b) (loseBoard b ((s.atTime t).modBoard b Board.lost)))) :=
    (((Moves.refl.to_modBoard b Board.lost).to_loseBoard b).to_raise _ _).to_endPoll b o false
  refine .of_parts rfl rfl undisputed (third_miss polled present third) moves ?_ fun agreed _ => ?_
  · refine (((Moves.refl (ks := [.board])).to_modBoard b Board.lost).leaves.trans lost.leaves).trans ?_
    exact leaves.trans (moves_endPoll b o false _).leaves
  · obtain ⟨ended, missing, misses, goods, others⟩ := third_miss_boards here agreed boards
    refine ⟨ended, missing, misses, goods, others, fun room => ?_, fun k inside mapped => ?_⟩
    · have table : (loseBoard b ((s.atTime t).modBoard b Board.lost)).faults = s.faults := lost.faults_kept undisputed
      rw [finish_faults agreed, (moves_endPoll b o false _).exactly .faults, raised]
      exact countOccurrence_held (by rw [table]; exact room)
    · obtain ⟨current, settled⟩ := loseBoard_lever (s := (s.atTime t).modBoard b Board.lost) low inside mapped
      have calm := calm_raise_levers_of_board low (loseBoard b ((s.atTime t).modBoard b Board.lost)) k
      have ended := (moves_endPoll b o false
        (raise 6 (some b) (loseBoard b ((s.atTime t).modBoard b Board.lost)))).calm
      rw [finish_lever agreed]
      exact ⟨(calm.trans (ended k)).current.trans current, (calm.trans (ended k)).settled.trans settled⟩

end

theorem takes_third_miss_of_instrument (undisputed : s.Undisputed) (inside : within k 3 = true)
    (here : within (8 + k) s.boards.length = true)
    (instruments : within k s.instruments.length = true) (polled : s.polled = some (8 + k, o))
    (present : (s.board (8 + k)).missing = false) (third : (s.board (8 + k)).misses = 2) :
    Takes (.missedPoll t (8 + k)) s
      [.boards, .instruments, .levers, .faults, .register, .mode, .bells, .inbound, .outbound, .links] fun u =>
      u.polled = none ∧ (u.board (8 + k)).missing = true ∧ (u.board (8 + k)).misses = 3 ∧ (u.board (8 + k)).goods = 0
        ∧ (∀ j, j ≠ 8 + k → u.board j = s.board j)
        ∧ (s.faults.records.length < 32 → (u.faults.find 6 (some (8 + k))).isSome = true)
        ∧ (u.instrument k).current = .unknown ∧ (u.instrument k).settled = (s.instrument k).settled
        ∧ (u.instrument k).lastReading = none ∧ (u.instrument k).plunger = .arming
        ∧ ∀ j, j ≠ k → u.instrument j = s.instrument j := by
  have lost := moves_loseBoard_instrument inside ((s.atTime t).modBoard (8 + k) Board.lost)
  have agreed : (loseBoard (8 + k) ((s.atTime t).modBoard (8 + k) Board.lost)).Undisputed := lost.undisputed undisputed
  have raised := raise_faults (subject := some (8 + k)) agreed (by decide) (moves_confine_commutator_of_board inside) (by decide)
  have leaves := leaves_raise (c := 6) (subject := some (8 + k))
    (qs := [.store, .transmitter, .boards, .instruments, .levers, .faults, .register, .mode, .bells, .inbound, .outbound,
      .links]) (by decide)
    (moves_confine_commutator_of_board inside) (by decide) (by decide) (by decide)
    (loseBoard (8 + k) ((s.atTime t).modBoard (8 + k) Board.lost))
  have boards : (raise 6 (some (8 + k)) (loseBoard (8 + k) ((s.atTime t).modBoard (8 + k) Board.lost))).boards
      = modAt s.boards {} (8 + k) Board.lost := by
    have same := Eq.trans ((moves_raise (s := loseBoard (8 + k) ((s.atTime t).modBoard (8 + k) Board.lost)) (c := 6)
      (subject := some (8 + k)) (by decide) (moves_confine_commutator_of_board inside)).exactly .boards).1
      ((leaves_noteOccurrence 6 (some (8 + k)) _).2.2.2 .boards (by decide)).1
    exact same.trans (lost.exactly .boards).1
  have moves : Moves pollKinds (s.atTime t)
      (endPoll (8 + k) o false (raise 6 (some (8 + k)) (loseBoard (8 + k) ((s.atTime t).modBoard (8 + k) Board.lost)))) :=
    (((Moves.refl.to_modBoard (8 + k) Board.lost).to_loseBoard (8 + k)).to_raise _ _).to_endPoll (8 + k) o false
  refine .of_parts rfl rfl undisputed (third_miss polled present third) moves ?_ fun agreed _ => ?_
  · refine (((Moves.refl (ks := [.board])).to_modBoard (8 + k) Board.lost).leaves.trans lost.leaves).trans ?_
    exact leaves.trans (moves_endPoll (8 + k) o false _).leaves
  · obtain ⟨ended, missing, misses, goods, others⟩ := third_miss_boards here agreed boards
    have lost_own : (loseBoard (8 + k) ((s.atTime t).modBoard (8 + k) Board.lost)).instrument k = (s.instrument k).lost := by
      rw [State.instrument, loseBoard_instruments inside]
      exact (nth_modAt ..).trans (if_pos ⟨rfl, instruments⟩)
    have final (j : Nat) : (finish (endPoll (8 + k) o false
        (raise 6 (some (8 + k)) (loseBoard (8 + k) ((s.atTime t).modBoard (8 + k) Board.lost))))).instrument j
        = (raise 6 (some (8 + k)) (loseBoard (8 + k) ((s.atTime t).modBoard (8 + k) Board.lost))).instrument j := by
      rw [finish_instrument agreed, State.instrument, (moves_endPoll (8 + k) o false _).exactly .instruments]
      rfl
    have own := (congrArg Instrument.core (final k)).trans
      ((raise_board_instrument inside k (loseBoard (8 + k) ((s.atTime t).modBoard (8 + k) Board.lost))).1.trans
        (congrArg Instrument.core lost_own))
    refine ⟨ended, missing, misses, goods, others, fun room => ?_, congrArg (·.current) own, congrArg (·.settled) own,
      congrArg (·.lastReading) own, congrArg (·.plunger) own, fun j other => ?_⟩
    · have table : (loseBoard (8 + k) ((s.atTime t).modBoard (8 + k) Board.lost)).faults = s.faults :=
        lost.faults_kept undisputed
      rw [finish_faults agreed, (moves_endPoll (8 + k) o false _).exactly .faults, raised]
      exact countOccurrence_held (by rw [table]; exact room)
    · rw [final, (raise_board_instrument inside j _).2 other, State.instrument, loseBoard_instruments inside]
      exact (nth_modAt ..).trans (if_neg fun same => other same.1)

/-- Settles O29: polls follow the cycle, and the third miss makes a board MISSING. -/
theorem pollsFollowTheCycleAndMakeBoardsMissing : Obligations.PollsFollowTheCycleAndMakeBoardsMissing := by
  unfold Obligations.PollsFollowTheCycleAndMakeBoardsMissing
  refine ⟨⟨fun s t undisputed idle => takes_position undisputed idle, boardAt_cycle, fun s k => one_line_lamp⟩,
    fun s t b o undisputed inside length _ polled => ?_⟩
  have here := here_of_within 11 inside length
  refine ⟨fun present few => takes_miss undisputed here polled (takeMiss_of_counted (s := s.atTime t) present few),
    fun missing => takes_miss undisputed here polled (takeMiss_of_missing (s := s.atTime t) missing),
    fun present third low => takes_third_miss_of_levers undisputed here polled present third low,
    fun k present third own board instruments => ?_,
    fun j other => .of_idle rfl rfl undisputed (missed_of_other (s := s.atTime t) polled other) fun _ => trivial⟩
  subst own
  exact takes_third_miss_of_instrument undisputed board here (here_of_within 3 board instruments) polled present third

end Sys2Proof.Machine
end

section
/-! Readings of a lever's contacts (R34 to R36, R39): what each leaves of the levers, and of the rest. -/

set_option Elab.async false

namespace Sys2Proof.Machine

variable {s u v w : State} {c d j k n b : Nat} {l m : Lever} {p : Pos} {r : Reading} {g : Lever → Lever} {f : Nat → State → State}

/-! ### What a lever's contacts have told -/

/-- A lever that has been read no more: what its contacts have told is as it was, and a release held may have ended. -/
structure Lever.Sees (l m : Lever) : Prop where
  current : m.current = l.current
  settled : m.settled = l.settled
  reading : m.lastReading = l.lastReading
  start : m.transitStart = l.transitStart
  compare : m.transitAt = l.transitAt
  settle : m.lastSettle = l.lastSettle
  slot : m.slot = l.slot
  held : l.held = none → m.held = none

theorem Lever.Sees.refl (l : Lever) : l.Sees l := ⟨rfl, rfl, rfl, rfl, rfl, rfl, rfl, id⟩

theorem Lever.Sees.trans {o : Lever} (h : l.Sees m) (i : m.Sees o) : l.Sees o :=
  ⟨i.current.trans h.current, i.settled.trans h.settled, i.reading.trans h.reading, i.start.trans h.start,
    i.compare.trans h.compare, i.settle.trans h.settle, i.slot.trans h.slot, fun none => i.held (h.held none)⟩

theorem Lever.Calm.sees (h : l.Calm m) : l.Sees m :=
  ⟨h.current, h.settled, congrArg (·.lastReading) h.core, congrArg (·.transitStart) h.core, congrArg (·.transitAt) h.core,
    congrArg (·.lastSettle) h.core, h.slot, fun none => h.held.elim (·.trans none) id⟩

def SeesLevers (s u : State) : Prop := ∀ k, (s.lever k).Sees (u.lever k)

theorem SeesLevers.refl (s : State) : SeesLevers s s := fun _ => .refl _

theorem SeesLevers.trans (h : SeesLevers s u) (i : SeesLevers u v) : SeesLevers s v := fun k => (h k).trans (i k)

theorem CalmLevers.sees (h : CalmLevers s u) : SeesLevers s u := fun k => (h k).sees

theorem sees_of_modAt (changed : u.levers = modAt s.levers {} k g) (sees : ∀ l : Lever, l.Sees (g l)) : SeesLevers s u := by
  intro j
  rw [State.lever, State.lever, changed, nth_modAt]
  split
  · next own => rw [own.1]; exact sees _
  · exact .refl _

/-- The lever changed is not one of the others. -/
theorem other_of_modAt (changed : u.levers = modAt s.levers {} k g) (other : j ≠ k) : u.lever j = s.lever j := by
  rw [State.lever, State.lever, changed, nth_modAt, if_neg fun own => other own.1]

theorem own_of_modAt (changed : u.levers = modAt s.levers {} k g) (here : within k s.levers.length = true) :
    u.lever k = g (s.lever k) := by
  rw [State.lever, State.lever, changed, nth_modAt, if_pos ⟨rfl, here⟩]

theorem sees_modLever (k : Nat) (g : Lever → Lever) (s : State) (sees : ∀ l : Lever, l.Sees (g l)) :
    SeesLevers s (s.modLever k g) := sees_of_modAt (g := g) rfl sees

theorem sees_when (b : Bool) (f : State → State) (sees : SeesLevers s (f s)) : SeesLevers s (when b f s) := by
  cases b with
  | false => exact .refl s
  | true => exact sees

theorem sees_forEach (ns : List Nat) (each : ∀ n w, SeesLevers w (f n w)) (s : State) : SeesLevers s (forEach ns f s) :=
  forEach_keeps (I := SeesLevers s) ns (fun n _ w sees => sees.trans (each n w)) s (.refl s)

theorem sees_latchRecord (c : Nat) (subject : Option Nat) (s : State) : SeesLevers s (latchRecord c subject s) :=
  (calm_of_same (latchRecord_levers ..)).sees

/-! ### What follows a settle, and what a finding does -/

def Lever.forced (l : Lever) : Lever := { l with forcedActive := true }
def Lever.unforced (l : Lever) : Lever := { l with forcedActive := false }
def Lever.consumed (l : Lever) : Lever := { l with allowance := some false }

theorem sees_beginLeverForced (k : Nat) (s : State) : SeesLevers s (beginLeverForced k s) := by
  unfold beginLeverForced
  split
  · exact .refl s
  · exact (sees_modLever k Lever.forced s fun _ => ⟨rfl, rfl, rfl, rfl, rfl, rfl, rfl, id⟩).trans
      (calm_raise_lever (by decide) k _).sees

theorem sees_consumeAllowances (line : Nat) (s : State) : SeesLevers s (consumeAllowances line s) :=
  sees_forEach _ (fun k w => (sees_of_modAt (changeLever_levers k Lever.consumed w)
    fun _ => ⟨rfl, rfl, rfl, rfl, rfl, rfl, rfl, id⟩).trans (calm_evaluate k _).sees) s

theorem calm_timersTakeReverse (k : Nat) (s : State) : CalmLevers s (timersTakeReverse k s) := by
  have cancelled (cause : CancelCause) (r : Nat) (w : State) : CalmLevers w (cancelTimer cause r w) :=
    (Moves.refl.to_cancelTimer (ks := [.note, .record, .timer]) cause r).calm
  exact calm_forEach _ (fun r w => (cancelled _ r w).trans (calm_evaluateNaming _ _)) s

theorem calm_evaluateHoldAndTimer (k : Nat) (r : Option Nat) (s : State) : CalmLevers s (evaluateHoldAndTimer k r s) := by
  cases r with
  | none => exact calm_evaluateNaming _ s
  | some r => exact (calm_evaluateNaming _ s).trans (calm_evaluateNaming _ _)

theorem calm_moveHolds (dest : Nat → Option HoldState) (ns : List Nat) (s : State) : CalmLevers s (moveHolds dest ns s) := by
  have cancelled : CalmLevers s (forEach ((ns.filter fun k => (dest k).isSome).filterMap (runningTimer s))
      (cancelTimer .owner) s) :=
    (Moves.refl.to_forEach (ks := [.note, .record, .timer]) _ fun r _ => Moves.refl.to_cancelTimer _ r).calm
  have set (w : State) : CalmLevers w (forEach (ns.filter fun k => (dest k).isSome)
      (fun k => match dest k with | none => id | some new => setHold k new) w) := by
    refine calm_forEach _ (fun k w => ?_) w
    cases dest k with
    | none => exact .refl w
    | some new => exact (Moves.refl.to_setHold (ks := [.note, .record, .hold]) k new).calm
  exact (cancelled.trans (set _)).trans (calm_forEach _ (fun k w => calm_evaluateHoldAndTimer k _ w) _)

theorem calm_holdsTakeSettle (k : Nat) (p : Pos) (s : State) : CalmLevers s (holdsTakeSettle k p s) := calm_moveHolds _ _ s

theorem sees_raiseOnce (s : State) : SeesLevers s (raiseOnce 8 (some k) s) :=
  (calm_raise_lever (c := 8) (by decide) k s).sees.trans (sees_latchRecord _ _ _)

/-- A read-back of a lever's coil tells nothing of its contacts (R38). -/
theorem sees_leverFinding (k : Nat) (f : Finding) (s : State) : SeesLevers s (leverFinding k f s) := by
  have marked (g : Lever → Lever) (sees : ∀ l : Lever, l.Sees (g l)) := sees_modLever k g s sees
  cases f with
  | stuckOn =>
    simp only [leverFinding]
    split
    · exact .refl s
    · exact (marked (fun l => { l with stuckOnActive := true }) fun _ => ⟨rfl, rfl, rfl, rfl, rfl, rfl, rfl, id⟩).trans
        (calm_raise_lever (by decide) k _).sees
  | stuckOff =>
    simp only [leverFinding]
    split
    · exact .refl s
    · exact (marked (fun l => { l with stuckOffActive := true }) fun _ => ⟨rfl, rfl, rfl, rfl, rfl, rfl, rfl, id⟩).trans
        (calm_raise_lever (by decide) k _).sees
  | agreement =>
    exact ((marked (fun l => { l with stuckOnActive := false, stuckOffActive := false })
      fun _ => ⟨rfl, rfl, rfl, rfl, rfl, rfl, rfl, id⟩).trans (sees_when _ _ (sees_latchRecord _ _ _))).trans
      (sees_when _ _ (sees_latchRecord _ _ _))

theorem sees_contactRecovers (k : Nat) (s : State) : SeesLevers s (contactRecovers k s) := by
  simp only [contactRecovers]
  split
  · exact .refl s
  · split
    · exact sees_modLever k (fun l => { l with validRun := l.validRun + 1 }) s fun _ => ⟨rfl, rfl, rfl, rfl, rfl, rfl, rfl, id⟩
    · exact (sees_modLever k (fun l => { l with validRun := 2, contactActive := false }) s
        fun _ => ⟨rfl, rfl, rfl, rfl, rfl, rfl, rfl, id⟩).trans (sees_latchRecord _ _ _)

/-! ### Settles (R34, R35, R39, R66, R69, R80, R81, R90) -/

/-- The record of a lever that settles in a position at a time. -/
def Lever.settledIn (p : Pos) (now : Time) (l : Lever) : Lever :=
  { l with settled := some p, current := p.atRest, transitStart := none, transitAt := none, departed := false,
           seenUnknown := false, held := none, lastSettle := some now }

def Lever.transitEnded (l : Lever) : Lever := { l with transitActive := false }

/-- The line whose allowances a settle consumes, if it consumes one (R69). -/
def consumedBy (p : Pos) (l : Lever) : Option Nat :=
  if p = .reverse ∧ l.type = .signal ∧ l.allowance ≠ some false then l.blockLine else none

/-- The end of LEVER_FORCED at a settle, or its beginning (R39). -/
def settleForcing (k : Nat) (p : Pos) (l : Lever) : State → State :=
  if l.forcedActive then fun s => (s.modLever k Lever.unforced) |> latchRecord 8 (some k)
  else if forcesInTransit l p.reading then raiseOnce 8 (some k)
  else when (l.seenUnknown && l.settled == some p.opposite && l.held.isNone) (beginLeverForced k)

/-- A settle up to LEVER_TRANSIT's end: the owners have taken it. -/
def settleTold (k : Nat) (p : Pos) (s : State) : State :=
  holdsTakeSettle k p (when (p == .reverse) (timersTakeReverse k)
    ((consumedBy p (s.lever k)).elim id consumeAllowances
      (leverEvent k (noteLever k (changeLever k (Lever.settledIn p s.now) s)))))

theorem leverSettles_eq (k : Nat) (p : Pos) (s : State) :
    leverSettles k p s
      = settleForcing k p (s.lever k) (when (s.lever k).transitActive
          (fun s => endCause 9 (some k) (s.modLever k Lever.transitEnded)) (settleTold k p s)) := by
  simp only [leverSettles, settleTold, consumedBy]
  cases (if p = .reverse ∧ (s.lever k).type = .signal ∧ (s.lever k).allowance ≠ some false then (s.lever k).blockLine else none)
    <;> rfl

theorem sees_settleForcing (k : Nat) (p : Pos) (l : Lever) (s : State) : SeesLevers s (settleForcing k p l s) := by
  unfold settleForcing
  split
  · exact (sees_modLever k Lever.unforced s fun _ => ⟨rfl, rfl, rfl, rfl, rfl, rfl, rfl, id⟩).trans (sees_latchRecord _ _ _)
  · split
    · exact sees_raiseOnce s
    · exact sees_when _ _ (sees_beginLeverForced k s)

/-- What follows the change of the lever's record at its settle. -/
theorem sees_after_settle (k : Nat) (p : Pos) (s : State) :
    SeesLevers (changeLever k (Lever.settledIn p s.now) s) (leverSettles k p s) := by
  have told : CalmLevers (changeLever k (Lever.settledIn p s.now) s)
      (leverEvent k (noteLever k (changeLever k (Lever.settledIn p s.now) s))) :=
    (calm_of_same rfl : CalmLevers _ (noteLever k _)).trans (calm_leverEvent k _)
  have consumed (o : Option Nat) (w : State) : SeesLevers w (o.elim id consumeAllowances w) := by
    cases o with
    | none => exact .refl w
    | some line => exact sees_consumeAllowances line w
  have taken : SeesLevers (changeLever k (Lever.settledIn p s.now) s) (settleTold k p s) :=
    ((told.sees.trans (consumed _ _)).trans (sees_when _ _ (calm_timersTakeReverse k _).sees)).trans
      (calm_holdsTakeSettle k p _).sees
  have transit (w : State) : SeesLevers w (endCause 9 (some k) (w.modLever k Lever.transitEnded)) :=
    (sees_modLever k Lever.transitEnded w fun _ => ⟨rfl, rfl, rfl, rfl, rfl, rfl, rfl, id⟩).trans
      (calm_endCause_lever (by decide) k _).sees
  rw [leverSettles_eq]
  exact (taken.trans (sees_when _ _ (transit _))).trans (sees_settleForcing _ _ _ _)

end Sys2Proof.Machine
end

section
/-! The reading of a lever's contacts, and of the slots of an answer (R34, R36, R39). -/

set_option Elab.async false

namespace Sys2Proof.Machine

variable {s u v w : State} {c d i j k n b : Nat} {l m o : Lever} {p : Pos} {r : Reading} {now : Time}

/-! ### What a reading makes of its lever -/

/-- What a reading, taken at a time, makes of its lever (R34 to R36), as the clauses of O30 list it. -/
structure Lever.Took (now : Time) (r : Reading) (l m : Lever) : Prop where
  slot : m.slot = l.slot
  reading : m.lastReading = some r
  rests : l.atRest = true → r.pos = l.settled → m.current = l.current ∧ m.settled = l.settled
  departs : l.atRest = true → r.pos ≠ l.settled → r ≠ .both → m.current = .moving ∧ m.settled = l.settled
    ∧ m.transitStart = some now ∧ m.transitAt = some (now + 30000)
  settles : ∀ p, l.atRest = false → r.pos = some p → l.lastReading = some r →
    m.current = p.atRest ∧ m.settled = some p ∧ m.transitStart = none ∧ m.held = none ∧ m.lastSettle = some now
  waits : ∀ p, l.atRest = false → r.pos = some p → l.lastReading ≠ some r → m.current = l.current ∧ m.settled = l.settled
  moves : l.atRest = false → r = .moving → m.current = .moving ∧ m.settled = l.settled
  lost : r = .both → m.current = .unknown ∧ m.settled = l.settled

theorem Lever.Sees.atRest (h : l.Sees m) : m.atRest = l.atRest := by
  rw [Lever.atRest, Lever.atRest, h.settled, h.current]

/-- What is told by the contacts before the reading, and after it, is all that matters. -/
theorem Lever.Took.after (h : l.Took now r m) (sees : m.Sees o) : l.Took now r o where
  slot := sees.slot.trans h.slot
  reading := sees.reading.trans h.reading
  rests rest same := ⟨sees.current.trans (h.rests rest same).1, sees.settled.trans (h.rests rest same).2⟩
  departs rest other single := by
    obtain ⟨current, settled, start, compare⟩ := h.departs rest other single
    exact ⟨sees.current.trans current, sees.settled.trans settled, sees.start.trans start, sees.compare.trans compare⟩
  settles p away pos again := by
    obtain ⟨current, settled, start, held, settle⟩ := h.settles p away pos again
    exact ⟨sees.current.trans current, sees.settled.trans settled, sees.start.trans start, sees.held held,
      sees.settle.trans settle⟩
  waits p away pos first := ⟨sees.current.trans (h.waits p away pos first).1, sees.settled.trans (h.waits p away pos first).2⟩
  moves away moving := ⟨sees.current.trans (h.moves away moving).1, sees.settled.trans (h.moves away moving).2⟩
  lost both := ⟨sees.current.trans (h.lost both).1, sees.settled.trans (h.lost both).2⟩

theorem Lever.Took.before (sees : l.Sees m) (h : m.Took now r o) : l.Took now r o := by
  obtain ⟨slot, reading, rests, departs, settles, waits, moves, lost⟩ := h
  rw [sees.atRest, sees.settled, sees.current] at rests
  rw [sees.atRest, sees.settled] at departs moves
  simp only [sees.atRest, sees.reading] at settles
  simp only [sees.atRest, sees.reading, sees.current, sees.settled] at waits
  rw [sees.settled] at lost
  exact ⟨slot.trans sees.slot, reading, rests, departs, settles, waits, moves, lost⟩

/-! ### The four things that a reading does -/

/-- The record of a lever as its reading is noted. -/
def Lever.readAs (r : Reading) (same : Bool) (l : Lever) : Lever := { l with lastReading := some r, run := if same then 2 else 1 }

/-- The record of a lever that departs (R34, R35, R63). -/
def Lever.departedAt (held : Option Pos) (now : Time) (l : Lever) : Lever :=
  { l with held := held, current := .moving, departed := true, transitStart := some now, transitAt := some (now + 30000) }

/-- The record of a lever read MOVING in transit, or out of UNKNOWN (R34, R35). -/
def Lever.movingFrom (held : Option Pos) (now : Time) (l : Lever) : Lever :=
  { l with held := held, current := .moving, transitStart := some (l.transitStart.getD now),
           transitAt := if l.transitStart.isNone then some (now + 30000) else l.transitAt }

def Lever.multiple (l : Lever) : Lever := { l with validRun := 0, contactActive := true }

theorem leverDeparts_eq (k : Nat) (r : Reading) (s : State) :
    leverDeparts k r s = leverEvent k (noteLever k
      (changeLever k (Lever.departedAt (releaseAtDeparture s (s.lever k) r) s.now) s)) := rfl

/-- After the change of the lever's record, a departure tells no more of its contacts. -/
theorem leverDeparts_calm (k : Nat) (r : Reading) (s : State) :
    CalmLevers (changeLever k (Lever.departedAt (releaseAtDeparture s (s.lever k) r) s.now) s) (leverDeparts k r s) := by
  rw [leverDeparts_eq]
  exact (calm_of_same rfl : CalmLevers _ (noteLever k _)).trans (calm_leverEvent k _)

/-- The release held after a reading of MOVING (R63). -/
def heldWhenMoving (s : State) (k : Nat) : Option Pos :=
  if takesFromReverse s (s.lever k) .moving then some .reverse else (s.lever k).held

theorem leverMoving_eq (k : Nat) (s : State) :
    leverMoving k s
      = if (s.lever k).current = .moving then
          when (heldWhenMoving s k != (s.lever k).held) (evaluate k)
            (changeLever k (Lever.movingFrom (heldWhenMoving s k) s.now) s)
        else leverEvent k (noteLever k (changeLever k (Lever.movingFrom (heldWhenMoving s k) s.now) s)) := rfl

theorem leverMoving_calm (k : Nat) (s : State) :
    CalmLevers (changeLever k (Lever.movingFrom (heldWhenMoving s k) s.now) s) (leverMoving k s) := by
  rw [leverMoving_eq]
  split
  · exact calm_when _ _ (calm_evaluate k _)
  · exact (calm_of_same rfl : CalmLevers _ (noteLever k _)).trans (calm_leverEvent k _)

theorem leverBoth_own (here : within k s.levers.length = true) :
    ((leverBoth k s).lever k).current = .unknown ∧ ((leverBoth k s).lever k).settled = (s.lever k).settled
      ∧ ((leverBoth k s).lever k).lastReading = (s.lever k).lastReading
      ∧ ((leverBoth k s).lever k).slot = (s.lever k).slot := by
  have raised (w : State) : SeesLevers w (when (!(s.lever k).contactActive) (raise 7 (some k)) w) :=
    sees_when _ _ (calm_raise_lever (c := 7) (by decide) k w).sees
  have marked (w : State) : SeesLevers w (w.modLever k Lever.multiple) :=
    sees_modLever k Lever.multiple w fun _ => ⟨rfl, rfl, rfl, rfl, rfl, rfl, rfl, id⟩
  have after : SeesLevers (leverUnknown k s) (leverBoth k s) := (marked _).trans (raised _)
  have kept : ((leverUnknown k s).lever k).lastReading = (s.lever k).lastReading
      ∧ ((leverUnknown k s).lever k).slot = (s.lever k).slot := by
    by_cases unknown : (s.lever k).current = .unknown
    · rw [leverUnknown, if_pos unknown]
      exact ⟨rfl, rfl⟩
    · have own : (noteLever k (changeLever k Lever.lost s)).lever k = (s.lever k).lost :=
        own_of_modAt (u := noteLever k (changeLever k Lever.lost s)) (changeLever_levers k Lever.lost s) here
      rw [leverUnknown_of_known unknown]
      exact ⟨(calm_leverEvent k _ k).sees.reading.trans (congrArg (·.lastReading) own),
        (calm_leverEvent k _ k).slot.trans (congrArg (·.slot) own)⟩
  exact ⟨(after k).current.trans (leverUnknown_current k s), (after k).settled.trans (leverUnknown_fades k k s).settled,
    (after k).reading.trans kept.1, (after k).slot.trans kept.2⟩

/-! ### A reading, on its own lever and on the others -/

theorem takeReading_both (k : Nat) (s : State) :
    takeReading k .both s = leverBoth k (s.modLever k (Lever.readAs .both ((s.lever k).lastReading == some .both))) := rfl

/-- The state as a single reading finds it: noted, and counted for the end of LEVER_CONTACT. -/
def readingNoted (k : Nat) (r : Reading) (s : State) : State :=
  contactRecovers k (s.modLever k (Lever.readAs r ((s.lever k).lastReading == some r)))

theorem takeReading_moving (k : Nat) (s : State) :
    takeReading k .moving s
      = if ((readingNoted k .moving s).lever k).atRest then leverDeparts k .moving (readingNoted k .moving s)
        else leverMoving k (readingNoted k .moving s) := rfl

theorem takeReading_pos (pos : r.pos = some p) :
    takeReading k r s
      = if ((readingNoted k r s).lever k).atRest then
          if ((readingNoted k r s).lever k).settled = some p then readingNoted k r s
          else when (forcesInTransit ((leverDeparts k r (readingNoted k r s)).lever k) r) (beginLeverForced k)
            (leverDeparts k r (readingNoted k r s))
        else if (s.lever k).lastReading == some r then leverSettles k p (readingNoted k r s)
        else when (forcesInTransit ((readingNoted k r s).lever k) r) (beginLeverForced k) (readingNoted k r s) := by
  simp only [takeReading, pos]
  rfl

/-- A reading as it is noted, on its own lever. -/
theorem readingNoted_own (here : within k s.levers.length = true) (r : Reading) :
    ((s.lever k).readAs r ((s.lever k).lastReading == some r)).Sees ((readingNoted k r s).lever k) := by
  have own := State.lever_modLever_same s k (Lever.readAs r ((s.lever k).lastReading == some r)) here
  exact own ▸ sees_contactRecovers k _ k

theorem readingNoted_other (r : Reading) (other : j ≠ k) : (s.lever j).Sees ((readingNoted k r s).lever j) := by
  have same := State.lever_modLever_other s k j (Lever.readAs r ((s.lever k).lastReading == some r)) other
  exact same ▸ sees_contactRecovers k _ j

theorem contactRecovers_length (k : Nat) (s : State) : (contactRecovers k s).levers.length = s.levers.length := by
  simp only [contactRecovers]
  split
  · rfl
  · split
    · rw [State.modLever_levers, length_modAt]
    · rw [latchRecord_levers, State.modLever_levers, length_modAt]

theorem readingNoted_here (here : within k s.levers.length = true) (r : Reading) :
    within k (readingNoted k r s).levers.length = true := by
  rw [readingNoted, contactRecovers_length, State.modLever_levers, length_modAt]
  exact here

theorem readingNoted_now (k : Nat) (r : Reading) (s : State) : (readingNoted k r s).now = s.now :=
  ((Moves.refl (ks := [.note, .lever, .faults])).to_contactRecovers k).now_eq

end Sys2Proof.Machine
end

section
/-! O30: the slots of a lever board's answer (R31, R34 to R36). -/

set_option Elab.async false

namespace Sys2Proof.Machine

variable {s u v w : State} {c d i j k n b : Nat} {l m o : Lever} {p : Pos} {r : Reading} {now : Time} {t : Time}
  {x : SlotReading} {xs : List SlotReading}

theorem Reading.pos_cases (r : Reading) : r = .both ∨ r = .moving ∨ ∃ p, r.pos = some p := by
  cases r with
  | normal => exact .inr (.inr ⟨.normal, rfl⟩)
  | reverse => exact .inr (.inr ⟨.reverse, rfl⟩)
  | moving => exact .inr (.inl rfl)
  | both => exact .inl rfl

theorem Lever.settled_of_atRest (rest : l.atRest = true) : ∃ p, l.settled = some p := by
  cases settled : l.settled with
  | none => simp [Lever.atRest, settled] at rest
  | some p => exact ⟨p, rfl⟩

theorem changeLever_own (k : Nat) (f : Lever → Lever) (here : within k s.levers.length = true) :
    (changeLever k f s).lever k = f (s.lever k) := own_of_modAt (changeLever_levers k f s) here

section
/-! A reading of a lever in the list: `n` is the state in which it has been noted. -/

variable (here : within k s.levers.length = true)
include here

theorem took_both : (s.lever k).Took s.now .both ((takeReading k .both s).lever k) := by
  have own := State.lever_modLever_same s k (Lever.readAs .both ((s.lever k).lastReading == some .both)) here
  obtain ⟨current, settled, reading, slot⟩ := leverBoth_own
    (s := s.modLever k (Lever.readAs .both ((s.lever k).lastReading == some .both))) (k := k)
    (by rwa [State.modLever_levers, length_modAt])
  rw [own] at settled reading slot
  rw [takeReading_both]
  refine ⟨slot, reading, fun rest none_read => ?_, fun _ _ single => absurd rfl single, fun _ _ pos => (nomatch pos),
    fun _ _ pos => (nomatch pos), fun _ moving => (nomatch moving), fun _ => ⟨current, settled⟩⟩
  obtain ⟨p, is⟩ := Lever.settled_of_atRest rest
  rw [is] at none_read
  cases none_read

theorem took_moving : (s.lever k).Took s.now .moving ((takeReading k .moving s).lever k) := by
  have noted := readingNoted_own here .moving
  have there := readingNoted_here here .moving
  have rests : ((readingNoted k .moving s).lever k).atRest = (s.lever k).atRest := noted.atRest
  have departed := (leverDeparts_calm k .moving (readingNoted k .moving s) k).sees
  have moved := (leverMoving_calm k (readingNoted k .moving s) k).sees
  rw [changeLever_own k _ there, readingNoted_now] at departed moved
  rw [takeReading_moving, rests]
  cases rest : (s.lever k).atRest with
  | true =>
    rw [if_pos rfl]
    refine ⟨departed.slot.trans noted.slot, departed.reading.trans noted.reading, fun _ none_read => ?_, fun _ _ _ => ⟨departed.current,
      departed.settled.trans noted.settled, departed.start, departed.compare⟩, fun _ away => (nomatch rest.symm.trans away),
      fun _ away => (nomatch rest.symm.trans away), fun away => (nomatch rest.symm.trans away), fun both => (nomatch both)⟩
    obtain ⟨p, is⟩ := Lever.settled_of_atRest rest
    rw [is] at none_read
    cases none_read
  | false =>
    rw [if_neg (by simp)]
    exact ⟨moved.slot.trans noted.slot, moved.reading.trans noted.reading, fun at_rest => (nomatch rest.symm.trans at_rest),
      fun at_rest => (nomatch rest.symm.trans at_rest), fun _ _ pos => (nomatch pos), fun _ _ pos => (nomatch pos),
      fun _ _ => ⟨moved.current, moved.settled.trans noted.settled⟩, fun both => (nomatch both)⟩

theorem took_pos (pos : r.pos = some p) : (s.lever k).Took s.now r ((takeReading k r s).lever k) := by
  have noted := readingNoted_own here r
  have there := readingNoted_here here r
  have not_both : r ≠ .both := by rintro rfl; cases pos
  have not_moving : r ≠ .moving := by rintro rfl; cases pos
  have rests : ((readingNoted k r s).lever k).atRest = (s.lever k).atRest := noted.atRest
  have settled : ((readingNoted k r s).lever k).settled = (s.lever k).settled := noted.settled
  rw [takeReading_pos pos, rests, settled]
  cases rest : (s.lever k).atRest with
  | true =>
    rw [if_pos rfl]
    have at_rest {q : Prop} (away : (s.lever k).atRest = false) : q := nomatch rest.symm.trans away
    by_cases same : (s.lever k).settled = some p
    · rw [if_pos same]
      exact ⟨noted.slot, noted.reading, fun _ _ => ⟨noted.current, noted.settled⟩, fun _ other _ => absurd (pos.trans same.symm) other,
        fun _ => at_rest, fun _ => at_rest, at_rest, fun both => absurd both not_both⟩
    · have departed := (leverDeparts_calm k r (readingNoted k r s) k).sees
      rw [changeLever_own k _ there, readingNoted_now] at departed
      have sees := departed.trans (sees_when (forcesInTransit ((leverDeparts k r (readingNoted k r s)).lever k) r) _
        (sees_beginLeverForced k (leverDeparts k r (readingNoted k r s))) k)
      rw [if_neg same]
      exact ⟨sees.slot.trans noted.slot, sees.reading.trans noted.reading, fun _ is => absurd (is.symm.trans pos) same, fun _ _ _ => ⟨sees.current,
        sees.settled.trans noted.settled, sees.start, sees.compare⟩, fun _ => at_rest, fun _ => at_rest, at_rest,
        fun both => absurd both not_both⟩
  | false =>
    rw [if_neg (by simp)]
    have away {q : Prop} (at_rest : (s.lever k).atRest = true) : q := nomatch rest.symm.trans at_rest
    by_cases again : (s.lever k).lastReading = some r
    · have sees := sees_after_settle k p (readingNoted k r s) k
      rw [changeLever_own k _ there, readingNoted_now] at sees
      rw [if_pos (beq_iff_eq.2 again)]
      refine ⟨sees.slot.trans noted.slot, sees.reading.trans noted.reading, away, away, fun q _ is _ => ?_, fun _ _ _ first => absurd again first,
        fun _ moving => absurd moving not_moving, fun both => absurd both not_both⟩
      obtain rfl := Option.some.inj (pos.symm.trans is)
      exact ⟨sees.current, sees.settled, sees.start, sees.held rfl, sees.settle⟩
    · have sees := noted.trans (sees_when (forcesInTransit ((readingNoted k r s).lever k) r) _
        (sees_beginLeverForced k (readingNoted k r s)) k)
      rw [if_neg (by rwa [beq_iff_eq])]
      exact ⟨sees.slot, sees.reading, away, away, fun _ _ _ same => absurd same again, fun _ _ _ _ => ⟨sees.current, sees.settled⟩,
        fun _ moving => absurd moving not_moving, fun both => absurd both not_both⟩

/-- What a reading makes of its lever. -/
theorem takeReading_own (r : Reading) : (s.lever k).Took s.now r ((takeReading k r s).lever k) := by
  rcases r.pos_cases with rfl | rfl | ⟨p, pos⟩
  · exact took_both here
  · exact took_moving here
  · exact took_pos here pos

end

theorem changeLever_others (k : Nat) (f : Lever → Lever) (s : State) (other : j ≠ k) :
    (s.lever j).Sees ((changeLever k f s).lever j) := by
  rw [other_of_modAt (changeLever_levers k f s) other]
  exact .refl _

/-- What a reading leaves of every other lever. -/
theorem takeReading_other (r : Reading) (other : j ≠ k) : (s.lever j).Sees ((takeReading k r s).lever j) := by
  have noted := readingNoted_other (s := s) r other
  have departs (w : State) : (w.lever j).Sees ((leverDeparts k r w).lever j) :=
    (changeLever_others k _ w other).trans (leverDeparts_calm k r w j).sees
  rcases r.pos_cases with rfl | rfl | ⟨p, pos⟩
  · have same := State.lever_modLever_other s k j (Lever.readAs .both ((s.lever k).lastReading == some .both)) other
    have lost (w : State) : (w.lever j).Sees ((leverUnknown k w).lever j) := by
      by_cases unknown : (w.lever k).current = .unknown
      · rw [leverUnknown, if_pos unknown]
        exact .refl _
      · rw [leverUnknown_of_known unknown]
        exact (changeLever_others k _ w other).trans ((calm_of_same rfl : CalmLevers _ (noteLever k _)).trans
          (calm_leverEvent k _) j).sees
    have marked (w : State) : SeesLevers w (w.modLever k Lever.multiple) :=
      sees_modLever k Lever.multiple w fun _ => ⟨rfl, rfl, rfl, rfl, rfl, rfl, rfl, id⟩
    have raised (b : Bool) (w : State) : SeesLevers w (when b (raise 7 (some k)) w) :=
      sees_when _ _ (calm_raise_lever (c := 7) (by decide) k w).sees
    rw [takeReading_both, ← same]
    exact ((lost _).trans (marked _ j)).trans (raised _ _ j)
  · have moves (w : State) : (w.lever j).Sees ((leverMoving k w).lever j) :=
      (changeLever_others k _ w other).trans (leverMoving_calm k w j).sees
    rw [takeReading_moving]
    split
    · exact noted.trans (departs _)
    · exact noted.trans (moves _)
  · have settles (w : State) : (w.lever j).Sees ((leverSettles k p w).lever j) :=
      (changeLever_others k _ w other).trans (sees_after_settle k p w j)
    have forced (b : Bool) (w : State) : SeesLevers w (when b (beginLeverForced k) w) :=
      sees_when _ _ (sees_beginLeverForced k w)
    rw [takeReading_pos pos]
    split
    · split
      · exact noted
      · exact (noted.trans (departs _)).trans (forced _ _ j)
    · split
      · exact noted.trans (settles _)
      · exact noted.trans (forced _ _ j)

end Sys2Proof.Machine
end

section
/-! O30: a lever board's answer, slot by slot (R31, R33 to R36). -/

set_option Elab.async false

namespace Sys2Proof.Machine

variable {s u v w : State} {c d i j k n b : Nat} {l m : Lever} {p : Pos} {r : Reading} {now : Time} {t : Time}
  {x : SlotReading} {xs : List SlotReading} {o : List Bool}

/-! ### What a slot's reading and read-back leave alone -/

/-- The parts that the reading of a slot can touch. -/
abbrev slotParts : List Part := [.levers, .faults, .register, .mode, .holds, .timers, .inbound, .links, .transmitter]

theorem leaves_raise_lever (own : OfLever c) (k : Nat) (s : State) : Leaves slotParts s (raise c (some k) s) :=
  leaves_raise own.no_link (moves_confine_lever own) (by decide) (by decide) (by decide) s

theorem leaves_beginLeverForced (k : Nat) (s : State) : Leaves slotParts s (beginLeverForced k s) := by
  unfold beginLeverForced
  split
  · exact .refl _ s
  · exact ((Moves.refl.to_modLever (ks := [.lever]) k Lever.forced).leaves).trans (leaves_raise_lever (by decide) k _)

theorem leaves_latchRecord' (c : Nat) (subject : Option Nat) (s : State) : Leaves slotParts s (latchRecord c subject s) :=
  (leaves_latchRecord c subject s).mono (by decide)

theorem leaves_endTransit (k : Nat) (s : State) :
    Leaves slotParts s (endCause 9 (some k) (s.modLever k Lever.transitEnded)) := by
  have marked : Moves [.lever] s (s.modLever k Lever.transitEnded) := Moves.refl.to_modLever k Lever.transitEnded
  have ended (w : State) : Moves [.note, .record, .faults, .lever, .evaluate] w (endCause 9 (some k) w) := by
    unfold endCause
    split
    · split
      · exact .refl
      · exact ((Moves.refl.to_clearRecord _ _).to_unconfineLever 9 k).to_noteFault 9
    · exact Moves.refl.to_latchRecord ..
  exact marked.leaves.trans (ended _).leaves

theorem leaves_settleForcing (k : Nat) (p : Pos) (l : Lever) (s : State) : Leaves slotParts s (settleForcing k p l s) := by
  unfold settleForcing
  split
  · exact ((Moves.refl.to_modLever (ks := [.lever]) k Lever.unforced).leaves).trans (leaves_latchRecord' _ _ _)
  · split
    · exact (leaves_raise_lever (by decide) k s).trans (leaves_latchRecord' _ _ _)
    · exact leaves_when _ _ (leaves_beginLeverForced k s)

theorem leaves_settleTold (k : Nat) (p : Pos) (s : State) : Leaves slotParts s (settleTold k p s) := by
  have told : Moves [.note, .evaluate, .inb] s (leverEvent k (noteLever k (changeLever k (Lever.settledIn p s.now) s))) :=
    (((Moves.refl.to_releverNoted k (Lever.settledIn p s.now)).to_evaluateNamingLever k).to_linesTakeLever k)
  have consumed (o : Option Nat) (w : State) : Moves [.evaluate] w (o.elim id consumeAllowances w) := by
    cases o with
    | none => exact .refl
    | some line => exact Moves.refl.to_consumeAllowances line
  have taken (w : State) : Moves [.note, .record, .evaluate, .timer, .hold] w
      (holdsTakeSettle k p (when (p == .reverse) (timersTakeReverse k) w)) :=
    (Moves.refl.to_when _ fun _ => Moves.refl.to_timersTakeReverse k).to_holdsTakeSettle k p
  exact (told.leaves.trans (consumed _ _).leaves).trans (taken _).leaves

theorem leaves_leverSettles (k : Nat) (p : Pos) (s : State) : Leaves slotParts s (leverSettles k p s) := by
  rw [leverSettles_eq]
  exact ((leaves_settleTold k p s).trans (leaves_when _ _ (leaves_endTransit k _))).trans (leaves_settleForcing ..)

theorem leaves_readingNoted (k : Nat) (r : Reading) (s : State) : Leaves slotParts s (readingNoted k r s) :=
  ((Moves.refl.to_modLever (ks := [.note, .lever, .faults]) k
    (Lever.readAs r ((s.lever k).lastReading == some r))).to_contactRecovers k).leaves

theorem leaves_leverDeparts (k : Nat) (r : Reading) (s : State) : Leaves slotParts s (leverDeparts k r s) :=
  (Moves.refl.to_leverDeparts (ks := leverKinds) k r).leaves

theorem leaves_takeReading (k : Nat) (r : Reading) (s : State) : Leaves slotParts s (takeReading k r s) := by
  have noted := leaves_readingNoted k r s
  rcases r.pos_cases with rfl | rfl | ⟨p, pos⟩
  · have lost : Moves [.note, .lever, .evaluate, .inb] s ((leverUnknown k (s.modLever k
        (Lever.readAs .both ((s.lever k).lastReading == some .both)))).modLever k Lever.multiple) :=
      ((Moves.refl.to_modLever k (Lever.readAs .both _)).to_leverUnknown k).to_modLever k Lever.multiple
    exact lost.leaves.trans (leaves_when _ _ (leaves_raise_lever (by decide) k _))
  · rw [takeReading_moving]
    split
    · exact noted.trans (leaves_leverDeparts ..)
    · exact noted.trans (Moves.refl.to_leverMoving (ks := .lever :: leverKinds) k).leaves
  · rw [takeReading_pos pos]
    split
    · split
      · exact noted
      · exact (noted.trans (leaves_leverDeparts ..)).trans (leaves_when _ _ (leaves_beginLeverForced k _))
    · split
      · exact noted.trans (leaves_leverSettles ..)
      · exact noted.trans (leaves_when _ _ (leaves_beginLeverForced k _))

theorem leaves_leverFinding (k : Nat) (f : Finding) (s : State) : Leaves slotParts s (leverFinding k f s) := by
  have marked (g : Lever → Lever) : Leaves slotParts s (s.modLever k g) := (leaves_modLever k g s).mono (by decide)
  cases f with
  | stuckOn =>
    simp only [leverFinding]
    split
    · exact .refl _ s
    · exact (marked _).trans (leaves_raise_lever (by decide) k _)
  | stuckOff =>
    simp only [leverFinding]
    split
    · exact .refl _ s
    · exact (marked _).trans (leaves_raise_lever (by decide) k _)
  | agreement =>
    exact ((marked _).trans (leaves_when _ _ (leaves_latchRecord' _ _ _))).trans (leaves_when _ _ (leaves_latchRecord' _ _ _))

/-! ### Slots -/

/-- A judged read-back of a slot's coil, if it is judged (R38). -/
def readBack (k : Nat) (command : Option Bool) (current : Bool) (s : State) : State :=
  command.elim s fun on => leverFinding k (findingOf on current) s

theorem takeSlot_of_unmapped (unmapped : leverOfSlot s (8 * b - 7 + i) = none) : takeSlot b i x s = s := by
  simp [takeSlot, unmapped]

theorem takeSlot_of_mapped (mapped : leverOfSlot s (8 * b - 7 + i) = some k) :
    ∃ command, takeSlot b i x s = readBack k command x.current (takeReading k (readingOf x.n x.r) s) := by
  refine ⟨judgedCommand (s.board b) i, ?_⟩
  simp only [takeSlot, mapped]
  cases judgedCommand (s.board b) i <;> rfl

theorem sees_readBack (k : Nat) (command : Option Bool) (current : Bool) (s : State) :
    SeesLevers s (readBack k command current s) := by
  cases command with
  | none => exact .refl s
  | some on => exact sees_leverFinding k _ s

theorem leaves_takeSlot (b i : Nat) (x : SlotReading) (s : State) : Leaves slotParts s (takeSlot b i x s) := by
  cases mapped : leverOfSlot s (8 * b - 7 + i) with
  | none =>
    rw [takeSlot_of_unmapped mapped]
    exact .refl _ s
  | some k =>
    obtain ⟨command, taken⟩ := takeSlot_of_mapped (x := x) mapped
    rw [taken]
    refine (leaves_takeReading k (readingOf x.n x.r) s).trans ?_
    cases command with
    | none => exact .refl ..
    | some on => exact leaves_leverFinding ..

theorem leaves_takeSlots (b i : Nat) (xs : List SlotReading) (s : State) : Leaves slotParts s (takeSlots b i xs s) := by
  induction xs generalizing i s with
  | nil => exact .refl _ s
  | cons x xs ih => exact (leaves_takeSlot b i x s).trans (ih _ _)

/-- A lever with a slot is in the list. -/
theorem slot_of_leverOfSlot (mapped : leverOfSlot s n = some k) : (s.lever k).slot = some n :=
  beq_iff_eq.1 (List.find?_some (p := fun k => (s.lever k).slot == some n) mapped)

theorem here_of_slot (mapped : leverOfSlot s n = some k) : within k s.levers.length = true := by
  by_contra outside
  have blank : s.lever k = {} := nth_outside _ _ _ (by simpa using outside)
  have slot := slot_of_leverOfSlot mapped
  rw [blank] at slot
  cases slot

/-- The map of the slots is told by the levers' own slots. -/
theorem leverOfSlot_congr (slots : ∀ k, (u.lever k).slot = (s.lever k).slot) (n : Nat) :
    leverOfSlot u n = leverOfSlot s n := by
  simp only [leverOfSlot, slots]

theorem takeSlot_slots (b i : Nat) (x : SlotReading) (s : State) (k : Nat) :
    ((takeSlot b i x s).lever k).slot = (s.lever k).slot := by
  cases mapped : leverOfSlot s (8 * b - 7 + i) with
  | none => rw [takeSlot_of_unmapped mapped]
  | some n =>
    obtain ⟨command, taken⟩ := takeSlot_of_mapped (x := x) mapped
    rw [taken, (sees_readBack n command x.current _ k).slot]
    by_cases own : k = n
    · subst own
      exact (takeReading_own (here_of_slot mapped) _).slot
    · exact (takeReading_other (s := s) (readingOf x.n x.r) own).slot

/-- A slot of another lever tells nothing of this one. -/
theorem takeSlot_other (other : leverOfSlot s (8 * b - 7 + i) ≠ some k) : (s.lever k).Sees ((takeSlot b i x s).lever k) := by
  cases mapped : leverOfSlot s (8 * b - 7 + i) with
  | none =>
    rw [takeSlot_of_unmapped mapped]
    exact .refl _
  | some n =>
    obtain ⟨command, taken⟩ := takeSlot_of_mapped (x := x) mapped
    rw [taken]
    exact (takeReading_other (readingOf x.n x.r) fun own => other (mapped.trans (congrArg some own.symm))).trans (sees_readBack n command x.current _ k)

theorem takeSlot_own (mapped : leverOfSlot s (8 * b - 7 + i) = some k) :
    (s.lever k).Took s.now (readingOf x.n x.r) ((takeSlot b i x s).lever k) := by
  obtain ⟨command, taken⟩ := takeSlot_of_mapped (x := x) mapped
  rw [taken]
  exact (takeReading_own (here_of_slot mapped) _).after (sees_readBack k command x.current _ k)

/-- The slots from an index on tell nothing of a lever with a slot before it. -/
theorem takeSlots_other (before : (s.lever k).slot = some n) (low : n < 8 * b - 7 + i) :
    (s.lever k).Sees ((takeSlots b i xs s).lever k) := by
  induction xs generalizing i s with
  | nil => exact .refl _
  | cons x xs ih =>
    have other : leverOfSlot s (8 * b - 7 + i) ≠ some k := fun mapped => by
      have slot := before.symm.trans (slot_of_leverOfSlot mapped)
      have : n = 8 * b - 7 + i := Option.some.inj slot
      omega
    exact (takeSlot_other other).trans (ih (s := takeSlot b i x s) ((takeSlot_slots b i x s k).trans before) (by omega))

/-- Every slot of an answer takes its lever by its reading, once (R31). -/
theorem takeSlots_own (found : xs[j]? = some x) (mapped : leverOfSlot s (8 * b - 7 + (i + j)) = some k) :
    (s.lever k).Took s.now (readingOf x.n x.r) ((takeSlots b i xs s).lever k) := by
  induction xs generalizing i j s with
  | nil => cases found
  | cons y ys ih =>
    cases j with
    | zero =>
      obtain rfl : y = x := Option.some.inj found
      have slot := (takeSlot_slots b i y s k).trans (slot_of_leverOfSlot mapped)
      exact (takeSlot_own mapped).after (takeSlots_other slot (by omega))
    | succ j =>
      have slot := slot_of_leverOfSlot mapped
      have other : leverOfSlot s (8 * b - 7 + i) ≠ some k := fun same => by
        have : 8 * b - 7 + (i + (j + 1)) = 8 * b - 7 + i := Option.some.inj (slot.symm.trans (slot_of_leverOfSlot same))
        omega
      have later : leverOfSlot (takeSlot b i y s) (8 * b - 7 + (i + 1 + j)) = some k := by
        rw [leverOfSlot_congr (takeSlot_slots b i y s), ← mapped]
        exact congrArg (fun m => leverOfSlot s (8 * b - 7 + m)) (by omega)
      have now : (takeSlot b i y s).now = s.now := (leaves_takeSlot b i y s).2.2.1
      exact Lever.Took.before (takeSlot_other other) (now ▸ ih (s := takeSlot b i y s) found later)

end Sys2Proof.Machine
end

section
/-! O30: good answers of a lever board (R31, R34 to R36). -/

set_option Elab.async false

namespace Sys2Proof.Machine

variable {s : State} {b : Nat} {t : Time} {a : Answer} {slots : List SlotReading} {o : List Bool}

/-! ### Good answers (R32) -/

def Board.answered (r : Board) : Board := { r with misses := 0 }

theorem answered_of_fit (polled : s.polled = some (b, o)) (fits : answerFits b a = true) :
    answered b a s = takeGood b a o s := by
  simp [answered, polled, fits]

theorem takeGood_of_present (present : (s.board b).missing = false) :
    takeGood b a o s = endPoll b o true (takeAnswer b a (s.modBoard b Board.answered)) := by
  simp only [takeGood, present, Bool.not_false, if_true]
  rfl

theorem answerFits_lever (low : within b 8 = true) (whole : slots.length = 8) : answerFits b (.lever slots) = true := by
  have := within_le low
  simp [answerFits, whole, this]

/-- Settles O30: a lever board's answer, slot by slot. -/
theorem goodAnswersDecodeTheLevers : Obligations.GoodAnswersDecodeTheLevers := by
  unfold Obligations.GoodAnswersDecodeTheLevers
  intro s t b o slots undisputed low boards _ whole polled present
  have here : within b s.boards.length = true := by
    have := within_le low
    simp only [boards, within, Bool.and_eq_true_iff, decide_eq_true_eq]
    omega
  have effect := (answered_of_fit (s := s.atTime t) polled (answerFits_lever low whole)).trans
    (takeGood_of_present (s := s.atTime t) present)
  have taken := leaves_takeSlots b 0 slots ((s.atTime t).modBoard b Board.answered)
  have moves : Moves pollKinds (s.atTime t)
      (endPoll b o true (takeAnswer b (.lever slots) ((s.atTime t).modBoard b Board.answered))) :=
    ((Moves.refl.to_modBoard b Board.answered).to_takeAnswer b _).to_endPoll b o true
  have after := moves_endPoll b o true (takeSlots b 0 slots ((s.atTime t).modBoard b Board.answered))
  refine .of_parts rfl rfl undisputed effect moves ?_ fun agreed now => ?_
  · exact (((Moves.refl (ks := [.board])).to_modBoard b Board.answered).leaves.trans (taken.mono (by decide))).trans
      after.leaves
  · have modified : (takeSlots b 0 slots ((s.atTime t).modBoard b Board.answered)).boards
        = modAt s.boards {} b Board.answered := (taken.2.2.2 .boards (by decide)).1
    have board := (finish_board agreed b).trans (endPoll_board here modified)
    refine ⟨finish_polled agreed, congrArg Board.misses board, (congrArg Board.missing board).trans present,
      congrArg Board.last board, congrArg Board.before board, fun i k x found mapped => ?_⟩
    have took := (takeSlots_own (s := (s.atTime t).modBoard b Board.answered) (i := 0) found
      (by rw [Nat.zero_add]; exact mapped)).after (after.calm.sees k)
    rw [finish_lever agreed]
    exact ⟨took.reading, took.rests, took.departs, took.settles, took.waits, took.moves, took.lost⟩

end Sys2Proof.Machine
end

section
/-! Departures, releases held and allowances (R63, R66, R69). -/

set_option Elab.async false

namespace Sys2Proof.Machine

variable {s u v w : State} {c d i j k n line : Nat} {l m : Lever} {p : Pos} {r : Reading} {g : Lever → Lever}

/-! ### Evaluations decide, and change nothing else -/

theorem leverEvent_undecided (k j : Nat) (s : State) : ((leverEvent k s).lever j).undecided = (s.lever j).undecided := by
  have lines : (leverEvent k s).levers = (evaluateNamingLever k (evaluate k s)).levers :=
    (Moves.refl.to_linesTakeLever (ks := [.note, .inb]) k).exactly .levers
  rw [State.lever, lines]
  exact (forEach_evaluate_undecided _ j _).trans (evaluate_undecided k j s)

theorem leverDeparts_undecided (here : within k s.levers.length = true) :
    ((leverDeparts k r s).lever k).undecided
      = ((s.lever k).departedAt (releaseAtDeparture s (s.lever k) r) s.now).undecided := by
  have noted : (noteLever k (changeLever k (Lever.departedAt (releaseAtDeparture s (s.lever k) r) s.now) s)).lever k
      = (s.lever k).departedAt (releaseAtDeparture s (s.lever k) r) s.now := changeLever_own k _ here
  rw [leverDeparts_eq, leverEvent_undecided, noted]

/-- In SERVICE an evaluation keeps ON the coil of a lever in transit that holds a release (R61). -/
theorem evaluate_coil_moving (service : s.blockMode = .service) (moving : (s.lever k).current = .moving)
    (held : (s.lever k).held.isSome = true) (here : within k s.levers.length = true) :
    ((evaluate k s).lever k).coil = true := by
  rw [evaluate_lever, if_pos ⟨rfl, here⟩]
  change decidedCoil s.blockMode (s.lever k) (decideLever s k) = true
  rw [decidedCoil, decideLever_agree, service]
  simp [coilCommand, moving, held]

theorem leverEvent_coil_moving (service : s.blockMode = .service) (moving : (s.lever k).current = .moving)
    (held : (s.lever k).held.isSome = true) (here : within k s.levers.length = true) :
    ((leverEvent k s).lever k).coil = true := by
  have lines : (leverEvent k s).levers = (evaluateNamingLever k (evaluate k s)).levers :=
    (Moves.refl.to_linesTakeLever (ks := [.note, .inb]) k).exactly .levers
  rw [State.lever, lines]
  refine (forEach_keeps (I := fun v => v.blockMode = .service ∧ (v.lever k).undecided = (s.lever k).undecided
      ∧ v.levers.length = s.levers.length ∧ (v.lever k).coil = true) _ (fun n _ v ⟨mode, same, length, on⟩ => ?_)
    (evaluate k s) ⟨(evaluate_blockMode k s).trans service, evaluate_undecided k k s, evaluate_length k s,
      evaluate_coil_moving service moving held here⟩).2.2.2
  refine ⟨(evaluate_blockMode n v).trans mode, (evaluate_undecided n k v).trans same, (evaluate_length n v).trans length, ?_⟩
  by_cases own : k = n
  · subst own
    exact evaluate_coil_moving mode ((congrArg (·.current) same).trans moving)
      ((congrArg (fun l => l.held.isSome) same).trans held) (by rwa [length])
  · rw [evaluate_lever, if_neg fun both => own both.1]
    exact on

/-- The first clause of O34: the release that a departing lever takes (R63). -/
theorem departure_clauses (here : within k s.levers.length = true) (configured : s.blockMode ≠ .unconfigured)
    (rest : (s.lever k).atRest = true) :
    ((leverDeparts k r s).lever k).current = .moving ∧ ((leverDeparts k r s).lever k).settled = (s.lever k).settled
      ∧ ((s.lever k).free = true → (s.lever k).coil = true →
        ((leverDeparts k r s).lever k).held = (s.lever k).settled
          ∧ (s.blockMode = .service → ((leverDeparts k r s).lever k).coil = true))
      ∧ ((s.lever k).free = false ∨ (s.lever k).coil = false → (s.lever k).held = none →
        ((leverDeparts k r s).lever k).held
          = if (s.lever k).type = .signal ∧ (s.lever k).settled = some .reverse ∧ r = .moving then some .reverse else none) := by
  have own := leverDeparts_undecided (r := r) here
  have held : ((leverDeparts k r s).lever k).held = releaseAtDeparture s (s.lever k) r := congrArg (·.held) own
  refine ⟨congrArg (·.current) own, congrArg (·.settled) own, fun free on => ?_, fun barred none_held => ?_⟩
  · have taken : releaseAtDeparture s (s.lever k) r = (s.lever k).settled := if_pos (by simp [rest, free, on])
    refine ⟨held.trans taken, fun service => ?_⟩
    obtain ⟨p, settled⟩ := Lever.settled_of_atRest rest
    have noted : (noteLever k (changeLever k (Lever.departedAt (releaseAtDeparture s (s.lever k) r) s.now) s)).lever k
        = (s.lever k).departedAt (releaseAtDeparture s (s.lever k) r) s.now := changeLever_own k _ here
    have mode : (noteLever k (changeLever k (Lever.departedAt (releaseAtDeparture s (s.lever k) r) s.now) s)).blockMode
        = s.blockMode := (leaves_changeLever k _ s).blockMode_eq
    rw [leverDeparts_eq]
    refine leverEvent_coil_moving (mode.trans service) (by rw [noted]; rfl) ?_ ?_
    · rw [noted]
      change (releaseAtDeparture s (s.lever k) r).isSome = true
      rw [taken, settled]
      rfl
    · change within k (changeLever k _ s).levers.length = true
      rw [changeLever_length]
      exact here
  · rw [held, releaseAtDeparture, if_neg (by rcases barred with h | h <;> simp [h])]
    refine if_congr ?_ rfl rfl
    simp [takesFromReverse, Lever.signalAtReverse, none_held, configured, and_assoc]

/-! ### Allowances (R66, R69) -/

def Lever.allowed (l : Lever) : Lever := { l with allowance := some true }

/-- The record of a lever whose line leaves CLEAR: its allowance is withdrawn, and a release FROM_NORMAL ends (R66). -/
def Lever.withdrawn (l : Lever) : Lever :=
  { l with allowance := some false, held := if l.held == some .normal then none else l.held }

theorem changeLever_congr {f : Lever → Lever} (same : f (s.lever k) = g (s.lever k)) : changeLever k f s = changeLever k g s := by
  have changed : s.modLever k f = s.modLever k g := congrArg (fun ls => { s with levers := ls }) (modAt_congr same)
  simp only [changeLever, changed]

/-- Levers changed and evaluated one after the other, each by the same change of its own record. -/
theorem forEach_changeLever {ns : List Nat} (nodup : ns.Nodup) (kept : ∀ l : Lever, (g l).undecided = (g l.undecided).undecided)
    (here : within k s.levers.length = true) :
    ((forEach ns (fun n u => evaluate n (changeLever n g u)) s).lever k).undecided
      = if k ∈ ns then (g (s.lever k)).undecided else (s.lever k).undecided := by
  have length (n : Nat) (u : State) : (evaluate n (changeLever n g u)).levers.length = u.levers.length := by
    rw [evaluate_length, changeLever_length]
  have all := forEach_observed (k := k) (f := fun n u => evaluate n (changeLever n g u))
    (fun u => ((u.lever k).undecided, within k u.levers.length))
    (fun p => if p.2 = true then ((g p.1).undecided, p.2) else p) (fun u => ?_) (fun n other u => ?_) ns nodup s
  · refine (congrArg Prod.fst all).trans ?_
    by_cases mem : k ∈ ns
    · rw [if_pos mem, if_pos mem]
      exact (congrArg Prod.fst (if_pos here)).trans (kept (s.lever k)).symm
    · rw [if_neg mem, if_neg mem]
  · have changed : ((evaluate k (changeLever k g u)).lever k).undecided = ((changeLever k g u).lever k).undecided :=
      evaluate_undecided k k _
    rw [length]
    cases inside : within k u.levers.length with
    | true =>
      rw [changed, changeLever_own k g inside, kept]
      rfl
    | false =>
      rw [changed, changeLever_lever, if_neg (by simp [inside])]
      rfl
  · have same : ((evaluate n (changeLever n g u)).lever k).undecided = (u.lever k).undecided := by
      rw [evaluate_undecided, other_of_modAt (changeLever_levers n g u) (Ne.symm other)]
    rw [same, length]

theorem signalsOn_nodup (s : State) (line : Nat) : (signalsOn s line).Nodup := (upTo_nodup 64).filter _

theorem mem_signalsOn (inside : within k 64 = true) :
    k ∈ signalsOn s line ↔ (s.lever k).type = .signal ∧ (s.lever k).blockLine = some line := by
  simp [signalsOn, List.mem_filter, mem_upTo, inside]

/-- The second clause of O34: what a grant, a consumption and a withdrawal make of every lever. -/
theorem allowance_clauses (inside : within k 64 = true) (length : s.levers.length = 64) :
    ((grantAllowances line s).lever k).allowance
        = (if (s.lever k).type = .signal ∧ (s.lever k).blockLine = some line ∧ (s.lever k).outOfUse = false then some true
          else (s.lever k).allowance)
      ∧ ((grantAllowances line s).lever k).held = (s.lever k).held
      ∧ ((consumeAllowances line s).lever k).allowance
        = (if (s.lever k).type = .signal ∧ (s.lever k).blockLine = some line then some false else (s.lever k).allowance)
      ∧ ((consumeAllowances line s).lever k).held = (s.lever k).held
      ∧ ((withdrawAllowances true line s).lever k).allowance
        = (if (s.lever k).type = .signal ∧ (s.lever k).blockLine = some line then some false else (s.lever k).allowance)
      ∧ ((withdrawAllowances true line s).lever k).held
        = (if (s.lever k).type = .signal ∧ (s.lever k).blockLine = some line ∧ (s.lever k).held = some .normal then none
          else (s.lever k).held) := by
  have here := here_of_within 64 inside length
  have granted := forEach_changeLever (g := Lever.allowed) (k := k)
    ((signalsOn_nodup s line).filter fun k => !(s.lever k).outOfUse) (fun _ => rfl) here
  have consumed := forEach_changeLever (g := Lever.consumed) (k := k) (signalsOn_nodup s line) (fun _ => rfl) here
  have withdrawn := forEach_changeLever (g := Lever.withdrawn) (k := k) (signalsOn_nodup s line) (fun _ => rfl) here
  have withdraws : withdrawAllowances true line s
      = forEach (signalsOn s line) (fun n u => evaluate n (changeLever n Lever.withdrawn u)) s := by
    refine congrArg (fun f => forEach (signalsOn s line) f s) (funext fun n => funext fun u => ?_)
    refine congrArg (evaluate n) (changeLever_congr ?_)
    simp [Lever.withdrawn]
  simp only [List.mem_filter, mem_signalsOn inside] at granted consumed withdrawn
  have grants : ((grantAllowances line s).lever k).undecided = _ := granted
  have consumes : ((consumeAllowances line s).lever k).undecided = _ := consumed
  rw [← withdraws] at withdrawn
  refine ⟨(congrArg (·.allowance) grants).trans ?_, (congrArg (·.held) grants).trans ?_,
    (congrArg (·.allowance) consumes).trans ?_, (congrArg (·.held) consumes).trans ?_,
    (congrArg (·.allowance) withdrawn).trans ?_, (congrArg (·.held) withdrawn).trans ?_⟩
  · exact (apply_ite (fun l : Lever => l.allowance) _ _ _).trans (if_congr (by simp [and_assoc]) rfl rfl)
  · split <;> rfl
  · split <;> rfl
  · split <;> rfl
  · split <;> rfl
  · by_cases on : (s.lever k).type = .signal ∧ (s.lever k).blockLine = some line
    · simp [on, Lever.undecided, Lever.withdrawn]
    · rw [if_neg on, if_neg fun all => on ⟨all.1, all.2.1⟩]
      rfl

end Sys2Proof.Machine
end

section
/-! O34: releases, allowances and forced levers (R39, R63, R64, R69). -/

set_option Elab.async false

namespace Sys2Proof.Machine

variable {s u v w : State} {c d i j k n line : Nat} {l m : Lever} {p : Pos} {r : Reading} {g : Lever → Lever}
  {subject : Option Nat}

/-! ### The allowances after a settle (R69) -/

/-- A lever of the same line, with the same allowance. -/
structure Lever.SameLine (l m : Lever) : Prop where
  allowance : m.allowance = l.allowance
  type : m.type = l.type
  line : m.blockLine = l.blockLine

def SameLines (s u : State) : Prop := ∀ k, (s.lever k).SameLine (u.lever k)

theorem SameLines.trans (h : SameLines s u) (i : SameLines u v) : SameLines s v := fun k =>
  ⟨(i k).allowance.trans (h k).allowance, (i k).type.trans (h k).type, (i k).line.trans (h k).line⟩

theorem CalmLevers.sameLines (h : CalmLevers s u) : SameLines s u := fun k =>
  ⟨(h k).allowance, congrArg (·.type) (h k).core, congrArg (·.blockLine) (h k).core⟩

theorem sameLines_modAt (changed : u.levers = modAt s.levers {} k g) (same : ∀ l : Lever, l.SameLine (g l)) : SameLines s u := by
  intro j
  rw [State.lever, State.lever, changed, nth_modAt]
  split
  · next own => rw [own.1]; exact same _
  · exact ⟨rfl, rfl, rfl⟩

theorem sameLines_when (b : Bool) (f : State → State) (same : SameLines s (f s)) : SameLines s (when b f s) := by
  cases b with
  | false => exact fun _ => ⟨rfl, rfl, rfl⟩
  | true => exact same

theorem sameLines_latchRecord (c : Nat) (subject : Option Nat) (s : State) : SameLines s (latchRecord c subject s) :=
  (calm_of_same (latchRecord_levers ..)).sameLines

theorem sameLines_settleForcing (k : Nat) (p : Pos) (l : Lever) (s : State) : SameLines s (settleForcing k p l s) := by
  unfold settleForcing
  split
  · exact (sameLines_modAt (g := Lever.unforced) rfl fun _ => ⟨rfl, rfl, rfl⟩).trans (sameLines_latchRecord _ _ _)
  · split
    · exact (calm_raise_lever (c := 8) (by decide) k s).sameLines.trans (sameLines_latchRecord _ _ _)
    · refine sameLines_when _ _ ?_
      unfold beginLeverForced
      split
      · exact fun _ => ⟨rfl, rfl, rfl⟩
      · exact (sameLines_modAt (u := s.modLever k Lever.forced) (g := Lever.forced) rfl fun _ => ⟨rfl, rfl, rfl⟩).trans
          (calm_raise_lever (c := 8) (by decide) k _).sameLines

theorem sameLines_endTransit (k : Nat) (s : State) :
    SameLines s (endCause 9 (some k) (s.modLever k Lever.transitEnded)) :=
  (sameLines_modAt (u := s.modLever k Lever.transitEnded) (g := Lever.transitEnded) rfl fun _ => ⟨rfl, rfl, rfl⟩).trans
    (calm_endCause_lever (by decide) k _).sameLines

/-- The third clause of O34. -/
theorem settle_allowance (inside : within j 64 = true) (length : s.levers.length = 64) (signal : (s.lever k).type = .signal)
    (on : (s.lever k).blockLine = some line) :
    ((leverSettles k .reverse s).lever j).allowance
      = if (s.lever k).allowance ≠ some false ∧ (s.lever j).type = .signal ∧ (s.lever j).blockLine = some line then some false
        else (s.lever j).allowance := by
  have noted : SameLines s (noteLever k (changeLever k (Lever.settledIn .reverse s.now) s)) :=
    sameLines_modAt (changeLever_levers k (Lever.settledIn .reverse s.now) s) fun _ => ⟨rfl, rfl, rfl⟩
  have told := noted.trans (calm_leverEvent k _).sameLines
  have told_length : (leverEvent k (noteLever k (changeLever k (Lever.settledIn .reverse s.now) s))).levers.length = 64 := by
    have lines : (leverEvent k (noteLever k (changeLever k (Lever.settledIn .reverse s.now) s))).levers
        = (evaluateNamingLever k (evaluate k (noteLever k (changeLever k (Lever.settledIn .reverse s.now) s)))).levers :=
      (Moves.refl.to_linesTakeLever (ks := [.note, .inb]) k).exactly .levers
    rw [lines]
    exact forEach_keeps (I := fun v => v.levers.length = 64) _ (fun n _ v same => (evaluate_length n v).trans same) _
      ((evaluate_length k _).trans ((changeLever_length k _ s).trans length))
  have taken (w : State) : CalmLevers w (holdsTakeSettle k .reverse (when (Pos.reverse == .reverse) (timersTakeReverse k) w)) :=
    (calm_when _ _ (calm_timersTakeReverse k w)).trans (calm_holdsTakeSettle k .reverse _)
  have ended (b : Bool) (w : State) :
      SameLines w (when b (fun s => endCause 9 (some k) (s.modLever k Lever.transitEnded)) w) :=
    sameLines_when b _ (sameLines_endTransit k w)
  have later : SameLines ((consumedBy .reverse (s.lever k)).elim id consumeAllowances
      (leverEvent k (noteLever k (changeLever k (Lever.settledIn .reverse s.now) s)))) (leverSettles k .reverse s) := by
    rw [leverSettles_eq]
    exact ((taken _).sameLines.trans (ended _ _)).trans (sameLines_settleForcing k .reverse _ _)
  rw [(later j).allowance]
  by_cases consumes : (s.lever k).allowance = some false
  · have none_consumed : consumedBy .reverse (s.lever k) = none := if_neg fun all => all.2.2 consumes
    rw [none_consumed, if_neg fun all => all.1 consumes]
    exact (told j).allowance
  · have consumed : consumedBy .reverse (s.lever k) = some line := (if_pos ⟨rfl, signal, consumes⟩).trans on
    rw [consumed]
    refine (allowance_clauses (line := line) inside told_length).2.2.1.trans ?_
    rw [(told j).allowance, (told j).type, (told j).line]
    exact if_congr (by simp [consumes]) rfl rfl

/-! ### Counting, told by the table, the clock and the reactions -/

theorem countOccurrence_congr (faults : w.faults = s.faults) (day : w.register.day = s.register.day)
    (tenths : w.register.tenths = s.register.tenths) (store : w.store = s.store) (c : Nat) (subject : Option Nat) :
    (countOccurrence c subject w).faults = (countOccurrence c subject s).faults := by
  have reaction : reactionOf w c = reactionOf s c := by rw [reactionOf, reactionOf, State.tables, State.tables, store]
  have record : newRecord w c subject = newRecord s c subject := by simp only [newRecord, day, tenths, reaction]
  cases found : s.faults.find c subject with
  | some r =>
    simp only [countOccurrence, faults, found, day, tenths]
    rw [State.modFaults_faults, State.modFaults_faults, faults]
  | none =>
    simp only [countOccurrence, faults, found, record, reaction]
    split
    · rw [State.modFaults_faults, State.modFaults_faults, faults]
    · rw [State.modFaults_faults, State.modFaults_faults, faults]

/-- Entries leave the clock of the register. -/
theorem Grows.clock (grows : Grows s u) : u.register.day = s.register.day ∧ u.register.tenths = s.register.tenths := by
  obtain ⟨es, told⟩ := grows
  rw [told]
  clear told
  induction es generalizing s with
  | nil => exact ⟨rfl, rfl⟩
  | cons e es ih => exact ih (s := Machine.append e s)

/-- Moves that change no record, no clock and no table leave what an occurrence counts on. -/
theorem Moves.counts {ks : List Kind} (moves : Moves ks s u) (undisputed : s.Undisputed) (c : Nat) (subject : Option Nat)
    (away : .faults ∉ ks ∧ (.clock ∉ ks ∧ .begin ∉ ks) ∧ ∀ x ∈ ks, Part.store ∉ x.parts := by decide) :
    u.faults = s.faults ∧ (countOccurrence c subject u).faults = (countOccurrence c subject s).faults := by
  have faults := moves.faults_kept undisputed away.1
  obtain ⟨day, tenths⟩ := (moves.grows away.2.1).clock
  exact ⟨faults, countOccurrence_congr faults day tenths (moves.exactly .store away.2.2) c subject⟩

end Sys2Proof.Machine
end

section
/-! O34: forced levers (R39). -/

set_option Elab.async false

namespace Sys2Proof.Machine

variable {s u v w : State} {k line : Nat} {l m : Lever} {p : Pos} {r : Reading}

/-! ### When a reading forces -/

theorem Pos.opposite_ne (p : Pos) : some p.opposite ≠ some p := by cases p <;> simp [Pos.opposite]

theorem forcesInTransit_of_opposite (settled : l.settled = some p.opposite) (pos : r.pos = some p) :
    forcesInTransit l r = (l.departed && l.transitStart.isSome && l.held.isNone) := by
  have opposite : oppositeReading l r = true := by
    simp only [oppositeReading, settled, pos]
    cases p <;> rfl
  rw [forcesInTransit, opposite, Bool.and_true]

/-- A forcing that begins: the cause stands, and is counted once (R39). -/
theorem forced_begins (undisputed : s.Undisputed) (here : within k s.levers.length = true)
    (inactive : (s.lever k).forcedActive = false) :
    ((beginLeverForced k s).lever k).forcedActive = true
      ∧ ((s.lever k).held = none → ((beginLeverForced k s).lever k).held = none)
      ∧ ((beginLeverForced k s).lever k).settled = (s.lever k).settled
      ∧ (beginLeverForced k s).faults = (countOccurrence 8 (some k) s).faults := by
  have begins : beginLeverForced k s = raise 8 (some k) (s.modLever k Lever.forced) :=
    if_neg (by rw [inactive]; exact Bool.false_ne_true)
  have own := State.lever_modLever_same s k Lever.forced here
  have calm := calm_raise_lever (c := 8) (by decide) k (s.modLever k Lever.forced) k
  rw [own] at calm
  have marked : Moves [.lever] s (s.modLever k Lever.forced) := Moves.refl.to_modLever k Lever.forced
  rw [begins]
  refine ⟨calm.forcedActive, fun none_held => calm.held.elim (·.trans none_held) id, calm.settled, ?_⟩
  rw [raise_lever_faults (by decide) (marked.undisputed undisputed)]
  exact (marked.counts undisputed 8 (some k)).2

/-! ### A reading of the opposite position -/

/-- With no LEVER_CONTACT standing, a reading is noted and nothing else is done first. -/
theorem readingNoted_of_quiet (here : within k s.levers.length = true) (quiet : (s.lever k).contactActive = false) :
    readingNoted k r s = s.modLever k (Lever.readAs r ((s.lever k).lastReading == some r)) := by
  have own := State.lever_modLever_same s k (Lever.readAs r ((s.lever k).lastReading == some r)) here
  have still : ((s.modLever k (Lever.readAs r ((s.lever k).lastReading == some r))).lever k).contactActive = false :=
    (congrArg (·.contactActive) own).trans quiet
  rw [readingNoted]
  simp only [contactRecovers, still]
  rfl

section
variable (undisputed : s.Undisputed) (here : within k s.levers.length = true) (quiet : (s.lever k).contactActive = false)
  (pos : r.pos = some p)
include undisputed here quiet

omit undisputed in
/-- What a reading leaves of its lever before it is judged. -/
theorem reading_noted : Moves [.lever] s (readingNoted k r s) ∧ (readingNoted k r s).lever k
    = (s.lever k).readAs r ((s.lever k).lastReading == some r) := by
  rw [readingNoted_of_quiet here quiet]
  exact ⟨Moves.refl.to_modLever k (Lever.readAs r _), State.lever_modLever_same s k _ here⟩

include pos
section
variable (inactive : (s.lever k).forcedActive = false) (settled : (s.lever k).settled = some p.opposite)
include inactive settled

/-- At rest: the departing reading is itself judged, by the release that the departure takes (R39, R63). -/
theorem forced_at_departure (rest : (s.lever k).atRest = true) :
    ((s.lever k).free = false ∨ (s.lever k).coil = false →
        ((takeReading k r s).lever k).forcedActive = true ∧ ((takeReading k r s).lever k).held = none
          ∧ (takeReading k r s).faults = (countOccurrence 8 (some k) s).faults)
      ∧ ((s.lever k).free = true → (s.lever k).coil = true →
        ((takeReading k r s).lever k).forcedActive = false ∧ (takeReading k r s).faults = s.faults) := by
  obtain ⟨noted, own⟩ := reading_noted (r := r) here quiet
  have not_moving : (r == .moving) = false := by cases r <;> simp_all [Reading.pos]
  have there := readingNoted_here here r
  have took : takeReading k r s
      = when (forcesInTransit ((leverDeparts k r (readingNoted k r s)).lever k) r) (beginLeverForced k)
          (leverDeparts k r (readingNoted k r s)) := by
    have rests : ((readingNoted k r s).lever k).atRest = true := by rw [own]; exact rest
    have other : ((readingNoted k r s).lever k).settled ≠ some p := by
      rw [own]
      exact fun same => p.opposite_ne (settled.symm.trans same)
    rw [takeReading_pos pos, if_pos rests, if_neg other]
  have departs : Moves (.lever :: leverKinds) s (leverDeparts k r (readingNoted k r s)) :=
    (noted.mono (by decide)).trans ((Moves.refl.to_leverDeparts (ks := leverKinds) k r).mono (by decide))
  have counts := departs.counts undisputed 8 (some k)
  have after := leverDeparts_undecided (r := r) there
  have left : ((leverDeparts k r (readingNoted k r s)).lever k).settled = some p.opposite :=
    (congrArg (·.settled) after).trans (by rw [own]; exact settled)
  have forces : forcesInTransit ((leverDeparts k r (readingNoted k r s)).lever k) r
      = (releaseAtDeparture (readingNoted k r s) ((readingNoted k r s).lever k) r).isNone := by
    rw [forcesInTransit_of_opposite left pos]
    exact congrArg (fun l : Lever => l.departed && l.transitStart.isSome && l.held.isNone) after
  have still : ((leverDeparts k r (readingNoted k r s)).lever k).forcedActive = false :=
    (congrArg (·.forcedActive) after).trans (by rw [own]; exact inactive)
  refine ⟨fun barred => ?_, fun free on => ?_⟩
  · have none_taken : releaseAtDeparture (readingNoted k r s) ((readingNoted k r s).lever k) r = none := by
      have bar : ((s.lever k).free && (s.lever k).coil) = false := by rcases barred with h | h <;> simp [h]
      have takes : takesFromReverse (readingNoted k r s) ((readingNoted k r s).lever k) r = false := by
        simp [takesFromReverse, not_moving]
      rw [releaseAtDeparture, takes, own]
      exact if_neg (by simpa [Lever.readAs] using fun _ => by simpa using bar)
    have held : ((leverDeparts k r (readingNoted k r s)).lever k).held = none := (congrArg (·.held) after).trans none_taken
    have long : within k (leverDeparts k r (readingNoted k r s)).levers.length = true := by
      by_contra outside
      have blank : (leverDeparts k r (readingNoted k r s)).lever k = {} := nth_outside _ _ _ (by simpa using outside)
      rw [blank] at left
      cases left
    obtain ⟨begun, still_none, -, counted⟩ := forced_begins (departs.undisputed undisputed) long still
    rw [took, forces, none_taken]
    exact ⟨begun, still_none held, counted.trans counts.2⟩
  · have taken : releaseAtDeparture (readingNoted k r s) ((readingNoted k r s).lever k) r = some p.opposite := by
      have free_on : ((s.lever k).atRest && (s.lever k).free && (s.lever k).coil) = true := by rw [rest, free, on]; rfl
      rw [own]
      exact (if_pos free_on).trans settled
    rw [took, forces, taken]
    exact ⟨still, counts.1⟩

/-- Away from rest, a first reading of the opposite position is judged by the release held (R39). -/
theorem forced_in_transit (away : (s.lever k).atRest = false) (first : (s.lever k).lastReading ≠ some r) :
    ((s.lever k).departed = true → (s.lever k).transitStart ≠ none → (s.lever k).held = none →
        ((takeReading k r s).lever k).forcedActive = true
          ∧ (takeReading k r s).faults = (countOccurrence 8 (some k) s).faults)
      ∧ ((s.lever k).held ≠ none → ((takeReading k r s).lever k).forcedActive = false ∧ (takeReading k r s).faults = s.faults) := by
  obtain ⟨noted, own⟩ := reading_noted (r := r) here quiet
  have counts := noted.counts undisputed 8 (some k)
  have took : takeReading k r s
      = when (forcesInTransit ((readingNoted k r s).lever k) r) (beginLeverForced k) (readingNoted k r s) := by
    have rests : ((readingNoted k r s).lever k).atRest ≠ true := by
      rw [own]
      exact fun rest => Bool.false_ne_true (away.symm.trans rest)
    rw [takeReading_pos pos, if_neg rests, if_neg (by rwa [beq_iff_eq])]
  have forces : forcesInTransit ((readingNoted k r s).lever k) r
      = ((s.lever k).departed && (s.lever k).transitStart.isSome && (s.lever k).held.isNone) := by
    rw [own]
    exact forcesInTransit_of_opposite (l := (s.lever k).readAs r _) settled pos
  have still : ((readingNoted k r s).lever k).forcedActive = false := by rw [own]; exact inactive
  refine ⟨fun departed started none_held => ?_, fun held => ?_⟩
  · obtain ⟨begun, -, -, counted⟩ := forced_begins (noted.undisputed undisputed) (readingNoted_here here r) still
    rw [took, forces, departed, Option.isSome_iff_ne_none.2 started, none_held]
    exact ⟨begun, counted.trans counts.2⟩
  · have off : (s.lever k).held.isNone = false := Option.isNone_eq_false_iff.2 (Option.isSome_iff_ne_none.2 held)
    rw [took, forces, off, Bool.and_false]
    exact ⟨still, counts.1⟩

end

section
variable (away : (s.lever k).atRest = false) (again : (s.lever k).lastReading = some r)
  (no_transit : (s.lever k).transitActive = false)
include away again no_transit

omit undisputed in
/-- A settle, up to its forcing. -/
theorem settles_reading : takeReading k r s
    = settleForcing k p ((s.lever k).readAs r true) (settleTold k p (readingNoted k r s)) := by
  obtain ⟨-, own⟩ := reading_noted (r := r) here quiet
  have rests : ((readingNoted k r s).lever k).atRest ≠ true := by
    rw [own]
    exact fun rest => Bool.false_ne_true (away.symm.trans rest)
  have same : ((s.lever k).lastReading == some r) = true := beq_iff_eq.2 again
  have inactive : ((s.lever k).readAs r true).transitActive = false := no_transit
  rw [takeReading_pos pos, if_neg rests, if_pos same, leverSettles_eq, own, same, inactive]
  rfl

omit undisputed pos away again no_transit in
/-- What the owners of a settle leave of its lever, of the table and of what an occurrence counts on. -/
theorem settleTold_spec : Moves (.lever :: .record :: .timer :: .hold :: leverKinds) s (settleTold k p (readingNoted k r s))
    ∧ ((settleTold k p (readingNoted k r s)).lever k).settled = some p
    ∧ ((settleTold k p (readingNoted k r s)).lever k).forcedActive = (s.lever k).forcedActive := by
  obtain ⟨noted, own⟩ := reading_noted (r := r) here quiet
  have told : Moves [.note, .evaluate, .inb] (readingNoted k r s) (leverEvent k (noteLever k
      (changeLever k (Lever.settledIn p (readingNoted k r s).now) (readingNoted k r s)))) :=
    (((Moves.refl.to_releverNoted k (Lever.settledIn p (readingNoted k r s).now)).to_evaluateNamingLever
      k).to_linesTakeLever k)
  have consumed (o : Option Nat) (w : State) : Moves [.evaluate] w (o.elim id consumeAllowances w) := by
    cases o with
    | none => exact .refl
    | some line => exact Moves.refl.to_consumeAllowances line
  have taken (w : State) : Moves [.note, .record, .evaluate, .timer, .hold] w
      (holdsTakeSettle k p (when (p == .reverse) (timersTakeReverse k) w)) :=
    (Moves.refl.to_when _ fun _ => Moves.refl.to_timersTakeReverse k).to_holdsTakeSettle k p
  refine ⟨(((noted.mono (by decide)).trans (told.mono (by decide))).trans ((consumed _ _).mono (by decide))).trans
    ((taken _).mono (by decide)), ?_⟩
  have settled := changeLever_own k (Lever.settledIn p (readingNoted k r s).now) (readingNoted_here here r)
  have event : ((leverEvent k (noteLever k
      (changeLever k (Lever.settledIn p (readingNoted k r s).now) (readingNoted k r s)))).lever k).core
      = ((s.lever k).readAs r ((s.lever k).lastReading == some r) |>.settledIn p (readingNoted k r s).now).core := by
    have calm : CalmLevers (changeLever k (Lever.settledIn p (readingNoted k r s).now) (readingNoted k r s)) _ :=
      (calm_of_same rfl : CalmLevers _ (noteLever k _)).trans (calm_leverEvent k _)
    rw [(calm k).core, settled, own]
  have consumes (o : Option Nat) (w : State) : ((o.elim id consumeAllowances w).lever k).settled = (w.lever k).settled
      ∧ ((o.elim id consumeAllowances w).lever k).forcedActive = (w.lever k).forcedActive := by
    cases o with
    | none => exact ⟨rfl, rfl⟩
    | some line =>
      refine ⟨(sees_consumeAllowances line w k).settled, ?_⟩
      refine forEach_keeps (I := fun v => (v.lever k).forcedActive = (w.lever k).forcedActive) _ (fun n _ v same => ?_) w rfl
      refine (calm_evaluate n _ k).forcedActive.trans (Eq.trans ?_ same)
      rw [changeLever_lever]
      split
      · next both => rw [both.1]
      · rfl
  have owners (w : State) : CalmLevers w (holdsTakeSettle k p (when (p == .reverse) (timersTakeReverse k) w)) :=
    (calm_when _ _ (calm_timersTakeReverse k w)).trans (calm_holdsTakeSettle k p _)
  exact ⟨((owners _ k).settled.trans (consumes _ _).1).trans (congrArg (·.settled) event),
    ((owners _ k).forcedActive.trans (consumes _ _).2).trans (congrArg (·.forcedActive) event)⟩

/-- A settle of a lever that is not forced (R39). -/
theorem settle_of_unforced (inactive : (s.lever k).forcedActive = false) (settled : (s.lever k).settled = some p.opposite)
    (arrived : (s.lever k).departed = false) :
    ((s.lever k).seenUnknown = true → (s.lever k).held = none →
        ((takeReading k r s).lever k).forcedActive = true ∧ ((takeReading k r s).lever k).settled = some p
          ∧ (takeReading k r s).faults = (countOccurrence 8 (some k) s).faults)
      ∧ ((s.lever k).seenUnknown = false ∨ (s.lever k).held ≠ none →
        ((takeReading k r s).lever k).forcedActive = false ∧ ((takeReading k r s).lever k).settled = some p
          ∧ (takeReading k r s).faults = s.faults) := by
  obtain ⟨moves, rests, forced⟩ := settleTold_spec (r := r) (p := p) here quiet
  have counts := moves.counts undisputed 8 (some k)
  have forces : settleForcing k p ((s.lever k).readAs r true)
      = when ((s.lever k).seenUnknown && (s.lever k).held.isNone) (beginLeverForced k) := by
    have in_transit : forcesInTransit ((s.lever k).readAs r true) p.reading = false := by
      simp [forcesInTransit, Lever.readAs, arrived]
    unfold settleForcing
    rw [if_neg (by simp [Lever.readAs, inactive]), if_neg (by simp [in_transit])]
    simp [Lever.readAs, settled]
  have still := forced.trans inactive
  rw [settles_reading here quiet pos away again no_transit, forces]
  refine ⟨fun unknown none_held => ?_, fun spared => ?_⟩
  · have long : within k (settleTold k p (readingNoted k r s)).levers.length = true := by
      by_contra outside
      have blank : (settleTold k p (readingNoted k r s)).lever k = {} := nth_outside _ _ _ (by simpa using outside)
      rw [blank] at rests
      cases rests
    obtain ⟨begun, -, same, counted⟩ := forced_begins (moves.undisputed undisputed) long still
    rw [unknown, none_held]
    exact ⟨begun, same.trans rests, counted.trans counts.2⟩
  · have off : ((s.lever k).seenUnknown && (s.lever k).held.isNone) = false := by
      rcases spared with h | h
      · simp [h]
      · rw [Option.isNone_eq_false_iff.2 (Option.isSome_iff_ne_none.2 h), Bool.and_false]
    rw [off]
    exact ⟨still, rests, counts.1⟩

/-- A settle of a forced lever ends the cause, and its record goes LATCHED (R39). -/
theorem settle_of_forced (active : (s.lever k).forcedActive = true) :
    ((takeReading k r s).lever k).forcedActive = false ∧ ((takeReading k r s).lever k).settled = some p
      ∧ (takeReading k r s).faults.find 8 (some k) = (s.faults.find 8 (some k)).map FaultRecord.latched := by
  obtain ⟨moves, rests, -⟩ := settleTold_spec (r := r) (p := p) here quiet
  have faults := (moves.counts undisputed 8 (some k)).1
  have forces : settleForcing k p ((s.lever k).readAs r true)
      = fun s => latchRecord 8 (some k) (s.modLever k Lever.unforced) := if_pos active
  have long : within k (settleTold k p (readingNoted k r s)).levers.length = true := by
    by_contra outside
    have blank : (settleTold k p (readingNoted k r s)).lever k = {} := nth_outside _ _ _ (by simpa using outside)
    rw [blank] at rests
    cases rests
  have own := State.lever_modLever_same (settleTold k p (readingNoted k r s)) k Lever.unforced long
  have calm : CalmLevers ((settleTold k p (readingNoted k r s)).modLever k Lever.unforced) _ :=
    calm_of_same (latchRecord_levers 8 (some k) ((settleTold k p (readingNoted k r s)).modLever k Lever.unforced))
  rw [settles_reading here quiet pos away again no_transit, forces]
  refine ⟨(calm k).forcedActive.trans (congrArg (·.forcedActive) own),
    (calm k).settled.trans ((congrArg (·.settled) own).trans rests), ?_⟩
  rw [latchRecord_find]
  exact congrArg (fun f : Faults => (f.find 8 (some k)).map FaultRecord.latched) faults

end
end

/-- Settles O34: releases taken at departures, allowances, and forced levers. -/
theorem releasesAndAllowancesAreTakenAndWithdrawn : Obligations.ReleasesAndAllowancesAreTakenAndWithdrawn := by
  unfold Obligations.ReleasesAndAllowancesAreTakenAndWithdrawn
  refine ⟨fun s k r _ _ undisputed inside length configured => ?_, fun s line k inside length => ?_⟩
  · rintro rfl rest rfl
    exact departure_clauses (here_of_within 64 inside length) configured rest
  · obtain ⟨granted, granted_held, consumed, consumed_held, withdrawn, withdrawn_held⟩ := allowance_clauses (line := line)
      inside length
    refine ⟨granted, granted_held, consumed, consumed_held, withdrawn, withdrawn_held, ?_, ?_⟩
    · rintro s _ line k j _ _ - inside length rfl rfl signal on rfl
      exact settle_allowance inside length signal on
    · rintro s _ k r p _ _ undisputed inside length rfl quiet pos rfl rfl
      have here := here_of_within 64 inside length
      exact ⟨fun inactive settled => ⟨forced_at_departure undisputed here quiet pos inactive settled,
          forced_in_transit undisputed here quiet pos inactive settled,
          fun away again arrived no_transit =>
            settle_of_unforced undisputed here quiet pos away again no_transit inactive settled arrived⟩,
        fun active away again no_transit => settle_of_forced undisputed here quiet pos away again no_transit active⟩

end Sys2Proof.Machine
end

section
/-! Answers of instrument boards (R31, R38, R42 to R44): what they leave of the instruments, and of the rest. -/

set_option Elab.async false

namespace Sys2Proof.Machine

variable {s u v w : State} {c d j k n b : Nat} {i : Instrument} {p : CommPos} {r : CommReading} {now : Time}
  {g : Instrument → Instrument} {f : Finding} {first closed : Bool}

/-! ### What an instrument's contacts have told -/

/-- An instrument but for its confinement and the findings of its coils. -/
def Instrument.contacts (i : Instrument) : Instrument :=
  { i with confinement := [], k1StuckOn := false, k2StuckOn := false, k1StuckOff := false, k2StuckOff := false,
           stuckOnActive := false, stuckOffActive := false }

/-- Of the instruments the second state differs in one alone, whose contacts have told what a given record holds. -/
structure Tells (k : Nat) (s u : State) (i : Instrument) : Prop where
  own : (u.instrument k).contacts = i.contacts
  others : ∀ j, j ≠ k → u.instrument j = s.instrument j
  here : within k u.instruments.length = true

theorem Tells.refl (here : within k s.instruments.length = true) : Tells k s s (s.instrument k) := ⟨rfl, fun _ _ => rfl, here⟩

theorem Tells.same (h : Tells k s u i) (same : v.instruments = u.instruments) : Tells k s v i := by
  obtain ⟨own, others, here⟩ := h
  rw [State.instrument, ← same] at own
  exact ⟨own, fun j other => (congrArg (fun l : List Instrument => nth l {} j) same).trans (others j other), by rwa [same]⟩

/-- A change of the instrument's record. -/
theorem Tells.change (h : Tells k s u i) (changed : v.instruments = modAt u.instruments {} k g) {j : Instrument}
    (told : (g (u.instrument k)).contacts = j.contacts) : Tells k s v j := by
  refine ⟨?_, fun n other => ?_, by rw [changed, length_modAt]; exact h.here⟩
  · rw [State.instrument, changed, nth_modAt, if_pos ⟨rfl, h.here⟩]
    exact told
  · rw [State.instrument, changed, nth_modAt, if_neg fun own => other own.1]
    exact h.others n other

/-- The records of the instruments after a cause of a commutator has begun. -/
theorem raise_commutator_instruments (own : OfCommutator c) (k : Nat) (s : State) :
    ∃ g, (raise c (some k) s).instruments = modAt s.instruments {} k g ∧ ∀ i, (g i).contacts = i.contacts := by
  have later : (raise c (some k) s).instruments = (confineOccurrence c (some k) s).instruments :=
    (moves_after_confinement (by simp [linkTaken, own.no_link])).exactly .instruments
  have noted : (noteOccurrence c (some k) s).instruments = s.instruments :=
    (leaves_noteOccurrence c (some k) s).2.2.2 .instruments (by decide)
  rw [later]
  simp only [confineOccurrence]
  cases (occurrence s c (some k)).reaction != .report with
  | false => exact ⟨id, noted.trans (modAt_self s.instruments {} k id rfl).symm, fun _ => rfl⟩
  | true =>
    have confined : (noteFault (occurrence s c (some k)).source (confineCommutator (occurrence s c (some k)).source k
        (noteOccurrence c (some k) s))).instruments = modAt s.instruments {} k
          (fun i => { i with confinement := addSource (occurrence s c (some k)).source i.confinement }) :=
      (confineCommutator_instruments _ k _).trans (congrArg (modAt · {} k _) noted)
    refine ⟨fun i => { i with confinement := addSource (occurrence s c (some k)).source i.confinement }, ?_, fun _ => rfl⟩
    rw [when_true, confine_commutator own]
    exact confined

theorem Tells.raised (h : Tells k s u i) (own : OfCommutator c) : Tells k s (raise c (some k) u) i := by
  obtain ⟨g, changed, same⟩ := raise_commutator_instruments own k u
  exact h.change changed ((same _).trans h.own)

theorem Tells.when (h : Tells k s u i) (b : Bool) (f : State → State) (each : Tells k s (f u) i) :
    Tells k s (Machine.when b f u) i := by
  cases b with
  | false => exact h
  | true => exact each

theorem Tells.latched (h : Tells k s u i) (c : Nat) (subject : Option Nat) : Tells k s (latchRecord c subject u) i :=
  h.same ((leaves_latchRecord c subject u).2.2.2 .instruments (by decide))

/-! ### Readings of a commutator (R42, R43) -/

/-- The record as a reading is noted. -/
def Instrument.readAs (r : CommReading) (now : Time) (i : Instrument) : Instrument :=
  { i with lastReading := some r, began := if i.lastReading = some r then i.began else now }

def Instrument.multiple (i : Instrument) : Instrument := { i with current := .unknown, contactActive := true }
def Instrument.moving (i : Instrument) : Instrument := { i with current := .moving }
def Instrument.restsAt (p : CommPos) (i : Instrument) : Instrument :=
  { i with settled := some p, current := .rest p, contactActive := false }

/-- A reading noted. -/
def commNoted (k : Nat) (r : CommReading) (s : State) : State := s.modInstrument k (Instrument.readAs r s.now)

theorem tells_commNoted (here : within k s.instruments.length = true) :
    Tells k s (commNoted k r s) ((s.instrument k).readAs r s.now) := (Tells.refl here).change rfl rfl

theorem commNoted_instrument (here : within k s.instruments.length = true) :
    (commNoted k r s).instrument k = (s.instrument k).readAs r s.now := State.instrument_modInstrument_same s k _ here

theorem Tells.multiple (h : Tells k s u i) : Tells k s (commMultiple k u) i.multiple := by
  have lost : Tells k s ((commUnknown k u).modInstrument k fun i => { i with contactActive := true }) i.multiple := by
    refine h.change (g := Instrument.multiple) ?_ (congrArg Instrument.multiple h.own)
    rw [State.modInstrument_instruments, commUnknown_instruments, modAt_modAt]
    rfl
  exact lost.when _ _ (lost.raised (by decide))

theorem takeDeparture_instruments (k : Nat) (s : State) : (takeDeparture k s).instruments = s.instruments := by
  rw [takeDeparture_eq]
  exact ((moves_changeInb k Inbound.departed s).to_evalCoils k).exactly .instruments

theorem Tells.departs (h : Tells k s u i) : Tells k s (commDeparts k u) i.moving := by
  have left : Tells k s (u.modInstrument k Instrument.moving) i.moving :=
    h.change (g := Instrument.moving) rfl (congrArg Instrument.moving h.own)
  exact left.when _ _ (left.same (takeDeparture_instruments k _))

theorem Tells.settles (h : Tells k s u i) (p : CommPos) : Tells k s (commSettles k p u) (i.restsAt p) := by
  have settled : Tells k s (u.modInstrument k (Instrument.restsAt p)) (i.restsAt p) :=
    h.change (g := Instrument.restsAt p) rfl (congrArg (Instrument.restsAt p) h.own)
  have latched := settled.when (u.instrument k).contactActive (latchRecord 14 (some k)) (settled.latched 14 (some k))
  exact latched.when _ _ (latched.same (takeSettle_instruments k p _))

/-- What a reading makes of its instrument, but for the record of the reading itself (R42, R43). -/
def Instrument.judged (r : CommReading) (now : Time) (i : Instrument) : Instrument :=
  match r, i.current with
  | .multiple, _ => i.multiple
  | .gap, _ => i.moving
  | .pos p, .rest q => if p = q then i else i.moving
  | .pos p, _ => if i.began + 300 ≤ now then i.restsAt p else i

/-- What a reading does once it has been noted, its instrument's record being given (R42, R43). -/
def commJudged (k : Nat) (r : CommReading) (i : Instrument) (s : State) : State :=
  match r, i.current with
  | .multiple, _ => commMultiple k s
  | .gap, .rest _ => commDeparts k s
  | .gap, .moving => s
  | .gap, .unknown => evalCoils k (s.modInstrument k Instrument.moving)
  | .pos p, .rest q => if p = q then s else commDeparts k s
  | .pos p, _ => if i.began + 300 ≤ s.now then commSettles k p s else s

theorem takeCommReading_eq (k : Nat) (r : CommReading) (s : State) :
    takeCommReading k r s = commJudged k r ((commNoted k r s).instrument k) (commNoted k r s) := rfl

theorem Tells.judged (h : Tells k s u i) (r : CommReading) :
    Tells k s (commJudged k r i u) (i.judged r u.now) := by
  have settles (p : CommPos) : Tells k s (if i.began + 300 ≤ u.now then commSettles k p u else u)
      (if i.began + 300 ≤ u.now then i.restsAt p else i) := by
    split
    · exact h.settles p
    · exact h
  cases current : i.current with
  | rest q =>
    cases r with
    | multiple => exact h.multiple
    | gap =>
      simp only [commJudged, Instrument.judged, current]
      exact h.departs
    | pos p =>
      simp only [commJudged, Instrument.judged, current]
      split
      · exact h
      · exact h.departs
  | moving =>
    cases r with
    | multiple => exact h.multiple
    | gap =>
      have still : i.moving = i := (congrArg (fun c => { i with current := c }) current.symm).trans rfl
      simp only [commJudged, Instrument.judged, current, still]
      exact h
    | pos p =>
      simp only [commJudged, Instrument.judged, current]
      exact settles p
  | unknown =>
    cases r with
    | multiple => exact h.multiple
    | gap =>
      have moves : Tells k s (u.modInstrument k Instrument.moving) i.moving :=
        h.change (g := Instrument.moving) rfl (congrArg Instrument.moving h.own)
      simp only [commJudged, Instrument.judged, current]
      exact moves.same ((moves_evalCoils k _).exactly .instruments)
    | pos p =>
      simp only [commJudged, Instrument.judged, current]
      exact settles p

theorem tells_takeCommReading (here : within k s.instruments.length = true) (r : CommReading) :
    Tells k s (takeCommReading k r s) (((s.instrument k).readAs r s.now).judged r s.now) := by
  rw [takeCommReading_eq, commNoted_instrument here]
  exact (tells_commNoted here).judged r

/-! ### Plungers (R44) -/

/-- The plunger after an answer (R44). -/
def Plunger.after (now : Time) (closed : Bool) (p : Plunger) : Plunger :=
  match p, closed with
  | .arming, false => .released
  | .released, true => .closed now
  | .closed _, false => .released
  | p, _ => p

def Instrument.plunged (p : Plunger) (i : Instrument) : Instrument := { i with plunger := p }

/-- What a plunger's reading does once its record has been changed (R98). -/
theorem takePlunger_eq (k : Nat) (closed : Bool) (s : State) :
    ∃ f : State → State, (∀ w, Moves sentKinds w (f w))
      ∧ takePlunger k closed s
        = f (s.modInstrument k (Instrument.plunged (((s.instrument k).plunger).after s.now closed))) := by
  have kept (same : takePlunger k closed s = s)
      (stays : ((s.instrument k).plunger).after s.now closed = (s.instrument k).plunger) :
      ∃ f : State → State, (∀ w, Moves sentKinds w (f w)) ∧ takePlunger k closed s
        = f (s.modInstrument k (Instrument.plunged (((s.instrument k).plunger).after s.now closed))) := by
    have self : s.modInstrument k (Instrument.plunged (s.instrument k).plunger) = s :=
      congrArg (fun l => { s with instruments := l }) (modAt_self s.instruments {} k _ rfl)
    exact ⟨id, fun _ => .refl, by rw [same, stays, self]; rfl⟩
  cases plunger : (s.instrument k).plunger with
  | arming =>
    cases closed with
    | false => exact ⟨id, fun _ => .refl, by simp only [takePlunger, plunger]; rfl⟩
    | true => exact plunger ▸ kept (by simp only [takePlunger, plunger]) (by simp only [plunger]; rfl)
  | released =>
    cases closed with
    | false => exact plunger ▸ kept (by simp only [takePlunger, plunger]) (by simp only [plunger]; rfl)
    | true => exact ⟨strokeStart k, fun _ => Moves.refl.to_strokeStart k, by simp only [takePlunger, plunger]; rfl⟩
  | closed start =>
    cases closed with
    | false => exact ⟨strokeEnd k start false, fun _ => Moves.refl.to_strokeEnd k _ _, by simp only [takePlunger, plunger]; rfl⟩
    | true => exact plunger ▸ kept (by simp only [takePlunger, plunger]) (by simp only [plunger]; rfl)

theorem Tells.plunged (h : Tells k s u i) (closed : Bool) :
    Tells k s (takePlunger k closed u) (i.plunged ((i.plunger).after u.now closed)) := by
  obtain ⟨f, moves, eq⟩ := takePlunger_eq k closed u
  have plunger : (u.instrument k).plunger = i.plunger := congrArg (·.plunger) h.own
  have changed : Tells k s (u.modInstrument k (Instrument.plunged (((u.instrument k).plunger).after u.now closed)))
      (i.plunged ((i.plunger).after u.now closed)) := by
    refine h.change rfl ?_
    rw [plunger]
    exact congrArg (Instrument.plunged _) h.own
  rw [eq]
  exact changed.same ((moves _).exactly .instruments)

/-! ### Findings of a coil (R38) -/

def Instrument.findings (on off : Bool) (i : Instrument) : Instrument := { i with stuckOnActive := on, stuckOffActive := off }

theorem Instrument.find_contacts (i : Instrument) (first : Bool) (f : Finding) : (i.find first f).contacts = i.contacts := by
  cases first <;> cases f <;> rfl

/-- What a finding has stood for, once it has been noted (R38). -/
def coilJudged (k : Nat) (i : Instrument) (s : State) : State :=
  s.modInstrument k (Instrument.findings (i.k1StuckOn || i.k2StuckOn) (i.k1StuckOff || i.k2StuckOff))
    |> when ((i.k1StuckOn || i.k2StuckOn) && !i.stuckOnActive) (raise 11 (some k))
    |> when (!(i.k1StuckOn || i.k2StuckOn) && i.stuckOnActive) (latchRecord 11 (some k))
    |> when ((i.k1StuckOff || i.k2StuckOff) && !i.stuckOffActive) (raise 13 (some k))
    |> when (!(i.k1StuckOff || i.k2StuckOff) && i.stuckOffActive) (latchRecord 13 (some k))

theorem coilFinding_eq (k : Nat) (first : Bool) (f : Finding) (s : State) :
    coilFinding k first f s = coilJudged k ((s.modInstrument k fun i => i.find first f).instrument k)
      (s.modInstrument k fun i => i.find first f) := rfl

theorem Tells.found (h : Tells k s u i) (first : Bool) (f : Finding) : Tells k s (coilFinding k first f u) i := by
  have noted : Tells k s (u.modInstrument k fun i => i.find first f) i :=
    h.change (g := fun i => i.find first f) rfl ((Instrument.find_contacts _ _ _).trans h.own)
  have judged (a : Instrument) : Tells k s (coilJudged k a (u.modInstrument k fun i => i.find first f)) i := by
    have stands : Tells k s ((u.modInstrument k fun i => i.find first f).modInstrument k
        (Instrument.findings (a.k1StuckOn || a.k2StuckOn) (a.k1StuckOff || a.k2StuckOff))) i := noted.change rfl noted.own
    have on := stands.when ((a.k1StuckOn || a.k2StuckOn) && !a.stuckOnActive) _ (stands.raised (c := 11) (by decide))
    have on := on.when (!(a.k1StuckOn || a.k2StuckOn) && a.stuckOnActive) _ (on.latched 11 (some k))
    have off := on.when ((a.k1StuckOff || a.k2StuckOff) && !a.stuckOffActive) _ (on.raised (c := 13) (by decide))
    exact off.when _ _ (off.latched 13 (some k))
  rw [coilFinding_eq]
  exact judged _

/-- A read-back of a coil of a commutator, if it is judged (R38). -/
def coilRead (k : Nat) (first : Bool) (command : Option Bool) (current : Bool) (s : State) : State :=
  command.elim s fun on => coilFinding k first (findingOf on current) s

theorem Tells.coilRead (h : Tells k s u i) (first : Bool) (command : Option Bool) (current : Bool) :
    Tells k s (coilRead k first command current u) i := by
  cases command with
  | none => exact h
  | some on => exact h.found first _

theorem takeAnswer_instrument (k : Nat) (plunger c bb o k1 k2 : Bool) (s : State) :
    takeAnswer (8 + k) (.instrument plunger c bb o k1 k2) s
      = coilRead k false (judgedCommand (s.board (8 + k)) 1) k2 (coilRead k true (judgedCommand (s.board (8 + k)) 0) k1
        (takePlunger k plunger (takeCommReading k (commReadingOf c bb o) s))) := by
  have board : 8 + k - 8 = k := by omega
  simp only [takeAnswer, board, coilRead]
  cases judgedCommand (s.board (8 + k)) 0 <;> cases judgedCommand (s.board (8 + k)) 1 <;> rfl

end Sys2Proof.Machine
end

section
/-! What answers leave alone, and that they bring back no record of BOARD_MISSING (R31, R32). -/

set_option Elab.async false

namespace Sys2Proof.Machine

variable {s u v w : State} {c d i j k n b : Nat} {p : Pos} {y : CommPos} {r : Reading} {x : SlotReading} {xs : List SlotReading}
  {ks : List Kind} {f : Finding} {a : Answer}

/-! ### What the answer of an instrument board leaves alone -/

/-- The parts that the answer of an instrument board can touch. -/
abbrev instrumentParts : List Part :=
  [.store, .transmitter, .boards, .levers, .instruments, .faults, .register, .mode, .bells, .inbound, .outbound, .links]

theorem leaves_raise_commutator (own : OfCommutator c) (k : Nat) (s : State) :
    Leaves instrumentParts s (raise c (some k) s) :=
  leaves_raise own.no_link (moves_confine_commutator own) (by decide) (by decide) (by decide) s

theorem leaves_latch (c : Nat) (subject : Option Nat) (s : State) : Leaves instrumentParts s (latchRecord c subject s) :=
  (leaves_latchRecord c subject s).mono (by decide)

theorem leaves_takeSettle (k : Nat) (y : CommPos) (s : State) : Leaves instrumentParts s (takeSettle k y s) := by
  have coils (w : State) : Leaves instrumentParts w (evalCoils k w) := (moves_evalCoils k w).leaves
  have handled : Leaves instrumentParts s (s.modInb k (Inbound.handled y)) :=
    (Moves.refl.to_modInb (ks := [.inb]) k (Inbound.handled y)).leaves
  have moves : Leaves instrumentParts s (evalCoils k (setInbound k y.line (s.modInb k (Inbound.handled y)))) :=
    (handled.trans (moves_setInbound k _ _).leaves).trans (coils _)
  cases state : (s.inb k).state with
  | none =>
    rw [takeSettle_first state]
    exact moves
  | some st =>
    cases judged : judge ((s.inb k).handle.getD y) y st.handle (s.inb k).permission with
    | noMove =>
      rw [takeSettle_noMove state judged]
      exact handled.trans (coils _)
    | restored =>
      rw [takeSettle_restored state judged]
      exact (handled.trans ((Moves.refl (ks := [.note, .inb, .faults])).to_endForced k).leaves).trans (coils _)
    | permitted =>
      rw [takeSettle_permitted state judged]
      exact moves
    | forced =>
      rw [takeSettle_forced state judged]
      refine (handled.trans ?_).trans (coils _)
      unfold beginForced
      split
      · exact .refl ..
      · exact ((Moves.refl.to_modInb (ks := [.inb]) k Inbound.forced).leaves).trans
          (leaves_raise (by decide) (fun as w => Moves.refl.to_confineForced (ks := [.note, .inb]) as k) (by decide)
            (by decide) (by decide) _)

theorem leaves_commMultiple (k : Nat) (s : State) : Leaves instrumentParts s (commMultiple k s) := by
  have lost : Moves [.note, .inb, .instrument] s
      ((commUnknown k s).modInstrument k fun i => { i with contactActive := true }) :=
    (Moves.refl.to_commUnknown k).to_modInstrument k _
  exact lost.leaves.trans (leaves_when _ _ (leaves_raise_commutator (by decide) k _))

theorem moves_commDeparts (k : Nat) (s : State) : Moves [.note, .inb, .instrument] s (commDeparts k s) :=
  Moves.refl.to_commDeparts k

theorem leaves_commSettles (k : Nat) (y : CommPos) (s : State) : Leaves instrumentParts s (commSettles k y s) :=
  (((Moves.refl.to_modInstrument (ks := [.instrument]) k (Instrument.restsAt y)).leaves).trans
    (leaves_when _ _ (leaves_latch 14 (some k) _))).trans (leaves_when _ _ (leaves_takeSettle k y _))

theorem leaves_takeCommReading (k : Nat) (r : CommReading) (s : State) :
    Leaves instrumentParts s (takeCommReading k r s) := by
  have noted : Leaves instrumentParts s (commNoted k r s) :=
    (Moves.refl.to_modInstrument (ks := [.instrument]) k (Instrument.readAs r s.now)).leaves
  rw [takeCommReading_eq]
  refine noted.trans ?_
  unfold commJudged
  split
  · exact leaves_commMultiple k _
  · exact (moves_commDeparts k _).leaves
  · exact .refl ..
  · exact (((Moves.refl (ks := [.instrument, .note, .inb])).to_modInstrument k Instrument.moving).to_evalCoils k).leaves
  · split
    · exact .refl ..
    · exact (moves_commDeparts k _).leaves
  · split
    · exact leaves_commSettles ..
    · exact .refl ..

theorem leaves_coilRead (k : Nat) (first : Bool) (command : Option Bool) (current : Bool) (s : State) :
    Leaves instrumentParts s (coilRead k first command current s) := by
  have marked (g : Instrument → Instrument) (w : State) : Leaves instrumentParts w (w.modInstrument k g) :=
    (Moves.refl.to_modInstrument (ks := [.instrument]) k g).leaves
  cases command with
  | none => exact .refl ..
  | some on =>
    exact ((((((marked _ s).trans (marked _ _)).trans (leaves_when _ _ (leaves_raise_commutator (by decide) k _))).trans
      (leaves_when _ _ (leaves_latch 11 (some k) _))).trans (leaves_when _ _ (leaves_raise_commutator (by decide) k _))).trans
      (leaves_when _ _ (leaves_latch 13 (some k) _)))

theorem moves_takePlunger (k : Nat) (closed : Bool) (s : State) : Moves (.instrument :: sentKinds) s (takePlunger k closed s) :=
  Moves.refl.to_takePlunger k closed

theorem leaves_takeAnswer_instrument (k : Nat) (plunger c bb o k1 k2 : Bool) (s : State) :
    Leaves instrumentParts s (takeAnswer (8 + k) (.instrument plunger c bb o k1 k2) s) := by
  rw [takeAnswer_instrument]
  exact (((leaves_takeCommReading k _ s).trans (moves_takePlunger k plunger _).leaves).trans (leaves_coilRead ..)).trans
    (leaves_coilRead ..)

/-! ### No answer brings back a record of BOARD_MISSING -/

/-- No record of BOARD_MISSING is held for a board, and no disagreement is to be reported. -/
structure State.Lacks (b : Nat) (s : State) : Prop where
  undisputed : s.Undisputed
  absent : s.faults.find 6 (some b) = none

theorem State.Lacks.moved (h : s.Lacks b) (moves : Moves ks s u) (away : .faults ∉ ks := by decide) : u.Lacks b :=
  ⟨moves.undisputed h.undisputed, (congrArg (Faults.find · 6 (some b)) (moves.faults_kept h.undisputed away)).trans h.absent⟩

theorem State.Lacks.when (h : s.Lacks b) (o : Bool) (g : State → State) (each : (g s).Lacks b) :
    (Machine.when o g s).Lacks b := by
  cases o with
  | false => exact h
  | true => exact each

theorem State.Lacks.latched (h : s.Lacks b) (c : Nat) (subject : Option Nat) : (latchRecord c subject s).Lacks b :=
  ⟨(Moves.refl.to_latchRecord (ks := [.note, .faults]) c subject).undisputed h.undisputed, latchRecord_absent h.absent⟩

theorem State.Lacks.counted (h : s.Lacks b) (other : c ≠ 6) (subject : Option Nat)
    (faults : (raise c subject s).faults = (countOccurrence c subject s).faults) : (raise c subject s).Lacks b := by
  refine ⟨(Moves.refl.to_raise (ks := raiseKinds) c subject).undisputed h.undisputed, ?_⟩
  rw [faults, countOccurrence_find_other (by simp [other.symm]), h.absent]

theorem State.Lacks.raised_lever (h : s.Lacks b) (own : OfLever c) (k : Nat) : (raise c (some k) s).Lacks b :=
  h.counted (by omega) _ (raise_lever_faults own h.undisputed)

theorem State.Lacks.raised_commutator (h : s.Lacks b) (own : OfCommutator c) (k : Nat) : (raise c (some k) s).Lacks b :=
  h.counted (by omega) _ (raise_commutator_faults own h.undisputed)

theorem State.Lacks.forced (h : s.Lacks b) (k : Nat) : (beginLeverForced k s).Lacks b := by
  unfold beginLeverForced
  split
  · exact h
  · exact (h.moved (Moves.refl.to_modLever (ks := [.lever]) k Lever.forced)).raised_lever (by decide) k

theorem State.Lacks.forcing (h : s.Lacks b) (k : Nat) (p : Pos) (l : Lever) : (settleForcing k p l s).Lacks b := by
  unfold settleForcing
  split
  · exact (h.moved (Moves.refl.to_modLever (ks := [.lever]) k Lever.unforced)).latched 8 (some k)
  · split
    · exact (h.raised_lever (by decide) k).latched 8 (some k)
    · exact h.when _ _ (h.forced k)

theorem State.Lacks.endTransit (h : s.Lacks b) (k : Nat) :
    (endCause 9 (some k) (s.modLever k Lever.transitEnded)).Lacks b := by
  have h := h.moved (Moves.refl.to_modLever (ks := [.lever]) k Lever.transitEnded)
  unfold endCause
  split
  · split
    · exact h
    · next r _ =>
      have cleared : (clearRecord r false (s.modLever k Lever.transitEnded)).Lacks b :=
        ⟨h.undisputed, remove_absent h.absent⟩
      exact cleared.moved ((Moves.refl.to_unconfineLever (ks := [.note, .lever, .evaluate]) 9 k).to_noteFault 9)
  · exact h.latched 9 (some k)

theorem State.Lacks.settled (h : s.Lacks b) (k : Nat) (p : Pos) : (leverSettles k p s).Lacks b := by
  rw [leverSettles_eq]
  have told : (settleTold k p s).Lacks b := by
    have event : Moves [.note, .evaluate, .inb] s (leverEvent k (noteLever k (changeLever k (Lever.settledIn p s.now) s))) :=
      ((Moves.refl.to_releverNoted k (Lever.settledIn p s.now)).to_evaluateNamingLever k).to_linesTakeLever k
    have consumed (o : Option Nat) (w : State) : Moves [.evaluate] w (o.elim id consumeAllowances w) := by
      cases o with
      | none => exact .refl
      | some line => exact Moves.refl.to_consumeAllowances line
    have taken (w : State) : Moves [.note, .record, .evaluate, .timer, .hold] w
        (holdsTakeSettle k p (Machine.when (p == .reverse) (timersTakeReverse k) w)) :=
      (Moves.refl.to_when _ fun _ => Moves.refl.to_timersTakeReverse k).to_holdsTakeSettle k p
    exact ((h.moved event).moved (consumed _ _)).moved (taken _)
  exact ((told.when _ _ (told.endTransit k)).forcing ..)

theorem State.Lacks.noted (h : s.Lacks b) (k : Nat) (r : Reading) : (readingNoted k r s).Lacks b := by
  have read := h.moved (Moves.refl.to_modLever (ks := [.lever]) k (Lever.readAs r ((s.lever k).lastReading == some r)))
  rw [readingNoted]
  simp only [contactRecovers]
  split
  · exact read
  · split
    · exact read.moved (Moves.refl.to_modLever (ks := [.lever]) k _)
    · exact (read.moved (Moves.refl.to_modLever (ks := [.lever]) k _)).latched 7 (some k)

theorem State.Lacks.departed (h : s.Lacks b) (k : Nat) (r : Reading) : (leverDeparts k r s).Lacks b :=
  h.moved (Moves.refl.to_leverDeparts (ks := leverKinds) k r)

theorem State.Lacks.read (h : s.Lacks b) (k : Nat) (r : Reading) : (takeReading k r s).Lacks b := by
  have noted := h.noted k r
  rcases r.pos_cases with rfl | rfl | ⟨p, pos⟩
  · have lost : Moves [.note, .lever, .evaluate, .inb] s ((leverUnknown k (s.modLever k
        (Lever.readAs .both ((s.lever k).lastReading == some .both)))).modLever k Lever.multiple) :=
      ((Moves.refl.to_modLever k (Lever.readAs .both _)).to_leverUnknown k).to_modLever k Lever.multiple
    exact (h.moved lost).when _ _ ((h.moved lost).raised_lever (by decide) k)
  · rw [takeReading_moving]
    split
    · exact noted.departed ..
    · exact noted.moved (Moves.refl.to_leverMoving (ks := .lever :: leverKinds) k)
  · rw [takeReading_pos pos]
    split
    · split
      · exact noted
      · exact (noted.departed ..).when _ _ ((noted.departed ..).forced k)
    · split
      · exact noted.settled ..
      · exact noted.when _ _ (noted.forced k)

theorem State.Lacks.found (h : s.Lacks b) (k : Nat) (f : Finding) : (leverFinding k f s).Lacks b := by
  cases f with
  | stuckOn =>
    simp only [leverFinding]
    split
    · exact h
    · exact (h.moved (Moves.refl.to_modLever (ks := [.lever]) k _)).raised_lever (by decide) k
  | stuckOff =>
    simp only [leverFinding]
    split
    · exact h
    · exact (h.moved (Moves.refl.to_modLever (ks := [.lever]) k _)).raised_lever (by decide) k
  | agreement =>
    have ended : (s.modLever k fun l => { l with stuckOnActive := false, stuckOffActive := false }).Lacks b :=
      h.moved (Moves.refl.to_modLever (ks := [.lever]) k _)
    have first := ended.when (s.lever k).stuckOnActive _ (ended.latched 10 (some k))
    exact first.when _ _ (first.latched 12 (some k))

theorem State.Lacks.slots (h : s.Lacks b) (n i : Nat) (xs : List SlotReading) : (takeSlots n i xs s).Lacks b := by
  induction xs generalizing i s with
  | nil => exact h
  | cons x xs ih =>
    refine ih ?_ _
    cases mapped : leverOfSlot s (8 * n - 7 + i) with
    | none =>
      rw [takeSlot_of_unmapped mapped]
      exact h
    | some k =>
      obtain ⟨command, taken⟩ := takeSlot_of_mapped (x := x) mapped
      rw [taken]
      cases command with
      | none => exact h.read ..
      | some on => exact (h.read ..).found ..

theorem State.Lacks.commJudged (h : s.Lacks b) (k : Nat) (r : CommReading) (i : Instrument) :
    (commJudged k r i s).Lacks b := by
  have departed := h.moved (moves_commDeparts k _)
  unfold Machine.commJudged
  split
  · have lost : Moves [.note, .inb, .instrument] s ((commUnknown k s).modInstrument k fun i => { i with contactActive := true }) :=
      (Moves.refl.to_commUnknown k).to_modInstrument k _
    exact (h.moved lost).when _ _ ((h.moved lost).raised_commutator (by decide) k)
  · exact departed
  · exact h
  · exact h.moved (((Moves.refl (ks := [.instrument, .note, .inb])).to_modInstrument k Instrument.moving).to_evalCoils k)
  · split
    · exact h
    · exact departed
  · next y _ =>
    split
    · have rests : (s.modInstrument k (Instrument.restsAt y)).Lacks b :=
        h.moved (Moves.refl.to_modInstrument (ks := [.instrument]) k _)
      have latched := rests.when (s.instrument k).contactActive _ (rests.latched 14 (some k))
      exact latched.when _ _ ⟨(Moves.refl.to_takeSettle (ks := raiseKinds) k y).undisputed latched.undisputed,
        takeSettle_absent latched.undisputed (by decide) latched.absent⟩
    · exact h

theorem State.Lacks.commRead (h : s.Lacks b) (k : Nat) (r : CommReading) : (takeCommReading k r s).Lacks b := by
  have noted : (commNoted k r s).Lacks b := h.moved (Moves.refl.to_modInstrument (ks := [.instrument]) k _)
  rw [takeCommReading_eq]
  exact noted.commJudged ..

theorem State.Lacks.coilRead (h : s.Lacks b) (k : Nat) (first : Bool) (command : Option Bool) (current : Bool) :
    (coilRead k first command current s).Lacks b := by
  cases command with
  | none => exact h
  | some on =>
    have judged (i : Instrument) (w : State) (h : w.Lacks b) : (coilJudged k i w).Lacks b := by
      have stands : (w.modInstrument k
          (Instrument.findings (i.k1StuckOn || i.k2StuckOn) (i.k1StuckOff || i.k2StuckOff))).Lacks b :=
        h.moved (Moves.refl.to_modInstrument (ks := [.instrument]) k _)
      have on := stands.when ((i.k1StuckOn || i.k2StuckOn) && !i.stuckOnActive) _
        (stands.raised_commutator (c := 11) (by decide) k)
      have on := on.when (!(i.k1StuckOn || i.k2StuckOn) && i.stuckOnActive) _ (on.latched 11 (some k))
      have off := on.when ((i.k1StuckOff || i.k2StuckOff) && !i.stuckOffActive) _
        (on.raised_commutator (c := 13) (by decide) k)
      exact off.when _ _ (off.latched 13 (some k))
    exact judged _ _ (h.moved (Moves.refl.to_modInstrument (ks := [.instrument]) k _))

/-- No answer of a board begins BOARD_MISSING (R32). -/
theorem State.Lacks.answered (h : s.Lacks b) (fits : answerFits n a = true) : (takeAnswer n a s).Lacks b := by
  cases a with
  | lever slots => exact h.slots ..
  | instrument plunger c bb o k1 k2 =>
    obtain ⟨k, rfl⟩ : ∃ k, n = 8 + k := ⟨n - 8, by simp [answerFits] at fits; omega⟩
    rw [takeAnswer_instrument]
    exact ((((h.commRead ..).moved (moves_takePlunger k plunger _)).coilRead ..).coilRead ..)

end Sys2Proof.Machine
end

section
/-! O31: a good answer of a PRESENT instrument board, and the judged read-backs (R38, R42 to R44). -/

set_option Elab.async false

namespace Sys2Proof.Machine

variable {s u v w : State} {c d j k n b : Nat} {i : Instrument} {p : CommPos} {r : CommReading} {now : Time} {t : Time}
  {o : List Bool} {f : Finding} {first : Bool}

/-! ### What a reading makes of its instrument -/

/-- What a reading, taken at a time, makes of its instrument (R42, R43), as the clauses of O31 list it. -/
structure Instrument.Took (now : Time) (r : CommReading) (i j : Instrument) : Prop where
  reading : j.lastReading = some r
  multiple : r = .multiple → j.current = .unknown ∧ j.settled = i.settled ∧ j.contactActive = true
  gap : r = .gap → j.current = .moving ∧ j.settled = i.settled
  stays : ∀ p, r = .pos p → i.current = .rest p → j.current = .rest p ∧ j.settled = i.settled
  leaves : ∀ p, r = .pos p → ∀ q, i.current = .rest q → q ≠ p → j.current = .moving ∧ j.settled = i.settled
  settles : ∀ p, r = .pos p → (∀ q, i.current ≠ .rest q) → i.lastReading = some r → i.began + 300 ≤ now →
    j.current = .rest p ∧ j.settled = some p ∧ j.contactActive = false
  waits : ∀ p, r = .pos p → (∀ q, i.current ≠ .rest q) → i.lastReading = some r → now < i.began + 300 →
    j.current = i.current ∧ j.settled = i.settled
  begins : ∀ p, r = .pos p → (∀ q, i.current ≠ .rest q) → i.lastReading ≠ some r →
    j.current = i.current ∧ j.settled = i.settled
  again : i.lastReading = some r → j.began = i.began
  anew : i.lastReading ≠ some r → j.began = now

theorem Instrument.readAs_again (again : i.lastReading = some r) : (i.readAs r now).began = i.began := if_pos again
theorem Instrument.readAs_anew (anew : i.lastReading ≠ some r) : (i.readAs r now).began = now := if_neg anew

/-- Away from rest, a reading of a position settles once it has stood for 300 ms (R42). -/
theorem Instrument.judged_away (away : ∀ q, i.current ≠ .rest q) (p : CommPos) :
    i.judged (.pos p) now = if i.began + 300 ≤ now then i.restsAt p else i := by
  cases current : i.current with
  | rest q => exact absurd current (away q)
  | moving => simp only [judged, current]
  | unknown => simp only [judged, current]

theorem Instrument.judged_rest {q : CommPos} (rests : i.current = .rest q) (p : CommPos) :
    i.judged (.pos p) now = if p = q then i else i.moving := by
  simp only [judged, rests]

theorem Instrument.judged_gap : i.judged .gap now = i.moving := by
  cases current : i.current <;> simp only [judged]

theorem Instrument.judged_reading : (i.judged r now).lastReading = i.lastReading ∧ (i.judged r now).began = i.began
    ∧ (i.judged r now).plunger = i.plunger := by
  unfold judged
  split
  · exact ⟨rfl, rfl, rfl⟩
  · exact ⟨rfl, rfl, rfl⟩
  · split <;> exact ⟨rfl, rfl, rfl⟩
  · split <;> exact ⟨rfl, rfl, rfl⟩

/-- The reading makes of its instrument what the clauses say. -/
theorem Instrument.took (i : Instrument) (r : CommReading) (now : Time) : i.Took now r ((i.readAs r now).judged r now) := by
  obtain ⟨reading, began, -⟩ := (i.readAs r now).judged_reading (r := r) (now := now)
  refine ⟨reading, ?_, ?_, ?_, ?_, ?_, ?_, ?_, fun again => began.trans (readAs_again again),
    fun anew => began.trans (readAs_anew anew)⟩
  · rintro rfl
    exact ⟨rfl, rfl, rfl⟩
  · rintro rfl
    rw [judged_gap]
    exact ⟨rfl, rfl⟩
  · rintro p rfl rests
    rw [judged_rest (i := i.readAs (.pos p) now) rests, if_pos rfl]
    exact ⟨rests, rfl⟩
  · rintro p rfl q rests other
    rw [judged_rest (i := i.readAs (.pos p) now) rests, if_neg other.symm]
    exact ⟨rfl, rfl⟩
  · rintro p rfl away again passed
    rw [judged_away (i := i.readAs (.pos p) now) away, if_pos (by rwa [readAs_again again])]
    exact ⟨rfl, rfl, rfl⟩
  · rintro p rfl away again early
    rw [judged_away (i := i.readAs (.pos p) now) away, if_neg (by rw [readAs_again again]; exact Nat.not_le.2 early)]
    exact ⟨rfl, rfl⟩
  · rintro p rfl away anew
    rw [judged_away (i := i.readAs (.pos p) now) away, if_neg (by rw [readAs_anew anew]; exact Nat.not_le.2 (Nat.lt_add_of_pos_right (by decide)))]
    exact ⟨rfl, rfl⟩

/-- What the instrument's contacts have told is told of the record that holds it. -/
theorem Instrument.Took.told {m : Instrument} (h : i.Took now r m) {j : Instrument} {x : Plunger}
    (told : j.contacts = (m.plunged x).contacts) : i.Took now r j := by
  have current : j.current = m.current := congrArg (·.current) told
  have settled : j.settled = m.settled := congrArg (·.settled) told
  have active : j.contactActive = m.contactActive := congrArg (·.contactActive) told
  have began : j.began = m.began := congrArg (·.began) told
  obtain ⟨reading, multiple, gap, stays, leaves, settles, waits, begins, again, anew⟩ := h
  simp only [← current, ← settled, ← active, ← began] at multiple gap stays leaves settles waits begins again anew
  exact ⟨(congrArg (·.lastReading) told).trans reading, multiple, gap, stays, leaves, settles, waits, begins, again, anew⟩

/-! ### The permission that a departure takes (R43, R121) -/

/-- A departure from rest that is delivered takes the coils that are ON for the permission held. -/
theorem takeCommReading_permission {q : CommPos} (here : within k s.instruments.length = true)
    (lines : within k s.inbound.length = true) (rests : (s.instrument k).current = .rest q)
    (departs : r = .gap ∨ ∃ p, r = .pos p ∧ p ≠ q) (free : (s.instrument k).confinement = [])
    (present : (s.board (8 + k)).missing = false) :
    ((takeCommReading k r s).inb k).permission = (s.inb k).coils := by
  have own := commNoted_instrument (r := r) here
  have taken : takeCommReading k r s = commDeparts k (commNoted k r s) := by
    rw [takeCommReading_eq, own]
    have rests : ((s.instrument k).readAs r s.now).current = .rest q := rests
    rcases departs with rfl | ⟨p, rfl, other⟩
    · simp only [commJudged, rests]
    · simp only [commJudged, rests, if_neg other]
  have delivered : commDelivered (commNoted k r s) k = true := by
    have free : ((commNoted k r s).instrument k).confinement = [] := by rwa [own]
    have board : (commNoted k r s).board (8 + k) = s.board (8 + k) := rfl
    simp only [commDelivered, free, board, present]
    rfl
  have departed : commDeparts k (commNoted k r s)
      = takeDeparture k ((commNoted k r s).modInstrument k Instrument.moving) := by
    rw [commDeparts, delivered]
    rfl
  rw [taken, departed]
  exact (departure_spec (s := (commNoted k r s).modInstrument k Instrument.moving) lines).1

/-! ### The good answer of a PRESENT instrument board -/

theorem answerFits_instrument (inside : within k 3 = true) (plunger c bb o k1 k2 : Bool) :
    answerFits (8 + k) (.instrument plunger c bb o k1 k2) = true := by
  have := within_le inside
  simp only [answerFits, decide_eq_true_eq]
  omega

theorem tells_takeAnswer (here : within k s.instruments.length = true) (plunger c bb o k1 k2 : Bool) :
    Tells k s (takeAnswer (8 + k) (.instrument plunger c bb o k1 k2) s)
      ((((s.instrument k).readAs (commReadingOf c bb o) s.now).judged (commReadingOf c bb o) s.now).plunged
        (((s.instrument k).plunger).after s.now plunger)) := by
  have read := tells_takeCommReading here (commReadingOf c bb o)
  have now : (takeCommReading k (commReadingOf c bb o) s).now = s.now := (leaves_takeCommReading k _ s).2.2.1
  obtain ⟨-, -, plunger_was⟩ := ((s.instrument k).readAs (commReadingOf c bb o) s.now).judged_reading
    (r := commReadingOf c bb o) (now := s.now)
  have told := read.plunged plunger
  rw [now, plunger_was] at told
  rw [takeAnswer_instrument]
  exact (told.coilRead true _ k1).coilRead false _ k2

theorem takes_instrument_answer {plunger c bb o' k1 k2 : Bool} (undisputed : s.Undisputed) (inside : within k 3 = true)
    (boards : s.boards.length = 11) (instruments : s.instruments.length = 3) (polled : s.polled = some (8 + k, o))
    (present : (s.board (8 + k)).missing = false) (r : CommReading) (reads : r = commReadingOf c bb o') :
    Takes (.goodAnswer t (8 + k) (.instrument plunger c bb o' k1 k2)) s
      [.boards, .levers, .instruments, .faults, .register, .mode, .bells, .inbound, .outbound, .links] fun u =>
        u.polled = none ∧ (u.board (8 + k)).misses = 0 ∧ (∀ j, j ≠ k → u.instrument j = s.instrument j)
          ∧ (s.instrument k).Took (max s.now t) r (u.instrument k)
          ∧ (u.instrument k).plunger = ((s.instrument k).plunger).after (max s.now t) plunger
          ∧ ∀ q, (s.instrument k).current = .rest q → r = .gap ∨ (∃ p, r = .pos p ∧ p ≠ q) →
              (s.instrument k).confinement = [] → judgedCommand (s.board (8 + k)) 0 = none →
              judgedCommand (s.board (8 + k)) 1 = none → s.inbound.length = 3 →
              (u.inb k).permission = (s.inb k).coils := by
  subst reads
  have here := here_of_within 3 inside instruments
  have board_here : within (8 + k) s.boards.length = true := by
    have := within_le inside
    simp only [boards, within, Bool.and_eq_true_iff, decide_eq_true_eq]
    simp only [within, Bool.and_eq_true_iff, decide_eq_true_eq] at inside
    omega
  have effect := (answered_of_fit (s := s.atTime t) polled
    (answerFits_instrument inside plunger c bb o' k1 k2)).trans (takeGood_of_present (s := s.atTime t) present)
  have taken := leaves_takeAnswer_instrument k plunger c bb o' k1 k2 ((s.atTime t).modBoard (8 + k) Board.answered)
  have moves : Moves pollKinds (s.atTime t) (endPoll (8 + k) o true
      (takeAnswer (8 + k) (.instrument plunger c bb o' k1 k2) ((s.atTime t).modBoard (8 + k) Board.answered))) :=
    ((Moves.refl.to_modBoard (8 + k) Board.answered).to_takeAnswer (8 + k) _).to_endPoll (8 + k) o true
  have after := moves_endPoll (8 + k) o true
    (takeAnswer (8 + k) (.instrument plunger c bb o' k1 k2) ((s.atTime t).modBoard (8 + k) Board.answered))
  refine .of_parts rfl rfl undisputed effect moves ?_ fun agreed now => ?_
  · exact (((Moves.refl (ks := [.board])).to_modBoard (8 + k) Board.answered).leaves.trans taken).trans after.leaves
  · have modified : (takeAnswer (8 + k) (.instrument plunger c bb o' k1 k2)
        ((s.atTime t).modBoard (8 + k) Board.answered)).boards = modAt s.boards {} (8 + k) Board.answered :=
      ((Moves.refl.to_takeAnswer (ks := answerKinds) (8 + k) _).exactly .boards).1
    have board := (finish_board agreed (8 + k)).trans (endPoll_board board_here modified)
    have told := tells_takeAnswer (s := (s.atTime t).modBoard (8 + k) Board.answered) here plunger c bb o' k1 k2
    have told := Tells.same told (after.exactly .instruments)
    have own (j : Nat) := finish_instrument agreed j
    refine ⟨finish_polled agreed, congrArg Board.misses board, fun j other => (own j).trans (told.others j other), ?_, ?_, ?_⟩
    · rw [own]
      exact ((s.instrument k).took (commReadingOf c bb o') (max s.now t)).told told.own
    · rw [own]
      exact congrArg (·.plunger) told.own
    · intro q rests departs free first second lines
      have line : within k s.inbound.length = true := here_of_within 3 inside lines
      have board : ((s.atTime t).modBoard (8 + k) Board.answered).board (8 + k) = (s.board (8 + k)).answered :=
        State.board_modBoard_same (s.atTime t) (8 + k) _ board_here
      have first : judgedCommand (s.board (8 + k)).answered 0 = none := first
      have second : judgedCommand (s.board (8 + k)).answered 1 = none := second
      have there : (((s.atTime t).modBoard (8 + k) Board.answered).board (8 + k)).missing = false := by
        rw [board]
        exact present
      have plunged := (moves_takePlunger k plunger
        (takeCommReading k (commReadingOf c bb o') ((s.atTime t).modBoard (8 + k) Board.answered))).exactly .inbound
      rw [finish_inb agreed, State.inb, after.exactly .inbound, takeAnswer_instrument, board, first, second]
      exact (congrArg (fun l : List Inbound => (nth l {} k).permission) plunged).trans
        (takeCommReading_permission (s := (s.atTime t).modBoard (8 + k) Board.answered) here line rests departs free there)

end Sys2Proof.Machine
end

section
/-! O31: good answers of a MISSING board, and the causes of judged read-backs (R32, R38). -/

set_option Elab.async false

namespace Sys2Proof.Machine

variable {s u v w : State} {c d j k n b : Nat} {i : Instrument} {t : Time} {o : List Bool} {f : Finding} {first : Bool}
  {x : Answer} {ps : List Part} {subject : Option Nat}

/-! ### The good answers of a MISSING board (R32) -/

def Board.counted (r : Board) : Board := { r with goods := r.goods + 1 }
def Board.present (r : Board) : Board := { r with goods := 3, missing := false, misses := 0 }

theorem takeGood_of_counted (missing : (s.board b).missing = true) (few : (s.board b).goods < 2) :
    takeGood b x o s = endPoll b o true (s.modBoard b Board.counted) := by
  have counts : (s.board b).goods + 1 < 3 := by omega
  simp only [takeGood, missing, Bool.not_true, Bool.false_eq_true, if_false, counts, if_true]
  rfl

theorem takeGood_of_third (missing : (s.board b).missing = true) (third : 2 ≤ (s.board b).goods) :
    takeGood b x o s = endPoll b o true (takeAnswer b x (endCause 6 (some b) (s.modBoard b Board.present))) := by
  have counts : ¬ (s.board b).goods + 1 < 3 := by omega
  simp only [takeGood, missing, Bool.not_true, Bool.false_eq_true, if_false, counts]
  rfl

/-- The parts that a board's third good answer can touch. -/
abbrev returnParts : List Part :=
  [.store, .transmitter, .boards, .levers, .instruments, .faults, .register, .mode, .holds, .timers, .bells, .inbound,
    .outbound, .links]

theorem leaves_takeAnswer (fits : answerFits b x = true) (s : State) : Leaves returnParts s (takeAnswer b x s) := by
  cases x with
  | lever slots => exact (leaves_takeSlots b 0 slots s).mono (by decide)
  | instrument plunger c bb o k1 k2 =>
    obtain ⟨k, rfl⟩ : ∃ k, b = 8 + k := ⟨b - 8, by simp [answerFits] at fits; omega⟩
    exact (leaves_takeAnswer_instrument k plunger c bb o k1 k2 s).mono (by decide)

theorem leaves_unconfineCommutator (c k : Nat) (s : State) : Leaves returnParts s (unconfineCommutator c k s) := by
  have let_go : Leaves returnParts s
      (s.modInstrument k fun i => { i with confinement := dropSource c i.confinement }) :=
    (Moves.refl.to_modInstrument (ks := [.instrument]) k _).leaves
  simp only [unconfineCommutator]
  split
  · split
    · exact let_go.trans ((leaves_takeSettle k _ _).mono (by decide))
    · exact let_go.trans (moves_evalCoils k _).leaves
  · exact let_go

theorem leaves_unconfine_board (b : Nat) (s : State) : Leaves returnParts s (unconfine 6 6 (some b) s) := by
  simp only [unconfine]
  split
  · exact ((Moves.refl (ks := [.note, .lever, .evaluate])).to_forEach _
      fun k _ => Moves.refl.to_unconfineLever 6 k).leaves
  · exact leaves_unconfineCommutator ..

section
variable (undisputed : s.Undisputed)
include undisputed

/-- The end of BOARD_MISSING: its record is removed, with the entry that says so (R32, R163). -/
theorem endMissing_spec (b : Nat) :
    Leaves returnParts s (endCause 6 (some b) s) ∧ (endCause 6 (some b) s).Lacks b
      ∧ ∀ r, s.faults.find 6 (some b) = some r →
        Grows (append (.faultCleared 6 (some b) r.reaction r.count false) s) (endCause 6 (some b) s) := by
  have self : (source 6).selfClearing = true := rfl
  cases found : s.faults.find 6 (some b) with
  | none =>
    have same : endCause 6 (some b) s = s := by simp only [endCause, self, if_true, found]
    rw [same]
    exact ⟨.refl _ s, ⟨undisputed, found⟩, fun _ held => (nomatch held)⟩
  | some r =>
    have ended : endCause 6 (some b) s = noteFault 6 (unconfine 6 6 (some b) (clearRecord r false s)) := by
      simp only [endCause, self, if_true, found]
    have cleared := clearRecord_of_found (b := false) found
    have undisputed : (clearRecord r false s).Undisputed := by
      rw [cleared]
      exact undisputed
    have absent : (clearRecord r false s).faults.find 6 (some b) = none := by
      rw [cleared]
      exact remove_self s.faults 6 (some b)
    have record : Leaves returnParts s (clearRecord r false s) :=
      ((Moves.refl (ks := [.note, .record, .faults])).to_clearRecord r false).leaves
    have moves : Moves raiseKinds (clearRecord r false s) (noteFault 6 (unconfine 6 6 (some b) (clearRecord r false s))) :=
      (Moves.refl.to_unconfine 6 6 (some b)).to_noteFault 6
    have lacks : (unconfine 6 6 (some b) (clearRecord r false s)).Lacks b :=
      ⟨((Moves.refl (ks := raiseKinds)).to_unconfine 6 6 (some b)).undisputed undisputed,
        unconfine_absent undisputed (.inl (by decide)) absent⟩
    rw [ended]
    refine ⟨(record.trans (leaves_unconfine_board b _)).trans (Moves.refl.to_noteFault (ks := [.note]) 6).leaves,
      lacks.moved (Moves.refl.to_noteFault (ks := [.note]) 6), fun q held => ?_⟩
    obtain rfl := Option.some.inj held
    have grows : Grows (clearRecord r false s) _ := moves.grows
    rw [cleared] at grows ⊢
    exact grows

end

theorem moves_endMissing (b : Nat) (s : State) : Moves raiseKinds s (endCause 6 (some b) s) := Moves.refl.to_endCause 6 (some b)

section
variable (undisputed : s.Undisputed) (here : within b s.boards.length = true) (polled : s.polled = some (b, o))
  (missing : (s.board b).missing = true) (fits : answerFits b x = true)
include undisputed here polled missing fits

theorem takes_counted_answer (few : (s.board b).goods < 2) :
    Takes (.goodAnswer t b x) s [.boards] fun u =>
      u.polled = none ∧ u.scan = s.scan ∧ (∀ j, j ≠ b → u.board j = s.board j)
        ∧ u.board b = ((s.board b).counted).polled o true := by
  have effect := (answered_of_fit (s := s.atTime t) polled fits).trans (takeGood_of_counted (s := s.atTime t) missing few)
  have moves : Moves [.board, .scan] (s.atTime t) (endPoll b o true ((s.atTime t).modBoard b Board.counted)) :=
    (Moves.refl.to_modBoard b Board.counted).to_endPoll b o true
  exact .of_result rfl rfl undisputed effect moves fun agreed _ =>
    ⟨finish_polled agreed, finish_scan agreed,
      fun j other => (finish_board agreed j).trans (endPoll_other (v := (s.atTime t).modBoard b Board.counted) rfl other),
      (finish_board agreed b).trans (endPoll_board (v := (s.atTime t).modBoard b Board.counted) here rfl)⟩

theorem takes_third_answer (third : 2 ≤ (s.board b).goods) :
    Takes (.goodAnswer t b x) s
      [.boards, .levers, .instruments, .faults, .register, .mode, .holds, .timers, .bells, .inbound, .outbound, .links]
      fun u => u.polled = none ∧ u.scan = s.scan ∧ (∀ j, j ≠ b → u.board j = s.board j)
        ∧ u.board b = ((s.board b).present).polled o true
        ∧ u.faults.find 6 (some b) = none
        ∧ ∀ r, s.faults.find 6 (some b) = some r → ∃ es, u.register
            = List.foldl Register.append (s.register.append (.faultCleared 6 (some b) r.reaction r.count false)) es := by
  have effect := (answered_of_fit (s := s.atTime t) polled fits).trans (takeGood_of_third (s := s.atTime t) missing third)
  obtain ⟨left, lacks, grows⟩ := endMissing_spec (s := (s.atTime t).modBoard b Board.present) undisputed b
  have ended := moves_endMissing b ((s.atTime t).modBoard b Board.present)
  have answer : Moves answerKinds (endCause 6 (some b) ((s.atTime t).modBoard b Board.present)) _ :=
    Moves.refl.to_takeAnswer b x
  have moves : Moves pollKinds (s.atTime t)
      (endPoll b o true (takeAnswer b x (endCause 6 (some b) ((s.atTime t).modBoard b Board.present)))) :=
    (((Moves.refl.to_modBoard b Board.present).to_endCause 6 (some b)).to_takeAnswer b x).to_endPoll b o true
  have after := moves_endPoll b o true (takeAnswer b x (endCause 6 (some b) ((s.atTime t).modBoard b Board.present)))
  refine .of_parts rfl rfl undisputed effect moves ?_ fun agreed _ => ?_
  · exact ((((Moves.refl (ks := [.board])).to_modBoard b Board.present).leaves.trans left).trans
      (leaves_takeAnswer fits _)).trans after.leaves
  · have same := Eq.trans (answer.exactly .boards).1 (ended.exactly .boards).1
    have scan : (takeAnswer b x (endCause 6 (some b) ((s.atTime t).modBoard b Board.present))).scan = s.scan :=
      Eq.trans (answer.exactly .boards).2.1 (ended.exactly .boards).2.1
    refine ⟨finish_polled agreed, (finish_scan agreed).trans scan,
      fun j other => (finish_board agreed j).trans (endPoll_other same other),
      (finish_board agreed b).trans (endPoll_board here same), ?_, fun r held => ?_⟩
    · rw [finish_faults agreed, after.exactly .faults]
      exact (lacks.answered fits).absent
    · rw [finish_register agreed, after.exactly .register]
      exact (grows r held).trans answer.grows

end

/-! ### Judged read-backs of a lever (R38) -/

/-- A record as the end of its cause leaves it, where the cause stood (R163). -/
def FaultRecord.endedBy (stood : Bool) (r : FaultRecord) : FaultRecord := { r with active := r.active && !stood }

theorem when_latchRecord_find (stood : Bool) (c : Nat) (subject : Option Nat) (s : State) :
    (when stood (latchRecord c subject) s).faults.find c subject
      = (s.faults.find c subject).map (FaultRecord.endedBy stood) := by
  cases stood with
  | false =>
    have same : FaultRecord.endedBy false = id := funext fun r => by simp [FaultRecord.endedBy]
    rw [same, Option.map_id]
    rfl
  | true =>
    have same : FaultRecord.endedBy true = FaultRecord.latched := funext fun r => by simp [FaultRecord.endedBy, FaultRecord.latched]
    rw [same]
    exact latchRecord_find c subject s

theorem when_latchRecord_find_other (stood : Bool) {d : Nat} {e : Option Nat} (other : (d, e) ≠ (c, subject)) (s : State) :
    (when stood (latchRecord c subject) s).faults.find d e = s.faults.find d e := by
  cases stood with
  | false => rfl
  | true => exact latchRecord_find_other other

def Lever.stuckOn (l : Lever) : Lever := { l with stuckOnActive := true }
def Lever.stuckOff (l : Lever) : Lever := { l with stuckOffActive := true }
def Lever.agrees (l : Lever) : Lever := { l with stuckOnActive := false, stuckOffActive := false }

theorem Lever.Calm.stuck {l m : Lever} (h : l.Calm m) :
    m.stuckOnActive = l.stuckOnActive ∧ m.stuckOffActive = l.stuckOffActive :=
  ⟨congrArg (·.stuckOnActive) h.core, congrArg (·.stuckOffActive) h.core⟩

section
variable (undisputed : s.Undisputed) (here : within k s.levers.length = true)
include undisputed here

omit undisputed in
/-- A cause that begins with a mark on the lever's record. -/
theorem raise_marked {g : Lever → Lever} (own : OfLever c) (agreed : (s.modLever k g).Undisputed) :
    ((g (s.lever k)).Calm ((raise c (some k) (s.modLever k g)).lever k))
      ∧ (raise c (some k) (s.modLever k g)).faults = (countOccurrence c (some k) s).faults := by
  have marked := State.lever_modLever_same s k g here
  exact ⟨marked ▸ calm_raise_lever own k _ k, (raise_lever_faults own agreed).trans
    (countOccurrence_congr (s := s) (w := s.modLever k g) rfl rfl rfl rfl c (some k))⟩

theorem leverFinding_stuckOn :
    ((leverFinding k .stuckOn s).lever k).stuckOnActive = true
      ∧ ((leverFinding k .stuckOn s).lever k).stuckOffActive = (s.lever k).stuckOffActive
      ∧ (leverFinding k .stuckOn s).faults
        = if (s.lever k).stuckOnActive then s.faults else (countOccurrence 10 (some k) s).faults := by
  by_cases active : (s.lever k).stuckOnActive = true
  · have same : leverFinding k .stuckOn s = s := if_pos active
    rw [same, if_pos active]
    exact ⟨active, rfl, rfl⟩
  · have begun : leverFinding k .stuckOn s = raise 10 (some k) (s.modLever k Lever.stuckOn) := if_neg active
    have agreed := (Moves.refl.to_modLever (ks := [.lever]) k Lever.stuckOn).undisputed undisputed
    obtain ⟨calm, faults⟩ := raise_marked here (c := 10) (by decide) agreed
    rw [begun, if_neg active]
    exact ⟨calm.stuck.1, calm.stuck.2, faults⟩

theorem leverFinding_stuckOff :
    ((leverFinding k .stuckOff s).lever k).stuckOffActive = true
      ∧ ((leverFinding k .stuckOff s).lever k).stuckOnActive = (s.lever k).stuckOnActive
      ∧ (leverFinding k .stuckOff s).faults
        = if (s.lever k).stuckOffActive then s.faults else (countOccurrence 12 (some k) s).faults := by
  by_cases active : (s.lever k).stuckOffActive = true
  · have same : leverFinding k .stuckOff s = s := if_pos active
    rw [same, if_pos active]
    exact ⟨active, rfl, rfl⟩
  · have begun : leverFinding k .stuckOff s = raise 12 (some k) (s.modLever k Lever.stuckOff) := if_neg active
    have agreed := (Moves.refl.to_modLever (ks := [.lever]) k Lever.stuckOff).undisputed undisputed
    obtain ⟨calm, faults⟩ := raise_marked here (c := 12) (by decide) agreed
    rw [begun, if_neg active]
    exact ⟨calm.stuck.2, calm.stuck.1, faults⟩

omit undisputed in
theorem leverFinding_agreement :
    ((leverFinding k .agreement s).lever k).stuckOnActive = false
      ∧ ((leverFinding k .agreement s).lever k).stuckOffActive = false
      ∧ (leverFinding k .agreement s).faults.find 10 (some k)
        = (s.faults.find 10 (some k)).map (FaultRecord.endedBy (s.lever k).stuckOnActive)
      ∧ (leverFinding k .agreement s).faults.find 12 (some k)
        = (s.faults.find 12 (some k)).map (FaultRecord.endedBy (s.lever k).stuckOffActive) := by
  have found : leverFinding k .agreement s = when (s.lever k).stuckOffActive (latchRecord 12 (some k))
      (when (s.lever k).stuckOnActive (latchRecord 10 (some k)) (s.modLever k Lever.agrees)) := rfl
  have latched (b : Bool) (c : Nat) (w : State) : (when b (latchRecord c (some k)) w).lever k = w.lever k := by
    cases b with
    | false => rfl
    | true => exact congrArg (fun l : List Lever => nth l {} k) (latchRecord_levers ..)
  have own := State.lever_modLever_same s k Lever.agrees here
  rw [found, latched, latched, own]
  refine ⟨rfl, rfl, ?_, ?_⟩
  · rw [when_latchRecord_find_other _ (by simp), when_latchRecord_find]
    rfl
  · rw [when_latchRecord_find, when_latchRecord_find_other _ (by simp)]
    rfl

end

/-! ### Judged read-backs of a commutator's coils (R38) -/

/-- The findings, as the causes that stand for them, of an instrument (R38). -/
def Instrument.on (i : Instrument) : Bool := i.k1StuckOn || i.k2StuckOn
def Instrument.off (i : Instrument) : Bool := i.k1StuckOff || i.k2StuckOff

theorem coilJudged_core (k : Nat) (i : Instrument) (s : State) (here : within k s.instruments.length = true) :
    ((coilJudged k i s).instrument k).core = ((s.instrument k).findings i.on i.off).core := by
  have raised (b : Bool) (c : Nat) (own : OfCommutator c) (w : State) :
      ((when b (raise c (some k)) w).instrument k).core = (w.instrument k).core := by
    cases b with
    | false => rfl
    | true => exact (raise_commutator_instrument own k k w).1
  have latched (b : Bool) (c : Nat) (w : State) : (when b (latchRecord c (some k)) w).instrument k = w.instrument k := by
    cases b with
    | false => rfl
    | true =>
      exact congrArg (fun l : List Instrument => nth l {} k) ((leaves_latchRecord c (some k) w).2.2.2 .instruments (by decide))
  have own := State.instrument_modInstrument_same s k (Instrument.findings i.on i.off) here
  rw [← own]
  unfold coilJudged
  rw [latched, raised _ _ (by decide), latched, raised _ _ (by decide)]
  rfl

section
variable (undisputed : s.Undisputed)
include undisputed

theorem when_raise_find_other (b : Bool) (own : OfCommutator c) (other : d ≠ c) :
    (when b (raise c (some k)) s).faults.find d (some k) = s.faults.find d (some k) := by
  cases b with
  | false => rfl
  | true =>
    rw [when_true, raise_commutator_faults own undisputed]
    exact countOccurrence_find_other (by simp [other])

theorem coilJudged_faults :
    (i.on = true → i.stuckOnActive = false → i.off = i.stuckOffActive →
        (coilJudged k i s).faults = (countOccurrence 11 (some k) s).faults)
      ∧ (i.off = true → i.stuckOffActive = false → i.on = i.stuckOnActive →
        (coilJudged k i s).faults = (countOccurrence 13 (some k) s).faults)
      ∧ (i.on = false → i.stuckOnActive = true →
        (coilJudged k i s).faults.find 11 (some k) = (s.faults.find 11 (some k)).map FaultRecord.latched)
      ∧ (i.off = false → i.stuckOffActive = true →
        (coilJudged k i s).faults.find 13 (some k) = (s.faults.find 13 (some k)).map FaultRecord.latched) := by
  obtain ⟨w, is⟩ : ∃ w, w = s.modInstrument k (Instrument.findings i.on i.off) := ⟨_, rfl⟩
  have judged : coilJudged k i s = when (!i.off && i.stuckOffActive) (latchRecord 13 (some k))
      (when (i.off && !i.stuckOffActive) (raise 13 (some k)) (when (!i.on && i.stuckOnActive) (latchRecord 11 (some k))
        (when (i.on && !i.stuckOnActive) (raise 11 (some k)) w))) := by rw [is]; rfl
  have marked : w.Undisputed := is ▸ undisputed
  have table : w.faults = s.faults := by rw [is]; rfl
  have counts (c : Nat) : (countOccurrence c (some k) w).faults = (countOccurrence c (some k) s).faults := by
    rw [is]
    exact countOccurrence_congr (s := s) (w := s.modInstrument k (Instrument.findings i.on i.off)) rfl rfl rfl rfl c (some k)
  refine ⟨fun on inactive same => ?_, fun off inactive same => ?_, fun off active => ?_, fun off active => ?_⟩
  · rw [judged, same, on, inactive]
    cases i.stuckOffActive <;> exact (raise_commutator_faults (by decide) marked).trans (counts 11)
  · rw [judged, same, off, inactive]
    cases i.stuckOnActive <;> exact (raise_commutator_faults (by decide) marked).trans (counts 13)
  · have first : (latchRecord 11 (some k) w).Undisputed :=
      (Moves.refl.to_latchRecord (ks := [.note, .faults]) 11 (some k)).undisputed marked
    rw [judged, off, active, when_latchRecord_find_other _ (by simp), ← table]
    exact (when_raise_find_other first _ (by decide) (by decide)).trans (latchRecord_find 11 (some k) w)
  · rw [judged, off, active, ← table]
    refine (latchRecord_find 13 (some k) _).trans (congrArg (Option.map FaultRecord.latched) ?_)
    exact (when_latchRecord_find_other _ (by simp) _).trans (when_raise_find_other (c := 11) marked _ (by decide) (by decide))

end

/-- What a coil's finding makes of its own coil's findings, and leaves of the other's (R38). -/
theorem Instrument.find_spec (i : Instrument) (f : Finding) (first : Bool) :
    (first = true → (i.find first f).k2StuckOn = i.k2StuckOn ∧ (i.find first f).k2StuckOff = i.k2StuckOff
        ∧ (f = .stuckOn → (i.find first f).k1StuckOn = true ∧ (i.find first f).k1StuckOff = i.k1StuckOff)
        ∧ (f = .stuckOff → (i.find first f).k1StuckOff = true ∧ (i.find first f).k1StuckOn = i.k1StuckOn)
        ∧ (f = .agreement → (i.find first f).k1StuckOn = false ∧ (i.find first f).k1StuckOff = false))
      ∧ (first = false → (i.find first f).k1StuckOn = i.k1StuckOn ∧ (i.find first f).k1StuckOff = i.k1StuckOff
        ∧ (f = .stuckOn → (i.find first f).k2StuckOn = true ∧ (i.find first f).k2StuckOff = i.k2StuckOff)
        ∧ (f = .stuckOff → (i.find first f).k2StuckOff = true ∧ (i.find first f).k2StuckOn = i.k2StuckOn)
        ∧ (f = .agreement → (i.find first f).k2StuckOn = false ∧ (i.find first f).k2StuckOff = false))
      ∧ (i.find first f).stuckOnActive = i.stuckOnActive ∧ (i.find first f).stuckOffActive = i.stuckOffActive := by
  cases first <;> cases f <;> simp [Instrument.find]

/-- A judged read-back of a commutator's coil, clause by clause (R38). -/
theorem coilFinding_spec (undisputed : s.Undisputed) (here : within k s.instruments.length = true) (first : Bool)
    (f : Finding) : ((coilFinding k first f s).instrument k).core
        = (((s.instrument k).find first f).findings ((s.instrument k).find first f).on ((s.instrument k).find first f).off).core
      ∧ (((s.instrument k).find first f).on = true → (s.instrument k).stuckOnActive = false →
          ((s.instrument k).find first f).off = (s.instrument k).stuckOffActive →
          (coilFinding k first f s).faults = (countOccurrence 11 (some k) s).faults)
      ∧ (((s.instrument k).find first f).off = true → (s.instrument k).stuckOffActive = false →
          ((s.instrument k).find first f).on = (s.instrument k).stuckOnActive →
          (coilFinding k first f s).faults = (countOccurrence 13 (some k) s).faults)
      ∧ (((s.instrument k).find first f).on = false → (s.instrument k).stuckOnActive = true →
          (coilFinding k first f s).faults.find 11 (some k) = (s.faults.find 11 (some k)).map FaultRecord.latched)
      ∧ (((s.instrument k).find first f).off = false → (s.instrument k).stuckOffActive = true →
          (coilFinding k first f s).faults.find 13 (some k) = (s.faults.find 13 (some k)).map FaultRecord.latched) := by
  have marked := State.instrument_modInstrument_same s k (fun i => i.find first f) here
  have core := coilJudged_core k ((s.instrument k).find first f) (s.modInstrument k fun i => i.find first f)
    (by rwa [State.modInstrument_instruments, length_modAt])
  have agreed : (s.modInstrument k fun i => i.find first f).Undisputed := undisputed
  obtain ⟨on, off, ends_on, ends_off⟩ := coilJudged_faults (k := k) (i := (s.instrument k).find first f) agreed
  have counts (c : Nat) : (countOccurrence c (some k) (s.modInstrument k fun i => i.find first f)).faults
      = (countOccurrence c (some k) s).faults :=
    countOccurrence_congr (s := s) (w := s.modInstrument k fun i => i.find first f) rfl rfl rfl rfl c (some k)
  obtain ⟨-, -, was_on, was_off⟩ := (s.instrument k).find_spec f first
  rw [marked] at core
  rw [was_on, was_off, counts] at on
  rw [was_on, was_off, counts] at off
  rw [was_on] at ends_on
  rw [was_off] at ends_off
  rw [coilFinding_eq, marked]
  exact ⟨core, on, off, ends_on, ends_off⟩

/-- Settles O31: an instrument board's answer, a MISSING board's return, and the judged read-backs. -/
theorem instrumentAnswersDecodeTheCommutator : Obligations.InstrumentAnswersDecodeTheCommutator := by
  unfold Obligations.InstrumentAnswersDecodeTheCommutator
  refine ⟨fun s t k o plunger c b' o' k1 k2 r undisputed inside boards instruments polled present reads => ?_,
    fun s t b o x undisputed inside boards polled missing fits => ?_, ?_, ?_⟩
  · refine Takes.imp (takes_instrument_answer undisputed inside boards instruments polled present r reads) fun u holds => ?_
    obtain ⟨idle, misses, others, took, plunged, permission⟩ := holds
    refine ⟨idle, misses, others, took.reading, took.multiple, took.gap, fun p is => ⟨took.stays p is, took.leaves p is,
      took.settles p is, took.waits p is, took.begins p is⟩, took.again, took.anew, plunged.trans ?_, permission⟩
    cases (s.instrument k).plunger <;> cases plunger <;> rfl
  · have here := here_of_within 11 inside boards
    exact ⟨takes_counted_answer undisputed here polled missing fits, takes_third_answer undisputed here polled missing fits⟩
  · rintro s _ k f _ _ undisputed inside length rfl rfl rfl
    have here := here_of_within 64 inside length
    refine ⟨?_, ?_, ?_⟩
    · rintro rfl
      exact leverFinding_stuckOn undisputed here
    · rintro rfl
      exact leverFinding_stuckOff undisputed here
    · rintro rfl
      exact leverFinding_agreement here
  · rintro s _ k first f _ _ undisputed inside length rfl rfl rfl
    have here := here_of_within 3 inside length
    obtain ⟨core, on, off, ends_on, ends_off⟩ := coilFinding_spec undisputed here first f
    obtain ⟨of_first, of_second, -, -⟩ := (s.instrument k).find_spec f first
    have k1_on : ((coilFinding k first f s).instrument k).k1StuckOn = ((s.instrument k).find first f).k1StuckOn :=
      congrArg (·.k1StuckOn) core
    have k2_on : ((coilFinding k first f s).instrument k).k2StuckOn = ((s.instrument k).find first f).k2StuckOn :=
      congrArg (·.k2StuckOn) core
    have k1_off : ((coilFinding k first f s).instrument k).k1StuckOff = ((s.instrument k).find first f).k1StuckOff :=
      congrArg (·.k1StuckOff) core
    have k2_off : ((coilFinding k first f s).instrument k).k2StuckOff = ((s.instrument k).find first f).k2StuckOff :=
      congrArg (·.k2StuckOff) core
    have active_on : ((coilFinding k first f s).instrument k).stuckOnActive = ((s.instrument k).find first f).on :=
      congrArg (·.stuckOnActive) core
    have active_off : ((coilFinding k first f s).instrument k).stuckOffActive = ((s.instrument k).find first f).off :=
      congrArg (·.stuckOffActive) core
    simp only [k1_on, k2_on, k1_off, k2_off, active_on, active_off]
    exact ⟨of_first, of_second, rfl, rfl, fun inactive begun same => on begun inactive same,
      fun inactive begun same => off begun inactive same, fun active ended => ends_on ended active,
      fun active ended => ends_off ended active⟩

end Sys2Proof.Machine
end

section
/-! O15: table records survive their encoding (R184). A record's fields are told by the record, but for fields that
hold nothing in it. -/

set_option Elab.async false

namespace Sys2Proof.Machine

variable {n m lo hi a b : Nat} {ks : List FieldKind} {bs : List Byte} {rs : List Raw}

/-! ### Fields and their bytes -/

theorem byte_toNat (b : Byte) : byte b.toNat = b := BitVec.ofNat_toNat 8 b

theorem be16_ofBe16 (h l : Byte) : be16 (ofBe16 h l) = [h, l] := by
  have high : (h.toNat * 256 + l.toNat) / 256 = h.toNat := by have := l.isLt; omega
  have low : byte (h.toNat * 256 + l.toNat) = l := by
    apply BitVec.eq_of_toNat_eq
    have := l.isLt
    simp only [byte, BitVec.toNat_ofNat]
    omega
  simp only [be16, ofBe16, high, low, byte_toNat]

/-- What was parsed is encoded as it was sent. -/
theorem encodeFields_of_parse (parsed : parseFields ks bs = some rs) : encodeFields ks rs = bs := by
  induction ks generalizing bs rs with
  | nil =>
    cases bs with
    | nil => rfl
    | cons b bs => cases parsed
  | cons kind ks ih =>
    have later {head : Raw} {tail : List Byte}
        (parsed : (parseFields ks tail).map (head :: ·) = some rs) :
        encodeFields (kind :: ks) rs = encodeField kind head ++ tail := by
      obtain ⟨rest, is, rfl⟩ := Option.map_eq_some_iff.1 parsed
      exact congrArg (encodeField kind head ++ ·) (ih is)
    cases kind with
    | one =>
      cases bs with
      | nil => cases parsed
      | cons b bs => exact (later parsed).trans (congrArg (· :: bs) (byte_toNat b))
    | two =>
      match bs, parsed with
      | h :: l :: bs, parsed => exact (later parsed).trans (congrArg (· ++ bs) (be16_ofBe16 h l))
    | list =>
      cases bs with
      | nil => cases parsed
      | cons c bs =>
        simp only [parseFields] at parsed
        split at parsed
        · next long =>
          have bytes : ((bs.take c.toNat).map (·.toNat)).map byte = bs.take c.toNat := by
            rw [List.map_map]
            exact (List.map_congr_left fun b _ => byte_toNat b).trans (List.map_id _)
          have length : byte ((bs.take c.toNat).map (·.toNat)).length = c := by
            rw [List.length_map, List.length_take, Nat.min_eq_left long, byte_toNat]
          refine (later parsed).trans ?_
          simp only [encodeField, length, bytes, List.cons_append, List.take_append_drop]
        · cases parsed

/-! ### A field that is taken is the code of its value -/

theorem num?_self (taken : num? n lo hi = some m) : n = m := by
  unfold num? at taken
  split at taken
  · exact Option.some.inj taken
  · cases taken

theorem num?_range (taken : num? n lo hi = some m) : lo ≤ m ∧ m ≤ hi := by
  obtain rfl := num?_self taken
  by_contra outside
  have out : inRange n lo hi = false := by simpa [inRange] using fun low => by omega
  simp [num?, out] at taken

theorem opt?_self {v : Option Nat} (taken : opt? n lo hi = some v) : n = v.getD 255 := by
  unfold opt? at taken
  split at taken
  · next absent =>
    obtain rfl := Option.some.inj taken
    exact absent
  · obtain ⟨m, is, rfl⟩ := Option.map_eq_some_iff.1 taken
    exact num?_self is

theorem opt?_range {v : Option Nat} (taken : opt? n lo hi = some v) : ∀ m ∈ v, lo ≤ m ∧ m ≤ hi := by
  unfold opt? at taken
  split at taken
  · obtain rfl := Option.some.inj taken
    exact fun _ none => (nomatch none)
  · obtain ⟨m, is, rfl⟩ := Option.map_eq_some_iff.1 taken
    intro x mem
    obtain rfl := Option.some.inj mem
    exact num?_range is

theorem bool?_self {v : Bool} (taken : bool? n = some v) : n = if v then 1 else 0 := by
  match n, taken with
  | 0, taken => obtain rfl := Option.some.inj taken; rfl
  | 1, taken => obtain rfl := Option.some.inj taken; rfl

theorem list?_self {l v : List Nat} {low high : Nat} (taken : list? l low high lo hi = some v) : l = v := by
  unfold list? at taken
  split at taken
  · exact Option.some.inj taken
  · cases taken

theorem LeverType.ofCode_self {v : LeverType} (taken : LeverType.ofCode n = some v) : n = v.code := by
  match n, taken with
  | 0, taken | 1, taken | 2, taken | 3, taken | 4, taken | 5, taken => obtain rfl := Option.some.inj taken; rfl

theorem Pos.ofCode_self {v : Pos} (taken : Pos.ofCode n = some v) : n = v.code := by
  match n, taken with
  | 0, taken | 1, taken => obtain rfl := Option.some.inj taken; rfl

theorem LineState.ofCode_self {v : LineState} (taken : LineState.ofCode n = some v) : n = v.code := by
  match n, taken with
  | 0, taken | 1, taken | 2, taken => obtain rfl := Option.some.inj taken; rfl

theorem OwnerKind.ofCode_self {v : OwnerKind} (taken : OwnerKind.ofCode n = some v) : n = v.code := by
  match n, taken with
  | 0, taken | 1, taken | 2, taken => obtain rfl := Option.some.inj taken; rfl

theorem Meaning.ofCode_self {v : Meaning} (taken : Meaning.ofCode n = some v) : n = v.code := by
  match n, taken with
  | 0, taken | 1, taken | 2, taken | 3, taken | 4, taken | 5, taken | 6, taken => obtain rfl := Option.some.inj taken; rfl

theorem Reaction.ofCode_self {v : Reaction} (taken : Reaction.ofCode n = some v) : n = v.code := by
  match n, taken with
  | 0, taken | 1, taken | 2, taken => obtain rfl := Option.some.inj taken; rfl

/-- The code of the directions a condition applies to, and of those of a code rule (R50, R107). -/
def Applies.code : Applies → Nat
  | .toReverse => 0
  | .toNormal => 1
  | .both => 2

def ValidFor.code : ValidFor → Nat
  | .sent => 0
  | .received => 1
  | .both => 2

theorem appliesOfRaw_self {v : Applies} (taken : appliesOfRaw n = some v) : n = v.code := by
  match n, taken with
  | 0, taken | 1, taken | 2, taken => obtain rfl := Option.some.inj taken; rfl

theorem validForOfRaw_self {v : ValidFor} (taken : validForOfRaw n = some v) : n = v.code := by
  match n, taken with
  | 0, taken | 1, taken | 2, taken => obtain rfl := Option.some.inj taken; rfl

/-- A field of no or yes, and of a value that can be absent, is the code of its value. -/
theorem rawBool_of_taken {v : Bool} (taken : bool? n = some v) : rawBool v = .num n := congrArg Raw.num (bool?_self taken).symm

theorem rawOpt_of_taken {v : Option Nat} (taken : opt? n lo hi = some v) : rawOpt v = .num n :=
  congrArg Raw.num (opt?_self taken).symm

theorem num_of_taken (taken : num? n lo hi = some m) : Raw.num m = .num n := congrArg Raw.num (num?_self taken).symm

theorem list_of_taken {l v : List Nat} {low high : Nat} (taken : list? l low high lo hi = some v) : Raw.list v = .list l :=
  congrArg Raw.list (list?_self taken).symm

end Sys2Proof.Machine
end

section
/-! O15: table records survive their encoding, table by table (R184). -/

set_option Elab.async false

namespace Sys2Proof.Machine

variable {n m lo hi a b table record : Nat} {ks : List FieldKind} {bs : List Byte} {rs : List Raw} {v : Value}

/-! ### Records that tell all of their fields -/

/-- A role's code (R137). -/
def Role.code : Role → Nat
  | .senior => 0
  | .junior => 1

theorem role_of_taken {role : Option Nat} (taken : opt? n 0 1 = some role) :
    rawOpt ((role.map fun r => if r = 0 then Role.senior else .junior).map Role.code) = .num n := by
  refine Eq.trans (congrArg rawOpt ?_) (rawOpt_of_taken taken)
  cases role with
  | none => rfl
  | some r =>
    have small := (opt?_range taken r rfl).2
    match r, small with
    | 0, _ => rfl
    | 1, _ => rfl

theorem linkRaw_of_taken {c : LinkCfg} (taken : linkOfRaw rs = some c) : linkRaw c = rs := by
  unfold linkOfRaw at taken
  split at taken
  · simp only [Option.bind_eq_bind, Option.bind_eq_some_iff, Option.pure_def, Option.some.injEq] at taken
    obtain ⟨_, configured, single, kind, role, of_role, _, far, _, turnaround, _, bid, _, data, _, waits, _, bids, _,
      datas, _, heartbeat, _, silence, rfl⟩ := taken
    have kind : (if single then LinkKind.single else .double).code = _ := Eq.trans (by cases single <;> rfl) (bool?_self kind).symm
    have role := role_of_taken of_role
    simp only [linkRaw, rawBool_of_taken configured, kind, rawOpt_of_taken far, num_of_taken turnaround, num_of_taken bid,
      num_of_taken data, num_of_taken waits, num_of_taken bids, num_of_taken datas, num_of_taken heartbeat,
      num_of_taken silence]
    rw [← role]
    rfl
  · cases taken

theorem bellRaw_of_taken {c : BellCfg} (taken : bellOfRaw rs = some c) : bellRaw c = rs := by
  unfold bellOfRaw at taken
  split at taken
  · obtain ⟨_, group, taken⟩ := Option.bind_eq_some_iff.1 taken
    obtain ⟨_, ends, taken⟩ := Option.bind_eq_some_iff.1 taken
    split at taken
    · simp only [Option.bind_eq_bind, Option.bind_eq_some_iff, Option.pure_def, Option.some.injEq] at taken
      obtain ⟨_, stroke, _, inside, _, between, _, reply, rfl⟩ := taken
      simp only [bellRaw, num_of_taken group, num_of_taken ends, num_of_taken stroke, num_of_taken inside,
        num_of_taken between, num_of_taken reply]
    · cases taken
  · cases taken

theorem leverRaw_of_taken {c : LeverCfg} (taken : leverOfRaw rs = some c) : leverRaw c = rs := by
  unfold leverOfRaw at taken
  split at taken
  · simp only [Option.bind_eq_bind, Option.bind_eq_some_iff, Option.pure_def] at taken
    obtain ⟨_, type, _, line, _, altered, taken⟩ := taken
    split at taken
    · obtain rfl := Option.some.inj taken
      simp only [leverRaw, ← LeverType.ofCode_self type, rawOpt_of_taken line, rawBool_of_taken altered]
    · cases taken
  · cases taken

theorem trackRaw_of_taken {c : TrackCfg} (taken : trackOfRaw record rs = some c) : trackRaw c = rs := by
  unfold trackOfRaw at taken
  split at taken
  · obtain ⟨_, enabled, taken⟩ := Option.bind_eq_some_iff.1 taken
    obtain ⟨_, period, taken⟩ := Option.bind_eq_some_iff.1 taken
    obtain ⟨_, level, taken⟩ := Option.bind_eq_some_iff.1 taken
    obtain ⟨_, drop, taken⟩ := Option.bind_eq_some_iff.1 taken
    obtain ⟨_, pickup, taken⟩ := Option.bind_eq_some_iff.1 taken
    obtain ⟨_, count, taken⟩ := Option.bind_eq_some_iff.1 taken
    obtain ⟨_, occupancy, taken⟩ := Option.bind_eq_some_iff.1 taken
    obtain ⟨_, loss, taken⟩ := Option.bind_eq_some_iff.1 taken
    obtain ⟨_, margin, taken⟩ := Option.bind_eq_some_iff.1 taken
    obtain ⟨_, high, taken⟩ := Option.bind_eq_some_iff.1 taken
    obtain ⟨_, neighbours, taken⟩ := Option.bind_eq_some_iff.1 taken
    obtain ⟨_, wiring, taken⟩ := Option.bind_eq_some_iff.1 taken
    split at taken
    · cases taken
    · obtain rfl := Option.some.inj taken
      simp only [trackRaw, rawBool_of_taken enabled, num_of_taken period, num_of_taken level, num_of_taken drop,
        num_of_taken pickup, num_of_taken count, num_of_taken occupancy, num_of_taken loss, num_of_taken margin,
        num_of_taken high, list_of_taken neighbours, num_of_taken wiring]
  · cases taken

theorem holdRaw_of_taken {c : HoldCfg} (taken : holdOfRaw rs = some c) : holdRaw c = rs := by
  unfold holdOfRaw at taken
  split at taken
  · simp only [Option.bind_eq_bind, Option.bind_eq_some_iff, Option.pure_def] at taken
    obtain ⟨_, configured, _, signal, _, approach, _, route, _, timer, taken⟩ := taken
    split at taken
    · cases taken
    · obtain rfl := Option.some.inj taken
      simp only [holdRaw, rawBool_of_taken configured, rawOpt_of_taken signal, list_of_taken approach,
        list_of_taken route, rawOpt_of_taken timer]
  · cases taken

theorem inbRaw_of_taken {c : InboundCfg} (taken : inbOfRaw rs = some c) : inbRaw c = rs := by
  unfold inbOfRaw at taken
  split at taken
  · simp only [Option.bind_eq_bind, Option.bind_eq_some_iff, Option.pure_def, Option.some.injEq] at taken
    obtain ⟨_, arrival, _, clearing, _, home, _, point, _, timer, rfl⟩ := taken
    simp only [inbRaw, rawOpt_of_taken clearing, rawOpt_of_taken home, list_of_taken point, rawOpt_of_taken timer]
    exact congrArg (· :: _) (num_of_taken arrival)
  · cases taken

theorem outbRaw_of_taken {c : OutboundCfg} (taken : outbOfRaw rs = some c) : [rawOpt c.departure, .num c.overdue] = rs := by
  unfold outbOfRaw at taken
  split at taken
  · simp only [Option.bind_eq_bind, Option.bind_eq_some_iff, Option.pure_def, Option.some.injEq] at taken
    obtain ⟨_, departure, _, overdue, rfl⟩ := taken
    simp only [rawOpt_of_taken departure, num_of_taken overdue]
  · cases taken

theorem codeRaw_of_taken {c : CodeRule} (taken : codeOfRaw rs = some c) : codeRaw c = rs := by
  unfold codeOfRaw at taken
  split at taken
  · simp only [Option.bind_eq_bind, Option.bind_eq_some_iff, Option.pure_def] at taken
    obtain ⟨_, pattern, _, meaning, _, cls, valid, directions, taken⟩ := taken
    split at taken
    · cases taken
    · obtain rfl := Option.some.inj taken
      have directions := validForOfRaw_self directions
      simp only [codeRaw, list_of_taken pattern, ← Meaning.ofCode_self meaning, rawOpt_of_taken cls, directions]
      cases valid <;> rfl
  · cases taken

theorem reactionRaw_of_taken {r : Reaction} (taken : reactionOfRaw record rs = some r) : [.num r.code] = rs := by
  unfold reactionOfRaw at taken
  split at taken
  · simp only [Option.bind_eq_bind, Option.bind_eq_some_iff, Option.pure_def] at taken
    obtain ⟨_, code, taken⟩ := taken
    split at taken
    · cases taken
    · obtain rfl := Option.some.inj taken
      rw [← Reaction.ofCode_self code]
  · cases taken

/-! ### Records with fields that hold nothing -/

/-- What an entry's subject names and requires is told by the subject (R50). -/
theorem subjectRaw_of_taken {kind subject required : Nat} {x : Subject} (taken : subjectOfRaw kind subject required = some x) :
    subjectRaw x = (kind, subject, required) := by
  unfold subjectOfRaw at taken
  split at taken
  · simp only [Option.bind_eq_bind, Option.bind_eq_some_iff, Option.pure_def, Option.some.injEq] at taken
    obtain ⟨_, number, _, position, rfl⟩ := taken
    rw [num?_self number, Pos.ofCode_self position]
    rfl
  · obtain ⟨_, number, taken⟩ := Option.bind_eq_some_iff.1 taken
    split at taken
    · next required =>
      obtain rfl := Option.some.inj taken
      rw [num?_self number, required]
      rfl
    · cases taken
  · simp only [Option.bind_eq_bind, Option.bind_eq_some_iff, Option.pure_def, Option.some.injEq] at taken
    obtain ⟨_, number, _, state, rfl⟩ := taken
    rw [num?_self number, LineState.ofCode_self state]
    rfl
  · obtain ⟨_, number, taken⟩ := Option.bind_eq_some_iff.1 taken
    split at taken
    · next required =>
      obtain rfl := Option.some.inj taken
      rw [num?_self number, required]
      rfl
    · cases taken
  · obtain ⟨_, number, taken⟩ := Option.bind_eq_some_iff.1 taken
    split at taken
    · next required =>
      obtain rfl := Option.some.inj taken
      rw [num?_self number, required]
      rfl
    · cases taken
  · cases taken

theorem condRaw_of_taken {c : Option Cond} (taken : condOfRaw rs = some c) : condRaw c = rs ∨ c = none := by
  unfold condOfRaw at taken
  split at taken
  · split at taken
    · exact .inr (Option.some.inj taken).symm
    · obtain ⟨subject, named, taken⟩ := Option.bind_eq_some_iff.1 taken
      obtain ⟨applies, directions, taken⟩ := Option.bind_eq_some_iff.1 taken
      obtain ⟨lever, qualifier, taken⟩ := Option.bind_eq_some_iff.1 taken
      obtain ⟨position, at_position, taken⟩ := Option.bind_eq_some_iff.1 taken
      have names := subjectRaw_of_taken named
      have directions := appliesOfRaw_self directions
      left
      split at taken
      · obtain rfl := Option.some.inj taken
        rw [opt?_self qualifier, opt?_self at_position, directions]
        simp only [condRaw, names]
        cases applies <;> rfl
      · obtain ⟨p, is, taken⟩ := Option.bind_eq_some_iff.1 taken
        obtain rfl := Option.some.inj taken
        have lever := rawOpt_of_taken qualifier
        have position := rawOpt_of_taken at_position
        rw [Pos.ofCode_self is] at position
        simp only [condRaw, names, Option.map_some, lever, position, directions]
        cases applies <;> rfl
      · cases taken
  · cases taken

theorem windowRaw_of_taken {w : Option Window} (taken : windowOfRaw rs = some w) : windowRaw w = rs ∨ w = none := by
  unfold windowOfRaw at taken
  split at taken
  · obtain ⟨present, configured, taken⟩ := Option.bind_eq_some_iff.1 taken
    cases present with
    | true =>
      simp only [if_true, Option.bind_eq_bind, Option.bind_eq_some_iff, Option.pure_def, Option.some.injEq] at taken
      obtain ⟨_, first, _, last, _, target, rfl⟩ := taken
      left
      simp only [windowRaw, num_of_taken first, num_of_taken last, num_of_taken target, bool?_self configured]
      rfl
    | false =>
      simp only [Bool.false_eq_true, if_false, Option.bind_eq_bind, Option.bind_eq_some_iff, Option.pure_def,
        Option.some.injEq] at taken
      obtain ⟨_, _, _, _, _, _, rfl⟩ := taken
      exact .inr rfl
  · cases taken

/-- A timer's owner is told by its two fields (R86). -/
theorem owner_of_taken {kind number : Nat} {o : Option (OwnerKind × Nat)} (taken : ownerOfRaw kind number = some o) :
    rawOpt (o.map (·.1.code)) = .num kind ∧ rawOpt (o.map (·.2)) = .num number := by
  unfold ownerOfRaw at taken
  split at taken
  · next absent =>
    obtain ⟨rfl, rfl⟩ : kind = 255 ∧ number = 255 := by simpa using absent
    obtain rfl := Option.some.inj taken
    exact ⟨rfl, rfl⟩
  · split at taken
    · next owns =>
      obtain ⟨_, is, rfl⟩ := Option.map_eq_some_iff.1 taken
      rw [OwnerKind.ofCode_self owns]
      exact ⟨rfl, num_of_taken is⟩
    · next owns =>
      split at taken
      · obtain rfl := Option.some.inj taken
        rw [OwnerKind.ofCode_self owns]
        exact ⟨rfl, rfl⟩
      · cases taken
    · next owns =>
      obtain ⟨_, is, rfl⟩ := Option.map_eq_some_iff.1 taken
      rw [OwnerKind.ofCode_self owns]
      exact ⟨rfl, num_of_taken is⟩
    · cases taken

/-- A record of a timer is its fields, but for a validity that is the default (R86). -/
theorem timerOfRaw_spec {c : TimerCfg} (taken : timerOfRaw rs = some c) :
    timerRaw c = rs ∨ ∃ configured kind number duration,
      rs = [.num configured, .num kind, .num number, .num duration, .num 65535]
        ∧ timerRaw c = [.num configured, .num kind, .num number, .num duration, .num 60]
        ∧ timerOfRaw (timerRaw c) = some c := by
  unfold timerOfRaw at taken
  split at taken
  · next cf ok on du va =>
    obtain ⟨configured, is, taken⟩ := Option.bind_eq_some_iff.1 taken
    obtain ⟨owner, owns, taken⟩ := Option.bind_eq_some_iff.1 taken
    obtain ⟨duration, lasts, taken⟩ := Option.bind_eq_some_iff.1 taken
    have fields (o : Option Nat) (validity : Nat) (is_validity : o.getD 65535 = validity) :
        timerRaw ⟨configured, owner, duration, o⟩ = [.num cf, .num ok, .num on, .num du, .num validity] := by
      obtain ⟨kind, number⟩ := owner_of_taken owns
      simp only [timerRaw, rawBool_of_taken is, kind, number, num_of_taken lasts, is_validity]
    simp only at taken
    split at taken
    · next absent =>
      cases leverOwned : owner.any fun o => o.1 == OwnerKind.lever with
      | false =>
        simp only [leverOwned, Bool.false_eq_true, if_false, Option.bind_eq_bind, Option.bind_some] at taken
        split at taken
        · cases taken
        · obtain rfl := Option.some.inj taken
          exact .inl (fields none va absent.symm)
      | true =>
        simp only [leverOwned, if_true, Option.bind_eq_bind, Option.bind_some] at taken
        split at taken
        · cases taken
        · next fits =>
          obtain rfl := Option.some.inj taken
          have sent := fields (some defaultValidity) 60 rfl
          refine .inr ⟨cf, ok, on, du, by rw [absent], sent, ?_⟩
          rw [sent]
          have in_range : num? 60 10 300 = some 60 := rfl
          simp only [timerOfRaw, is, owns, lasts, leverOwned, in_range, Option.bind_eq_bind, Option.bind_some, Option.map_some]
          exact if_neg fits
    · obtain ⟨validity, is_validity, taken⟩ := Option.bind_eq_some_iff.1 taken
      split at taken
      · cases taken
      · obtain rfl := Option.some.inj taken
        obtain ⟨m, is_num, rfl⟩ := Option.map_eq_some_iff.1 is_validity
        exact .inl (fields (some m) va (num?_self is_num).symm)
  · cases taken

end Sys2Proof.Machine
end

section
/-! O15: table records survive their encoding (R184). -/

set_option Elab.async false

namespace Sys2Proof.Machine

variable {n table record : Nat} {ks : List FieldKind} {bs : List Byte} {rs raw : List Raw} {v : Value}

theorem parseFields_two_sixty {cf ok on du va : Nat}
    (parsed : parseFields (layout 10 record) bs = some [.num cf, .num ok, .num on, .num du, .num va]) :
    parseFields (layout 10 record) (encodeFields (layout 10 record) [.num cf, .num ok, .num on, .num du, .num 60])
      = some [.num cf, .num ok, .num on, .num du, .num 60] := by
  match bs, parsed with
  | [a, b, c, d, e, f, g], parsed =>
    simp only [layout, parseFields, Option.map_some, Option.some.injEq, List.cons.injEq, Raw.num.injEq, and_true] at parsed
    obtain ⟨rfl, rfl, rfl, rfl, -⟩ := parsed
    simp only [layout, encodeFields, List.zipWith, encodeField, byte_toNat, be16_ofBe16]
    rfl

/-- What is given back by READ TABLE's encoding as the same record (R184). -/
def Value.Survives (table record : Nat) (v : Value) : Prop :=
  parseFields (layout table record) (encodeFields (layout table record) v.raw) = some v.raw
    ∧ valueOfRaw table record v.raw = some v

theorem survives_window : (Value.window none).Survives 5 record := ⟨rfl, rfl⟩

theorem survives_cond : (Value.cond none).Survives 7 record := ⟨rfl, rfl⟩

theorem survives_timer {c : TimerCfg} (parsed : parseFields (layout 10 record) bs = some raw) (taken : timerOfRaw raw = some c)
    (other : timerRaw c ≠ raw) : (Value.timer c).Survives 10 record := by
  obtain ⟨cf, ok, on, du, rfl, sent, back⟩ := (timerOfRaw_spec taken).resolve_left other
  refine ⟨?_, congrArg (Option.map Value.timer) back⟩
  change parseFields (layout 10 record) (encodeFields (layout 10 record) (timerRaw c)) = some (timerRaw c)
  rw [sent]
  exact parseFields_two_sixty parsed

/-- A record is told by its fields, but for fields that hold nothing in it; and then it survives. -/
theorem raw_of_taken (parsed : parseFields (layout table record) bs = some raw) (taken : valueOfRaw table record raw = some v) :
    v.raw = raw ∨ v.Survives table record := by
  have told {α : Type} {o : Option α} {make : α → Value} (taken : o.map make = some v)
      (eq : ∀ c, o = some c → (make c).raw = raw) : v.raw = raw ∨ v.Survives table record := by
    obtain ⟨c, is, rfl⟩ := Option.map_eq_some_iff.1 taken
    exact .inl (eq c is)
  unfold valueOfRaw at taken
  split at taken
  · split at taken
    · exact told taken fun c is => congrArg (· :: []) (rawOpt_of_taken is)
    · cases taken
  · exact told taken fun c is => linkRaw_of_taken is
  · exact told taken fun c is => bellRaw_of_taken is
  · split at taken
    · exact told taken fun c is => congrArg (· :: []) (rawBool_of_taken is)
    · cases taken
  · obtain ⟨c, is, rfl⟩ := Option.map_eq_some_iff.1 taken
    exact (windowRaw_of_taken is).imp id fun holds_none => by rw [holds_none]; exact survives_window
  · exact told taken fun c is => leverRaw_of_taken is
  · obtain ⟨c, is, rfl⟩ := Option.map_eq_some_iff.1 taken
    exact (condRaw_of_taken is).imp id fun holds_none => by rw [holds_none]; exact survives_cond
  · exact told taken fun c is => trackRaw_of_taken is
  · exact told taken fun c is => holdRaw_of_taken is
  · obtain ⟨c, is, rfl⟩ := Option.map_eq_some_iff.1 taken
    by_cases same : timerRaw c = raw
    · exact .inl same
    · exact .inr (survives_timer parsed is same)
  · split at taken
    · exact told taken fun c is => inbRaw_of_taken is
    · exact told taken fun c is => outbRaw_of_taken is
  · exact told taken fun c is => codeRaw_of_taken is
  · exact told taken fun c is => reactionRaw_of_taken is
  · cases taken

/-- Settles O15: a table record taken by WRITE TABLE survives its encoding. -/
theorem tableRecordsSurviveTheirEncoding : Obligations.TableRecordsSurviveTheirEncoding := by
  unfold Obligations.TableRecordsSurviveTheirEncoding
  intro table record fields raw v parsed taken
  rcases raw_of_taken parsed taken with same | survives
  · rw [same, encodeFields_of_parse parsed]
    exact ⟨parsed, taken⟩
  · exact survives

end Sys2Proof.Machine
end

section
/-! O17: link frames are heard as sent (R138). -/

set_option Elab.async false

namespace Sys2Proof.Machine

variable {s : State} {k n own : Nat} {f : FrameType} {items : List Item} {i : Item} {t a c ch : Byte} {rest done chars : List Byte}
  {l : Link} {cfg : LinkCfg} {now last : Time}

/-! ### Bytes of items -/

theorem toNat_byte (small : n ≤ 255) : (byte n).toNat = n := by
  rw [byte, BitVec.toNat_ofNat]
  omega

theorem itemOfBytes_bytes (sound : i.Sound) : ∃ a b c d, i.bytes = [a, b, c, d]
    ∧ itemOfBytes a.toNat b.toNat c.toNat d.toNat = some i := by
  cases i with
  | stroke code g n u =>
    obtain ⟨code_range, first, last, low, high⟩ := sound
    refine ⟨_, _, _, _, rfl, ?_⟩
    rw [toNat_byte (n := n) (by omega), toNat_byte (n := u) (by omega)]
    cases g with
    | false =>
      have at_code : (byte (code + if false = true then 128 else 0)).toNat = code := toNat_byte (n := code) (by omega)
      have left : code % 128 = code := by omega
      have low_code : ¬ 128 ≤ code := by omega
      rw [at_code]
      simp [itemOfBytes, left, code_range, first, last, low, high, low_code]
    | true =>
      have at_code : (byte (code + if true = true then 128 else 0)).toNat = code + 128 :=
        toNat_byte (n := code + 128) (by omega)
      have left : (code + 128) % 128 = code := by omega
      rw [at_code]
      simp [itemOfBytes, left, code_range, first, last, low, high]
  | codeEnd code n g =>
    obtain ⟨code_range, first, last⟩ := sound
    refine ⟨_, _, _, _, rfl, ?_⟩
    rw [toNat_byte (n := code) (by omega), toNat_byte (n := n) (by omega)]
    cases g <;> simp [itemOfBytes, code_range, first, last]
  | indication a b g =>
    refine ⟨_, _, _, _, rfl, ?_⟩
    cases a <;> cases b <;> cases g <;> rfl

theorem flatMap_bytes_length (sound : ∀ i ∈ items, i.Sound) : (items.flatMap Item.bytes).length = 4 * items.length := by
  induction items with
  | nil => rfl
  | cons i items ih =>
    obtain ⟨a, b, c, d, is, -⟩ := itemOfBytes_bytes (sound i List.mem_cons_self)
    rw [List.flatMap_cons, List.length_append, ih fun j mem => sound j (List.mem_cons_of_mem i mem), is, List.length_cons]
    simp only [List.length_cons, List.length_nil]
    omega

theorem itemsOf_bytes (sound : ∀ i ∈ items, i.Sound) : itemsOf (items.flatMap Item.bytes) = items := by
  induction items with
  | nil => rfl
  | cons i items ih =>
    obtain ⟨a, b, c, d, is, back⟩ := itemOfBytes_bytes (sound i List.mem_cons_self)
    rw [List.flatMap_cons, is]
    change (itemOfBytes a.toNat b.toNat c.toNat d.toNat).toList ++ itemsOf (items.flatMap Item.bytes) = _
    rw [back, ih fun j mem => sound j (List.mem_cons_of_mem i mem)]
    rfl

/-! ### The beginnings of a frame -/

/-- Characters from TYPE on that make a frame, by their number. -/
structure FrameChars (t c : Byte) (rest : List Byte) : Prop where
  type : ∃ ty, FrameType.ofCode t.toNat = some ty ∧ countFits ty c.toNat = true
  length : rest.length = 4 * c.toNat + 1

/-- Every beginning of a frame is one. -/
theorem FrameChars.still (h : FrameChars t c rest) (n : Nat) : stillFrame ((t :: a :: c :: rest).take n) = true := by
  obtain ⟨⟨ty, code, fits⟩, length⟩ := h
  match n with
  | 0 => rfl
  | 1 | 2 => simp only [List.take, stillFrame, code]
  | n + 3 =>
    have short : (rest.take n).length ≤ 4 * c.toNat + 1 := by rw [List.length_take, length]; omega
    simp only [List.take, stillFrame, code, fits, short, decide_true, Bool.and_self]

/-- A beginning of a frame has not come to its CHECK. -/
theorem FrameChars.unended (h : FrameChars t c rest) (n : Nat) (short : n < (t :: a :: c :: rest).length) :
    frameEnded ((t :: a :: c :: rest).take n) = false := by
  match n with
  | 0 | 1 | 2 => rfl
  | n + 3 =>
    have before : (rest.take n).length ≠ 4 * c.toNat + 1 := by
      have length := h.length
      simp only [List.length_cons] at short
      rw [List.length_take]
      omega
    simpa only [List.take, frameEnded, beq_eq_false_iff_ne] using before

theorem FrameChars.ended (h : FrameChars t c rest) : frameEnded (t :: a :: c :: rest) = true := by
  simp only [frameEnded, h.length, beq_self_eq_true]

/-! ### Characters heard one after another -/

theorem joinChar_of_open (assembling : l.assembling = some (done, last)) (is_open : frameEnded done = false)
    (goes_on : stillFrame (done ++ [ch]) = true) :
    (Link.joinChar cfg now l ch).assembling = some (done ++ [ch], now) := by
  simp only [Link.joinChar, assembling, is_open, goes_on, Bool.false_eq_true, if_false, if_true]

/-- The characters of a frame from a beginning on are joined to it. -/
theorem foldl_joinChar (assembling : l.assembling = some (done, last))
    (each : ∀ n, n < rest.length → frameEnded (done ++ rest.take n) = false
      ∧ stillFrame (done ++ rest.take (n + 1)) = true) :
    ∃ later, (rest.foldl (Link.joinChar cfg now) l).assembling = some (done ++ rest, later) := by
  induction rest generalizing l done last with
  | nil => exact ⟨last, by rw [List.append_nil]; exact assembling⟩
  | cons ch rest ih =>
    obtain ⟨is_open, goes_on⟩ := each 0 (by simp)
    have joined := joinChar_of_open (cfg := cfg) (now := now) assembling (by simpa using is_open) (by simpa using goes_on)
    obtain ⟨later, is⟩ := ih joined fun n short => by
      have := each (n + 1) (by simpa using short)
      simpa using this
    exact ⟨later, by rw [List.foldl_cons, is]; simp⟩

/-- A receiver that assembles no frame, or whose frame has ended or been broken. -/
def Link.Hunts (l : Link) : Prop := l.assembling = none ∨ ∃ chars last, l.assembling = some (chars, last) ∧ frameEnded chars = true

theorem joinChar_of_hunting (hunts : l.Hunts) :
    (Link.joinChar cfg now l startChar).assembling = some ([], now) := by
  rcases hunts with idle | ⟨chars, last, assembling, ended⟩
  · simp only [Link.joinChar, idle, Link.huntChar, if_true]
  · simp only [Link.joinChar, assembling, ended, Link.huntChar, if_true]

/-- A receiver hunts once the pause before the characters has been taken (R138, step 3). -/
theorem takePause_hunts (quiet : l.assembling = none ∨ ∃ chars last, l.assembling = some (chars, last)
      ∧ (frameEnded chars = true ∨ 6 * (last + 15) + 25 * (n - 1) < 6 * now)) :
    (l.takePause cfg now n).Hunts := by
  rcases quiet with idle | ⟨chars, last, assembling, passed⟩
  · have unpaused : l.paused now n = false := by simp only [Link.paused, idle]
    simp only [Link.takePause, unpaused, Bool.false_eq_true, if_false]
    exact .inl idle
  · cases ended : frameEnded chars with
    | true =>
      have unpaused : l.paused now n = false := by simp [Link.paused, assembling, ended]
      simp only [Link.takePause, unpaused, Bool.false_eq_true, if_false]
      exact .inr ⟨chars, last, assembling, ended⟩
    | false =>
      have late := passed.resolve_left (by simp [ended])
      have paused : l.paused now n = true := by simp [Link.paused, assembling, ended, late]
      simp only [Link.takePause, paused, if_true]
      exact .inl rfl

theorem takeChars_of_frame (h : FrameChars t c rest)
    (quiet : l.assembling = none ∨ ∃ chars last, l.assembling = some (chars, last)
      ∧ (frameEnded chars = true ∨ 6 * (last + 15) + 25 * ((startChar :: t :: a :: c :: rest).length - 1) < 6 * now)) :
    (l.takeChars cfg now (startChar :: t :: a :: c :: rest)).frameHeld = some (t :: a :: c :: rest) := by
  have begun := joinChar_of_hunting (cfg := cfg) (now := now) (takePause_hunts (cfg := cfg) quiet)
  obtain ⟨later, is⟩ := foldl_joinChar (cfg := cfg) (now := now) (rest := t :: a :: c :: rest) begun
    fun n short => ⟨h.unended n short, h.still (n + 1)⟩
  have assembled : (l.takeChars cfg now (startChar :: t :: a :: c :: rest)).assembling = some (t :: a :: c :: rest, later) := is
  simp only [Link.frameHeld, assembled, h.ended, if_true]

/-! ### The characters of a frame -/

theorem FrameType.ofCode_code (f : FrameType) : FrameType.ofCode (byte f.code).toNat = some f := by
  cases f <;> rfl

theorem count_small (fits : countFits f n = true) : n ≤ 8 := by
  unfold countFits at fits
  split at fits
  · simp only [Bool.and_eq_true, decide_eq_true_eq] at fits
    exact fits.2
  · have zero : n = 0 := by simpa using fits
    omega

/-- The CHECK of a frame. -/
def frameCheck (f : FrameType) (own : Nat) (items : List Item) : Byte :=
  xorAll (byte f.code :: byte own :: byte items.length :: items.flatMap Item.bytes)

theorem frameBytes_tail (f : FrameType) (own : Nat) (items : List Item) : (frameBytes f own items).tail
    = byte f.code :: byte own :: byte items.length :: (items.flatMap Item.bytes ++ [frameCheck f own items]) := rfl

section
variable (sound : ∀ i ∈ items, i.Sound) (fits : countFits f items.length = true)
include sound fits

theorem frameChars_of_frame :
    FrameChars (byte f.code) (byte items.length) (items.flatMap Item.bytes ++ [frameCheck f own items]) := by
  have count := toNat_byte (n := items.length) (by have := count_small fits; omega)
  refine ⟨⟨f, f.ofCode_code, by rwa [count]⟩, ?_⟩
  rw [count, List.length_append, flatMap_bytes_length sound]
  rfl

theorem hear_frame (small : own ≤ 255) : hear (frameBytes f own items).tail = .whole f own items := by
  have count := toNat_byte (n := items.length) (by have := count_small fits; omega)
  have length := (frameChars_of_frame (own := own) sound fits).length
  rw [frameBytes_tail]
  simp only [hear, f.ofCode_code, length, bne_self_eq_false, count, fits, Bool.not_true, Bool.or_self,
    Bool.false_eq_true, if_false, List.dropLast_concat, List.getLastD_concat, toNat_byte small, itemsOf_bytes sound]
  exact if_pos rfl

end

/-- Settles O17: link frames are heard as sent. -/
theorem linkFramesAreHeardAsSent : Obligations.LinkFramesAreHeardAsSent := by
  unfold Obligations.LinkFramesAreHeardAsSent
  refine ⟨fun f own items small sound fits => ⟨hear_frame sound fits small, fun n _ => ?_, fun l c now quiet => ?_⟩,
    fun s k => ⟨fun idle => by simp [lineFrame, idle], fun f own items sending identity small is sound fits => ?_⟩⟩
  · rw [frameBytes_tail]
    exact (frameChars_of_frame sound fits).still n
  · exact takeChars_of_frame (frameChars_of_frame sound fits) quiet
  · refine ⟨(frameBytes f own items).tail, ?_, hear_frame sound fits small⟩
    simp only [lineFrame, sending, identity, Option.map_some, Option.getD_some, ← is]
    rfl

end Sys2Proof.Machine
end

section
/-! Far states and departures of an outbound line (R126, R127, R130). -/

set_option Elab.async false

namespace Sys2Proof.Machine

variable {s u v : State} {k c : Nat} {far st new : LineState} {service through : Bool} {lost : Option ClearLostCause}
  {g h : Outbound → Outbound} {r q : Register} {old next : TrackState}

/-! ### A change of one outbound line, with the register -/

/-- One outbound line is changed, and the register becomes the one given. -/
structure Shifts (k : Nat) (s u : State) (g : Outbound → Outbound) (r : Register) : Prop where
  lines : u.outbound = modAt s.outbound {} k g
  register : u.register = r

theorem Shifts.outb (m : Shifts k s u g r) (here : within k s.outbound.length = true) : u.outb k = g (s.outb k) := by
  rw [State.outb, m.lines, nth_modAt, if_pos ⟨rfl, here⟩]
  rfl

theorem Shifts.others (m : Shifts k s u g r) : OtherOutbound k s u := fun j other => by
  rw [State.outb, m.lines, nth_modAt, if_neg fun own => other own.1]
  rfl

theorem Shifts.refl (k : Nat) (s : State) : Shifts k s s id s.register := ⟨(modAt_self _ _ _ _ rfl).symm, rfl⟩

theorem Shifts.trans (m : Shifts k s u g r) (n : Shifts k u v h q) : Shifts k s v (h ∘ g) q :=
  ⟨by rw [n.lines, m.lines, modAt_modAt], n.register⟩

theorem shifts_changeOutb (k : Nat) (g : Outbound → Outbound) (s : State) :
    Shifts k s (changeOutb k g s) g s.register :=
  ⟨changeOutb_outbound k g s, when_keeps (I := fun u => u.register = s.register) _ id rfl⟩

theorem shifts_modOutb (k : Nat) (g : Outbound → Outbound) (s : State) : Shifts k s (s.modOutb k g) g s.register :=
  ⟨rfl, rfl⟩

def Outbound.guarded (b : Bool) (o : Outbound) : Outbound := { o with guard := b }
def Outbound.unrefused (o : Outbound) : Outbound := { o with refusedFar := none }
def Outbound.refusing (far : LineState) (o : Outbound) : Outbound := { o with refusedFar := some far }

theorem shifts_setGuard (k : Nat) (b : Bool) (s : State) : Shifts k s (setGuard k b s) (Outbound.guarded b) s.register :=
  shifts_changeOutb k _ s

theorem changeOutb_now (k : Nat) (g : Outbound → Outbound) (s : State) : (changeOutb k g s).now = s.now :=
  when_keeps (I := fun u => u.now = s.now) _ id rfl

/-- The record after a change of state, at a time (R126). -/
def Outbound.movedAt (new : LineState) (through : Bool) (now : Time) (o : Outbound) : Outbound :=
  { o.moveTo new through with refusedFar := none, lastChange := some now }

/-- The entry of a change of state (R126, R128). -/
def moveEntry (k : Nat) (new : LineState) (lost : Option ClearLostCause) (old : Option LineState)
    (accepted : Option Accepted) : Event :=
  lost.elim (.lineState (2 * k) old new accepted) (.clearLost (2 * k))

theorem shifts_setOutbound (here : within k s.outbound.length = true) :
    Shifts k s (setOutbound k new through lost s) (Outbound.movedAt new through s.now)
      (s.register.append (moveEntry k new lost (s.outb k).state ((s.outb k).moveTo new through).accepted)) := by
  have changed := shifts_changeOutb k (Outbound.movedAt new through s.now) s
  have accepted : ((changeOutb k (Outbound.movedAt new through s.now) s).outb k).accepted
      = ((s.outb k).moveTo new through).accepted := congrArg (·.accepted) (changed.outb here)
  have later (a b : Bool) (e : Event) (w : State) : Moves [.evaluate, .note, .inb] (append e w)
      (evalCoils k (evaluateLine (2 * k) (when b (grantAllowances (2 * k))
        (when a (withdrawAllowances true (2 * k)) (append e w))))) :=
    (((Moves.refl.to_when _ fun _ => Moves.refl.to_withdrawAllowances _ _).to_when _
      fun _ => Moves.refl.to_grantAllowances _).to_evaluateLine _).to_evalCoils k
  have entered (cause : Option ClearLostCause) : setOutbound k new through cause s
      = evalCoils k (evaluateLine (2 * k) (when ((s.outb k).state != some .clear && new == .clear) (grantAllowances (2 * k))
        (when ((s.outb k).state == some .clear && new != .clear) (withdrawAllowances true (2 * k))
          (append (moveEntry k new cause (s.outb k).state
            ((changeOutb k (Outbound.movedAt new through s.now) s).outb k).accepted)
            (changeOutb k (Outbound.movedAt new through s.now) s))))) := by
    cases cause <;> rfl
  rw [entered, accepted]
  refine ⟨((later _ _ _ _).exactly .outbound).trans changed.lines, ((later _ _ _ _).exactly .register).trans ?_⟩
  rw [← changed.register]
  rfl

/-- The register after a far state has been refused (R126). -/
def refusedRegister (k : Nat) (far : LineState) (s : State) : Register :=
  if (s.outb k).refusedFar = some far then s.register else s.register.append (.conflict (2 * k) far)

theorem shifts_refuseFar (k : Nat) (far : LineState) (s : State) :
    Shifts k s (refuseFar k far s) (Outbound.refusing far) (refusedRegister k far s) := by
  unfold refuseFar refusedRegister
  split
  · next refused =>
    refine ⟨(modAt_self _ _ _ _ ?_).symm, rfl⟩
    exact (congrArg (fun x => { s.outb k with refusedFar := x }) refused.symm).trans rfl
  · exact ⟨rfl, rfl⟩

/-! ### Far states (R126) -/

section
variable (here : within k s.outbound.length = true)

theorem takeFarState_of_none (state : (s.outb k).state = none) : takeFarState k far service s = s := by
  simp only [takeFarState, state]

theorem shifts_blocked_blocked (state : (s.outb k).state = some .blocked) :
    Shifts k s (takeFarState k .blocked service s) (Outbound.unrefused ∘ Outbound.guarded false) s.register := by
  have eq : takeFarState k .blocked service s = (setGuard k false s).modOutb k Outbound.unrefused := by
    simp only [takeFarState, state]
    rfl
  rw [eq]
  exact (shifts_setGuard k false s).trans ((shifts_setGuard k false s).register ▸ shifts_modOutb k _ _)

include here

theorem shifts_blocked (state : (s.outb k).state = some st) (on : st ≠ .blocked) :
    Shifts k s (takeFarState k .blocked service s) (Outbound.movedAt .blocked false s.now ∘ Outbound.guarded false)
      (s.register.append (.lineState (2 * k) (some st) .blocked none)) := by
  have eq : takeFarState k .blocked service s = setOutbound k .blocked false none (setGuard k false s) := by
    cases st with
    | blocked => exact absurd rfl on
    | clear | occupied => simp only [takeFarState, state]
  have cleared := shifts_setGuard k false s
  have moved := shifts_setOutbound (s := setGuard k false s) (k := k) (new := .blocked) (through := false) (lost := none)
    (by rw [cleared.lines, length_modAt]; exact here)
  rw [cleared.register, cleared.outb here] at moved
  have now : (setGuard k false s).now = s.now := changeOutb_now ..
  have old : ((s.outb k).guarded false).state = some st := state
  rw [now, old] at moved
  rw [eq]
  exact cleared.trans moved

theorem shifts_clear_lost (state : (s.outb k).state = some .clear) :
    Shifts k s (takeFarState k .clear false s) (Outbound.guarded true ∘ Outbound.movedAt .blocked false s.now)
      (s.register.append (.clearLost (2 * k) .notInService)) := by
  have eq : takeFarState k .clear false s = setGuard k true (setOutbound k .blocked false (some .notInService) s) := by
    simp only [takeFarState, state]
    rfl
  have moved := shifts_setOutbound (k := k) (s := s) (new := .blocked) (through := false) (lost := some .notInService) here
  rw [eq]
  exact moved.trans (moved.register ▸ shifts_setGuard k true _)

theorem shifts_clear_occupied (state : (s.outb k).state = some .clear) :
    Shifts k s (takeFarState k .occupied service s) (Outbound.movedAt .occupied true s.now)
      (s.register.append (.lineState (2 * k) (some .clear) .occupied none)) := by
  have eq : takeFarState k .occupied service s = setOutbound k .occupied true none s := by simp only [takeFarState, state]
  rw [eq, ← state]
  exact shifts_setOutbound here

section
variable (guard : (s.outb k).guard = false) (free : excluded s k = false)
include guard free

theorem shifts_blocked_clear (state : (s.outb k).state = some .blocked) :
    Shifts k s (takeFarState k .clear true s) (Outbound.movedAt .clear false s.now)
      (s.register.append (.lineState (2 * k) (some .blocked) .clear ((s.outb k).moveTo .clear false).accepted)) := by
  have eq : takeFarState k .clear true s = setOutbound k .clear false none s := by
    simp only [takeFarState, state, guard, free, Bool.not_false, Bool.and_self, if_true]
  rw [eq, ← state]
  exact shifts_setOutbound here

theorem shifts_occupied_clear (state : (s.outb k).state = some .occupied) :
    Shifts k s (takeFarState k .clear true s) (Outbound.movedAt .clear true s.now)
      (s.register.append (.lineState (2 * k) (some .occupied) .clear ((s.outb k).moveTo .clear true).accepted)) := by
  have eq : takeFarState k .clear true s = setOutbound k .clear true none s := by
    simp only [takeFarState, state, guard, free, Bool.not_false, Bool.and_self, if_true]
  rw [eq, ← state]
  exact shifts_setOutbound here

end

section
variable (doubted : (s.outb k).guard = true ∨ service = false ∨ excluded s k = true)
include doubted

omit here in
theorem disbelieved : (!(s.outb k).guard && service && !excluded s k) = false := by
  rcases doubted with guard | service | barred
  · rw [guard]
    rfl
  · rw [service, Bool.and_false, Bool.false_and]
  · rw [barred, Bool.not_true, Bool.and_false]

omit here in
theorem shifts_blocked_doubted (state : (s.outb k).state = some .blocked) :
    Shifts k s (takeFarState k .clear service s) (Outbound.refusing .clear) (refusedRegister k .clear s) := by
  have eq : takeFarState k .clear service s = refuseFar k .clear s := by
    simp only [takeFarState, state, disbelieved doubted, Bool.false_eq_true, if_false]
  rw [eq]
  exact shifts_refuseFar ..

theorem shifts_occupied_doubted (state : (s.outb k).state = some .occupied) :
    ∃ r, Shifts k s (takeFarState k .clear service s) (Outbound.refusing .clear ∘ Outbound.movedAt .blocked false s.now) r := by
  have eq : takeFarState k .clear service s = refuseFar k .clear (setOutbound k .blocked false none s) := by
    simp only [takeFarState, state, disbelieved doubted, Bool.false_eq_true, if_false]
  rw [eq]
  exact ⟨_, (shifts_setOutbound here).trans (shifts_refuseFar k .clear _)⟩

end

omit here in
theorem shifts_blocked_barred (state : (s.outb k).state = some .blocked) (barred : excluded s k = true) :
    Shifts k s (takeFarState k .occupied service s) (Outbound.refusing .occupied) (refusedRegister k .occupied s) := by
  have eq : takeFarState k .occupied service s = refuseFar k .occupied s := by
    simp only [takeFarState, state, barred, if_true]
  rw [eq]
  exact shifts_refuseFar ..

theorem shifts_blocked_occupied (state : (s.outb k).state = some .blocked) (free : excluded s k = false) :
    ∃ r, Shifts k s (takeFarState k .occupied service s) (Outbound.movedAt .occupied false s.now) r := by
  have eq : takeFarState k .occupied service s = setOutbound k .occupied false none s := by
    simp only [takeFarState, state, free, Bool.false_eq_true, if_false]
  rw [eq]
  exact ⟨_, shifts_setOutbound here⟩

omit here in
theorem takeFarState_of_still (still : (s.outb k).state = some .clear ∧ far = .clear ∧ service = true
      ∨ (s.outb k).state = some .occupied ∧ far = .occupied) : takeFarState k far service s = s := by
  rcases still with ⟨state, rfl, rfl⟩ | ⟨state, rfl⟩
  · simp only [takeFarState, state, if_true]
  · simp only [takeFarState, state]

/-- A far state moves one outbound line alone. -/
theorem takeFarState_others : OtherOutbound k s (takeFarState k far service s) := by
  have none_moved : OtherOutbound k s s := fun _ _ => rfl
  cases state : (s.outb k).state with
  | none => rw [takeFarState_of_none state]; exact none_moved
  | some st =>
    have doubt (service : Bool) : ((s.outb k).guard = true ∨ service = false ∨ excluded s k = true)
        ∨ ((s.outb k).guard = false ∧ service = true ∧ excluded s k = false) := by
      cases (s.outb k).guard <;> cases service <;> cases excluded s k <;> simp
    cases far with
    | blocked =>
      by_cases on : st = .blocked
      · exact (shifts_blocked_blocked (on ▸ state)).others
      · exact (shifts_blocked here state on).others
    | clear =>
      cases st with
      | blocked =>
        rcases doubt service with doubted | ⟨guard, rfl, free⟩
        · exact (shifts_blocked_doubted doubted state).others
        · exact (shifts_blocked_clear here guard free state).others
      | clear =>
        cases service with
        | false => exact (shifts_clear_lost here state).others
        | true => rw [takeFarState_of_still (.inl ⟨state, rfl, rfl⟩)]; exact none_moved
      | occupied =>
        rcases doubt service with doubted | ⟨guard, rfl, free⟩
        · obtain ⟨_, moved⟩ := shifts_occupied_doubted here doubted state
          exact moved.others
        · exact (shifts_occupied_clear here guard free state).others
    | occupied =>
      cases st with
      | blocked =>
        cases barred : excluded s k with
        | true => exact (shifts_blocked_barred state barred).others
        | false =>
          obtain ⟨_, moved⟩ := shifts_blocked_occupied here state barred
          exact moved.others
      | clear => exact (shifts_clear_occupied here state).others
      | occupied => rw [takeFarState_of_still (.inr ⟨state, rfl⟩)]; exact none_moved

end

end Sys2Proof.Machine
end

section
/-! O44: far states, departures and the meanings of codes move the lines (R126, R129, R130, R108 to R110). -/

set_option Elab.async false

namespace Sys2Proof.Machine

variable {s u v w : State} {k c j line number : Nat} {far st new : LineState} {service garbled : Bool} {r q : Register}
  {old next : TrackState} {pattern : List Nat} {rules : List CodeRule} {m : Meaning × Option Nat} {e : Expectation}
  {cls : Option Nat}

/-! ### Departures (R130) -/

/-- The record of a line whose departure circuit has been taken, at a time (R130). -/
def Outbound.departs (overdue : Nat) (now : Time) (o : Outbound) : Outbound :=
  { o with departureSeen := true, overdueAt := if o.entering then o.overdueAt else some (now + overdue * 1000) }

theorem departureCircuit_of_seen (departure : (s.tables.outb k).departure = some c) (left : old = .clear) (taken : next = .occupied)
    (clear : (s.outb k).state = some .clear) (fresh : (s.outb k).departureSeen = false) :
    departureCircuit c old next k s = changeOutb k (Outbound.departs (s.tables.outb k).overdue s.now) s :=
  if_pos ⟨departure, left, taken, clear, fresh⟩

theorem departureCircuit_of_other (other : (s.tables.outb k).departure ≠ some c ∨ old ≠ .clear ∨ next ≠ .occupied
      ∨ (s.outb k).state ≠ some .clear ∨ (s.outb k).departureSeen = true) :
    departureCircuit c old next k s = s := by
  refine if_neg fun all => ?_
  obtain ⟨departure, left, taken, clear, fresh⟩ := all
  rcases other with h | h | h | h | h
  · exact h departure
  · exact h left
  · exact h taken
  · exact h clear
  · exact Bool.false_ne_true (fresh.symm.trans h)

/-! ### Meanings (R129) -/

theorem meaningAcknowledged_outbound (k : Nat) (x : Meaning) (cls : Option Nat) (s : State) :
    (x = .offer → Shifts k s (meaningAcknowledged k x cls s)
        (fun o => { o with offered := if (s.outb k).state = some .blocked then cls else o.offered }) s.register)
      ∧ (x = .cancel → Shifts k s (meaningAcknowledged k x cls s) (fun o => { o with offered := none }) s.register)
      ∧ (x ≠ .offer → x ≠ .cancel → meaningAcknowledged k x cls s = s) := by
  refine ⟨?_, ?_, fun no_offer no_cancel => ?_⟩
  · rintro rfl
    by_cases blocked : (s.outb k).state = some .blocked
    · have eq : meaningAcknowledged k .offer cls s = changeOutb k (fun o => { o with offered := cls }) s := if_pos blocked
      simp only [eq, if_pos blocked]
      exact shifts_changeOutb ..
    · have eq : meaningAcknowledged k .offer cls s = s := if_neg blocked
      simp only [eq, if_neg blocked]
      exact .refl k s
  · rintro rfl
    exact shifts_changeOutb ..
  · cases x with
    | offer => exact absurd rfl no_offer
    | cancel => exact absurd rfl no_cancel
    | _ => rfl

theorem moves_meaningAcknowledged (k : Nat) (x : Meaning) (cls : Option Nat) (s : State) :
    Moves [.note, .outb] s (meaningAcknowledged k x cls s) := Moves.refl.to_meaningAcknowledged k x cls

theorem moves_meaningReceived (k : Nat) (x : Meaning) (cls : Option Nat) (s : State) :
    Moves [.note, .evaluate, .inb] s (meaningReceived k x cls s) := Moves.refl.to_meaningReceived k x cls

/-- The record of a lever whose line's allowances are withdrawn by an OBSTRUCTION (R66, R129). -/
def Lever.obstructed (l : Lever) : Lever :=
  { l with allowance := some false, held := if l.held == some .normal && l.allowance == some true then none else l.held }

theorem withdrawAllowances_false (inside : within j 64 = true) (length : s.levers.length = 64) :
    ((withdrawAllowances false line s).lever j).allowance
      = if (s.lever j).type = .signal ∧ (s.lever j).blockLine = some line then some false else (s.lever j).allowance := by
  have withdrawn := forEach_changeLever (g := Lever.obstructed) (k := j) (signalsOn_nodup s line) (fun _ => rfl)
    (here_of_within 64 inside length)
  have withdraws : withdrawAllowances false line s
      = forEach (signalsOn s line) (fun n u => evaluate n (changeLever n Lever.obstructed u)) s := by
    refine congrArg (fun f => forEach (signalsOn s line) f s) (funext fun n => funext fun u => ?_)
    refine congrArg (evaluate n) (changeLever_congr ?_)
    simp [Lever.obstructed]
  simp only [mem_signalsOn inside] at withdrawn
  rw [← withdraws] at withdrawn
  refine (congrArg (·.allowance) withdrawn).trans ?_
  split <;> rfl

/-- What a fresh received code's meaning does to the inbound line and to the levers (R129). -/
theorem meaningReceived_spec (here : within k s.inbound.length = true) (levers : s.levers.length = 64) (x : Meaning)
    (cls : Option Nat) : OtherInbound k s (meaningReceived k x cls s)
      ∧ (x = .offer → ((meaningReceived k x cls s).inb k).offered
          = (if (s.inb k).state = some .blocked then cls else (s.inb k).offered)
        ∧ (meaningReceived k x cls s).levers = s.levers)
      ∧ (x = .cancel → ((meaningReceived k x cls s).inb k).offered = none ∧ (meaningReceived k x cls s).levers = s.levers)
      ∧ (x = .obstruction → (meaningReceived k x cls s).inbound = s.inbound ∧ ∀ j, within j 64 = true →
        ((meaningReceived k x cls s).lever j).allowance
          = if (s.lever j).type = .signal ∧ (s.lever j).blockLine = some (2 * k) then some false else (s.lever j).allowance)
      ∧ (x ≠ .offer → x ≠ .cancel → x ≠ .obstruction →
        (meaningReceived k x cls s).inbound = s.inbound ∧ (meaningReceived k x cls s).levers = s.levers) := by
  have offers (o : Option Nat) : OtherInbound k s (evalCoils k (changeInb k (fun i => { i with offered := o }) s))
      ∧ ((evalCoils k (changeInb k (fun i => { i with offered := o }) s)).inb k).offered = o
      ∧ (evalCoils k (changeInb k (fun i => { i with offered := o }) s)).levers = s.levers := by
    refine ⟨(otherInbound_of_modAt (changeInb_inbound k _ s)).trans (evalCoils_other k _), ?_,
      ((moves_changeInb k _ s).to_evalCoils k).exactly .levers⟩
    rw [evalCoils_inb (by rwa [changeInb_length]), changeInb_inb here]
    rfl
  have same : OtherInbound k s s := fun _ _ => rfl
  cases x with
  | offer =>
    by_cases blocked : (s.inb k).state = some .blocked
    · have eq : meaningReceived k .offer cls s = evalCoils k (changeInb k (fun i => { i with offered := cls }) s) := if_pos blocked
      obtain ⟨others, offered, levers⟩ := offers cls
      rw [eq, if_pos blocked]
      exact ⟨others, fun _ => ⟨offered, levers⟩, fun h => (nomatch h), fun h => (nomatch h), fun h => absurd rfl h⟩
    · have eq : meaningReceived k .offer cls s = s := if_neg blocked
      rw [eq, if_neg blocked]
      exact ⟨same, fun _ => ⟨rfl, rfl⟩, fun h => (nomatch h), fun h => (nomatch h), fun h => absurd rfl h⟩
  | cancel =>
    obtain ⟨others, offered, levers⟩ := offers none
    exact ⟨others, fun h => (nomatch h), fun _ => ⟨offered, levers⟩, fun h => (nomatch h), fun _ h => absurd rfl h⟩
  | obstruction =>
    have kept : (withdrawAllowances false (2 * k) s).inbound = s.inbound :=
      (Moves.refl.to_withdrawAllowances (ks := [.evaluate]) false (2 * k)).exactly .inbound
    refine ⟨fun j _ => congrArg (fun l : List Inbound => nth l {} j) kept, fun h => (nomatch h), fun h => (nomatch h),
      fun _ => ⟨kept, fun j inside => withdrawAllowances_false inside levers⟩, fun _ _ h => absurd rfl h⟩
  | _ => exact ⟨same, fun h => (nomatch h), fun h => (nomatch h), fun h => (nomatch h), fun _ _ _ => ⟨rfl, rfl⟩⟩

/-! ### The end of a received code (R106, R108 to R110) -/

/-- A bell record of which a fresh code has been received, to be answered (R109). -/
def Bell.answering (pattern : List Nat) (now : Time) (b : Bell) : Bell := { b with answerable := some (pattern, now) }

theorem freshReceived_eq (k : Nat) (pattern : List Nat) (m : Meaning × Option Nat) (s : State) :
    freshReceived k pattern false m s
      = noteCode k ((meaningReceived k m.1 m.2 (append (.codeReceived k pattern (some m.1) m.2 false) s)).modBell k
        (Bell.answering pattern (meaningReceived k m.1 m.2 (append (.codeReceived k pattern (some m.1) m.2 false) s)).now)) := rfl

/-- What a fresh code's meaning and entry leave, and the mark that it may be answered. -/
theorem freshReceived_spec (k : Nat) (pattern : List Nat) (m : Meaning × Option Nat) (s : State) :
    (freshReceived k pattern false m s).bells = modAt s.bells {} k (Bell.answering pattern s.now)
      ∧ (freshReceived k pattern false m s).outbound = s.outbound
      ∧ (freshReceived k pattern false m s).register = s.register.append (.codeReceived k pattern (some m.1) m.2 false)
      ∧ (freshReceived k pattern false m s).inbound
        = (meaningReceived k m.1 m.2 (append (.codeReceived k pattern (some m.1) m.2 false) s)).inbound
      ∧ (freshReceived k pattern false m s).levers
        = (meaningReceived k m.1 m.2 (append (.codeReceived k pattern (some m.1) m.2 false) s)).levers := by
  have moves := moves_meaningReceived k m.1 m.2 (append (.codeReceived k pattern (some m.1) m.2 false) s)
  have now : (meaningReceived k m.1 m.2 (append (.codeReceived k pattern (some m.1) m.2 false) s)).now = s.now := moves.now_eq
  have noted (w : State) (g : Bell → Bell) : Moves [.note] (w.modBell k g) (noteCode k (w.modBell k g)) := Moves.refl.to_noteCode k
  rw [freshReceived_eq, now]
  refine ⟨((noted _ _).exactly .bells).trans (congrArg (fun l : List Bell => modAt l {} k (Bell.answering pattern s.now)) (moves.exactly .bells)),
    ((noted _ _).exactly .outbound).trans (moves.exactly .outbound),
    ((noted _ _).exactly .register).trans (moves.exactly .register),
    (noted _ _).exactly .inbound, (noted _ _).exactly .levers⟩

/-- What the end of a received code does, the expectation that stands being given (R109, R110). -/
def closing (k : Nat) (pattern : List Nat) (m : Meaning × Option Nat) (o : Option Expectation) (s : State) : State :=
  o.elim (freshReceived k pattern false m s) fun e =>
    if e.pattern = pattern then
      noteCode k (meaningAcknowledged k e.meaning e.cls (append (.codeAck k e.pattern e.meaning e.cls)
        (s.modBell k Bell.unexpecting)))
    else freshReceived k pattern false m (append (.codeNotRepeated k e.pattern e.meaning e.cls) (s.modBell k Bell.unexpecting))

/-- The state of a code that has ended, before what it means (R106). -/
def codeEnded (k number : Nat) (s : State) : State := s.modBell k (Bell.receivedEnded number s.now)

theorem codeEnded_bell (here : within k s.bells.length = true) :
    (codeEnded k number s).bell k = (s.bell k).receivedEnded number s.now := State.bell_modBell_same s k _ here

theorem closeReceived_eq (k number : Nat) (pattern : List Nat) (rules : List CodeRule) (s : State) :
    closeReceived k number pattern false rules s
      = closing k pattern (matchCode rules false pattern) ((codeEnded k number s).bell k).expectation (codeEnded k number s) := by
  have open_expectation (o : Option Expectation) (is : o = ((codeEnded k number s).bell k).expectation) :
      closeReceived k number pattern false rules s
        = closing k pattern (matchCode rules false pattern) o (codeEnded k number s) := by
    unfold closeReceived
    dsimp only
    rw [show ((s.modBell k fun b => { b with received := none, lastEnded := some (number, s.now) }).bell k).expectation = o
      from is.symm]
    cases o <;> rfl
  exact open_expectation _ rfl

theorem closing_of_ack (repeats : e.pattern = pattern) : closing k pattern m (some e) s
    = noteCode k (meaningAcknowledged k e.meaning e.cls (append (.codeAck k e.pattern e.meaning e.cls)
      (s.modBell k Bell.unexpecting))) := if_pos repeats

theorem closing_of_other (other : e.pattern ≠ pattern) : closing k pattern m (some e) s
    = freshReceived k pattern false m (append (.codeNotRepeated k e.pattern e.meaning e.cls) (s.modBell k Bell.unexpecting)) :=
  if_neg other

end Sys2Proof.Machine
end

section
/-! O44: received codes (R106, R108 to R110, R129), and the statement whole. -/

set_option Elab.async false

namespace Sys2Proof.Machine

variable {s u v w : State} {k c j line number : Nat} {far st new : LineState} {service garbled : Bool} {r q : Register}
  {old next : TrackState} {pattern : List Nat} {rules : List CodeRule} {m : Meaning × Option Nat} {e : Expectation}

/-- What a code timing reload leaves of every bell record, and of all else but the tables. -/
theorem reloadBell_bell (k j : Nat) (s : State) : ((reloadBell k s).bell j).kept = (s.bell j).kept := by
  by_cases still : (s.bell k).staged = [] ∨ codeOpen s k = true
  · rw [reloadBell_of_still still]
  · obtain ⟨pending, closed⟩ := not_or.1 still
    have changed : (reloadBell k s).bells = modAt s.bells {} k Bell.unstaged := by
      rw [reloadBell_of_due pending (Bool.eq_false_iff.2 closed)]
      rfl
    rw [State.bell, State.bell, changed, nth_modAt]
    split
    · next own => rw [own.1]; rfl
    · rfl

theorem endReceived_eq (k number : Nat) (pattern : List Nat) (garbled : Bool) (rules : List CodeRule) (s : State) :
    endReceived k number pattern garbled rules s = reloadBell k (closeReceived k number pattern garbled rules s) := rfl

/-- The bell record of a link whose received code has ended, seen through the reload of its timing. -/
theorem endReceived_bells {g : Bell → Bell} (here : within k s.bells.length = true)
    (changed : (closeReceived k number pattern garbled rules s).bells = modAt s.bells {} k g) :
    OtherBells k s (endReceived k number pattern garbled rules s)
      ∧ ((endReceived k number pattern garbled rules s).bell k).kept = (g (s.bell k)).kept := by
  refine ⟨fun j other => ?_, ?_⟩
  · rw [endReceived_eq, reloadBell_bell, State.bell, changed, nth_modAt, if_neg fun own => other own.1]
    rfl
  · rw [endReceived_eq, reloadBell_bell, State.bell, changed, nth_modAt, if_pos ⟨rfl, here⟩]
    rfl

/-- The parts but the bells and the tables are as the end of the code has left them. -/
theorem endReceived_rest (k number : Nat) (pattern : List Nat) (garbled : Bool) (rules : List CodeRule) (s : State) :
    (endReceived k number pattern garbled rules s).register = (closeReceived k number pattern garbled rules s).register
      ∧ (endReceived k number pattern garbled rules s).inbound = (closeReceived k number pattern garbled rules s).inbound
      ∧ (endReceived k number pattern garbled rules s).outbound = (closeReceived k number pattern garbled rules s).outbound
      ∧ (endReceived k number pattern garbled rules s).levers = (closeReceived k number pattern garbled rules s).levers := by
  have moves := moves_reloadBell k (closeReceived k number pattern garbled rules s)
  exact ⟨moves.exactly .register, moves.exactly .inbound, moves.exactly .outbound, moves.exactly .levers⟩

section
variable (bells : within k s.bells.length = true)
include bells

/-- A GARBLED code (R106, R110). -/
theorem endReceived_garbled : OtherBells k s (endReceived k number pattern true rules s)
    ∧ ((endReceived k number pattern true rules s).bell k).kept = ((s.bell k).receivedEnded number s.now).kept
    ∧ (endReceived k number pattern true rules s).register = s.register.append (.codeReceived k pattern none none true)
    ∧ (endReceived k number pattern true rules s).inbound = s.inbound
    ∧ (endReceived k number pattern true rules s).outbound = s.outbound
    ∧ (endReceived k number pattern true rules s).levers = s.levers := by
  have closed := closeReceived_of_garbled (k := k) number pattern rules s
  obtain ⟨others, own⟩ := endReceived_bells (k := k) (number := number) (pattern := pattern) (garbled := true)
    (rules := rules) (g := Bell.receivedEnded number s.now) bells (by rw [closed]; rfl)
  obtain ⟨register, inbound, outbound, levers⟩ := endReceived_rest k number pattern true rules s
  rw [closed] at register inbound outbound levers
  exact ⟨others, own, register, inbound, outbound, levers⟩

/-- A code that repeats the expectation (R109, R110). -/
theorem endReceived_ack (expected : (s.bell k).expectation = some e) (repeats : e.pattern = pattern) :
    OtherBells k s (endReceived k number pattern false rules s)
    ∧ ((endReceived k number pattern false rules s).bell k).kept = ((s.bell k).receivedEnded number s.now).unexpecting.kept
    ∧ (endReceived k number pattern false rules s).register = s.register.append (.codeAck k e.pattern e.meaning e.cls)
    ∧ (endReceived k number pattern false rules s).inbound = s.inbound
    ∧ (endReceived k number pattern false rules s).levers = s.levers
    ∧ ∃ w, w.outbound = s.outbound
      ∧ (endReceived k number pattern false rules s).outbound = (meaningAcknowledged k e.meaning e.cls w).outbound := by
  have closed : closeReceived k number pattern false rules s
      = noteCode k (meaningAcknowledged k e.meaning e.cls (append (.codeAck k e.pattern e.meaning e.cls)
        ((codeEnded k number s).modBell k Bell.unexpecting))) := by
    have own : ((codeEnded k number s).bell k).expectation = some e := by
      rw [codeEnded_bell bells]
      exact expected
    rw [closeReceived_eq, own, closing_of_ack repeats]
  have means := moves_meaningAcknowledged k e.meaning e.cls (append (.codeAck k e.pattern e.meaning e.cls)
    ((codeEnded k number s).modBell k Bell.unexpecting))
  have noted := means.to_noteCode k
  have changed : (closeReceived k number pattern false rules s).bells
      = modAt s.bells {} k fun b => (b.receivedEnded number s.now).unexpecting := by
    rw [closed, noted.exactly .bells]
    exact modAt_modAt ..
  obtain ⟨others, own⟩ := endReceived_bells bells changed
  obtain ⟨register, inbound, outbound, levers⟩ := endReceived_rest k number pattern false rules s
  rw [closed] at register inbound outbound levers
  refine ⟨others, own, register.trans (noted.exactly .register), inbound.trans (noted.exactly .inbound),
    levers.trans (noted.exactly .levers),
    append (.codeAck k e.pattern e.meaning e.cls) ((codeEnded k number s).modBell k Bell.unexpecting), rfl,
    outbound.trans ?_⟩
  exact (Moves.refl.to_noteCode (ks := [.note]) k).exactly .outbound

/-- A fresh code (R109, R110, R129), after the entry of the expectation that it closes. -/
theorem endReceived_fresh (fresh : ∀ e, (s.bell k).expectation = some e → e.pattern ≠ pattern)
    (matched : m = matchCode rules false pattern) :
    OtherBells k s (endReceived k number pattern false rules s)
    ∧ ((endReceived k number pattern false rules s).bell k).kept
      = ((((s.bell k).receivedEnded number s.now).unexpecting).answering pattern s.now).kept
    ∧ (endReceived k number pattern false rules s).outbound = s.outbound
    ∧ (endReceived k number pattern false rules s).register
      = ((s.bell k).expectation.elim s.register fun e => s.register.append (.codeNotRepeated k e.pattern e.meaning e.cls)).append
        (.codeReceived k pattern (some m.1) m.2 false)
    ∧ ∃ w, w.inbound = s.inbound ∧ w.levers = s.levers
      ∧ (endReceived k number pattern false rules s).inbound = (meaningReceived k m.1 m.2 w).inbound
      ∧ (endReceived k number pattern false rules s).levers = (meaningReceived k m.1 m.2 w).levers := by
  obtain ⟨x, closed, bell, others, outbound, register, inbound, levers, now⟩ : ∃ x,
      closeReceived k number pattern false rules s = freshReceived k pattern false m x
        ∧ x.bells = modAt s.bells {} k (fun b => (b.receivedEnded number s.now).unexpecting)
        ∧ True ∧ x.outbound = s.outbound
        ∧ x.register = (s.bell k).expectation.elim s.register
            (fun e => s.register.append (.codeNotRepeated k e.pattern e.meaning e.cls))
        ∧ x.inbound = s.inbound ∧ x.levers = s.levers ∧ x.now = s.now := by
    have own := codeEnded_bell (s := s) (number := number) bells
    have eq := closeReceived_eq k number pattern rules s
    rw [← matched] at eq
    rw [own] at eq
    cases expected : (s.bell k).expectation with
    | none =>
      have expected : ((s.bell k).receivedEnded number s.now).expectation = none := expected
      rw [expected] at eq
      refine ⟨_, eq, modAt_congr ?_, trivial, rfl, rfl, rfl, rfl, rfl⟩
      exact (congrArg (fun o => { (s.bell k).receivedEnded number s.now with expectation := o }) expected).trans rfl
    | some e =>
      have expected' : ((s.bell k).receivedEnded number s.now).expectation = some e := expected
      rw [expected'] at eq
      exact ⟨_, eq.trans (closing_of_other (fresh e expected)), modAt_modAt .., trivial, rfl, rfl, rfl, rfl, rfl⟩
  obtain ⟨bells', outbound', register', inbound', levers'⟩ := freshReceived_spec k pattern m x
  have changed : (closeReceived k number pattern false rules s).bells
      = modAt s.bells {} k fun b => ((b.receivedEnded number s.now).unexpecting).answering pattern s.now := by
    rw [closed, bells', bell, now]
    exact modAt_modAt ..
  obtain ⟨others, own⟩ := endReceived_bells bells changed
  obtain ⟨reg, inb, out, lev⟩ := endReceived_rest k number pattern false rules s
  rw [closed] at reg inb out lev
  refine ⟨others, own, out.trans (outbound'.trans outbound), reg.trans ?_, append (.codeReceived k pattern (some m.1) m.2 false) x,
    inbound, levers, inb.trans inbound', lev.trans levers'⟩
  rw [register', register]

end

end Sys2Proof.Machine
end

section
/-! O44: the statement whole (R126, R129, R130, R108 to R110). -/

set_option Elab.async false

namespace Sys2Proof.Machine

variable {s u v w : State} {k c j line number : Nat} {far st new : LineState} {service garbled : Bool} {r q : Register}
  {old next : TrackState} {pattern : List Nat} {rules : List CodeRule} {m : Meaning × Option Nat} {e : Expectation}

/-- What every end of a received code leaves (R106). -/
theorem received_common (bells : within k s.bells.length = true) :
    OtherBells k s (endReceived k number pattern garbled rules s)
      ∧ ((endReceived k number pattern garbled rules s).bell k).received = none
      ∧ ((endReceived k number pattern garbled rules s).bell k).lastEnded = some (number, s.now) := by
  cases garbled with
  | true =>
    obtain ⟨others, own, -⟩ := endReceived_garbled (number := number) (pattern := pattern) (rules := rules) bells
    exact ⟨others, congrArg Bell.received own, congrArg Bell.lastEnded own⟩
  | false =>
    by_cases fresh : ∀ e, (s.bell k).expectation = some e → e.pattern ≠ pattern
    · obtain ⟨others, own, -⟩ := endReceived_fresh (number := number) (rules := rules) bells fresh rfl
      exact ⟨others, congrArg Bell.received own, congrArg Bell.lastEnded own⟩
    · push Not at fresh
      obtain ⟨e, expected, repeats⟩ := fresh
      obtain ⟨others, own, -⟩ := endReceived_ack (number := number) (rules := rules) bells expected repeats
      exact ⟨others, congrArg Bell.received own, congrArg Bell.lastEnded own⟩

/-- What the acknowledgement of an own code leaves of the lines (R129). -/
theorem ack_lines (lines : within k s.outbound.length = true) (same : w.outbound = s.outbound)
    (is : u.outbound = (meaningAcknowledged k e.meaning e.cls w).outbound) :
    OtherOutbound k s u
      ∧ (e.meaning = .offer → u.outb k = { s.outb k with
          offered := if (s.outb k).state = some .blocked then e.cls else (s.outb k).offered })
      ∧ (e.meaning = .cancel → u.outb k = { s.outb k with offered := none })
      ∧ (e.meaning ≠ .offer → e.meaning ≠ .cancel → u.outbound = s.outbound) := by
  obtain ⟨offer, cancel, other⟩ := meaningAcknowledged_outbound k e.meaning e.cls w
  have line : w.outb k = s.outb k := congrArg (fun l : List Outbound => nth l {} k) same
  have moved {g : Outbound → Outbound} {x : Register} (m : Shifts k w (meaningAcknowledged k e.meaning e.cls w) g x) :
      Shifts k s u g u.register := ⟨is.trans (m.lines.trans (by rw [same])), rfl⟩
  have other (no_offer : e.meaning ≠ .offer) (no_cancel : e.meaning ≠ .cancel) : u.outbound = s.outbound := by
    rw [is, other no_offer no_cancel, same]
  refine ⟨?_, fun is_offer => ?_, fun is_cancel => (moved (cancel is_cancel)).outb lines, other⟩
  · by_cases is_offer : e.meaning = .offer
    · exact (moved (offer is_offer)).others
    · by_cases is_cancel : e.meaning = .cancel
      · exact (moved (cancel is_cancel)).others
      · intro j _
        rw [State.outb, other is_offer is_cancel]
        rfl
  · rw [(moved (offer is_offer)).outb lines, line]

/-- What a fresh code's meaning leaves of the inbound line and the levers (R129). -/
theorem fresh_lines (lines : within k s.inbound.length = true) (levers : s.levers.length = 64) (same : w.inbound = s.inbound)
    (same_levers : w.levers = s.levers) (is : u.inbound = (meaningReceived k m.1 m.2 w).inbound)
    (is_levers : u.levers = (meaningReceived k m.1 m.2 w).levers) :
    OtherInbound k s u
      ∧ (m.1 = .offer → (u.inb k).offered = (if (s.inb k).state = some .blocked then m.2 else (s.inb k).offered)
        ∧ u.levers = s.levers)
      ∧ (m.1 = .cancel → (u.inb k).offered = none ∧ u.levers = s.levers)
      ∧ (m.1 = .obstruction → u.inbound = s.inbound ∧ ∀ j, within j 64 = true → (u.lever j).allowance
          = if (s.lever j).type = .signal ∧ (s.lever j).blockLine = some (2 * k) then some false else (s.lever j).allowance)
      ∧ (m.1 ≠ .offer → m.1 ≠ .cancel → m.1 ≠ .obstruction → u.inbound = s.inbound ∧ u.levers = s.levers) := by
  have spec := meaningReceived_spec (s := w) (k := k) (by rwa [same]) (by rwa [same_levers]) m.1 m.2
  have inb (j : Nat) : w.inb j = s.inb j := congrArg (fun l : List Inbound => nth l {} j) same
  have lever (j : Nat) : w.lever j = s.lever j := congrArg (fun l : List Lever => nth l {} j) same_levers
  have inb' (j : Nat) : (meaningReceived k m.1 m.2 w).inb j = u.inb j :=
    congrArg (fun l : List Inbound => nth l {} j) is.symm
  have lever' (j : Nat) : (meaningReceived k m.1 m.2 w).lever j = u.lever j :=
    congrArg (fun l : List Lever => nth l {} j) is_levers.symm
  simp only [OtherInbound, inb, lever, inb', lever', ← is, ← is_levers, same, same_levers] at spec
  exact spec

/-- A far BLOCKED (R126). -/
theorem blocked_clause (here : within k s.outbound.length = true) (on : (s.outb k).state ≠ none) :
    ((takeFarState k .blocked service s).outb k).state = some .blocked
      ∧ ((takeFarState k .blocked service s).outb k).guard = false
      ∧ ((takeFarState k .blocked service s).outb k).refusedFar = none
      ∧ ((s.outb k).state = some .blocked → (takeFarState k .blocked service s).register = s.register
        ∧ ((takeFarState k .blocked service s).outb k).lastChange = (s.outb k).lastChange)
      ∧ ∀ st, (s.outb k).state = some st → st ≠ .blocked →
        ((takeFarState k .blocked service s).outb k).offered = none
          ∧ ((takeFarState k .blocked service s).outb k).accepted = none
          ∧ ((takeFarState k .blocked service s).outb k).lastChange = some s.now
          ∧ (takeFarState k .blocked service s).register
            = s.register.append (.lineState (2 * k) (some st) .blocked none) := by
  obtain ⟨st, state⟩ := Option.ne_none_iff_exists'.1 on
  by_cases blocked : st = .blocked
  · subst blocked
    have moved := shifts_blocked_blocked (service := service) state
    rw [moved.outb here]
    exact ⟨state, rfl, rfl, fun _ => ⟨moved.register, rfl⟩, fun _ is away => absurd (Option.some.inj (state.symm.trans is)).symm away⟩
  · have moved := shifts_blocked (service := service) here state blocked
    rw [moved.outb here]
    refine ⟨rfl, rfl, rfl, fun is => absurd (Option.some.inj (state.symm.trans is)) blocked, fun x is _ => ?_⟩
    obtain rfl := Option.some.inj (state.symm.trans is)
    exact ⟨rfl, rfl, rfl, moved.register⟩

/-- Settles O44: far states, departures and the meanings of codes move the lines. -/
theorem farStatesMoveTheOutboundLine : Obligations.FarStatesMoveTheOutboundLine := by
  unfold Obligations.FarStatesMoveTheOutboundLine
  refine ⟨?_, ?_, ?_⟩
  · rintro s _ k far service _ _ - inside length rfl rfl rfl
    have here := here_of_within 3 inside length
    refine ⟨takeFarState_others here, takeFarState_of_none, ?_, ?_, ?_, ?_, ?_, ?_, ?_, ?_⟩
    · rintro rfl on
      exact blocked_clause here on
    · rintro state rfl
      refine ⟨?_, fun doubted => ?_⟩
      · rintro guard rfl free
        have moved := shifts_blocked_clear here guard free state
        rw [moved.outb here]
        exact ⟨rfl, rfl, rfl, rfl, rfl, rfl, rfl, moved.register⟩
      · have moved := shifts_blocked_doubted doubted state
        exact ⟨moved.outb here, moved.register⟩
    · rintro state rfl
      refine ⟨fun free => ?_, fun barred => ?_⟩
      · obtain ⟨_, moved⟩ := shifts_blocked_occupied (service := service) here state free
        rw [moved.outb here]
        rfl
      · have moved := shifts_blocked_barred (service := service) state barred
        exact ⟨moved.outb here, moved.register⟩
    · rintro state rfl rfl
      have moved := shifts_clear_lost here state
      rw [moved.outb here]
      exact ⟨rfl, rfl, rfl, rfl, moved.register⟩
    · rintro state rfl rfl
      exact takeFarState_of_still (.inl ⟨state, rfl, rfl⟩)
    · rintro state rfl
      have moved := shifts_clear_occupied (service := service) here state
      rw [moved.outb here]
      exact ⟨rfl, rfl, rfl, moved.register⟩
    · rintro state rfl
      exact takeFarState_of_still (.inr ⟨state, rfl⟩)
    · rintro state rfl
      refine ⟨?_, fun doubted => ?_⟩
      · rintro guard rfl free
        rw [(shifts_occupied_clear here guard free state).outb here]
        exact ⟨rfl, rfl, rfl⟩
      · obtain ⟨_, moved⟩ := shifts_occupied_doubted here doubted state
        rw [moved.outb here]
        exact ⟨rfl, rfl⟩
  · rintro s _ k c old new _ inside length rfl rfl
    have here := here_of_within 3 inside length
    refine ⟨fun departure left taken clear fresh => ?_, departureCircuit_of_other⟩
    have moved := shifts_changeOutb k (Outbound.departs (s.tables.outb k).overdue s.now) s
    rw [departureCircuit_of_seen departure left taken clear fresh]
    exact ⟨moved.others, moved.outb here⟩
  · rintro s _ k number pattern garbled rules m _ inside bells inbound outbound levers rfl matched rfl
    have here := here_of_within 3 inside bells
    obtain ⟨others, received, ended⟩ := received_common (number := number) (pattern := pattern) (garbled := garbled)
      (rules := rules) here
    refine ⟨others, received, ended, ?_, ?_, ?_⟩
    · rintro rfl
      obtain ⟨-, own, register, inb, outb, lever⟩ := endReceived_garbled (number := number) (pattern := pattern)
        (rules := rules) here
      exact ⟨register, (congrArg Bell.expectation own).trans rfl, (congrArg Bell.answerable own).trans rfl, inb, outb, lever⟩
    · rintro e rfl expected repeats
      obtain ⟨-, own, register, inb, lever, w, same, outb⟩ := endReceived_ack (number := number) (rules := rules) here
        expected repeats
      exact ⟨register, (congrArg Bell.expectation own).trans rfl, (congrArg Bell.answerable own).trans rfl, inb, lever,
        ack_lines (here_of_within 3 inside outbound) same outb⟩
    · rintro rfl fresh
      obtain ⟨-, own, outb, register, w, same, same_levers, inb, lever⟩ := endReceived_fresh (number := number)
        (rules := rules) here fresh matched
      refine ⟨(congrArg Bell.expectation own).trans rfl, (congrArg Bell.answerable own).trans rfl, outb, fun e expected => ?_, fun none_expected => ?_,
        fresh_lines (here_of_within 3 inside inbound) levers same same_levers inb lever⟩
      · rw [register, expected]
        rfl
      · rw [register, none_expected]
        rfl

end Sys2Proof.Machine
end

section
/-! A link through the end of a step: what R139 and R142 start on it, exactly. -/

set_option Elab.async false

namespace Sys2Proof.Machine

variable {s u v : State} {j k n table record : Nat} {t : Time} {vs : List (Nat × Nat)}

/-! ### What a link starts -/

/-- A link that goes BIDDING where it is IDLE with work and no retry time. -/
def Link.begun (work : Bool) (l : Link) : Link :=
  if l.state = .idle ∧ work = true ∧ l.retryAt = none then { l with state := .bidding } else l

/-- A link that starts a frame. -/
def Link.driving (f : FrameType) (l : Link) : Link :=
  { l with sending := some f, answer := none
           state := if f = .go then .receiving else l.state
           answerAt := if f = .go ∨ f = .wait then none else l.answerAt }

/-- A link that starts the frame that waits, on a line quiet or not. -/
def Link.framed (still : Bool) (l : Link) : Link :=
  if still = true then (frameToStart l).elim l fun f => l.driving f else l

/-- A link at the end of a step, by its work and the quiet of its line. -/
def Link.pumped (work still : Bool) (l : Link) : Link := (l.begun work).framed still

theorem Link.begun_of_still {l : Link} {work : Bool} (still : l.state ≠ .idle ∨ work = false) : l.begun work = l :=
  if_neg fun goes => still.elim (absurd goes.1) fun idle => Bool.false_ne_true (idle.symm.trans goes.2.1)

theorem Link.begun_state (work : Bool) (l : Link) :
    (l.begun work).state = if l.state = .idle ∧ work = true ∧ l.retryAt = none then .bidding else l.state := by
  simp only [begun]
  split <;> rfl

theorem Link.begun_answer (work : Bool) (l : Link) : (l.begun work).answer = l.answer := by
  simp only [begun]
  split <;> rfl

theorem Link.framed_of_loud (l : Link) : l.framed false = l := if_neg Bool.false_ne_true

theorem Link.framed_of_none {l : Link} (waits : frameToStart l = none) (still : Bool) : l.framed still = l := by
  simp [framed, waits]

theorem Link.framed_of_some {l : Link} {f : FrameType} (waits : frameToStart l = some f) : l.framed true = l.driving f := by
  simp [framed, waits]

/-- Only an answer starts a GO. -/
theorem frameToStart_ne_go {l : Link} (unanswered : l.answer = none) : frameToStart l ≠ some .go := by
  simp only [frameToStart, unanswered, Option.isSome_none, Bool.false_eq_true, if_false]
  split
  · exact nofun
  · split
    · exact nofun
    · split
      · exact nofun
      · split <;> exact nofun

/-- With no answer waiting, no frame started moves the state. -/
theorem Link.framed_state {l : Link} (unanswered : l.answer = none) (still : Bool) : (l.framed still).state = l.state := by
  simp only [framed]
  split
  · cases waits : frameToStart l with
    | none => rfl
    | some f => exact if_neg fun go : f = .go => frameToStart_ne_go unanswered (waits.trans (congrArg some go))
  · rfl

theorem Link.pumped_state {l : Link} (unanswered : l.answer = none) (work still : Bool) :
    (l.pumped work still).state
      = if l.state = .idle ∧ work = true ∧ l.retryAt = none then .bidding else l.state :=
  (Link.framed_state ((l.begun_answer work).trans unanswered) still).trans (l.begun_state work)

/-- A link that has no bidding to begin, on a line that is not quiet, is left alone. -/
theorem Link.pumped_of_loud {l : Link} {work : Bool} (still : l.state ≠ .idle ∨ work = false) : l.pumped work false = l := by
  rw [pumped, Link.begun_of_still still, Link.framed_of_loud]

/-! ### What a link's start looks at -/

/-- What the end of a step looks at to start link `k`'s frames. -/
structure LinkView where
  link : Link
  line : Option LineState
  turnaround : Nat
  now : Time
  here : Bool

def State.linkView (s : State) (k : Nat) : LinkView :=
  ⟨s.link k, (s.inb k).state, (cfgOf s k).turnaround, s.now, within k s.links.length⟩

def LinkView.work (p : LinkView) : Bool := !p.link.queue.isEmpty || (p.link.indicationDue && p.line.isSome)
def LinkView.still (p : LinkView) : Bool := p.link.heard.all fun h => decide (h + p.turnaround ≤ p.now)
def LinkView.withLink (l : Link) (p : LinkView) : LinkView := { p with link := l }
def LinkView.pumped (p : LinkView) : LinkView := if p.here = true then p.withLink (p.link.pumped p.work p.still) else p

theorem hasWork_eq (s : State) (k : Nat) : hasWork s k = (s.linkView k).work := rfl

theorem quiet_eq (s : State) (k : Nat) : quiet s k = (s.linkView k).still := by
  simp only [quiet, LinkView.still, State.linkView]
  cases (s.link k).heard <;> rfl

theorem linkView_modLink_same {g : Link → Link} (here : within k s.links.length = true) :
    (s.modLink k g).linkView k = (s.linkView k).withLink (g (s.link k)) := by
  simp only [State.linkView, LinkView.withLink, State.link_modLink_same s k g here, LinkView.mk.injEq]
  exact ⟨trivial, rfl, rfl, rfl, congrArg _ (length_modAt _ _ _ _)⟩

theorem linkView_modLink_other {g : Link → Link} (other : j ≠ k ∨ within k s.links.length = false) :
    (s.modLink j g).linkView k = s.linkView k := by
  have away : ¬ (k = j ∧ within j s.links.length = true) := by
    rintro ⟨rfl, here⟩
    exact other.elim (absurd rfl) fun off => Bool.false_ne_true (off.symm.trans here)
  simp only [State.linkView, State.link_modLink s j k g, if_neg away, LinkView.mk.injEq]
  exact ⟨trivial, rfl, rfl, rfl, congrArg _ (length_modAt _ _ _ _)⟩

theorem linkView_startBidding (here : within k s.links.length = true) :
    (startBidding k s).linkView k = (s.linkView k).withLink ((s.link k).begun (hasWork s k)) := by
  simp only [startBidding, Link.begun]
  split
  · exact linkView_modLink_same here
  · rfl

theorem linkView_startFrame (here : within k s.links.length = true) :
    (startFrame k s).linkView k = (s.linkView k).withLink ((s.link k).framed (quiet s k)) := by
  simp only [startFrame, Link.framed]
  cases waits : frameToStart (s.link k) with
  | none => simp only [Option.elim, ite_self]; rfl
  | some f =>
    simp only [Option.elim]
    split
    · exact linkView_modLink_same here
    · rfl

theorem linkView_pumpLink_other (other : j ≠ k ∨ within k s.links.length = false) :
    (pumpLink j s).linkView k = s.linkView k := by
  have begun : (startBidding j s).linkView k = s.linkView k := by
    simp only [startBidding]
    split
    · exact linkView_modLink_other other
    · rfl
  simp only [pumpLink, startFrame]
  split
  · exact begun
  · split
    · exact (linkView_modLink_other (other.imp_right (congrArg LinkView.here begun).trans)).trans begun
    · exact begun

/-- What the end of a step starts on a link. -/
theorem linkView_pumpLink (k : Nat) (s : State) : (pumpLink k s).linkView k = (s.linkView k).pumped := by
  by_cases here : within k s.links.length = true
  · have begun := linkView_startBidding here
    have still : quiet (startBidding k s) k = quiet s k := by
      rw [quiet_eq, quiet_eq, begun]
      simp only [LinkView.still, LinkView.withLink, Link.begun, State.linkView]
      split <;> rfl
    have here' : within k (startBidding k s).links.length = true := (congrArg LinkView.here begun).trans here
    have link : (startBidding k s).link k = (s.link k).begun (hasWork s k) := congrArg LinkView.link begun
    rw [pumpLink, linkView_startFrame here', still, begun, link, LinkView.pumped, ← quiet_eq]
    exact (if_pos here).symm
  · exact (linkView_pumpLink_other (.inr (Bool.not_eq_true _ ▸ here))).trans (if_neg here).symm

/-! ### A link through the reload points and the starts of a step's end -/

/-- The records of the other tables and of other links do not touch a link's own. -/
theorem cfgOf_applyStaged (other : table ≠ 2 ∨ record ≠ k) : cfgOf (applyStaged table record vs s) k = cfgOf s k := by
  have link (i : Image) : (i.setFields table record vs).link k = i.link k := by
    simp only [Image.setFields]
    split
    · simp only [Image.link, nth_modAt]
      exact if_neg fun own => other.elim (absurd rfl) (absurd own.1.symm)
    all_goals rfl
  simp only [cfgOf, State.tables, show (applyStaged table record vs s).store.inForce
    = s.store.inForce.map (fun i => i.setFields table record vs) from rfl]
  cases s.store.inForce with
  | none => rfl
  | some i => exact link i

/-- A link up to the values pending for it, and exactly where none are. -/
structure LinkReloaded (k : Nat) (s u : State) : Prop where
  own : (u.link k).unstaged = (s.link k).unstaged
  line : (u.inb k).state = (s.inb k).state
  length : u.links.length = s.links.length
  exactly : (s.link k).staged = [] → u.linkView k = s.linkView k

/-- What no reload touches of a link. -/
theorem LinkReloaded.calm (still : LinkReloaded k s u) :
    (u.link k).queue = (s.link k).queue ∧ (u.link k).indicationDue = (s.link k).indicationDue
      ∧ (u.link k).state = (s.link k).state ∧ (u.link k).retryAt = (s.link k).retryAt
      ∧ (u.link k).answer = (s.link k).answer := by
  have own := still.own
  simp only [Link.unstaged, Link.mk.injEq] at own
  simp only [own, and_self]

/-- A reload of another owner leaves link `k`'s view. -/
theorem LinkReloaded.of_view (still : LinkReloaded k s u) (view : v.linkView k = u.linkView k)
    (length : v.links.length = u.links.length) : LinkReloaded k s v :=
  ⟨(congrArg (·.link.unstaged) view).trans still.own, (congrArg LinkView.line view).trans still.line,
    length.trans still.length, fun unstaged => view.trans (still.exactly unstaged)⟩

theorem LinkReloaded.timer (still : LinkReloaded k s u) (j : Nat) : LinkReloaded k s (reloadTimer j u) := by
  by_cases idle : (u.timer j).staged = [] ∨ (u.timer j).state ≠ .idle
  · rwa [reloadTimer_of_still idle]
  · rw [not_or, not_not] at idle
    rw [reloadTimer_of_due idle.1 idle.2]
    exact still.of_view (congrArg (fun c : LinkCfg => (⟨u.link k, (u.inb k).state, c.turnaround, u.now,
      within k u.links.length⟩ : LinkView)) (cfgOf_applyStaged (.inl (by decide)))) rfl

theorem LinkReloaded.bell (still : LinkReloaded k s u) (j : Nat) : LinkReloaded k s (reloadBell j u) := by
  by_cases idle : (u.bell j).staged = [] ∨ codeOpen u j = true
  · rwa [reloadBell_of_still idle]
  · rw [not_or, Bool.not_eq_true] at idle
    rw [reloadBell_of_due idle.1 idle.2]
    exact still.of_view (congrArg (fun c : LinkCfg => (⟨u.link k, (u.inb k).state, c.turnaround, u.now,
      within k u.links.length⟩ : LinkView)) (cfgOf_applyStaged (.inl (by decide)))) rfl

theorem LinkReloaded.outb (still : LinkReloaded k s u) (j : Nat) : LinkReloaded k s (reloadLine j u) := by
  by_cases idle : (u.outb j).staged = [] ∨ (u.outb j).overdueAt ≠ none
  · rwa [reloadLine_of_still idle]
  · rw [not_or, not_not] at idle
    rw [reloadLine_of_due idle.1 idle.2]
    exact still.of_view (congrArg (fun c : LinkCfg => (⟨u.link k, (u.inb k).state, c.turnaround, u.now,
      within k u.links.length⟩ : LinkView)) (cfgOf_applyStaged (.inl (by decide)))) rfl

theorem LinkReloaded.link (still : LinkReloaded k s u) (j : Nat) : LinkReloaded k s (reloadLink j u) := by
  by_cases idle : (u.link j).staged = [] ∨ (u.link j).atReload = false
  · rwa [reloadLink_of_still idle]
  · rw [not_or, Bool.not_eq_false] at idle
    have length : (reloadLink j u).links.length = u.links.length := by
      rw [reloadLink_of_due idle.1 idle.2]
      exact length_modAt _ _ _ _
    have read := State.link_modLink (applyStaged 2 j (u.link j).staged u) j k Link.unstaged
    by_cases own : j = k
    · subst own
      refine ⟨?_, ?_, length.trans still.length, fun unstaged => ?_⟩
      · rw [reloadLink_of_due idle.1 idle.2]
        refine (congrArg Link.unstaged read).trans (Eq.trans ?_ still.own)
        split <;> rfl
      · rw [reloadLink_of_due idle.1 idle.2]
        exact still.line
      · exact absurd ((congrArg (·.link.staged) (still.exactly unstaged)).trans unstaged) idle.1
    · refine still.of_view ?_ length
      rw [reloadLink_of_due idle.1 idle.2]
      have view := linkView_modLink_other (s := applyStaged 2 j (u.link j).staged u) (g := Link.unstaged) (.inl own)
      exact view.trans (congrArg (fun c : LinkCfg => (⟨u.link k, (u.inb k).state, c.turnaround, u.now,
        within k u.links.length⟩ : LinkView)) (cfgOf_applyStaged (.inr own)))

theorem reloadAll_link (k : Nat) (s : State) : LinkReloaded k s (reloadAll s) :=
  forEach_keeps _ (fun j _ _ still => still.link j) _ (forEach_keeps _ (fun j _ _ still => still.outb j) _
    (forEach_keeps _ (fun j _ _ still => still.bell j) _ (forEach_keeps _ (fun j _ _ still => still.timer j) _
      ⟨rfl, rfl, rfl, fun _ => rfl⟩)))

theorem linkView_kickHost (k : Nat) (s : State) : (kickHost s).linkView k = s.linkView k := rfl

/-- What the end of a step makes of link `k`. -/
theorem finish_linkView (agreed : v.Undisputed) (numbered : within k 3 = true) :
    (finish v).linkView k = ((reloadAll v).linkView k).pumped := by
  have pumped := forEach_observed (f := pumpLink) (fun u => u.linkView k) LinkView.pumped (linkView_pumpLink k)
    (fun _ other u => linkView_pumpLink_other (.inl other)) (upTo 3) (upTo_nodup 3) (reloadAll v)
  rw [if_pos (mem_upTo.2 numbered)] at pumped
  rw [finish, settleMismatches_of_undisputed 64 agreed, linkView_kickHost]
  exact pumped

/-- What the end of a step makes of a link with no value pending. -/
theorem finish_link_pumped (agreed : v.Undisputed) (numbered : within k 3 = true) (here : within k v.links.length = true)
    (unstaged : (v.link k).staged = []) :
    (finish v).link k = (v.link k).pumped (hasWork v k) (quiet v k) := by
  have view := finish_linkView agreed numbered
  rw [(reloadAll_link k v).exactly unstaged, LinkView.pumped, if_pos (show (v.linkView k).here = true from here)] at view
  rw [quiet_eq, hasWork_eq]
  exact congrArg LinkView.link view

theorem hasWork_of_reloaded (still : LinkReloaded k s u) : hasWork u k = hasWork s k := by
  obtain ⟨queue, due, -, -, -⟩ := still.calm
  simp only [hasWork, still.line, queue, due]

/-- A link after the end of a step, up to the values pending for it and to the quiet of its line. -/
theorem finish_link_ended (agreed : v.Undisputed) (numbered : within k 3 = true) (here : within k v.links.length = true) :
    ∃ m still, Link.unstaged m = (v.link k).unstaged ∧ (finish v).link k = m.pumped (hasWork v k) still := by
  have view := finish_linkView agreed numbered
  have still := reloadAll_link k v
  have link := congrArg LinkView.link view
  rw [LinkView.pumped, if_pos (show ((reloadAll v).linkView k).here = true from (congrArg (within k) still.length).trans here)]
    at link
  refine ⟨(reloadAll v).link k, ((reloadAll v).linkView k).still, still.own, ?_⟩
  rw [← hasWork_of_reloaded still]
  exact link

end Sys2Proof.Machine
end

section
/-! Rows that change one link alone, and the strokes that come too late (R140). -/

set_option Elab.async false

namespace Sys2Proof.Machine

variable {s u v : State} {k n : Nat} {t : Time} {i : Instr} {f : State → State} {g : Link → Link} {P : State → Prop}

/-! ### The link after a row -/

/-- Whether a link with the inbound line's state given has work (R141). -/
def Link.works (line : Option LineState) (l : Link) : Bool := !l.queue.isEmpty || (l.indicationDue && line.isSome)

/-- Whether the line is quiet at a link (R139). -/
def Link.hush (turnaround : Nat) (now : Time) (l : Link) : Bool := l.heard.all fun h => decide (h + turnaround ≤ now)

theorem quiet_iff : quiet s k = (s.link k).hush (cfgOf s k).turnaround s.now := quiet_eq s k

/-- A line that has just been heard is not quiet. -/
theorem Link.hush_of_heard {l : Link} {turnaround : Nat} (heard : l.heard = some n) (positive : 1 ≤ turnaround) :
    l.hush turnaround n = false := by
  simp only [hush, heard, Option.all_some, decide_eq_false_iff_not]
  omega

/-- What the end of a step makes of link `k` that its row has left as `l`, and of the other links. -/
structure LinkEnds (k : Nat) (s : State) (n : Time) (l : Link) (u : State) : Prop where
  others : OtherLinks k s u
  kept : (u.link k).kept = l.kept
  ended : ∃ m still, Link.unstaged m = l.unstaged ∧ u.link k = m.pumped (l.works (s.inb k).state) still
  exactly : l.staged = [] →
    u.link k = l.pumped (l.works (s.inb k).state) (l.hush (cfgOf s k).turnaround n)

/-- A row that changes link `k` alone. -/
theorem Takes.of_link (row : exec i s = .next (finish (f (s.comeTo t)))) (time : i.time = some t)
    (undisputed : s.Undisputed) (inside : within k 3 = true) (length : s.links.length = 3)
    (effect : f (s.atTime t) = (s.atTime t).modLink k g)
    (holds : ∀ u, LinkEnds k s (max s.now t) (g (s.link k)) u → P u)
    (lasting : (s.link k).staged = [] → (g (s.link k)).staged = [] := by exact id) : Takes i s [.links] P := by
  have moves : Moves [.link] (s.atTime t) ((s.atTime t).modLink k g) := Moves.refl.to_modLink k g (.inr lasting)
  have here := here_of_within 3 inside length
  have link : ((s.atTime t).modLink k g).link k = g (s.link k) := State.link_modLink_same (s.atTime t) k g here
  have here' : within k ((s.atTime t).modLink k g).links.length = true := by
    rw [show ((s.atTime t).modLink k g).links.length = s.links.length from length_modAt _ _ _ _]
    exact here
  have work : hasWork ((s.atTime t).modLink k g) k = (g (s.link k)).works (s.inb k).state := by
    rw [hasWork, link]
    rfl
  refine Takes.of_result row time undisputed effect moves fun agreed now => holds _
    ⟨finish_other_links (s := s) agreed rfl, finish_own_link (s := s) agreed rfl here, ?_, fun unstaged => ?_⟩
  · have ended := finish_link_ended agreed inside here'
    rwa [link, work] at ended
  · have ended := finish_link_pumped agreed inside here' (by rwa [link])
    rw [link, work, quiet_iff, link, now] at ended
    exact ended

theorem Link.same_of_unstaged {l m : Link} (same : m.unstaged = l.unstaged) :
    m.state = l.state ∧ m.retryAt = l.retryAt ∧ m.answer = l.answer ∧ m.answerAt = l.answerAt := by
  simp only [unstaged, mk.injEq] at same
  simp only [same, and_self]

/-- The state of a link with no answer waiting, after the end of a step. -/
theorem finish_link_state (agreed : v.Undisputed) (numbered : within k 3 = true) (here : within k v.links.length = true)
    (unanswered : (v.link k).answer = none) :
    ((finish v).link k).state
      = if (v.link k).state = .idle ∧ hasWork v k = true ∧ (v.link k).retryAt = none then .bidding
        else (v.link k).state := by
  obtain ⟨m, still, same, ended⟩ := finish_link_ended agreed numbered here
  obtain ⟨state, retry, answer, -⟩ := Link.same_of_unstaged same
  rw [ended, Link.pumped_state (answer.trans unanswered), state, retry]

/-- The state of a link with no answer waiting. -/
theorem LinkEnds.state {l : Link} (h : LinkEnds k s n l u) (unanswered : l.answer = none) :
    (u.link k).state = if l.state = .idle ∧ l.works (s.inb k).state = true ∧ l.retryAt = none then .bidding
      else l.state := by
  obtain ⟨m, still, same, ended⟩ := h.ended
  obtain ⟨state, retry, answer, -⟩ := Link.same_of_unstaged same
  rw [ended, Link.pumped_state (answer.trans unanswered), state, retry]

/-- A link with no bidding to begin keeps its state. -/
theorem LinkEnds.state_kept {l : Link} (h : LinkEnds k s n l u) (unanswered : l.answer = none)
    (still : l.state ≠ .idle ∨ l.works (s.inb k).state = false ∨ l.retryAt ≠ none) : (u.link k).state = l.state := by
  rw [h.state unanswered, if_neg]
  rintro ⟨idle, work, ready⟩
  rcases still with other | other | other
  · exact other idle
  · exact Bool.false_ne_true (other.symm.trans work)
  · exact other ready

/-- A link with no answer timer running starts none. -/
theorem LinkEnds.answerAt {l : Link} (h : LinkEnds k s n l u) (stopped : l.answerAt = none) : (u.link k).answerAt = none := by
  obtain ⟨m, still, same, ended⟩ := h.ended
  have stopped : m.answerAt = none := (Link.same_of_unstaged same).2.2.2.trans stopped
  have begun (work : Bool) : (m.begun work).answerAt = none := by
    simp only [Link.begun]
    split <;> exact stopped
  rw [ended, Link.pumped, Link.framed]
  split
  · cases frameToStart (m.begun (l.works (s.inb k).state)) with
    | none => exact begun _
    | some f =>
      simp only [Option.elim, Link.driving, begun, ite_self]
  · exact begun _

/-- A link that has no bidding to begin, on a line just heard, is left as the row has left it. -/
theorem LinkEnds.heard {l : Link} (h : LinkEnds k s n l u) (unstaged : l.staged = []) (heard : l.heard = some n)
    (positive : 1 ≤ (cfgOf s k).turnaround) (still : l.state ≠ .idle ∨ l.works (s.inb k).state = false ∨ l.retryAt ≠ none) :
    u.link k = l := by
  have begun (work : Bool) (none_begins : ¬ (l.state = .idle ∧ work = true ∧ l.retryAt = none)) : l.begun work = l :=
    if_neg none_begins
  rw [h.exactly unstaged, Link.hush_of_heard heard positive, Link.pumped, begun, Link.framed_of_loud]
  rintro ⟨idle, work, ready⟩
  rcases still with other | other | other
  · exact other idle
  · exact Bool.false_ne_true (other.symm.trans work)
  · exact other ready

/-! ### Late strokes (R140) -/

/-- What garbling leaves of an item that is queued. -/
def Queued.mark (q : Queued) : Bool × Time := (q.item.isStroke, q.joined)

theorem modFirst_map {α β : Type} {p : α → Bool} {f : α → α} (e : α → β) (same : ∀ x, e (f x) = e x) :
    ∀ {l m : List α}, modFirst p f l = some m → m.map e = l.map e
  | x :: xs, m, found => by
    rw [modFirst] at found
    split at found
    · cases found
      simp [same]
    · cases rest : modFirst p f xs with
      | none => simp [rest] at found
      | some r =>
        simp only [rest, Option.map_some, Option.some.injEq] at found
        rw [← found, List.map_cons, List.map_cons, modFirst_map e same rest]

theorem Item.garble_isStroke (i : Item) : i.garble.isStroke = i.isStroke := by cases i <;> rfl

/-- A link up to its queue and the codes damaged. -/
def Link.rest (l : Link) : Link := { l with queue := [], damaged := [] }

theorem Link.damage_kept (l : Link) (c : Nat) : (l.damage c).kept = l.kept.damage c := by
  simp only [damage, kept]
  split <;> rfl

theorem Link.damage_spec (l : Link) (c : Nat) :
    (l.damage c).rest = l.rest ∧ (l.damage c).queue.map Queued.mark = l.queue.map Queued.mark := by
  simp only [damage]
  split
  · next q found =>
    refine ⟨rfl, ?_⟩
    have marks := modFirst_map Queued.mark (fun x => by simp only [Queued.mark, Item.garble_isStroke]) found
    simpa only [List.map_reverse, List.reverse_reverse] using congrArg List.reverse marks
  · exact ⟨rfl, rfl⟩

theorem Link.damageItem_spec (l : Link) (i : Item) :
    (l.damageItem i).rest = l.rest ∧ (l.damageItem i).queue.map Queued.mark = l.queue.map Queued.mark := by
  simp only [damageItem]
  split
  · split
    · exact l.damage_spec _
    · exact ⟨rfl, rfl⟩
  · exact ⟨rfl, rfl⟩

theorem Link.damageItem_kept (l : Link) (i : Item) : (l.damageItem i).kept = l.kept.damageItem i := by
  simp only [damageItem]
  split
  · split
    · exact l.damage_kept _
    · rfl
  · rfl

theorem Link.damageItems_spec (qs : List Queued) : ∀ l : Link,
    (qs.foldl (fun l q => l.damageItem q.item) l).rest = l.rest
      ∧ (qs.foldl (fun l q => l.damageItem q.item) l).queue.map Queued.mark = l.queue.map Queued.mark := by
  induction qs with
  | nil => exact fun _ => ⟨rfl, rfl⟩
  | cons q qs ih =>
    intro l
    obtain ⟨rest, marks⟩ := ih (l.damageItem q.item)
    obtain ⟨rest', marks'⟩ := l.damageItem_spec q.item
    exact ⟨rest.trans rest', marks.trans marks'⟩

theorem Link.damageItems_kept (qs : List Queued) : ∀ l : Link,
    (qs.foldl (fun l q => l.damageItem q.item) l).kept = qs.foldl (fun l q => l.damageItem q.item) l.kept := by
  induction qs with
  | nil => exact fun _ => rfl
  | cons q qs ih =>
    intro l
    exact (ih _).trans (by rw [List.foldl_cons, l.damageItem_kept])

theorem Link.discardLate_kept (l : Link) (n : Time) : (l.discardLate n).kept = l.kept.discardLate n :=
  damageItems_kept _ _

theorem Link.discardLate_rest (l : Link) (n : Time) : (l.discardLate n).rest = l.rest := (damageItems_spec _ _).1

theorem Link.discardLate_queue (l : Link) (n : Time) : (l.discardLate n).queue.map Queued.mark
    = (l.queue.take l.inFlight ++ (lateItems n (l.queue.drop l.inFlight)).2).map Queued.mark := (damageItems_spec _ _).2

theorem lateItems_stay (n : Time) (qs : List Queued) : ∀ q ∈ (lateItems n qs).2,
    q.mark.1 = true → n < q.mark.2 + 5000 := by
  intro q stays stroke
  simp only [lateItems, List.partition_eq_filter_filter, List.mem_filter] at stays
  simp only [Queued.mark] at stroke ⊢
  simpa [stroke] using stays.2

theorem lateItems_none {n : Time} {qs : List Queued} (timely : ∀ q ∈ qs, q.item.isStroke = true → n < q.joined + 5000) :
    lateItems n qs = ([], qs) := by
  simp only [lateItems, List.partition_eq_filter_filter, Prod.mk.injEq]
  refine ⟨List.filter_eq_nil_iff.2 fun q mem => ?_, List.filter_eq_self.2 fun q mem => ?_⟩
  · have := timely q mem
    cases stroke : q.item.isStroke with
    | false => simp
    | true => simpa using this stroke
  · have := timely q mem
    cases stroke : q.item.isStroke with
    | false => simp [stroke]
    | true => simpa [stroke] using this stroke

/-- The strokes left outside the DATA frame under way are all timely. -/
theorem Link.discardLate_timely (l : Link) (n : Time) : ∀ q ∈ (l.discardLate n).queue.drop l.inFlight,
    q.item.isStroke = true → n < q.joined + 5000 := by
  intro q mem stroke
  have marks : ((l.discardLate n).queue.drop l.inFlight).map Queued.mark
      = ((l.queue.take l.inFlight ++ (lateItems n (l.queue.drop l.inFlight)).2).drop l.inFlight).map Queued.mark := by
    rw [List.map_drop, List.map_drop, discardLate_queue]
  have mark : q.mark ∈ ((l.discardLate n).queue.drop l.inFlight).map Queued.mark := List.mem_map_of_mem mem
  rw [marks, List.mem_map] at mark
  obtain ⟨p, stays, same⟩ := mark
  have late : p ∈ (lateItems n (l.queue.drop l.inFlight)).2 := by
    rcases Nat.lt_or_ge l.queue.length l.inFlight with short | enough
    · have none_waits : l.queue.drop l.inFlight = [] := List.drop_of_length_le (Nat.le_of_lt short)
      simp [none_waits, List.take_of_length_le (Nat.le_of_lt short), lateItems] at stays
    · rwa [List.drop_append_of_le_length (by simp [enough]), List.drop_of_length_le (by simp), List.nil_append] at stays
  have timely := lateItems_stay n _ p late
  rw [same] at timely
  exact timely stroke

/-- The items of the DATA frame under way stay in the queue. -/
theorem Link.discardLate_take (l : Link) (n : Time) :
    ((l.discardLate n).queue.take l.inFlight).map (·.joined) = (l.queue.take l.inFlight).map (·.joined) := by
  have joined (qs : List Queued) : qs.map (·.joined) = (qs.map Queued.mark).map Prod.snd := by
    rw [List.map_map]
    rfl
  have head : (l.queue.take l.inFlight ++ (lateItems n (l.queue.drop l.inFlight)).2).take l.inFlight
      = l.queue.take l.inFlight := by
    rcases Nat.lt_or_ge l.queue.length l.inFlight with short | enough
    · rw [List.drop_of_length_le (Nat.le_of_lt short)]
      simp [lateItems]
    · rw [List.take_append_of_le_length (by simp [enough]), List.take_take, Nat.min_self]
  have marks : ((l.discardLate n).queue.take l.inFlight).map Queued.mark = (l.queue.take l.inFlight).map Queued.mark := by
    rw [List.map_take, discardLate_queue, ← List.map_take, head]
  rw [joined, joined, marks]

end Sys2Proof.Machine
end

section
/-! The timers of a link (R140 to R146). -/

set_option Elab.async false

namespace Sys2Proof.Machine

variable {s u v : State} {k : Nat} {n t e : Time} {i : Instr} {c : LinkCfg} {l : Link}

/-! ### The records that the timers leave -/

def Link.bidAgain (n : Time) (c : LinkCfg) (l : Link) : Link :=
  { l with bidAttempts := l.bidAttempts + 1, answerAt := none, backOffAt := some (n + backOff c) }

def Link.dataAgain (l : Link) : Link := { l with state := .sending, dataAttempts := l.dataAttempts + 1, takenAt := none }

/-- A link whose exchange has failed (R143). -/
def Link.exchangeLost (n : Time) (l : Link) : Link :=
  ({ l with state := .idle, answerAt := none, takenAt := none, bidAttempts := 0, dataAttempts := 0
            retryAt := some (n + 1000) } : Link).dropFlight n

def Link.dataEnded (l : Link) : Link := { l with state := .idle, dataAt := none }
def Link.retrying (l : Link) : Link := { l with retryAt := none }
def Link.beating (n : Time) (c : LinkCfg) (l : Link) : Link :=
  { l with indicationDue := true, heartbeatAt := some (n + c.heartbeat * 1000) }
def Link.silent (l : Link) : Link := { l with silenceAt := none, lost := true }

theorem Link.carriesIndication_eq (l : Link) : l.carriesIndication = l.flight.any (·.items.any Item.isIndication) := by
  simp only [carriesIndication]
  cases l.flight <;> rfl

/-- What a failed exchange leaves, but for its state and its timers. -/
theorem Link.exchangeLost_kept (n : Time) (l : Link) : (l.exchangeLost n).kept = (({ l with
    flight := none, answerAt := none, takenAt := none, bidAttempts := 0, dataAttempts := 0, retryAt := some (n + 1000)
    indicationDue := l.indicationDue || l.flight.any (·.items.any Item.isIndication) } : Link).discardLate n).kept := by
  rw [exchangeLost, dropFlight, discardLate_kept, discardLate_kept, ← carriesIndication_eq]
  rfl

theorem Link.discardLate_fields (l : Link) (n : Time) : (l.discardLate n).state = l.state
    ∧ (l.discardLate n).retryAt = l.retryAt ∧ (l.discardLate n).answer = l.answer
    ∧ (l.discardLate n).answerAt = l.answerAt := by
  have same := l.discardLate_rest n
  simp only [rest, mk.injEq] at same
  simp only [same, and_self]

/-! ### What the timers do -/

theorem modLink_congr {f g : Link → Link} (same : f (s.link k) = g (s.link k)) : s.modLink k f = s.modLink k g :=
  congrArg (fun x => { s with links := x }) (modAt_congr same)

theorem bidFailed_of_again (again : (s.link k).bidAttempts + 1 ≤ (cfgOf s k).bidRetries) :
    bidFailed k s = s.modLink k (Link.bidAgain s.now (cfgOf s k)) :=
  (if_pos again).trans (modLink_congr rfl)

theorem bidFailed_of_lost (lost : (cfgOf s k).bidRetries < (s.link k).bidAttempts + 1) :
    bidFailed k s = s.modLink k (Link.exchangeLost s.now) := if_neg (Nat.not_le.2 lost)

theorem dataFailed_of_again (again : (s.link k).dataAttempts + 1 ≤ (cfgOf s k).dataRetries) :
    dataFailed false k s = s.modLink k Link.dataAgain :=
  (if_pos again).trans (modLink_congr rfl)

theorem dataFailed_of_lost (collision : Bool) (lost : (cfgOf s k).dataRetries < (s.link k).dataAttempts + 1) :
    dataFailed collision k s = s.modLink k (Link.exchangeLost s.now) := if_neg (Nat.not_le.2 lost)

theorem exchangeLost_staged (l : Link) (n : Time) : (l.exchangeLost n).staged = l.staged := Link.discardLate_staged _ _

section
variable (undisputed : s.Undisputed) (inside : within k 3 = true) (length : s.links.length = 3)
include undisputed inside length

/-- A failed exchange ends IDLE, with a retry time. -/
theorem takes_exchangeLost {f : State → State} (row : exec i s = .next (finish (f (s.comeTo t)))) (time : i.time = some t)
    (effect : f (s.atTime t) = (s.atTime t).modLink k (Link.exchangeLost (max s.now t))) :
    Takes i s [.links] fun u => OtherLinks k s u
      ∧ (u.link k).kept = (({ s.link k with
          flight := none, answerAt := none, takenAt := none, bidAttempts := 0, dataAttempts := 0
          retryAt := some (max s.now t + 1000)
          indicationDue := (s.link k).indicationDue || (s.link k).flight.any (·.items.any Item.isIndication) }
          : Link).discardLate (max s.now t)).kept
      ∧ ((s.link k).answer = none → (u.link k).state = .idle) := by
  refine Takes.of_link row time undisputed inside length effect (fun u ends => ?_)
    (exchangeLost_staged (s.link k) (max s.now t)).trans
  obtain ⟨state, retry, answer, -⟩ := Link.discardLate_fields ({ s.link k with
    state := .idle, answerAt := none, takenAt := none, bidAttempts := 0, dataAttempts := 0
    retryAt := some (max s.now t + 1000), flight := none
    indicationDue := (s.link k).indicationDue || (s.link k).carriesIndication } : Link) (max s.now t)
  exact ⟨ends.others, ends.kept.trans (Link.exchangeLost_kept _ _), fun unanswered =>
    (ends.state_kept (answer.trans unanswered) (.inr (.inr (by
      rw [show ((s.link k).exchangeLost (max s.now t)).retryAt = _ from retry]
      exact nofun)))).trans state⟩

theorem takes_answerTimer (bids : (s.link k).state = .bidding) (set : (s.link k).answerAt = some e)
    (passed : e ≤ max s.now t) (again : (s.link k).bidAttempts + 1 ≤ (cfgOf s k).bidRetries) :
    Takes (.answerTimerExpiry t k) s [.links] fun u => OtherLinks k s u
      ∧ (u.link k).kept = ((s.link k).bidAgain (max s.now t) (cfgOf s k)).kept
      ∧ (u.link k).answerAt = none ∧ ((s.link k).answer = none → (u.link k).state = .bidding) := by
  have effect : answerExpires k (s.atTime t) = (s.atTime t).modLink k (Link.bidAgain (max s.now t) (cfgOf s k)) :=
    (if_pos ⟨bids, due_eq_true (s := s.atTime t) set passed⟩).trans (bidFailed_of_again (s := s.atTime t) again)
  refine Takes.of_link (i := .answerTimerExpiry t k) (f := answerExpires k) rfl rfl undisputed inside length effect
    fun u ends => ⟨ends.others, ends.kept, ends.answerAt rfl, fun unanswered => ?_⟩
  exact (ends.state_kept unanswered (.inl (bids ▸ nofun))).trans bids

theorem takes_takenTimer (waits : (s.link k).state = .awaitTaken) (set : (s.link k).takenAt = some e)
    (passed : e ≤ max s.now t) (again : (s.link k).dataAttempts + 1 ≤ (cfgOf s k).dataRetries) :
    Takes (.takenTimerExpiry t k) s [.links] fun u => OtherLinks k s u
      ∧ (u.link k).kept = (s.link k).dataAgain.kept ∧ ((s.link k).answer = none → (u.link k).state = .sending) := by
  have effect : takenExpires k (s.atTime t) = (s.atTime t).modLink k Link.dataAgain :=
    (if_pos ⟨waits, due_eq_true (s := s.atTime t) set passed⟩).trans (dataFailed_of_again (s := s.atTime t) again)
  exact Takes.of_link (i := .takenTimerExpiry t k) (f := takenExpires k) rfl rfl undisputed inside length effect
    fun u ends => ⟨ends.others, ends.kept, fun unanswered => ends.state_kept unanswered (.inl nofun)⟩

theorem takes_dataTimer (receives : (s.link k).state = .receiving) (set : (s.link k).dataAt = some e)
    (passed : e ≤ max s.now t) :
    Takes (.dataTimerExpiry t k) s [.links] fun u => OtherLinks k s u
      ∧ (u.link k).kept = (s.link k).dataEnded.kept
      ∧ (hasWork s k = false → (s.link k).answer = none → (u.link k).state = .idle) := by
  have effect : dataExpires k (s.atTime t) = (s.atTime t).modLink k Link.dataEnded :=
    if_pos ⟨receives, due_eq_true (s := s.atTime t) set passed⟩
  exact Takes.of_link (i := .dataTimerExpiry t k) (f := dataExpires k) rfl rfl undisputed inside length effect
    fun u ends => ⟨ends.others, ends.kept, fun idle unanswered => ends.state_kept unanswered (.inr (.inl idle))⟩

theorem takes_retryTime (set : (s.link k).retryAt = some e) (passed : e ≤ max s.now t) :
    Takes (.retryTime t k) s [.links] fun u => OtherLinks k s u ∧ (u.link k).kept = (s.link k).retrying.kept
      ∧ ((s.link k).state = .idle → hasWork s k = true → (s.link k).answer = none → (u.link k).state = .bidding) := by
  have effect : retryComes k (s.atTime t) = (s.atTime t).modLink k Link.retrying :=
    if_pos (due_eq_true (s := s.atTime t) set passed)
  exact Takes.of_link (i := .retryTime t k) (f := retryComes k) rfl rfl undisputed inside length effect
    fun u ends => ⟨ends.others, ends.kept, fun idle work unanswered =>
      (ends.state unanswered).trans (if_pos ⟨idle, work, rfl⟩)⟩

theorem takes_lateStroke : Takes (.lateStroke t k) s [.links] fun u => OtherLinks k s u
    ∧ (u.link k).kept = ((s.link k).discardLate (max s.now t)).kept
    ∧ (∀ q ∈ (u.link k).queue.drop (s.link k).inFlight, q.item.isStroke = true → max s.now t < q.joined + 5000)
    ∧ ((u.link k).queue.take (s.link k).inFlight).map (·.joined)
      = ((s.link k).queue.take (s.link k).inFlight).map (·.joined) := by
  refine Takes.of_link (i := .lateStroke t k) (f := strokesLate k) (g := fun l => l.discardLate (max s.now t))
    rfl rfl undisputed inside length rfl (fun u ends => ?_) (Link.discardLate_staged _ _).trans
  have queue : (u.link k).queue = ((s.link k).discardLate (max s.now t)).queue := by
    have kept := congrArg Link.queue ends.kept
    exact kept
  refine ⟨ends.others, ends.kept, ?_, ?_⟩
  · rw [queue]
    exact (s.link k).discardLate_timely _
  · rw [queue]
    exact (s.link k).discardLate_take _

theorem takes_heartbeat (set : (s.link k).heartbeatAt = some e) (passed : e ≤ max s.now t) :
    Takes (.heartbeatExpiry t k) s [.links] fun u => OtherLinks k s u
      ∧ (u.link k).kept = ((s.link k).beating (max s.now t) (cfgOf s k)).kept := by
  have effect : heartbeatExpires k (s.atTime t)
      = (s.atTime t).modLink k (Link.beating (max s.now t) (cfgOf s k)) :=
    if_pos (due_eq_true (s := s.atTime t) set passed)
  exact Takes.of_link (i := .heartbeatExpiry t k) (f := heartbeatExpires k) rfl rfl undisputed inside length effect
    fun u ends => ⟨ends.others, ends.kept⟩

theorem takes_silence_again (set : (s.link k).silenceAt = some e) (passed : e ≤ max s.now t)
    (lost : (s.link k).lost = true) :
    Takes (.silenceWatchExpiry t k) s [.links] fun u => OtherLinks k s u
      ∧ (u.link k).kept = (s.link k).silent.kept := by
  have effect : silenceExpires k (s.atTime t) = (s.atTime t).modLink k Link.silent := by
    refine (if_pos (due_eq_true (s := s.atTime t) set passed)).trans ?_
    show when (!(s.link k).lost) _ _ = _
    rw [lost]
    rfl
  exact Takes.of_link (i := .silenceWatchExpiry t k) (f := silenceExpires k) rfl rfl undisputed inside length effect
    fun u ends => ⟨ends.others, ends.kept⟩

end

end Sys2Proof.Machine
end

section
/-! The silence watch (R128, R146), and the timers of a link. -/

set_option Elab.async false

namespace Sys2Proof.Machine

variable {s u v w : State} {j k : Nat} {n t e : Time} {cause : ClearLostCause}

/-! ### A line that is lost (R128) -/

/-- An outbound line that is lost: a CLEAR one goes BLOCKED. -/
def Outbound.lost (now : Time) (o : Outbound) : Outbound :=
  (((if o.state = some .clear then o.movedAt .blocked false now else o).guarded true)).unrefused

theorem Outbound.lost_spec (now : Time) (o : Outbound) : (o.lost now).guard = true
    ∧ (o.state = some .clear → (o.lost now).state = some .blocked) ∧ (o.state ≠ some .clear → (o.lost now).state = o.state) := by
  refine ⟨rfl, fun clear => ?_, fun other => ?_⟩
  · simp only [lost, if_pos clear]
    rfl
  · simp only [lost, if_neg other]
    rfl

theorem moves_lineLost (k : Nat) (cause : ClearLostCause) (s : State) :
    Moves [.note, .record, .evaluate, .inb, .outb] s (lineLost k cause s) :=
  (((Moves.refl.to_when _ fun _ => Moves.refl.to_setOutbound k _ _ _).to_setGuard k _).to_modOutb k _).to_evalCoils k

theorem lineLost_outb (here : within k s.outbound.length = true) : (lineLost k cause s).outb k = (s.outb k).lost s.now := by
  have later (w : State) (here : within k w.outbound.length = true) :
      (evalCoils k ((setGuard k true w).modOutb k Outbound.unrefused)).outb k = ((w.outb k).guarded true).unrefused := by
    have both := (shifts_setGuard k true w).trans (shifts_modOutb k Outbound.unrefused (setGuard k true w))
    refine Eq.trans ?_ (both.outb here)
    exact congrArg (fun l : List Outbound => nth l {} k) ((moves_evalCoils k _).exactly .outbound)
  by_cases clear : (s.outb k).state = some .clear
  · have moved := shifts_setOutbound (k := k) (s := s) (new := .blocked) (through := false) (lost := some cause) here
    have here' : within k (setOutbound k .blocked false (some cause) s).outbound.length = true := by
      rw [moved.lines, length_modAt]
      exact here
    have ended := later (setOutbound k .blocked false (some cause) s) here'
    rw [moved.outb here] at ended
    rw [Outbound.lost, if_pos clear, ← ended, lineLost, clear]
    rfl
  · have off : ((s.outb k).state == some .clear) = false := beq_eq_false_iff_ne.2 clear
    rw [Outbound.lost, if_neg clear, ← later s here, lineLost, off, when_false]
    rfl

/-! ### The far view -/

theorem evalCoils_farView (k j : Nat) (s : State) : ((evalCoils k s).inb j).farView = (s.inb j).farView := by
  rw [State.inb, evalCoils_inbound, nth_modAt]
  split
  · next own => rw [own.1]; rfl
  · rfl

theorem lineLost_farView (k : Nat) (cause : ClearLostCause) (s : State) (j : Nat) :
    ((lineLost k cause s).inb j).farView = (s.inb j).farView := by
  have still {u w : State} {ks : List Kind} (moves : Moves ks u w) (away : ∀ x ∈ ks, Part.inbound ∉ x.parts := by decide) :
      w.inb j = u.inb j := congrArg (fun l : List Inbound => nth l {} j) (moves.exactly .inbound away)
  have blocked (w : State) : ((setOutbound k .blocked false (some cause) w).inb j).farView = (w.inb j).farView := by
    refine (evalCoils_farView k j _).trans (congrArg Inbound.farView ?_)
    exact still ((((Moves.refl.to_changeOutb k _).to_append _).to_when _ fun _ => Moves.refl.to_withdrawAllowances _ _).to_when _
      (fun _ => Moves.refl.to_grantAllowances _) |>.to_evaluateLine (ks := [.note, .record, .evaluate, .outb]) _)
  rw [lineLost, evalCoils_farView, still ((Moves.refl.to_setGuard (ks := [.note, .outb]) k true).to_modOutb k _)]
  exact when_keeps (I := fun u => (u.inb j).farView = (s.inb j).farView) _ (fun _ => blocked s) rfl

def Inbound.unseen (i : Inbound) : Inbound := { i with farView := none }

theorem farViewLost_inb (here : within k s.inbound.length = true) : ((farViewLost k s).inb k).farView = none := by
  have here' : within k (changeInb k Inbound.unseen s).inbound.length = true := by rwa [changeInb_length]
  have crossed := inb_of_modAt (crossCheck_inbound k (changeInb k Inbound.unseen s)) here'
  have unseen : (changeInb k Inbound.unseen s).inb k = (s.inb k).unseen := changeInb_inb here
  obtain ⟨a, b, c, same⟩ := Inbound.crossed_eq (changeInb k Inbound.unseen s).now
    ((changeInb k Inbound.unseen s).tables.link k).heartbeat ((changeInb k Inbound.unseen s).inb k)
  rw [show (farViewLost k s).inb k = _ from crossed, same, unseen]
  rfl

theorem farViewLost_find {c : Nat} {o : Option Nat} (other : c ≠ 19) :
    (farViewLost k s).faults.find c o = s.faults.find c o := by
  have removed (w : State) : (removeSelfClearing 19 (some k) w).faults.find c o = w.faults.find c o := by
    simp only [removeSelfClearing]
    split
    · rfl
    · next r found =>
      have held : w.faults.records.find? (fun q => q.isFor 19 (some k)) = some r := found
      have own := List.find?_some held
      have source : r.source = 19 := ((isFor_iff r 19 (some k)).1 own).1
      refine Faults.find_remove_other fun own => other ?_
      exact (congrArg Prod.fst own).trans source
  have checked (w : State) : (crossCheck k w).faults.find c o = w.faults.find c o := by
    simp only [crossCheck]
    split
    · exact when_keeps (I := fun u => u.faults.find c o = w.faults.find c o) _ (fun _ => removed _) rfl
    · split <;> rfl
  exact (checked _).trans (congrArg (·.find c o) ((moves_changeInb k Inbound.unseen s).exactly .faults))

/-! ### LINK_LOST begins (R146) -/

/-- Link `k` marked lost, and its cause counted. -/
def lossNoted (k : Nat) (s : State) : State := noteOccurrence 16 (some k) (s.modLink k Link.silent)

/-- What the cause brings, where the mode stays. -/
def lossTold (k : Nat) (s : State) : State := lineLost k .linkLost (noteFault 16 (farViewLost k (lossNoted k s)))

theorem silenceExpires_of_lost (set : (s.link k).silenceAt = some e) (passed : e ≤ s.now) (fresh : (s.link k).lost = false)
    (calm : reactionOf s 16 ≠ .suspend ∨ s.mode ≠ some .service)
    (absent : s.faults.find 16 (some k) = none) (room : s.faults.records.length < 32) :
    silenceExpires k s = lossTold k s := by
  have made : occurrence (s.modLink k Link.silent) 16 (some k) = ⟨reactionOf s 16, 16, 1⟩ := occurrence_of_absent absent room
  have calmed (u : State) (mode : u.mode = s.mode) : suspends ⟨reactionOf s 16, 16, 1⟩ u = false := by
    rcases calm with other | other
    · simp [suspends, other]
    · have off : u.mode ≠ some .service := mode ▸ other
      simp [suspends, State.inService, off]
  have counted : (lossNoted k s).mode = s.mode := (leaves_noteOccurrence 16 (some k) (s.modLink k Link.silent)).mode_eq
  have unseen : (noteFault 16 (farViewLost k (lossNoted k s))).mode = s.mode :=
    (((Moves.refl (ks := lineKinds)).to_farViewLost k).exactly .mode).1.trans counted
  have told : (lossTold k s).mode = s.mode := ((moves_lineLost k .linkLost _).exactly .mode).1.trans unseen
  have begun : beginCause 16 (some k) (farViewLost k) (lineLost k .linkLost) (s.modLink k Link.silent) = lossTold k s := by
    have form : beginCause 16 (some k) (farViewLost k) (lineLost k .linkLost) (s.modLink k Link.silent)
        = when (suspends ⟨reactionOf s 16, 16, 1⟩ (lineLost k .linkLost
            (when (suspends ⟨reactionOf s 16, 16, 1⟩ (noteFault 16 (farViewLost k (lossNoted k s))))
              (append (.mode (noteFault 16 (farViewLost k (lossNoted k s))).mode .suspended))
              (noteFault 16 (farViewLost k (lossNoted k s)))))) (takeRestriction .suspended)
          (lineLost k .linkLost
            (when (suspends ⟨reactionOf s 16, 16, 1⟩ (noteFault 16 (farViewLost k (lossNoted k s))))
              (append (.mode (noteFault 16 (farViewLost k (lossNoted k s))).mode .suspended))
              (noteFault 16 (farViewLost k (lossNoted k s))))) := by
      simp only [beginCause, made]
      simp only [lossNoted, noteOccurrence, made]
    rw [form, calmed _ unseen, when_false, show lineLost k .linkLost (noteFault 16 (farViewLost k (lossNoted k s)))
      = lossTold k s from rfl, calmed _ told, when_false]
  refine (if_pos (due_eq_true set passed)).trans ?_
  show when (!(s.link k).lost) _ _ = _
  rw [fresh, Bool.not_false, when_true]
  exact begun

theorem leaves_modLink (k : Nat) (g : Link → Link) (s : State) : Leaves [.links] s (s.modLink k g) :=
  ⟨rfl, rfl, rfl, fun p away => by cases p <;> simp [Part.exactly] at away ⊢⟩

theorem lossTold_find (undisputed : s.Undisputed) (absent : s.faults.find 16 (some k) = none)
    (room : s.faults.records.length < 32) : ((lossTold k s).faults.find 16 (some k)).isSome = true := by
  have new := (noteOccurrence_new (s := s.modLink k Link.silent) absent room (x := reactionOf s 16) rfl).1
  have noted : ((lossNoted k s).faults.find 16 (some k)).isSome = true :=
    congrArg Option.isSome ((congrArg (fun f : Faults => f.find 16 (some k)) new).trans
      (Faults.find_append absent ((isFor_iff _ _ _).2 ⟨rfl, rfl⟩)))
  have counted : (lossNoted k s).Undisputed := by
    have levers := (leaves_noteOccurrence 16 (some k) (s.modLink k Link.silent)).2.2.2 .levers (by decide)
    exact fun l held => undisputed l (levers ▸ held)
  have unseen := (Moves.refl (ks := lineKinds) (s := lossNoted k s)).to_farViewLost k
  have lost := (moves_lineLost k .linkLost (noteFault 16 (farViewLost k (lossNoted k s)))).faults_kept
    (unseen.undisputed counted)
  rw [lossTold, lost, show (noteFault 16 (farViewLost k (lossNoted k s))).faults = (farViewLost k (lossNoted k s)).faults from rfl,
    farViewLost_find (by decide)]
  exact noted

theorem takes_silence (undisputed : s.Undisputed) (inside : within k 3 = true) (length : s.links.length = 3)
    (inbound : s.inbound.length = 3) (outbound : s.outbound.length = 3)
    (set : (s.link k).silenceAt = some e) (passed : e ≤ max s.now t) (fresh : (s.link k).lost = false)
    (calm : reactionOf s 16 ≠ .suspend ∨ s.mode ≠ some .service)
    (absent : s.faults.find 16 (some k) = none) (room : s.faults.records.length < 32) :
    Takes (.silenceWatchExpiry t k) s [.links, .inbound, .outbound, .levers, .faults, .register] fun u =>
      OtherLinks k s u ∧ (u.link k).kept = (s.link k).silent.kept ∧ (u.faults.find 16 (some k)).isSome = true
        ∧ (u.outb k).guard = true ∧ (u.inb k).farView = none
        ∧ ((s.outb k).state = some .clear → (u.outb k).state = some .blocked)
        ∧ ((s.outb k).state ≠ some .clear → (u.outb k).state = (s.outb k).state) := by
  have effect := silenceExpires_of_lost (s := s.atTime t) set passed fresh calm absent room
  have moves : Moves (.link :: raiseKinds) (s.atTime t) (silenceExpires k (s.atTime t)) :=
    Moves.refl.to_silenceExpires k
  rw [effect] at moves
  have noted := (leaves_modLink k Link.silent (s.atTime t)).mono
    (qs := [.links, .faults, .register, .transmitter]) (by simp) |>.trans
    ((leaves_noteOccurrence 16 (some k) ((s.atTime t).modLink k Link.silent)).mono (by simp))
  have later : Moves lineKinds (lossNoted k (s.atTime t)) (lossTold k (s.atTime t)) :=
    ((Moves.refl.to_farViewLost k).to_noteFault 16).to_lineLost k .linkLost
  have unseen : Moves lineKinds (lossNoted k (s.atTime t)) (noteFault 16 (farViewLost k (lossNoted k (s.atTime t)))) :=
    (Moves.refl.to_farViewLost k).to_noteFault 16
  have links : (lossTold k (s.atTime t)).links = modAt s.links {} k Link.silent :=
    (later.exactly .links).trans
      ((leaves_noteOccurrence 16 (some k) ((s.atTime t).modLink k Link.silent)).2.2.2 .links (by decide))
  have lines : (noteFault 16 (farViewLost k (lossNoted k (s.atTime t)))).outbound = s.outbound :=
    (((Moves.refl (ks := [.note, .record, .inb, .faults]).to_changeInb k _).to_crossCheck k).exactly .outbound).trans
      (noted.2.2.2 .outbound (by decide))
  have inb : (lossNoted k (s.atTime t)).inbound = s.inbound := noted.2.2.2 .inbound (by decide)
  have outb : (lossTold k (s.atTime t)).outb k = (s.outb k).lost (max s.now t) := by
    have ended := lineLost_outb (k := k) (cause := .linkLost) (s := noteFault 16 (farViewLost k (lossNoted k (s.atTime t))))
      (by rw [lines]; exact here_of_within 3 inside outbound)
    rw [show (noteFault 16 (farViewLost k (lossNoted k (s.atTime t)))).outb k = s.outb k from
      congrArg (fun l : List Outbound => nth l {} k) lines] at ended
    rw [show (max s.now t : Nat) = (noteFault 16 (farViewLost k (lossNoted k (s.atTime t)))).now from
      ((unseen.now_eq (by decide)).trans noted.2.2.1).symm]
    exact ended
  have far : ((lossTold k (s.atTime t)).inb k).farView = none := by
    rw [lossTold, lineLost_farView]
    exact farViewLost_inb (by rw [inb]; exact here_of_within 3 inside inbound)
  obtain ⟨guard, cleared, other⟩ := (s.outb k).lost_spec (max s.now t)
  refine Takes.of_parts (f := silenceExpires k) rfl rfl undisputed effect moves
    ((noted.mono (by simp)).trans ((later.leaves (qs := [.inbound, .outbound, .levers, .faults, .register, .transmitter])).mono (by simp))) fun agreed now => ?_
  have line : ((finish (lossTold k (s.atTime t))).outb k).kept = ((s.outb k).lost (max s.now t)).kept :=
    (finish_outb agreed k).trans (congrArg Outbound.kept outb)
  have state : ((finish (lossTold k (s.atTime t))).outb k).state = ((s.outb k).lost (max s.now t)).state := by
    have kept := congrArg Outbound.state line
    exact kept
  refine ⟨finish_other_links (s := s) agreed links, finish_own_link (s := s) agreed links (here_of_within 3 inside length), ?_,
    ?_, ?_, fun clear => state.trans (cleared clear), fun off => state.trans (other off)⟩
  · have found := lossTold_find (k := k) (s := s.atTime t) undisputed absent room
    rwa [← finish_faults agreed] at found
  · have kept := congrArg Outbound.guard line
    exact Eq.trans kept guard
  · rw [finish_inb agreed]
    exact far

/-! ### The timers -/

/-- Settles O49: each timer waits for its time, and does to its link what R140 to R146 say. -/
theorem linkTimersActAtTheirTimes : Obligations.LinkTimersActAtTheirTimes := by
  unfold Obligations.LinkTimersActAtTheirTimes
  rintro s t k l failed c n undisputed inside length inbound outbound rfl rfl rfl rfl
  have early {a : Option Time} (waits : ∀ e, a = some e → max s.now t < e) : due (s.atTime t) a = false :=
    due_eq_false (s := s.atTime t) waits
  have barred {st : LinkState} {a : Option Time} (off : (s.link k).state ≠ st ∨ ∀ e, a = some e → max s.now t < e) :
      ¬ ((s.link k).state = st ∧ due (s.atTime t) a = true) := fun on =>
    off.elim (absurd on.1) fun waits => Bool.false_ne_true ((early waits).symm.trans on.2)
  refine ⟨fun off => ?_, fun e bids set passed => ⟨fun again => ?_, fun lost => ?_⟩, fun off => ?_,
    fun e waits set passed => ⟨fun again => ?_, fun lost => ?_⟩, fun off => ?_, fun e receives set passed => ?_,
    fun waits => ?_, fun e set passed => ?_, ?_, fun waits => ?_, fun e set passed => ?_, fun waits => ?_,
    fun e set passed => ⟨fun lost => ?_, fun fresh calm absent room => ?_⟩⟩
  · exact .of_idle rfl rfl undisputed (if_neg (barred off)) fun _ => trivial
  · exact takes_answerTimer undisputed inside length bids set passed again
  · exact takes_exchangeLost undisputed inside length (f := answerExpires k) rfl rfl
      ((if_pos ⟨bids, due_eq_true (s := s.atTime t) set passed⟩).trans (bidFailed_of_lost (s := s.atTime t) lost))
  · exact .of_idle rfl rfl undisputed (if_neg (barred off)) fun _ => trivial
  · exact takes_takenTimer undisputed inside length waits set passed again
  · exact takes_exchangeLost undisputed inside length (f := takenExpires k) rfl rfl
      ((if_pos ⟨waits, due_eq_true (s := s.atTime t) set passed⟩).trans (dataFailed_of_lost (s := s.atTime t) false lost))
  · exact .of_idle rfl rfl undisputed (if_neg (barred off)) fun _ => trivial
  · exact takes_dataTimer undisputed inside length receives set passed
  · exact .of_idle rfl rfl undisputed (if_neg fun on => Bool.false_ne_true ((early waits).symm.trans on)) fun _ => trivial
  · exact takes_retryTime undisputed inside length set passed
  · exact takes_lateStroke undisputed inside length
  · exact .of_idle rfl rfl undisputed (if_neg fun on => Bool.false_ne_true ((early waits).symm.trans on)) fun _ => trivial
  · exact takes_heartbeat undisputed inside length set passed
  · exact .of_idle rfl rfl undisputed (if_neg fun on => Bool.false_ne_true ((early waits).symm.trans on)) fun _ => trivial
  · refine (takes_silence_again undisputed inside length set passed lost).imp fun u got => ⟨got.1, got.2.trans ?_⟩
    rw [Link.silent, ← lost]
  · exact takes_silence undisputed inside length inbound outbound set passed fresh calm absent room

end Sys2Proof.Machine
end

section
/-! The causes that take a link out of use (R145, R147, R148). -/

set_option Elab.async false

namespace Sys2Proof.Machine

variable {s u v w : State} {c j k x : Nat} {n t : Time} {l : Link} {d : Nat} {o : Option Nat}

/-- The codes of the causes that confine links (R145, R148). -/
abbrev OfLink (c : Nat) : Prop := c = 17 ∨ c = 18

/-! ### The record of a link taken out of use -/

/-- A link that enters OUT_OF_USE (R147). -/
def Link.putOut (l : Link) : Link :=
  { l with state := .outOfUse, sending := none, answer := none, toDeliver := [], flight := none
           indicationDue := l.indicationDue || l.carriesIndication
           answerAt := none, takenAt := none, dataAt := none, backOffAt := none
           retryAt := none, heartbeatAt := none, silenceAt := none
           queue := [], damaged := [], assembling := none, loopback := none }

/-- A link that a source has begun to confine (R147). -/
def Link.withSource (x : Nat) (l : Link) : Link := { l with confinement := addSource x l.confinement }

def Link.confinedBy (x : Nat) (l : Link) : Link :=
  if l.state = .outOfUse then l.withSource x else (l.withSource x).putOut

theorem Link.confinedBy_state (x : Nat) (l : Link) : (l.confinedBy x).state = .outOfUse := by
  simp only [confinedBy]
  split
  · next out => exact out
  · rfl

theorem Link.confinedBy_crossed (x : Nat) (l : Link) : (l.confinedBy x).crossedDue = l.crossedDue := by
  simp only [confinedBy]
  split <;> rfl

theorem Link.confinedBy_confinement (x : Nat) (l : Link) : (l.confinedBy x).confinement = addSource x l.confinement := by
  simp only [confinedBy]
  split <;> rfl

theorem moves_farViewLost (k : Nat) (s : State) : Moves lineKinds s (farViewLost k s) := Moves.refl.to_farViewLost k

theorem confineLink_links (here : within k s.links.length = true) :
    (confineLink x k s).links = modAt s.links {} k (Link.confinedBy x) := by
  have link : (s.modLink k (Link.withSource x)).link k = (s.link k).withSource x := State.link_modLink_same _ _ _ here
  by_cases out : (s.link k).state = .outOfUse
  · have same : confineLink x k s = s.modLink k (Link.withSource x) := if_pos ((congrArg Link.state link).trans out)
    rw [same]
    exact modAt_congr (if_pos out).symm
  · have entered : confineLink x k s = farViewLost k ((s.modLink k (Link.withSource x)).modLink k Link.putOut) :=
      if_neg fun state => out ((congrArg Link.state link).symm.trans state)
    rw [entered, (moves_farViewLost k _).exactly .links]
    change modAt (modAt s.links {} k _) {} k _ = _
    rw [modAt_modAt]
    exact modAt_congr (if_neg out).symm

theorem confineLink_find (other : d ≠ 19) :
    (confineLink x k s).faults.find d o = s.faults.find d o := by
  simp only [confineLink]
  split
  · rfl
  · exact farViewLost_find other

/-! ### The cause -/

section
variable (own : OfLink c) (acts : (occurrence s c (some k)).reaction ≠ .report)
include own acts

/-- The cause, up to its notice. -/
theorem confineOccurrence_link : confineOccurrence c (some k) s = noteFault (occurrence s c (some k)).source
    (confineLink (occurrence s c (some k)).source k (noteOccurrence c (some k) s)) := by
  have reacts : ((occurrence s c (some k)).reaction != .report) = true := bne_iff_ne.2 acts
  rw [confineOccurrence, reacts, when_true]
  rcases own with rfl | rfl <;> rfl

theorem moves_told_after_link : Moves lineKinds
    (confineLink (occurrence s c (some k)).source k (noteOccurrence c (some k) s)) (tellOccurrence c (some k) s) := by
  have told : Moves lineKinds (confineLink (occurrence s c (some k)).source k (noteOccurrence c (some k) s))
      (when (suspends (occurrence s c (some k)) (confineOccurrence c (some k) s))
        (append (.mode (confineOccurrence c (some k) s).mode .suspended)) (confineOccurrence c (some k) s)) := by
    rw [confineOccurrence_link own acts]
    exact (Moves.refl.to_noteFault _).to_when _ fun _ => Moves.refl.to_append _
  unfold tellOccurrence
  cases linkTaken c (some k) s with
  | none => exact told
  | some j => exact told.to_lineLost j _

/-- The cause from its record and entry on, up to the change of the mode. -/
theorem moves_tell_link : Moves (.link :: lineKinds) (noteOccurrence c (some k) s) (tellOccurrence c (some k) s) :=
  (Moves.refl.to_confineLink _ k).trans ((moves_told_after_link own acts).mono (by simp))

theorem tellOccurrence_links (here : within k s.links.length = true) :
    (tellOccurrence c (some k) s).links = modAt s.links {} k (Link.confinedBy (occurrence s c (some k)).source) := by
  have noted : (noteOccurrence c (some k) s).links = s.links :=
    (leaves_noteOccurrence c (some k) s).2.2.2 .links (by decide)
  rw [(moves_told_after_link own acts).exactly .links, confineLink_links (by rwa [noted]), noted]

theorem leaves_tell_link : Leaves [.links, .inbound, .outbound, .levers, .faults, .register, .transmitter] s
    (tellOccurrence c (some k) s) :=
  ((leaves_noteOccurrence c (some k) s).mono (by simp)).trans ((moves_tell_link own acts).leaves)

end

/-- A cause that confines a link, the mode staying. -/
theorem raise_link_confine (confines : (occurrence s c (some k)).reaction = .confine) :
    raise c (some k) s = tellOccurrence c (some k) s := by
  rw [raise_eq, suspends, confines]
  rfl

/-- A cause that confines a link and suspends the part. -/
theorem raise_link_suspend (suspended : (occurrence s c (some k)).reaction = .suspend) :
    raise c (some k) s = when (tellOccurrence c (some k) s).inService (takeRestriction .suspended)
      (tellOccurrence c (some k) s) := by
  rw [raise_eq, suspends, suspended]
  rfl

/-- A change of the mode leaves the links but for the indication due. -/
theorem takeRestriction_link (m : Mode) (s : State) (k : Nat) :
    ((takeRestriction m s).link k).state = (s.link k).state
      ∧ ((takeRestriction m s).link k).crossedDue = (s.link k).crossedDue
      ∧ ((takeRestriction m s).link k).answer = (s.link k).answer ∧ (takeRestriction m s).links.length = s.links.length := by
  have restricted : (blocksRestrict (takeMode m s)).links = s.links := by
    have later : Moves [.note, .inb] (evaluateAll (endReleasesForMode (takeMode m s))) (blocksRestrict (takeMode m s)) :=
      Moves.refl.to_forEach _ fun k _ => Moves.refl.to_cutPermission k _
    exact (later.exactly .links).trans (((leaves_evaluateAll _).2.2.2 .links (by decide)).trans
      (((leaves_endReleasesForMode _).2.2.2 .links (by decide)).trans ((leaves_takeMode m s).2.2.2 .links (by decide))))
  have start : (blocksRestrict (takeMode m s)).link k = s.link k := congrArg (fun l : List Link => nth l {} k) restricted
  have length := congrArg List.length restricted
  unfold takeRestriction
  refine when_keeps (I := fun u => (u.link k).state = (s.link k).state ∧ (u.link k).crossedDue = (s.link k).crossedDue
    ∧ (u.link k).answer = (s.link k).answer ∧ u.links.length = s.links.length) _ (fun _ => ?_) (by rw [start]; exact ⟨rfl, rfl, rfl, length⟩)
  refine forEach_keeps (I := fun u => (u.link k).state = (s.link k).state ∧ (u.link k).crossedDue = (s.link k).crossedDue
    ∧ (u.link k).answer = (s.link k).answer ∧ u.links.length = s.links.length) _ (fun j _ u same => ?_) _ (by rw [start]; exact ⟨rfl, rfl, rfl, length⟩)
  obtain ⟨state, crossed, answer, length⟩ := same
  rw [State.link_modLink]
  have sameLength (g : Link → Link) : (u.modLink j g).links.length = u.links.length := length_modAt _ _ _ _
  refine ⟨?_, ?_, ?_, (sameLength _).trans length⟩
  · split
    · next own => rw [← own.1]; exact state
    · exact state
  · split
    · next own => rw [← own.1]; exact crossed
    · exact crossed
  · split
    · next own => rw [← own.1]; exact answer
    · exact answer

end Sys2Proof.Machine
end

section
/-! The loopback test of a link (R148). -/

set_option Elab.async false

namespace Sys2Proof.Machine

variable {s u v w : State} {k : Nat} {n t e : Time} {l : Link} {b : Loopback} {bytes : List Byte}

/-! ### The records of a test -/

def Link.testing (p : LoopbackFor) (n : Time) (l : Link) : Link :=
  { l with state := .loopback, retryAt := none, heartbeatAt := none, answer := none
           sending := none, toDeliver := []
           assembling := none
           loopback := some { purpose := p, startAt := some (n + 20) } }

def Loopback.sent (ends : Time) (b : Loopback) : Loopback := { b with startAt := none, sentAt := some ends }
def Loopback.passed (ends : Time) (b : Loopback) : Loopback :=
  { b with frame := b.frame + 1, startAt := some (ends + 20), sentAt := none }

def Link.onTest (b : Loopback) (l : Link) : Link := { l with loopback := some b }

def Link.entered (n : Time) (c : LinkCfg) (l : Link) : Link :=
  { l with state := .idle, bidAttempts := 0, dataAttempts := 0, indicationDue := true
           heartbeatAt := some (n + c.heartbeat * 1000), silenceAt := some (n + c.silence * 1000), loopback := none }

/-! ### RUN TEST of a link -/

theorem cmdTestLink_of_state {wt : Waiter} (inside : within k 3 = true)
    (off : s.linkOn k = false ∨ (s.link k).state = .outOfUse ∨ (s.inb k).state ≠ some .blocked
      ∨ (s.inb k).offered ≠ none ∨ (s.outb k).state ≠ some .blocked ∨ (s.outb k).offered ≠ none
      ∨ (s.link k).queue ≠ [] ∨ codeOpen s k = true) : cmdTestLink wt k s = refuse .state s := by
  simp only [cmdTestLink, inside, Bool.not_true, Bool.false_eq_true, if_false]
  split
  · rfl
  · next on =>
    split
    · rfl
    · next blocked =>
      rw [if_pos]
      simp only [Bool.or_eq_true, Bool.not_eq_true', beq_iff_eq, not_or, Bool.not_eq_false, not_not] at on blocked
      obtain ⟨inb, offered, outb, offered'⟩ := blocked
      rcases off with x | x | x | x | x | x | x | x
      · exact absurd on.1 (by simp [x])
      · exact absurd x on.2
      · exact absurd inb x
      · exact absurd offered x
      · exact absurd outb x
      · exact absurd offered' x
      · simpa using .inl x
      · simp [x]

/-- A link whose lines are BLOCKED, with nothing queued and no code open (R148). -/
structure TestReady (k : Nat) (s : State) : Prop where
  inside : within k 3 = true
  on : s.linkOn k = true
  used : (s.link k).state ≠ .outOfUse
  inbound : (s.inb k).state = some .blocked
  inOffer : (s.inb k).offered = none
  outbound : (s.outb k).state = some .blocked
  outOffer : (s.outb k).offered = none
  empty : (s.link k).queue = []
  closed : codeOpen s k = false

theorem TestReady.atTime (h : TestReady k s) (t : Time) : TestReady k (s.atTime t) :=
  ⟨h.inside, h.on, h.used, h.inbound, h.inOffer, h.outbound, h.outOffer, h.empty, h.closed⟩

theorem TestReady.ran (h : TestReady k s) (wt : Waiter) : cmdTestLink wt k s
    = if (s.link k).state ≠ .idle then refuse .busy s else (beginLoopback k (.host wt) s, .waits) := by
  obtain ⟨inside, on, used, inbound, inOffer, outbound, outOffer, empty, closed⟩ := h
  have used : ((s.link k).state == .outOfUse) = false := beq_eq_false_iff_ne.2 used
  simp [cmdTestLink, inside, on, used, inbound, inOffer, outbound, outOffer, empty, closed]

theorem takes_testBegun (ready : TestReady k s) (s_open : s.Open) (length : s.links.length = 3)
    (idle : (s.link k).state = .idle) :
    Takes (.runTestLink t k) s [.links, .result] fun u => OtherLinks k s u
      ∧ u.host.lastResult = none ∧ (u.link k).state = .loopback
      ∧ (u.link k).loopback = some { purpose := .host .alone, startAt := some (max s.now t + 20) } := by
  have here := here_of_within 3 ready.inside length
  have ran : cmdTestLink .alone k (s.atTime t)
      = ((s.atTime t).modLink k (Link.testing (.host .alone) (max s.now t)), .waits) :=
    ((ready.atTime t).ran .alone).trans (if_neg fun busy => busy idle)
  have links : (((s.atTime t).modLink k (Link.testing (.host .alone) (max s.now t))).modHost HostPort.unanswered).links
      = modAt s.links {} k (Link.testing (.host .alone) (max s.now t)) := rfl
  have link : (((s.atTime t).modLink k (Link.testing (.host .alone) (max s.now t))).modHost HostPort.unanswered).link k
      = (s.link k).testing (.host .alone) (max s.now t) := State.link_modLink_same (s.atTime t) k _ here
  refine Takes.of_waits rfl rfl s_open ran (Moves.refl.to_modLink (ks := [.link]) k _) fun agreed _ => ?_
  have own := finish_own_link (s := s) agreed links here
  refine ⟨finish_other_links (s := s) agreed links, finish_lastResult agreed, ?_, ?_⟩
  · rw [finish_link_state agreed ready.inside (by rw [links, length_modAt]; exact here) (congrArg Link.answer link), link]
    exact if_neg fun goes => nomatch goes.1
  · have loopback := congrArg Link.loopback own
    exact loopback

/-! ### The frames of a test -/

theorem loopbackSend_of_due (runs : (s.link k).loopback = some b) (set : b.startAt = some e) (passed : e ≤ s.now) :
    loopbackSend k s = s.modLink k (Link.onTest (b.sent (s.now + lineTime (loopbackFrame s b.frame).length))) := by
  simp only [loopbackSend, runs, set, Option.any_some, decide_eq_true passed, if_true]
  rfl

theorem loopbackSend_of_early (runs : (s.link k).loopback = some b) (early : ∀ e, b.startAt = some e → s.now < e) :
    loopbackSend k s = s := by
  have waits : (b.startAt.any fun t => decide (t ≤ s.now)) = false := by
    cases set : b.startAt with
    | none => rfl
    | some e => simpa using early e set
  simp only [loopbackSend, runs, waits, Bool.false_eq_true, if_false]

theorem loopbackTake_of_unsent (runs : (s.link k).loopback = some b) (unsent : b.sentAt = none) :
    loopbackTake k bytes s = (s, none) := by
  simp only [loopbackTake, runs, unsent]

theorem loopbackLate_of_early (runs : (s.link k).loopback = some b) (early : ∀ e, b.sentAt = some e → s.now ≤ e + 20) :
    loopbackLate k s = (s, none) := by
  have waits : (b.sentAt.any fun t => decide (t + 20 < s.now)) = false := by
    cases set : b.sentAt with
    | none => rfl
    | some e => simpa using early e set
  simp only [loopbackLate, runs, waits, Bool.false_eq_true, if_false]

theorem loopbackTake_of_next (runs : (s.link k).loopback = some b) (sent : b.sentAt = some e) (timely : s.now ≤ e + 20)
    (more : b.frame < 5) : loopbackTake k (loopbackFrame s b.frame) s = (s.modLink k (Link.onTest (b.passed e)), none) := by
  simp only [loopbackTake, runs, sent, timely, and_self, if_true, more]
  rfl

theorem loopbackTake_of_last (runs : (s.link k).loopback = some b) (sent : b.sentAt = some e) (timely : s.now ≤ e + 20)
    (last : b.frame = 5) : loopbackTake k (loopbackFrame s 5) s = loopbackPass k b s := by
  simp only [loopbackTake, runs, sent, last, timely, and_self, if_true, Nat.lt_irrefl, if_false]

theorem loopbackTake_of_wrong (runs : (s.link k).loopback = some b) (sent : b.sentAt = some e)
    (wrong : bytes ≠ loopbackFrame s b.frame ∨ e + 20 < s.now) : loopbackTake k bytes s = loopbackFail k b s := by
  simp only [loopbackTake, runs, sent]
  exact if_neg fun right => wrong.elim (absurd right.1) fun late => absurd right.2 (Nat.not_le.2 late)

theorem loopbackLate_of_late (runs : (s.link k).loopback = some b) (sent : b.sentAt = some e) (late : e + 20 < s.now) :
    loopbackLate k s = loopbackFail k b s := by
  simp only [loopbackLate, runs, sent, Option.any_some, decide_eq_true late, if_true]

/-! ### The end of a test -/

theorem reportCrossed_of_none (calm : (s.link k).crossedDue = false) : reportCrossed k s = s := by
  rw [reportCrossed, calm]
  rfl

theorem enterIdle_links (k : Nat) (s : State) :
    (enterIdle k s).links = modAt s.links {} k (Link.entered s.now (cfgOf s k)) :=
  (moves_evalCoils k _).exactly .links

/-- A test that a command row waits for passes: the link goes into use, and the row has its result. -/
theorem takes_testPassed (undisputed : s.Undisputed) (inside : within k 3 = true) (length : s.links.length = 3)
    (runs : (s.link k).loopback = some b) (sent : b.sentAt = some e) (timely : max s.now t ≤ e + 20) (last : b.frame = 5)
    (asked : b.purpose = .host .alone) (calm : (s.link k).crossedDue = false) :
    Takes (.loopbackFrameAssembled t k (loopbackFrame s 5)) s [.links, .inbound, .result] fun u =>
      OtherLinks k s u ∧ u.Gave 0x50 [0, 255] ∧ (u.link k).loopback = none ∧ (u.link k).indicationDue = true
        ∧ (u.link k).heartbeatAt = some (max s.now t + (cfgOf s k).heartbeat * 1000)
        ∧ (u.link k).silenceAt = some (max s.now t + (cfgOf s k).silence * 1000)
        ∧ ((s.link k).answer = none → (s.link k).retryAt = none →
          ((s.inb k).state ≠ none → (u.link k).state = .bidding)
            ∧ ((s.inb k).state = none → (s.link k).queue = [] → (u.link k).state = .idle)) := by
  have here := here_of_within 3 inside length
  have links : (endAlone (doneResult 0x50 [0, 255]) (enterIdle k (s.atTime t))).links
      = modAt s.links {} k (Link.entered (max s.now t) (cfgOf s k)) := enterIdle_links k (s.atTime t)
  have link : (endAlone (doneResult 0x50 [0, 255]) (enterIdle k (s.atTime t))).link k
      = (s.link k).entered (max s.now t) (cfgOf s k) := by
    rw [State.link, links, nth_modAt, if_pos ⟨rfl, here⟩]
    rfl
  have quiet : ((enterIdle k (s.atTime t)).link k).crossedDue = false := (congrArg Link.crossedDue link).trans calm
  have effect : afterLoopback k (loopbackTake k (loopbackFrame s 5) (s.atTime t))
      = endAlone (doneResult 0x50 [0, 255]) (enterIdle k (s.atTime t)) := by
    have taken := loopbackTake_of_last (s := s.atTime t) runs sent timely last
    have given : afterLoopback k (loopbackPass k b (s.atTime t))
        = endAlone (doneResult 0x50 [0, 255]) (reportCrossed k (enterIdle k (s.atTime t))) := by
      rw [afterLoopback, loopbackPass, asked]
      rfl
    rw [show loopbackFrame s 5 = loopbackFrame (s.atTime t) 5 from rfl, taken, given, reportCrossed_of_none quiet]
  have moves : Moves [.result, .note, .inb, .link] (s.atTime t) (endAlone (doneResult 0x50 [0, 255]) (enterIdle k (s.atTime t))) :=
    (Moves.refl.to_enterIdle k).trans ((moves_endAlone (q := doneResult 0x50 [0, 255]) rfl _).mono (by simp))
  have line : ((endAlone (doneResult 0x50 [0, 255]) (enterIdle k (s.atTime t))).inb k).state = (s.inb k).state :=
    (sameMove_evalCoils k _ k).state
  refine Takes.of_result (f := fun v => afterLoopback k (loopbackTake k (loopbackFrame s 5) v)) rfl rfl undisputed effect moves
    fun agreed _ => ?_
  have own := finish_own_link (s := s) agreed links here
  have work : hasWork (endAlone (doneResult 0x50 [0, 255]) (enterIdle k (s.atTime t))) k
      = (!(s.link k).queue.isEmpty || (s.inb k).state.isSome) := by
    simp only [hasWork, line, link, Link.entered, Bool.true_and]
  refine ⟨finish_other_links (s := s) agreed links, finish_lastResult agreed, ?_, ?_, ?_, ?_, fun unanswered ready => ?_⟩
  · have field := congrArg Link.loopback own
    exact field
  · have field := congrArg Link.indicationDue own
    exact field
  · have field := congrArg Link.heartbeatAt own
    exact field
  · have field := congrArg Link.silenceAt own
    exact field
  · have state := finish_link_state agreed inside (by rw [links, length_modAt]; exact here)
      ((congrArg Link.answer link).trans unanswered)
    rw [link, work] at state
    exact ⟨fun stands => state.trans (if_pos ⟨rfl, by rw [Option.isSome_iff_ne_none.2 stands, Bool.or_true], ready⟩),
      fun absent empty => state.trans (if_neg fun goes => by simp [absent, empty] at goes)⟩

/-! ### A test that fails -/

/-- The part after a test has failed that a command row waits for. -/
def testFailed (k : Nat) (data : List Byte) (s : State) : State :=
  endAlone (doneResult 0x50 data) (latchRecord 18 (some k) (raise 18 (some k) s))

theorem afterLoopback_of_failed (asked : b.purpose = .host .alone)
    (calm : ((raiseOnce 18 (some k) s).link k).crossedDue = false) :
    afterLoopback k (loopbackFail k b s) = testFailed k [1, byte (loopbackType b.frame).code] s := by
  rw [afterLoopback, loopbackFail, asked, reportCrossed_of_none calm]
  rfl

theorem latchRecord_links (c : Nat) (o : Option Nat) (s : State) : (latchRecord c o s).links = s.links :=
  ((Moves.refl (ks := [.note, .faults])).to_latchRecord c o).exactly .links

theorem moves_testFailed (k : Nat) (data : List Byte) (s : State) : Moves (.result :: raiseKinds) s (testFailed k data s) :=
  (Moves.refl.to_raiseOnce 18 (some k)).trans ((moves_endAlone (q := doneResult 0x50 data) rfl _).mono (by simp))

/-- What a failed test leaves alone after its cause has been raised. -/
theorem leaves_failed_told (k : Nat) (data : List Byte) (s : State) :
    Leaves [.faults, .transmitter, .result] (raise 18 (some k) s) (testFailed k data s) :=
  (((Moves.refl (ks := [.note, .faults])).to_latchRecord 18 (some k)).leaves).trans
    ((moves_endAlone (q := doneResult 0x50 data) rfl _).leaves)

section
variable (here : within k s.links.length = true)
  (acts : (occurrence s 18 (some k)).reaction = .confine ∨ (occurrence s 18 (some k)).reaction = .suspend)
include here acts

/-- The link after a failed test (R148). -/
theorem raise_link_out : ((raise 18 (some k) s).link k).state = .outOfUse
    ∧ ((raise 18 (some k) s).link k).crossedDue = (s.link k).crossedDue
    ∧ ((s.link k).state ≠ .outOfUse → ((raise 18 (some k) s).link k).answer = none)
    ∧ (raise 18 (some k) s).links.length = s.links.length := by
  have acting : (occurrence s 18 (some k)).reaction ≠ .report := by
    rcases acts with x | x <;> rw [x] <;> exact nofun
  have links := tellOccurrence_links (s := s) (k := k) (.inr rfl) acting here
  have link : (tellOccurrence 18 (some k) s).link k = (s.link k).confinedBy (occurrence s 18 (some k)).source := by
    rw [State.link, links, nth_modAt, if_pos ⟨rfl, here⟩]
    rfl
  have told : ((tellOccurrence 18 (some k) s).link k).state = .outOfUse
      ∧ ((tellOccurrence 18 (some k) s).link k).crossedDue = (s.link k).crossedDue
      ∧ ((s.link k).state ≠ .outOfUse → ((tellOccurrence 18 (some k) s).link k).answer = none)
      ∧ (tellOccurrence 18 (some k) s).links.length = s.links.length := by
    rw [link]
    refine ⟨Link.confinedBy_state _ _, Link.confinedBy_crossed _ _, fun used => ?_, by rw [links, length_modAt]⟩
    rw [Link.confinedBy, if_neg used]
    rfl
  rcases acts with confines | suspended
  · rwa [raise_link_confine confines]
  · rw [raise_link_suspend suspended]
    refine when_keeps (I := fun u => (u.link k).state = .outOfUse ∧ (u.link k).crossedDue = (s.link k).crossedDue
      ∧ ((s.link k).state ≠ .outOfUse → (u.link k).answer = none) ∧ u.links.length = s.links.length) _ (fun _ => ?_) told
    obtain ⟨state, crossed, answer, length⟩ := takeRestriction_link .suspended (tellOccurrence 18 (some k) s) k
    rw [state, crossed, answer, length]
    exact told

omit here in
theorem leaves_raise_link_test : Leaves [.links, .inbound, .outbound, .levers, .faults, .register, .transmitter, .mode] s
    (raise 18 (some k) s) := by
  have acting : (occurrence s 18 (some k)).reaction ≠ .report := by
    rcases acts with x | x <;> rw [x] <;> exact nofun
  have told := leaves_tell_link (s := s) (k := k) (.inr rfl) acting
  rcases acts with confines | suspended
  · rw [raise_link_confine confines]
    exact told.mono (by simp)
  · rw [raise_link_suspend suspended]
    exact (told.mono (by simp)).trans
      (((Moves.refl (ks := modeKinds)).to_when _ fun _ => Moves.refl.to_takeRestriction .suspended (by decide)).leaves)

end

end Sys2Proof.Machine
end

section
/-! The rows of a link's loopback test (R148). -/

set_option Elab.async false

namespace Sys2Proof.Machine

variable {s u v w : State} {k : Nat} {n t e : Time} {l : Link} {b : Loopback} {bytes data : List Byte} {i : Instr}
  {f : State → State}

section
variable (row : exec i s = .next (finish (f (s.comeTo t)))) (time : i.time = some t) (undisputed : s.Undisputed)
  (inside : within k 3 = true) (length : s.links.length = 3) (tests : (s.link k).state = .loopback)
  (effect : f (s.atTime t) = testFailed k data (s.atTime t))
include row time undisputed inside length tests effect

omit row time undisputed effect in
/-- The state and the result of a failed test, at the end of its step. -/
theorem finish_testFailed (agreed : (testFailed k data (s.atTime t)).Undisputed)
    (acts : (occurrence s 18 (some k)).reaction = .confine ∨ (occurrence s 18 (some k)).reaction = .suspend) :
    ((finish (testFailed k data (s.atTime t))).link k).state = .outOfUse
      ∧ (finish (testFailed k data (s.atTime t))).Gave 0x50 data := by
  have here := here_of_within 3 inside length
  obtain ⟨state, -, answer, same⟩ := raise_link_out (s := s.atTime t) (k := k) here acts
  have links : (testFailed k data (s.atTime t)).links = (raise 18 (some k) (s.atTime t)).links := latchRecord_links ..
  have link : (testFailed k data (s.atTime t)).link k = (raise 18 (some k) (s.atTime t)).link k :=
    congrArg (fun l : List Link => nth l {} k) links
  refine ⟨?_, finish_lastResult agreed⟩
  rw [finish_link_state agreed inside (by rw [links, same]; exact here)
    ((congrArg Link.answer link).trans (answer (tests ▸ nofun))), link]
  refine (if_neg fun goes => ?_).trans state
  exact absurd (state.symm.trans goes.1) nofun

theorem takes_testFailed_confine (confines : (occurrence s 18 (some k)).reaction = .confine) :
    Takes i s [.links, .inbound, .outbound, .levers, .faults, .register, .result] fun u =>
      OtherLinks k s u ∧ (u.link k).state = .outOfUse ∧ u.Gave 0x50 data := by
  have acting : (occurrence (s.atTime t) 18 (some k)).reaction ≠ .report := fun report =>
    absurd (confines.symm.trans report) nofun
  have told := leaves_tell_link (s := s.atTime t) (k := k) (.inr rfl) acting
  rw [← raise_link_confine (s := s.atTime t) confines] at told
  have links : (testFailed k data (s.atTime t)).links
      = modAt s.links {} k (Link.confinedBy (occurrence (s.atTime t) 18 (some k)).source) := by
    refine (latchRecord_links ..).trans ?_
    rw [raise_link_confine (s := s.atTime t) confines]
    exact tellOccurrence_links (.inr rfl) acting (here_of_within 3 inside length)
  refine Takes.of_parts row time undisputed effect (moves_testFailed k data _)
    ((told.mono (by simp)).trans ((leaves_failed_told k data _).mono (by simp))) fun agreed _ => ?_
  exact ⟨finish_other_links (s := s) agreed links,
    finish_testFailed inside length tests agreed (.inl confines)⟩

theorem takes_testFailed_suspend (suspended : (occurrence s 18 (some k)).reaction = .suspend) :
    Takes i s [.links, .inbound, .outbound, .levers, .faults, .register, .result, .mode] fun u =>
      (u.link k).state = .outOfUse ∧ u.mode = (if s.mode = some .service then some .suspended else s.mode)
        ∧ u.Gave 0x50 data := by
  have told := leaves_raise_link_test (s := s.atTime t) (k := k) (.inr suspended)
  refine Takes.of_parts row time undisputed effect (moves_testFailed k data _)
    ((told.mono (by simp)).trans ((leaves_failed_told k data _).mono (by simp))) fun agreed _ => ?_
  obtain ⟨state, gave⟩ := finish_testFailed inside length tests agreed (.inr suspended)
  refine ⟨state, ?_, gave⟩
  rw [finish_mode agreed, ((leaves_failed_told k data (s.atTime t)).2.2.2 .mode (by decide)).1, raise_mode]
  exact if_congr (and_iff_right suspended) rfl rfl

end

/-- Both rows that find a test frame wrong or late (R148). -/
theorem takes_testFailed (row : exec i s = .next (finish (f (s.comeTo t)))) (time : i.time = some t)
    (undisputed : s.Undisputed) (inside : within k 3 = true) (length : s.links.length = 3)
    (tests : (s.link k).state = .loopback) (asked : b.purpose = .host .alone) (calm : (s.link k).crossedDue = false)
    (effect : f (s.atTime t) = afterLoopback k (loopbackFail k b (s.atTime t))) :
    ((occurrence s 18 (some k)).reaction = .confine →
        Takes i s [.links, .inbound, .outbound, .levers, .faults, .register, .result] fun u =>
          OtherLinks k s u ∧ (u.link k).state = .outOfUse ∧ u.Gave 0x50 [1, byte (loopbackType b.frame).code])
      ∧ ((occurrence s 18 (some k)).reaction = .suspend →
        Takes i s [.links, .inbound, .outbound, .levers, .faults, .register, .result, .mode] fun u =>
          (u.link k).state = .outOfUse ∧ u.mode = (if s.mode = some .service then some .suspended else s.mode)
            ∧ u.Gave 0x50 [1, byte (loopbackType b.frame).code]) := by
  have failed (acts : (occurrence s 18 (some k)).reaction = .confine ∨ (occurrence s 18 (some k)).reaction = .suspend) :
      f (s.atTime t) = testFailed k [1, byte (loopbackType b.frame).code] (s.atTime t) := by
    obtain ⟨-, crossed, -, -⟩ := raise_link_out (s := s.atTime t) (k := k) (here_of_within 3 inside length) acts
    refine effect.trans (afterLoopback_of_failed asked ?_)
    have link : (raiseOnce 18 (some k) (s.atTime t)).link k = (raise 18 (some k) (s.atTime t)).link k :=
      congrArg (fun l : List Link => nth l {} k) (latchRecord_links ..)
    rw [link, crossed]
    exact calm
  exact ⟨fun confines => takes_testFailed_confine row time undisputed inside length tests (failed (.inl confines)) confines,
    fun suspended => takes_testFailed_suspend row time undisputed inside length tests (failed (.inr suspended)) suspended⟩

/-- Settles O50: by what the command, the test's timer and its frames make of the link's record. -/
theorem loopbackTestsRunSixFrames : Obligations.LoopbackTestsRunSixFrames := by
  unfold Obligations.LoopbackTestsRunSixFrames
  rintro s t k l n rfl rfl
  refine ⟨fun s_open outside => .of_plain_refusal rfl rfl s_open ?_, fun s_open inside off =>
    .of_plain_refusal rfl rfl s_open (cmdTestLink_of_state (s := s.atTime t) inside off),
    fun s_open inside length on used inbound inOffer outbound outOffer empty closed => ?_,
    fun b undisputed inside length runs => ⟨fun early => ?_, fun e set passed => ?_, fun unsent bytes => ⟨?_, ?_⟩,
      fun e sent => ⟨fun early => ?_, fun timely more => ?_, fun timely last asked calm => ?_,
        fun bytes asked tests calm => ⟨fun wrong => ?_, fun late => ?_⟩⟩⟩⟩
  · simp only [cmdTestLink, outside, Bool.not_false, if_true]
  · have ready : TestReady k s := ⟨inside, on, used, inbound, inOffer, outbound, outOffer, empty, closed⟩
    exact ⟨fun busy => .of_plain_refusal rfl rfl s_open (((ready.atTime t).ran .alone).trans (if_pos busy)),
      fun idle => takes_testBegun ready s_open length idle⟩
  · exact .of_idle rfl rfl undisputed (loopbackSend_of_early (s := s.atTime t) runs early) fun _ => trivial
  · exact Takes.of_link (i := .loopbackFrameTimer t k) rfl rfl undisputed inside length
      (loopbackSend_of_due (s := s.atTime t) runs set passed) fun u ends => ⟨ends.others, ends.kept⟩
  · exact .of_idle (f := fun v => afterLoopback k (loopbackTake k bytes v)) rfl rfl undisputed
      (congrArg (afterLoopback k) (loopbackTake_of_unsent (s := s.atTime t) runs unsent)) fun _ => trivial
  · exact .of_idle (f := fun v => afterLoopback k (loopbackLate k v)) rfl rfl undisputed
      (congrArg (afterLoopback k) (loopbackLate_of_early (s := s.atTime t) runs fun e sent =>
        nomatch unsent.symm.trans sent)) fun _ => trivial
  · refine .of_idle (f := fun v => afterLoopback k (loopbackLate k v)) rfl rfl undisputed
      (congrArg (afterLoopback k) (loopbackLate_of_early (s := s.atTime t) runs fun e' sent' => ?_)) fun _ => trivial
    cases sent.symm.trans sent'
    exact early
  · exact Takes.of_link (i := .loopbackFrameAssembled t k (loopbackFrame s b.frame))
      (f := fun v => afterLoopback k (loopbackTake k (loopbackFrame s b.frame) v)) rfl rfl undisputed inside length
      (congrArg (afterLoopback k) (loopbackTake_of_next (s := s.atTime t) runs sent timely more))
      fun u ends => ⟨ends.others, ends.kept⟩
  · exact takes_testPassed undisputed inside length runs sent timely last asked calm
  · exact takes_testFailed (f := fun v => afterLoopback k (loopbackTake k bytes v)) rfl rfl undisputed inside length tests
      asked calm (congrArg (afterLoopback k) (loopbackTake_of_wrong (s := s.atTime t) runs sent wrong))
  · exact takes_testFailed (f := fun v => afterLoopback k (loopbackLate k v)) rfl rfl undisputed inside length tests
      asked calm (congrArg (afterLoopback k) (loopbackLate_of_late (s := s.atTime t) runs sent late))

end Sys2Proof.Machine
end

section
/-! Characters and frames on the line of a link (R138, R139, R142, R144). -/

set_option Elab.async false

namespace Sys2Proof.Machine

variable {s u v w : State} {k : Nat} {n t e last : Time} {l : Link} {c : LinkCfg} {i : Instr} {f : State → State}
  {g : Link → Link} {ch : Byte} {chars : List Byte} {ft : FrameType}

/-! ### Rows that hear the line -/

theorem Link.begun_eq (work : Bool) (l : Link) : ∃ st, l.begun work = { l with state := st } := by
  simp only [begun]
  split
  · exact ⟨_, rfl⟩
  · exact ⟨l.state, rfl⟩

/-- A link on a line just heard starts no frame. -/
theorem LinkEnds.loud (h : LinkEnds k s n l u) (unstaged : l.staged = []) (heard : l.heard = some n)
    (positive : 1 ≤ (cfgOf s k).turnaround) : u.link k = l.begun (l.works (s.inb k).state) := by
  rw [h.exactly unstaged, Link.hush_of_heard heard positive, Link.pumped, Link.framed_of_loud]

/-- A link up to what makes it begin bidding. -/
structure Link.SameWork (l m : Link) : Prop where
  state : m.state = l.state
  queue : m.queue = l.queue
  due : m.indicationDue = l.indicationDue

theorem Link.SameWork.works (h : Link.SameWork (s.link k) l) : l.works (s.inb k).state = hasWork s k := by
  simp only [Link.works, hasWork, h.queue, h.due]

theorem Link.SameWork.still (h : Link.SameWork (s.link k) l) (calm : (s.link k).state ≠ .idle ∨ hasWork s k = false) :
    l.state ≠ .idle ∨ l.works (s.inb k).state = false ∨ l.retryAt ≠ none := by
  rw [h.works, h.state]
  exact calm.imp_right .inl

/-- A row at which link `k` hears its line, or its own frame end, and begins nothing. -/
theorem Takes.of_heard (row : exec i s = .next (finish (f (s.comeTo t)))) (time : i.time = some t)
    (undisputed : s.Undisputed) (inside : within k 3 = true) (length : s.links.length = 3)
    (positive : 1 ≤ (cfgOf s k).turnaround)
    (effect : f (s.atTime t) = (s.atTime t).modLink k g) (staged : (g (s.link k)).staged = [])
    (heard : (g (s.link k)).heard = some (max s.now t))
    (still : (g (s.link k)).state ≠ .idle ∨ (g (s.link k)).works (s.inb k).state = false ∨ (g (s.link k)).retryAt ≠ none) :
    Takes i s [.links] fun u => OtherLinks k s u ∧ u.link k = g (s.link k) :=
  Takes.of_link row time undisputed inside length effect
    (fun _ ends => ⟨ends.others, ends.heard staged heard positive still⟩) fun _ => staged

/-! ### Characters (R138) -/

/-- The link after a character, with a pause before it or none. -/
def Link.hearing (c : LinkCfg) (n : Time) (ch : Byte) (l : Link) : Link := (l.takePause c n 1).joinChar c n ch

def Link.gone (c : LinkCfg) (n : Time) (l : Link) : Link := l.abandonFrame c n

def Link.began (n : Time) (l : Link) : Link :=
  { l with heard := some n, assembling := some ([], n), dataAt := if l.state = .receiving then none else l.dataAt }

def Link.listened (n : Time) (l : Link) : Link := { l with heard := some n }

theorem receiveChar_of_deaf (deaf : (s.link k).state = .outOfUse ∨ (s.link k).state = .loopback) : receiveChar k ch s = s := by
  refine if_neg ?_
  rcases deaf with x | x <;> simp [hears, x]

theorem receiveChar_of_hearing (used : (s.link k).state ≠ .outOfUse) (free : (s.link k).state ≠ .loopback) :
    receiveChar k ch s = s.modLink k (Link.hearing (cfgOf s k) s.now ch) :=
  if_pos (by simp [hears, used, free])

theorem paused_of_none (hunting : l.assembling = none) (m : Nat) : l.paused n m = false := by
  simp only [Link.paused, hunting]

theorem paused_of_some (assembling : l.assembling = some (chars, last)) {m : Nat} (few : m ≤ 1) :
    l.paused n m = (!frameEnded chars && decide (last + 15 < n)) := by
  have scale (a b : Nat) : 6 * (a + 15) + 25 * (m - 1) < 6 * b ↔ a + 15 < b := by omega
  simp only [Link.paused, assembling, scale]

theorem takePause_of_calm (calm : l.paused n 1 = false) : l.takePause c n 1 = l := by
  rw [Link.takePause, calm]
  rfl

theorem hearing_of_noise (hunting : l.assembling = none) (other : ch ≠ startChar) :
    l.hearing c n ch = l.listened n := by
  rw [Link.hearing, takePause_of_calm (paused_of_none hunting 1)]
  simp only [Link.joinChar, hunting, Link.huntChar, other, if_false, Link.listened]

theorem hearing_of_start (hunting : l.assembling = none) : l.hearing c n startChar = l.began n := by
  rw [Link.hearing, takePause_of_calm (paused_of_none hunting 1)]
  simp only [Link.joinChar, hunting, Link.huntChar, if_true]
  rfl

section
variable (assembling : l.assembling = some (chars, last))
include assembling

theorem hearing_of_still (is_open : frameEnded chars = false) (soon : n ≤ last + 15)
    (goes_on : stillFrame (chars ++ [ch]) = true) :
    l.hearing c n ch = { l with heard := some n, assembling := some (chars ++ [ch], n) } := by
  have calm : l.paused n 1 = false := by
    rw [paused_of_some assembling (Nat.le_refl 1), decide_eq_false (Nat.not_lt.2 soon), Bool.and_false]
  rw [Link.hearing, takePause_of_calm calm]
  simp only [Link.joinChar, assembling, is_open, goes_on, Bool.false_eq_true, if_false, if_true]

theorem hearing_of_broken (is_open : frameEnded chars = false) (soon : n ≤ last + 15)
    (breaks : stillFrame (chars ++ [ch]) = false) : l.hearing c n ch = (l.gone c n).listened n := by
  have calm : l.paused n 1 = false := by
    rw [paused_of_some assembling (Nat.le_refl 1), decide_eq_false (Nat.not_lt.2 soon), Bool.and_false]
  rw [Link.hearing, takePause_of_calm calm]
  simp only [Link.joinChar, assembling, is_open, breaks, Bool.false_eq_true, if_false]
  rfl

/-- A character after the CHECK of a frame, or after a pause, is hunted. -/
theorem hearing_of_over (passed : frameEnded chars = true ∨ last + 15 < n) :
    l.hearing c n ch = if ch = startChar then l.began n else (l.gone c n).listened n := by
  have hunted : l.hearing c n ch = ((l.gone c n).listened n).huntChar n ch := by
    cases ended : frameEnded chars with
    | true =>
      have calm : l.paused n 1 = false := by
        rw [paused_of_some assembling (Nat.le_refl 1), ended]
        rfl
      rw [Link.hearing, takePause_of_calm calm]
      simp only [Link.joinChar, assembling, ended, if_true]
      rfl
    | false =>
      have late : last + 15 < n := passed.resolve_left (by simp [ended])
      have paused : l.paused n 1 = true := by
        rw [paused_of_some assembling (Nat.le_refl 1), ended, decide_eq_true late]
        rfl
      rw [Link.hearing, Link.takePause, if_pos paused]
      rfl
  rw [hunted, Link.huntChar]
  split
  · simp only [Link.listened, Link.gone, Link.abandonFrame, Link.restartData, Link.began]
    by_cases receives : l.state = .receiving <;> simp [receives]
  · rfl

end

end Sys2Proof.Machine
end

section
/-! The ends and the cuts of a link's own frames (R139, R142, R144). -/

set_option Elab.async false

namespace Sys2Proof.Machine

variable {s u v w : State} {k : Nat} {n t e last : Time} {l : Link} {c : LinkCfg} {i : Instr} {f : State → State}
  {g h : Link → Link} {ch : Byte} {chars : List Byte} {ft : FrameType} {fl : Flight}

theorem modLink_modLink (s : State) (k : Nat) (g h : Link → Link) : (s.modLink k g).modLink k h = s.modLink k (h ∘ g) :=
  congrArg (fun x => { s with links := x }) (modAt_modAt _ _ _ _ _)

/-! ### The records that the ends of frames leave -/

/-- A link whose frame has left the line. -/
def Link.fallen (n : Time) (l : Link) : Link := { l with sending := none, heard := some n }

def Link.awaitsAnswer (n : Time) (c : LinkCfg) (l : Link) : Link := { l with answerAt := some (n + c.bidAnswer) }
def Link.awaitsTaken (n : Time) (c : LinkCfg) (l : Link) : Link :=
  { l with state := .awaitTaken, takenAt := some (n + c.takenWait) }
def Link.awaitsData (n : Time) (c : LinkCfg) (l : Link) : Link :=
  ({ l with dataAt := some (n + c.dataStart) } : Link).yieldFlight n
def Link.goCut (n : Time) (l : Link) : Link := ({ l with state := .idle, dataAt := none } : Link).yieldFlight n
def Link.dataCut (n : Time) (c : LinkCfg) (l : Link) : Link :=
  { l with state := .sending, dataAttempts := l.dataAttempts + 1, takenAt := none, backOffAt := some (n + backOff c) }

theorem Link.yieldFlight_of_none (none_built : l.flight = none) (n : Time) : l.yieldFlight n = l := by
  rw [yieldFlight, none_built]
  rfl

/-- What a dropped DATA frame leaves (R141, R143). -/
theorem Link.yieldFlight_spec (built : l.flight = some fl) (n : Time) : (l.yieldFlight n).sending = l.sending
    ∧ (l.yieldFlight n).flight = none ∧ (l.yieldFlight n).state = l.state ∧ (l.yieldFlight n).dataAt = l.dataAt
    ∧ (l.yieldFlight n).indicationDue = (l.indicationDue || fl.items.any Item.isIndication)
    ∧ (l.yieldFlight n).bidAttempts = l.bidAttempts
    ∧ (l.yieldFlight n).heard = l.heard ∧ (l.yieldFlight n).staged = l.staged
    ∧ (l.yieldFlight n).crossedDue = l.crossedDue := by
  have carries : l.carriesIndication = fl.items.any Item.isIndication := by
    rw [carriesIndication, built]
    rfl
  have same := discardLate_rest { l with flight := none, indicationDue := l.indicationDue || l.carriesIndication } n
  have yielded : l.yieldFlight n
      = ({ l with flight := none, indicationDue := l.indicationDue || l.carriesIndication } : Link).discardLate n := by
    rw [yieldFlight, built]
    rfl
  rw [yielded, ← carries]
  simp only [rest, mk.injEq] at same
  simp only [same, and_self]

theorem Link.yieldFlight_queue (timely : ∀ q ∈ l.queue, q.item.isStroke = true → n < q.joined + 5000) :
    (l.yieldFlight n).queue = l.queue := by
  simp only [yieldFlight]
  split
  · have stays := lateItems_none timely
    simp only [dropFlight, discardLate, inFlight, Option.map_none, Option.getD_none, List.drop_zero, List.take_zero,
      stays, List.foldl_nil, List.nil_append]
  · rfl

/-! ### The ends of frames -/

theorem endFrame_of_none (none_sent : (s.link k).sending = none) : endFrame k s = s := by
  simp only [endFrame, none_sent]

theorem cutFrame_of_none (none_sent : (s.link k).sending = none) : cutFrame k s = s := by
  simp only [cutFrame, none_sent]

theorem endFrame_bid (sent : (s.link k).sending = some .bid) :
    endFrame k s = s.modLink k (Link.awaitsAnswer s.now (cfgOf s k) ∘ Link.fallen s.now) := by
  simp only [endFrame, sent]
  exact modLink_modLink ..

theorem endFrame_data (sent : (s.link k).sending = some .data) :
    endFrame k s = s.modLink k (Link.awaitsTaken s.now (cfgOf s k) ∘ Link.fallen s.now) := by
  simp only [endFrame, sent]
  exact modLink_modLink ..

theorem endFrame_go (sent : (s.link k).sending = some .go) :
    endFrame k s = s.modLink k (Link.awaitsData s.now (cfgOf s k) ∘ Link.fallen s.now) := by
  simp only [endFrame, sent]
  exact modLink_modLink ..

theorem cutFrame_go (sent : (s.link k).sending = some .go) :
    cutFrame k s = s.modLink k (Link.goCut s.now ∘ Link.fallen s.now) := by
  simp only [cutFrame, sent]
  exact modLink_modLink ..

/-- A WAIT or a REJECT brings nothing more, sent whole or cut. -/
theorem frame_of_answer (sent : (s.link k).sending = some .wait ∨ (s.link k).sending = some .reject) :
    endFrame k s = s.modLink k (Link.fallen s.now) ∧ cutFrame k s = s.modLink k (Link.fallen s.now) := by
  rcases sent with sent | sent <;> exact ⟨by simp only [endFrame, sent]; rfl, by simp only [cutFrame, sent]; rfl⟩

section
variable (here : within k s.links.length = true)
include here

theorem cutFrame_bid (sent : (s.link k).sending = some .bid) (again : (s.link k).bidAttempts + 1 ≤ (cfgOf s k).bidRetries) :
    cutFrame k s = s.modLink k (Link.bidAgain s.now (cfgOf s k) ∘ Link.fallen s.now) := by
  have link : (s.modLink k (Link.fallen s.now)).link k = (s.link k).fallen s.now := State.link_modLink_same s k _ here
  have failed : bidFailed k (s.modLink k (Link.fallen s.now))
      = (s.modLink k (Link.fallen s.now)).modLink k (Link.bidAgain s.now (cfgOf s k)) :=
    bidFailed_of_again (s := s.modLink k (Link.fallen s.now)) (by rw [link]; exact again)
  simp only [cutFrame, sent]
  exact failed.trans (modLink_modLink ..)

theorem cutFrame_data (sent : (s.link k).sending = some .data)
    (again : (s.link k).dataAttempts + 1 ≤ (cfgOf s k).dataRetries) :
    cutFrame k s = s.modLink k (Link.dataCut s.now (cfgOf s k) ∘ Link.fallen s.now) := by
  have link : (s.modLink k (Link.fallen s.now)).link k = (s.link k).fallen s.now := State.link_modLink_same s k _ here
  have failed : dataFailed true k (s.modLink k (Link.fallen s.now))
      = (s.modLink k (Link.fallen s.now)).modLink k (Link.dataCut s.now (cfgOf s k)) := by
    refine (if_pos ?_).trans (modLink_congr rfl)
    rw [link]
    exact again
  simp only [cutFrame, sent]
  exact failed.trans (modLink_modLink ..)

/-- With no stranger found, a frame's end brings no report. -/
theorem reportCrossed_modLink (calm : (g (s.link k)).crossedDue = false) : reportCrossed k (s.modLink k g) = s.modLink k g :=
  reportCrossed_of_none (by rw [State.link_modLink_same s k g here]; exact calm)

end

section
variable (undisputed : s.Undisputed) (inside : within k 3 = true) (length : s.links.length = 3)
  (unstaged : (s.link k).staged = []) (positive : 1 ≤ (cfgOf s k).turnaround)
include undisputed inside length positive

/-- A frame that has been sent, and what its end makes of its link. -/
theorem takes_linkFrameSent (ends : endFrame k (s.atTime t) = (s.atTime t).modLink k g)
    (calm : (g (s.link k)).crossedDue = false) (staged : (g (s.link k)).staged = [])
    (heard : (g (s.link k)).heard = some (max s.now t))
    (still : (g (s.link k)).state ≠ .idle ∨ (g (s.link k)).works (s.inb k).state = false ∨ (g (s.link k)).retryAt ≠ none) :
    Takes (.linkFrameSent t k) s [.links] fun u => OtherLinks k s u ∧ u.link k = g (s.link k) :=
  .of_heard (f := frameSent k) rfl rfl undisputed inside length positive
    ((congrArg (reportCrossed k) ends).trans (reportCrossed_modLink (s := s.atTime t) (here_of_within 3 inside length) calm))
    staged heard still

/-- A frame that has been cut by a collision, and what that makes of its link. -/
theorem takes_linkCollision (cuts : cutFrame k (s.atTime t) = (s.atTime t).modLink k g)
    (calm : (g (s.link k)).crossedDue = false) (staged : (g (s.link k)).staged = [])
    (heard : (g (s.link k)).heard = some (max s.now t))
    (still : (g (s.link k)).state ≠ .idle ∨ (g (s.link k)).works (s.inb k).state = false ∨ (g (s.link k)).retryAt ≠ none) :
    Takes (.linkCollision t k) s [.links] fun u => OtherLinks k s u ∧ u.link k = g (s.link k) :=
  .of_heard (f := collide k) rfl rfl undisputed inside length positive
    ((congrArg (reportCrossed k) cuts).trans (reportCrossed_modLink (s := s.atTime t) (here_of_within 3 inside length) calm))
    staged heard still

include unstaged in
/-- A character heard on the line, and what the receiver makes of it. -/
theorem takes_character (used : (s.link k).state ≠ .outOfUse) (free : (s.link k).state ≠ .loopback)
    (calm : (s.link k).state ≠ .idle ∨ hasWork s k = false)
    (result : (s.link k).hearing (cfgOf s k) (max s.now t) ch = l) (same : Link.SameWork (s.link k) l)
    (staged : l.staged = (s.link k).staged) (heard : l.heard = some (max s.now t)) :
    Takes (.linkCharacterReceived t k ch) s [.links] fun u => OtherLinks k s u ∧ u.link k = l := by
  have row := Takes.of_heard (i := .linkCharacterReceived t k ch) (f := receiveChar k ch) rfl rfl undisputed inside length
    positive (receiveChar_of_hearing (s := s.atTime t) used free)
    (by rw [show Link.hearing (cfgOf (s.atTime t) k) (s.atTime t).now ch (s.link k) = l from result, staged]; exact unstaged)
    (by rw [show Link.hearing (cfgOf (s.atTime t) k) (s.atTime t).now ch (s.link k) = l from result]; exact heard)
    (by rw [show Link.hearing (cfgOf (s.atTime t) k) (s.atTime t).now ch (s.link k) = l from result]; exact same.still calm)
  rwa [show Link.hearing (cfgOf (s.atTime t) k) (s.atTime t).now ch (s.link k) = l from result] at row

/-- A GO sent, or cut, with a DATA frame of the link's own built before it (R141). -/
theorem takes_yielded (row : exec i s = .next (finish (f (s.comeTo t)))) (time : i.time = some t)
    (effect : f (s.atTime t) = reportCrossed k ((s.atTime t).modLink k g))
    (yields : g (s.link k) = l.yieldFlight (max s.now t)) (built : l.flight = some fl)
    (quiet : l.crossedDue = false) (none_staged : l.staged = []) (heard : l.heard = some (max s.now t))
    (sent : l.sending = none) :
    Takes i s [.links] fun u => OtherLinks k s u ∧ (u.link k).sending = none ∧ (u.link k).flight = none
      ∧ (u.link k).indicationDue = (l.indicationDue || fl.items.any Item.isIndication)
      ∧ (u.link k).bidAttempts = l.bidAttempts
      ∧ ((∀ q ∈ l.queue, q.item.isStroke = true → max s.now t < q.joined + 5000) → (u.link k).queue = l.queue)
      ∧ (l.state ≠ .idle → (u.link k).state = l.state ∧ (u.link k).dataAt = l.dataAt) := by
  obtain ⟨sending, flight, state, data, due, bids, hears, stages, crossed⟩ := Link.yieldFlight_spec built (max s.now t)
  have calm : (g (s.link k)).crossedDue = false := by rw [yields, crossed, quiet]
  refine Takes.of_link row time undisputed inside length
    (effect.trans (reportCrossed_modLink (s := s.atTime t) (here_of_within 3 inside length) calm)) (fun u ends => ?_)
    (fun _ => by rw [yields, stages, none_staged])
  have own := ends.loud (by rw [yields, stages, none_staged]) (by rw [yields, hears, heard]) positive
  have engaged (on : l.state ≠ .idle) : u.link k = l.yieldFlight (max s.now t) := by
    rw [own, yields, Link.begun_of_still (.inl (by rw [state]; exact on))]
  obtain ⟨st, begun⟩ := Link.begun_eq ((g (s.link k)).works (s.inb k).state) (g (s.link k))
  rw [begun, yields] at own
  refine ⟨ends.others, by rw [own]; exact sending.trans sent, by rw [own]; exact flight, by rw [own]; exact due,
    by rw [own]; exact bids, fun timely => by rw [own]; exact Link.yieldFlight_queue timely, fun on => ?_⟩
  rw [engaged on]
  exact ⟨state, data⟩

end

end Sys2Proof.Machine
end

section
/-! The line of a link as it falls quiet, and a stranger's frame reported (R139, R145). -/

set_option Elab.async false

namespace Sys2Proof.Machine

variable {s u v w : State} {k : Nat} {n t e last : Time} {l : Link} {ft : FrameType}

section
variable (undisputed : s.Undisputed) (inside : within k 3 = true) (length : s.links.length = 3)
  (unstaged : (s.link k).staged = []) (calm : (s.link k).state ≠ .idle ∨ hasWork s k = false)
include undisputed inside length unstaged calm

/-! ### Quiet (R139) -/

/-- A line that is not quiet. -/
theorem takes_quiet_not (loud : quiet (s.atTime t) k = false) :
    Takes (.lineQuiet t k) s [] fun u => u.link k = s.link k := by
  have effect : startFrame k (s.atTime t) = s.atTime t := by
    simp only [startFrame, loud, Bool.false_eq_true, if_false]
    split <;> rfl
  refine Takes.of_result (ks := []) (f := startFrame k) rfl rfl undisputed effect .refl fun agreed _ => ?_
  rw [finish_link_pumped agreed inside (here_of_within 3 inside length) unstaged, loud]
  exact Link.pumped_of_loud calm

/-- A quiet line, on which the frame that waits is started. -/
theorem takes_quiet (still : quiet (s.atTime t) k = true) (waits : frameToStart (s.link k) = some ft) :
    Takes (.lineQuiet t k) s [.links] fun u => OtherLinks k s u ∧ u.link k = (s.link k).driving ft := by
  have effect : startFrame k (s.atTime t) = (s.atTime t).modLink k (Link.driving ft) := by
    simp only [startFrame, show frameToStart ((s.atTime t).link k) = some ft from waits, still, if_true]
    rfl
  refine Takes.of_link (f := startFrame k) rfl rfl undisputed inside length effect fun u ends => ⟨ends.others, ?_⟩
  have none_starts : frameToStart ((s.link k).driving ft) = none := rfl
  have none_begins : ((s.link k).driving ft).state ≠ .idle ∨ ((s.link k).driving ft).works (s.inb k).state = false := by
    by_cases go : ft = .go
    · exact .inl (by simp [Link.driving, go])
    · refine calm.imp (fun other => ?_) id
      rw [show ((s.link k).driving ft).state = (s.link k).state from if_neg go]
      exact other
  rw [ends.exactly unstaged, Link.pumped, Link.begun_of_still none_begins, Link.framed_of_none none_starts]

def Link.freed (l : Link) : Link := { l with backOffAt := none }

/-- A back-off that has passed. -/
theorem takes_backOff (set : (s.link k).backOffAt = some e) (passed : e ≤ max s.now t) :
    Takes (.backOffEnd t k) s [.links] fun u => OtherLinks k s u ∧ (u.link k).kept = (s.link k).freed.kept
      ∧ (quiet (s.atTime t) k = true → (s.link k).sending = none → (s.link k).answer = none →
        ((s.link k).state = .bidding → (s.link k).answerAt = none → (u.link k).sending = some .bid)
          ∧ ((s.link k).state = .sending → (u.link k).sending = some .data)) := by
  have effect : backOffPasses k (s.atTime t) = (s.atTime t).modLink k Link.freed :=
    if_pos (due_eq_true (s := s.atTime t) set passed)
  refine Takes.of_link (f := backOffPasses k) rfl rfl undisputed inside length effect fun u ends =>
    ⟨ends.others, ends.kept, fun still sent answered => ?_⟩
  have hush : (s.link k).freed.hush (cfgOf s k).turnaround (max s.now t) = true :=
    (quiet_iff (s := s.atTime t) (k := k)).symm.trans still
  have none_begins : (s.link k).freed.begun ((s.link k).freed.works (s.inb k).state) = (s.link k).freed :=
    Link.begun_of_still calm
  have starts {f : FrameType} (waits : frameToStart (s.link k).freed = some f) : (u.link k).sending = some f := by
    rw [ends.exactly unstaged, hush, Link.pumped, none_begins, Link.framed_of_some waits]
    rfl
  exact ⟨fun bids waits => starts (by simp [frameToStart, Link.freed, sent, answered, bids, waits]),
    fun sends => starts (by simp [frameToStart, Link.freed, sent, answered, sends])⟩

end

/-! ### A stranger's frame (R145) -/

def Link.reported (l : Link) : Link := { l with crossedDue := false }

theorem Link.confinedBy_due (x : Nat) (used : l.state ≠ .outOfUse) :
    (l.confinedBy x).indicationDue = (l.indicationDue || l.flight.any (·.items.any Item.isIndication)) := by
  rw [confinedBy, if_neg used, ← carriesIndication_eq]
  rfl

theorem Link.confinedBy_kept_fields (x : Nat) (l : Link) :
    (l.confinedBy x).heard = l.heard ∧ (l.confinedBy x).staged = l.staged := by
  simp only [confinedBy]
  split <;> exact ⟨rfl, rfl⟩

section
variable (absent : s.faults.find 17 (some k) = none) (room : s.faults.records.length < 32)
  (confines : reactionOf s 17 = .confine)
include absent room confines

theorem raise_crossed_eq : raise 17 (some k) s = tellOccurrence 17 (some k) s :=
  raise_link_confine (by rw [occurrence_of_absent absent room]; exact confines)

theorem crossed_acts : (occurrence s 17 (some k)).reaction ≠ .report := by
  rw [occurrence_of_absent absent room]
  exact fun report => absurd (confines.symm.trans report) nofun

/-- The record of a stranger's frame: counted once, and LATCHED (R145). -/
theorem raiseOnce_crossed_find (undisputed : s.Undisputed) : (raiseOnce 17 (some k) s).faults.find 17 (some k)
    = some ⟨17, some k, false, 1, s.register.day, s.register.tenths, s.register.day, s.register.tenths, .confine⟩ := by
  have noted : (noteOccurrence 17 (some k) s).faults.find 17 (some k)
      = some ⟨17, some k, true, 1, s.register.day, s.register.tenths, s.register.day, s.register.tenths, .confine⟩ :=
    (congrArg (fun f : Faults => f.find 17 (some k)) (noteOccurrence_new absent room confines).1).trans
      (Faults.find_append absent ((isFor_iff _ _ _).2 ⟨rfl, rfl⟩))
  have confined := (confineLink_find (x := (occurrence s 17 (some k)).source) (k := k) (d := 17) (o := some k)
    (s := noteOccurrence 17 (some k) s) (by decide)).trans noted
  have agreed : (confineLink (occurrence s 17 (some k)).source k (noteOccurrence 17 (some k) s)).Undisputed :=
    ((Moves.refl (ks := .link :: lineKinds)).to_confineLink _ k).undisputed (noteOccurrence_undisputed undisputed)
  have told : (tellOccurrence 17 (some k) s).faults
      = (confineLink (occurrence s 17 (some k)).source k (noteOccurrence 17 (some k) s)).faults := by
    have made : Moves [.note, .record, .evaluate, .inb, .outb]
        (confineLink (occurrence s 17 (some k)).source k (noteOccurrence 17 (some k) s)) (tellOccurrence 17 (some k) s) := by
      have start : Moves [.note, .record, .evaluate, .inb, .outb]
          (confineLink (occurrence s 17 (some k)).source k (noteOccurrence 17 (some k) s))
          (when (suspends (occurrence s 17 (some k)) (confineOccurrence 17 (some k) s))
            (append (.mode (confineOccurrence 17 (some k) s).mode .suspended)) (confineOccurrence 17 (some k) s)) := by
        rw [confineOccurrence_link (.inl rfl) (crossed_acts absent room confines)]
        exact (Moves.refl.to_noteFault _).to_when _ fun _ => Moves.refl.to_append _
      unfold tellOccurrence
      cases linkTaken 17 (some k) s with
      | none => exact start
      | some j => exact start.trans (moves_lineLost j _ _)
    exact made.faults_kept agreed
  rw [raiseOnce, latchRecord_find, raise_crossed_eq absent room confines, told, confined]
  rfl

end

/-- The frame that ends, and the mark of the stranger, before the report. -/
def Link.answered (n : Time) (l : Link) : Link := (l.fallen n).reported

/-- The part as the REJECT of a stranger's frame has left the line. -/
def strangerAnswered (k : Nat) (s : State) : State := s.modLink k (Link.answered s.now)

theorem takes_crossed (undisputed : s.Undisputed) (inside : within k 3 = true) (length : s.links.length = 3)
    (unstaged : (s.link k).staged = []) (positive : 1 ≤ (cfgOf s k).turnaround)
    (sent : (s.link k).sending = some .reject) (crossed : (s.link k).crossedDue = true)
    (absent : s.faults.find 17 (some k) = none) (room : s.faults.records.length < 32)
    (confines : reactionOf s 17 = .confine) (free : (s.link k).confinement = []) :
    Takes (.linkFrameSent t k) s [.links, .inbound, .outbound, .levers, .faults, .register] fun u => OtherLinks k s u
      ∧ (u.link k).state = .outOfUse ∧ (u.link k).crossedDue = false ∧ (u.link k).confinement = [17]
      ∧ ((s.link k).state ≠ .outOfUse → (u.link k).indicationDue
          = ((s.link k).indicationDue || (s.link k).flight.any (·.items.any Item.isIndication)))
      ∧ u.faults.find 17 (some k) = some ⟨17, some k, false, 1, s.register.day, s.register.tenths, s.register.day,
          s.register.tenths, .confine⟩ := by
  have here := here_of_within 3 inside length
  have marked_here : within k (strangerAnswered k (s.atTime t)).links.length = true := by
    rw [show (strangerAnswered k (s.atTime t)).links.length = s.links.length from length_modAt _ _ _ _]
    exact here
  have effect : frameSent k (s.atTime t) = raiseOnce 17 (some k) (strangerAnswered k (s.atTime t)) := by
    have ended := (frame_of_answer (s := s.atTime t) (k := k) (.inr sent)).1
    have due : (((s.atTime t).modLink k (Link.fallen (max s.now t))).link k).crossedDue = true :=
      (congrArg Link.crossedDue (State.link_modLink_same (s.atTime t) k _ here)).trans crossed
    have reports : reportCrossed k ((s.atTime t).modLink k (Link.fallen (max s.now t)))
        = raiseOnce 17 (some k) (((s.atTime t).modLink k (Link.fallen (max s.now t))).modLink k Link.reported) := if_pos due
    exact (congrArg (reportCrossed k) ended).trans (reports.trans (congrArg (raiseOnce 17 (some k)) (modLink_modLink ..)))
  have acts := crossed_acts (s := strangerAnswered k (s.atTime t)) (k := k) absent room confines
  have raised := raise_crossed_eq (s := strangerAnswered k (s.atTime t)) (k := k) absent room confines
  have source : (occurrence (strangerAnswered k (s.atTime t)) 17 (some k)).source = 17 := by
    rw [occurrence_of_absent (s := strangerAnswered k (s.atTime t)) absent room]
  have links : (raiseOnce 17 (some k) (strangerAnswered k (s.atTime t))).links
      = modAt s.links {} k (Link.confinedBy 17 ∘ Link.answered (max s.now t)) := by
    refine (latchRecord_links 17 (some k) _).trans ?_
    rw [raised, tellOccurrence_links (.inl rfl) acts marked_here, source]
    exact modAt_modAt _ _ _ _ _
  have link : (raiseOnce 17 (some k) (strangerAnswered k (s.atTime t))).link k
      = ((s.link k).answered (max s.now t)).confinedBy 17 := by
    rw [State.link, links, nth_modAt, if_pos ⟨rfl, here⟩]
    rfl
  have left : Leaves [.links, .inbound, .outbound, .levers, .faults, .register, .transmitter] (s.atTime t)
      (raiseOnce 17 (some k) (strangerAnswered k (s.atTime t))) := by
    have told := leaves_tell_link (s := strangerAnswered k (s.atTime t)) (k := k) (.inl rfl) acts
    rw [← raised] at told
    exact (((leaves_modLink k _ (s.atTime t)).mono (by simp)).trans told).trans
      (((Moves.refl (ks := [.note, .faults])).to_latchRecord 17 (some k)).leaves)
  refine Takes.of_parts rfl rfl undisputed effect (ks := .link :: raiseKinds)
    ((Moves.refl.to_modLink k (Link.answered (max s.now t))).to_raiseOnce 17 (some k)) (left.mono (by simp)) fun agreed now => ?_
  obtain ⟨hears, stages⟩ := Link.confinedBy_kept_fields 17 ((s.link k).answered (max s.now t))
  have store : cfgOf (raiseOnce 17 (some k) (strangerAnswered k (s.atTime t))) k = cfgOf s k :=
    congrArg (fun x : Store => (x.inForce.getD Image.defaults).link k) (left.2.2.2 .store (by decide))
  have ended : (finish (raiseOnce 17 (some k) (strangerAnswered k (s.atTime t)))).link k
      = ((s.link k).answered (max s.now t)).confinedBy 17 := by
    rw [finish_link_pumped agreed inside (by rw [links, length_modAt]; exact here) (by rw [link, stages]; exact unstaged),
      quiet_iff, link, store, now, Link.hush_of_heard (hears.trans rfl) positive]
    exact Link.pumped_of_loud (.inl (by rw [Link.confinedBy_state]; exact nofun))
  refine ⟨finish_other_links (s := s) agreed links, ?_, ?_, ?_, fun used => ?_, ?_⟩
  · rw [ended, Link.confinedBy_state]
  · rw [ended, Link.confinedBy_crossed]
    rfl
  · rw [ended, Link.confinedBy_confinement]
    exact congrArg (addSource 17) free
  · rw [ended, Link.confinedBy_due (l := (s.link k).answered (max s.now t)) 17 used]
    rfl
  · have found := raiseOnce_crossed_find (s := strangerAnswered k (s.atTime t)) (k := k) absent room confines undisputed
    rwa [← finish_faults agreed] at found

end Sys2Proof.Machine
end

section
/-! The rows of a link's line (O47). -/

set_option Elab.async false

namespace Sys2Proof.Machine

variable {s u v w : State} {k : Nat} {n t e last : Time} {l : Link} {ft : FrameType} {ch : Byte} {chars : List Byte}

theorem pauseAbandons_of_calm (assembling : (s.link k).assembling = some (chars, last))
    (calm : frameEnded chars = true ∨ s.now ≤ last + 15) : pauseAbandons k s = s := by
  have awake : (s.link k).paused s.now 0 = false := by
    rw [paused_of_some assembling (Nat.zero_le 1)]
    rcases calm with ended | soon
    · rw [ended]
      rfl
    · rw [decide_eq_false (Nat.not_lt.2 soon), Bool.and_false]
  have same : Link.takePause (cfgOf s k) s.now 0 (s.link k) = s.link k := by
    rw [Link.takePause, awake]
    rfl
  exact congrArg (fun x => { s with links := x }) (modAt_self s.links {} k _ same)

theorem pauseAbandons_of_late (assembling : (s.link k).assembling = some (chars, last)) (is_open : frameEnded chars = false)
    (late : last + 15 < s.now) : pauseAbandons k s = s.modLink k (Link.gone (cfgOf s k) s.now) := by
  refine modLink_congr (if_pos ?_)
  rw [paused_of_some assembling (Nat.zero_le 1), is_open, decide_eq_true late]
  rfl

def Link.awaitingData (n : Time) (c : LinkCfg) (l : Link) : Link := { l with dataAt := some (n + c.dataStart) }
def Link.withdrawn (l : Link) : Link := { l with state := .idle, dataAt := none }

/-- A GO that leaves the line with a DATA frame of its own link built before it (R141). -/
theorem takes_goYielded {i : Instr} {fl : Flight} (undisputed : s.Undisputed) (inside : within k 3 = true)
    (length : s.links.length = 3) (unstaged : (s.link k).staged = []) (positive : 1 ≤ (cfgOf s k).turnaround)
    (sent : (s.link k).sending = some .go) (quiet : (s.link k).crossedDue = false) (built : (s.link k).flight = some fl)
    (receives : (s.link k).state = .receiving) (which : i = .linkFrameSent t k ∨ i = .linkCollision t k) :
    Takes i s [.links] fun u => OtherLinks k s u ∧ (u.link k).sending = none ∧ (u.link k).flight = none
      ∧ (u.link k).indicationDue = ((s.link k).indicationDue || fl.items.any Item.isIndication)
      ∧ (u.link k).bidAttempts = (s.link k).bidAttempts
      ∧ ((∀ q ∈ (s.link k).queue, q.item.isStroke = true → max s.now t < q.joined + 5000) →
        (u.link k).queue = (s.link k).queue)
      ∧ (i = .linkFrameSent t k →
        (u.link k).state = .receiving ∧ (u.link k).dataAt = some (max s.now t + (cfgOf s k).dataStart)) := by
  rcases which with rfl | rfl
  · refine (takes_yielded (l := ((s.link k).fallen (max s.now t)).awaitingData (max s.now t) (cfgOf s k))
      (f := frameSent k) undisputed inside length positive rfl rfl
      (congrArg (reportCrossed k) (endFrame_go (s := s.atTime t) sent)) rfl built quiet unstaged rfl rfl).imp fun u got => ?_
    obtain ⟨others, sending, flight, due, bids, queue, engaged⟩ := got
    obtain ⟨state, data⟩ := engaged fun idle => nomatch receives.symm.trans idle
    exact ⟨others, sending, flight, due, bids, queue, fun _ => ⟨state.trans receives, data⟩⟩
  · refine (takes_yielded (l := ((s.link k).fallen (max s.now t)).withdrawn)
      (f := collide k) undisputed inside length positive rfl rfl
      (congrArg (reportCrossed k) (cutFrame_go (s := s.atTime t) sent)) rfl built quiet unstaged rfl rfl).imp fun u got => ?_
    obtain ⟨others, sending, flight, due, bids, queue, -⟩ := got
    exact ⟨others, sending, flight, due, bids, queue, nofun⟩

/-- Settles O47: characters by what the receiver makes of each, and the ends of frames by their types. -/
theorem linkLineEventsMoveTheExchange : Obligations.LinkLineEventsMoveTheExchange := by
  unfold Obligations.LinkLineEventsMoveTheExchange
  rintro s t k ch l hrd gone c n undisputed inside length rfl rfl rfl unstaged positive calm rfl rfl
  have here := here_of_within 3 inside length
  have reports {u : State} (same : u = s.atTime t) (quiet : (s.link k).crossedDue = false) : reportCrossed k u = s.atTime t :=
    same ▸ reportCrossed_of_none (s := s.atTime t) quiet
  refine ⟨fun used free => ⟨fun hunting other => ?_, fun hunting start => ?_, fun chars last assembling =>
      ⟨fun is_open soon => ⟨fun still => ?_, fun breaks => ?_⟩, fun passed => ?_⟩⟩, fun deaf => ?_,
    fun chars last assembling => ⟨fun is_open late => ?_, fun still => ?_⟩, fun none_sent quiet => ⟨?_, ?_⟩,
    fun sent quiet => ⟨?_, fun again => ?_⟩, fun sent quiet => ⟨?_, fun again => ?_⟩,
    fun sent quiet none_built => ⟨?_, fun idle => ?_⟩, fun fl sent quiet built receives i which => ?_,
    fun sent quiet => ⟨?_, ?_⟩, fun sent crossed absent room confines free => ?_, fun loud => ?_, fun ft still waits => ?_,
    fun early => ?_, fun e set passed => ?_⟩
  · exact takes_character undisputed inside length unstaged positive used free calm (hearing_of_noise hunting other)
      ⟨rfl, rfl, rfl⟩ rfl rfl
  · subst start
    exact takes_character undisputed inside length unstaged positive used free calm (hearing_of_start hunting)
      ⟨rfl, rfl, rfl⟩ rfl rfl
  · exact takes_character undisputed inside length unstaged positive used free calm
      (hearing_of_still assembling is_open soon still) ⟨rfl, rfl, rfl⟩ rfl rfl
  · exact takes_character undisputed inside length unstaged positive used free calm
      (hearing_of_broken assembling is_open soon breaks) ⟨rfl, rfl, rfl⟩ rfl rfl
  · have heard := hearing_of_over (ch := ch) (c := cfgOf s k) (n := max s.now t) assembling passed
    by_cases start : ch = startChar
    · rw [if_pos start] at heard ⊢
      exact takes_character undisputed inside length unstaged positive used free calm heard ⟨rfl, rfl, rfl⟩ rfl rfl
    · rw [if_neg start] at heard ⊢
      exact takes_character undisputed inside length unstaged positive used free calm heard ⟨rfl, rfl, rfl⟩ rfl rfl
  · exact .of_idle rfl rfl undisputed (receiveChar_of_deaf (s := s.atTime t) deaf) fun _ => trivial
  · exact Takes.of_link (f := pauseAbandons k) rfl rfl undisputed inside length
      (pauseAbandons_of_late (s := s.atTime t) assembling is_open late) fun u ends => ⟨ends.others, ends.kept⟩
  · exact .of_idle rfl rfl undisputed (pauseAbandons_of_calm (s := s.atTime t) assembling still) fun _ => trivial
  · exact .of_idle rfl rfl undisputed (reports (endFrame_of_none (s := s.atTime t) none_sent) quiet) fun _ => trivial
  · exact .of_idle rfl rfl undisputed (reports (cutFrame_of_none (s := s.atTime t) none_sent) quiet) fun _ => trivial
  · exact takes_linkFrameSent undisputed inside length positive (endFrame_bid (s := s.atTime t) sent) quiet unstaged rfl
      (Link.SameWork.still ⟨rfl, rfl, rfl⟩ calm)
  · exact takes_linkCollision undisputed inside length positive (cutFrame_bid (s := s.atTime t) here sent again) quiet unstaged
      rfl (Link.SameWork.still ⟨rfl, rfl, rfl⟩ calm)
  · exact takes_linkFrameSent undisputed inside length positive (endFrame_data (s := s.atTime t) sent) quiet unstaged rfl
      (.inl nofun)
  · exact takes_linkCollision undisputed inside length positive (cutFrame_data (s := s.atTime t) here sent again) quiet unstaged
      rfl (.inl nofun)
  · exact takes_linkFrameSent (g := fun l => (l.fallen (max s.now t)).awaitingData (max s.now t) (cfgOf s k)) undisputed
      inside length positive ((endFrame_go (s := s.atTime t) sent).trans (modLink_congr (Link.yieldFlight_of_none
        (l := ((s.link k).fallen (max s.now t)).awaitingData (max s.now t) (cfgOf s k)) none_built _)))
      quiet unstaged rfl (Link.SameWork.still ⟨rfl, rfl, rfl⟩ calm)
  · exact takes_linkCollision (g := fun l => (l.fallen (max s.now t)).withdrawn) undisputed
      inside length positive ((cutFrame_go (s := s.atTime t) sent).trans (modLink_congr (Link.yieldFlight_of_none
        (l := ((s.link k).fallen (max s.now t)).withdrawn) none_built _)))
      quiet unstaged rfl (.inr (.inl idle))
  · exact takes_goYielded undisputed inside length unstaged positive sent quiet built receives which
  · exact takes_linkFrameSent undisputed inside length positive (frame_of_answer (s := s.atTime t) sent).1 quiet unstaged rfl
      (Link.SameWork.still ⟨rfl, rfl, rfl⟩ calm)
  · exact takes_linkCollision undisputed inside length positive (frame_of_answer (s := s.atTime t) sent).2 quiet unstaged rfl
      (Link.SameWork.still ⟨rfl, rfl, rfl⟩ calm)
  · exact takes_crossed undisputed inside length unstaged positive sent crossed absent room confines free
  · exact takes_quiet_not undisputed inside length unstaged calm loud
  · exact takes_quiet undisputed inside length unstaged calm still waits
  · exact .of_idle rfl rfl undisputed (if_neg fun on => Bool.false_ne_true
      ((due_eq_false (s := s.atTime t) early).symm.trans on)) fun _ => trivial
  · exact takes_backOff undisputed inside length unstaged calm set passed

end Sys2Proof.Machine
end

section
/-! Frames heard whole on a link (R138, R142 to R146). -/

set_option Elab.async false

namespace Sys2Proof.Machine

variable {s u v w : State} {k : Nat} {n t e : Time} {l b : Link} {c : LinkCfg} {i : Instr} {f : State → State}
  {bytes chars : List Byte} {ft : FrameType} {items : List Item} {own : Nat} {g : Link → Link}

/-! ### The frame that the characters complete -/

/-- A link whose frame has been taken from its receiver. -/
def Link.took (n : Time) (l : Link) : Link :=
  { l with heard := some n, assembling := none, dataAt := if l.state = .receiving then none else l.dataAt }

theorem Link.took_of_receives {m : Link} (h : l.Receives m) : m.took n = l.took n := by
  obtain ⟨heard, assembling, data, rfl, still⟩ := h
  by_cases receives : l.state = .receiving
  · simp [took, receives]
  · simp [took, receives, still receives]

section
variable (used : (s.link k).state ≠ .outOfUse) (free : (s.link k).state ≠ .loopback)

theorem receiveFrame_of_deaf (deaf : (s.link k).state = .outOfUse ∨ (s.link k).state = .loopback) :
    receiveFrame k bytes s = s := by
  refine if_neg ?_
  rcases deaf with x | x <;> simp [hears, x]

include used free

theorem receiveFrame_of_hearing : receiveFrame k bytes s = takeHeld k (hearChars k bytes s) :=
  if_pos (by simp [hears, used, free])

section
variable (here : within k s.links.length = true)
include here

theorem receiveFrame_of_part (part : ((s.link k).takeChars (cfgOf s k) s.now bytes).frameHeld = none) :
    receiveFrame k bytes s = s.modLink k (Link.takeChars (cfgOf s k) s.now bytes) := by
  have link : (hearChars k bytes s).link k = (s.link k).takeChars (cfgOf s k) s.now bytes :=
    State.link_modLink_same s k _ here
  rw [receiveFrame_of_hearing used free, takeHeld, link, part]
  rfl

theorem receiveFrame_of_whole (whole : ((s.link k).takeChars (cfgOf s k) s.now bytes).frameHeld = some chars) :
    receiveFrame k bytes s = takeHeard k (hear chars) (s.modLink k (Link.took s.now)) := by
  have link : (hearChars k bytes s).link k = (s.link k).takeChars (cfgOf s k) s.now bytes :=
    State.link_modLink_same s k _ here
  have held : takeHeld k (hearChars k bytes s) = takeHeard k (hear chars) ((hearChars k bytes s).modLink k (Link.took s.now)) := by
    rw [takeHeld, link, whole]
    rfl
  rw [receiveFrame_of_hearing used free, held]
  refine congrArg (takeHeard k (hear chars)) ((modLink_modLink ..).trans (modLink_congr ?_))
  exact Link.took_of_receives (Link.receives_takeChars _ _ _ _)

end

end

/-! ### What is made of it (R144, R145) -/

/-- A link that an answer waits for, or a stranger's DATA frame has been found on. -/
def Link.answers (f : FrameType) (l : Link) : Link := { l with answer := some f }
def Link.stranger (l : Link) : Link := { l with crossedDue := true }

theorem takeHeard_of_bad (listens : (s.link k).listening = true) :
    takeHeard k (.bad .data) s = s.modLink k (Link.answers .reject ∘ Link.restartData (cfgOf s k) s.now) := by
  simp only [takeHeard, listens]
  exact modLink_modLink ..

theorem takeHeard_of_stranger (listens : (s.link k).listening = true) (other : (cfgOf s k).farBox ≠ some own) :
    takeHeard k (.whole .data own items) s
      = s.modLink k (Link.stranger ∘ Link.answers .reject ∘ Link.restartData (cfgOf s k) s.now) := by
  simp only [takeHeard, if_neg other, listens, if_true]
  exact (congrArg (fun x => State.modLink x k Link.stranger) (modLink_modLink ..)).trans (modLink_modLink ..)

/-- The silence watch of a link that has heard its far box. -/
def Link.watched (n : Time) (c : LinkCfg) (l : Link) : Link :=
  { l with silenceAt := some (n + c.silence * 1000), lost := false }

theorem takeHeard_of_far (far : (cfgOf s k).farBox = some own) (stands : (s.link k).lost = false) :
    takeHeard k (.whole ft own items) s = takeFrame k ft items (s.modLink k (Link.watched s.now (cfgOf s k))) := by
  simp only [takeHeard, if_pos far, validHeard, stands]
  rfl

theorem takeHeard_of_near (other : (cfgOf s k).farBox ≠ some own) (no_data : ft ≠ .data) :
    takeHeard k (.whole ft own items) s = takeFrame k ft items s := by
  simp only [takeHeard, if_neg other, if_neg no_data]

/-! ### What a link does with a frame -/

/-- What a frame leaves of its link, whatever it is (R144). -/
structure Link.Answered (l m : Link) : Prop where
  lost : m.lost = l.lost
  silence : m.silenceAt = l.silenceAt
  staged : m.staged = l.staged

theorem Link.Answered.refl (l : Link) : l.Answered l := ⟨rfl, rfl, rfl⟩

theorem Link.answered_discardLate (l : Link) (n : Time) : l.Answered (l.discardLate n) := by
  have same := l.discardLate_rest n
  simp only [rest, mk.injEq] at same
  refine ⟨?_, ?_, ?_⟩ <;> simp only [same]

theorem exchangeFailed_answers (k : Nat) (s : State) : ∃ g, exchangeFailed k s = s.modLink k g ∧ ∀ l : Link, l.Answered (g l) := by
  refine ⟨_, rfl, fun l => ?_⟩
  obtain ⟨lost, silence, staged⟩ := Link.answered_discardLate ({ l with
    state := .idle, answerAt := none, takenAt := none, bidAttempts := 0, dataAttempts := 0
    retryAt := some (s.now + 1000), flight := none
    indicationDue := l.indicationDue || l.carriesIndication } : Link) s.now
  exact ⟨lost, silence, staged⟩

/-- A frame changes its link alone. -/
theorem takeFrame_answers (k : Nat) (ft : FrameType) (items : List Item) (s : State) :
    ∃ g, takeFrame k ft items s = s.modLink k g ∧ ∀ l : Link, l.Answered (g l) := by
  have still : ∃ g, s = s.modLink k g ∧ ∀ l : Link, l.Answered (g l) :=
    ⟨id, congrArg (fun x => { s with links := x }) (modAt_self _ _ _ _ rfl).symm, fun l => .refl l⟩
  have plain (g : Link → Link) (answers : ∀ l : Link, l.Answered (g l)) :
      ∃ h, s.modLink k g = s.modLink k h ∧ ∀ l : Link, l.Answered (h l) := ⟨g, rfl, answers⟩
  simp only [takeFrame]
  split
  · exact plain _ fun l => ⟨rfl, rfl, rfl⟩
  · exact ⟨_, modLink_modLink .., fun l => ⟨rfl, rfl, rfl⟩⟩
  · exact plain _ fun l => ⟨rfl, rfl, rfl⟩
  · exact ⟨_, modLink_modLink .., fun l => ⟨rfl, rfl, rfl⟩⟩
  · exact ⟨_, modLink_modLink .., fun l => ⟨rfl, rfl, rfl⟩⟩
  · exact ⟨_, modLink_modLink .., fun l => ⟨rfl, rfl, rfl⟩⟩
  · split
    · simp only [takeGo]
      split
      · exact plain _ fun l => ⟨rfl, rfl, rfl⟩
      · exact plain _ fun l => ⟨rfl, rfl, rfl⟩
    · exact still
  · split
    · simp only [bidFailed]
      split
      · exact plain _ fun l => ⟨rfl, rfl, rfl⟩
      · exact exchangeFailed_answers k s
    · exact still
  · split
    · exact plain _ fun l => ⟨rfl, rfl, rfl⟩
    · exact still
  · split
    · simp only [dataFailed]
      split
      · exact plain _ fun l => ⟨rfl, rfl, rfl⟩
      · exact exchangeFailed_answers k s
    · exact still
  · exact still

end Sys2Proof.Machine
end

section
/-! LINK_LOST ends with a frame of the far box (R138, R146). -/

set_option Elab.async false

namespace Sys2Proof.Machine

variable {s u v w : State} {k : Nat} {n t e : Time} {l b : Link} {c : LinkCfg} {i : Instr} {f : State → State}
  {bytes chars : List Byte} {ft : FrameType} {items : List Item} {own : Nat} {g : Link → Link} {r : FaultRecord}

theorem remove_of_absent {x : Faults} {d : Nat} {o : Option Nat} (absent : x.find d o = none) : x.remove d o = x := by
  have kept : x.records.filter (fun q => !q.isFor d o) = x.records := by
    rw [Faults.find, List.find?_eq_none] at absent
    exact List.filter_eq_self.2 fun q mem => by simpa using absent q mem
  rw [Faults.remove, kept]

/-- LINK_LOST confines nothing: its end is that of its record. -/
theorem endCause_lost : endCause 16 (some k) s = removeSelfClearing 16 (some k) s := by
  have clears : (source 16).selfClearing = true := by decide
  simp only [endCause, clears, if_true, removeSelfClearing]
  rfl

theorem removeSelfClearing_faults (d : Nat) (o : Option Nat) (s : State) :
    (removeSelfClearing d o s).faults = s.faults.remove d o := by
  cases found : s.faults.find d o with
  | none =>
    simp only [removeSelfClearing, found]
    exact (remove_of_absent found).symm
  | some r =>
    simp only [removeSelfClearing, found, clearRecord_of_found found]
    rfl

theorem removeSelfClearing_register {d : Nat} {o : Option Nat} (found : s.faults.find d o = some r) :
    (removeSelfClearing d o s).register = s.register.append (.faultCleared d o r.reaction r.count false) := by
  simp only [removeSelfClearing, found, clearRecord_of_found found]
  rfl

theorem moves_removeSelfClearing (d : Nat) (o : Option Nat) (s : State) :
    Moves [.note, .record, .faults] s (removeSelfClearing d o s) := Moves.refl.to_removeSelfClearing d o

theorem takeHeard_of_lost (far : (cfgOf s k).farBox = some own) (lost : (s.link k).lost = true) :
    takeHeard k (.whole ft own items) s = takeFrame k ft items (evalCoils k (removeSelfClearing 16 (some k)
      (s.modLink k (Link.watched s.now (cfgOf s k))))) := by
  simp only [takeHeard, if_pos far, validHeard, lost, when_true, endCause_lost]
  rfl

/-- The part as link `k` is found again: its silence watch restarted, and its record removed. -/
def foundAgain (k : Nat) (s : State) : State :=
  removeSelfClearing 16 (some k) (s.modLink k (Link.watched s.now (cfgOf s k) ∘ Link.took s.now))

theorem leaves_foundAgain (k : Nat) (s : State) :
    Leaves [.links, .faults, .register, .transmitter] s (foundAgain k s) :=
  ((leaves_modLink k _ s).mono (by simp)).trans ((moves_removeSelfClearing 16 (some k) _).leaves)

theorem foundAgain_links (k : Nat) (s : State) :
    (foundAgain k s).links = modAt s.links {} k (Link.watched s.now (cfgOf s k) ∘ Link.took s.now) :=
  (moves_removeSelfClearing 16 (some k) _).exactly .links

/-- A frame of the far box on a link that has been lost: LINK_LOST ends. -/
theorem takes_found (undisputed : s.Undisputed) (inside : within k 3 = true) (length : s.links.length = 3)
    (used : (s.link k).state ≠ .outOfUse) (free : (s.link k).state ≠ .loopback)
    (whole : ((s.link k).takeChars (cfgOf s k) (max s.now t) bytes).frameHeld = some chars)
    (heard : hear chars = .whole ft own items) (far : (cfgOf s k).farBox = some own) (lost : (s.link k).lost = true) :
    Takes (.linkFrameReceived t k bytes) s [.links, .inbound, .faults, .register] fun u =>
      OtherLinks k s u ∧ OtherInbound k s u ∧ (u.link k).lost = false
        ∧ (u.link k).silenceAt = some (max s.now t + (cfgOf s k).silence * 1000)
        ∧ u.faults = s.faults.remove 16 (some k)
        ∧ ∀ r, s.faults.find 16 (some k) = some r → u.register
          = s.register.append (.faultCleared 16 (some k) r.reaction r.count false) := by
  have here := here_of_within 3 inside length
  have lost_marked : (((s.atTime t).modLink k (Link.took (max s.now t))).link k).lost = true :=
    (congrArg Link.lost (State.link_modLink_same (s.atTime t) k _ here)).trans lost
  have effect : receiveFrame k bytes (s.atTime t) = takeFrame k ft items (evalCoils k (foundAgain k (s.atTime t))) := by
    refine (receiveFrame_of_whole (s := s.atTime t) used free here whole).trans ?_
    rw [heard]
    refine (takeHeard_of_lost (s := (s.atTime t).modLink k (Link.took (max s.now t))) far lost_marked).trans ?_
    exact congrArg (fun x => takeFrame k ft items (evalCoils k (removeSelfClearing 16 (some k) x))) (modLink_modLink ..)
  have moves : Moves raiseKinds (s.atTime t) (receiveFrame k bytes (s.atTime t)) := Moves.refl.to_receiveFrame k bytes
  obtain ⟨g, answers, keeps⟩ := takeFrame_answers k ft items (evalCoils k (foundAgain k (s.atTime t)))
  rw [answers] at effect
  rw [effect] at moves
  have left : Leaves [.links, .inbound, .faults, .register, .transmitter] (s.atTime t)
      ((evalCoils k (foundAgain k (s.atTime t))).modLink k g) :=
    (((leaves_foundAgain k (s.atTime t)).mono (by simp)).trans ((moves_evalCoils k _).leaves)).trans
      ((leaves_modLink k g _).mono (by simp))
  have links : ((evalCoils k (foundAgain k (s.atTime t))).modLink k g).links
      = modAt s.links {} k (g ∘ Link.watched (max s.now t) (cfgOf s k) ∘ Link.took (max s.now t)) := by
    refine (congrArg (fun x => modAt x {} k g) (((moves_evalCoils k _).exactly .links).trans
      (foundAgain_links k (s.atTime t)))).trans (modAt_modAt _ _ _ _ _)
  have inbound : (foundAgain k (s.atTime t)).inbound = s.inbound :=
    (leaves_foundAgain k (s.atTime t)).2.2.2 .inbound (by decide)
  refine Takes.of_parts rfl rfl undisputed effect moves (left.mono (by simp)) fun agreed _ => ?_
  have kept := finish_own_link (s := s) agreed links here
  obtain ⟨lost', silence', -⟩ := keeps (((s.link k).took (max s.now t)).watched (max s.now t) (cfgOf s k))
  refine ⟨finish_other_links (s := s) agreed links, fun j other => ?_, ?_, ?_, ?_, fun r found => ?_⟩
  · rw [finish_inb agreed]
    exact (evalCoils_other k _ j other).trans (congrArg (fun l : List Inbound => nth l {} j) inbound)
  · have field := congrArg Link.lost kept
    exact Eq.trans field lost'
  · have field := congrArg Link.silenceAt kept
    exact Eq.trans field silence'
  · rw [finish_faults agreed]
    exact (evalCoils_faults k _).trans (removeSelfClearing_faults 16 (some k) _)
  · rw [finish_register agreed]
    exact (evalCoils_register k _).trans (removeSelfClearing_register (s := (s.atTime t).modLink k _) found)

end Sys2Proof.Machine
end

section
/-! What a link does with a frame, by its state (R142 to R144). -/

set_option Elab.async false

namespace Sys2Proof.Machine

variable {s u v w : State} {k : Nat} {n t e : Time} {l r : Link} {c : LinkCfg} {i : Instr} {f : State → State}
  {bytes chars : List Byte} {ft : FrameType} {items : List Item} {own : Nat} {g h : Link → Link}

/-! ### The frames, by the state of the link -/

def Link.dataStopped (l : Link) : Link := { l with dataAt := none }
def Link.delivers (items : List Item) (l : Link) : Link := { l with toDeliver := items, dataAt := none }
def Link.sends (fl : Flight) (l : Link) : Link :=
  { l with state := .sending, answerAt := none, flight := some fl
           indicationDue := l.indicationDue && !fl.items.any Item.isIndication }
def Link.nothingSent (l : Link) : Link := { l with state := .idle, answerAt := none }

/-- A link whose DATA frame has been taken (R142). -/
def Link.exchanged (n : Time) (c : LinkCfg) (l : Link) : Link :=
  { l with state := .idle, queue := l.queue.drop l.inFlight, flight := none, takenAt := none
           heartbeatAt := if l.carriesIndication then some (n + c.heartbeat * 1000) else l.heartbeatAt
           bidAttempts := 0, dataAttempts := 0 }

theorem takeFrame_idle_bid (state : (s.link k).state = .idle) :
    takeFrame k .bid items s = s.modLink k (Link.answers .go) := by
  simp only [takeFrame, state]
  rfl

theorem takeFrame_receiving_bid (state : (s.link k).state = .receiving) :
    takeFrame k .bid items s = s.modLink k (Link.answers .go ∘ Link.dataStopped) := by
  simp only [takeFrame, state]
  exact modLink_modLink ..

theorem takeFrame_bidding_bid (state : (s.link k).state = .bidding) : takeFrame k .bid items s
    = s.modLink k (Link.answers (if (cfgOf s k).role = some .senior then .wait else .go)) := by
  simp only [takeFrame, state]
  rfl

theorem takeFrame_data (state : (s.link k).state = .idle ∨ (s.link k).state = .bidding ∨ (s.link k).state = .receiving) :
    takeFrame k .data items s = s.modLink k (Link.answers .taken ∘ Link.delivers items) := by
  rcases state with state | state | state <;> (simp only [takeFrame, state]; exact modLink_modLink ..)

theorem takeFrame_go (state : (s.link k).state = .bidding) (waits : (s.link k).answerAt ≠ none) :
    takeFrame k .go items s = takeGo k s := by
  simp only [takeFrame, state, Option.isSome_iff_ne_none.2 waits, if_true]

theorem takeFrame_wait (state : (s.link k).state = .bidding) (waits : (s.link k).answerAt ≠ none) :
    takeFrame k .wait items s = bidFailed k s := by
  simp only [takeFrame, state, Option.isSome_iff_ne_none.2 waits, if_true]

theorem takeFrame_taken (state : (s.link k).state = .awaitTaken) (waits : (s.link k).takenAt ≠ none) :
    takeFrame k .taken items s = s.modLink k (Link.exchanged s.now (cfgOf s k)) := by
  simp only [takeFrame, state, Option.isSome_iff_ne_none.2 waits, if_true]
  rfl

theorem takeFrame_reject (state : (s.link k).state = .awaitTaken) (waits : (s.link k).takenAt ≠ none) :
    takeFrame k .reject items s = dataFailed false k s := by
  simp only [takeFrame, state, Option.isSome_iff_ne_none.2 waits, if_true]

theorem takeGo_of_items (some_items : (buildFlight s k).items ≠ []) :
    takeGo k s = s.modLink k (Link.sends (buildFlight s k)) := if_neg some_items

theorem takeGo_of_none (no_items : (buildFlight s k).items = []) : takeGo k s = s.modLink k Link.nothingSent := if_pos no_items

/-- A link without work has nothing to build a DATA frame from. -/
theorem buildFlight_of_idle (no_work : hasWork s k = false) : (buildFlight s k).items = [] := by
  simp only [hasWork, Bool.or_eq_false_iff, Bool.not_eq_false', List.isEmpty_iff] at no_work
  obtain ⟨empty, due⟩ := no_work
  cases state : (s.inb k).state with
  | none => simp [buildFlight, empty, indicationOf, state]
  | some st =>
    have clear : (s.link k).indicationDue = false := by simpa [state] using due
    simp [buildFlight, empty, clear]

/-! ### A frame of the far box, or of a stranger that sends no DATA -/

/-- The link as its frame is taken. -/
def Link.based (n : Time) (c : LinkCfg) (own : Nat) (l : Link) : Link :=
  { l with heard := some n, assembling := none, dataAt := if l.state = .receiving then none else l.dataAt
           silenceAt := if c.farBox = some own then some (n + c.silence * 1000) else l.silenceAt }

theorem Link.watched_took (far : c.farBox = some own) (stands : l.lost = false) :
    (l.took n).watched n c = l.based n c own := by
  simp only [watched, took, based, if_pos far, stands]

theorem Link.took_of_near (other : c.farBox ≠ some own) : l.took n = l.based n c own := by
  simp only [took, based, if_neg other]

/-- The part as link `k` takes a frame that it has heard. -/
def hearing (k own : Nat) (s : State) : State := s.modLink k (Link.based s.now (cfgOf s k) own)

/-- A link that hears a frame whole, with its line in use. -/
structure HearsFrame (s : State) (t : Time) (k : Nat) (bytes chars : List Byte) : Prop where
  undisputed : s.Undisputed
  inside : within k 3 = true
  length : s.links.length = 3
  unstaged : (s.link k).staged = []
  positive : 1 ≤ (cfgOf s k).turnaround
  used : (s.link k).state ≠ .outOfUse
  free : (s.link k).state ≠ .loopback
  whole : ((s.link k).takeChars (cfgOf s k) (max s.now t) bytes).frameHeld = some chars

theorem HearsFrame.here (a : HearsFrame s t k bytes chars) : within k s.links.length = true :=
  here_of_within 3 a.inside a.length

theorem hearing_link (here : within k s.links.length = true) :
    (hearing k own s).link k = (s.link k).based s.now (cfgOf s k) own := State.link_modLink_same s k _ here

/-- The row of a frame, by what its taking makes of the link. -/
theorem HearsFrame.takes (a : HearsFrame s t k bytes chars)
    (effect : takeHeard k (hear chars) ((s.atTime t).modLink k (Link.took (max s.now t))) = (s.atTime t).modLink k g)
    (result : g (s.link k) = r) (unstaged : r.staged = (s.link k).staged) (heard : r.heard = some (max s.now t)) :
    Takes (.linkFrameReceived t k bytes) s [.links] fun u => OtherLinks k s u
      ∧ u.link k = r.begun (r.works (s.inb k).state) := by
  have staged : (g (s.link k)).staged = [] := by rw [result, unstaged, a.unstaged]
  refine Takes.of_link rfl rfl a.undisputed a.inside a.length
    ((receiveFrame_of_whole (s := s.atTime t) a.used a.free a.here a.whole).trans effect)
    (fun u ends => ⟨ends.others, ?_⟩) fun _ => staged
  rw [← result]
  exact ends.loud staged (by rw [result, heard]) a.positive

/-- The row of a frame that its link begins nothing after. -/
theorem HearsFrame.takes_still (a : HearsFrame s t k bytes chars)
    (effect : takeHeard k (hear chars) ((s.atTime t).modLink k (Link.took (max s.now t))) = (s.atTime t).modLink k g)
    (result : g (s.link k) = r) (unstaged : r.staged = (s.link k).staged) (heard : r.heard = some (max s.now t))
    (still : r.state ≠ .idle ∨ r.works (s.inb k).state = false ∨ r.retryAt ≠ none) :
    Takes (.linkFrameReceived t k bytes) s [.links] fun u => OtherLinks k s u ∧ u.link k = r := by
  refine (a.takes effect result unstaged heard).imp fun u got => ⟨got.1, got.2.trans (if_neg ?_)⟩
  rintro ⟨idle, work, ready⟩
  rcases still with other | other | other
  · exact other idle
  · exact Bool.false_ne_true (other.symm.trans work)
  · exact other ready

/-- A frame that is taken by the state of its link. -/
theorem HearsFrame.taken (a : HearsFrame s t k bytes chars) (heard : hear chars = .whole ft own items)
    (from_whom : ((cfgOf s k).farBox = some own ∧ (s.link k).lost = false) ∨ ((cfgOf s k).farBox ≠ some own ∧ ft ≠ .data))
    (takes : takeFrame k ft items (hearing k own (s.atTime t)) = (hearing k own (s.atTime t)).modLink k h) :
    takeHeard k (hear chars) ((s.atTime t).modLink k (Link.took (max s.now t)))
      = (s.atTime t).modLink k (h ∘ Link.based (max s.now t) (cfgOf s k) own) := by
  have link : ((s.atTime t).modLink k (Link.took (max s.now t))).link k = (s.link k).took (max s.now t) :=
    State.link_modLink_same (s.atTime t) k _ a.here
  rw [heard]
  refine Eq.trans ?_ (takes.trans (modLink_modLink ..))
  rcases from_whom with ⟨far, stands⟩ | ⟨other, no_data⟩
  · refine (takeHeard_of_far (s := (s.atTime t).modLink k (Link.took (max s.now t))) far
      ((congrArg Link.lost link).trans stands)).trans (congrArg (takeFrame k ft items) ?_)
    exact (modLink_modLink ..).trans (modLink_congr (Link.watched_took far stands))
  · refine (takeHeard_of_near (s := (s.atTime t).modLink k (Link.took (max s.now t))) other no_data).trans
      (congrArg (takeFrame k ft items) (modLink_congr (Link.took_of_near other)))

end Sys2Proof.Machine
end

section
/-! The frames a link takes, by its state (O46). -/

set_option Elab.async false

namespace Sys2Proof.Machine

variable {s u v w : State} {k : Nat} {n t e : Time} {l r : Link} {c : LinkCfg} {bytes chars : List Byte} {ft : FrameType}
  {items : List Item} {own : Nat} {g h : Link → Link}

/-- A link that has heard a frame, its data timer aside. -/
def Link.heardFrom (n : Time) (c : LinkCfg) (own : Nat) (l : Link) : Link :=
  { l with heard := some n, assembling := none
           silenceAt := if c.farBox = some own then some (n + c.silence * 1000) else l.silenceAt }

theorem Link.based_of_other (off : l.state ≠ .receiving) : l.based n c own = l.heardFrom n c own := by
  simp only [based, heardFrom, if_neg off]

theorem Link.based_of_receiving (on : l.state = .receiving) : l.based n c own = (l.heardFrom n c own).dataStopped := by
  simp only [based, heardFrom, dataStopped, if_pos on]

theorem Link.delivers_based (items : List Item) : (l.based n c own).delivers items = (l.heardFrom n c own).delivers items := rfl

/-- A failed exchange, with what it leaves of its DATA frame. -/
theorem Link.exchangeLost_eq (n : Time) (l : Link) : l.exchangeLost n = ({ l with
    state := .idle, flight := none, answerAt := none, takenAt := none, bidAttempts := 0, dataAttempts := 0
    retryAt := some (n + 1000)
    indicationDue := l.indicationDue || l.flight.any (·.items.any Item.isIndication) } : Link).discardLate n := by
  rw [exchangeLost, dropFlight, ← carriesIndication_eq]
  rfl

theorem Link.exchangeLost_fields (n : Time) (l : Link) : (l.exchangeLost n).heard = l.heard
    ∧ (l.exchangeLost n).staged = l.staged ∧ (l.exchangeLost n).retryAt = some (n + 1000) := by
  have same := discardLate_rest ({ l with
    state := .idle, flight := none, answerAt := none, takenAt := none, bidAttempts := 0, dataAttempts := 0
    retryAt := some (n + 1000)
    indicationDue := l.indicationDue || l.flight.any (·.items.any Item.isIndication) } : Link) n
  rw [← exchangeLost_eq] at same
  simp only [rest, mk.injEq] at same
  simp only [same, and_self]

theorem HearsFrame.link (a : HearsFrame s t k bytes chars) :
    (hearing k own (s.atTime t)).link k = (s.link k).based (max s.now t) (cfgOf s k) own :=
  hearing_link (s := s.atTime t) a.here

section
variable (a : HearsFrame s t k bytes chars) (heard : hear chars = .whole ft own items)
  (from_whom : ((cfgOf s k).farBox = some own ∧ (s.link k).lost = false) ∨ ((cfgOf s k).farBox ≠ some own ∧ ft ≠ .data))
include a heard from_whom

/-- A frame, by what it makes of the link as it is taken. -/
theorem HearsFrame.takes_frame
    (takes : takeFrame k ft items (hearing k own (s.atTime t)) = (hearing k own (s.atTime t)).modLink k h)
    (result : h ((s.link k).based (max s.now t) (cfgOf s k) own) = r) (unstaged : r.staged = (s.link k).staged)
    (listened : r.heard = some (max s.now t))
    (still : r.state ≠ .idle ∨ r.works (s.inb k).state = false ∨ r.retryAt ≠ none) :
    Takes (.linkFrameReceived t k bytes) s [.links] fun u => OtherLinks k s u ∧ u.link k = r :=
  a.takes_still (a.taken heard from_whom takes) result unstaged listened still

theorem takes_bid_idle (state : (s.link k).state = .idle) (is : ft = .bid) (idle : hasWork s k = false) :
    Takes (.linkFrameReceived t k bytes) s [.links] fun u => OtherLinks k s u
      ∧ u.link k = ((s.link k).heardFrom (max s.now t) (cfgOf s k) own).answers .go := by
  subst is
  have link := a.link (own := own)
  refine a.takes_frame heard from_whom (takeFrame_idle_bid (by rw [link]; exact state)) ?_ rfl rfl (.inr (.inl idle))
  rw [Link.based_of_other (by rw [state]; exact nofun)]

theorem takes_bid_receiving (state : (s.link k).state = .receiving) (is : ft = .bid) :
    Takes (.linkFrameReceived t k bytes) s [.links] fun u => OtherLinks k s u
      ∧ u.link k = (((s.link k).heardFrom (max s.now t) (cfgOf s k) own).dataStopped).answers .go := by
  subst is
  have link := a.link (own := own)
  refine a.takes_frame heard from_whom (takeFrame_receiving_bid (by rw [link]; exact state)) ?_ rfl rfl
    (.inl fun idle => nomatch state.symm.trans idle)
  rw [Link.based_of_receiving state]
  rfl

theorem takes_bid_bidding (state : (s.link k).state = .bidding) (is : ft = .bid) :
    Takes (.linkFrameReceived t k bytes) s [.links] fun u => OtherLinks k s u
      ∧ u.link k = ((s.link k).heardFrom (max s.now t) (cfgOf s k) own).answers
        (if (cfgOf s k).role = some .senior then .wait else .go) := by
  subst is
  have link := a.link (own := own)
  refine a.takes_frame heard from_whom (takeFrame_bidding_bid (by rw [link]; exact state)) ?_ rfl rfl
    (.inl fun idle => nomatch state.symm.trans idle)
  rw [Link.based_of_other (by rw [state]; exact nofun)]
  rfl

theorem takes_data (state : ((s.link k).state = .idle ∧ hasWork s k = false) ∨ (s.link k).state = .bidding
      ∨ (s.link k).state = .receiving) (is : ft = .data) :
    Takes (.linkFrameReceived t k bytes) s [.links] fun u => OtherLinks k s u
      ∧ u.link k = (((s.link k).heardFrom (max s.now t) (cfgOf s k) own).delivers items).answers .taken := by
  subst is
  have link := a.link (own := own)
  refine a.takes_frame heard from_whom (takeFrame_data (by rw [link]; exact state.imp_left And.left))
    (congrArg (Link.answers .taken) (Link.delivers_based items)) rfl rfl ?_
  rcases state with ⟨-, idle⟩ | bids | receives
  · exact .inr (.inl idle)
  · exact .inl fun idle => nomatch bids.symm.trans idle
  · exact .inl fun idle => nomatch receives.symm.trans idle

/-- A GO that is waited for (R142). -/
theorem takes_go (state : (s.link k).state = .bidding) (is : ft = .go) (waits : (s.link k).answerAt ≠ none) :
    ((buildFlight s k).items ≠ [] →
      Takes (.linkFrameReceived t k bytes) s [.links] fun u => OtherLinks k s u
        ∧ u.link k = ((s.link k).heardFrom (max s.now t) (cfgOf s k) own).sends (buildFlight s k))
      ∧ (hasWork s k = false →
        Takes (.linkFrameReceived t k bytes) s [.links] fun u => OtherLinks k s u
          ∧ u.link k = ((s.link k).heardFrom (max s.now t) (cfgOf s k) own).nothingSent) := by
  subst is
  have link := a.link (own := own)
  have base : (s.link k).based (max s.now t) (cfgOf s k) own = (s.link k).heardFrom (max s.now t) (cfgOf s k) own :=
    Link.based_of_other (by rw [state]; exact nofun)
  have flight : buildFlight (hearing k own (s.atTime t)) k = buildFlight s k := by
    simp only [buildFlight, link]
    rfl
  have goes := takeFrame_go (items := items) (s := hearing k own (s.atTime t)) (by rw [link]; exact state) (by rw [link]; exact waits)
  refine ⟨fun some_items => ?_, fun idle => ?_⟩
  · have takes := goes.trans (takeGo_of_items (by rw [flight]; exact some_items))
    rw [flight] at takes
    exact a.takes_frame heard from_whom takes (congrArg _ base) rfl rfl (.inl nofun)
  · exact a.takes_frame heard from_whom (goes.trans (takeGo_of_none (by rw [flight]; exact buildFlight_of_idle idle)))
      (congrArg _ base) rfl rfl (.inr (.inl idle))

/-- A failed attempt at which the exchange fails (R143). -/
theorem takes_attempts_out (off : (s.link k).state ≠ .receiving)
    (takes : takeFrame k ft items (hearing k own (s.atTime t))
      = (hearing k own (s.atTime t)).modLink k (Link.exchangeLost (max s.now t))) :
    Takes (.linkFrameReceived t k bytes) s [.links] fun u => OtherLinks k s u
      ∧ u.link k = ((s.link k).heardFrom (max s.now t) (cfgOf s k) own).exchangeLost (max s.now t) := by
  obtain ⟨hears, stages, retry⟩ := Link.exchangeLost_fields (max s.now t) ((s.link k).heardFrom (max s.now t) (cfgOf s k) own)
  exact a.takes_frame heard from_whom takes (congrArg _ (Link.based_of_other off)) stages hears
    (.inr (.inr (by rw [retry]; exact nofun)))

/-- A WAIT for a BID (R143). -/
theorem takes_wait (state : (s.link k).state = .bidding) (is : ft = .wait) (waits : (s.link k).answerAt ≠ none) :
    Takes (.linkFrameReceived t k bytes) s [.links] fun u => OtherLinks k s u
      ∧ u.link k = if (s.link k).bidAttempts + 1 ≤ (cfgOf s k).bidRetries then
          ((s.link k).heardFrom (max s.now t) (cfgOf s k) own).bidAgain (max s.now t) (cfgOf s k)
        else ((s.link k).heardFrom (max s.now t) (cfgOf s k) own).exchangeLost (max s.now t) := by
  subst is
  have link := a.link (own := own)
  have off : (s.link k).state ≠ .receiving := by rw [state]; exact nofun
  have fails := takeFrame_wait (items := items) (s := hearing k own (s.atTime t)) (by rw [link]; exact state)
    (by rw [link]; exact waits)
  by_cases again : (s.link k).bidAttempts + 1 ≤ (cfgOf s k).bidRetries
  · simp only [if_pos again]
    exact a.takes_frame heard from_whom (fails.trans (bidFailed_of_again (by rw [link]; exact again)))
      (congrArg _ (Link.based_of_other off)) rfl rfl (.inl fun idle => nomatch state.symm.trans idle)
  · simp only [if_neg again]
    exact takes_attempts_out a heard from_whom off
      (fails.trans (bidFailed_of_lost (by rw [link]; exact Nat.lt_of_not_le again)))

/-- A REJECT of a DATA frame (R142). -/
theorem takes_reject (state : (s.link k).state = .awaitTaken) (is : ft = .reject) (waits : (s.link k).takenAt ≠ none) :
    Takes (.linkFrameReceived t k bytes) s [.links] fun u => OtherLinks k s u
      ∧ u.link k = if (s.link k).dataAttempts + 1 ≤ (cfgOf s k).dataRetries then
          ((s.link k).heardFrom (max s.now t) (cfgOf s k) own).dataAgain
        else ((s.link k).heardFrom (max s.now t) (cfgOf s k) own).exchangeLost (max s.now t) := by
  subst is
  have link := a.link (own := own)
  have off : (s.link k).state ≠ .receiving := by rw [state]; exact nofun
  have fails := takeFrame_reject (items := items) (s := hearing k own (s.atTime t)) (by rw [link]; exact state)
    (by rw [link]; exact waits)
  by_cases again : (s.link k).dataAttempts + 1 ≤ (cfgOf s k).dataRetries
  · simp only [if_pos again]
    exact a.takes_frame heard from_whom (fails.trans (dataFailed_of_again (by rw [link]; exact again)))
      (congrArg _ (Link.based_of_other off)) rfl rfl (.inl nofun)
  · simp only [if_neg again]
    exact takes_attempts_out a heard from_whom off
      (fails.trans (dataFailed_of_lost false (by rw [link]; exact Nat.lt_of_not_le again)))

/-- A TAKEN that is waited for: a link with more work bids again (R142). -/
theorem takes_taken {more : Bool} (state : (s.link k).state = .awaitTaken) (is : ft = .taken)
    (waits : (s.link k).takenAt ≠ none)
    (work : more = true ↔ (s.link k).queue.drop (s.link k).inFlight ≠ []
      ∨ (s.link k).indicationDue = true ∧ (s.inb k).state ≠ none) :
    Takes (.linkFrameReceived t k bytes) s [.links] fun u => OtherLinks k s u
      ∧ u.link k = (((s.link k).heardFrom (max s.now t) (cfgOf s k) own).exchanged (max s.now t) (cfgOf s k)).begun more := by
  subst is
  have link := a.link (own := own)
  have off : (s.link k).state ≠ .receiving := by rw [state]; exact nofun
  have works : (((s.link k).heardFrom (max s.now t) (cfgOf s k) own).exchanged (max s.now t) (cfgOf s k)).works (s.inb k).state
      = more := by
    rw [Bool.eq_iff_iff, work]
    simp only [Link.works, Bool.or_eq_true, Bool.not_eq_true', List.isEmpty_eq_false_iff, Bool.and_eq_true,
      Option.isSome_iff_ne_none]
    exact Iff.rfl
  have row := a.takes (r := ((s.link k).heardFrom (max s.now t) (cfgOf s k) own).exchanged (max s.now t) (cfgOf s k))
    (a.taken heard from_whom (takeFrame_taken (by rw [link]; exact state) (by rw [link]; exact waits)))
    (congrArg _ (Link.based_of_other off)) rfl rfl
  rwa [works] at row

end

/-! ### A DATA frame that is refused (R144, R145) -/

/-- A link that has heard a frame of no use to it, its data timer started again. -/
def Link.listenedOn (n : Time) (c : LinkCfg) (l : Link) : Link :=
  { l with heard := some n, assembling := none
           dataAt := if l.state = .receiving then some (n + c.dataStart) else l.dataAt }

theorem Link.restart_took (n : Time) (c : LinkCfg) (l : Link) : (l.took n).restartData c n = l.listenedOn n c := by
  by_cases receives : l.state = .receiving
  · simp only [restartData, took, listenedOn, if_pos receives]
  · simp only [restartData, took, listenedOn, if_neg receives]

section
variable (a : HearsFrame s t k bytes chars)
  (listens : ((s.link k).state = .idle ∧ hasWork s k = false) ∨ (s.link k).state = .bidding ∨ (s.link k).state = .receiving)
include a listens

theorem listening_took : (((s.atTime t).modLink k (Link.took (max s.now t))).link k).listening = true := by
  rw [State.link_modLink_same (s.atTime t) k _ a.here]
  have state : ((s.link k).took (max s.now t)).state = (s.link k).state := rfl
  rcases listens with ⟨x, -⟩ | x | x <;> simp [Link.listening, state, x]

omit a in
theorem listens_still {m : Link} (same : (s.link k).SameWork m) :
    m.state ≠ .idle ∨ m.works (s.inb k).state = false ∨ m.retryAt ≠ none := by
  refine same.still ?_
  rcases listens with ⟨-, idle⟩ | x | x
  · exact .inr idle
  · exact .inl (by rw [x]; exact nofun)
  · exact .inl (by rw [x]; exact nofun)

/-- A DATA frame whose CHECK is wrong. -/
theorem takes_bad (heard : hear chars = .bad .data) :
    Takes (.linkFrameReceived t k bytes) s [.links] fun u => OtherLinks k s u
      ∧ u.link k = ((s.link k).listenedOn (max s.now t) (cfgOf s k)).answers .reject := by
  refine a.takes_still (r := ((s.link k).listenedOn (max s.now t) (cfgOf s k)).answers .reject)
    (g := Link.answers .reject ∘ Link.restartData (cfgOf s k) (max s.now t) ∘ Link.took (max s.now t)) ?_
    (congrArg (Link.answers .reject) (Link.restart_took _ _ _)) rfl rfl (listens_still listens ⟨rfl, rfl, rfl⟩)
  rw [heard]
  exact (takeHeard_of_bad (listening_took a listens)).trans (modLink_modLink ..)

/-- A DATA frame of another box, to be reported. -/
theorem takes_stranger (heard : hear chars = .whole .data own items) (other : (cfgOf s k).farBox ≠ some own) :
    Takes (.linkFrameReceived t k bytes) s [.links] fun u => OtherLinks k s u
      ∧ u.link k = (((s.link k).listenedOn (max s.now t) (cfgOf s k)).answers .reject).stranger := by
  refine a.takes_still (r := (((s.link k).listenedOn (max s.now t) (cfgOf s k)).answers .reject).stranger)
    (g := Link.stranger ∘ Link.answers .reject ∘ Link.restartData (cfgOf s k) (max s.now t) ∘ Link.took (max s.now t)) ?_
    (congrArg (fun l => (Link.answers .reject l).stranger) (Link.restart_took _ _ _)) rfl rfl
    (listens_still listens ⟨rfl, rfl, rfl⟩)
  rw [heard]
  exact (takeHeard_of_stranger (listening_took a listens) other).trans (modLink_modLink ..)

end

/-- A link whose exchange has ended, with more work or none. -/
theorem Link.exchanged_begun (n : Time) (c : LinkCfg) (more : Bool) (l : Link) : (l.exchanged n c).begun more = { l with
    state := if more = true ∧ l.retryAt = none then .bidding else .idle
    queue := l.queue.drop l.inFlight, flight := none, takenAt := none, bidAttempts := 0, dataAttempts := 0
    heartbeatAt := if l.flight.any (·.items.any Item.isIndication) then some (n + c.heartbeat * 1000) else l.heartbeatAt } := by
  simp only [begun, exchanged, carriesIndication_eq, true_and]
  split <;> rfl

/-- Settles O46: a frame heard whole is taken from the receiver, and does to the link what its state says. -/
theorem linkFramesAreTakenByState : Obligations.LinkFramesAreTakenByState := by
  unfold Obligations.LinkFramesAreTakenByState
  rintro s t k bytes chars f own items l base bad failed c n undisputed inside length rfl rfl rfl unstaged positive
  have here := here_of_within 3 inside length
  refine ⟨fun deaf => ?_, fun used free part => ?_, fun used free whole => ?_⟩
  · exact .of_idle rfl rfl undisputed (receiveFrame_of_deaf (s := s.atTime t) deaf) fun _ => trivial
  · refine Takes.of_link (g := Link.takeChars (cfgOf s k) (max s.now t) bytes) rfl rfl undisputed inside length
      (receiveFrame_of_part (s := s.atTime t) used free here part) (fun u ends => ⟨ends.others, ends.kept⟩) fun none_staged => ?_
    exact (Link.receives_takeChars _ _ _ _).staged_eq.trans none_staged
  · have a : HearsFrame s t k bytes chars := ⟨undisputed, inside, length, unstaged, positive, used, free, whole⟩
    refine ⟨fun heard far lost _ => takes_found undisputed inside length used free whole heard far lost,
      fun heard from_whom based lost => ?_, fun heard listens refused => ?_, fun heard other listens =>
        takes_stranger a listens heard other⟩
    · subst based
      have failure : failed = ((s.link k).heardFrom (max s.now t) (cfgOf s k) own).exchangeLost (max s.now t) :=
        lost.trans (Link.exchangeLost_eq _ _).symm
      subst failure
      refine ⟨fun state is idle => takes_bid_idle a heard from_whom state is idle,
        fun state is => takes_bid_receiving a heard from_whom state is,
        fun state is => takes_bid_bidding a heard from_whom state is, fun state is => takes_data a heard from_whom state is,
        fun state is waits fl built => ?_, fun state is waits => takes_wait a heard from_whom state is waits,
        fun more state is waits work => ?_, fun state is waits => takes_reject a heard from_whom state is waits⟩
      · subst built
        exact takes_go a heard from_whom state is waits
      · refine (takes_taken a heard from_whom state is waits work).imp fun u got => ⟨got.1, got.2.trans ?_⟩
        exact Link.exchanged_begun _ _ _ _
    · subst refused
      exact takes_bad a listens heard

end Sys2Proof.Machine
end

section
/-! The items of a taken DATA frame (R105, R106): strokes and code ends. -/

set_option Elab.async false

namespace Sys2Proof.Machine

variable {s u v w : State} {j k n num units count : Nat} {newGroup garbled : Bool} {pattern : List Nat}
  {rules : List CodeRule} {c : ReceivedCode} {is : List Instrument}

/-! ### The bell and the instruments -/

/-- The part with other instruments. -/
def withInstruments (is : List Instrument) (s : State) : State := { s with instruments := is }

def Instrument.rung (until_ : Time) (i : Instrument) : Instrument :=
  { i with ringEnd := some (max (i.ringEnd.getD until_) until_) }

/-- The end of a ring begun now (R45). -/
def ringUntil (units : Nat) (now : Time) : Time := now + max 40 (min (units * 5) 250)

theorem ring_eq (k units : Nat) (s : State) :
    ring k units s = withInstruments (modAt s.instruments {} k (Instrument.rung (ringUntil units s.now))) s := rfl

theorem reloadBell_withInstruments (k : Nat) (s : State) :
    reloadBell k (withInstruments is s) = withInstruments is (reloadBell k s) := by
  by_cases still : (s.bell k).staged = [] ∨ codeOpen s k = true
  · rw [reloadBell_of_still still]
    exact reloadBell_of_still (s := withInstruments is s) still
  · rw [not_or, Bool.not_eq_true] at still
    rw [reloadBell_of_due still.1 still.2]
    exact reloadBell_of_due (s := withInstruments is s) still.1 still.2

theorem endReceived_withInstruments (k number : Nat) (s : State) :
    endReceived k number pattern true rules (withInstruments is s)
      = withInstruments is (endReceived k number pattern true rules s) := by
  simp only [endReceived_eq]
  rw [closeReceived_of_garbled, closeReceived_of_garbled, ← reloadBell_withInstruments]
  rfl

theorem endReceived_other (k number : Nat) (other : j ≠ k) (s : State) :
    (endReceived k number pattern true rules s).bell j = s.bell j := by
  have reloaded (w : State) : (reloadBell k w).bell j = w.bell j := by
    by_cases still : (w.bell k).staged = [] ∨ codeOpen w k = true
    · rw [reloadBell_of_still still]
    · rw [not_or, Bool.not_eq_true] at still
      rw [reloadBell_of_due still.1 still.2]
      exact State.bell_modBell_other (applyStaged 3 k (w.bell k).staged w) k j Bell.unstaged other
  rw [endReceived_eq, reloaded, closeReceived_of_garbled]
  exact State.bell_modBell_other s k j _ other

theorem moves_endReceived (k number : Nat) (s : State) :
    Moves [.note, .record, .reload, .bell] s (endReceived k number pattern true rules s) := by
  rw [endReceived_eq, closeReceived_of_garbled]
  exact (((Moves.refl.to_modBell k _).to_append _).to_noteCode k).to_reloadBell k

theorem endReceived_length (k number : Nat) (s : State) :
    (endReceived k number pattern true rules s).bells.length = s.bells.length := by
  have reloaded (w : State) : (reloadBell k w).bells.length = w.bells.length := by
    simpa only [List.length_map] using congrArg List.length (reloadBell_bells k w)
  have closed (g : Bell → Bell) : (s.modBell k g).bells.length = s.bells.length := length_modAt _ _ _ _
  rw [endReceived_eq, reloaded, closeReceived_of_garbled]
  exact closed _

/-- A code that has ended GARBLED is open no more, and is the one ended last. -/
theorem endReceived_closed (k number : Nat) (here : within k s.bells.length = true) :
    ((endReceived k number pattern true rules s).bell k).received = none
      ∧ ((endReceived k number pattern true rules s).bell k).lastEnded = some (number, s.now) := by
  obtain ⟨-, kept, -⟩ := endReceived_garbled (k := k) (number := number) (pattern := pattern) (rules := rules) here
  have received := congrArg Bell.received kept
  have ended := congrArg Bell.lastEnded kept
  exact ⟨received, ended⟩

/-! ### What an item finds -/

theorem endOther_of_own (open_code : (s.bell k).received = some c) (own : c.number = num) : endOther k num s = s := by
  simp only [endOther, open_code, own, if_true]

theorem endOther_of_other (open_code : (s.bell k).received = some c) (other : c.number ≠ num) :
    endOther k num s = endReceived k c.number c.pattern.beats true c.rules s := by
  simp only [endOther, open_code, other, if_false]

theorem endOther_of_none (none_open : (s.bell k).received = none) : endOther k num s = s := by
  simp only [endOther, none_open]

theorem recentlyEnded_iff : recentlyEnded s k num = true
    ↔ ∃ e, (s.bell k).lastEnded = some (num, e) ∧ s.now < e + 10000 := by
  simp only [recentlyEnded]
  cases (s.bell k).lastEnded with
  | none => simp
  | some e =>
    simp only [Option.any_some, Bool.and_eq_true, beq_iff_eq, decide_eq_true_eq, Option.some.injEq]
    exact ⟨fun ⟨own, soon⟩ => ⟨e.2, Prod.ext own rfl, soon⟩, fun ⟨x, same, soon⟩ => by subst same; exact ⟨rfl, soon⟩⟩

theorem recentlyEnded_of_not (old : ∀ e, (s.bell k).lastEnded = some (num, e) → e + 10000 ≤ s.now) :
    recentlyEnded s k num = false :=
  Bool.eq_false_iff.2 fun recent => by
    obtain ⟨e, ended, soon⟩ := recentlyEnded_iff.1 recent
    exact absurd (old e ended) (Nat.not_le.2 soon)

/-! ### Strokes (R105) -/

/-- A STROKE item that is no duplicate. -/
def FreshStroke (s : State) (k num n : Nat) : Prop := strokeDuplicate s k num n = false

theorem strokeDuplicate_of_open (open_code : (s.bell k).received = some c) (own : c.number = num) (late : n < c.next) :
    strokeDuplicate s k num n = true := by
  simp only [strokeDuplicate, open_code, own, beq_self_eq_true, decide_eq_true late, Bool.and_self]

theorem strokeDuplicate_of_none (none_open : (s.bell k).received = none) :
    strokeDuplicate s k num n = recentlyEnded s k num := by
  simp only [strokeDuplicate, none_open]

theorem strokeDuplicate_of_fresh (fresh : ∀ c, (s.bell k).received = some c → c.number ≠ num ∨ c.next ≤ n)
    (old : (s.bell k).received = none → ∀ e, (s.bell k).lastEnded = some (num, e) → e + 10000 ≤ s.now) :
    FreshStroke s k num n := by
  cases open_code : (s.bell k).received with
  | none => exact (strokeDuplicate_of_none open_code).trans (recentlyEnded_of_not (old open_code))
  | some c =>
    simp only [FreshStroke, strokeDuplicate, open_code]
    rcases fresh c open_code with other | next
    · rw [beq_eq_false_iff_ne.2 other, Bool.false_and]
    · rw [decide_eq_false (Nat.not_lt.2 next), Bool.and_false]

theorem takeStroke_of_duplicate (duplicate : strokeDuplicate s k num n = true) : takeStroke k num newGroup n units s = s :=
  if_pos duplicate

/-- A stroke taken, once the open code of another number has ended. -/
def placeStroke (k num : Nat) (newGroup : Bool) (n : Nat) (s : State) : State :=
  ((s.bell k).received).elim (openReceived k num n s) fun c => addReceived k c newGroup n s

theorem takeStroke_of_fresh (fresh : FreshStroke s k num n) :
    takeStroke k num newGroup n units s = placeStroke k num newGroup n (endOther k num (ring k units s)) := by
  have duplicate : ¬ strokeDuplicate s k num n = true := fun on => Bool.false_ne_true (fresh.symm.trans on)
  simp only [takeStroke, placeStroke, if_neg duplicate]
  cases ((endOther k num (ring k units s)).bell k).received <;> rfl

theorem endOther_instruments (k num : Nat) (s : State) : (endOther k num s).instruments = s.instruments := by
  cases open_code : (s.bell k).received with
  | none => rw [endOther_of_none open_code]
  | some c =>
    by_cases own : c.number = num
    · rw [endOther_of_own open_code own]
    · rw [endOther_of_other open_code own]
      exact (moves_endReceived k _ s).exactly .instruments

theorem placeStroke_instruments (k num : Nat) (newGroup : Bool) (n : Nat) (s : State) :
    (placeStroke k num newGroup n s).instruments = s.instruments := by
  simp only [placeStroke]
  cases (s.bell k).received <;> rfl

theorem stroke_rings (fresh : FreshStroke s k num n) (here : within k s.instruments.length = true) :
    (∀ j, j ≠ k → (takeStroke k num newGroup n units s).instrument j = s.instrument j)
      ∧ (takeStroke k num newGroup n units s).instrument k = (s.instrument k).rung (ringUntil units s.now) := by
  have rung : (takeStroke k num newGroup n units s).instruments
      = modAt s.instruments {} k (Instrument.rung (ringUntil units s.now)) := by
    rw [takeStroke_of_fresh fresh, placeStroke_instruments, endOther_instruments, ring_eq]
    rfl
  refine ⟨fun j other => ?_, ?_⟩
  · rw [State.instrument, rung, nth_modAt, if_neg fun own => other own.1]
    rfl
  · rw [State.instrument, rung, nth_modAt, if_pos ⟨rfl, here⟩]
    rfl

end Sys2Proof.Machine
end

section
/-! The items of a taken DATA frame (R105, R106), case by case. -/

set_option Elab.async false

namespace Sys2Proof.Machine

variable {s u v w : State} {j k n num units : Nat} {newGroup garbled : Bool} {pattern : List Nat}
  {rules : List CodeRule} {c : ReceivedCode}

/-- A code that a stroke opens (R105, case 1). -/
def openedBy (num n : Nat) (now : Time) (rules : List CodeRule) : ReceivedCode :=
  { number := num, pattern := ⟨[1], 1⟩, strokes := 1, next := n + 1, garbled := n != 1, lastItem := now, rules := rules }

/-- A code that a stroke is taken into (R105, case 2). -/
def joinedBy (newGroup : Bool) (n : Nat) (now : Time) (c : ReceivedCode) : ReceivedCode :=
  { c with
    pattern := (c.pattern.place newGroup).1, strokes := c.strokes + 1, next := n + 1, lastItem := now
    garbled := c.garbled || decide (c.next < n) || !(c.pattern.place newGroup).2 }

def Bell.receiving (c : ReceivedCode) (b : Bell) : Bell := { b with received := some c }

theorem placeStroke_of_open (open_code : (s.bell k).received = some c) :
    placeStroke k num newGroup n s = s.modBell k (Bell.receiving (joinedBy newGroup n s.now c)) := by
  rw [placeStroke, open_code]
  rfl

theorem placeStroke_of_none (none_open : (s.bell k).received = none) :
    placeStroke k num newGroup n s = s.modBell k (Bell.receiving (openedBy num n s.now (rulesFor s k))) := by
  rw [placeStroke, none_open]
  rfl

/-- A stroke of the open code. -/
theorem takeStroke_joins (open_code : (s.bell k).received = some c) (own : c.number = num) (next : c.next ≤ n) :
    takeStroke k num newGroup n units s
      = (ring k units s).modBell k (Bell.receiving (joinedBy newGroup n s.now c)) := by
  have fresh : FreshStroke s k num n := strokeDuplicate_of_fresh
    (fun d held => .inr (by cases open_code.symm.trans held; exact next)) fun none_open => nomatch open_code.symm.trans none_open
  rw [takeStroke_of_fresh fresh, endOther_of_own (s := ring k units s) open_code own,
    placeStroke_of_open (s := ring k units s) open_code]
  rfl

/-- A stroke with no code open. -/
theorem takeStroke_opens (none_open : (s.bell k).received = none) (old : recentlyEnded s k num = false) :
    takeStroke k num newGroup n units s
      = (ring k units s).modBell k (Bell.receiving (openedBy num n s.now (rulesFor s k))) := by
  have fresh : FreshStroke s k num n := (strokeDuplicate_of_none none_open).trans old
  rw [takeStroke_of_fresh fresh, endOther_of_none (s := ring k units s) none_open,
    placeStroke_of_none (s := ring k units s) none_open]
  rfl

/-- A stroke of another code than the one open, which ends GARBLED. -/
theorem takeStroke_supersedes (here : within k s.bells.length = true) (open_code : (s.bell k).received = some c)
    (other : c.number ≠ num) (ended : u = endReceived k c.number c.pattern.beats true c.rules s) :
    takeStroke k num newGroup n units s
      = (withInstruments (ring k units s).instruments u).modBell k (Bell.receiving (openedBy num n s.now (rulesFor u k))) := by
  have fresh : FreshStroke s k num n := strokeDuplicate_of_fresh
    (fun d held => .inl (by cases open_code.symm.trans held; exact other)) fun none_open => nomatch open_code.symm.trans none_open
  have closed : endOther k num (ring k units s) = withInstruments (ring k units s).instruments u := by
    rw [endOther_of_other (s := ring k units s) open_code other, ended]
    exact endReceived_withInstruments k c.number s
  obtain ⟨none_open, -⟩ := endReceived_closed (pattern := c.pattern.beats) (rules := c.rules) k c.number here
  have now : u.now = s.now := ended ▸ (moves_endReceived k c.number s).now_eq
  rw [← ended] at none_open
  rw [takeStroke_of_fresh fresh, closed,
    placeStroke_of_none (s := withInstruments (ring k units s).instruments u) none_open, ← now]
  rfl

/-! ### Code ends (R106) -/

theorem takeCodeEnd_own (open_code : (s.bell k).received = some c) (own : c.number = num) :
    takeCodeEnd k num n garbled s = endReceived k num c.pattern.beats (c.garbled || garbled || n + 1 != c.next) c.rules s := by
  simp only [takeCodeEnd, endOther_of_own open_code own, open_code]

theorem takeCodeEnd_none (none_open : (s.bell k).received = none) : takeCodeEnd k num n garbled s
    = if recentlyEnded s k num then s else endReceived k num [] true (rulesFor s k) s := by
  simp only [takeCodeEnd, endOther_of_none none_open, none_open]

theorem takeCodeEnd_supersedes (here : within k s.bells.length = true) (open_code : (s.bell k).received = some c)
    (other : c.number ≠ num) (ended : u = endReceived k c.number c.pattern.beats true c.rules s) :
    takeCodeEnd k num n garbled s = endReceived k num [] true (rulesFor u k) u := by
  obtain ⟨none_open, last⟩ := endReceived_closed (pattern := c.pattern.beats) (rules := c.rules) k c.number here
  rw [← ended] at none_open last
  have old : recentlyEnded u k num = false := recentlyEnded_of_not fun e is => by
    cases last.symm.trans is
    exact absurd rfl other
  simp only [takeCodeEnd, endOther_of_other open_code other, ← ended, none_open, old, Bool.false_eq_true, if_false]

/-! ### The items by themselves -/

theorem stroke_clauses (u : State) (length : s.bells.length = 3) (inside : within k 3 = true)
    (instruments : s.instruments.length = 3) (taken : u = deliverItem k (.stroke num newGroup n units) s) :
    ((∃ c, (s.bell k).received = some c ∧ c.number = num ∧ n < c.next)
          ∨ ((s.bell k).received = none ∧ ∃ e, (s.bell k).lastEnded = some (num, e) ∧ s.now < e + 10000) →
        u = s)
      ∧ (∀ rung, rung = s.now + max 40 (min (units * 5) 250) →
        (∀ c, (s.bell k).received = some c → c.number ≠ num ∨ c.next ≤ n) →
        ((s.bell k).received = none → ∀ e, (s.bell k).lastEnded = some (num, e) → e + 10000 ≤ s.now) →
        (∀ j, j ≠ k → u.instrument j = s.instrument j) ∧ u.instrument k = (s.instrument k).rung rung)
      ∧ (∀ c p, (s.bell k).received = some c → c.number = num → c.next ≤ n → p = c.pattern.place newGroup →
        u = { s with bells := u.bells, instruments := u.instruments } ∧ (∀ j, j ≠ k → u.bell j = s.bell j)
          ∧ u.bell k = { s.bell k with received := some { c with
              pattern := p.1, strokes := c.strokes + 1, next := n + 1, lastItem := s.now
              garbled := c.garbled || decide (c.next < n) || !p.2 } })
      ∧ ∀ c x, (s.bell k).received = some c → c.number ≠ num →
        x = endReceived k c.number c.pattern.beats true c.rules s →
        u.register = x.register ∧ (∀ j, j ≠ k → u.bell j = s.bell j)
          ∧ u.bell k = (x.bell k).receiving (openedBy num n s.now (rulesFor x k)) := by
  have here := here_of_within 3 inside length
  subst taken
  refine ⟨fun duplicate => takeStroke_of_duplicate ?_, fun rung is fresh old => ?_, fun c p open_code own next is => ?_,
    fun c x open_code other ended => ?_⟩
  · rcases duplicate with ⟨c, open_code, own, late⟩ | ⟨none_open, recent⟩
    · exact strokeDuplicate_of_open open_code own late
    · rw [strokeDuplicate_of_none none_open]
      exact recentlyEnded_iff.2 recent
  · subst is
    exact stroke_rings (strokeDuplicate_of_fresh fresh old) (here_of_within 3 inside instruments)
  · subst is
    have joined : deliverItem k (.stroke num newGroup n units) s = _ := takeStroke_joins open_code own next
    rw [joined]
    exact ⟨rfl, fun j other => State.bell_modBell_other (ring k units s) k j _ other,
      State.bell_modBell_same (ring k units s) k _ here⟩
  · have closed : deliverItem k (.stroke num newGroup n units) s = _ := takeStroke_supersedes here open_code other ended
    have x_here : within k (withInstruments (ring k units s).instruments x).bells.length = true := by
      have bells : x.bells.length = s.bells.length := ended ▸ endReceived_length k c.number s
      show within k x.bells.length = true
      rw [bells]
      exact here
    rw [closed]
    refine ⟨rfl, fun j away => ?_, State.bell_modBell_same (withInstruments (ring k units s).instruments x) k _ x_here⟩
    refine (State.bell_modBell_other (withInstruments (ring k units s).instruments x) k j _ away).trans ?_
    rw [ended]
    exact endReceived_other k c.number away s

theorem codeEnd_clauses (u : State) (length : s.bells.length = 3) (inside : within k 3 = true)
    (taken : u = deliverItem k (.codeEnd num n garbled) s) :
    (∀ c, (s.bell k).received = some c → c.number = num →
        u = endReceived k num c.pattern.beats (c.garbled || garbled || n + 1 != c.next) c.rules s)
      ∧ (∀ c x, (s.bell k).received = some c → c.number ≠ num →
        x = endReceived k c.number c.pattern.beats true c.rules s → u = endReceived k num [] true (rulesFor x k) x)
      ∧ ((s.bell k).received = none → (∃ e, (s.bell k).lastEnded = some (num, e) ∧ s.now < e + 10000) → u = s)
      ∧ ((s.bell k).received = none → (∀ e, (s.bell k).lastEnded = some (num, e) → e + 10000 ≤ s.now) →
        u = endReceived k num [] true (rulesFor s k) s) := by
  subst taken
  refine ⟨fun c open_code own => takeCodeEnd_own open_code own,
    fun c x open_code other ended => takeCodeEnd_supersedes (here_of_within 3 inside length) open_code other ended,
    fun none_open recent => (takeCodeEnd_none none_open).trans (if_pos (recentlyEnded_iff.2 recent)),
    fun none_open old => (takeCodeEnd_none none_open).trans (if_neg ?_)⟩
  rw [recentlyEnded_of_not old]
  exact nofun

end Sys2Proof.Machine
end

section
/-! What an INDICATION, and the end of a code, make of a line and a bell (R106, R126). -/

set_option Elab.async false

namespace Sys2Proof.Machine

variable {s u v w : State} {j k n number : Nat} {far : LineState} {service garbled : Bool} {pattern : List Nat}
  {rules : List CodeRule} {g : Link → Link}

/-! ### The far state (R126) -/

/-- An outbound line that has taken a far state: `barred` is whether exclusion refuses a train (R126, R127). -/
def Outbound.farTaken (far : LineState) (service barred : Bool) (now : Time) (o : Outbound) : Outbound :=
  let believed := !o.guard && service && !barred
  match o.state, far with
  | none, _ => o
  | some .blocked, .blocked => (o.guarded false).unrefused
  | some _, .blocked => (o.guarded false).movedAt .blocked false now
  | some .blocked, .clear => if believed then o.movedAt .clear false now else o.refusing .clear
  | some .blocked, .occupied => if barred then o.refusing .occupied else o.movedAt .occupied false now
  | some .clear, .clear => if service then o else (o.movedAt .blocked false now).guarded true
  | some .clear, .occupied => o.movedAt .occupied true now
  | some .occupied, .clear => if believed then o.movedAt .clear true now else (o.movedAt .blocked false now).refusing .clear
  | some .occupied, .occupied => o

theorem takeFarState_outb (here : within k s.outbound.length = true) : (takeFarState k far service s).outb k
    = (s.outb k).farTaken far service (excluded s k) s.now := by
  have doubt : ((!(s.outb k).guard && service && !excluded s k) = false
        ∧ ((s.outb k).guard = true ∨ service = false ∨ excluded s k = true))
      ∨ ((!(s.outb k).guard && service && !excluded s k) = true
        ∧ (s.outb k).guard = false ∧ service = true ∧ excluded s k = false) := by
    cases (s.outb k).guard <;> cases service <;> cases excluded s k <;> simp
  cases state : (s.outb k).state with
  | none =>
    rw [takeFarState_of_none state]
    simp only [Outbound.farTaken, state]
  | some st =>
    cases far with
    | blocked =>
      by_cases on : st = .blocked
      · subst on
        rw [(shifts_blocked_blocked state).outb here]
        simp only [Outbound.farTaken, state]
        rfl
      · rw [(shifts_blocked here state on).outb here]
        cases st with
        | blocked => exact absurd rfl on
        | clear | occupied => simp only [Outbound.farTaken, state]; rfl
    | clear =>
      cases st with
      | blocked =>
        rcases doubt with ⟨off, doubted⟩ | ⟨on, guard, rfl, free⟩
        · rw [(shifts_blocked_doubted doubted state).outb here]
          simp only [Outbound.farTaken, state, off, Bool.false_eq_true, if_false]
        · rw [(shifts_blocked_clear here guard free state).outb here]
          simp only [Outbound.farTaken, state, on, if_true]
      | clear =>
        cases service with
        | false =>
          rw [(shifts_clear_lost here state).outb here]
          simp only [Outbound.farTaken, state, Bool.false_eq_true, if_false]
          rfl
        | true =>
          rw [takeFarState_of_still (.inl ⟨state, rfl, rfl⟩)]
          simp only [Outbound.farTaken, state, if_true]
      | occupied =>
        rcases doubt with ⟨off, doubted⟩ | ⟨on, guard, rfl, free⟩
        · obtain ⟨_, moved⟩ := shifts_occupied_doubted here doubted state
          rw [moved.outb here]
          simp only [Outbound.farTaken, state, off, Bool.false_eq_true, if_false]
          rfl
        · rw [(shifts_occupied_clear here guard free state).outb here]
          simp only [Outbound.farTaken, state, on, if_true]
    | occupied =>
      cases st with
      | blocked =>
        cases barred : excluded s k with
        | true =>
          rw [(shifts_blocked_barred state barred).outb here]
          simp only [Outbound.farTaken, state, if_true]
        | false =>
          obtain ⟨_, moved⟩ := shifts_blocked_occupied here state barred
          rw [moved.outb here]
          simp only [Outbound.farTaken, state, Bool.false_eq_true, if_false]
      | clear =>
        rw [(shifts_clear_occupied here state).outb here]
        simp only [Outbound.farTaken, state]
      | occupied =>
        rw [takeFarState_of_still (.inr ⟨state, rfl⟩)]
        simp only [Outbound.farTaken, state]

def Inbound.sees (far : LineState) (i : Inbound) : Inbound := { i with farView := some far }

theorem takeIndication_eq (k : Nat) (inn out : LineState) (service : Bool) (s : State) :
    takeIndication k inn out service s = crossCheck k (changeInb k (Inbound.sees out) (takeFarState k inn service s)) := rfl

theorem setOutbound_length (k : Nat) (new : LineState) (through : Bool) (lost : Option ClearLostCause) (s : State) :
    (setOutbound k new through lost s).inbound.length = s.inbound.length := by
  refine (evalCoils_length k _).trans (congrArg List.length ?_)
  have moved : Moves [.note, .outb] s (changeOutb k (Outbound.movedAt new through s.now) s) :=
    Moves.refl.to_changeOutb k _ fun none_pending => (Outbound.moveTo_staged ..).trans none_pending
  exact (((((Moves.refl (ks := [.note, .record, .evaluate, .outb])).andThen (by decide) moved).to_append _).to_when _
    fun _ => Moves.refl.to_withdrawAllowances _ _).to_when _
    fun _ => Moves.refl.to_grantAllowances _).to_evaluateLine _ |>.exactly .inbound

theorem takeFarState_length (k : Nat) (far : LineState) (service : Bool) (s : State) :
    (takeFarState k far service s).inbound.length = s.inbound.length := by
  have guarded (b : Bool) (w : State) : (setGuard k b w).inbound = w.inbound :=
    ((Moves.refl (ks := [.note, .outb])).to_setGuard k b).exactly .inbound
  have refused (far : LineState) (w : State) : (refuseFar k far w).inbound = w.inbound := by
    simp only [refuseFar]
    split <;> rfl
  simp only [takeFarState]
  split
  · rfl
  · exact congrArg List.length (guarded false s)
  · rw [setOutbound_length, guarded]
  · split
    · exact setOutbound_length ..
    · rw [refused]
  · split
    · rw [refused]
    · exact setOutbound_length ..
  · split
    · rfl
    · rw [guarded, setOutbound_length]
  · exact setOutbound_length ..
  · split
    · exact setOutbound_length ..
    · rw [refused, setOutbound_length]
  · rfl

/-- An INDICATION gives the far view, and the outbound line its far state. -/
theorem takeIndication_spec {inn out : LineState} (inbound : within k s.inbound.length = true)
    (outbound : within k s.outbound.length = true) :
    ((takeIndication k inn out service s).inb k).farView = some out
      ∧ (takeIndication k inn out service s).outb k = (s.outb k).farTaken inn service (excluded s k) s.now := by
  have later : Moves [.note, .record, .inb, .faults] (takeFarState k inn service s) (takeIndication k inn out service s) :=
    (Moves.refl.to_changeInb k _).to_crossCheck k
  refine ⟨?_, ?_⟩
  · have length : (takeFarState k inn service s).inbound.length = s.inbound.length := takeFarState_length ..
    have here : within k (changeInb k (Inbound.sees out) (takeFarState k inn service s)).inbound.length = true := by
      rw [changeInb_length, length]
      exact inbound
    have crossed := inb_of_modAt (crossCheck_inbound k (changeInb k (Inbound.sees out) (takeFarState k inn service s))) here
    obtain ⟨a, b, c, same⟩ := Inbound.crossed_eq (changeInb k (Inbound.sees out) (takeFarState k inn service s)).now
      ((changeInb k (Inbound.sees out) (takeFarState k inn service s)).tables.link k).heartbeat
      ((changeInb k (Inbound.sees out) (takeFarState k inn service s)).inb k)
    rw [takeIndication_eq, crossed, same, changeInb_inb (by rw [length]; exact inbound)]
    rfl
  · have same : (takeIndication k inn out service s).outb k = (takeFarState k inn service s).outb k :=
      congrArg (fun l : List Outbound => nth l {} k) (later.exactly .outbound)
    rw [same, takeFarState_outb outbound]

/-! ### The end of a code (R106) -/

/-- A code that ends is open no more, and is the one ended last, whatever it means. -/
theorem closeReceived_bells (k number : Nat) (s : State) :
    ∃ h : Bell → Bell, (closeReceived k number pattern garbled rules s).bells = modAt s.bells {} k h
      ∧ (h (s.bell k)).received = none ∧ (h (s.bell k)).lastEnded = some (number, s.now) := by
  cases garbled with
  | true =>
    rw [closeReceived_of_garbled]
    exact ⟨Bell.receivedEnded number s.now, rfl, rfl, rfl⟩
  | false =>
    rw [closeReceived_eq]
    cases expected : ((codeEnded k number s).bell k).expectation with
    | none =>
      refine ⟨Bell.answering pattern s.now ∘ Bell.receivedEnded number s.now, ?_, rfl, rfl⟩
      exact (freshReceived_spec k pattern _ (codeEnded k number s)).1.trans (modAt_modAt ..)
    | some e =>
      by_cases repeats : e.pattern = pattern
      · rw [closing_of_ack repeats]
        refine ⟨Bell.unexpecting ∘ Bell.receivedEnded number s.now, ?_, rfl, rfl⟩
        exact (((moves_meaningAcknowledged k e.meaning e.cls _).to_noteCode k).exactly .bells).trans (modAt_modAt ..)
      · rw [closing_of_other repeats]
        refine ⟨Bell.answering pattern s.now ∘ Bell.unexpecting ∘ Bell.receivedEnded number s.now, ?_, rfl, rfl⟩
        refine (freshReceived_spec k pattern _ _).1.trans ?_
        show modAt (modAt (modAt s.bells {} k _) {} k _) {} k _ = _
        rw [modAt_modAt, modAt_modAt]
        rfl

theorem endReceived_ended (k number : Nat) (here : within k s.bells.length = true) :
    OtherBells k s (endReceived k number pattern garbled rules s)
      ∧ ((endReceived k number pattern garbled rules s).bell k).received = none
      ∧ ((endReceived k number pattern garbled rules s).bell k).lastEnded = some (number, s.now) := by
  obtain ⟨h, changed, received, ended⟩ := closeReceived_bells (pattern := pattern) (garbled := garbled) (rules := rules) k number s
  obtain ⟨others, own⟩ := endReceived_bells here changed
  have fields := own
  simp only [Bell.kept, Bell.mk.injEq] at fields
  exact ⟨others, by simp only [fields, received], by simp only [fields, ended]⟩

end Sys2Proof.Machine
end

section
/-! O48: the items of a DATA frame, delivered when its TAKEN has left the line. -/

set_option Elab.async false

namespace Sys2Proof.Machine

variable {s u v w : State} {j k n num units : Nat} {t : Time} {newGroup garbled : Bool} {pattern : List Nat}
  {rules : List CodeRule} {c : ReceivedCode} {i : Instr} {item : Item}

/-! ### What an item leaves of the other bells -/

theorem endReceived_otherBells (k number : Nat) (s : State) : OtherBells k s (endReceived k number pattern garbled rules s) := by
  intro j other
  obtain ⟨h, changed, -⟩ := closeReceived_bells (pattern := pattern) (garbled := garbled) (rules := rules) k number s
  rw [endReceived_eq, reloadBell_bell, State.bell, changed, nth_modAt, if_neg fun own => other own.1]
  rfl

theorem endOther_otherBells (k num : Nat) (s : State) : OtherBells k s (endOther k num s) := by
  cases open_code : (s.bell k).received with
  | none => rw [endOther_of_none open_code]; exact fun _ _ => rfl
  | some c =>
    by_cases own : c.number = num
    · rw [endOther_of_own open_code own]
      exact fun _ _ => rfl
    · rw [endOther_of_other open_code own]
      exact endReceived_otherBells k _ s

theorem placeStroke_otherBells (k num : Nat) (newGroup : Bool) (n : Nat) (s : State) :
    OtherBells k s (placeStroke k num newGroup n s) := by
  intro j other
  cases open_code : (s.bell k).received with
  | none => rw [placeStroke_of_none open_code, State.bell_modBell_other s k j _ other]
  | some c => rw [placeStroke_of_open open_code, State.bell_modBell_other s k j _ other]

theorem takeStroke_otherBells (k num : Nat) (newGroup : Bool) (n units : Nat) (s : State) :
    OtherBells k s (takeStroke k num newGroup n units s) := by
  cases duplicate : strokeDuplicate s k num n with
  | true => rw [takeStroke_of_duplicate duplicate]; exact fun _ _ => rfl
  | false =>
    rw [takeStroke_of_fresh duplicate]
    exact fun j other => (placeStroke_otherBells k num newGroup n _ j other).trans (endOther_otherBells k num (ring k units s) j other)

theorem takeCodeEnd_otherBells (k num n : Nat) (garbled : Bool) (s : State) :
    OtherBells k s (takeCodeEnd k num n garbled s) := by
  simp only [takeCodeEnd]
  split
  · exact fun j other => (endReceived_otherBells k num _ j other).trans (endOther_otherBells k num s j other)
  · split
    · exact endOther_otherBells k num s
    · exact fun j other => (endReceived_otherBells k num _ j other).trans (endOther_otherBells k num s j other)

theorem moves_takeIndication (k : Nat) (inn out : LineState) (service : Bool) (s : State) :
    Moves lineKinds s (takeIndication k inn out service s) := Moves.refl.to_takeIndication k inn out service

theorem deliverItem_otherBells (k : Nat) (item : Item) (s : State) : OtherBells k s (deliverItem k item s) := by
  cases item with
  | stroke num newGroup n units => exact takeStroke_otherBells k num newGroup n units s
  | codeEnd num n garbled => exact takeCodeEnd_otherBells k num n garbled s
  | indication inn out service =>
    exact fun j _ => congrArg (fun l : List Bell => (nth l {} j).kept) ((moves_takeIndication k inn out service s).exactly .bells)

/-- Several items, one after the other. -/
def delivered (k : Nat) (items : List Item) (s : State) : State := items.foldl (fun v i => deliverItem k i v) s

theorem delivered_otherBells (k : Nat) (items : List Item) (s : State) : OtherBells k s (delivered k items s) := by
  induction items generalizing s with
  | nil => exact fun _ _ => rfl
  | cons item items ih => exact fun j other => (ih (deliverItem k item s) j other).trans (deliverItem_otherBells k item s j other)

theorem moves_delivered (k : Nat) (items : List Item) (s : State) : Moves itemKinds s (delivered k items s) := by
  induction items generalizing s with
  | nil => exact .refl
  | cons item items ih => exact (Moves.refl.to_deliverItem k item).andThen (by decide) (ih _)

/-! ### The end and the cut of a TAKEN -/

/-- A link whose TAKEN has left the line, its items being delivered. -/
def Link.emptied (n : Time) (l : Link) : Link := { l with sending := none, heard := some n, toDeliver := [] }

def Link.ceasing (l : Link) : Link := { l with state := if l.state = .receiving then .idle else l.state }

theorem deliverItems_eq (k : Nat) (s : State) :
    deliverItems k s = delivered k (s.link k).toDeliver (s.modLink k fun l => { l with toDeliver := [] }) := rfl

theorem frame_of_taken (here : within k s.links.length = true) (sent : (s.link k).sending = some .taken) :
    endFrame k s = (delivered k (s.link k).toDeliver (s.modLink k (Link.emptied s.now))).modLink k Link.ceasing
      ∧ cutFrame k s = (delivered k (s.link k).toDeliver (s.modLink k (Link.emptied s.now))).modLink k Link.ceasing := by
  have link : (s.modLink k (Link.fallen s.now)).link k = (s.link k).fallen s.now := State.link_modLink_same s k _ here
  have items : deliverItems k (s.modLink k (Link.fallen s.now))
      = delivered k (s.link k).toDeliver (s.modLink k (Link.emptied s.now)) := by
    rw [deliverItems_eq, link, modLink_modLink]
    rfl
  refine ⟨?_, ?_⟩
  · simp only [endFrame, sent]
    exact congrArg (fun w : State => w.modLink k Link.ceasing) items
  · simp only [cutFrame, sent]
    exact congrArg (fun w : State => w.modLink k Link.ceasing) items

section
variable (inside : within k 3 = true) (length : s.links.length = 3) (sent : (s.link k).sending = some .taken)
  (quiet : (s.link k).crossedDue = false)
include inside length sent quiet

/-- A TAKEN that leaves the line, sent or cut, with the items delivered. -/
theorem taken_effect (v : State) (delivers : delivered k (s.link k).toDeliver ((s.atTime t).modLink k (Link.emptied (max s.now t))) = v) :
    frameSent k (s.atTime t) = v.modLink k Link.ceasing ∧ collide k (s.atTime t) = v.modLink k Link.ceasing := by
  have here := here_of_within 3 inside length
  have links : v.links = modAt s.links {} k (Link.emptied (max s.now t)) := by
    rw [← delivers]
    exact (moves_delivered k _ _).exactly .links
  have link : v.link k = (s.link k).emptied (max s.now t) := by
    rw [State.link, links, nth_modAt, if_pos ⟨rfl, here⟩]
    rfl
  have v_here : within k v.links.length = true := by
    rw [links, length_modAt]
    exact here
  have reported : reportCrossed k (v.modLink k Link.ceasing) = v.modLink k Link.ceasing :=
    reportCrossed_modLink v_here (by rw [link]; exact quiet)
  obtain ⟨ends, cuts⟩ := frame_of_taken (s := s.atTime t) (k := k) here sent
  exact ⟨(congrArg (reportCrossed k) (ends.trans (congrArg (fun w : State => w.modLink k Link.ceasing) delivers))).trans reported,
    (congrArg (reportCrossed k) (cuts.trans (congrArg (fun w : State => w.modLink k Link.ceasing) delivers))).trans reported⟩

end

/-- The link record, its items delivered. -/
def Link.relieved (n : Time) (l : Link) : Link := (l.emptied n).ceasing

/-- The links, once a TAKEN has left the line. -/
theorem delivered_links (v : State) {items : List Item}
    (delivers : delivered k items ((s.atTime t).modLink k (Link.emptied (max s.now t))) = v) :
    (v.modLink k Link.ceasing).links = modAt s.links {} k (Link.relieved (max s.now t)) := by
  have links : v.links = modAt s.links {} k (Link.emptied (max s.now t)) := by
    rw [← delivers]
    exact (moves_delivered k _ _).exactly .links
  show modAt v.links {} k Link.ceasing = _
  rw [links, modAt_modAt]
  rfl

/-- A row at which a TAKEN leaves the line. -/
theorem Takes.of_taken {P : State → Prop} {ks : List Kind} {ps : List Part} (undisputed : s.Undisputed)
    (inside : within k 3 = true) (length : s.links.length = 3) (sent : (s.link k).sending = some .taken)
    (quiet : (s.link k).crossedDue = false) (which : i = .linkFrameSent t k ∨ i = .linkCollision t k)
    (delivers : delivered k (s.link k).toDeliver ((s.atTime t).modLink k (Link.emptied (max s.now t))) = v)
    (moves : Moves ks ((s.atTime t).modLink k (Link.emptied (max s.now t))) v)
    (holds : (v.modLink k Link.ceasing).Undisputed → OtherLinks k s (finish (v.modLink k Link.ceasing)) →
      ((finish (v.modLink k Link.ceasing)).link k).kept = ((s.link k).emptied (max s.now t)).kept →
      P (finish (v.modLink k Link.ceasing)))
    (links : Kind.link ∈ ks := by decide)
    (parts : ∀ k ∈ ks, ∀ q ∈ k.main, q ∈ ps := by decide)
    (lasting : Kind.stage ∉ ks ∧ .begin ∉ ks ∧ .time ∉ ks := by decide)
    (stored : Part.store ∈ ps ∨ (Kind.store ∉ ks ∧ .tables ∉ ks ∧ .jobs ∉ ks) := by decide)
    (told : (∃ p ∈ ps, p.silent = false) ∨ ∀ k ∈ ks, Part.transmitter ∉ k.parts := by decide) : Takes i s ps P := by
  obtain ⟨ends, cuts⟩ := taken_effect inside length sent quiet v delivers
  have empties : Moves ks (s.atTime t) ((s.atTime t).modLink k (Link.emptied (max s.now t))) :=
    .link k _ links (.inr id) .refl
  have whole : Moves ks (s.atTime t) (v.modLink k Link.ceasing) := .link k _ links (.inr id) (empties.trans moves)
  have changed := delivered_links v delivers
  have outcome (agreed : (v.modLink k Link.ceasing).Undisputed) (_ : (v.modLink k Link.ceasing).now = max s.now t) :
      P (finish (v.modLink k Link.ceasing)) :=
    holds agreed (finish_other_links (s := s) agreed changed)
      ((finish_own_link (s := s) agreed changed (here_of_within 3 inside length)).trans rfl)
  rcases which with rfl | rfl
  · exact .of_result (f := frameSent k) rfl rfl undisputed ends whole outcome parts lasting stored told
  · exact .of_result (f := collide k) rfl rfl undisputed cuts whole outcome parts lasting stored told

end Sys2Proof.Machine
end

section
/-! O48: the items of a DATA frame, at the rows. -/

set_option Elab.async false

namespace Sys2Proof.Machine

variable {s u v w : State} {j k n num units : Nat} {t : Time} {newGroup garbled : Bool} {pattern : List Nat}
  {rules : List CodeRule} {c : ReceivedCode} {i : Instr} {item : Item}

section
variable (undisputed : s.Undisputed) (inside : within k 3 = true) (length : s.links.length = 3)
  (sent : (s.link k).sending = some .taken) (quiet : (s.link k).crossedDue = false)
include undisputed inside length sent quiet

/-- A TAKEN that answered a DATA frame with nothing in it. -/
theorem takes_delivered_of_empty (empty : (s.link k).toDeliver = []) :
    Takes (.linkFrameSent t k) s [.links] (fun u => OtherLinks k s u
        ∧ (u.link k).kept = { s.link k with heard := some (max s.now t) }.kept
        ∧ ((s.link k).state = .receiving → hasWork s k = false → (s.link k).answer = none → (u.link k).state = .idle))
      ∧ Takes (.linkCollision t k) s [.links] fun u => OtherLinks k s u
        ∧ (u.link k).kept = { s.link k with heard := some (max s.now t) }.kept := by
  have delivers : delivered k (s.link k).toDeliver ((s.atTime t).modLink k (Link.emptied (max s.now t)))
      = (s.atTime t).modLink k (Link.emptied (max s.now t)) := by rw [empty]; rfl
  obtain ⟨ends, cuts⟩ := taken_effect inside length sent quiet _ delivers
  have record : (s.link k).relieved (max s.now t)
      = ({ s.link k with sending := none, heard := some (max s.now t) } : Link).ceasing := by
    simp only [Link.relieved, Link.emptied, ← empty]
  have kept : ((s.link k).relieved (max s.now t)).kept = { s.link k with heard := some (max s.now t) }.kept := by
    rw [record]
    rfl
  refine ⟨Takes.of_link (f := frameSent k) (g := Link.relieved (max s.now t)) rfl rfl undisputed inside length
      (ends.trans (modLink_modLink ..)) fun u ended => ⟨ended.others, ended.kept.trans kept, fun receives idle unanswered => ?_⟩,
    Takes.of_link (f := collide k) (g := Link.relieved (max s.now t)) rfl rfl undisputed inside length
      (cuts.trans (modLink_modLink ..)) fun u ended => ⟨ended.others, ended.kept.trans kept⟩⟩
  rw [ended.state_kept unanswered (.inr (.inl idle))]
  exact if_pos receives

/-- The items, one after the other (R144). -/
theorem takes_delivered (which : i = .linkFrameSent t k ∨ i = .linkCollision t k)
    (delivers : v = delivered k (s.link k).toDeliver ((s.atTime t).modLink k (Link.emptied (max s.now t)))) :
    Takes i s [.links, .bells, .instruments, .inbound, .outbound, .levers, .faults, .register] fun u =>
      OtherLinks k s u ∧ OtherBells k s u ∧ (u.link k).kept = { s.link k with heard := some (max s.now t), toDeliver := [] }.kept
        ∧ (u.bell k).kept = (v.bell k).kept ∧ u.instruments = v.instruments ∧ u.inbound = v.inbound
        ∧ u.outbound.map Outbound.kept = v.outbound.map Outbound.kept
        ∧ u.levers = v.levers ∧ u.faults = v.faults ∧ u.register = v.register := by
  have moves : Moves frameKinds ((s.atTime t).modLink k (Link.emptied (max s.now t))) v :=
    delivers ▸ (moves_delivered k _ _).mono (Kind.sub_iff.1 (by decide))
  refine .of_taken undisputed inside length sent quiet which delivers.symm moves fun agreed others kept =>
    ⟨others, fun j other => ?_, kept.trans rfl, finish_bell agreed k, finish_part agreed .instruments,
      finish_part agreed .inbound, finish_part agreed .outbound, finish_part agreed .levers, finish_part agreed .faults,
      finish_part agreed .register⟩
  refine (finish_bell agreed j).trans ?_
  rw [delivers]
  exact delivered_otherBells k _ _ j other

end

end Sys2Proof.Machine
end

section
/-! O48: single items at the rows, and the statement whole. -/

set_option Elab.async false

namespace Sys2Proof.Machine

variable {s u v w : State} {j k n num units : Nat} {t : Time} {newGroup garbled : Bool} {c : ReceivedCode}

theorem Link.toDeliver_of_kept {l : Link} (kept : l.kept = ((s.link k).emptied n).kept) : l.toDeliver = [] := by
  have items := congrArg Link.toDeliver kept
  exact items

theorem delivered_single {items : List Item} {item : Item} (single : items = [item]) (taken : deliverItem k item s = v) :
    delivered k items s = v := by
  rw [single]
  exact taken

section
variable (undisputed : s.Undisputed) (inside : within k 3 = true) (length : s.links.length = 3)
  (sent : (s.link k).sending = some .taken) (quiet : (s.link k).crossedDue = false)
include undisputed inside length sent quiet

/-- A stroke that opens a code (R105). -/
theorem takes_stroke (bells : s.bells.length = 3) (instruments : s.instruments.length = 3)
    (items : (s.link k).toDeliver = [.stroke num newGroup n units]) (none_open : (s.bell k).received = none)
    (old : recentlyEnded (s.atTime t) k num = false) :
    Takes (.linkFrameSent t k) s [.links, .bells, .instruments] fun u =>
      OtherLinks k s u ∧ (u.link k).toDeliver = [] ∧ OtherBells k s u
        ∧ (u.bell k).kept = ((s.bell k).receiving (openedBy num n (max s.now t) (rulesFor s k))).kept
        ∧ (∀ j, j ≠ k → u.instrument j = s.instrument j)
        ∧ (∀ e, e = max s.now t + max 40 (min (units * 5) 250) → u.instrument k = (s.instrument k).rung e) := by
  have taken : deliverItem k (.stroke num newGroup n units) ((s.atTime t).modLink k (Link.emptied (max s.now t)))
      = (ring k units ((s.atTime t).modLink k (Link.emptied (max s.now t)))).modBell k
        (Bell.receiving (openedBy num n (max s.now t) (rulesFor s k))) :=
    takeStroke_opens (s := (s.atTime t).modLink k (Link.emptied (max s.now t))) none_open old
  have moves : Moves [.link, .instrument, .bell] ((s.atTime t).modLink k (Link.emptied (max s.now t)))
      ((ring k units ((s.atTime t).modLink k (Link.emptied (max s.now t)))).modBell k
        (Bell.receiving (openedBy num n (max s.now t) (rulesFor s k)))) :=
    (Moves.refl.to_ring k units).to_modBell k _
  refine .of_taken undisputed inside length sent quiet (.inl rfl) (delivered_single items taken) moves fun agreed others kept =>
    ⟨others, Link.toDeliver_of_kept kept, finish_other_bells (s := s) agreed rfl,
      (finish_own_bell (s := s) agreed rfl (here_of_within 3 inside bells)).trans rfl, fun j other => ?_, fun e is => ?_⟩
  · rw [finish_instrument agreed]
    exact (nth_modAt s.instruments {} k j (Instrument.rung (ringUntil units (max s.now t)))).trans (if_neg fun own => other own.1)
  · subst is
    rw [finish_instrument agreed]
    exact (nth_modAt s.instruments {} k k (Instrument.rung (ringUntil units (max s.now t)))).trans
      (if_pos ⟨rfl, here_of_within 3 inside instruments⟩)

/-- The end of an open code (R106). -/
theorem takes_codeEnd {m : Meaning × Option Nat} (bells : s.bells.length = 3)
    (items : (s.link k).toDeliver = [.codeEnd c.number num garbled]) (open_code : (s.bell k).received = some c)
    (matched : m = matchCode c.rules false c.pattern.beats) :
    Takes (.linkFrameSent t k) s [.links, .bells, .inbound, .outbound, .levers, .faults, .register] fun u =>
      OtherLinks k s u ∧ OtherBells k s u ∧ (u.bell k).received = none ∧ (u.bell k).lastEnded = some (c.number, max s.now t)
        ∧ (c.garbled = true ∨ garbled = true ∨ num + 1 ≠ c.next →
          (u.bell k).expectation = (s.bell k).expectation
            ∧ u.register = s.register.append (.codeReceived k c.pattern.beats none none true))
        ∧ (c.garbled = false → garbled = false → num + 1 = c.next → (s.bell k).expectation = none →
          (u.bell k).answerable = some (c.pattern.beats, max s.now t)
            ∧ u.register = s.register.append (.codeReceived k c.pattern.beats (some m.1) m.2 false)) := by
  have here := here_of_within 3 inside bells
  have taken := takeCodeEnd_own (s := (s.atTime t).modLink k (Link.emptied (max s.now t))) (n := num) (garbled := garbled)
    open_code rfl
  generalize bad : (c.garbled || garbled || num + 1 != c.next) = b at taken
  have moves : Moves (.link :: receivedKinds) ((s.atTime t).modLink k (Link.emptied (max s.now t)))
      (endReceived k c.number c.pattern.beats b c.rules ((s.atTime t).modLink k (Link.emptied (max s.now t)))) :=
    Moves.refl.to_endReceived k _ _ _ _
  obtain ⟨other_bells, received, ended⟩ := endReceived_ended (s := (s.atTime t).modLink k (Link.emptied (max s.now t)))
    (pattern := c.pattern.beats) (garbled := b) (rules := c.rules) k c.number here
  refine .of_taken undisputed inside length sent quiet (.inl rfl) (delivered_single items taken) moves fun agreed others kept => ?_
  have own := finish_bell agreed k
  have register := finish_register agreed
  refine ⟨others, fun j other => (finish_bell agreed j).trans (other_bells j other),
    (congrArg Bell.received own).trans received, (congrArg Bell.lastEnded own).trans ended, fun spoilt => ?_,
    fun whole item count unexpected => ?_⟩
  · have is_bad : b = true := by
      rw [← bad]
      rcases spoilt with on | on | on <;> simp [on]
    subst is_bad
    obtain ⟨-, bell, told, -⟩ := endReceived_garbled (s := (s.atTime t).modLink k (Link.emptied (max s.now t)))
      (number := c.number) (pattern := c.pattern.beats) (rules := c.rules) here
    have expectation := congrArg Bell.expectation (own.trans bell)
    exact ⟨expectation, register.trans told⟩
  · have is_whole : b = false := by
      rw [← bad]
      simp [whole, item, count]
    subst is_whole
    obtain ⟨-, bell, -, told, -⟩ := endReceived_fresh (s := (s.atTime t).modLink k (Link.emptied (max s.now t)))
      (number := c.number) here (fun e expected => nomatch unexpected.symm.trans expected) matched
    have answerable := congrArg Bell.answerable (own.trans bell)
    refine ⟨answerable, (register.trans told).trans ?_⟩
    rw [show (((s.atTime t).modLink k (Link.emptied (max s.now t))).bell k).expectation = none from unexpected]
    rfl

/-- An INDICATION (R126). -/
theorem takes_indication {inn out : LineState} {service : Bool} (inbound : s.inbound.length = 3) (outbound : s.outbound.length = 3)
    (items : (s.link k).toDeliver = [.indication inn out service]) :
    Takes (.linkFrameSent t k) s [.links, .inbound, .outbound, .levers, .faults, .register] fun u =>
      OtherLinks k s u ∧ (u.link k).toDeliver = [] ∧ (u.inb k).farView = some out
        ∧ (u.outb k).kept = ((takeFarState k inn service (s.atTime t)).outb k).kept := by
  have moves : Moves (.link :: lineKinds) ((s.atTime t).modLink k (Link.emptied (max s.now t)))
      (takeIndication k inn out service ((s.atTime t).modLink k (Link.emptied (max s.now t)))) :=
    Moves.refl.to_takeIndication k _ _ _
  obtain ⟨view, line⟩ := takeIndication_spec (s := (s.atTime t).modLink k (Link.emptied (max s.now t))) (inn := inn) (out := out)
    (service := service) (here_of_within 3 inside inbound) (here_of_within 3 inside outbound)
  refine .of_taken undisputed inside length sent quiet (.inl rfl) (delivered_single items rfl) moves fun agreed others kept =>
    ⟨others, Link.toDeliver_of_kept kept, ?_, ?_⟩
  · rw [finish_inb agreed]
    exact view
  · rw [finish_outb agreed, takeFarState_outb (s := s.atTime t) (here_of_within 3 inside outbound)]
    exact congrArg Outbound.kept line

end

/-- Settles O48: each row by the fold of its items, and each item by what is open on its bell. -/
theorem takenItemsAreDelivered : Obligations.TakenItemsAreDelivered := by
  unfold Obligations.TakenItemsAreDelivered
  refine ⟨?_, ?_⟩
  · rintro s t k n undisputed inside links bells instruments inbound outbound rfl sent quiet
    exact ⟨takes_delivered_of_empty undisputed inside links sent quiet,
      fun v delivers i which => takes_delivered undisputed inside links sent quiet which delivers,
      fun c g num units items none_open old => takes_stroke undisputed inside links sent quiet bells instruments items none_open old,
      fun c g num m items open_code matched => takes_codeEnd undisputed inside links sent quiet bells items open_code matched,
      fun inn out service items => takes_indication undisputed inside links sent quiet inbound outbound items⟩
  · rintro s u k num n units g b inside bells instruments rfl
    exact ⟨stroke_clauses u bells inside instruments, codeEnd_clauses u bells inside⟩

end Sys2Proof.Machine
end

section
/-! What moves leave of the Host Port, and of the conditions of the tables in force. -/

set_option Elab.async false

namespace Sys2Proof.Machine

variable {s u v w : State} {ks : List Kind} {k : Nat}

/-! ### The frames of the Host Port -/

/-- The frame on the line and the frames ready for it. -/
def HostPort.frames (h : HostPort) : Option OutFrame × List OutFrame := (h.sending, h.ready)

theorem when_frames {f : State → State} (b : Bool) (kept : (f s).host.frames = s.host.frames) :
    (when b f s).host.frames = s.host.frames := by
  cases b with
  | false => rfl
  | true => exact kept

theorem changeLever_frames (k : Nat) (g : Lever → Lever) (s : State) : (changeLever k g s).host.frames = s.host.frames :=
  when_frames (s := s.modLever k g) _ rfl

theorem latchRecord_frames (c : Nat) (subject : Option Nat) (s : State) :
    (latchRecord c subject s).host.frames = s.host.frames := by
  unfold latchRecord
  split <;> rfl

theorem evaluate_frames (k : Nat) (s : State) : (evaluate k s).host.frames = s.host.frames :=
  (when_frames _ (latchRecord_frames 20 (some k) _)).trans (changeLever_frames k _ s)

theorem evaluateAll_frames (s : State) : (evaluateAll s).host.frames = s.host.frames :=
  forEach_keeps (I := fun u => u.host.frames = s.host.frames) _ (fun k _ u kept => (evaluate_frames k u).trans kept) s rfl

theorem endReleasesForMode_frames (s : State) : (endReleasesForMode s).host.frames = s.host.frames :=
  forEach_keeps (I := fun u => u.host.frames = s.host.frames) _ (fun k _ u kept => (changeLever_frames k _ u).trans kept) s rfl

theorem restrict_frames (m : Mode) (s : State) :
    (evaluateAll (endReleasesForMode (takeMode m s))).host.frames = s.host.frames :=
  (evaluateAll_frames _).trans (endReleasesForMode_frames _)

theorem countOccurrence_frames (c : Nat) (subject : Option Nat) (s : State) :
    (countOccurrence c subject s).host.frames = s.host.frames := by
  unfold countOccurrence
  split
  · rfl
  · split <;> rfl

/-- Only the kind `transmit` moves a frame. -/
theorem Moves.frames_eq (h : Moves ks s u) (away : .transmit ∉ ks ∧ .begin ∉ ks := by decide) :
    u.host.frames = s.host.frames := by
  induction h with
  | refl => rfl
  | eval k _ _ ih => exact (evaluate_frames k _).trans (ih away)
  | relever k g _ _ _ _ noted ih =>
    exact (evaluate_frames k _).trans ((noted (by decide)).trans ((changeLever_frames k g _).trans (ih away)))
  | cause c subject _ _ _ confined ih =>
    have counted := (confined (by decide)).trans ((countOccurrence_frames c subject _).trans (ih away))
    unfold suspendFor
    split
    · exact (restrict_frames _ _).trans counted
    · exact counted
  | restrict m _ _ _ ih => exact (restrict_frames m _).trans (ih away)
  | serve m _ _ _ ih => exact (evaluateAll_frames _).trans (ih away)
  | host g alters _ ih =>
    obtain ⟨sending, ready, -⟩ := alters.2.2.2.1.resolve_left away.1
    exact (Prod.ext sending ready).trans (ih away)
  | begin i mem => exact absurd mem away.2
  | _ =>
    rename_i ih
    exact ih away

/-- Moves of the blocks change nothing of the Host Port but its notices. -/
theorem Moves.notifies (h : Moves ks s u) (away : .transmit ∉ ks ∧ .begin ∉ ks := by decide)
    (parts : ∀ x ∈ ks, .batch ∉ x.parts ∧ .receiver ∉ x.parts ∧ .result ∉ x.parts ∧ .mode ∉ x.parts := by decide) :
    Notifies s u := by
  have frames := h.frames_eq away
  obtain ⟨executing, waiting, flags, warm⟩ := h.exactly .batch fun x mem => (parts x mem).1
  have receiving : u.host.receiving = s.host.receiving := h.exactly .receiver fun x mem => (parts x mem).2.1
  have result : u.host.lastResult = s.host.lastResult := h.exactly .result fun x mem => (parts x mem).2.2.1
  have mode := h.exactly .mode fun x mem => (parts x mem).2.2.2
  have sending : u.host.sending = s.host.sending := congrArg Prod.fst frames
  have ready : u.host.ready = s.host.ready := congrArg Prod.snd frames
  refine ⟨?_, mode.2⟩
  dsimp only
  rw [← executing, ← waiting, ← flags, ← warm, ← receiving, ← result, ← sending, ← ready]

/-! ### The conditions in force -/

/-- Whether the locking table of a state is that of another. -/
def SameConditions (s u : State) : Prop := u.tables.conditions = s.tables.conditions

theorem SameConditions.of_leaves {ps : List Part} (h : SameConditions s u) (left : Leaves ps u v) (away : .store ∉ ps) :
    SameConditions s v :=
  (congrArg (fun st : Store => (st.inForce.getD Image.defaults).conditions) (left.2.2.2 .store away)).trans h

theorem setFields_conditions (i : Image) (table record : Nat) (vs : List (Nat × Nat)) :
    (i.setFields table record vs).conditions = i.conditions := by
  unfold Image.setFields
  split <;> rfl

theorem applyStaged_conditions (table record : Nat) (vs : List (Nat × Nat)) (s : State) :
    SameConditions s (applyStaged table record vs s) := by
  show ((s.store.inForce.map fun i => i.setFields table record vs).getD Image.defaults).conditions
    = (s.store.inForce.getD Image.defaults).conditions
  cases s.store.inForce with
  | none => rfl
  | some i => exact setFields_conditions i table record vs

/-- Staged values come to no conditions. -/
theorem Moves.conditions_eq (h : Moves ks s u) (away : .store ∉ ks ∧ .tables ∉ ks ∧ .begin ∉ ks := by decide) :
    SameConditions s u := by
  induction h with
  | refl => rfl
  | eval k _ _ ih => exact (ih away).of_leaves (leaves_evaluate k _) (by decide)
  | relever k g _ _ _ _ noted ih =>
    have changed := (noted (by decide)).trans ((ih away).of_leaves (leaves_changeLever k g _) (by decide))
    exact SameConditions.of_leaves changed (leaves_evaluate k _) (by decide)
  | cause c subject _ _ _ confined ih =>
    have counted := (confined (by decide)).trans (((ih away).of_leaves (leaves_countOccurrence c subject _) (by decide)).of_leaves
      (leaves_append _ _) (by decide))
    unfold suspendFor
    split
    · exact SameConditions.of_leaves counted (leaves_restrict _ _) (by simp [Kind.parts])
    · exact counted
  | restrict m _ _ _ ih => exact (ih away).of_leaves (leaves_restrict m _) (by simp [Kind.parts])
  | serve m _ _ _ ih => exact (ih away).of_leaves (leaves_serve m _) (by simp [Kind.parts])
  | reload table record vs _ _ _ ih => exact (applyStaged_conditions table record vs _).trans (ih away)
  | tables g mem => exact absurd mem away.2.1
  | store g mem => exact absurd mem away.1
  | begin i mem => exact absurd mem away.2.2
  | _ =>
    rename_i ih
    exact ih away

theorem finish_conditions (v : State) : (finish v).tables.conditions = v.tables.conditions :=
  (Moves.refl (ks := finishKinds)).to_finish.conditions_eq

end Sys2Proof.Machine
end

section
/-! What the end of an image write makes of the store and the levers (R73, R107, R181). -/

set_option Elab.async false

namespace Sys2Proof.Machine

variable {s u v w : State} {k page rule : Nat} {t : Time} {p : Patch} {js : List Job} {x : Waiter} {i : Image} {l : CondList}
  {r : CodeRule}

/-! ### The equations of the row -/

/-- The store when a write has ended. -/
def Store.writeEnded (w : Stored) (js : List Job) (st : Store) : Store :=
  { st with stored := some w, imageState := .good, jobs := js }

/-- The part when a write has ended, but for the reply of the command that waited. -/
def State.writeEnded (p : Patch) (js : List Job) (s : State) : State :=
  afterWrite p (s.modStore (Store.writeEnded (s.store.written p) js))

theorem writeEnds_of_none (idle : s.store.jobs = []) : writeEnds s = s := by
  simp only [writeEnds, idle]

section
variable (unchecked : s.faults.checkWaiting = false)
include unchecked

theorem writeEnds_unawaited (jobs : s.store.jobs = ⟨p, none⟩ :: js) : writeEnds s = s.writeEnded p js := by
  simp only [writeEnds, jobs, unchecked]
  rfl

theorem writeEnds_awaited (jobs : s.store.jobs = ⟨p, some x⟩ :: js) :
    writeEnds s = endWait x (doneResult p.command (be32 (s.store.written p).signature)) (s.writeEnded p js) := by
  simp only [writeEnds, jobs, unchecked]
  rfl

end

/-- R181: the new signature stands for the bytes written. -/
theorem written_good (st : Store) (p : Patch) : (st.written p).good = true := by
  simp [Store.written, Stored.good]

/-! ### The blocks -/

/-- Whether a write brings a lever into use, and so moves more than the store. -/
def Patch.bringsIn (p : Patch) : Prop := ∃ k l, p = .bringIn k l

/-- What the end of a write makes of the tables in force (R73, R107). -/
def Patch.enforced (p : Patch) (tables : Option Image) : Option Image :=
  match p with
  | .bringIn .. | .code .. => tables.map p.apply
  | _ => tables

theorem writeEnded_store (p : Patch) (js : List Job) (s : State) :
    (s.writeEnded p js).store
      = { s.store.writeEnded (s.store.written p) js with inForce := p.enforced s.store.inForce } := by
  cases p with
  | bringIn k l =>
    have evaluated (w : State) : (evaluateNamingLever k (evaluate k w)).store = w.store :=
      (((Moves.refl (ks := [.evaluate])).to_evaluate k).to_evaluateNamingLever k).exactly .store
    have changed (g : Lever → Lever) (w : State) : (changeLever k g w).store = w.store :=
      (leaves_changeLever k g w).2.2.2 .store (by decide)
    exact (evaluated _).trans (changed _ _)
  | _ => rfl

theorem moves_writeEnded (only : ¬ p.bringsIn) (js : List Job) (s : State) :
    Moves [.store, .tables] s (s.writeEnded p js) := by
  have ended : Moves [.store, .tables] s (s.modStore (Store.writeEnded (s.store.written p) js)) := Moves.refl.to_modStore _ rfl
  cases p with
  | bringIn k l => exact absurd ⟨k, l, rfl⟩ only
  | code page rule r => exact ended.to_modTables _
  | _ => exact ended

/-- The kinds of move of a lever brought into use. -/
abbrev bringKinds : List Kind := [.store, .note, .lever, .evaluate, .tables]

theorem moves_writeEnded_all (p : Patch) (js : List Job) (s : State) : Moves bringKinds s (s.writeEnded p js) :=
  (Moves.refl.to_modStore (Store.writeEnded (s.store.written p) js) rfl).to_afterWrite p

/-- A lever brought into use (R73). -/
def Lever.broughtIn (l : Lever) : Lever := { l with outOfUse := false, copy := [] }

theorem writeEnded_lever (here : within k s.levers.length = true) (js : List Job) :
    ((s.writeEnded (.bringIn k l) js).lever k).undecided = (s.lever k).broughtIn.undecided := by
  have eq : s.writeEnded (.bringIn k l) js = evaluateNamingLever k (evaluate k (changeLever k Lever.broughtIn
      ((s.modStore (Store.writeEnded (s.store.written (.bringIn k l)) js)).modTables
        fun i => ({ i with conditions := put i.conditions k l }).setAltered k false))) := rfl
  rw [eq]
  refine (forEach_evaluate_undecided _ k _).trans ((evaluate_undecided k k _).trans (congrArg Lever.undecided ?_))
  rw [changeLever_lever]
  exact if_pos ⟨rfl, here⟩

/-! ### The tables in force -/

theorem bringIn_conditions (in_force : s.store.inForce = some i) (length : i.conditions.length = 64)
    (inside : within k 64 = true) (js : List Job) : (s.writeEnded (.bringIn k l) js).tables.conds k = l := by
  have tables : (s.writeEnded (.bringIn k l) js).tables = (Patch.bringIn k l).apply i := by
    rw [State.tables, writeEnded_store]
    simp only [Patch.enforced, in_force]
    rfl
  rw [tables]
  refine (nth_put i.conditions [] k k l).trans (if_pos ⟨rfl, ?_⟩)
  rw [length]
  exact inside

theorem code_rule (length : i.codes.length = 4) (on : page ≤ 3) (rules : ∀ q ∈ i.codes, q.length = 16)
    (inside : within rule 16 = true) : nth (((Patch.code page rule r).apply i).page page) {} rule = r := by
  obtain ⟨low, high⟩ := (within_iff rule 16).1 inside
  have numbers : (page * 256 + rule) / 256 = page ∧ (page * 256 + rule) % 256 = rule := by omega
  have applied : (Patch.code page rule r).apply i = { i with codes := modAt i.codes [] (page + 1) fun q => put q rule r } := by
    show { i with codes := modAt i.codes [] ((page * 256 + rule) / 256 + 1) fun q => put q ((page * 256 + rule) % 256) r } = _
    rw [numbers.1, numbers.2]
  have paged : within (page + 1) i.codes.length = true := (within_iff _ _).2 ⟨by omega, by omega⟩
  have written : ((Patch.code page rule r).apply i).page page = put (i.page page) rule r := by
    rw [applied]
    exact (nth_modAt i.codes [] (page + 1) (page + 1) fun q => put q rule r).trans (if_pos ⟨rfl, paged⟩)
  have long : (i.page page).length = 16 := rules _ (nth_mem i.codes [] (page + 1) paged)
  rw [written]
  exact (nth_put (i.page page) {} rule rule r).trans (if_pos ⟨rfl, by rw [long]; exact inside⟩)

end Sys2Proof.Machine
end

section
/-! O58: the end of an image write. -/

set_option Elab.async false

namespace Sys2Proof.Machine

variable {s u v w : State} {k page rule : Nat} {t : Time} {p : Patch} {js : List Job} {x : Waiter} {i : Image} {l : CondList}
  {r : CodeRule} {ks : List Kind}

theorem finish_imageState (agreed : v.Undisputed) : (finish v).store.imageState = v.store.imageState := by
  have kept : (finish v).store.kept = v.store.kept := finish_part agreed .store
  simpa only [Store.kept] using congrArg Store.imageState kept

/-- The store at the end of the step in which a write has ended. -/
structure WriteEnded (s : State) (p : Patch) (js : List Job) (u : State) : Prop where
  stored : u.store.stored = some (s.store.written p)
  state : u.store.imageState = .good
  work : u.store.work = s.store.work
  queued : ∃ more, u.store.jobs = js ++ more
  conditions : u.tables.conditions = (s.writeEnded p js).tables.conditions

theorem writeEnded_ends (agreed : v.Undisputed) (ended : v.store = (s.writeEnded p js).store) : WriteEnded s p js (finish v) := by
  have store := ended.trans (writeEnded_store p js s)
  obtain ⟨more, queued⟩ := finish_jobs v
  refine ⟨?_, ?_, ?_, ⟨more, ?_⟩, ?_⟩
  · rw [finish_stored agreed, store]
    rfl
  · rw [finish_imageState agreed, store]
    rfl
  · rw [finish_work agreed, store]
    rfl
  · rw [queued, store]
    rfl
  · rw [finish_conditions, State.tables, ended]
    rfl

/-- The store with nothing staged: the end of the step adds nothing to it. -/
theorem writeEnded_exactly (agreed : v.Undisputed) (ended : v.store = (s.writeEnded p js).store) (none_staged : s.NoneStaged)
    (moves : Moves ks (s.atTime t) v) (lasting : .stage ∉ ks ∧ .begin ∉ ks := by decide) :
    (finish v).store.jobs = js ∧ (finish v).store.inForce = p.enforced s.store.inForce := by
  have unstaged := (moves.unstaged lasting.1 lasting.2 (s := s.atTime t) none_staged).1
  rw [(finish_unstaged agreed unstaged).1, ended, writeEnded_store]
  exact ⟨rfl, rfl⟩

theorem writeEnded_atTime (p : Patch) (js : List Job) (s : State) :
    ((s.atTime t).writeEnded p js).store = (s.writeEnded p js).store := by
  rw [writeEnded_store, writeEnded_store]
  rfl

theorem endAlone_store (r : CmdResult) (s : State) : (endAlone r s).store = s.store := rfl

theorem replied_store (r : CmdResult) (p : Patch) (js : List Job) (s : State) :
    (endAlone r ((s.atTime t).writeEnded p js)).store = (s.writeEnded p js).store :=
  (endAlone_store r _).trans (writeEnded_atTime p js s)

theorem not_bringsIn_whole : ¬ (Patch.whole i).bringsIn := by
  rintro ⟨k, l, is⟩
  cases is

section
variable (undisputed : s.Undisputed) (unchecked : s.faults.checkWaiting = false)
include undisputed unchecked

theorem takes_write_unawaited (jobs : s.store.jobs = ⟨p, none⟩ :: js) (only : ¬ p.bringsIn) :
    Takes (.imageWriteComplete t) s [.store] (WriteEnded s p js) :=
  .of_result (f := writeEnds) rfl rfl undisputed (writeEnds_unawaited (s := s.atTime t) unchecked jobs)
    (moves_writeEnded only js (s.atTime t)) fun agreed _ => writeEnded_ends agreed (writeEnded_atTime p js s)

/-- What the row leaves where a command by itself has its reply. -/
theorem takes_write_alone (jobs : s.store.jobs = ⟨p, some .alone⟩ :: js) (goes_on : endsBatch p.command = none)
    (only : ¬ p.bringsIn) : Takes (.imageWriteComplete t) s [.store, .result] fun u => WriteEnded s p js u
      ∧ u.Gave p.command (be32 (s.store.written p).signature)
      ∧ (s.NoneStaged → u.store.jobs = js ∧ u.store.inForce = p.enforced s.store.inForce) := by
  have moves : Moves [.store, .tables, .result] (s.atTime t) (endAlone (doneResult p.command
      (be32 (s.store.written p).signature)) ((s.atTime t).writeEnded p js)) :=
    ((moves_writeEnded only js (s.atTime t)).mono (by simp)).trans
      ((moves_endAlone (q := doneResult p.command (be32 (s.store.written p).signature)) goes_on _).mono (by simp))
  exact .of_result (f := writeEnds) rfl rfl undisputed (writeEnds_awaited (s := s.atTime t) unchecked jobs) moves
    fun agreed _ => ⟨writeEnded_ends agreed (replied_store _ p js s), finish_lastResult agreed,
      fun none_staged => writeEnded_exactly agreed (replied_store _ p js s) none_staged moves⟩

/-- A COMMIT taken by itself has its reply, and makes the warm start due. -/
theorem takes_write_committed (jobs : s.store.jobs = ⟨.whole i, some .alone⟩ :: js) :
    Takes (.imageWriteComplete t) s [.store, .batch, .result] fun u => WriteEnded s (.whole i) js u
      ∧ u.Gave 0x83 (be32 (s.store.written (.whole i)).signature) ∧ u.host.warm = some ⟨.commit, true⟩
      ∧ u.host.executing = s.host.executing ∧ u.host.waiting = s.host.waiting ∧ u.host.flags = s.host.flags := by
  have moves : Moves [.store, .tables, .batch, .result] (s.atTime t) (endAlone (doneResult 0x83
      (be32 (s.store.written (.whole i)).signature)) ((s.atTime t).writeEnded (.whole i) js)) :=
    ((moves_writeEnded not_bringsIn_whole js (s.atTime t)).mono (by simp)).trans
      (((Moves.refl (ks := [.batch, .result])).to_endAlone _).mono (by simp))
  exact .of_result (f := writeEnds) rfl rfl undisputed (writeEnds_awaited (s := s.atTime t) unchecked jobs) moves
    fun agreed _ => ⟨writeEnded_ends agreed (replied_store _ _ js s), finish_lastResult agreed, finish_warm agreed, finish_executing agreed,
      finish_waiting agreed, finish_flags agreed⟩

/-- BRING INTO USE taken by itself. -/
theorem takes_write_bringsIn (jobs : s.store.jobs = ⟨.bringIn k l, some .alone⟩ :: js) (inside : within k 64 = true)
    (levers : s.levers.length = 64) : Takes (.imageWriteComplete t) s [.store, .levers, .result] fun u =>
      WriteEnded s (.bringIn k l) js u ∧ u.Gave 0x13 (be32 (s.store.written (.bringIn k l)).signature)
        ∧ (u.lever k).undecided = (s.lever k).broughtIn.undecided
        ∧ (s.NoneStaged → u.store.inForce = s.store.inForce.map (Patch.bringIn k l).apply) := by
  have moves : Moves (.result :: bringKinds) (s.atTime t) (endAlone (doneResult 0x13
      (be32 (s.store.written (.bringIn k l)).signature)) ((s.atTime t).writeEnded (.bringIn k l) js)) :=
    ((moves_writeEnded_all (.bringIn k l) js (s.atTime t)).mono (by simp)).trans
      ((moves_endAlone (q := doneResult 0x13 (be32 (s.store.written (.bringIn k l)).signature)) rfl _).mono (by simp))
  refine Takes.narrow_told .faults (by decide) ⟨.levers, by decide⟩ <| .of_result (f := writeEnds) rfl rfl undisputed
    (writeEnds_awaited (s := s.atTime t) unchecked jobs) moves fun agreed _ =>
      ⟨(finish_faults agreed).trans (moves.faults_kept undisputed), writeEnded_ends agreed (replied_store _ _ js s),
        finish_lastResult agreed, ?_, fun none_staged => (writeEnded_exactly agreed (replied_store _ _ js s) none_staged moves).2⟩
  rw [finish_lever agreed]
  exact writeEnded_lever (s := s.atTime t) (here_of_within 64 inside levers) js

end

end Sys2Proof.Machine
end

section
/-! O58: a batch that waits for the end of an image write, and the statement whole. -/

set_option Elab.async false

namespace Sys2Proof.Machine

variable {s u v w : State} {k page rule : Nat} {t : Time} {p : Patch} {js : List Job} {x : Waiter} {i : Image} {l : CondList}
  {r : CmdResult} {b : Batch} {c : Command} {f : OutFrame} {cause : ResetCause}

/-! ### Batches that end in a warm start (R179) -/

/-- The reply of a batch that a command has ended with a warm start: its later commands are NOT_RUN. -/
def Batch.cutReply (b : Batch) (r : CmdResult) : OutFrame :=
  ⟨.reply, b.tag, replyPayload (b.results ++ r :: b.rest.map fun d => ⟨d.code, .notRun, .none, []⟩), true⟩

theorem moves_cutBatch (b : Batch) (r : CmdResult) (cause : ResetCause) (s : State) :
    Moves [.batch, .transmit] s (cutBatch b r cause s) := Moves.refl.to_endBatch _ _ _

/-- What the end of a step leaves of a batch so ended, with a frame on the line. -/
theorem finish_cuts (agreed : (cutBatch b r cause v).Undisputed) (sending : v.host.sending = some f) :
    (finish (cutBatch b r cause v)).host.executing = none ∧ (finish (cutBatch b r cause v)).host.waiting = none
      ∧ (finish (cutBatch b r cause v)).host.warm = some ⟨cause, false⟩
      ∧ (finish (cutBatch b r cause v)).host.ready = v.host.ready ++ [b.cutReply r] :=
  ⟨finish_executing agreed, finish_waiting agreed, finish_warm agreed,
    (finish_of_sending (f := f) agreed sending).1⟩

/-- A command that has waited, and whose result ends its batch (R179). -/
theorem resumeBatch_of_ending (executing : s.host.executing = some b) (awaited : b.awaited = some c) (done : r.result = .done)
    (ends : endsBatch c.code = some cause) : resumeBatch r s = cutBatch b { r with code := c.code } cause s := by
  simp only [resumeBatch, executing, awaited, done, if_true, ends]

/-! ### The rows -/

theorem given_store (r : CmdResult) (skip : Bool) :
    (advanceQueue (giveResult b r skip ((s.atTime t).writeEnded p js))).store = (s.writeEnded p js).store :=
  Eq.trans (moves_given.exactly .store) (writeEnded_atTime p js s)

/-- No turn is due while a batch waits for a command. -/
theorem turnDue_of_awaited (executing : s.host.executing = some b) (awaited : b.awaited = some c) : turnDue s = none := by
  unfold turnDue
  split
  · rfl
  · simp [executing, awaited]

section
variable (undisputed : s.Undisputed) (unchecked : s.faults.checkWaiting = false)
  (jobs : s.store.jobs = ⟨p, some .batch⟩ :: js) (executing : s.host.executing = some b) (awaited : b.awaited = some c)
  (sending : s.host.sending = some f)
include undisputed unchecked jobs executing awaited sending

theorem write_resumes (own : c.code = p.command) (goes_on : endsBatch p.command = none) :
    ∃ u, exec (.imageWriteComplete t) s = .next u ∧ u.now = max s.now t
      ∧ u.store.stored = some (s.store.written p) ∧ u.store.imageState = .good
      ∧ (s.host.warm = none → GivenResult b b.rest ⟨c.code, .done, .none, be32 (s.store.written p).signature⟩ false s u)
      ∧ (b.rest ≠ [] → ¬ p.bringsIn → KeptBut [.store, .batch] s u) := by
  have effect := writeEnds_awaited (s := s.atTime t) unchecked jobs
  have goes_on : endsBatch c.code = none := own ▸ goes_on
  by_cases brings : p.bringsIn
  · obtain ⟨u, next, now, given, -, ended⟩ := resumes_row (i := .imageWriteComplete t) (P := WriteEnded s p js) (g := writeEnds)
      (v := (s.atTime t).writeEnded p js) (ks := bringKinds) (ps := [.store, .levers, .faults, .batch]) f rfl undisputed
      executing awaited sending (fun _ => goes_on) effect (moves_writeEnded_all p js _) (moves_writeEnded_all p js _).notifies
      fun agreed => writeEnded_ends agreed (given_store _ _)
    exact ⟨u, next, now, ended.stored, ended.state, given, fun _ only => absurd brings only⟩
  · obtain ⟨u, next, now, given, kept, ended⟩ := resumes_row (i := .imageWriteComplete t) (P := WriteEnded s p js) (g := writeEnds)
      (v := (s.atTime t).writeEnded p js) (ks := [.store, .tables]) (ps := [.store, .batch]) f rfl undisputed
      executing awaited sending (fun _ => goes_on) effect (moves_writeEnded brings js _) (moves_writeEnded brings js _).notifies
      fun agreed => writeEnded_ends agreed (given_store _ _)
    exact ⟨u, next, now, ended.stored, ended.state, given, fun more _ => kept more⟩

end

/-- A COMMIT of a batch ends it (R179). -/
theorem write_commits (undisputed : s.Undisputed) (unchecked : s.faults.checkWaiting = false)
    (jobs : s.store.jobs = ⟨.whole i, some .batch⟩ :: js) (executing : s.host.executing = some b) (awaited : b.awaited = some c)
    (sending : s.host.sending = some f) (own : c.code = 0x83) :
    ∃ u, exec (.imageWriteComplete t) s = .next u ∧ u.now = max s.now t ∧ KeptBut [.store, .batch, .transmitter] s u
      ∧ u.store.stored = some (s.store.written (.whole i)) ∧ u.host.executing = none ∧ u.host.waiting = none
      ∧ u.host.warm = some ⟨.commit, false⟩
      ∧ u.host.ready = s.host.ready ++ [b.cutReply ⟨c.code, .done, .none, be32 (s.store.written (.whole i)).signature⟩] := by
  have held : ((s.atTime t).writeEnded (.whole i) js).host.executing = some b := executing
  have effect : writeEnds (s.atTime t) = cutBatch b ⟨c.code, .done, .none, be32 (s.store.written (.whole i)).signature⟩ .commit
      ((s.atTime t).writeEnded (.whole i) js) :=
    (writeEnds_awaited (s := s.atTime t) unchecked jobs).trans (resumeBatch_of_ending held awaited rfl (by rw [own]; rfl))
  have moves : Moves [.store, .tables, .batch, .transmit] (s.atTime t) (writeEnds (s.atTime t)) := by
    rw [effect]
    exact ((moves_writeEnded not_bringsIn_whole js (s.atTime t)).mono (by simp)).trans ((moves_cutBatch _ _ _ _).mono (by simp))
  have agreed := moves.undisputed (s := s.atTime t) undisputed
  have now : (writeEnds (s.atTime t)).now = max s.now t := moves.now_eq
  have kept : KeptBut [.store, .batch, .transmitter] s (finish (writeEnds (s.atTime t))) := moves.keptBut t agreed
  have next : exec (.imageWriteComplete t) s = .next (finish (writeEnds (s.atTime t))) := by
    show Host.Outcome.next (finish (writeEnds (s.comeTo t))) = _
    rw [comeTo_of_prompt (.inl (turnDue_of_awaited executing awaited))]
  rw [effect] at agreed now kept next
  obtain ⟨ended, waiting, warm, ready⟩ := finish_cuts (f := f) agreed sending
  exact ⟨_, next, (finish_now agreed).trans now, kept, (writeEnded_ends agreed (writeEnded_atTime (.whole i) js s)).stored, ended,
    waiting, warm, ready⟩

/-! ### The statement -/

theorem endsBatch_command (part : ∀ i, p ≠ .whole i) : endsBatch p.command = none := by
  cases p with
  | whole i => exact absurd rfl (part i)
  | _ => rfl

/-- Settles O58: each clause by the patch that is written, and by who waits for its end. -/
theorem imageWritesStoreAndReply : Obligations.ImageWritesStoreAndReply := by
  unfold Obligations.ImageWritesStoreAndReply
  intro s t undisputed unchecked
  refine ⟨fun idle => .of_idle (f := writeEnds) rfl rfl undisputed (writeEnds_of_none (s := s.atTime t) idle) fun _ => trivial, ?_⟩
  rintro p w js st jobs rfl
  refine ⟨written_good _ _, rfl, ?_, ?_, ?_, ?_, ?_⟩
  · rintro rfl only
    exact (takes_write_unawaited undisputed unchecked jobs fun ⟨k, l, is⟩ => only k l is).imp fun u ended =>
      ⟨ended.stored, ended.state, ended.work, ended.queued⟩
  · rintro rfl part only
    refine (takes_write_alone undisputed unchecked jobs (endsBatch_command part) fun ⟨k, l, is⟩ => only k l is).imp
      fun u ⟨ended, gave, exactly⟩ => ⟨ended.stored, ended.state, gave, ended.queued, fun none_staged => ?_, ?_⟩
    · obtain ⟨done, in_force⟩ := exactly none_staged
      refine ⟨done, in_force.trans ?_⟩
      cases p with
      | bringIn k l => exact absurd rfl (only k l)
      | _ => rfl
    · rintro page rule r i rfl none_staged in_force length on rules inside
      have tables : u.tables = (Patch.code page rule r).apply i := by
        rw [State.tables, (exactly none_staged).2, in_force]
        rfl
      rw [tables]
      exact code_rule length on rules inside
  · rintro i rfl rfl
    exact (takes_write_committed undisputed unchecked jobs).imp fun u ⟨ended, gave, warm, executing, waiting, flags⟩ =>
      ⟨ended.stored, rfl, gave, warm, executing, waiting, flags⟩
  · rintro k l rfl rfl inside levers
    refine (takes_write_bringsIn undisputed unchecked jobs inside levers).imp fun u ⟨ended, gave, lever, in_force⟩ => ?_
    have current := congrArg Lever.current lever
    have settled := congrArg Lever.settled lever
    refine ⟨ended.stored, gave, congrArg Lever.outOfUse lever, congrArg Lever.copy lever, current, settled, in_force,
      fun i held length => ?_⟩
    exact (congrArg (fun q : List CondList => nth q [] k) ended.conditions).trans (bringIn_conditions held length inside js)
  · rintro b c f x rfl executing awaited own sending rfl
    refine ⟨fun part => ?_, ?_⟩
    · obtain ⟨u, next, now, stored, state, given, kept⟩ :=
        write_resumes undisputed unchecked jobs executing awaited sending own (endsBatch_command part)
      exact ⟨u, next, now, stored, state, given, fun more only => kept more fun ⟨k, l, is⟩ => only k l is⟩
    · rintro i rfl
      exact write_commits undisputed unchecked jobs executing awaited sending own

end Sys2Proof.Machine
end

section
/-! A start that finds a GOOD image (R26, R75, R85, R93, R134, R150, R182). -/

set_option Elab.async false

namespace Sys2Proof.Machine

variable {s u v w : State} {k n : Nat} {st : Stored} {i : Image} {cause : ResetCause} {r : Register} {f : Faults} {tickAt : Int}

/-! ### The equations of the start -/

/-- The part with the RESET entry made and the image found GOOD. -/
def readImage (cause : ResetCause) (s : State) : State :=
  (append (.reset cause) s).modStore fun x => { x with imageState := .good }

/-- The blocks started from an image, the converter test under way. -/
def startedFrom (i : Image) (s : State) : State := requestReferences .startUp (startBlocks i s)

theorem runStart_of_good (stored : s.store.stored = some st) (good : st.good = true) :
    runStart cause s = startedFrom st.image (seedConfinements (readImage cause s)) := by
  have found : (append (.reset cause) s).store.found = .good := by
    show s.store.found = .good
    simp only [Store.found, stored, good, if_true]
  have kept : ((append (.reset cause) s).modStore fun x => { x with imageState := .good }).store.stored = some st := stored
  simp only [runStart, found, kept]
  rfl

/-! ### What the end of the step leaves of it -/

theorem nth_started {α : Type} {g : Nat → α → α} {d : α} {l : List α} (here : within k l.length = true) :
    nth (mapNumbered g 1 l) d k = g k (nth l d k) :=
  (nth_mapNumbered g d l k).trans (if_pos here)

theorem noneStaged_startedFrom (none_staged : w.NoneStaged) (i : Image) : (startedFrom i w).NoneStaged := by
  obtain ⟨circuits, timers, bells, outbound, links⟩ := none_staged
  refine ⟨fun c mem => ?_, timers, bells, fun o mem => ?_, fun l mem => ?_⟩
  · obtain ⟨k, d, held, rfl⟩ := mem_mapNumbered mem
    simp only [Circuit.started]
    split <;> exact circuits d held
  · obtain ⟨k, d, held, rfl⟩ := mem_mapNumbered mem
    split <;> exact outbound d held
  · obtain ⟨k, d, held, rfl⟩ := mem_mapNumbered mem
    simp only [Link.started]
    split <;> exact links d held

theorem undisputed_startedFrom (undisputed : w.Undisputed) (i : Image) : (startedFrom i w).Undisputed := by
  intro l mem
  obtain ⟨k, d, held, rfl⟩ := mem_mapNumbered mem
  exact undisputed d held

/-- With nothing staged the end of a step moves the links and the Host Port alone. -/
theorem moves_finish (agreed : v.Undisputed) (none_staged : v.NoneStaged) : Moves [.link, .transmit] v (finish v) := by
  rw [finish_of_noneStaged agreed none_staged]
  exact (Moves.refl.to_forEach _ fun k _ => Moves.refl.to_pumpLink k).to_kickHost

/-- During a start, with no reply ready, the Host Port sends nothing. -/
theorem chooseFrame_of_start {h : HostPort} (unsent : h.sending = none) (none_ready : h.ready = []) : chooseFrame false h = h := by
  simp only [chooseFrame, unsent, none_ready]
  cases h.notices <;> simp

/-! ### A power-up reset -/

theorem seedConfinements_of_none (records : w.faults.records = []) (none_lost : w.faults.overflowLast = none) :
    seedConfinements w = w := by
  simp only [seedConfinements, records, List.foldl_nil, none_lost]

/-- The part that a power-up reset starts from the image (R159, R182). -/
def poweredUp (st : Stored) (s : State) : State := readImage .supply (freshState s (some st) {} 100 {})

theorem powerUp_of_good (stored : s.store.stored = some st) (good : st.good = true) (no_write : s.store.jobs = []) :
    powerUp s = startedFrom st.image (poweredUp st s) := by
  have after : s.store.afterCut s.freeCount = some st := by simp [Store.afterCut, no_write, stored]
  have started : runStart .supply (freshState s (some st) {} 100 {}) = startedFrom st.image (poweredUp st s) :=
    (runStart_of_good rfl good).trans (congrArg _ (seedConfinements_of_none rfl rfl))
  simp only [powerUp, after, no_write]
  exact started

theorem noneStaged_poweredUp (st : Stored) (s : State) : (startedFrom st.image (poweredUp st s)).NoneStaged :=
  noneStaged_startedFrom (w := poweredUp st s) (noneStaged_freshState (s := s) (some st) {} 100 {}) st.image

theorem undisputed_poweredUp (st : Stored) (s : State) : (startedFrom st.image (poweredUp st s)).Undisputed :=
  undisputed_startedFrom (w := poweredUp st s) (undisputed_freshState (s := s) (some st) {} 100 {}) st.image

/-! ### The records it leaves -/

theorem startedFrom_circuit (here : within k w.circuits.length = true) :
    (startedFrom i w).circuit k = (w.circuit k).started (i.track k) := nth_started (g := fun k (c : Circuit) => c.started (i.track k)) here

theorem startedFrom_board (here : within k w.boards.length = true) :
    (startedFrom i w).board k = { w.board k with configured := i.board k } :=
  nth_started (g := fun b (r : Board) => { r with configured := i.board b }) here

theorem startedFrom_lever (here : within k w.levers.length = true) : (startedFrom i w).lever k = (w.lever k).started i k :=
  nth_started (g := fun k (l : Lever) => l.started i k) here

theorem startedFrom_hold (here : within k w.holds.length = true) : (startedFrom i w).hold k = Hold.started (i.hold k) :=
  nth_started (g := fun k _ => Hold.started (i.hold k)) here

theorem startedFrom_inb (here : within k w.inbound.length = true) : (startedFrom i w).inb k
    = if (i.link k).configured then { w.inb k with lastChange := some 0 } else w.inb k :=
  nth_started (g := fun k (r : Inbound) => if (i.link k).configured then { r with lastChange := some 0 } else r) here

theorem startedFrom_outb (here : within k w.outbound.length = true) : (startedFrom i w).outb k
    = if (i.link k).configured then { w.outb k with state := some .blocked, lastChange := some 0 } else w.outb k :=
  nth_started (g := fun k (r : Outbound) => if (i.link k).configured then { r with state := some .blocked, lastChange := some 0 } else r)
    here

theorem startedFrom_link (here : within k w.links.length = true) : (startedFrom i w).link k = (w.link k).started (i.link k) :=
  nth_started (g := fun k (l : Link) => l.started (i.link k)) here

theorem poweredUp_circuit (inside : within k 24 = true) : (startedFrom i (poweredUp st s)).circuit k
    = { state := if (i.track k).enabled then .occupied else .disabled } := by
  rw [startedFrom_circuit (w := poweredUp st s) inside, show (poweredUp st s).circuit k = {} from nth_replicate 24 ({} : Circuit) k]
  simp only [Circuit.started]
  split <;> rfl

theorem poweredUp_board (inside : within k 11 = true) :
    (startedFrom i (poweredUp st s)).board k = { configured := i.board k } := by
  rw [startedFrom_board (w := poweredUp st s) inside, show (poweredUp st s).board k = {} from nth_replicate 11 ({} : Board) k]

theorem poweredUp_lever (inside : within k 64 = true) : (startedFrom i (poweredUp st s)).lever k = ({} : Lever).started i k := by
  rw [startedFrom_lever (w := poweredUp st s) inside, show (poweredUp st s).lever k = {} from nth_replicate 64 ({} : Lever) k]

theorem poweredUp_hold (inside : within k 16 = true) :
    (startedFrom i (poweredUp st s)).hold k = if (i.hold k).configured then ⟨some .held, some 0⟩ else {} :=
  startedFrom_hold (w := poweredUp st s) inside

theorem poweredUp_inb (inside : within k 3 = true) :
    (startedFrom i (poweredUp st s)).inb k = { lastChange := if (i.link k).configured then some 0 else none } := by
  rw [startedFrom_inb (w := poweredUp st s) inside, show (poweredUp st s).inb k = {} from nth_replicate 3 ({} : Inbound) k]
  split <;> rfl

theorem poweredUp_outb (inside : within k 3 = true) : (startedFrom i (poweredUp st s)).outb k
    = if (i.link k).configured then { state := some .blocked, lastChange := some 0 } else {} := by
  rw [startedFrom_outb (w := poweredUp st s) inside, show (poweredUp st s).outb k = {} from nth_replicate 3 ({} : Outbound) k]

theorem poweredUp_link (inside : within k 3 = true) : (startedFrom i (poweredUp st s)).link k
    = { state := if (i.link k).configured then .loopback else .outOfUse } := by
  rw [startedFrom_link (w := poweredUp st s) inside, show (poweredUp st s).link k = {} from nth_replicate 3 ({} : Link) k]
  simp only [Link.started]
  split <;> rfl

/-- Settles O5: the blocks start from new records, and the end of the step moves no more than the links. -/
theorem powerUpStartsEveryBlockAfresh : Obligations.PowerUpStartsEveryBlockAfresh := by
  unfold Obligations.PowerUpStartsEveryBlockAfresh
  intro s st stored good no_write
  have agreed := undisputed_poweredUp st s
  have unstaged := noneStaged_poweredUp st s
  have moves := moves_finish agreed unstaged
  obtain ⟨store, host⟩ := finish_unstaged agreed unstaged
  obtain ⟨mode, start⟩ := moves.exactly .mode
  obtain ⟨-, scan, polled⟩ := moves.exactly .boards
  have converter : (finish (startedFrom st.image (poweredUp st s))).converter = _ := moves.exactly .converter
  have linked (k : Nat) (inside : within k 3 = true) :
      ((finish (startedFrom st.image (poweredUp st s))).link k).state = ((startedFrom st.image (poweredUp st s)).link k).state
        ∧ ((finish (startedFrom st.image (poweredUp st s))).link k).queue = [] := by
    have record := poweredUp_link (i := st.image) (st := st) (s := s) inside
    have here : within k (startedFrom st.image (poweredUp st s)).links.length = true := by
      rw [show (startedFrom st.image (poweredUp st s)).links.length = 3 from length_mapNumbered ..]
      exact inside
    refine ⟨?_, ?_⟩
    · rw [finish_link_state agreed inside here (by rw [record]), if_neg]
      rw [record]
      split <;> simp
    · have kept := congrArg Link.queue (finish_link agreed k)
      rw [record] at kept
      exact kept
  refine ⟨finish (startedFrom st.image (poweredUp st s)), congrArg (fun v => Host.Outcome.next (finish v)) (powerUp_of_good stored good no_write),
    finish_pending agreed, ?_, finish_now agreed, mode, start, ?_, ?_, ?_, finish_register agreed, finish_faults agreed, ?_, ?_,
    polled, scan, ?_, ?_, ?_, ?_, ?_, moves.exactly .timers, moves.exactly .bells, moves.exactly .instruments, ?_⟩
  · exact moves.untouched.2.2.1
  · rw [store]
    rfl
  · rw [store]
    rfl
  · rw [store]
    rfl
  · rw [converter]
    rfl
  · rw [converter]
    rfl
  · have told : (startedFrom st.image (poweredUp st s)).host = { notices := [⟨.register, maskBit 16⟩] } :=
      congrArg (fun m => ({ notices := [⟨.register, m⟩] } : HostPort)) (by decide : maskBit 16 ||| 0 = maskBit 16)
    rw [host, told]
    exact chooseFrame_of_start rfl rfl
  · exact fun k inside => (finish_circuit agreed k).trans (poweredUp_circuit inside)
  · exact fun k inside => (finish_board agreed k).trans (poweredUp_board inside)
  · intro k inside
    rw [finish_lever agreed, poweredUp_lever inside]
    exact ⟨rfl, rfl, rfl, rfl, rfl, rfl, rfl, rfl⟩
  · exact fun k inside => (finish_hold agreed k).trans (poweredUp_hold inside)
  · intro k inside
    obtain ⟨state, queue⟩ := linked k inside
    have line : (finish (startedFrom st.image (poweredUp st s))).outb k = (startedFrom st.image (poweredUp st s)).outb k :=
      congrArg (fun l : List Outbound => nth l {} k) (moves.exactly .outbound)
    refine ⟨(finish_inb agreed k).trans (poweredUp_inb inside), line.trans (poweredUp_outb inside), state.trans ?_, queue⟩
    rw [poweredUp_link inside]

end Sys2Proof.Machine
end

section
/-! A warm start that finds a GOOD image (R26, R159, R170, R182). -/

set_option Elab.async false

namespace Sys2Proof.Machine

variable {s u v w : State} {k n code : Nat} {st : Stored} {i : Image} {cause : ResetCause} {subject : Option Nat}

/-! ### Confinements before the blocks start -/

/-- Whether the circuits are those of a new part, but for their confinements. -/
structure State.Seeded (s : State) : Prop where
  length : s.circuits.length = 24
  fresh : ∀ c ∈ s.circuits, c = { confinement := c.confinement }

theorem State.Seeded.of_circuits (h : s.Seeded) (same : u.circuits = s.circuits) : u.Seeded :=
  ⟨by rw [same]; exact h.length, by rw [same]; exact h.fresh⟩

theorem seeded_freshState (stored : Option Stored) (r : Register) (tickAt : Int) (f : Faults) :
    (freshState s stored r tickAt f).Seeded :=
  ⟨rfl, fun c mem => by obtain rfl := List.eq_of_mem_replicate mem; rfl⟩

/-- A source more in a circuit's confinement. -/
def Circuit.seededBy (source : Nat) (c : Circuit) : Circuit := { c with confinement := addSource source c.confinement }

theorem Circuit.seededBy_fresh {c : Circuit} (fresh : c = { confinement := c.confinement }) (source : Nat) :
    c.seededBy source = { confinement := (c.seededBy source).confinement } :=
  congrArg (fun d : Circuit => { d with confinement := addSource source c.confinement }) fresh

theorem seedConfinement_circuits (code as : Nat) (subject : Option Nat) (s : State) :
    (seedConfinement code as subject s).circuits = s.circuits
      ∨ (seedConfinement code as subject s).circuits = s.circuits.map (Circuit.seededBy as)
      ∨ ∃ n, (seedConfinement code as subject s).circuits = modAt s.circuits {} n (Circuit.seededBy as) := by
  unfold seedConfinement
  split
  · split
    · exact .inr (.inl rfl)
    · exact .inl rfl
  · next n =>
    split
    iterate 4 exact .inr (.inr ⟨n, rfl⟩)
    all_goals exact .inl rfl

theorem State.Seeded.seedConfinement (h : s.Seeded) (code as : Nat) (subject : Option Nat) :
    (Machine.seedConfinement code as subject s).Seeded := by
  rcases seedConfinement_circuits code as subject s with same | all | ⟨n, one⟩
  · exact h.of_circuits same
  · refine ⟨by rw [all, List.length_map, h.length], fun c mem => ?_⟩
    rw [all] at mem
    obtain ⟨d, held, rfl⟩ := List.mem_map.1 mem
    exact d.seededBy_fresh (h.fresh d held) as
  · refine ⟨by rw [one, length_modAt, h.length], ?_⟩
    rw [one]
    exact all_modAt h.fresh fun fresh => Circuit.seededBy_fresh fresh as

theorem State.Seeded.when {f : State → State} (h : s.Seeded) (b : Bool) (kept : (f s).Seeded) : (when b f s).Seeded := by
  cases b with
  | false => exact h
  | true => exact kept

theorem State.Seeded.seedConfinements (h : s.Seeded) : (Machine.seedConfinements s).Seeded := by
  have all (rs : List FaultRecord) (w : State) (seeded : w.Seeded) : (rs.foldl (fun s r => Machine.when (r.reaction != .report)
      (Machine.seedConfinement r.source r.source r.subject) s) w).Seeded := by
    induction rs generalizing w with
    | nil => exact seeded
    | cons r rs ih => exact ih _ (seeded.when _ (seeded.seedConfinement r.source r.source r.subject))
  simp only [Machine.seedConfinements]
  split
  · exact (all _ s h).when _ ((all _ s h).seedConfinement ..)
  · exact all _ s h

theorem State.Seeded.circuit (h : s.Seeded) (k : Nat) : s.circuit k = { confinement := (s.circuit k).confinement } :=
  nth_all h.fresh rfl k

/-! ### The start -/

/-- The part that a warm start starts from the image, its confinements filled (R159, R170). -/
def warmed (cause : ResetCause) (st : Stored) (s : State) : State :=
  seedConfinements (readImage cause
    (freshState s (some st) s.register (s.tickAt - s.now) (s.faults.warm st.image.reactions)))

theorem warmStart_of_good (stored : s.store.stored = some st) (good : st.good = true) :
    warmStart cause s = startedFrom st.image (warmed cause st s) := by
  have reactions : startReactions s.store.stored = st.image.reactions := by simp only [startReactions, stored, good, if_true]
  rw [warmStart, reactions, stored]
  exact runStart_of_good rfl good

theorem moves_warmed (cause : ResetCause) (st : Stored) (s : State) : Moves seedKinds (readImage cause
    (freshState s (some st) s.register (s.tickAt - s.now) (s.faults.warm st.image.reactions))) (warmed cause st s) :=
  Moves.refl.to_seedConfinements

theorem warmed_circuit (inside : within k 24 = true) (enabled : (i.track k).enabled = true) :
    (startedFrom i (warmed cause st s)).circuit k
      = { state := if ((warmed cause st s).circuit k).confinement = [] then .occupied else .failed
          confinement := ((warmed cause st s).circuit k).confinement } := by
  have seeded : (warmed cause st s).Seeded := State.Seeded.seedConfinements
    (s := readImage cause (freshState s (some st) s.register (s.tickAt - s.now) (s.faults.warm st.image.reactions)))
    ((seeded_freshState (s := s) (some st) s.register (s.tickAt - s.now) (s.faults.warm st.image.reactions)).of_circuits rfl)
  rw [startedFrom_circuit (by rw [seeded.length]; exact inside), Circuit.started, if_pos enabled]
  exact congrArg (fun c : Circuit => { c with
    state := if ((warmed cause st s).circuit k).confinement = [] then .occupied else .failed }) (seeded.circuit k)

theorem warmStartIfDue_of_due (due : s.host.warm = some ⟨cause, true⟩) : warmStartIfDue s = finish (warmStart cause s) := by
  simp only [warmStartIfDue, due]

theorem warmStartIfDue_of_not (none_due : ∀ c, s.host.warm ≠ some ⟨c, true⟩) : warmStartIfDue s = s := by
  cases waits : s.host.warm with
  | none => simp only [warmStartIfDue, waits]
  | some w =>
    obtain ⟨cause, due⟩ := w
    cases due with
    | false => simp only [warmStartIfDue, waits]
    | true => exact absurd waits (none_due cause)

/-- Settles O6: the start reads the image kept, and the blocks start from what the fault table confines. -/
theorem warmStartKeepsRegisterFaultsAndImage : Obligations.WarmStartKeepsRegisterFaultsAndImage := by
  unfold Obligations.WarmStartKeepsRegisterFaultsAndImage
  refine fun s => ⟨fun cause st due stored good => ?_, fun none_due => ?_⟩
  · have seeds := moves_warmed cause st s
    have agreed : (startedFrom st.image (warmed cause st s)).Undisputed := undisputed_startedFrom
      (seeds.undisputed (undisputed_freshState (s := s) (some st) s.register (s.tickAt - s.now) (s.faults.warm st.image.reactions)))
      st.image
    have unstaged : (startedFrom st.image (warmed cause st s)).NoneStaged := noneStaged_startedFrom
      (seeds.unstaged (by decide) (by decide)
        (noneStaged_freshState (s := s) (some st) s.register (s.tickAt - s.now) (s.faults.warm st.image.reactions))).1 st.image
    obtain ⟨store, host⟩ := finish_unstaged agreed unstaged
    obtain ⟨mode, start⟩ := seeds.exactly .mode
    obtain ⟨executing, waiting, -, warm⟩ := seeds.exactly .batch
    obtain ⟨sending, ready, -⟩ := seeds.exactly .transmitter
    have seeded_store : (warmed cause st s).store = _ := seeds.exactly .store
    have register : (warmed cause st s).register = s.register.append (.reset cause) := seeds.exactly .register
    have faults : (warmed cause st s).faults = s.faults.warm st.image.reactions := seeds.exactly .faults
    have kept_host : (finish (startedFrom st.image (warmed cause st s))).host = (warmed cause st s).host := by
      rw [host, show (startedFrom st.image (warmed cause st s)).start.isNone = false from congrArg Option.isNone start]
      exact chooseFrame_of_start sending ready
    have next : exec .warmStart s = .next (finish (startedFrom st.image (warmed cause st s))) := by
      show Host.Outcome.next (warmStartIfDue s) = _
      rw [warmStartIfDue_of_due due, warmStart_of_good stored good]
    refine ⟨_, next, (finish_pending agreed).trans seeds.untouched.2.1,
      (moves_finish agreed unstaged).untouched.2.2.1.trans seeds.untouched.2.2.1, (finish_now agreed).trans seeds.now_eq,
      (finish_register agreed).trans register, ?_, ?_, ?_, ?_, (finish_mode agreed).trans mode, (finish_start agreed).trans start,
      ?_, ?_, ?_, ?_, ?_, fun k inside enabled => ?_⟩
    · rw [finish_faults agreed]
      exact congrArg Faults.records faults
    · rw [finish_faults agreed]
      have count := congrArg Faults.overflowCount faults
      exact count
    · rw [store]
      exact congrArg Store.stored seeded_store
    · rw [store]
      rfl
    · rw [kept_host]
      exact executing
    · rw [kept_host]
      exact waiting
    · rw [kept_host]
      exact ready
    · rw [kept_host]
      exact seeds.exactly .receiver
    · rw [kept_host]
      exact warm
    · rw [finish_circuit agreed, warmed_circuit inside enabled]
      exact ⟨rfl, rfl, rfl, rfl⟩
  · exact congrArg Host.Outcome.next (warmStartIfDue_of_not none_due)

end Sys2Proof.Machine
end

section
/-! What a command that is refused, or that waits, leaves of the part (R177, R178). -/

set_option Elab.async false

namespace Sys2Proof.Machine

variable {s u v w : State} {r q : Ran} {ks : List Kind} {p : Prop} {waiter : Waiter} {table record field value : Nat}

/-! ### Commands that are refused or wait -/

/-- Whether what a block makes of a command changes nothing where it is refused, and no flag where it waits. -/
structure Ran.Mild (s : State) (r : Ran) : Prop where
  refused : ∀ reason data, r.2 = .refused reason data → r.1 = s
  waits : r.2 = .waits → r.1.host.flags = s.host.flags

theorem mild_refused (reason : RefuseReason) (data : List Byte) (s : State) : Ran.Mild s (s, .refused reason data) :=
  ⟨fun _ _ _ => rfl, nofun⟩

theorem mild_refuse (reason : RefuseReason) (s : State) : Ran.Mild s (refuse reason s) := mild_refused reason [] s

theorem mild_done (data : List Byte) (s v : State) : Ran.Mild s (v, .done data) := ⟨nofun, nofun⟩

theorem mild_reply (data : List Byte) (s v : State) : Ran.Mild s (reply data v) := mild_done data s v

theorem mild_waits (moves : Moves ks s v) (away : .flags ∉ ks := by decide) : Ran.Mild s (v, .waits) :=
  ⟨nofun, fun _ => moves.flags_eq away⟩

theorem Ran.Mild.ite [Decidable p] (h : Ran.Mild s r) (g : Ran.Mild s q) : Ran.Mild s (if p then r else q) := by
  split
  · exact h
  · exact g

theorem mild_read (first count most last : Nat) (record : State → Nat → List Byte) (s : State) :
    Ran.Mild s (read first count most last record s) := .ite (mild_reply _ s s) (mild_refuse _ s)

theorem mild_test (ok : Bool) (f : Nat) (found : Bool) (data : List Byte) (s : State) : Ran.Mild s (test ok f found data s) :=
  .ite (mild_done _ s _) (mild_refuse _ s)

/-! ### The blocks, command by command -/

theorem mild_cmdLearn (k : Nat) (s : State) : Ran.Mild s (cmdLearn k s) :=
  .ite (mild_refuse _ s) (.ite (mild_refuse _ s) (.ite (mild_refuse _ s) (mild_reply _ s _)))

theorem mild_cmdTakeOut (waiter : Waiter) (k : Nat) (s : State) : Ran.Mild s (cmdTakeOut waiter k s) := by
  have moves : Moves [.note, .lever, .evaluate, .tables, .jobs] s (evaluateNamingLever k (evaluate k (s.takenOut waiter k))) :=
    ((((Moves.refl.to_changeLever k _ ⟨⟨id, id⟩, rfl, rfl, rfl, rfl, rfl, rfl⟩).to_modTables _).to_queueJob _ _).to_evaluate
      k).to_evaluateNamingLever k
  exact .ite (mild_refuse _ s) (.ite (mild_refuse _ s) (.ite (mild_refuse _ s) (.ite (mild_refuse _ s) (.ite (mild_refuse _ s)
    (mild_waits moves)))))

theorem mild_cmdBringIn (waiter : Waiter) (k : Nat) (s : State) : Ran.Mild s (cmdBringIn waiter k s) := by
  unfold cmdBringIn
  refine .ite (mild_refuse _ s) (.ite (mild_refuse _ s) (.ite (mild_refuse _ s) (.ite (mild_refuse _ s) ?_)))
  split
  · exact mild_refused _ _ s
  · exact mild_waits (Moves.refl (ks := [.jobs]).to_queueJob _ _)

theorem mild_cmdRequestRelease (k : Nat) (s : State) : Ran.Mild s (cmdRequestRelease k s) :=
  .ite (mild_refuse _ s) (.ite (mild_refuse _ s) (.ite (mild_refuse _ s) (.ite (mild_refuse _ s) (mild_reply _ s _))))

theorem mild_cmdCancelRelease (k : Nat) (s : State) : Ran.Mild s (cmdCancelRelease k s) :=
  .ite (mild_refuse _ s) (.ite (mild_refuse _ s) (.ite (mild_refuse _ s) (mild_reply _ s _)))

theorem mild_cmdSendCode (k : Nat) (groups : List Nat) (s : State) : Ran.Mild s (cmdSendCode k groups s) :=
  .ite (mild_refuse _ s) (.ite (mild_refuse _ s) (.ite (mild_refuse _ s) (mild_reply _ s _)))

theorem mild_cmdSetClock (day tenths : Nat) (s : State) : Ran.Mild s (cmdSetClock day tenths s) :=
  .ite (mild_refuse _ s) (mild_reply _ s _)

theorem mild_cmdReadFaults (first count : Nat) (s : State) : Ran.Mild s (cmdReadFaults first count s) :=
  .ite (mild_refuse _ s) (mild_reply _ s _)

theorem mild_cmdTestFault (f c n wanted : Nat) (s : State) : Ran.Mild s (cmdTestFault f c n wanted s) := by
  unfold cmdTestFault
  split
  · exact mild_refuse _ s
  · exact mild_test _ _ _ _ s

theorem mild_cmdClearFault (c n : Nat) (s : State) : Ran.Mild s (cmdClearFault c n s) := by
  unfold cmdClearFault
  split
  · exact mild_refuse _ s
  · refine .ite (.ite (mild_refuse _ s) (mild_reply _ s _)) ?_
    split
    · exact mild_refuse _ s
    · exact .ite (mild_refuse _ s) (mild_reply _ s _)

theorem mild_cmdResume (s : State) : Ran.Mild s (cmdResume s) := .ite (mild_refuse _ s) (mild_reply _ s _)

theorem mild_cmdOpenEdit (s : State) : Ran.Mild s (cmdOpenEdit s) :=
  .ite (mild_refuse _ s) (.ite (mild_refuse _ s) (.ite (mild_refuse _ s) (.ite (mild_refuse _ s) (mild_reply _ s _))))

theorem mild_writeValue (waiter : Waiter) (record : Nat) (x : Value) (s : State) :
    Ran.Mild s (writeValue waiter record x s) := by
  refine .ite (.ite (mild_refuse _ s) (mild_reply _ s _)) ?_
  cases x with
  | cond c => exact mild_reply _ s _
  | code r =>
    cases repeated : duplicateOf (s.tables.page (record / 256)) (record % 256) r.pattern with
    | some j => simp only [repeated]; exact mild_refused _ _ s
    | none => simp only [repeated]; exact mild_waits (Moves.refl (ks := [.jobs]).to_queueJob _ _)
  | _ => exact mild_refuse _ s

theorem mild_cmdWriteTable (waiter : Waiter) (table record : Nat) (fields : List Byte) (s : State) :
    Ran.Mild s (cmdWriteTable waiter table record fields s) := by
  unfold cmdWriteTable
  refine .ite (mild_refuse _ s) (.ite (mild_refuse _ s) ?_)
  split
  · exact mild_refuse _ s
  · split
    · exact mild_refuse _ s
    · exact mild_writeValue waiter record _ s

theorem mild_cmdReadTable (table record : Nat) (s : State) : Ran.Mild s (cmdReadTable table record s) :=
  .ite (mild_refuse _ s) (.ite (mild_refuse _ s) (.ite (mild_reply _ s s) (.ite (mild_reply _ s s) (mild_reply _ s s))))

theorem mild_cmdCommit (waiter : Waiter) (s : State) : Ran.Mild s (cmdCommit waiter s) := by
  unfold cmdCommit
  refine .ite (mild_refuse _ s) (.ite (mild_refuse _ s) (.ite (mild_refuse _ s) ?_))
  split
  · exact mild_refused _ _ s
  · exact mild_waits (Moves.refl (ks := [.jobs]).to_queueJob _ _)

theorem mild_cmdAbandon (s : State) : Ran.Mild s (cmdAbandon s) :=
  .ite (mild_refuse _ s) (.ite (mild_refuse _ s) (mild_reply _ s _))

theorem mild_cmdStage (table record field : Nat) (bytes : List Byte) (s : State) :
    Ran.Mild s (cmdStage table record field bytes s) := by
  unfold cmdStage
  refine .ite (mild_refuse _ s) (.ite (mild_refuse _ s) (.ite (mild_refuse _ s) (.ite (mild_refuse _ s) ?_)))
  split
  · exact mild_refuse _ s
  · split
    · exact .ite (mild_refuse _ s) (.ite (mild_refuse _ s) (mild_reply _ s _))
    · exact .ite (mild_refuse _ s) (.ite (mild_refuse _ s) (mild_reply _ s _))
    · exact .ite (mild_refuse _ s) (.ite (mild_refuse _ s) (mild_reply _ s _))
    · exact .ite (mild_refuse _ s) (.ite (mild_refuse _ s) (.ite (mild_refuse _ s) (mild_reply _ s _)))
    · exact .ite (mild_refuse _ s) (.ite (mild_refuse _ s) (mild_reply _ s _))

theorem mild_cmdRunTest (waiter : Waiter) (n : Nat) (s : State) : Ran.Mild s (cmdRunTest waiter n s) := by
  have link : Moves [.link] s (beginLoopback n (.host waiter) s) := Moves.refl.to_beginLoopback n _
  refine .ite (.ite (mild_refuse _ s) (.ite (mild_refuse _ s) ?_))
    (.ite (mild_refuse _ s) (.ite (mild_refuse _ s) (.ite (mild_refuse _ s) (.ite (mild_refuse _ s) (.ite (mild_refuse _ s)
      (mild_waits link))))))
  have table : Moves (.converter :: raiseKinds) s (requestReferences (.table waiter (signaturePasses s)) (checkSignature s)) :=
    Moves.refl.to_checkSignature.to_requestReferences _
  exact mild_waits table

/-- Every command. -/
theorem mild_runCommand (waiter : Waiter) (code : Nat) (params : List Byte) (s : State) :
    Ran.Mild s (runCommand waiter code params s) := by
  simp only [runCommand]
  split
  · exact mild_read ..
  · exact mild_test ..
  · exact mild_cmdLearn ..
  · exact mild_read ..
  · exact mild_test ..
  · exact mild_cmdTakeOut ..
  · exact mild_cmdBringIn ..
  · exact mild_read ..
  · exact mild_test ..
  · exact mild_read ..
  · exact mild_cmdRequestRelease ..
  · exact mild_cmdCancelRelease ..
  · exact mild_cmdSendCode ..
  · exact mild_read ..
  · exact mild_test ..
  · exact mild_cmdRunTest ..
  · exact mild_reply ..
  · exact mild_reply ..
  · exact mild_cmdSetClock ..
  · exact mild_cmdReadFaults ..
  · exact mild_cmdTestFault ..
  · exact mild_cmdClearFault ..
  · exact mild_cmdResume ..
  · exact mild_cmdOpenEdit ..
  · exact mild_cmdWriteTable ..
  · exact mild_cmdReadTable ..
  · exact mild_cmdCommit ..
  · exact mild_cmdAbandon ..
  · exact mild_cmdStage ..
  · exact mild_reply ..
  · exact mild_reply ..
  · exact mild_refuse ..

end Sys2Proof.Machine
end

section
/-! The turns of a batch (R177, R178, R179). -/

set_option Elab.async false

namespace Sys2Proof.Machine

variable {s u v w : State} {ks : List Kind} {b : Batch} {c : Command} {cs : List Command} {r : CmdResult} {skip : Bool}
  {code : ResultCode} {data : List Byte} {cause : ResetCause} {reason : RefuseReason} {q : Request}

/-! ### The places of the Host Port -/

/-- The batch that executes, the request that waits, and the warm start due. -/
def HostPort.places (h : HostPort) : Option Batch × Option Request × Option WarmDue := (h.executing, h.waiting, h.warm)

theorem Leaves.places_eq {ps : List Part} (h : Leaves ps s u) (away : .batch ∉ ps := by decide) :
    u.host.places = s.host.places := by
  obtain ⟨executing, waiting, -, warm⟩ := h.2.2.2 .batch away
  rw [HostPort.places, executing, waiting, warm]
  rfl

/-- Moves of no kind `batch` leave the places. -/
theorem Moves.places_eq (h : Moves ks s u) (away : .batch ∉ ks := by decide) : u.host.places = s.host.places := by
  induction h with
  | refl => rfl
  | eval k _ _ ih => exact (leaves_evaluate k _).places_eq.trans (ih away)
  | relever k g _ _ _ _ noted ih =>
    exact (leaves_evaluate k _).places_eq.trans ((noted (by decide)).trans
      ((leaves_changeLever k g _).places_eq.trans (ih away)))
  | cause c subject _ _ _ confined ih =>
    have counted := (confined (by decide)).trans ((leaves_append _ _).places_eq.trans
      ((leaves_countOccurrence c subject _).places_eq.trans (ih away)))
    unfold suspendFor
    split
    · exact ((leaves_restrict _ _).places_eq (by simp [Kind.parts])).trans counted
    · exact counted
  | restrict m _ _ _ ih => exact ((leaves_restrict m _).places_eq (by simp [Kind.parts])).trans (ih away)
  | serve m _ _ _ ih => exact ((leaves_serve m _).places_eq (by simp [Kind.parts])).trans (ih away)
  | host g alters _ ih =>
    obtain ⟨executing, waiting, warm⟩ := alters.1.resolve_left away
    exact (Prod.ext executing (Prod.ext waiting warm)).trans (ih away)
  | _ =>
    rename_i ih
    exact ih away

/-- A batch's command at its turn, with the port's check. -/
structure Ran.AtTurn (s : State) (ran : Ran) : Prop where
  moves : Moves commandKinds s ran.1
  mild : Ran.Mild s ran

theorem runChecked_atTurn (count : Nat) (rs : List CmdResult) (c : Command) (s : State) :
    Ran.AtTurn s (runChecked count rs c s) := by
  unfold runChecked
  split
  · exact ⟨.refl, mild_refuse _ s⟩
  · exact ⟨Moves.refl.to_runCommand .batch c.code c.params, mild_runCommand .batch c.code c.params s⟩

/-! ### What a turn does -/

/-- The batch, its next command taken from those to come. -/
def Batch.later (b : Batch) (cs : List Command) : Batch := { b with rest := cs }

/-- The batch that waits for a command. -/
def Batch.waitsFor (b : Batch) (c : Command) (cs : List Command) : Batch :=
  { b with rest := cs, awaited := some c, skip := false }

theorem takeTurn_of_none (rest : b.rest = []) : takeTurn b s = endBatch b.tag b.results none s := by
  simp only [takeTurn, rest]

section
variable (rest : b.rest = c :: cs)
include rest

theorem takeTurn_passed (passed : passedOver s b.halt b.skip b.results c = some code) :
    takeTurn b s = giveResult (b.later cs) ⟨c.code, code, .none, []⟩ (paired c.guard && code == .skipped) s := by
  simp only [takeTurn, rest, passed]
  rfl

variable (taken : passedOver s b.halt b.skip b.results c = none)
include taken

theorem takeTurn_done (ran : runChecked b.count b.results c s = (v, .done data)) (goes_on : endsBatch c.code = none) :
    takeTurn b s = giveResult (b.later cs) ⟨c.code, .done, .none, data⟩ false v := by
  simp only [takeTurn, rest, taken, ran, goes_on]
  rfl

theorem takeTurn_ending (ran : runChecked b.count b.results c s = (v, .done data)) (ends : endsBatch c.code = some cause) :
    takeTurn b s = cutBatch (b.later cs) ⟨c.code, .done, .none, data⟩ cause v := by
  simp only [takeTurn, rest, taken, ran, ends]
  rfl

theorem takeTurn_refused (ran : runChecked b.count b.results c s = (v, .refused reason data)) :
    takeTurn b s = giveResult (b.later cs) (refusedResult c.code reason data) false v := by
  simp only [takeTurn, rest, taken, ran]
  rfl

theorem takeTurn_waits (ran : runChecked b.count b.results c s = (v, .waits)) :
    takeTurn b s = v.modHost (HostPort.executes (b.waitsFor c cs)) := by
  simp only [takeTurn, rest, taken, ran]
  rfl

end

/-- The two shapes a turn leaves: a result given, or none yet (R177), from the state `v` in which the command leaves the
blocks. -/
inductive Turned (b : Batch) (c : Command) (cs : List Command) (v : State) : State → Prop
  | given (r : CmdResult) (skip : Bool) (own : r.code = c.code) : Turned b c cs v (giveResult (b.later cs) r skip v)
  | cut (r : CmdResult) (cause : ResetCause) (own : r.code = c.code) : Turned b c cs v (cutBatch (b.later cs) r cause v)
  | waits : Turned b c cs v (v.modHost (HostPort.executes (b.waitsFor c cs)))

theorem takeTurn_turned (rest : b.rest = c :: cs) (s : State) :
    ∃ v, Moves commandKinds s v ∧ Turned b c cs v (takeTurn b s) := by
  cases passed : passedOver s b.halt b.skip b.results c with
  | some code => exact ⟨s, .refl, takeTurn_passed rest passed ▸ .given _ _ rfl⟩
  | none =>
    obtain ⟨moves, -⟩ := runChecked_atTurn b.count b.results c s
    rcases ran : runChecked b.count b.results c s with ⟨v, done | refused | _⟩
    · rw [ran] at moves
      cases ends : endsBatch c.code with
      | none => exact ⟨v, moves, takeTurn_done rest passed ran ends ▸ .given _ _ rfl⟩
      | some cause => exact ⟨v, moves, takeTurn_ending rest passed ran ends ▸ .cut _ _ rfl⟩
    · rw [ran] at moves
      exact ⟨v, moves, takeTurn_refused rest passed ran ▸ .given _ _ rfl⟩
    · rw [ran] at moves
      exact ⟨v, moves, takeTurn_waits rest passed ran ▸ .waits⟩

end Sys2Proof.Machine
end

section
/-! The turns before a row run out (R177). -/

set_option Elab.async false

namespace Sys2Proof.Machine

variable {s u v w : State} {b : Batch} {c : Command} {cs : List Command} {r : CmdResult} {skip : Bool} {n : Nat}

theorem turnDue_eq_some (due : turnDue s = some b) : s.host.warm = none ∧ s.host.executing = some b ∧ b.awaited = none := by
  unfold turnDue at due
  split at due
  · cases due
  · next cold =>
    obtain ⟨executing, awaited⟩ := Option.filter_eq_some_iff.1 due
    exact ⟨by simpa using cold, executing, by simpa using awaited⟩

theorem turnDue_of (cold : s.host.warm = none) (executing : s.host.executing = some b) (awaited : b.awaited = none) :
    turnDue s = some b := by
  simp [turnDue, cold, executing, awaited, Option.filter]

/-- The turns of the request that waits. -/
def waitingTurns (s : State) : Nat := (s.host.waiting.map fun r => r.commands.length + 2).getD 0

theorem turnsLeft_of_executing (executing : s.host.executing = some b) : turnsLeft s = b.rest.length + 1 + waitingTurns s := by
  simp only [turnsLeft, executing, Option.map_some, Option.getD_some, waitingTurns]

theorem turnsLeft_of_none (executing : s.host.executing = none) : turnsLeft s = waitingTurns s := by
  simp only [turnsLeft, executing, Option.map_none, Option.getD_none, Nat.zero_add, waitingTurns]

theorem turnsLeft_of_places (same : u.host.places = s.host.places) : turnsLeft u = turnsLeft s ∧ turnDue u = turnDue s := by
  have executing : u.host.executing = s.host.executing := congrArg Prod.fst same
  have rest := congrArg Prod.snd same
  have waiting : u.host.waiting = s.host.waiting := congrArg Prod.fst rest
  have warm : u.host.warm = s.host.warm := congrArg Prod.snd rest
  exact ⟨by rw [turnsLeft, turnsLeft, executing, waiting], by rw [turnDue, turnDue, executing, warm]⟩

theorem finish_places (v : State) : (finish v).host.places = v.host.places :=
  (Moves.refl (ks := finishKinds)).to_finish.places_eq

/-- The request that waits has its turns counted before it begins. -/
theorem turnsLeft_advanceQueue (w : State) : turnsLeft (advanceQueue w) ≤ turnsLeft w := by
  unfold advanceQueue
  split
  · next r executing waiting _ =>
    rw [turnsLeft_of_none executing, waitingTurns, waiting]
    exact Nat.le_succ (r.commands.length + 1)
  · exact le_rfl

theorem turnsLeft_turned (turned : Turned b c cs v u) : turnsLeft u ≤ cs.length + 1 + waitingTurns v := by
  cases turned with
  | given r skip _ =>
    by_cases more : cs = []
    · have ended : giveResult (b.later cs) r skip v = endBatch b.tag (b.results ++ [r]) none v := if_pos more
      rw [ended]
      exact (turnsLeft_of_none (s := endBatch b.tag (b.results ++ [r]) none v) rfl).le.trans (Nat.le_add_left _ _)
    · have goes_on : giveResult (b.later cs) r skip v = v.modHost (HostPort.executes ((b.later cs).given r skip)) := if_neg more
      rw [goes_on]
      exact (turnsLeft_of_executing (s := v.modHost (HostPort.executes ((b.later cs).given r skip))) rfl).le
  | cut r cause _ =>
    exact (turnsLeft_of_none (s := cutBatch (b.later cs) r cause v) rfl).le.trans (Nat.zero_le _)
  | waits => exact (turnsLeft_of_executing (s := v.modHost (HostPort.executes (b.waitsFor c cs))) rfl).le

theorem turnsLeft_idle (due : turnDue s = some b) : turnsLeft (idle s) < turnsLeft s := by
  obtain ⟨cold, executing, awaited⟩ := turnDue_eq_some due
  have next : idle s = finish (advanceQueue (takeTurn b s)) := by simp only [idle, nextTurn, due]
  rw [next, (turnsLeft_of_places (finish_places _)).1, turnsLeft_of_executing executing]
  refine (turnsLeft_advanceQueue _).trans_lt ?_
  cases rest : b.rest with
  | nil =>
    rw [takeTurn_of_none rest]
    exact (turnsLeft_of_none (s := endBatch b.tag b.results none s) rfl).le.trans_lt
      (show waitingTurns s < 0 + 1 + waitingTurns s by omega)
  | cons c cs =>
    obtain ⟨v, moves, turned⟩ := takeTurn_turned rest s
    have waiting : v.host.waiting = s.host.waiting := congrArg (·.2.1) (moves.places_eq (by decide))
    have same : waitingTurns v = waitingTurns s := by rw [waitingTurns, waitingTurns, waiting]
    have bound := turnsLeft_turned turned
    rw [same] at bound
    rw [List.length_cons]
    omega

/-- As many turns as are left leave none due. -/
theorem turnDue_takeTurns (enough : turnsLeft s ≤ n) : turnDue (takeTurns n s) = none := by
  induction n generalizing s with
  | zero =>
    show turnDue s = none
    by_contra due
    exact absurd (turnsLeft_pos due) (by omega)
  | succ n ih =>
    cases due : turnDue s with
    | none =>
      rw [takeTurns_of_none due]
      exact due
    | some b => exact ih (s := idle s) (Nat.le_of_lt_succ ((turnsLeft_idle due).trans_le enough))

/-- A row later than the running time finds no turn due. -/
theorem turnDue_comeTo {t : Time} (later : s.now < t) : turnDue (s.comeTo t) = none := by
  rw [State.comeTo, if_pos later]
  exact turnDue_takeTurns (s := s) le_rfl

end Sys2Proof.Machine
end

section
/-! The turn of a batch's next command, as a step of an empty queue (R177, R178, R179). -/

set_option Elab.async false

namespace Sys2Proof.Machine

variable {s u v w : State} {b : Batch} {c : Command} {cs : List Command} {r : CmdResult} {skip : Bool} {f : OutFrame}
  {ks : List Kind} {ps : List Part} {cause : ResetCause}

theorem atTime_now (s : State) : s.atTime s.now = s := by
  show { s with now := max s.now s.now } = s
  rw [max_self]

/-- What the end of a step leaves, where moves have led to it. -/
theorem keptBut_finish (moves : Moves ks s v) (agreed : v.Undisputed)
    (parts : ∀ k ∈ ks, ∀ q ∈ k.main, q ∈ ps := by decide)
    (lasting : Kind.stage ∉ ks ∧ .begin ∉ ks := by decide)
    (stored : Part.store ∈ ps ∨ (Kind.store ∉ ks ∧ .tables ∉ ks ∧ .jobs ∉ ks) := by decide)
    (quiet : (∃ p ∈ ps, p.silent = false) ∨ ∀ k ∈ ks, Part.transmitter ∉ k.parts := by decide) :
    KeptBut ps s (finish v) :=
  Moves.keptBut (f := fun _ => v) s.now ((atTime_now s).symm ▸ moves) agreed parts lasting stored quiet

/-- Whether a command's block has left the Host Port as the step found it, but for the flags and the notices. -/
structure LeavesPort (s v : State) : Prop where
  places : v.host.places = s.host.places
  frames : v.host.frames = s.host.frames

theorem Moves.leavesPort (moves : Moves commandKinds s v) : LeavesPort s v := ⟨moves.places_eq, moves.frames_eq⟩

theorem LeavesPort.waiting (h : LeavesPort s v) : v.host.waiting = s.host.waiting := congrArg (·.2.1) h.places
theorem LeavesPort.warm (h : LeavesPort s v) : v.host.warm = s.host.warm := congrArg (·.2.2) h.places
theorem LeavesPort.sending (h : LeavesPort s v) : v.host.sending = s.host.sending := congrArg (·.1) h.frames
theorem LeavesPort.ready (h : LeavesPort s v) : v.host.ready = s.host.ready := congrArg (·.2) h.frames

/-- The flags and the warm start at the end of the step in which a batch is given a result. -/
theorem finish_given_flags (agreed : (advanceQueue (giveResult (b.later cs) r skip v)).Undisputed) (cold : v.host.warm = none) :
    (finish (advanceQueue (giveResult (b.later cs) r skip v))).host.warm = none
      ∧ (cs ≠ [] ∨ v.host.waiting = none →
        (finish (advanceQueue (giveResult (b.later cs) r skip v))).host.flags = v.host.flags) := by
  by_cases more : cs = []
  · have given := advanceQueue_giveResult_of_last (b := b.later cs) (r := r) (skip := skip) more cold
    rw [given] at agreed ⊢
    refine ⟨(finish_warm agreed).trans cold, fun alone => (finish_flags agreed).trans (if_neg ?_)⟩
    rw [alone.resolve_left fun some_left => some_left more]
    exact Bool.false_ne_true
  · have given := advanceQueue_giveResult_of_more (b := b.later cs) (r := r) (skip := skip) (s := v) more
    rw [given] at agreed ⊢
    exact ⟨(finish_warm agreed).trans cold, fun _ => finish_flags agreed⟩

section
variable (undisputed : s.Undisputed) (empty : s.pending = []) (sending : s.host.sending = some f) (cold : s.host.warm = none)
  (executing : s.host.executing = some b) (awaited : b.awaited = none)
include undisputed empty sending cold executing awaited

omit undisputed sending in
theorem step_turn : step s = .next (finish (advanceQueue (takeTurn b s))) := by
  simp only [step, empty, idle, nextTurn, turnDue_of cold executing awaited]

/-- A turn at which the command has its result at once. -/
theorem step_gives (turn : takeTurn b s = giveResult (b.later cs) r skip v) (moves : Moves commandKinds s v) :
    ∃ u, step s = .next u ∧ u.now = s.now ∧ (cs ≠ [] ∨ s.host.waiting = none → u.host.flags = v.host.flags)
      ∧ GivenResult b cs r skip s u
      ∧ (v = s → u.host.warm = none ∧ (cs ≠ [] → KeptBut [.batch] s u) ∧ (cs = [] → KeptBut [.batch, .transmitter] s u)) := by
  have port := moves.leavesPort
  have v_cold := port.warm.trans cold
  have whole : Moves (.batch :: .transmit :: commandKinds) s (advanceQueue (giveResult (b.later cs) r skip v)) :=
    (moves.mono (by simp +contextual)).trans (moves_given.mono (by simp))
  have agreed := whole.undisputed undisputed
  obtain ⟨u_cold, flags⟩ := finish_given_flags agreed v_cold
  have next := step_turn empty cold executing awaited
  rw [turn] at next
  refine ⟨_, next, (finish_now agreed).trans whole.now_eq, fun alone => flags (alone.imp_right port.waiting.trans),
    finish_gives agreed v_cold port.waiting port.ready (port.sending.trans sending), ?_⟩
  rintro rfl
  exact ⟨u_cold, fun more => keptBut_finish (moves_given_of_more (b := b.later cs) more) agreed,
    fun _ => keptBut_finish moves_given agreed⟩

/-- A turn at which the command ends its batch with a warm start. -/
theorem step_cuts (turn : takeTurn b s = cutBatch (b.later cs) r cause v) (moves : Moves commandKinds s v) :
    ∃ u, step s = .next u ∧ u.now = s.now ∧ u.host.executing = none ∧ u.host.waiting = none
      ∧ u.host.warm = some ⟨cause, false⟩ ∧ u.host.ready = s.host.ready ++ [(b.later cs).cutReply r] := by
  have port := moves.leavesPort
  have whole : Moves (.batch :: .transmit :: commandKinds) s (cutBatch (b.later cs) r cause v) :=
    (moves.mono (by simp +contextual)).trans ((moves_cutBatch _ _ _ _).mono (by simp))
  have agreed := whole.undisputed undisputed
  have next := step_turn empty cold executing awaited
  rw [turn] at next
  obtain ⟨ended, none_waits, warm, ready⟩ := finish_cuts (f := f) agreed (port.sending.trans sending)
  refine ⟨_, next, (finish_now agreed).trans whole.now_eq, ended, none_waits, warm, ready.trans ?_⟩
  rw [port.ready]

omit sending in
/-- A turn at which the command waits. -/
theorem step_waits (turn : takeTurn b s = v.modHost (HostPort.executes (b.waitsFor c cs))) (moves : Moves commandKinds s v)
    (flags : v.host.flags = s.host.flags) :
    ∃ u, step s = .next u ∧ u.now = s.now ∧ u.host.flags = s.host.flags ∧ u.host.waiting = s.host.waiting
      ∧ u.host.executing = some (b.waitsFor c cs) := by
  have port := moves.leavesPort
  have whole : Moves (.batch :: .transmit :: commandKinds) s (v.modHost (HostPort.executes (b.waitsFor c cs))) :=
    (moves.mono (by simp +contextual)).to_modHost _
      ⟨.inl (by decide), .inr rfl, .inr rfl, .inr ⟨rfl, rfl, rfl⟩, .inr rfl, id, id⟩
  have agreed := whole.undisputed undisputed
  have next := step_turn empty cold executing awaited
  rw [turn] at next
  exact ⟨_, next, (finish_now agreed).trans whole.now_eq, (finish_flags agreed).trans flags,
    (finish_waiting agreed).trans port.waiting, finish_executing agreed⟩

end

end Sys2Proof.Machine
end

section
/-! Which way a turn goes (R177, R178). -/

set_option Elab.async false

namespace Sys2Proof.Machine

variable {s u v w : State} {b : Batch} {c : Command} {cs : List Command} {r : CmdResult} {skip halted : Bool} {f : OutFrame}
  {reason : RefuseReason} {data : List Byte} {cause : ResetCause}

theorem guardPasses_iff {g : Byte} :
    guardPasses s g = true ↔ guarded g = false ∨ flag s (guardFlag g) = guardSense g := by
  simp [guardPasses]

/-- R177, cases 1 to 3. -/
theorem passedOver_of_barred (is : halted = (b.halt && b.results.any fun r => r.result == .refused))
    (barred : halted = true ∨ b.skip = true ∨ (guarded c.guard = true ∧ flag s (guardFlag c.guard) ≠ guardSense c.guard)) :
    passedOver s b.halt b.skip b.results c = some (if halted = true then .notRun else .skipped) := by
  cases halted with
  | true => exact if_pos is.symm
  | false =>
    refine (if_neg (by rw [← is]; exact Bool.false_ne_true)).trans ?_
    rcases barred with on | on | ⟨watched, wrong⟩
    · cases on
    · exact if_pos on
    · by_cases on : b.skip = true
      · exact if_pos on
      · refine (if_neg on).trans (if_neg fun passes => ?_)
        rcases guardPasses_iff.1 passes with free | right
        · exact Bool.false_ne_true (free.symm.trans watched)
        · exact wrong right

/-- R177, case 4. -/
theorem passedOver_of_free (is : false = (b.halt && b.results.any fun r => r.result == .refused)) (unpaired : b.skip = false)
    (passes : guarded c.guard = false ∨ flag s (guardFlag c.guard) = guardSense c.guard) :
    passedOver s b.halt b.skip b.results c = none := by
  refine (if_neg (by rw [← is]; exact Bool.false_ne_true)).trans ?_
  exact (if_neg (by rw [unpaired]; exact Bool.false_ne_true)).trans (if_pos (guardPasses_iff.2 passes))

theorem runChecked_of_refused {count : Nat} {rs : List CmdResult} (refused : portCheck count rs c = some reason) (s : State) :
    runChecked count rs c s = (s, .refused reason []) := by
  simp only [runChecked, refused]
  rfl

theorem runChecked_of_passed {count : Nat} {rs : List CmdResult} (passed : portCheck count rs c = none) (s : State) :
    runChecked count rs c s = runCommand .batch c.code c.params s := by
  simp only [runChecked, passed]

section
variable (undisputed : s.Undisputed) (empty : s.pending = []) (sending : s.host.sending = some f) (cold : s.host.warm = none)
  (executing : s.host.executing = some b) (awaited : b.awaited = none) (rest : b.rest = c :: cs)
include undisputed empty sending cold executing awaited rest

/-- A command that does not run. -/
theorem step_passesOver {result : ResultCode} (is : halted = (b.halt && b.results.any fun r => r.result == .refused))
    (results : result = if halted = true then .notRun else .skipped)
    (barred : halted = true ∨ b.skip = true ∨ (guarded c.guard = true ∧ flag s (guardFlag c.guard) ≠ guardSense c.guard)) :
    ∃ u, step s = .next u ∧ u.now = s.now ∧ (cs ≠ [] ∨ s.host.waiting = none → u.host.flags = s.host.flags)
      ∧ GivenResult b cs ⟨c.code, result, .none, []⟩ (paired c.guard && !halted) s u
      ∧ (cs ≠ [] → KeptBut [.batch] s u ∧ u.host.warm = none)
      ∧ (cs = [] → KeptBut [.batch, .transmitter] s u ∧ u.host.warm = none) := by
  have skipped : (result == .skipped) = !halted := by
    rw [results]
    cases halted <;> rfl
  have turn := takeTurn_passed rest ((passedOver_of_barred is barred).trans (congrArg some results.symm))
  rw [skipped] at turn
  obtain ⟨u, next, now, flags, given, same⟩ := step_gives undisputed empty sending cold executing awaited turn .refl
  obtain ⟨u_cold, more, last⟩ := same rfl
  exact ⟨u, next, now, flags, given, fun some_left => ⟨more some_left, u_cold⟩, fun none_left => ⟨last none_left, u_cold⟩⟩

variable (is : false = (b.halt && b.results.any fun r => r.result == .refused)) (unpaired : b.skip = false)
  (passes : guarded c.guard = false ∨ flag s (guardFlag c.guard) = guardSense c.guard)
include is unpaired passes

/-- A command that is refused, by the port or by its block, changes nothing but its batch. -/
theorem step_refuses (ran : runChecked b.count b.results c s = (s, .refused reason data)) :
    ∃ u, step s = .next u ∧ u.now = s.now ∧ (cs ≠ [] ∨ s.host.waiting = none → u.host.flags = s.host.flags)
      ∧ GivenResult b cs (refusedResult c.code reason data) false s u ∧ (cs ≠ [] → KeptBut [.batch] s u) := by
  have turn := takeTurn_refused rest (passedOver_of_free is unpaired passes) ran
  obtain ⟨u, next, now, flags, given, same⟩ := step_gives undisputed empty sending cold executing awaited turn .refl
  exact ⟨u, next, now, flags, given, (same rfl).2.1⟩

/-- A command that runs. -/
theorem step_runs (passed : portCheck b.count b.results c = none) {ran : Ran}
    (runs : ran = runCommand .batch c.code c.params s) :
    (∀ data, ran.2 = .done data → endsBatch c.code = none →
        ∃ u, step s = .next u ∧ u.now = s.now ∧ (cs ≠ [] ∨ s.host.waiting = none → u.host.flags = ran.1.host.flags)
          ∧ GivenResult b cs ⟨c.code, .done, .none, data⟩ false s u)
      ∧ (∀ data cause, ran.2 = .done data → endsBatch c.code = some cause →
        ∃ u, step s = .next u ∧ u.now = s.now ∧ u.host.executing = none ∧ u.host.waiting = none
          ∧ u.host.warm = some ⟨cause, false⟩
          ∧ u.host.ready = s.host.ready ++ [(b.later cs).cutReply ⟨c.code, .done, .none, data⟩])
      ∧ (∀ reason data, ran.2 = .refused reason data →
        ∃ u, step s = .next u ∧ u.now = s.now ∧ (cs ≠ [] ∨ s.host.waiting = none → u.host.flags = s.host.flags)
          ∧ GivenResult b cs (refusedResult c.code reason data) false s u ∧ (cs ≠ [] → KeptBut [.batch] s u))
      ∧ (ran.2 = .waits →
        ∃ u, step s = .next u ∧ u.now = s.now ∧ u.host.flags = s.host.flags ∧ u.host.waiting = s.host.waiting
          ∧ u.host.executing = some (b.waitsFor c cs)) := by
  have taken := passedOver_of_free is unpaired passes
  have checked := (runChecked_of_passed (count := b.count) (rs := b.results) passed s).trans runs.symm
  obtain ⟨moves, mild⟩ := runChecked_atTurn b.count b.results c s
  rw [checked] at moves mild
  obtain ⟨v, answer⟩ := ran
  refine ⟨?_, ?_, ?_, ?_⟩
  · rintro data rfl goes_on
    obtain ⟨u, next, now, flags, given, -⟩ :=
      step_gives undisputed empty sending cold executing awaited (takeTurn_done rest taken checked goes_on) moves
    exact ⟨u, next, now, flags, given⟩
  · rintro data cause rfl ends
    exact step_cuts undisputed empty sending cold executing awaited (takeTurn_ending rest taken checked ends) moves
  · rintro reason data rfl
    obtain rfl : v = s := mild.refused reason data rfl
    exact step_refuses undisputed empty sending cold executing awaited rest is unpaired passes checked
  · rintro rfl
    exact step_waits undisputed empty cold executing awaited (takeTurn_waits rest taken checked) moves (mild.waits rfl)

end

end Sys2Proof.Machine
end

section
/-! A REQUEST frame from its bytes to its place (R173, R175, R176). -/

set_option Elab.async false

namespace Sys2Proof.Machine

variable {s u v w : State} {b : Batch} {c : Command} {cs : List Command} {r : CmdResult} {skip : Bool} {f : OutFrame}
  {tag : Byte} {payload body bytes : List Byte} {last t : Time} {q : Request} {x : FormRefusal}

/-! ### The form checks -/

theorem layoutCommands_length {n i : Nat} (formed : layoutCommands n i bytes = .inr cs) : cs.length = n := by
  induction n generalizing i bytes cs with
  | zero =>
    rw [layoutCommands] at formed
    by_cases empty : bytes = []
    · rw [if_pos empty] at formed
      exact Sum.inr.inj formed ▸ rfl
    · rw [if_neg empty] at formed
      cases formed
  | succ n ih =>
    match bytes, formed with
    | c :: g :: len :: rest, formed =>
      rw [layoutCommands] at formed
      split at formed
      · cases formed
      · split at formed
        · cases formed
        · next ds laid => exact (Sum.inr.inj formed) ▸ congrArg (· + 1) (ih laid)
    | [], formed | [_], formed | [_, _], formed => cases formed

/-- R176: a request that passes its form checks has its own tag, and 1 to 8 commands. -/
theorem formRequest_spec (formed : formRequest tag payload = .inr q) :
    q.tag = tag ∧ 1 ≤ q.commands.length ∧ q.commands.length ≤ 8 := by
  unfold formRequest at formed
  split at formed
  · next flags count rest =>
    split at formed
    · cases formed
    · next counted =>
      split at formed
      · cases formed
      · next cs laid =>
        split at formed
        · cases formed
        · cases formed
          have length : cs.length = count.toNat := layoutCommands_length laid
          have range : inRange count.toNat 1 8 = true := by simpa using counted
          simp only [inRange, Bool.and_eq_true, decide_eq_true_eq] at range
          exact ⟨rfl, by rw [length]; exact range.1, by rw [length]; exact range.2⟩
  · cases formed

/-! ### The receiver -/

/-- The Host Port with bytes fed to its receiver at one time. -/
def HostPort.fed (now : Time) (bytes : List Byte) (h : HostPort) : HostPort :=
  { h with receiving := bytes.foldl (feedByte now) h.receiving }

theorem foldl_receiveByte (bytes : List Byte) (s : State) :
    bytes.foldl (fun s b => receiveByte b s) s = s.modHost (HostPort.fed s.now bytes) := by
  induction bytes generalizing s with
  | nil => rfl
  | cons b bytes ih => exact ih (receiveByte b s)

theorem receiveRequest_of_whole (fed : bytes.foldl (feedByte s.now) s.host.receiving = some (body, last))
    (whole : frameComplete body = true) (request : requestOf body = some (tag, payload)) :
    receiveRequest bytes s = takeRequest tag payload (s.modHost HostPort.hunting) := by
  have received : (s.modHost (HostPort.fed s.now bytes)).host.receiving = some (body, last) := fed
  simp only [receiveRequest, foldl_receiveByte, received, whole, if_true, request]
  rfl

/-! ### The places -/

/-- The Host Port with a request waiting. -/
def HostPort.holding (q : Request) (h : HostPort) : HostPort := { h with waiting := some q }

/-- The Host Port with a request's batch begun. -/
def HostPort.begins (q : Request) (h : HostPort) : HostPort := { h with flags := clearFlags, executing := some q.batch }

theorem takeRequest_of_warm (warm : w.host.warm ≠ none) : takeRequest tag payload w = w :=
  if_pos (Option.isSome_iff_ne_none.2 warm)

section
variable (cold : w.host.warm = none)
include cold

theorem takeRequest_of_busy (busy : w.start ≠ none ∨ (w.host.executing ≠ none ∧ w.host.waiting ≠ none)) :
    takeRequest tag payload w = refuseRequest tag ⟨.busy, 0⟩ w := by
  refine (if_neg (by simp [cold])).trans ?_
  by_cases started : w.start.isSome = true
  · exact if_pos started
  · refine (if_neg started).trans (if_pos ?_)
    obtain ⟨executing, waiting⟩ := busy.resolve_left fun on => started (Option.isSome_iff_ne_none.2 on)
    simp [Option.isSome_iff_ne_none.2 executing, Option.isSome_iff_ne_none.2 waiting]

variable (started : w.start = none) (room : w.host.executing = none ∨ w.host.waiting = none)
include started room

theorem takeRequest_of_room : takeRequest tag payload w = (formRequest tag payload).elim (fun x => refuseRequest tag x w)
    fun q => if w.host.executing.isSome then w.modHost (HostPort.holding q) else nextTurn (beginBatch q w) := by
  have free : ¬ (w.host.executing.isSome && w.host.waiting.isSome) = true := by
    rcases room with none_executes | none_waits
    · simp [none_executes]
    · simp [none_waits]
  refine (if_neg (by simp [cold])).trans ((if_neg (by simp [started])).trans ((if_neg free).trans ?_))
  cases formRequest tag payload <;> rfl

theorem takeRequest_of_misformed (misformed : formRequest tag payload = .inl x) :
    takeRequest tag payload w = refuseRequest tag x w := by
  rw [takeRequest_of_room cold started room, misformed]
  rfl

theorem takeRequest_of_waiting (formed : formRequest tag payload = .inr q) (executing : w.host.executing ≠ none) :
    takeRequest tag payload w = w.modHost (HostPort.holding q) := by
  rw [takeRequest_of_room cold started room, formed]
  exact if_pos (Option.isSome_iff_ne_none.2 executing)

theorem takeRequest_of_idle (formed : formRequest tag payload = .inr q) (executing : w.host.executing = none) :
    takeRequest tag payload w = advanceQueue (takeTurn q.batch (w.modHost (HostPort.begins q))) := by
  have due : turnDue (w.modHost (HostPort.begins q)) = some q.batch := turnDue_of cold rfl rfl
  rw [takeRequest_of_room cold started room, formed]
  refine (if_neg (by simp [executing])).trans ?_
  show nextTurn (w.modHost (HostPort.begins q)) = _
  simp only [nextTurn, due]

end

/-- With its flags cleared, a batch has no flag that is true. -/
theorem flag_of_begins (q : Request) (w : State) (n : Nat) : flag (w.modHost (HostPort.begins q)) n = false := by
  show (List.replicate 8 false).getD n false = false
  rw [List.getD_eq_getElem?_getD, List.getElem?_replicate]
  split <;> rfl

/-- A batch whose first command waits for a flag to be true skips it. -/
theorem takeTurn_of_begun (commands : q.commands = c :: cs) (watched : guarded c.guard = true) (wants : guardSense c.guard = true)
    (w : State) : takeTurn q.batch (w.modHost (HostPort.begins q))
      = giveResult (q.batch.later cs) ⟨c.code, .skipped, .none, []⟩ (paired c.guard) (w.modHost (HostPort.begins q)) := by
  have passed := passedOver_of_barred (s := w.modHost (HostPort.begins q)) (b := q.batch) (c := c) (halted := false)
    (by simp [Request.batch]) (.inr (.inr ⟨watched, by rw [flag_of_begins, wants]; exact Bool.false_ne_true⟩))
  exact (takeTurn_passed (b := q.batch) commands passed).trans (by rw [Bool.and_comm]; rfl)

end Sys2Proof.Machine
end

section
/-! O56: requests refused, queued or run, and the statement whole. -/

set_option Elab.async false

namespace Sys2Proof.Machine

variable {s u v w : State} {b : Batch} {c : Command} {cs : List Command} {r : CmdResult} {skip : Bool} {f : OutFrame}
  {tag : Byte} {payload body bytes : List Byte} {last t : Time} {q : Request} {x : FormRefusal}

/-- The part with a whole frame taken from its receiver. -/
def State.received (t : Time) (s : State) : State := (s.atTime t).modHost HostPort.hunting

theorem moves_received (t : Time) (s : State) : Moves [.receiver] (s.atTime t) (s.received t) :=
  Moves.refl.to_modHost _ ⟨.inr ⟨rfl, rfl, rfl⟩, .inr rfl, .inl (by decide), .inr ⟨rfl, rfl, rfl⟩, .inr rfl, id, id⟩

/-- The part with a request's batch begun. -/
def State.begun (t : Time) (q : Request) (s : State) : State := (s.received t).modHost (HostPort.begins q)

theorem moves_begun (t : Time) (q : Request) (s : State) : Moves [.receiver, .batch, .flags] (s.atTime t) (s.begun t q) :=
  ((moves_received t s).mono (by simp)).to_modHost _
    ⟨.inl (by decide), .inl (by decide), .inr rfl, .inr ⟨rfl, rfl, rfl⟩, .inr rfl, id, fun _ => rfl⟩

/-- What a batch's results, and the commands to come, say of the request. -/
def Begun (q : Request) (before : List OutFrame) (u : State) : Prop :=
  (∃ b, u.host.executing = some b ∧ b.tag = q.tag ∧ b.halt = q.halt ∧ b.count = q.commands.length
      ∧ (b.results.map (·.code)) ++ (b.awaited.toList.map (·.code)) ++ (b.rest.map (·.code)) = q.commands.map (·.code))
    ∨ ∃ rs final, u.host.executing = none ∧ u.host.ready = before ++ [⟨.reply, q.tag, replyPayload rs, final⟩]
      ∧ rs.map (·.code) = q.commands.map (·.code)

theorem moves_advanceQueue : Moves [.batch, .flags] s (advanceQueue s) := Moves.refl.to_advanceQueue

theorem turned_moves (turned : Turned b c cs v u) : Moves [.batch, .transmit] v u := by
  cases turned with
  | given r skip _ => exact Moves.refl.to_giveResult _ _ _
  | cut r cause _ => exact moves_cutBatch _ _ _ _
  | waits => exact Moves.refl.to_modHost _ ⟨.inl (by decide), .inr rfl, .inr rfl, .inr ⟨rfl, rfl, rfl⟩, .inr rfl, id, id⟩

/-- The first turn of a batch, by what it leaves. -/
theorem begun_of_turned {x : State} (commands : q.commands = c :: cs) (turned : Turned q.batch c cs v x) (port : LeavesPort s v)
    (cold : s.host.warm = none) (waiting : s.host.waiting = none) (sending : s.host.sending = some f)
    (agreed : (advanceQueue x).Undisputed) :
    (finish (advanceQueue x)).host.waiting = none ∧ Begun q s.host.ready (finish (advanceQueue x)) := by
  cases turned with
  | given r skip own =>
    obtain ⟨goes_on, ended⟩ := finish_gives (f := f) agreed (port.warm.trans cold) port.waiting port.ready (port.sending.trans sending)
    by_cases more : cs = []
    · obtain ⟨none_waits, executing, -, ready⟩ := ended more
      rw [waiting] at executing
      refine ⟨none_waits, .inr ⟨[r], false, executing, ready, ?_⟩⟩
      rw [commands, more, List.map_singleton, List.map_singleton, own]
    · obtain ⟨waits, executing⟩ := goes_on more
      refine ⟨waits.trans waiting, .inl ⟨_, executing, rfl, rfl, rfl, ?_⟩⟩
      rw [commands]
      exact congrArg (· :: cs.map (·.code)) own
  | cut r cause own =>
    obtain ⟨executing, none_waits, -, ready⟩ := finish_cuts (f := f) agreed (port.sending.trans sending)
    refine ⟨none_waits, .inr ⟨r :: cs.map fun d => ⟨d.code, .notRun, .none, []⟩, true, executing, ?_, ?_⟩⟩
    · rw [← port.ready]
      exact ready
    · rw [commands, List.map_cons, List.map_cons, List.map_map, own]
      rfl
  | waits =>
    refine ⟨(finish_waiting agreed).trans (port.waiting.trans waiting), .inl ⟨_, finish_executing agreed, rfl, rfl, rfl, ?_⟩⟩
    rw [commands]
    rfl

section
variable (undisputed : s.Undisputed) (sending : s.host.sending = some f)
  (fed : bytes.foldl (feedByte (max s.now t)) s.host.receiving = some (body, last)) (whole : frameComplete body = true)
  (request : requestOf body = some (tag, payload))
include undisputed sending fed whole request

/-- A request that is refused at once (R175, R176). -/
theorem takes_request_refused (refused : takeRequest tag payload (s.received t) = refuseRequest tag x (s.received t)) :
    Takes (.hostRequestFrame t bytes) s [.receiver, .transmitter] fun u => u.host.receiving = none
      ∧ u.host.ready = s.host.ready ++ [⟨.refusal, tag, [byte x.reason.code, byte x.position], false⟩] := by
  have moves : Moves [.receiver, .transmit] (s.atTime t) (refuseRequest tag x (s.received t)) :=
    ((moves_received t s).mono (by simp)).to_readyFrame _
  exact .of_result (f := receiveRequest bytes) rfl rfl undisputed
    ((receiveRequest_of_whole (s := s.atTime t) fed whole request).trans refused) moves fun agreed _ =>
      ⟨finish_receiving agreed, (finish_of_sending (f := f) agreed sending).1⟩

/-- A request that comes after a batch that ends in a warm start (R179). -/
theorem takes_request_lost (warm : s.host.warm ≠ none) : Takes (.hostRequestFrame t bytes) s [.receiver] fun u =>
    u.host.receiving = none ∧ u.host.ready = s.host.ready :=
  .of_result (f := receiveRequest bytes) rfl rfl undisputed ((receiveRequest_of_whole (s := s.atTime t) fed whole request).trans
    (takeRequest_of_warm (w := s.received t) warm)) (moves_received t s) fun agreed _ =>
      ⟨finish_receiving agreed, (finish_of_sending (f := f) agreed sending).1⟩

variable (cold : s.host.warm = none) (started : s.start = none)
include cold started

/-- A request that waits for the batch that executes (R175). -/
theorem takes_request_waiting (formed : formRequest tag payload = .inr q) (executing : s.host.executing ≠ none)
    (room : s.host.executing = none ∨ s.host.waiting = none) :
    Takes (.hostRequestFrame t bytes) s [.receiver, .batch] fun u => u.host.receiving = none ∧ u.host.waiting = some q
      ∧ u.host.executing = s.host.executing ∧ u.host.flags = s.host.flags ∧ u.host.warm = none
      ∧ u.host.ready = s.host.ready := by
  have moves : Moves [.receiver, .batch] (s.atTime t) ((s.received t).modHost (HostPort.holding q)) :=
    ((moves_received t s).mono (by simp)).to_modHost _
      ⟨.inl (by decide), .inr rfl, .inr rfl, .inr ⟨rfl, rfl, rfl⟩, .inr rfl, id, id⟩
  exact .of_result (f := receiveRequest bytes) rfl rfl undisputed ((receiveRequest_of_whole (s := s.atTime t) fed whole request).trans
    (takeRequest_of_waiting (w := s.received t) cold started room formed executing)) moves fun agreed _ =>
      ⟨finish_receiving agreed, finish_waiting agreed, finish_executing agreed, finish_flags agreed, (finish_warm agreed).trans cold,
        (finish_of_sending (f := f) agreed sending).1⟩

/-! ### A batch that begins -/

variable (formed : formRequest tag payload = .inr q) (executing : s.host.executing = none) (waiting : s.host.waiting = none)
include formed executing

omit undisputed sending in
theorem receiveRequest_of_begun : receiveRequest bytes (s.atTime t)
    = advanceQueue (takeTurn q.batch (s.begun t q)) :=
  (receiveRequest_of_whole (s := s.atTime t) fed whole request).trans
    (takeRequest_of_idle (w := s.received t) cold started (.inl executing) formed executing)

include waiting

/-- What becomes of a batch at the turn of its first command. -/
theorem request_begins : ∃ u, exec (.hostRequestFrame t bytes) s = .next u ∧ u.host.receiving = none ∧ u.host.waiting = none
    ∧ ((∃ b, u.host.executing = some b ∧ b.tag = tag ∧ b.halt = q.halt ∧ b.count = q.commands.length
          ∧ (b.results.map (·.code)) ++ (b.awaited.toList.map (·.code)) ++ (b.rest.map (·.code)) = q.commands.map (·.code))
      ∨ ∃ rs final, u.host.executing = none ∧ u.host.ready = s.host.ready ++ [⟨.reply, tag, replyPayload rs, final⟩]
        ∧ rs.map (·.code) = q.commands.map (·.code)) := by
  obtain ⟨own, some_commands, -⟩ := formRequest_spec formed
  obtain ⟨c, cs, commands⟩ : ∃ c cs, q.commands = c :: cs := List.exists_cons_of_length_pos some_commands
  obtain ⟨v, moves, turned⟩ := takeTurn_turned (b := q.batch) commands (s.begun t q)
  have begins := receiveRequest_of_begun fed whole request cold started formed executing
  have next : exec (.hostRequestFrame t bytes) s = .next (finish (receiveRequest bytes (s.atTime t))) := by
    show Host.Outcome.next (finish (receiveRequest bytes (s.comeTo t))) = _
    rw [comeTo_of_prompt (.inl (turnDue_eq_none (.inl executing)))]
  have agreed : (receiveRequest bytes (s.atTime t)).Undisputed :=
    (Moves.refl (ks := batchKinds)).to_receiveRequest bytes |>.undisputed (s := s.atTime t) undisputed
  have receiving : (takeTurn q.batch (s.begun t q)).host.receiving = none :=
    Eq.trans ((turned_moves turned).exactly .receiver) (moves.exactly .receiver)
  refine ⟨_, next, ?_⟩
  rw [begins] at agreed ⊢
  obtain ⟨none_waits, outcome⟩ := begun_of_turned (s := s.begun t q) commands turned moves.leavesPort cold waiting sending agreed
  refine ⟨(finish_receiving agreed).trans (Eq.trans (moves_advanceQueue.exactly .receiver) receiving), none_waits, ?_⟩
  rw [← own]
  exact outcome

omit waiting undisputed sending in
theorem receiveRequest_of_skipped (commands : q.commands = c :: cs) (watched : guarded c.guard = true)
    (wants : guardSense c.guard = true) : receiveRequest bytes (s.atTime t) = advanceQueue (giveResult (q.batch.later cs)
      ⟨c.code, .skipped, .none, []⟩ (paired c.guard) (s.begun t q)) :=
  (receiveRequest_of_begun fed whole request cold started formed executing).trans
    (congrArg advanceQueue (takeTurn_of_begun commands watched wants (s.received t)))

/-- A single command that is skipped. -/
theorem takes_request_skipped (commands : q.commands = [c]) (watched : guarded c.guard = true) (wants : guardSense c.guard = true) :
    Takes (.hostRequestFrame t bytes) s [.receiver, .batch, .transmitter] fun u => u.host.receiving = none
      ∧ u.host.executing = none ∧ u.host.waiting = none ∧ u.host.warm = none ∧ u.host.flags = List.replicate 8 false
      ∧ u.host.ready = s.host.ready ++ [⟨.reply, tag, [1, byte c.code, 1, 0, 0], false⟩] := by
  have moves : Moves [.receiver, .batch, .flags, .transmit] (s.atTime t) (advanceQueue (giveResult (q.batch.later [])
      ⟨c.code, .skipped, .none, []⟩ (paired c.guard) (s.begun t q))) :=
    ((moves_begun t q s).mono (by simp)).trans (moves_given.mono (by simp))
  refine .of_result (f := receiveRequest bytes) rfl rfl undisputed (receiveRequest_of_skipped fed whole request
    cold started formed executing commands watched wants) moves fun agreed _ => ?_
  obtain ⟨u_cold, flags⟩ := finish_given_flags agreed cold
  obtain ⟨-, ended⟩ := finish_gives (s := s.begun t q) (v := s.begun t q) (f := f) agreed cold rfl rfl sending
  obtain ⟨none_waits, none_executes, -, ready⟩ := ended rfl
  have waits : (s.begun t q).host.waiting = none := waiting
  rw [waits] at none_executes
  obtain ⟨own, -⟩ := formRequest_spec formed
  refine ⟨(finish_receiving agreed).trans (Eq.trans (moves_given.exactly .receiver) rfl), none_executes, none_waits, u_cold,
    flags (.inr waiting), ?_⟩
  rw [← own]
  exact ready

/-- A first command that is skipped, with others to come. -/
theorem takes_request_skips (commands : q.commands = c :: cs) (more : cs ≠ []) (watched : guarded c.guard = true)
    (wants : guardSense c.guard = true) : Takes (.hostRequestFrame t bytes) s [.receiver, .batch] fun u =>
      u.host.receiving = none ∧ u.host.waiting = none ∧ u.host.warm = none ∧ u.host.flags = List.replicate 8 false
        ∧ u.host.ready = s.host.ready
        ∧ u.host.executing = some { tag := tag, halt := q.halt, count := q.commands.length
                                    results := [⟨c.code, .skipped, .none, []⟩], rest := cs, skip := paired c.guard } := by
  have gives := moves_given_of_more (b := q.batch.later cs) (r := ⟨c.code, .skipped, .none, []⟩) (skip := paired c.guard)
    (s := s.begun t q) more
  have moves : Moves [.receiver, .batch, .flags] (s.atTime t) (advanceQueue (giveResult (q.batch.later cs)
      ⟨c.code, .skipped, .none, []⟩ (paired c.guard) (s.begun t q))) := (moves_begun t q s).trans (gives.mono (by simp))
  refine .of_result (f := receiveRequest bytes) rfl rfl undisputed (receiveRequest_of_skipped fed whole request
    cold started formed executing commands watched wants) moves fun agreed _ => ?_
  obtain ⟨u_cold, flags⟩ := finish_given_flags agreed cold
  obtain ⟨goes_on, -⟩ := finish_gives (s := s.begun t q) (v := s.begun t q) (f := f) agreed cold rfl rfl sending
  obtain ⟨waits, executes⟩ := goes_on more
  obtain ⟨own, -⟩ := formRequest_spec formed
  have frames : (advanceQueue (giveResult (q.batch.later cs) ⟨c.code, .skipped, .none, []⟩ (paired c.guard)
      (s.begun t q))).host.frames = s.host.frames := moves.frames_eq
  refine ⟨(finish_receiving agreed).trans (Eq.trans (gives.exactly .receiver) rfl), waits.trans waiting, u_cold, flags (.inl more), ?_, ?_⟩
  · rw [(finish_of_sending (f := f) agreed ((congrArg (·.1) frames).trans sending)).1]
    exact congrArg (·.2) frames
  · rw [← own]
    exact executes

end

/-- Settles O56: requests by what the places hold, and each turn by what becomes of its command. -/
theorem requestsAreRefusedQueuedOrRun : Obligations.RequestsAreRefusedQueuedOrRun := by
  unfold Obligations.RequestsAreRefusedQueuedOrRun
  refine ⟨?_, fun s t later => turnDue_comeTo later, ?_⟩
  · intro s t bytes body last tag payload f undisputed sending fed whole request
    refine ⟨fun warm => takes_request_lost undisputed sending fed whole request warm, fun cold busy => ?_,
      fun cold started room => ⟨fun x misformed => ?_, fun q formed => ?_⟩⟩
    · exact takes_request_refused (x := ⟨.busy, 0⟩) undisputed sending fed whole request
        (takeRequest_of_busy (w := s.received t) cold busy)
    · exact takes_request_refused undisputed sending fed whole request
        (takeRequest_of_misformed (w := s.received t) cold started room misformed)
    · obtain ⟨own, least, most⟩ := formRequest_spec formed
      refine ⟨own, least, most, fun executing =>
        takes_request_waiting undisputed sending fed whole request cold started formed executing room, fun executing waiting =>
          ⟨request_begins undisputed sending fed whole request cold started formed executing waiting, fun c commands watched wants =>
            takes_request_skipped undisputed sending fed whole request cold started formed executing waiting commands watched wants,
            fun c cs commands more watched wants => takes_request_skips undisputed sending fed whole request cold started formed
              executing waiting commands more watched wants⟩⟩
  · rintro s f b c cs halted undisputed empty sending cold executing awaited rest is
    refine ⟨fun result results barred =>
      step_passesOver undisputed empty sending cold executing awaited rest is results barred, ?_⟩
    rintro rfl unpaired passes
    refine ⟨fun reason refused => step_refuses undisputed empty sending cold executing awaited rest is unpaired passes
        (runChecked_of_refused refused s),
      fun passed ran runs => ?_⟩
    obtain ⟨done, ends, refused, waits⟩ :=
      step_runs undisputed empty sending cold executing awaited rest is unpaired passes passed runs
    refine ⟨done, ends, refused, fun answer => ?_⟩
    obtain ⟨u, next, now, flags, waiting, executing⟩ := waits answer
    refine ⟨u, next, now, flags, waiting, executing.trans (congrArg some ?_)⟩
    rw [Batch.waitsFor, ← unpaired]

end Sys2Proof.Machine
end
